-- ==== Sys2Proof/Word.lean ====
section
/-! DEFINITION. The words of the part: bytes, sets of groups, network times, the two preemption inputs and
the levels found on the input pins. -/

namespace Sys2Proof

/-- One byte of a packet or a frame (R213). -/
abbrev Byte := BitVec 8

/-- A set of signal groups or of zones: the lowest bit stands for 1, the highest for 16 (R213). -/
abbrev GroupSet := BitVec 16

/-- A signal group, counted from 0: group `g` of the spec is `g - 1` here. -/
abbrev Group := Fin 16

/-- A network time: week index and millisecond of week (00_scope.md, Conventions). -/
structure NetTime where
  week : Nat
  ms : Nat
  deriving DecidableEq, Repr

/-- The two preemption inputs: PE1 (rail, the higher) and PE2 (emergency vehicle). -/
inductive PreemptInput where
  | pe1
  | pe2
  deriving DecidableEq, Repr

/-- The levels on the sampled input pins (R122, R136, R142, R146): a set bit or `true` is an active input. -/
structure Levels where
  demand : GroupSet
  greenSense : GroupSet
  redSense : GroupSet
  pe1 : Bool
  pe2 : Bool
  cabinetFlash : Bool
  deriving DecidableEq, Repr

end Sys2Proof
end

