-- ==== Sys2Proof/Machine/Bytes.lean ====
section
/-! DEFINITION. Bytes: most significant byte first (R213), and the 16-bit CRC of signatures, packets and frames
(R27, R215). -/

namespace Sys2Proof.Machine

/-- `v` in `n` bytes, most significant first, modulo 256^n (R213). -/
def be : Nat → Nat → List Byte
  | 0, _ => []
  | n + 1, v => be n (v / 256) ++ [BitVec.ofNat 8 v]

/-- A signed quantity in `n` bytes, two's complement (R213). -/
def beInt (n : Nat) (v : Int) : List Byte :=
  be n (v % (256 ^ n : Nat)).toNat

/-- The number a run of bytes spells, most significant first (R213). -/
def readBe (bytes : List Byte) : Nat :=
  bytes.foldl (fun a b => a * 256 + b.toNat) 0

/-- The field of `len` bytes at `offset` of a body. -/
def field (body : List Byte) (offset len : Nat) : Nat :=
  readBe ((body.drop offset).take len)

/-- The network time at `offset`: week index (2), then millisecond of week (4) (R213). -/
def timeField (body : List Byte) (offset : Nat) : NetTime :=
  { week := field body offset 2, ms := field body (offset + 2) 4 }

/-- A network time in 6 bytes (R213). -/
def timeBytes (t : NetTime) : List Byte :=
  be 2 t.week ++ be 4 t.ms

/-- One bit through the CRC register with generator x^16+x^12+x^5+1 (R27). -/
def crcBit (register : BitVec 16) (bit : Bool) : BitVec 16 :=
  if Bool.xor register.msb bit then (register <<< 1) ^^^ 0x1021#16 else register <<< 1

/-- One byte through the CRC register, most significant bit first (R27). -/
def crcByte (register : BitVec 16) (b : Byte) : BitVec 16 :=
  [7, 6, 5, 4, 3, 2, 1, 0].foldl (fun r i => crcBit r (b.getLsbD i)) register

/-- The CRC over a run of bytes, starting from all ones, not complemented (R27). -/
def crc16 (bytes : List Byte) : BitVec 16 :=
  bytes.foldl crcByte 0xFFFF#16

/-- A run of bytes followed by its CRC (R215). -/
def withCrc (bytes : List Byte) : List Byte :=
  bytes ++ be 2 (crc16 bytes).toNat

/-- Check 1 of R201 passes: the packet holds its stated body and a CRC that agrees with the bytes before it. -/
def packetSound (packet : List Byte) : Bool :=
  decide (5 + field packet 2 1 ≤ packet.length) &&
    decide (field packet (3 + field packet 2 1) 2 = (crc16 (packet.take (3 + field packet 2 1))).toNat)

/-- A request packet: code, sequence number, body length, body, CRC (R215). -/
def requestPacket (code seq : Byte) (body : List Byte) : List Byte :=
  withCrc (code :: seq :: BitVec.ofNat 8 body.length :: body)

/-- The request codes of R215's table. -/
def requestCodes : List Byte :=
  [0x01, 0x02, 0x03, 0x04, 0x05, 0x10, 0x11, 0x12, 0x18, 0x19, 0x1A, 0x1B, 0x1C, 0x20, 0x21, 0x22, 0x28, 0x30, 0x31,
    0x38, 0x39, 0x40, 0x41]

/-- The body lengths a line frame of the kind may have (R215): TIME 1, ORDER 2, CANCEL 3. -/
def frameLengths (kind : Byte) : List Nat :=
  if kind = 1#8 then [9, 12] else if kind = 2#8 then [28] else if kind = 3#8 then [18] else []

/-- The greatest body length of a line frame (R215). -/
def greatestBody : Nat := 28

/-- The CRC of a line frame, over kind, sender, body length and body (R215). -/
def frameCrc (kind sender : Byte) (body : List Byte) : BitVec 16 :=
  crc16 (kind :: sender :: BitVec.ofNat 8 body.length :: body)

/-- The four checks of R190 pass. -/
def frameValid (own : Bool) (kind sender : Byte) (body : List Byte) (crc : BitVec 16) : Bool :=
  !own && decide (crc = frameCrc kind sender body) && decide (body.length ∈ frameLengths kind)

end Sys2Proof.Machine
end

