-- ==== Sys2Proof/Syntax.lean ====
section
/-! DEFINITION. The commands: one constructor for each row of spec/opcode_table.json, in the table's order.
A request carries the sequence number and the body bytes of a packet whose CRC agrees (R200, R201). -/

namespace Sys2Proof

/-- The 66 commands of the part. -/
inductive Instr where
  /-- IDENTIFY (R205) -/
  | identify (seq : Byte) (body : List Byte)
  /-- STATUS (R206) -/
  | status (seq : Byte) (body : List Byte)
  /-- START (R202, R203) -/
  | start (seq : Byte) (body : List Byte)
  /-- RESTART (R204) -/
  | restart (seq : Byte) (body : List Byte)
  /-- SET_TIME (R14, R15) -/
  | setTime (seq : Byte) (body : List Byte)
  /-- LOAD_PLAN (R25, R28) -/
  | loadPlan (seq : Byte) (body : List Byte)
  /-- ERASE_PLAN (R29) -/
  | erasePlan (seq : Byte) (body : List Byte)
  /-- READ_PLAN (R30) -/
  | readPlan (seq : Byte) (body : List Byte)
  /-- ADD_ENTRY (R47) -/
  | addEntry (seq : Byte) (body : List Byte)
  /-- DROP_ENTRY (R48) -/
  | dropEntry (seq : Byte) (body : List Byte)
  /-- READ_TIMETABLE (R53) -/
  | readTimetable (seq : Byte) (body : List Byte)
  /-- ADD_SPECIAL_DAY (R49) -/
  | addSpecialDay (seq : Byte) (body : List Byte)
  /-- DROP_SPECIAL_DAY (R50) -/
  | dropSpecialDay (seq : Byte) (body : List Byte)
  /-- ISSUE_ORDER (R67, R68) -/
  | issueOrder (seq : Byte) (body : List Byte)
  /-- CANCEL_ORDER (R71) -/
  | cancelOrder (seq : Byte) (body : List Byte)
  /-- READ_ORDERS (R76) -/
  | readOrders (seq : Byte) (body : List Byte)
  /-- PLACE_CALL (R123) -/
  | placeCall (seq : Byte) (body : List Byte)
  /-- READ_SAVE (R163) -/
  | readSave (seq : Byte) (body : List Byte)
  /-- REWRITE_SAVE (R161) -/
  | rewriteSave (seq : Byte) (body : List Byte)
  /-- READ_FAULTS (R178) -/
  | readFaults (seq : Byte) (body : List Byte)
  /-- ACK_FAULT (R175) -/
  | ackFault (seq : Byte) (body : List Byte)
  /-- READ_REPORTS (R210) -/
  | readReports (seq : Byte) (body : List Byte)
  /-- READ_NEIGHBOURS (R207) -/
  | readNeighbours (seq : Byte) (body : List Byte)
  /-- UNKNOWN_REQUEST: a sound packet whose code is none of the part's requests (R201, check 2) -/
  | unknownRequest (code seq : Byte) (body : List Byte)
  /-- READ_TRANSFER: the host reads `count` bytes (R200) -/
  | readTransfer (count : Nat)
  /-- POWER_ON_RESET, also caused by the RESET pin (R211) -/
  | powerOnReset
  /-- DECISECOND_BOUNDARY, with the levels that are sampled at it (R1) -/
  | decisecondBoundary (levels : Levels)
  /-- ROUND (R6 to R13) -/
  | round
  /-- TIME_FRAME_BUILD (R16) -/
  | timeFrameBuild
  /-- CALENDAR_INSTANT (R44) -/
  | calendarInstant
  /-- ORDER_START_INSTANT (R65) -/
  | orderStartInstant
  /-- ORDER_END_INSTANT (R65) -/
  | orderEndInstant
  /-- REPEAT_INSTANT of the issued order with this issue stamp (R69) -/
  | repeatInstant (stamp : NetTime)
  /-- ISSUED_END_INSTANT of the issued order with this issue stamp (R70) -/
  | issuedEndInstant (stamp : NetTime)
  /-- TIME_FRAME_RECEIVED: header sender and body (R4) -/
  | timeFrameReceived (sender : Byte) (body : List Byte)
  /-- ORDER_FRAME_RECEIVED: header sender and body (R59) -/
  | orderFrameReceived (sender : Byte) (body : List Byte)
  /-- CANCEL_FRAME_RECEIVED: header sender and body (R62) -/
  | cancelFrameReceived (sender : Byte) (body : List Byte)
  /-- FRAME_REJECTED: a completed frame, whether it was own readback, and the CRC read (R190) -/
  | frameRejected (own : Bool) (kind sender : Byte) (body : List Byte) (crc : BitVec 16)
  /-- BODY_LENGTH_EXCEEDED: the body length of the header (R189) -/
  | bodyLengthExceeded (length : Byte)
  /-- FRAME_ENDED_EARLY (R189) -/
  | frameEndedEarly
  /-- RELAY_WAIT_EXPIRY (R184) -/
  | relayWaitExpiry
  /-- IDLE_GAP_MET (R185) -/
  | idleGapMet
  /-- DEFER_TIMEOUT (R185) -/
  | deferTimeout
  /-- FRAME_SENT (R186) -/
  | frameSent
  /-- COLLISION (R187) -/
  | collision
  /-- BACKOFF_EXPIRY (R187) -/
  | backoffExpiry
  /-- CYCLE_END (R88) -/
  | cycleEnd
  /-- STAGE_GREEN_BEGIN (R115) -/
  | stageGreenBegin
  /-- GREEN_END (R116) -/
  | greenEnd
  /-- YELLOW_END (R118) -/
  | yellowEnd
  /-- TRAILING_YELLOW_END of a group (R120) -/
  | trailingYellowEnd (group : Group)
  /-- STARTUP_RED_END (R112) -/
  | startupRedEnd
  /-- FLASH_TOGGLE (R134) -/
  | flashToggle
  /-- GREEN_SENSE_FAULTED of a group (R139) -/
  | greenSenseFaulted (group : Group)
  /-- GREEN_SENSE_CLEAN of a group (R139) -/
  | greenSenseClean (group : Group)
  /-- LAMP_OUT_FAULTED of a group (R140) -/
  | lampOutFaulted (group : Group)
  /-- LAMP_OUT_CLEAN of a group (R140) -/
  | lampOutClean (group : Group)
  /-- PREEMPT_ACTIVATION of an input (R155) -/
  | preemptActivation (input : PreemptInput)
  /-- PREEMPT_RELEASE of an input (R146) -/
  | preemptRelease (input : PreemptInput)
  /-- GREEN_HOLD_END (R151) -/
  | greenHoldEnd
  /-- CLEARING_YELLOW_END of a group (R151) -/
  | clearingYellowEnd (group : Group)
  /-- PREEMPT_ALL_RED_END (R151) -/
  | preemptAllRedEnd
  /-- MINIMUM_DWELL_REACHED (R153) -/
  | minimumDwellReached
  /-- MAXIMUM_HOLD (R154) -/
  | maximumHold
  /-- START_DELIMITER_END (R189) -/
  | startDelimiterEnd
  /-- MALFORMED_REQUEST: the bytes of the packet as received (R201, check 1) -/
  | malformedRequest (packet : List Byte)
  deriving DecidableEq, Repr

end Sys2Proof
end

