-- ==== Sys2Proof/WellFormed.lean ====
section
/-! DEFINITION. Which commands can come: what a packet, a frame or an instant of the row can carry. -/

namespace Sys2Proof

open Machine in
/-- A command that its row describes. A request body fits the one-byte body length (R215), an unknown code is no
request's code (R201), a malformed packet fails check 1 of R201, a handed-on frame has a length of its kind (R190), a
rejected frame fails a check of R190, an exceeding length exceeds the greatest (R189), and an issue stamp is a network
time. -/
def wellFormed : Instr → Bool
  | .identify _ body | .status _ body | .start _ body | .restart _ body | .setTime _ body | .loadPlan _ body
  | .erasePlan _ body | .readPlan _ body | .addEntry _ body | .dropEntry _ body | .readTimetable _ body
  | .addSpecialDay _ body | .dropSpecialDay _ body | .issueOrder _ body | .cancelOrder _ body | .readOrders _ body
  | .placeCall _ body | .readSave _ body | .rewriteSave _ body | .readFaults _ body | .ackFault _ body
  | .readReports _ body | .readNeighbours _ body => decide (body.length ≤ 255)
  | .unknownRequest code _ body => decide (body.length ≤ 255) && decide (code ∉ requestCodes)
  | .malformedRequest packet => !packetSound packet
  | .timeFrameReceived _ body => decide (body.length ∈ frameLengths 1)
  | .orderFrameReceived _ body => decide (body.length ∈ frameLengths 2)
  | .cancelFrameReceived _ body => decide (body.length ∈ frameLengths 3)
  | .frameRejected own kind sender body crc =>
      decide (body.length ≤ greatestBody) && !frameValid own kind sender body crc
  | .bodyLengthExceeded length => decide (greatestBody < length.toNat)
  | .repeatInstant stamp | .issuedEndInstant stamp => decide (stamp.week < 65536) && decide (stamp.ms < 604800000)
  | .readTransfer _ | .powerOnReset | .decisecondBoundary _ | .round | .timeFrameBuild | .calendarInstant
  | .orderStartInstant | .orderEndInstant | .frameEndedEarly | .relayWaitExpiry | .idleGapMet | .deferTimeout
  | .frameSent | .collision | .backoffExpiry | .cycleEnd | .stageGreenBegin | .greenEnd | .yellowEnd
  | .trailingYellowEnd _ | .startupRedEnd | .flashToggle | .greenSenseFaulted _ | .greenSenseClean _
  | .lampOutFaulted _ | .lampOutClean _ | .preemptActivation _ | .preemptRelease _ | .greenHoldEnd
  | .clearingYellowEnd _ | .preemptAllRedEnd | .minimumDwellReached | .maximumHold | .startDelimiterEnd => true

end Sys2Proof
end

