-- ==== Sys2Proof/Decode.lean ====
section
/-! DEFINITION. The table of this block gives its rows no bits, so no word spells a command. The commands that stand
for a request packet are read from the packet's bytes (R201, R215) and written back to them. -/

namespace Sys2Proof

/-- The command a word of the table's bits spells: the rows give no bits. -/
def decodeTableWord (_nbits _w : Nat) : Option Instr :=
  none

open Machine in
/-- The request command of a code, by the table of R215. -/
def requestOfCode (code seq : Byte) (body : List Byte) : Instr :=
  match code.toNat with
  | 0x01 => .identify seq body
  | 0x02 => .status seq body
  | 0x03 => .start seq body
  | 0x04 => .restart seq body
  | 0x05 => .setTime seq body
  | 0x10 => .loadPlan seq body
  | 0x11 => .erasePlan seq body
  | 0x12 => .readPlan seq body
  | 0x18 => .addEntry seq body
  | 0x19 => .dropEntry seq body
  | 0x1A => .readTimetable seq body
  | 0x1B => .addSpecialDay seq body
  | 0x1C => .dropSpecialDay seq body
  | 0x20 => .issueOrder seq body
  | 0x21 => .cancelOrder seq body
  | 0x22 => .readOrders seq body
  | 0x28 => .placeCall seq body
  | 0x30 => .readSave seq body
  | 0x31 => .rewriteSave seq body
  | 0x38 => .readFaults seq body
  | 0x39 => .ackFault seq body
  | 0x40 => .readReports seq body
  | 0x41 => .readNeighbours seq body
  | _ => .unknownRequest code seq body

open Machine in
/-- The command an arriving packet is: checks 1 and 2 of R201, then the request its code names. -/
def commandOfPacket (packet : List Byte) : Instr :=
  if packetSound packet then
    requestOfCode (packet.getD 0 0) (packet.getD 1 0) ((packet.drop 3).take (field packet 2 1))
  else .malformedRequest packet

open Machine in
/-- The packet of a command that stands for one, laid out as R215 gives. -/
def packetOfCommand : Instr → Option (List Byte)
  | .identify seq body => some (requestPacket 0x01 seq body)
  | .status seq body => some (requestPacket 0x02 seq body)
  | .start seq body => some (requestPacket 0x03 seq body)
  | .restart seq body => some (requestPacket 0x04 seq body)
  | .setTime seq body => some (requestPacket 0x05 seq body)
  | .loadPlan seq body => some (requestPacket 0x10 seq body)
  | .erasePlan seq body => some (requestPacket 0x11 seq body)
  | .readPlan seq body => some (requestPacket 0x12 seq body)
  | .addEntry seq body => some (requestPacket 0x18 seq body)
  | .dropEntry seq body => some (requestPacket 0x19 seq body)
  | .readTimetable seq body => some (requestPacket 0x1A seq body)
  | .addSpecialDay seq body => some (requestPacket 0x1B seq body)
  | .dropSpecialDay seq body => some (requestPacket 0x1C seq body)
  | .issueOrder seq body => some (requestPacket 0x20 seq body)
  | .cancelOrder seq body => some (requestPacket 0x21 seq body)
  | .readOrders seq body => some (requestPacket 0x22 seq body)
  | .placeCall seq body => some (requestPacket 0x28 seq body)
  | .readSave seq body => some (requestPacket 0x30 seq body)
  | .rewriteSave seq body => some (requestPacket 0x31 seq body)
  | .readFaults seq body => some (requestPacket 0x38 seq body)
  | .ackFault seq body => some (requestPacket 0x39 seq body)
  | .readReports seq body => some (requestPacket 0x40 seq body)
  | .readNeighbours seq body => some (requestPacket 0x41 seq body)
  | .unknownRequest code seq body => some (requestPacket code seq body)
  | .malformedRequest packet => some packet
  | _ => none

end Sys2Proof
end

