-- ==== Sys2Proof/Config.lean ====
section
/-! DEFINITION. What the spec leaves open: values without a body, so that nothing can be proved of what they are.
`State.draws` counts the draws, so that each draw is a fresh value. -/

namespace Sys2Proof

/-- The slots of a relay wait, 0..15, "drawn at random and independently at each station" (R184). Log 8. -/
opaque Config.relayWaitDraw : Nat → BitVec 4

/-- The random bits a backoff wait of 0..(2^a − 1) slots is cut from, a at most 6 (R187). Log 8. -/
opaque Config.backoffDraw : Nat → BitVec 6

/-- Whether the part of a millisecond that preamble and delimiter take beyond their whole ones ends a further millisecond
of the timebase: the part already run is nowhere held (R17). Log 9. -/
opaque Config.stampDraw : Nat → BitVec 1

/-- The sequence number byte of the empty packet (R200 gives its request code byte alone). Log 10. -/
opaque Config.emptyPacketSequence : BitVec 8

/-- The response code byte of the empty packet (R200 gives its request code byte alone). Log 10. -/
opaque Config.emptyPacketResponse : BitVec 8

/-- What is echoed for a request code or sequence number that a packet ended too early to carry (R201). Log 10. -/
opaque Config.missingEcho : Nat → BitVec 8

/-- The old state in the ORDER_STATE report of an order stored just before, which had no state yet (R64). Log 12. -/
opaque Config.newOrderOldState : BitVec 8

end Sys2Proof
end

