-- ==== Sys2Proof/Machine/State.lean ====
section
/-! DEFINITION. The state of the part, block by block, as plain data, and its value after power-on reset. -/

namespace Sys2Proof.Machine

/-! ### Station Clock (01) -/

/-- Clock states (R11). -/
inductive ClockState where
  | alone | tracking | synced | holdover
  deriving DecidableEq, Repr

/-- Coordination states (R82). -/
inductive CoordState where
  | idle | isolated | correcting | coordinated | suspended
  deriving DecidableEq, Repr

/-- An entry of the neighbour table (R4). -/
structure Neighbour where
  station : Nat
  /-- how far the neighbour's clock is ahead of this one's, in ms -/
  lastD : Int
  age : Nat
  clockState : ClockState
  anchored : Bool
  coordState : CoordState
  /-- governing plan number and signature, absent when the frame carried none -/
  governing : Option (Nat × BitVec 16)
  disputed : Bool
  deriving DecidableEq, Repr

/-- The Station Clock (R1 to R20). -/
structure StationClock where
  reading : NetTime
  state : ClockState
  neighbours : List Neighbour
  slew : Int
  backlog : Int
  setTimeMark : Bool
  holdover : Nat
  disputed : Nat
  tableFull : Nat
  numberConflict : Nat
  rejectedTime : Nat
  isolatedRaised : Bool
  deriving DecidableEq, Repr

/-! ### Plan Store (02) -/

/-- Slot states (R22). -/
inductive SlotState where
  | empty | stored | staged | active
  deriving DecidableEq, Repr

/-- A stage record (R24); the demand class is its code, FIXED 0 or ON_CALL 1. -/
structure StageRecord where
  green : GroupSet
  split : Nat
  gmin : Nat
  ped : Nat
  yellow : Nat
  allRed : Nat
  demandClass : Nat
  demandInput : Nat
  deriving DecidableEq, Repr

/-- A plan record (R23). -/
structure PlanRecord where
  number : Nat
  cycle : Nat
  offset : Nat
  tolerance : Nat
  lengthen : Nat
  shorten : Nat
  transitions : Nat
  stageCount : Nat
  stages : List StageRecord
  deriving DecidableEq, Repr

/-- A stored plan: record, signature and derived quantities (R21, R26). -/
structure StoredPlan where
  plan : PlanRecord
  signature : BitVec 16
  spares : List Nat
  spareSum : Nat
  deriving DecidableEq, Repr

/-- A slot (R21). -/
structure Slot where
  state : SlotState
  plan : Option StoredPlan
  pinned : Bool
  deriving DecidableEq, Repr

/-- The 32 slots; the slot of plan `n` stands at `n - 1` (R21). -/
structure PlanStore where
  slots : Vector Slot 32
  deriving DecidableEq, Repr

/-! ### Timetable (03) -/

/-- A weekly timetable entry (R39); bits of the day types from the lowest: Monday..Sunday, A, B. -/
structure Entry where
  days : BitVec 16
  start : Nat
  plan : Nat
  deriving DecidableEq, Repr

/-- The two types of a special day (R40). -/
inductive SpecialType where
  | a | b
  deriving DecidableEq, Repr

/-- A special day (R40). -/
structure SpecialDay where
  week : Nat
  day : Nat
  type : SpecialType
  deriving DecidableEq, Repr

/-- The source of the scheduled plan (R42, R43). -/
inductive Source where
  | today (start : Nat)
  | earlier (days start : Nat)
  | default
  deriving DecidableEq, Repr

/-- The Timetable (R39 to R55). -/
structure Timetable where
  entries : List Entry
  specials : List SpecialDay
  scheduled : Option Nat
  source : Source
  editCount : Nat
  deriving DecidableEq, Repr

/-! ### Order Handler (04) -/

/-- A reference: DAILY, or FIXED with a reference instant (R84). -/
inductive Reference where
  | daily
  | fixed (instant : NetTime)
  deriving DecidableEq, Repr

/-- A plan with its reference: a governing plan, an adoption request, an active plan (R72, R84). -/
structure Adoption where
  plan : Nat
  reference : Reference
  deriving DecidableEq, Repr

/-- The key of an order: origin and issue stamp. -/
structure OrderKey where
  origin : Nat
  stamp : NetTime
  deriving DecidableEq, Repr

/-- Entry states of the order list (R56). -/
inductive OrderState where
  | pending | inForce | eclipsed | mismatch | cancelled
  deriving DecidableEq, Repr

/-- The fields of an order that a CANCEL does not carry (R56). -/
structure OrderDetail where
  plan : Nat
  signature : BitVec 16
  start : NetTime
  priority : Nat
  deriving DecidableEq, Repr

/-- An entry of the order list (R56); a cancel placeholder has no detail (R63). -/
structure OrderEntry where
  key : OrderKey
  revision : Nat
  detail : Option OrderDetail
  finish : NetTime
  zones : GroupSet
  hop : Nat
  state : OrderState
  storedAt : NetTime
  deriving DecidableEq, Repr

/-- An entry of the issued list (R67). -/
structure IssuedEntry where
  key : OrderKey
  revision : Nat
  detail : OrderDetail
  finish : NetTime
  zones : GroupSet
  hop : Nat
  announce : Nat
  nextRepeat : NetTime
  deriving DecidableEq, Repr

/-- The governing source (R72). -/
inductive GovSource where
  | schedule
  | order (key : OrderKey)
  deriving DecidableEq, Repr

/-- The Order Handler (R56 to R78). -/
structure OrderHandler where
  entries : List OrderEntry
  issued : List IssuedEntry
  governing : Option Adoption
  govSource : GovSource
  planMissing : Bool
  outOfZone : Nat
  rejected : Nat
  refusedRoom : Nat
  evicted : Nat
  droppedCancel : Nat
  deriving DecidableEq, Repr

/-! ### Cycle Coordinator (05) -/

/-- Suspension causes (R99, R100). -/
inductive SuspensionCause where
  | preemption | flash
  deriving DecidableEq, Repr

/-- A staged adoption (R84, R85). -/
structure StagedAdoption where
  adoption : Adoption
  wait : Nat
  deriving DecidableEq, Repr

/-- The figures of a cycle (R80): the plan they belong to, C_cur, corrected splits and boundaries. -/
structure Figures where
  plan : Nat
  length : Nat
  splits : List Nat
  bounds : List Nat
  deriving DecidableEq, Repr

/-- Directions of a transition record (R91). -/
inductive Direction where
  | pending | shorten | lengthen
  deriving DecidableEq, Repr

/-- A transition record (R91 to R93). -/
structure Transition where
  direction : Direction
  counter : Nat
  amount : Nat
  deriving DecidableEq, Repr

/-- The last measure (R89, R90), with the reference instant it found. -/
structure Measure where
  ideal : Nat
  toShorten : Nat
  toLengthen : Nat
  reference : NetTime
  deriving DecidableEq, Repr

/-- The Cycle Coordinator (R79 to R108). -/
structure Coordinator where
  state : CoordState
  cause : Option SuspensionCause
  active : Option Adoption
  requested : Option Adoption
  staged : Option StagedAdoption
  finalMark : Bool
  position : Nat
  length : Nat
  figures : Option Figures
  transition : Option Transition
  measure : Option Measure
  fallbackMark : Bool
  overrunRaised : Bool
  deriving DecidableEq, Repr

/-! ### Stage Sequencer (06) -/

/-- Sequencer states (R109). -/
inductive SeqState where
  | flash | startupRed | run | yielded
  deriving DecidableEq, Repr

/-- Intervals of a stage (R114). -/
inductive Interval where
  | green | yellow | allRed
  deriving DecidableEq, Repr

/-- The next served stage: a later stage of the cycle, or stage 1 of the next cycle (R116). -/
inductive NextServed where
  | stage (number : Nat)
  | nextCycle
  deriving DecidableEq, Repr

/-- What the Sequencer holds in RUN (R114 to R117). -/
structure RunState where
  stage : Nat
  interval : Interval
  greenStart : Nat
  finish : Nat
  next : Option NextServed
  following : Option GroupSet
  deriving DecidableEq, Repr

/-- Marks of the served list (R113). -/
inductive ServedMark where
  | served | skipped | notReached
  deriving DecidableEq, Repr

/-- A group in the trailing record with the yellow still to run (R120). -/
structure Trailing where
  group : Group
  yellow : Nat
  deriving DecidableEq, Repr

/-- The Stage Sequencer (R109 to R131). -/
structure Sequencer where
  state : SeqState
  run : Option RunState
  figures : Option Figures
  served : List ServedMark
  trailing : List Trailing
  startupCount : Nat
  latches : GroupSet
  heldTake : Bool
  deriving DecidableEq, Repr

/-! ### Output Bank (07) -/

/-- What a group is driven to show (R132). -/
inductive Aspect where
  | red | yellow | green | dark
  deriving DecidableEq, Repr

/-- The phase of the flash toggle (R134). -/
inductive Phase where
  | on | off
  deriving DecidableEq, Repr

/-- A green-sense or lamp-out filter (R139, R140). -/
structure Filter where
  faulted : Bool
  count : Nat
  deriving DecidableEq, Repr

/-- The Output Bank (R132 to R145). -/
structure OutputBank where
  drive : Vector Aspect 16
  commanded : Vector Aspect 16
  flash : Bool
  phase : Phase
  half : Nat
  settle : Vector Nat 16
  sensedGreen : GroupSet
  sensedRed : GroupSet
  cabinetSampled : Bool
  mask : GroupSet
  greenAll : Bool
  greenSome : Bool
  redAll : Bool
  redSome : Bool
  greenFilter : Vector Filter 16
  lampFilter : Vector Filter 16
  greenSenseRaised : Bool
  lampOutRaised : Bool
  cabinetRaised : Bool
  deriving DecidableEq, Repr

/-! ### Preemption Controller (08) -/

/-- Preemption states (R148 to R160). -/
inductive PreemptState where
  | idle | entering | dwell | leaving
  deriving DecidableEq, Repr

/-- Whose clearance times apply to a group (R151): a plan stage or the route of an input. -/
inductive HolderOf where
  | stage (number : Nat)
  | route (input : PreemptInput)
  deriving DecidableEq, Repr

/-- A holder with its clearance times (R151). -/
structure Holder where
  holder : HolderOf
  yellow : Nat
  allRed : Nat
  deriving DecidableEq, Repr

/-- A clearing group with the yellow still to run (R151). -/
structure Clearing where
  group : Group
  holder : Holder
  yellow : Nat
  deriving DecidableEq, Repr

/-- An input's filter and ignore mark (R146, R154). -/
structure InputFilter where
  active : Bool
  count : Nat
  ignored : Bool
  deriving DecidableEq, Repr

/-- A resume override (R150, R161). -/
structure Override where
  adoption : Adoption
  stage : Nat
  deriving DecidableEq, Repr

/-- The save record (R150). -/
structure SaveRecord where
  source : PreemptInput
  entry : NetTime
  plan : Nat
  position : Nat
  stage : Nat
  interval : Interval
  resumeStage : Nat
  override : Option Override
  deriving DecidableEq, Repr

/-- The Preemption Controller (R146 to R167). -/
structure Preemption where
  state : PreemptState
  running : Option PreemptInput
  waiting : Option PreemptInput
  heldTake : Bool
  pe1 : InputFilter
  pe2 : InputFilter
  greenHold : Option Nat
  holders : Vector (Option Holder) 16
  clearing : List Clearing
  clearedAllRed : Nat
  allRed : Option Nat
  dwell : Nat
  expected : Option GroupSet
  save : Option SaveRecord
  stuckRaised : Bool
  deriving DecidableEq, Repr

/-! ### Fault Unit (09) -/

/-- Fault classes, in the order of R168. -/
inductive FaultClass where
  | clockIsolated | transitionOverrun | planMissing | lineJam | lampOut | preemptStuck | greenSense | cabinetFlash
  deriving DecidableEq, Repr

/-- Fault actions, from the least severe to the most (R168). -/
inductive FaultAction where
  | report | isolate | fallback | flash
  deriving DecidableEq, Repr

/-- States of a fault record (R169). -/
inductive RecordState where
  | clear | active | held
  deriving DecidableEq, Repr

/-- A fault record (R169). -/
structure FaultRecord where
  state : RecordState
  count : Nat
  firstRaised : Option NetTime
  detail : Option Nat
  deriving DecidableEq, Repr

/-- The Fault Unit (R168 to R180); the records stand in the order of R168. -/
structure FaultUnit where
  records : Vector FaultRecord 8
  effective : FaultAction
  deriving DecidableEq, Repr

/-! ### Line Interface (10) -/

/-- The content of a TIME frame (R17); the stamp is filled in at each attempt. -/
structure TimeContent where
  clockState : ClockState
  anchored : Bool
  coordState : CoordState
  stamp : Option NetTime
  governing : Option (Nat × BitVec 16)
  deriving DecidableEq, Repr

/-- The content of an ORDER frame (R56, R215). -/
structure OrderContent where
  key : OrderKey
  revision : Nat
  detail : OrderDetail
  finish : NetTime
  zones : GroupSet
  hop : Nat
  announce : Nat
  deriving DecidableEq, Repr

/-- The content of a CANCEL frame (R56, R215). -/
structure CancelContent where
  key : OrderKey
  revision : Nat
  finish : NetTime
  zones : GroupSet
  hop : Nat
  announce : Nat
  deriving DecidableEq, Repr

/-- The body of a frame, by its kind (R182). -/
inductive FrameBody where
  | time (content : TimeContent)
  | order (content : OrderContent)
  | cancel (content : CancelContent)
  deriving DecidableEq, Repr

/-- A frame of the send queue or in hand (R183). -/
structure Frame where
  body : FrameBody
  attempts : Nat
  relay : Bool
  deriving DecidableEq, Repr

/-- Transmitter states (R184 to R187). -/
inductive TxState where
  | idle | defer | sending | backoff
  deriving DecidableEq, Repr

/-- The kinds a dedup key may have (R192). -/
inductive DedupKind where
  | order | cancel
  deriving DecidableEq, Repr

/-- A dedup key (R192). -/
structure DedupKey where
  kind : DedupKind
  key : OrderKey
  revision : Nat
  announce : Nat
  deriving DecidableEq, Repr

/-- The traffic counts of a round (R194). -/
structure RoundCounts where
  sent : Nat
  received : Nat
  collisions : Nat
  deriving DecidableEq, Repr

/-- The eleven running counts (R196). -/
structure LineCounts where
  sent : Nat
  received : Nat
  crcError : Nat
  lengthError : Nat
  unknownKind : Nat
  duplicate : Nat
  relayDropped : Nat
  timeSkipped : Nat
  collision : Nat
  deferTimeout : Nat
  giveUp : Nat
  deriving DecidableEq, Repr

/-- The Line Interface (R181 to R198). `wait`, `deferred` and `idleTime` are in thousandths of a bit time (log 11). -/
structure LineInterface where
  queue : List Frame
  inHand : Option Frame
  tx : TxState
  wait : Nat
  /-- line time since the end of the relay wait or of BACKOFF, while the transmitter defers (R185) -/
  deferred : Nat
  /-- line time since the line was last told active, up to the idle gap (R185, log 28) -/
  idleTime : Nat
  lineOut : List Byte
  /-- the receiver is in FRAME; otherwise in HUNT -/
  receiving : Bool
  captured : Option NetTime
  dedup : List DedupKey
  giveUpRun : Nat
  present : RoundCounts
  last : RoundCounts
  counts : LineCounts
  jamRaised : Bool
  deriving DecidableEq, Repr

/-! ### Cabinet Port (11) -/

/-- Part states (R199). -/
inductive PartState where
  | configuring | running
  deriving DecidableEq, Repr

/-- The route of a preemption input (R147). -/
structure Route where
  track : GroupSet
  minDwell : Nat
  maxHold : Nat
  yellow : Nat
  allRed : Nat
  exitStage : Nat
  deriving DecidableEq, Repr

/-- The configuration record (R202). -/
structure ConfigRecord where
  station : Nat
  zone : Nat
  /-- code of the bit rate, 0..4 (R215) -/
  bitRate : Nat
  delay : Nat
  anchored : Bool
  syncWindow : Nat
  slewLimit : Nat
  acceptWindow : Nat
  holdoverLimit : Nat
  defaultPlan : Nat
  fallbackPlan : Nat
  /-- actions of classes 1..6 in the order of R168 -/
  actions : Vector FaultAction 6
  filterCount : Nat
  route1 : Route
  route2 : Route
  flashYellow : GroupSet
  monitored : GroupSet
  greenCount : Nat
  lampCount : Nat
  startupRed : Nat
  deriving DecidableEq, Repr

/-- Response codes (R214). -/
inductive ResponseCode where
  | done | state | range | invalid | full | inUse | duplicate | notFound | busy | unknown | malformed
  deriving DecidableEq, Repr

/-- A response: the echoed request code and sequence number, the response code and the body (R215). -/
structure Response where
  request : Byte
  seq : Byte
  code : ResponseCode
  body : List Byte
  deriving DecidableEq, Repr

/-- Causes of a PLAN_ADOPTED report (R106). -/
inductive AdoptCause where
  | cycleEnd | resume | startup | standIn
  deriving DecidableEq, Repr

/-- Occasions of an ADOPTION_FAILED report (R87). -/
inductive FailOccasion where
  | stage | activate
  deriving DecidableEq, Repr

/-- Occasions of a TRAILING_CLEARANCE report (R120). -/
inductive TrailOccasion where
  | cycleEnd | resume
  deriving DecidableEq, Repr

/-- Causes of a PREEMPT_ABANDONED report (R165). -/
inductive AbandonCause where
  | higherInput | flash
  deriving DecidableEq, Repr

/-- The reports with their parameters, by the table of R215. States of an order are given by their codes (R214). -/
inductive ReportBody where
  | clockState (old new : ClockState)
  | clockStep (step : Int) (before : NetTime)
  | schedule (old new : Nat) (source : Source)
  | specialDaysPruned (removed week day : Nat)
  | orderStored (key : OrderKey) (revision : Nat)
  | orderRevised (key : OrderKey) (revision : Nat)
  | orderCancelled (key : OrderKey) (revision : Nat)
  | orderRefused (key : OrderKey) (revision : Nat)
  | orderEvicted (key : OrderKey) (held : OrderState)
  | orderState (key : OrderKey) (old new : Byte)
  | orderEnded (key : OrderKey) (plan : Nat)
  | orderIssued (stamp : NetTime) (revision plan : Nat)
  | governing (governing : Adoption) (source : GovSource)
  | planAdopted (adoption : Adoption) (cause : AdoptCause)
  | coordState (old new : CoordState) (cause : Option SuspensionCause)
  | transitionBegun (direction : Direction) (remaining transitions : Nat)
  | adoptionFailed (plan : Nat) (occasion : FailOccasion)
  | sequencerState (old new : SeqState)
  | trailingClearance (groups : GroupSet) (yellow : Nat) (occasion : TrailOccasion)
  | readbackGroup (group : Group) (cls : FaultClass) (raised : Bool)
  | preemptState (old new : PreemptState) (running : Option PreemptInput)
  | preemptAbandoned (input : PreemptInput) (cause : AbandonCause)
  | preemptEnded (source : PreemptInput) (plan stage duration : Nat)
  | overrideWritten (adoption : Adoption) (stage : Nat)
  | overrideCleared (plan : Nat)
  | faultRaised (cls : FaultClass) (detail : Option Nat) (count : Nat)
  | faultWithdrawn (cls : FaultClass) (state : RecordState)
  | faultAcked (cls : FaultClass)
  | effectiveAction (old new : FaultAction) (cls : FaultClass)
  | sendGivenUp (kind : DedupKind) (key : OrderKey) (revision announce : Nat)
  deriving DecidableEq, Repr

/-- A report with the network time of its event (R208). -/
structure Report where
  time : NetTime
  body : ReportBody
  deriving DecidableEq, Repr

/-- The Cabinet Port (R199 to R212). -/
structure CabinetPort where
  part : PartState
  config : Option ConfigRecord
  held : Option Response
  reports : List Report
  overflow : Bool
  dropped : Nat
  malformed : Nat
  discarded : Nat
  /-- what the last read transfer put on SPI data out -/
  dataOut : List Byte
  deriving DecidableEq, Repr

/-! ### The model's own fields -/

/-- What the clock has reached and the blocks have not yet taken (log 2, log 4). -/
structure Instants where
  /-- a millisecond of the timebase is being held back by a negative slew (R2) -/
  holding : Bool
  /-- the clock stands at a multiple of 100 whose boundary has not been taken -/
  boundary : Bool
  /-- the timing blocks have already been stepped for that boundary -/
  timing : Bool
  /-- a round has been reached and not taken -/
  round : Bool
  /-- the station's offset in the round has been reached and its TIME frame not built -/
  frame : Bool
  /-- an entry start or midnight has been reached and not evaluated -/
  calendar : Bool
  /-- P would have reached C_cur and the cycle end has not been taken -/
  cycleEnd : Bool
  /-- the half-period count would have reached 0 and the flash has not been toggled -/
  toggle : Bool
  deriving DecidableEq, Repr

/-- The whole part. -/
structure State where
  clock : StationClock
  store : PlanStore
  timetable : Timetable
  orders : OrderHandler
  coord : Coordinator
  seq : Sequencer
  bank : OutputBank
  preempt : Preemption
  faults : FaultUnit
  line : LineInterface
  port : CabinetPort
  /-- the levels last given on the input pins -/
  pins : Levels
  instants : Instants
  /-- the free values drawn so far -/
  draws : Nat
  /-- the commands that wait, first in, first out -/
  pending : List Instr
  deriving DecidableEq, Repr

/-- Why the machine stops. The spec gives every command an effect or a refusal code of its own, so there is no fault:
nothing raises one, and a claim can lose nothing by it (safe). -/
inductive Fault where
  deriving DecidableEq, Repr

/-- Why a command has no meaning. -/
inductive Refusal where
  /-- Raised by an arm of `exec` whose command has no meaning yet; safe, since the machine stops there. No arm does. -/
  | notModelled (mnemonic : String)
  deriving DecidableEq, Repr

/-! ### After power-on reset -/

/-- R19. -/
def StationClock.reset : StationClock :=
  { reading := ⟨0, 0⟩, state := .alone, neighbours := [], slew := 0, backlog := 0, setTimeMark := false, holdover := 0,
    disputed := 0, tableFull := 0, numberConflict := 0, rejectedTime := 0, isolatedRaised := false }

/-- An EMPTY slot, not pinned (R37). -/
def Slot.empty : Slot := { state := .empty, plan := none, pinned := false }

/-- R37. -/
def PlanStore.reset : PlanStore := { slots := Vector.replicate 32 Slot.empty }

/-- R54. -/
def Timetable.reset : Timetable :=
  { entries := [], specials := [], scheduled := none, source := .default, editCount := 0 }

/-- R77. -/
def OrderHandler.reset : OrderHandler :=
  { entries := [], issued := [], governing := none, govSource := .schedule, planMissing := false, outOfZone := 0,
    rejected := 0, refusedRoom := 0, evicted := 0, droppedCancel := 0 }

/-- R107. -/
def Coordinator.reset : Coordinator :=
  { state := .idle, cause := none, active := none, requested := none, staged := none, finalMark := false, position := 0,
    length := 0, figures := none, transition := none, measure := none, fallbackMark := false, overrunRaised := false }

/-- R130. -/
def Sequencer.reset : Sequencer :=
  { state := .flash, run := none, figures := none, served := [], trailing := [], startupCount := 0, latches := 0,
    heldTake := false }

/-- R144. -/
def OutputBank.reset : OutputBank :=
  { drive := Vector.replicate 16 .red, commanded := Vector.replicate 16 .red, flash := true, phase := .on, half := 5,
    settle := Vector.replicate 16 0, sensedGreen := 0, sensedRed := 0, cabinetSampled := false, mask := 0,
    greenAll := false, greenSome := false, redAll := false, redSome := false,
    greenFilter := Vector.replicate 16 ⟨false, 0⟩, lampFilter := Vector.replicate 16 ⟨false, 0⟩,
    greenSenseRaised := false, lampOutRaised := false, cabinetRaised := false }

/-- R166. -/
def Preemption.reset : Preemption :=
  { state := .idle, running := none, waiting := none, heldTake := false, pe1 := ⟨false, 0, false⟩, pe2 := ⟨false, 0, false⟩,
    greenHold := none, holders := Vector.replicate 16 none, clearing := [], clearedAllRed := 0, allRed := none, dwell := 0,
    expected := none, save := none, stuckRaised := false }

/-- A fault record after reset (R179). -/
def FaultRecord.reset : FaultRecord := { state := .clear, count := 0, firstRaised := none, detail := none }

/-- R179. -/
def FaultUnit.reset : FaultUnit := { records := Vector.replicate 8 FaultRecord.reset, effective := .report }

/-- R197. -/
def LineInterface.reset : LineInterface :=
  { queue := [], inHand := none, tx := .idle, wait := 0, deferred := 0, idleTime := 0, lineOut := [], receiving := false, captured := none,
    dedup := [], giveUpRun := 0, present := ⟨0, 0, 0⟩, last := ⟨0, 0, 0⟩, counts := ⟨0, 0, 0, 0, 0, 0, 0, 0, 0, 0, 0⟩,
    jamRaised := false }

/-- R211. -/
def CabinetPort.reset : CabinetPort :=
  { part := .configuring, config := none, held := none, reports := [], overflow := false, dropped := 0, malformed := 0,
    discarded := 0, dataOut := [] }

/-- No input active (log 7). -/
def noLevels : Levels :=
  { demand := 0, greenSense := 0, redSense := 0, pe1 := false, pe2 := false, cabinetFlash := false }

/-- Nothing due (log 27). -/
def noInstants : Instants :=
  { holding := false, boundary := false, timing := false, round := false, frame := false, calendar := false,
    cycleEnd := false, toggle := false }

/-- The part after power-on reset (R19, R37, R54, R77, R107, R130, R144, R166, R179, R197, R211). -/
def State.reset : State :=
  { clock := .reset, store := .reset, timetable := .reset, orders := .reset, coord := .reset, seq := .reset, bank := .reset,
    preempt := .reset, faults := .reset, line := .reset, port := .reset, pins := noLevels, instants := noInstants, draws := 0,
    pending := [] }

end Sys2Proof.Machine
end

