-- ==== Sys2Proof/Machine/Time.lean ====
section
/-! DEFINITION. Network times: their signed difference, their sum with a signed number of milliseconds, day and time of
day (00_scope.md, Conventions; R1, R3). -/

namespace Sys2Proof

/-- Milliseconds of a week. -/
def weekMs : Nat := 604800000

/-- Milliseconds of a day. -/
def dayMs : Nat := 86400000

/-- A week difference as a signed 16-bit quantity (Conventions, Network time). -/
def signedWeeks (n : Int) : Int :=
  if n % 65536 < 32768 then n % 65536 else n % 65536 - 65536

/-- `a` minus `b` in ms, correct across the week wrap (Conventions, Network time; R4). -/
def NetTime.diff (a b : NetTime) : Int :=
  signedWeeks ((a.week : Int) - b.week) * (weekMs : Int) + ((a.ms : Int) - b.ms)

/-- `t` moved by a signed number of ms, whole weeks carried into the week index modulo 65,536 (R1, R3). -/
def NetTime.plus (t : NetTime) (d : Int) : NetTime :=
  { week := (((t.week : Int) + ((t.ms : Int) + d) / (weekMs : Int)) % 65536).toNat
    ms := (((t.ms : Int) + d) % (weekMs : Int)).toNat }

/-- `a` is at or before `b`. -/
def NetTime.atOrBefore (a b : NetTime) : Bool :=
  decide (a.diff b ≤ 0)

/-- `a` is later than `b`. -/
def NetTime.later (a b : NetTime) : Bool :=
  decide (0 < a.diff b)

/-- The millisecond of week does not exceed 604,799,999. -/
def NetTime.inWeek (t : NetTime) : Bool :=
  decide (t.ms < weekMs)

/-- Day of week, Monday 0. -/
def NetTime.day (t : NetTime) : Nat :=
  t.ms / dayMs

/-- Time of day in ds. -/
def NetTime.timeOfDay (t : NetTime) : Nat :=
  t.ms % dayMs / 100

/-- Midnight of the same week and day (R89). -/
def NetTime.midnight (t : NetTime) : NetTime :=
  { t with ms := t.ms / dayMs * dayMs }

/-- A signed amount clamped to a limit on either side (R9, R13). -/
def clampTo (limit : Nat) (x : Int) : Int :=
  max (-(limit : Int)) (min (limit : Int) x)

/-- A count one higher, stopping at its upper bound. -/
def countUp (bound n : Nat) : Nat :=
  min bound (n + 1)

end Sys2Proof
end

