-- ==== Sys2Proof/Machine/Ops.lean ====
section
/-! DEFINITION. Operations every block shares: sets of groups, the configuration, reports, slots and their requests,
aspect commands, fault records. -/

namespace Sys2Proof.Machine

/-! ### Sets of groups -/

/-- Group `g` belongs to the set (R213). -/
def inSet (g : Group) (set : GroupSet) : Bool :=
  set.getLsbD g.val

/-- The set of the groups that satisfy `p`. -/
def setOf (p : Group → Bool) : GroupSet :=
  (List.finRange 16).foldl (fun acc g => if p g then acc ||| (1#16 <<< g.val) else acc) 0#16

/-- All 16 groups. -/
def allGroups : GroupSet := 0xFFFF#16

/-- The groups numbered 1..16, in order. -/
def groupList : List Group := List.finRange 16

/-- The spec's number of a group. -/
def groupNumber (g : Group) : Nat := g.val + 1

/-- Bit `n - 1` of a 16-bit set stands for `n`, a number 1..16 (R213). -/
def hasNumber (set : BitVec 16) (n : Nat) : Bool :=
  decide (1 ≤ n) && set.getLsbD (n - 1)

/-! ### Part state and configuration -/

/-- The part is RUNNING (R199). -/
def State.running (s : State) : Bool :=
  decide (s.port.part = .running)

/-- The values read where no configuration record is held: no group flashes yellow and none is monitored (R134, R144);
the rest is read in RUNNING alone, where a record is held (R202). -/
def noConfig : ConfigRecord :=
  { station := 0, zone := 0, bitRate := 0, delay := 0, anchored := false, syncWindow := 0, slewLimit := 0, acceptWindow := 0,
    holdoverLimit := 0, defaultPlan := 0, fallbackPlan := 0, actions := Vector.replicate 6 .report, filterCount := 0,
    route1 := ⟨0, 0, 0, 0, 0, 0⟩, route2 := ⟨0, 0, 0, 0, 0, 0⟩, flashYellow := 0, monitored := 0, greenCount := 0,
    lampCount := 0, startupRed := 0 }

/-- The configuration record in use. -/
def State.cfg (s : State) : ConfigRecord :=
  s.port.config.getD noConfig

/-- The route of an input (R147). -/
def State.route (s : State) (i : PreemptInput) : Route :=
  match i with
  | .pe1 => s.cfg.route1
  | .pe2 => s.cfg.route2

/-! ### Reports -/

/-- A report posted with the present reading (R208): at the tail, or dropped when 32 are held. -/
def post (body : ReportBody) (s : State) : State :=
  if s.port.reports.length < 32 then
    { s with port.reports := s.port.reports ++ [{ time := s.clock.reading, body := body }] }
  else { s with port.overflow := true, port.dropped := countUp 255 s.port.dropped }

/-- The attention line (R209). -/
def State.attention (s : State) : Bool :=
  !s.port.reports.isEmpty

/-! ### Slots -/

/-- The slot of a plan number; outside 1..32 there is none, read as EMPTY (R21). -/
def PlanStore.slot (store : PlanStore) (n : Nat) : Slot :=
  if n = 0 then Slot.empty else store.slots.getD (n - 1) Slot.empty

/-- The slot of a plan number replaced. -/
def PlanStore.put (store : PlanStore) (n : Nat) (slot : Slot) : PlanStore :=
  if n = 0 then store else { store with slots := store.slots.setIfInBounds (n - 1) slot }

/-- The slot that is STAGED, if there is one, returns to STORED (R35). -/
def PlanStore.clearStaged (store : PlanStore) : PlanStore :=
  { store with slots := store.slots.map fun x => if x.state = .staged then { x with state := .stored } else x }

/-- The slot that is ACTIVE, if there is one, returns to STORED (R34). -/
def PlanStore.clearActive (store : PlanStore) : PlanStore :=
  { store with slots := store.slots.map fun x => if x.state = .active then { x with state := .stored } else x }

/-- A slot's state set. -/
def PlanStore.setState (store : PlanStore) (n : Nat) (state : SlotState) : PlanStore :=
  store.put n { store.slot n with state := state }

/-- The stage request (R33); `none` where it is refused. -/
def PlanStore.stage (store : PlanStore) (n : Nat) : Option PlanStore :=
  match (store.slot n).state with
  | .stored => some (store.clearStaged.setState n .staged)
  | .staged => some store
  | .active => some store.clearStaged
  | .empty => none

/-- The activate request (R34); `none` where it is refused. -/
def PlanStore.activate (store : PlanStore) (n : Nat) : Option PlanStore :=
  match (store.slot n).state with
  | .stored | .staged => some (store.clearActive.setState n .active)
  | .active => some store
  | .empty => none

/-- The slot of a plan number. -/
def State.slot (s : State) (n : Nat) : Slot :=
  s.store.slot n

/-- The plan stored under a number. -/
def State.storedPlan (s : State) (n : Nat) : Option StoredPlan :=
  (s.slot n).plan

/-- The slot of a plan number is EMPTY. -/
def State.slotEmpty (s : State) (n : Nat) : Bool :=
  decide ((s.slot n).state = .empty)

/-- Stage `k` of a plan, counted from 1 (R24). -/
def PlanRecord.stage (p : PlanRecord) (k : Nat) : Option StageRecord :=
  if k = 0 then none else p.stages[k - 1]?

/-- The stage is ON_CALL (R24). -/
def StageRecord.onCall (st : StageRecord) : Bool :=
  decide (st.demandClass = 1)

/-- Stage `k` of the plan stored under a number. -/
def State.stageOf (s : State) (plan k : Nat) : Option StageRecord :=
  (s.storedPlan plan).bind fun p => p.plan.stage k

/-- The green set of a stage; empty where there is none. -/
def State.greenSet (s : State) (plan k : Nat) : GroupSet :=
  ((s.stageOf plan k).map StageRecord.green).getD 0

/-! ### The Output Bank's drive -/

/-- The drive aspects replaced; every group whose aspect changes takes settle count 3 (R132). -/
def OutputBank.redrive (bank : OutputBank) (new : Vector Aspect 16) : OutputBank :=
  { bank with
    drive := new
    settle := Vector.ofFn fun g : Group => if new[g] = bank.drive[g] then bank.settle[g] else 3 }

/-- An aspect command for a set of groups (R132): not driven and not kept while the flash mode is on. -/
def OutputBank.command (bank : OutputBank) (set : GroupSet) (aspect : Aspect) : OutputBank :=
  if bank.flash then bank
  else
    { bank.redrive (Vector.ofFn fun g : Group => if inSet g set then aspect else bank.drive[g]) with
      commanded := Vector.ofFn fun g : Group => if inSet g set then aspect else bank.commanded[g] }

/-- The groups that drive an aspect. -/
def OutputBank.driving (bank : OutputBank) (aspect : Aspect) : GroupSet :=
  setOf fun g => decide (bank.drive[g] = aspect)

/-- An aspect command for a set of groups. -/
def command (set : GroupSet) (aspect : Aspect) (s : State) : State :=
  { s with bank := s.bank.command set aspect }

/-- A group's flash colour (R134). -/
def flashColour (yellow : GroupSet) (g : Group) : Aspect :=
  if inSet g yellow then .yellow else .red

/-- The three drive lines of a group, red, yellow and green (11, Pins). -/
def OutputBank.driveLines (bank : OutputBank) (g : Group) : Bool × Bool × Bool :=
  (decide (bank.drive[g] = .red), decide (bank.drive[g] = .yellow), decide (bank.drive[g] = .green))

/-! ### Fault records -/

/-- The place of a class in the order of R168. -/
def FaultClass.place : FaultClass → Fin 8
  | .clockIsolated => 0
  | .transitionOverrun => 1
  | .planMissing => 2
  | .lineJam => 3
  | .lampOut => 4
  | .preemptStuck => 5
  | .greenSense => 6
  | .cabinetFlash => 7

/-- The eight classes in the order of R168. -/
def allClasses : List FaultClass :=
  [.clockIsolated, .transitionOverrun, .planMissing, .lineJam, .lampOut, .preemptStuck, .greenSense, .cabinetFlash]

/-- Severity of an action: FLASH above FALLBACK above ISOLATE above REPORT (R168). -/
def FaultAction.severity : FaultAction → Nat
  | .report => 0
  | .isolate => 1
  | .fallback => 2
  | .flash => 3

/-- The more severe of two actions. -/
def FaultAction.worse (a b : FaultAction) : FaultAction :=
  if a.severity < b.severity then b else a

/-- The action of a class: fixed FLASH, or the configured one, absent while nothing is configured (R168). -/
def actionOf (config : Option ConfigRecord) (c : FaultClass) : Option FaultAction :=
  match c with
  | .greenSense | .cabinetFlash => some .flash
  | .clockIsolated => config.map fun r => r.actions[0]
  | .transitionOverrun => config.map fun r => r.actions[1]
  | .planMissing => config.map fun r => r.actions[2]
  | .lineJam => config.map fun r => r.actions[3]
  | .lampOut => config.map fun r => r.actions[4]
  | .preemptStuck => config.map fun r => r.actions[5]

/-- The record of a class. -/
def FaultUnit.record (f : FaultUnit) (c : FaultClass) : FaultRecord :=
  f.records[c.place]

/-- The record of a class replaced. -/
def FaultUnit.setRecord (f : FaultUnit) (c : FaultClass) (r : FaultRecord) : FaultUnit :=
  { f with records := f.records.set c.place r }

/-- What a record contributes to the effective action: nothing while CLEAR (R169). -/
def contribution (config : Option ConfigRecord) (f : FaultUnit) (c : FaultClass) : FaultAction :=
  if (f.record c).state = .clear then .report else (actionOf config c).getD .report

/-- The most severe action among the ACTIVE and HELD records, or REPORT (R172). -/
def mostSevere (config : Option ConfigRecord) (f : FaultUnit) : FaultAction :=
  allClasses.foldl (fun a c => a.worse (contribution config f c)) .report

/-- A raising taken by the record alone (R170). No class is raised in CONFIGURING (R173). -/
def raiseRecord (c : FaultClass) (detail : Option Nat) (s : State) : State :=
  let r := s.faults.record c
  if s.running then
    match r.state with
    | .active => { s with faults := s.faults.setRecord c { r with detail := detail } }
    | .clear | .held =>
      let count := countUp 255 r.count
      post (.faultRaised c detail count)
        { s with
          faults := s.faults.setRecord c
            { state := .active, count := count, firstRaised := some (r.firstRaised.getD s.clock.reading)
              detail := detail } }
  else s

/-- A withdrawal taken by the record alone (R171). -/
def withdrawRecord (c : FaultClass) (s : State) : State :=
  let r := s.faults.record c
  match r.state with
  | .clear | .held => s
  | .active =>
    let state : RecordState :=
      match actionOf s.port.config c with
      | some .fallback | some .flash => .held
      | _ => .clear
    post (.faultWithdrawn c state) { s with faults := s.faults.setRecord c { r with state := state } }

end Sys2Proof.Machine
end

