-- ==== Sys2Proof/Machine/Flags.lean ====
section
/-! DEFINITION. The Output Bank's readback sample: compare mask, compare flags and filters (R136 to R141). -/

namespace Sys2Proof.Machine

/-- The compare mask: monitored groups whose settle count is 0 (R137). -/
def OutputBank.compareMask (bank : OutputBank) (monitored : GroupSet) : GroupSet :=
  setOf fun g => inSet g monitored && decide (bank.settle[g] = 0)

/-- The group mismatches on green (R138). -/
def OutputBank.greenMismatch (bank : OutputBank) (g : Group) : Bool :=
  inSet g bank.sensedGreen != decide (bank.drive[g] = .green)

/-- The group mismatches on red (R138). -/
def OutputBank.redMismatch (bank : OutputBank) (g : Group) : Bool :=
  inSet g bank.sensedRed != decide (bank.drive[g] = .red)

/-- The four compare flags worked out over a mask (R138). -/
def OutputBank.compare (bank : OutputBank) (mask : GroupSet) : OutputBank :=
  let greenSome := groupList.any fun g => inSet g mask && bank.greenMismatch g
  let redSome := groupList.any fun g => inSet g mask && bank.redMismatch g
  { bank with
    greenAll := decide (mask ≠ 0) && !greenSome
    greenSome := greenSome
    redAll := decide (mask ≠ 0) && !redSome
    redSome := redSome }

/-- One sample of a filter: the run count goes up on the sample that leads away from the mark, and back to 0 on the
other (R139). -/
def Filter.sample (f : Filter) (faulty : Bool) : Filter :=
  if faulty = f.faulted then { f with count := 0 } else { f with count := f.count + 1 }

/-- The sample is faulty for the green-sense filter: green lit where none is driven (R139). -/
def OutputBank.greenFaulty (bank : OutputBank) (g : Group) : Bool :=
  inSet g bank.sensedGreen && decide (bank.drive[g] ≠ .green)

/-- The sample is faulty for the lamp-out filter: red driven and not lit (R140). -/
def OutputBank.lampFaulty (bank : OutputBank) (g : Group) : Bool :=
  decide (bank.drive[g] = .red) && !inSet g bank.sensedRed

/-- Both filters of every group in the mask stepped (R139, R140). -/
def OutputBank.stepFilters (bank : OutputBank) (mask : GroupSet) : OutputBank :=
  { bank with
    greenFilter := Vector.ofFn fun g : Group =>
      if inSet g mask then bank.greenFilter[g].sample (bank.greenFaulty g) else bank.greenFilter[g]
    lampFilter := Vector.ofFn fun g : Group =>
      if inSet g mask then bank.lampFilter[g].sample (bank.lampFaulty g) else bank.lampFilter[g] }

/-- A readback sample: sensed patterns, mask, settle counts, and, with the flash mode off, flags and filters (R136 to
R141). -/
def OutputBank.sample (bank : OutputBank) (monitored : GroupSet) (levels : Levels) : OutputBank :=
  let mask := bank.compareMask monitored
  let taken : OutputBank :=
    { bank with
      sensedGreen := levels.greenSense
      sensedRed := levels.redSense
      mask := mask
      settle := Vector.ofFn fun g : Group => bank.settle[g] - 1 }
  if bank.flash then taken else (taken.compare mask).stepFilters mask

/-- Every filter CLEAN with run count 0 and the four flags clear, as at entry into flash (R141). -/
def OutputBank.suspendCompare (bank : OutputBank) : OutputBank :=
  { bank with
    greenAll := false, greenSome := false, redAll := false, redSome := false
    greenFilter := Vector.replicate 16 ⟨false, 0⟩
    lampFilter := Vector.replicate 16 ⟨false, 0⟩ }

/-- The Output Bank's entry into flash, the flash mode being off (R133, R141). -/
def OutputBank.enterFlash (bank : OutputBank) (yellow : GroupSet) : OutputBank :=
  { (bank.redrive (Vector.ofFn fun g : Group => flashColour yellow g)).suspendCompare with
    flash := true, phase := .on, half := 5 }

/-- The flash toggles: the phase changes and the half-period count becomes 5 (R134). -/
def OutputBank.toggle (bank : OutputBank) (yellow : GroupSet) : OutputBank :=
  match bank.phase with
  | .on => { bank.redrive (Vector.replicate 16 .dark) with phase := .off, half := 5 }
  | .off => { bank.redrive (Vector.ofFn fun g : Group => flashColour yellow g) with phase := .on, half := 5 }

/-- The flash ends: every group drives and is commanded RED, the toggle left as it was (R135). -/
def OutputBank.stopFlash (bank : OutputBank) : OutputBank :=
  { bank.redrive (Vector.replicate 16 .red) with flash := false, commanded := Vector.replicate 16 .red }

/-- The flash colours taken at START: with the flash mode on in phase ON they are driven at once (R134). -/
def OutputBank.takeColours (bank : OutputBank) (yellow : GroupSet) : OutputBank :=
  if bank.flash && decide (bank.phase = .on) then bank.redrive (Vector.ofFn fun g : Group => flashColour yellow g) else bank

end Sys2Proof.Machine
end

