-- ==== Sys2Proof/Machine/Delivery.lean ====
section
/-! DEFINITION. The effective action and its delivery (R172, R173): what it does to the Cycle Coordinator (R83, R103 to
R105) and the Stage Sequencer (R110, R111), and the flash that follows in the Output Bank, the Coordinator and the
Preemption Controller (R133, R100, R164). -/

namespace Sys2Proof.Machine

/-! ### The Coordinator's side -/

/-- The coordination state and suspension cause set; a change posts COORD_STATE (R106). -/
def setCoord (state : CoordState) (cause : Option SuspensionCause) (s : State) : State :=
  if s.coord.state = state ∧ s.coord.cause = cause then s
  else post (.coordState s.coord.state state cause) { s with coord.state := state, coord.cause := cause }

/-- The transition record emptied; TRANSITION_OVERRUN is withdrawn if it was raised (R95). The effective action is worked
out by the caller. -/
def emptyTransition (s : State) : State :=
  let s := { s with coord.transition := none }
  if s.coord.overrunRaised then withdrawRecord .transitionOverrun { s with coord.overrunRaised := false } else s

/-- A condition that makes the Coordinator ISOLATED holds (R83). -/
def State.isolating (s : State) : Bool :=
  decide (s.clock.state = .alone) || decide (s.faults.effective = .isolate) || decide (s.faults.effective = .fallback)

/-- A transition record waiting for its first measure (R83, R101, R102). R83 gives its direction and counter alone; that its amount k
is 0, also where ISOLATED is left within a cycle that still runs corrected, is the model's choice (log 54). -/
def pendingTransition : Transition := { direction := .pending, counter := 0, amount := 0 }

/-- The Coordinator told of a change of the clock state or the effective action (R83). -/
def isolationChange (s : State) : State :=
  match s.coord.state with
  | .correcting | .coordinated =>
    if s.isolating then emptyTransition (setCoord .isolated none s) else s
  | .isolated =>
    if s.isolating then s
    else { setCoord .correcting none s with coord.transition := some pendingTransition }
  | .idle | .suspended => s

/-- The wait count a staged adoption takes now (R84, R85). -/
def State.waitCount (s : State) : Nat :=
  if s.coord.finalMark then 2 else 1

/-- The cases of R84 for a plan and reference put forward, the requested record left as it is but where the stage request
is refused (R87). -/
def putForward (a : Adoption) (s : State) : State :=
  if s.coord.active = some a then
    if s.coord.staged.isSome then { s with coord.staged := none, store := s.store.clearStaged } else s
  else if (s.coord.staged.map StagedAdoption.adoption) = some a then s
  else
    match s.store.stage a.plan with
    | some store => { s with store := store, coord.staged := some { adoption := a, wait := s.waitCount } }
    | none => post (.adoptionFailed a.plan .stage) { s with coord.requested := none }

/-- The fallback mark set and the fallback plan put forward (R103). Where FALLBACK follows a FLASH that came while the mark was set,
the plan is put forward again, so that the junction leaves flash on it (R173, R174) even where a REWRITE_SAVE had emptied its
staged adoption: the model's choice (log 57). -/
def setFallback (s : State) : State :=
  putForward { plan := s.cfg.fallbackPlan, reference := .daily } { s with coord.fallbackMark := true }

/-- The fallback mark cleared and the requested record taken again (R105). -/
def clearFallback (s : State) : State :=
  if s.coord.fallbackMark then
    let s := { s with coord.fallbackMark := false }
    match s.coord.requested with
    | some a => putForward a s
    | none =>
      if s.coord.staged.isSome then { s with coord.staged := none, store := s.store.clearStaged } else s
  else s

/-- The Coordinator told of a new effective action (R83, R103). -/
def deliverCoordinator (action : FaultAction) (s : State) : State :=
  let s := isolationChange s
  match action with
  | .fallback => setFallback s
  | .isolate | .report => clearFallback s
  | .flash => s

/-- The Coordinator enters SUSPENDED: the cycle is cut, the transition record emptied, the final-clearance mark cleared
(R99, R100). -/
def suspend (cause : SuspensionCause) (s : State) : State :=
  setCoord .suspended (some cause) (emptyTransition { s with coord.finalMark := false, coord.figures := none })

/-! ### Filters that change their mark -/

/-- The flash mode is off, so filters are judged (R138). -/
def State.judging (s : State) : Bool := s.running && !s.bank.flash

/-- A group's green-sense filter becomes FAULTED (R139). -/
def State.greenFaultedDue (s : State) (g : Group) : Bool :=
  s.judging && !(s.bank.greenFilter[g]).faulted && decide (s.cfg.greenCount ≤ (s.bank.greenFilter[g]).count)

/-- A group's green-sense filter becomes CLEAN (R139). -/
def State.greenCleanDue (s : State) (g : Group) : Bool :=
  s.judging && (s.bank.greenFilter[g]).faulted && decide (s.cfg.greenCount ≤ (s.bank.greenFilter[g]).count)

/-- A group's lamp-out filter becomes FAULTED (R140). -/
def State.lampFaultedDue (s : State) (g : Group) : Bool :=
  s.judging && !(s.bank.lampFilter[g]).faulted && decide (s.cfg.lampCount ≤ (s.bank.lampFilter[g]).count)

/-- A group's lamp-out filter becomes CLEAN (R140). -/
def State.lampCleanDue (s : State) (g : Group) : Bool :=
  s.judging && (s.bank.lampFilter[g]).faulted && decide (s.cfg.lampCount ≤ (s.bank.lampFilter[g]).count)

/-- Some filter is FAULTED. -/
def anyFaulted (filters : Vector Filter 16) : Bool :=
  groupList.any fun g => filters[g].faulted

/-- A class raised with a group, unless it is raised already, as its record takes it (R141). -/
def raiseGroup (c : FaultClass) (g : Group) (already : Bool) (s : State) : State :=
  if already then s else raiseRecord c (some (groupNumber g)) s

/-- A green-sense filter becomes FAULTED (R139, R141). The effective action is worked out by the caller. -/
def markGreenFaulted (g : Group) (s : State) : State :=
  raiseGroup .greenSense g s.bank.greenSenseRaised
    (post (.readbackGroup g .greenSense true)
      { s with bank.greenFilter := s.bank.greenFilter.set g ⟨true, 0⟩, bank.greenSenseRaised := true })

/-- A green-sense filter becomes CLEAN (R139, R141). The effective action is worked out by the caller. -/
def markGreenClean (g : Group) (s : State) : State :=
  let s :=
    post (.readbackGroup g .greenSense false) { s with bank.greenFilter := s.bank.greenFilter.set g ⟨false, 0⟩ }
  if s.bank.greenSenseRaised && !anyFaulted s.bank.greenFilter then
    withdrawRecord .greenSense { s with bank.greenSenseRaised := false }
  else s

/-- A lamp-out filter becomes FAULTED (R140, R141). The effective action is worked out by the caller. -/
def markLampFaulted (g : Group) (s : State) : State :=
  raiseGroup .lampOut g s.bank.lampOutRaised
    (post (.readbackGroup g .lampOut true)
      { s with bank.lampFilter := s.bank.lampFilter.set g ⟨true, 0⟩, bank.lampOutRaised := true })

/-- A lamp-out filter becomes CLEAN (R140, R141). The effective action is worked out by the caller. -/
def markLampClean (g : Group) (s : State) : State :=
  let s := post (.readbackGroup g .lampOut false) { s with bank.lampFilter := s.bank.lampFilter.set g ⟨false, 0⟩ }
  if s.bank.lampOutRaised && !anyFaulted s.bank.lampFilter then
    withdrawRecord .lampOut { s with bank.lampOutRaised := false }
  else s

/-- The filters of a group that have run their count change their marks (R139, R140). -/
def finishGroup (s : State) (g : Group) : State :=
  let s :=
    if s.greenFaultedDue g then markGreenFaulted g s else if s.greenCleanDue g then markGreenClean g s else s
  if s.lampFaultedDue g then markLampFaulted g s else if s.lampCleanDue g then markLampClean g s else s

/-- Every filter that has run its count at the present sample changes its mark, with its report, its raising and its
withdrawal (R139 to R141): what a sample brings about is not undone by the flash it leads to (log 39). -/
def finishFilters (s : State) : State :=
  groupList.foldl finishGroup s

/-! ### Flash -/

/-- The Output Bank's entry into flash (R133), GREEN_SENSE and LAMP_OUT withdrawn with it (R141). -/
def beginFlash (s : State) : State :=
  let green := s.bank.greenSenseRaised
  let lamp := s.bank.lampOutRaised
  let bank := { s.bank.enterFlash s.cfg.flashYellow with greenSenseRaised := false, lampOutRaised := false }
  let s := { s with bank := bank, instants.toggle := false }
  let s := if green then withdrawRecord .greenSense s else s
  if lamp then withdrawRecord .lampOut s else s

/-- The Output Bank told to flash (R133), once the filters that have run their count have changed (R139, R140). -/
def bankFlash (s : State) : State :=
  if s.bank.flash then s else beginFlash (finishFilters s)

/-- The filter of an input. -/
def Preemption.input (p : Preemption) (i : PreemptInput) : InputFilter :=
  match i with
  | .pe1 => p.pe1
  | .pe2 => p.pe2

/-- The filter of an input replaced. -/
def Preemption.setInput (p : Preemption) (i : PreemptInput) (f : InputFilter) : Preemption :=
  match i with
  | .pe1 => { p with pe1 := f }
  | .pe2 => { p with pe2 := f }

/-- The input is filtered ACTIVE and not ignored. -/
def Preemption.calls (p : Preemption) (i : PreemptInput) : Bool :=
  (p.input i).active && !(p.input i).ignored

/-- The claimant: an input filtered ACTIVE and not ignored, PE1 in preference (R148). -/
def Preemption.claimant (p : Preemption) : Option PreemptInput :=
  if p.calls .pe1 then some .pe1 else if p.calls .pe2 then some .pe2 else none

/-- A preemption state set with its running input; PREEMPT_STATE is posted with the input the change belongs to (R165). Where the
new state is IDLE and no input runs any more (`handBack`, `abandonRun`), that is the input whose run has ended: the model's
choice (log 48). -/
def setPreempt (state : PreemptState) (input : Option PreemptInput) (s : State) : State :=
  post (.preemptState s.preempt.state state input) { s with preempt.state := state }

/-- The slot of a plan returns to STORED when it is STAGED without being the Coordinator's staged adoption (R160, R162,
R164). -/
def unstageOrphan (plan : Nat) (s : State) : State :=
  if (s.slot plan).state = .staged ∧ (s.coord.staged.map fun x => x.adoption.plan) ≠ some plan then
    { s with store := s.store.clearStaged }
  else s

/-- The slot of an override returns to STORED as `unstageOrphan` says; nothing where there is none. -/
def unstageOverride (o : Option Override) (s : State) : State :=
  match o with
  | some o => unstageOrphan o.adoption.plan s
  | none => s

/-- The run's own fields as they stand in IDLE: no hold, clearing group, dwell, expected set or save record. -/
def Preemption.atRest (p : Preemption) : Preemption :=
  { p with
    running := none, waiting := none, greenHold := none, holders := Vector.replicate 16 none, clearing := []
    clearedAllRed := 0, allRed := none, dwell := 0, expected := none, save := none }

/-- The run that flash finds is abandoned and its override's slot unstaged (R164). -/
def abandonRun (i : PreemptInput) (s : State) : State :=
  let s := setPreempt .idle (some i) (unstageOverride (s.preempt.save.bind SaveRecord.override) s)
  post (.preemptAbandoned i .flash) { s with preempt := s.preempt.atRest }

/-- A take request made, or not, to a Sequencer that holds it (R126, R164). -/
def holdClaim (s : State) : State :=
  { s with preempt.heldTake := s.preempt.claimant.isSome, seq.heldTake := s.preempt.claimant.isSome }

/-- The Preemption Controller told of flash (R164). The Sequencer is in FLASH, so a take request is held (R126). -/
def preemptFlash (s : State) : State :=
  match s.preempt.running with
  | some i => holdClaim (if s.preempt.state = .idle then s else abandonRun i s)
  | none => holdClaim s

/-- The sequencer state set; a change posts SEQUENCER_STATE (R109). -/
def setSeq (state : SeqState) (s : State) : State :=
  if s.seq.state = state then s
  else post (.sequencerState s.seq.state state) { s with seq.state := state }

/-- The Sequencer's entry into FLASH (R110). -/
def flashEntry (s : State) : State :=
  if s.seq.state = .flash then s
  else
    let s := setSeq .flash s
    let s :=
      { s with
        seq.run := none, seq.figures := none, seq.served := [], seq.trailing := [], seq.startupCount := 0
        seq.heldTake := false, instants.cycleEnd := false }
    preemptFlash (suspend .flash (bankFlash s))

/-- The Sequencer leaves FLASH for STARTUP_RED (R111), and the Output Bank's flash ends (R135). -/
def flashExit (s : State) : State :=
  if s.seq.state = .flash then
    let s := setSeq .startupRed s
    { s with seq.startupCount := s.cfg.startupRed, bank := s.bank.stopFlash, instants.toggle := false }
  else s

/-- The Sequencer told of a new effective action (R110, R111). -/
def deliverSequencer (action : FaultAction) (s : State) : State :=
  match action with
  | .flash => flashEntry s
  | .report | .isolate | .fallback => if s.running then flashExit s else s

/-! ### The effective action -/

/-- The effective action worked out again (R172) and, when it changes, delivered (R173). `cause` is the class whose record
changed. A delivery can itself withdraw a condition, TRANSITION_OVERRUN alone changing the result, so it is worked out
until it stands (log 35). -/
def settleAction : Nat → FaultClass → State → State
  | 0, cause, s =>
    let action := mostSevere s.port.config s.faults
    if action = s.faults.effective then s
    else post (.effectiveAction s.faults.effective action cause) { s with faults.effective := action }
  | n + 1, cause, s =>
    let action := mostSevere s.port.config s.faults
    if action = s.faults.effective then s
    else
      let s := post (.effectiveAction s.faults.effective action cause) { s with faults.effective := action }
      settleAction n .transitionOverrun (deliverSequencer action (deliverCoordinator action s))

/-- How often a delivery may lead to another one. -/
def actionFuel : Nat := 4

/-- A raising by the owner of a class (R170, R172, R173). -/
def raise (c : FaultClass) (detail : Option Nat) (s : State) : State :=
  settleAction actionFuel c (raiseRecord c detail s)

/-- A withdrawal by the owner of a class (R171, R172, R173). -/
def withdraw (c : FaultClass) (s : State) : State :=
  settleAction actionFuel c (withdrawRecord c s)

/-- A transition abandoned outside a delivery: the record emptied and the effective action worked out (R95, R172). -/
def abandonTransition (s : State) : State :=
  settleAction actionFuel .transitionOverrun (emptyTransition s)

end Sys2Proof.Machine
end

