-- ==== Sys2Proof/Machine/Frames.lean ====
section
/-! DEFINITION. Frame bodies read and written (R215), the send queue (R183), the transmitter (R184 to R188), the dedup
cache (R192) and relaying (R193). -/

namespace Sys2Proof.Machine

/-! ### Bodies -/

/-- Clock state codes (R214). -/
def ClockState.code : ClockState → Nat
  | .alone => 0
  | .tracking => 1
  | .synced => 2
  | .holdover => 3

/-- The clock state of a code; none beyond the list (R214, R4). -/
def clockStateOf : Nat → Option ClockState
  | 0 => some .alone
  | 1 => some .tracking
  | 2 => some .synced
  | 3 => some .holdover
  | _ => none

/-- Coordination state codes (R214). -/
def CoordState.code : CoordState → Nat
  | .idle => 0
  | .isolated => 1
  | .correcting => 2
  | .coordinated => 3
  | .suspended => 4

/-- The coordination state of a code; none beyond the list (R214, R4). -/
def coordStateOf : Nat → Option CoordState
  | 0 => some .idle
  | 1 => some .isolated
  | 2 => some .correcting
  | 3 => some .coordinated
  | 4 => some .suspended
  | _ => none

/-- The TIME body (R215): clock state, flags, coordination state, stamp, and the governing plan when carried. Bits 1 to 7 of the
flags byte are sent as 0, which is the model's choice (log 52). -/
def timeBodyBytes (c : TimeContent) : List Byte :=
  be 1 c.clockState.code ++ be 1 (if c.anchored then 1 else 0) ++ be 1 c.coordState.code
    ++ timeBytes (c.stamp.getD ⟨0, 0⟩)
    ++ match c.governing with
      | some (plan, signature) => be 1 plan ++ be 2 signature.toNat
      | none => []

/-- The ORDER body (R215). -/
def orderBodyBytes (o : OrderContent) : List Byte :=
  be 1 o.key.origin ++ timeBytes o.key.stamp ++ be 1 o.revision ++ be 1 o.detail.plan ++ be 2 o.detail.signature.toNat
    ++ timeBytes o.detail.start ++ timeBytes o.finish ++ be 1 o.detail.priority ++ be 2 o.zones.toNat ++ be 1 o.hop
    ++ be 1 o.announce

/-- The CANCEL body (R215). -/
def cancelBodyBytes (c : CancelContent) : List Byte :=
  be 1 c.key.origin ++ timeBytes c.key.stamp ++ be 1 c.revision ++ timeBytes c.finish ++ be 2 c.zones.toNat ++ be 1 c.hop
    ++ be 1 c.announce

/-- An ORDER body read (R215). -/
def readOrderBody (body : List Byte) : OrderContent :=
  { key := { origin := field body 0 1, stamp := timeField body 1 }
    revision := field body 7 1
    detail :=
      { plan := field body 8 1, signature := BitVec.ofNat 16 (field body 9 2), start := timeField body 11
        priority := field body 23 1 }
    finish := timeField body 17
    zones := BitVec.ofNat 16 (field body 24 2)
    hop := field body 26 1
    announce := field body 27 1 }

/-- A CANCEL body read (R215). -/
def readCancelBody (body : List Byte) : CancelContent :=
  { key := { origin := field body 0 1, stamp := timeField body 1 }
    revision := field body 7 1
    finish := timeField body 8
    zones := BitVec.ofNat 16 (field body 14 2)
    hop := field body 16 1
    announce := field body 17 1 }

/-- Frame kind codes: TIME 1, ORDER 2, CANCEL 3 (R215). -/
def FrameBody.code : FrameBody → Byte
  | .time _ => 1
  | .order _ => 2
  | .cancel _ => 3

/-- The body bytes of a frame. -/
def FrameBody.bytes : FrameBody → List Byte
  | .time c => timeBodyBytes c
  | .order o => orderBodyBytes o
  | .cancel c => cancelBodyBytes c

/-- The frame is a TIME frame. -/
def Frame.isTime (f : Frame) : Bool :=
  match f.body with
  | .time _ => true
  | .order _ | .cancel _ => false

/-- A frame on the line: preamble, start delimiter, kind, sender, body length, body and CRC (R182, R215). -/
def lineBytes (station : Nat) (body : FrameBody) : List Byte :=
  [0xAA#8, 0xAA#8, 0xE5#8]
    ++ withCrc (body.code :: BitVec.ofNat 8 station :: BitVec.ofNat 8 body.bytes.length :: body.bytes)

/-! ### Line time -/

/-- The bit rate of a code, in bit/s (R215). -/
def bitRateOf : Nat → Nat
  | 0 => 9600
  | 1 => 19200
  | 2 => 38400
  | 3 => 57600
  | _ => 115200

/-- A slot of 16 bit times, in thousandths of a bit time (R181). -/
def slotTime : Nat := 16000

/-- The idle gap of 24 bit times, in thousandths of a bit time (R181). -/
def idleGap : Nat := 24000

/-- The defer limit of 8,192 bit times, in thousandths of a bit time (R181). -/
def deferLimit : Nat := 8192000

/-- Line time passes: a wait runs down, what is left of it counts as deferred time (R185), and the line may have been idle
for that much longer. -/
def LineInterface.run (l : LineInterface) (elapsed : Nat) : LineInterface :=
  { l with
    wait := l.wait - elapsed
    deferred := if l.tx = .defer ∨ l.tx = .backoff then l.deferred + (elapsed - l.wait) else l.deferred
    idleTime := min idleGap (l.idleTime + elapsed) }

/-- The line time of a number of milliseconds passes; in CONFIGURING no line time runs (R195), so that line found
idle before START does not count toward the first idle gap: the model's choice (log 49). -/
def State.lineAfter (s : State) (n : Nat) : LineInterface :=
  if s.running then s.line.run (n * bitRateOf s.cfg.bitRate) else s.line

/-! ### The transmitter's DEFER -/

/-- The transmitter defers on the head of the queue, or is IDLE when there is none (R184). The relay wait is drawn for a
relay copy and 0 for any other frame. -/
def deferOnHead (s : State) : State :=
  match s.line.queue with
  | [] => { s with line.tx := .idle, line.wait := 0, line.deferred := 0 }
  | f :: _ =>
    if f.relay then
      { s with
        line.tx := .defer, line.wait := (Config.relayWaitDraw s.draws).toNat * slotTime, line.deferred := 0
        draws := s.draws + 1 }
    else { s with line.tx := .defer, line.wait := 0, line.deferred := 0 }

/-- The transmitter is deferring on the head of the queue, with no frame in hand. -/
def LineInterface.onHead (l : LineInterface) : Bool :=
  decide (l.tx = .defer) && l.inHand.isNone

/-- A frame placed at the tail; an IDLE transmitter with no frame in hand defers on it (R183, R184). -/
def placeTail (f : Frame) (s : State) : State :=
  let idle := decide (s.line.tx = .idle) && s.line.inHand.isNone
  let s := { s with line.queue := s.line.queue ++ [f] }
  if idle then deferOnHead s else s

/-- The queue has room for a frame (R183). -/
def LineInterface.hasRoom (l : LineInterface) : Bool :=
  decide (l.queue.length < 8)

/-- The first frame that satisfies `p` replaced. -/
def replaceFirst (p : Frame → Bool) (new : Frame) : List Frame → List Frame
  | [] => []
  | f :: rest => if p f then new :: rest else f :: replaceFirst p new rest

/-- A TIME frame placed (R183): in the place of a queued one, at the tail, in the room of the oldest relay copy, or not at
all. -/
def placeTime (c : TimeContent) (s : State) : State :=
  let f : Frame := { body := .time c, attempts := 0, relay := false }
  if s.line.queue.any Frame.isTime then
    let head := (s.line.queue.head?.map Frame.isTime).getD false
    let onHead := s.line.onHead
    let s := { s with line.queue := replaceFirst Frame.isTime f s.line.queue }
    if head && onHead then deferOnHead s else s
  else if s.line.hasRoom then placeTail f s
  else if s.line.queue.any Frame.relay then
    let head := (s.line.queue.head?.map Frame.relay).getD false
    let onHead := s.line.onHead
    let s :=
      { s with
        line.queue := s.line.queue.eraseP Frame.relay ++ [f]
        line.counts.relayDropped := countUp 65535 s.line.counts.relayDropped }
    if head && onHead then deferOnHead s else s
  else { s with line.counts.timeSkipped := countUp 65535 s.line.counts.timeSkipped }

/-- A relay copy placed, or discarded and counted when the queue is full (R183). -/
def placeRelay (body : FrameBody) (s : State) : State :=
  if s.line.hasRoom then placeTail { body := body, attempts := 0, relay := true } s
  else { s with line.counts.relayDropped := countUp 65535 s.line.counts.relayDropped }

/-! ### The dedup cache -/

/-- A key entered; the oldest leaves a full cache first (R192). -/
def enterKey (k : DedupKey) (cache : List DedupKey) : List DedupKey :=
  if k ∈ cache then cache
  else if cache.length < 32 then cache ++ [k] else cache.drop 1 ++ [k]

/-- The dedup key of an ORDER (R192). -/
def OrderContent.dedupKey (o : OrderContent) : DedupKey :=
  { kind := .order, key := o.key, revision := o.revision, announce := o.announce }

/-- The dedup key of a CANCEL (R192). -/
def CancelContent.dedupKey (c : CancelContent) : DedupKey :=
  { kind := .cancel, key := c.key, revision := c.revision, announce := c.announce }

/-- An ORDER of this station placed at the tail, its key entered (R183, R192). The caller has found room. -/
def placeOwnOrder (o : OrderContent) (s : State) : State :=
  placeTail { body := .order o, attempts := 0, relay := false }
    { s with line.dedup := enterKey o.dedupKey s.line.dedup }

/-- A CANCEL of this station placed at the tail, its key entered (R183, R192). The caller has found room. -/
def placeOwnCancel (c : CancelContent) (s : State) : State :=
  placeTail { body := .cancel c, attempts := 0, relay := false }
    { s with line.dedup := enterKey c.dedupKey s.line.dedup }

/-- The hop limit lets a frame be relayed (R193). -/
def relayable (hop : Nat) : Bool :=
  decide (1 ≤ hop) && decide (hop ≤ 15)

/-- The relay copy of an ORDER, when its hop limit calls for one (R193). -/
def relayOrder (o : OrderContent) (s : State) : State :=
  if relayable o.hop then placeRelay (.order { o with hop := o.hop - 1 }) s else s

/-- The relay copy of a CANCEL, when its hop limit calls for one (R193). -/
def relayCancel (c : CancelContent) (s : State) : State :=
  if relayable c.hop then placeRelay (.cancel { c with hop := c.hop - 1 }) s else s

/-! ### Attempts that fail -/

/-- The report of a given-up frame: for an ORDER or CANCEL of this station alone (R188). -/
def reportGivenUp (f : Frame) (s : State) : State :=
  if f.relay then s
  else
    match f.body with
    | .time _ => s
    | .order o => post (.sendGivenUp .order o.key o.revision o.announce) s
    | .cancel c => post (.sendGivenUp .cancel c.key c.revision c.announce) s

/-- A frame given up (R188): discarded and counted, reported when it is the station's own, LINE_JAM raised when the run
reaches 16; the transmitter then goes to the new head. -/
def giveUp (f : Frame) (s : State) : State :=
  let run := countUp 255 s.line.giveUpRun
  let s :=
    reportGivenUp f
      { s with
        line.inHand := none
        line.counts.giveUp := countUp 65535 s.line.counts.giveUp
        line.giveUpRun := run }
  let s := deferOnHead s
  if 16 ≤ run ∧ s.line.jamRaised = false then raise .lineJam none { s with line.jamRaised := true } else s

/-- What follows a failed attempt of the frame in hand (R187): given up at the eighth, otherwise BACKOFF for a random wait
of 0..(2^a − 1) slots, a the smaller of the attempt count and 6. -/
def attemptFailed (f : Frame) (s : State) : State :=
  let s := { s with line.lineOut := [] }
  if 8 ≤ f.attempts then giveUp f s
  else
    { s with
      line.inHand := some f
      line.tx := .backoff
      line.wait := (Config.backoffDraw s.draws).toNat % 2 ^ min f.attempts 6 * slotTime
      line.deferred := 0
      draws := s.draws + 1 }

/-! ### The end of DEFER -/

/-- The frame the transmitter defers on: the frame in hand, or the head of the queue (R185). -/
def LineInterface.next (l : LineInterface) : Option Frame :=
  match l.inHand with
  | some f => some f
  | none => l.queue.head?

/-- The queue once that frame is in hand. -/
def LineInterface.rest (l : LineInterface) : List Frame :=
  match l.inHand with
  | some _ => l.queue
  | none => l.queue.drop 1

/-- The transmitter looks for the idle gap: in DEFER on a frame, its wait run out (R185). -/
def LineInterface.ready (l : LineInterface) : Bool :=
  decide (l.tx = .defer) && decide (l.wait = 0) && l.next.isSome

/-- The defer limit is reached: the attempt counts as if it had collided (R185). -/
def reachDeferLimit (s : State) : State :=
  match s.line.next with
  | some f =>
    attemptFailed { f with attempts := f.attempts + 1 }
      { s with
        line.queue := s.line.rest
        line.counts.deferTimeout := countUp 65535 s.line.counts.deferTimeout }
  | none => s

end Sys2Proof.Machine
end

