-- ==== Sys2Proof/Machine/OrderOps.lean ====
section
/-! DEFINITION. The Order Handler: adoption requests to the Coordinator (R84, R162), the governing plan (R72 to R74), the
evaluation (R64), arriving orders and cancels (R59 to R63), the issued list (R68 to R70). -/

namespace Sys2Proof.Machine

/-- Order state codes (R214). -/
def OrderState.code : OrderState → Nat
  | .pending => 0
  | .inForce => 1
  | .eclipsed => 2
  | .mismatch => 3
  | .cancelled => 4

/-! ### The adoption request -/

/-- The resume override cleared by an adoption request; its slot unstaged when the Coordinator does not hold it (R162). -/
def clearOverride (s : State) : State :=
  match s.preempt.save with
  | none => s
  | some record =>
    match record.override with
    | none => s
    | some o =>
      let s := { s with preempt.save := some { record with override := none } }
      unstageOrphan o.adoption.plan (post (.overrideCleared o.adoption.plan) s)

/-- An adoption request taken by the Coordinator (R84). -/
def adoptionRequest (a : Adoption) (s : State) : State :=
  let s := { s with coord.requested := some a }
  let s := if s.coord.fallbackMark then s else putForward a s
  if s.coord.state = .suspended ∧ s.coord.cause = some .preemption then clearOverride s else s

/-! ### The governing plan -/

/-- The entry of the order list that is IN_FORCE. -/
def OrderHandler.inForce (o : OrderHandler) : Option OrderEntry :=
  o.entries.find? fun e => decide (e.state = .inForce)

/-- The governing plan and source the present lists call for (R72). -/
def State.governingNow (s : State) : Option Adoption × GovSource :=
  match s.orders.inForce with
  | some e =>
    match e.detail with
    | some d => (some { plan := d.plan, reference := .fixed d.start }, .order e.key)
    | none => (s.timetable.scheduled.map fun p => { plan := p, reference := .daily }, .schedule)
  | none => (s.timetable.scheduled.map fun p => { plan := p, reference := .daily }, .schedule)

/-- The check of the governing plan's slot (R74) and the adoption request (R73). -/
def checkMissing (changed : Bool) (g : Adoption) (s : State) : State :=
  if s.slotEmpty g.plan then
    if s.orders.planMissing then s else raise .planMissing (some g.plan) { s with orders.planMissing := true }
  else if s.orders.planMissing then adoptionRequest g (withdraw .planMissing { s with orders.planMissing := false })
  else if changed then adoptionRequest g s
  else s

/-- The governing plan decided (R72 to R74). -/
def decideGoverning (s : State) : State :=
  match s.governingNow with
  | (none, source) => { s with orders.governing := none, orders.govSource := source }
  | (some g, source) =>
    if s.orders.governing = some g then checkMissing false g { s with orders.govSource := source }
    else
      checkMissing true g (post (.governing g source) { s with orders.governing := some g, orders.govSource := source })

/-! ### Ranks and the order of the list -/

/-- An order outranks another: higher priority, then later start, then higher origin, then later issue stamp (R57). -/
def outranks (a : OrderDetail) (ka : OrderKey) (b : OrderDetail) (kb : OrderKey) : Bool :=
  if a.priority ≠ b.priority then decide (b.priority < a.priority)
  else if a.start ≠ b.start then a.start.later b.start
  else if ka.origin ≠ kb.origin then decide (kb.origin < ka.origin)
  else ka.stamp.later kb.stamp

/-- An entry outranks another; a cancel placeholder is never ranked (R57). -/
def OrderEntry.outranks (a b : OrderEntry) : Bool :=
  match a.detail, b.detail with
  | some da, some db => Machine.outranks da a.key db b.key
  | some _, none => true
  | none, _ => false

/-- An entry stands before another in the list (R58). -/
def OrderEntry.before (a b : OrderEntry) : Bool :=
  match a.detail, b.detail with
  | some da, some db => if da.start = db.start then a.outranks b else db.start.later da.start
  | some _, none => true
  | none, some _ => false
  | none, none => b.finish.later a.finish

/-- An entry inserted in its place (R58). Of two cancel placeholders with one end the later stored stands after, the spec
giving them no order (log 41). -/
def insertEntry (e : OrderEntry) : List OrderEntry → List OrderEntry
  | [] => [e]
  | x :: rest => if e.before x then e :: x :: rest else x :: insertEntry e rest

/-- The list without the entry of a key. -/
def removeEntry (k : OrderKey) (entries : List OrderEntry) : List OrderEntry :=
  entries.filter fun e => decide (e.key ≠ k)

/-- The entry of a key. -/
def OrderHandler.entry (o : OrderHandler) (k : OrderKey) : Option OrderEntry :=
  o.entries.find? fun e => decide (e.key = k)

/-! ### The evaluation -/

/-- Results of the signature match query (R32). -/
inductive SignatureMatch where
  | empty | same | different
  deriving DecidableEq, Repr

/-- The signature match query (R32). -/
def PlanStore.matchQuery (store : PlanStore) (plan : Nat) (signature : BitVec 16) : SignatureMatch :=
  match (store.slot plan).plan with
  | none => .empty
  | some p => if p.signature = signature then .same else .different

/-- Step 2 of the evaluation for one entry: MISMATCH, PENDING, or a candidate, marked ECLIPSED until the choice (R64). -/
def judgeEntry (store : PlanStore) (now : NetTime) (e : OrderEntry) : OrderEntry :=
  if e.state = .cancelled then e
  else
    match e.detail with
    | none => e
    | some d =>
      if store.matchQuery d.plan d.signature ≠ .same then { e with state := .mismatch }
      else if d.start.later now then { e with state := .pending }
      else { e with state := .eclipsed }

/-- The highest-ranked candidate (R64, step 3). -/
def bestCandidate (entries : List OrderEntry) : Option OrderEntry :=
  entries.foldl
    (fun best e =>
      if e.state = .eclipsed then
        match best with
        | none => some e
        | some b => if e.outranks b then some e else some b
      else best)
    none

/-- The states of all entries by steps 2 and 3 of the evaluation (R64). -/
def judgeEntries (store : PlanStore) (now : NetTime) (entries : List OrderEntry) : List OrderEntry :=
  let judged := entries.map (judgeEntry store now)
  match bestCandidate judged with
  | none => judged
  | some b => judged.map fun e => if e.key = b.key then { e with state := .inForce } else e

/-- A state whose entering or leaving is reported (R64). -/
def OrderState.reported : OrderState → Bool
  | .inForce | .mismatch => true
  | .pending | .eclipsed | .cancelled => false

/-- An entry whose old state is not in the list, with the code to report for it: an order stored just before had no state
(a free value, log 12), and a CANCELLED entry that a revision restores was CANCELLED (R60). -/
structure OldState where
  key : OrderKey
  code : Byte

/-- The ORDER_STATE report of one entry, if its change calls for one (R64). -/
def reportState (was : Option OldState) (old new : OrderEntry) (s : State) : State :=
  match was.filter fun w => decide (w.key = new.key) with
  | some w => if new.state.reported then post (.orderState new.key w.code (BitVec.ofNat 8 new.state.code)) s else s
  | none =>
    if old.state ≠ new.state ∧ (old.state.reported || new.state.reported) then
      post (.orderState new.key (BitVec.ofNat 8 old.state.code) (BitVec.ofNat 8 new.state.code)) s
    else s

/-- The ORDER_ENDED report of an entry removed while IN_FORCE (R64, step 1). -/
def reportEnded (e : OrderEntry) (s : State) : State :=
  match e.state, e.detail with
  | .inForce, some d => post (.orderEnded e.key d.plan) s
  | _, _ => s

/-- The evaluation (R64) and the governing plan after it (R72); outside RUNNING it has no effect (R65). `was` names an entry
whose old state is not in the list. -/
def evaluateOrders (was : Option OldState) (s : State) : State :=
  if s.running then
    let now := s.clock.reading
    let ended := s.orders.entries.filter fun e => e.finish.atOrBefore now
    let old := s.orders.entries.filter fun e => !e.finish.atOrBefore now
    let new := judgeEntries s.store now old
    let s := ended.foldl (fun s e => reportEnded e s) s
    let s := { s with orders.entries := new }
    let s := (old.zip new).foldl (fun s p => reportState was p.1 p.2 s) s
    decideGoverning s
  else s

/-! ### An ORDER arrives -/

/-- The order runs from its start to its end: the end is later by 1 ms to 7 days (R56). -/
def windowOk (start finish : NetTime) : Bool :=
  decide (0 < finish.diff start) && decide (finish.diff start ≤ 604800000)

/-- The content checks on an arriving ORDER pass (R59). -/
def OrderContent.acceptable (o : OrderContent) (now : NetTime) : Bool :=
  decide (1 ≤ o.key.origin) && decide (o.key.origin ≤ 250) && decide (1 ≤ o.detail.plan) && decide (o.detail.plan ≤ 32)
    && decide (o.detail.priority ≤ 7) && decide (o.zones ≠ 0) && decide (o.hop ≤ 15) && o.key.stamp.inWeek
    && o.detail.start.inWeek && o.finish.inWeek && windowOk o.detail.start o.finish && o.finish.later now

/-- The entry an order makes (R56); its state is decided by the evaluation that follows. -/
def OrderContent.toEntry (o : OrderContent) (reading : NetTime) (state : OrderState) : OrderEntry :=
  { key := o.key, revision := o.revision, detail := some o.detail, finish := o.finish, zones := o.zones, hop := o.hop,
    state := state, storedAt := reading }

/-- An entry becomes CANCELLED with a revision and an end; ORDER_CANCELLED is posted, and ORDER_STATE when it leaves
IN_FORCE or MISMATCH (R60, R62, R64). -/
def cancelEntry (e : OrderEntry) (revision : Nat) (finish : NetTime) (s : State) : State :=
  let new := { e with state := .cancelled, revision := revision, finish := finish }
  let s := { s with orders.entries := insertEntry new (removeEntry e.key s.orders.entries) }
  reportState none e new (post (.orderCancelled e.key revision) s)

/-- The CANCELLED entry a full list gives up first: earliest end, then lower origin, then earlier issue stamp (R61). R63, which
names the earliest end alone, takes its ties as R61 does (log 42). -/
def cancelledVictim (entries : List OrderEntry) : Option OrderEntry :=
  entries.foldl
    (fun best e =>
      if e.state = .cancelled then
        match best with
        | none => some e
        | some b =>
          if e.finish ≠ b.finish then (if b.finish.later e.finish then some e else some b)
          else if e.key.origin ≠ b.key.origin then (if e.key.origin < b.key.origin then some e else some b)
          else if b.key.stamp.later e.key.stamp then some e
          else some b
      else best)
    none

/-- The lowest-ranked entry that is not IN_FORCE (R61). -/
def lowestRanked (entries : List OrderEntry) : Option OrderEntry :=
  entries.foldl
    (fun low e =>
      if e.state = .inForce then low
      else
        match low with
        | none => some e
        | some l => if l.outranks e then some e else some l)
    none

/-- A victim removed with its ORDER_EVICTED report (R61). -/
def evict (v : OrderEntry) (s : State) : State :=
  post (.orderEvicted v.key v.state) { s with orders.entries := removeEntry v.key s.orders.entries }

/-- A new order stored: ORDER_STORED, then the evaluation (R61, R64). -/
def storeOrder (o : OrderContent) (s : State) : State :=
  let s := { s with orders.entries := insertEntry (o.toEntry s.clock.reading .pending) s.orders.entries }
  evaluateOrders (some { key := o.key, code := Config.newOrderOldState }) (post (.orderStored o.key o.revision) s)

/-- A new order refused for room (R61). -/
def refuseRoom (o : OrderContent) (s : State) : State :=
  post (.orderRefused o.key o.revision) { s with orders.refusedRoom := countUp 65535 s.orders.refusedRoom }

/-- Room made for a new order and the order stored, or refused (R61). A full list always holds an entry that is not
IN_FORCE; a list without one, which no run reaches, has no victim. -/
def admitOrder (o : OrderContent) (s : State) : State :=
  if s.orders.entries.length < 12 then storeOrder o s
  else
    match cancelledVictim s.orders.entries with
    | some v => storeOrder o (evict v s)
    | none =>
      match lowestRanked s.orders.entries with
      | none => refuseRoom o s
      | some v =>
        if v.outranks (o.toEntry s.clock.reading .pending) then refuseRoom o s
        else
          let s := evict v s
          storeOrder o { s with orders.evicted := countUp 65535 s.orders.evicted }

/-- The station's zone belongs to a zone mask. -/
def State.inZone (s : State) (zones : GroupSet) : Bool :=
  hasNumber zones s.cfg.zone

/-- An ORDER that has passed R59 taken into the list (R60, R61). An entry that a higher revision replaces keeps its storing
instant, the spec naming none (log 43). -/
def processOrder (o : OrderContent) (s : State) : State :=
  match s.orders.entry o.key with
  | some e =>
    if o.revision ≤ e.revision then s
    else if s.inZone o.zones then
      let new := { o.toEntry e.storedAt e.state with state := if e.state = .cancelled then .pending else e.state }
      let s := { s with orders.entries := insertEntry new (removeEntry e.key s.orders.entries) }
      let was : Option OldState :=
        if e.state = .cancelled then some { key := e.key, code := BitVec.ofNat 8 e.state.code } else none
      evaluateOrders was (post (.orderRevised o.key o.revision) s)
    else
      evaluateOrders none
        (cancelEntry e o.revision (if o.finish.later e.finish then o.finish else e.finish) s)
  | none =>
    if s.inZone o.zones then admitOrder o s
    else { s with orders.outOfZone := countUp 65535 s.orders.outOfZone }

/-- An arriving ORDER (R59 to R61). -/
def arriveOrder (o : OrderContent) (s : State) : State :=
  if o.acceptable s.clock.reading then processOrder o s
  else { s with orders.rejected := countUp 65535 s.orders.rejected }

/-! ### A CANCEL arrives -/

/-- The checks on an arriving CANCEL pass (R62). -/
def CancelContent.acceptable (c : CancelContent) (now : NetTime) : Bool :=
  decide (1 ≤ c.key.origin) && decide (c.key.origin ≤ 250) && c.key.stamp.inWeek && c.finish.inWeek
    && decide (c.zones ≠ 0) && c.finish.later now

/-- The cancel placeholder of a CANCEL (R63). -/
def CancelContent.toPlaceholder (c : CancelContent) (reading : NetTime) : OrderEntry :=
  { key := c.key, revision := c.revision, detail := none, finish := c.finish, zones := c.zones, hop := c.hop,
    state := .cancelled, storedAt := reading }

/-- A placeholder stored in the list (R63). -/
def insertPlaceholder (c : CancelContent) (s : State) : State :=
  { s with orders.entries := insertEntry (c.toPlaceholder s.clock.reading) s.orders.entries }

/-- A cancel placeholder stored, in free room or in the place of a CANCELLED entry that ends earlier, or dropped (R63). -/
def storePlaceholder (c : CancelContent) (s : State) : State :=
  let dropped := { s with orders.droppedCancel := countUp 65535 s.orders.droppedCancel }
  if s.orders.entries.length < 12 then evaluateOrders none (insertPlaceholder c s)
  else
    match cancelledVictim s.orders.entries with
    | some v => if c.finish.later v.finish then evaluateOrders none (insertPlaceholder c (evict v s)) else dropped
    | none => dropped

/-- A CANCEL taken into the order list (R62, R63). -/
def cancelInList (c : CancelContent) (s : State) : State :=
  match s.orders.entry c.key with
  | some e =>
    if e.state = .cancelled then
      let s :=
        { s with
          orders.entries := s.orders.entries.map fun x =>
            if x.key = c.key then { x with revision := max x.revision c.revision } else x }
      evaluateOrders none s
    else if e.revision ≤ c.revision then evaluateOrders none (cancelEntry e c.revision e.finish s)
    else s
  | none => if s.inZone c.zones then storePlaceholder c s else s

/-- A matching issued entry removed by a CANCEL of this station's order (R63). -/
def cancelIssued (c : CancelContent) (s : State) : State :=
  if c.key.origin = s.cfg.station then
    { s with
      orders.issued := s.orders.issued.filter fun i =>
        !(decide (i.key.stamp = c.key.stamp) && decide (i.revision ≤ c.revision)) }
  else s

/-- An arriving CANCEL (R62, R63). -/
def arriveCancel (c : CancelContent) (s : State) : State :=
  if c.acceptable s.clock.reading then cancelIssued c (cancelInList c s)
  else { s with orders.droppedCancel := countUp 65535 s.orders.droppedCancel }

/-! ### The issued list -/

/-- The content of an issued entry's ORDER frame with an announce count (R68, R69). -/
def IssuedEntry.content (i : IssuedEntry) (announce : Nat) : OrderContent :=
  { key := i.key, revision := i.revision, detail := i.detail, finish := i.finish, zones := i.zones, hop := i.hop,
    announce := announce }

/-- An issued entry inserted in order of issue stamp, earliest first (R67). -/
def insertIssued (e : IssuedEntry) : List IssuedEntry → List IssuedEntry
  | [] => [e]
  | x :: rest => if x.key.stamp.later e.key.stamp then e :: x :: rest else x :: insertIssued e rest

/-- The issued entry of an issue stamp. -/
def OrderHandler.issuedEntry (o : OrderHandler) (stamp : NetTime) : Option IssuedEntry :=
  o.issued.find? fun i => decide (i.key.stamp = stamp)

/-- The issued entry of an issue stamp changed. -/
def mapIssued (stamp : NetTime) (f : IssuedEntry → IssuedEntry) (issued : List IssuedEntry) : List IssuedEntry :=
  issued.map fun i => if i.key.stamp = stamp then f i else i

/-- The stamp is already that of an issued entry, or of an order-list entry whose origin is this station (R68). -/
def State.stampTaken (s : State) (stamp : NetTime) : Bool :=
  (s.orders.issued.any fun i => decide (i.key.stamp = stamp))
    || s.orders.entries.any fun e => decide (e.key.origin = s.cfg.station) && decide (e.key.stamp = stamp)

/-- A stamp raised by 1 ms at a time until it is free (R68). The two lists hold at most 16 stamps. -/
def freeStamp (s : State) : Nat → NetTime → NetTime
  | 0, stamp => stamp
  | n + 1, stamp => if s.stampTaken stamp then freeStamp s n (stamp.plus 1) else stamp

/-- An issued entry repeated (R69): with a new announce count when the queue has room, otherwise skipped. -/
def repeatIssued (i : IssuedEntry) (s : State) : State :=
  let next := s.clock.reading.plus 60000
  if s.line.hasRoom then
    let announce := (i.announce + 1) % 256
    placeOwnOrder (i.content announce)
      { s with
        orders.issued := mapIssued i.key.stamp (fun x => { x with announce := announce, nextRepeat := next }) s.orders.issued }
  else
    { s with orders.issued := mapIssued i.key.stamp (fun x => { x with nextRepeat := next }) s.orders.issued }

/-- The issued list after a step of the clock: ended entries removed, the others repeated a minute from now (R70). -/
def stepIssued (s : State) : State :=
  { s with
    orders.issued :=
      (s.orders.issued.filter fun i => !i.finish.atOrBefore s.clock.reading).map fun i =>
        { i with nextRepeat := s.clock.reading.plus 60000 } }

end Sys2Proof.Machine
end

