-- ==== Sys2Proof/Machine/TimetableOps.lean ====
section
/-! DEFINITION. The Timetable: day types (R41), the evaluation (R42), what it hands on (R46), pruning (R51), the orders of
the two lists (R39, R40). -/

namespace Sys2Proof.Machine

/-- The bits a set of day types may have: Monday..Sunday, A and B (R39, R213). -/
def daySetOk (days : BitVec 16) : Bool :=
  decide (days ≠ 0) && decide (days.toNat < 512)

/-- The place of the first day type of a set, Monday first (R39). -/
def firstDay (days : BitVec 16) : Nat :=
  ((List.range 9).find? fun i => days.getLsbD i).getD 9

/-- An entry stands before another (R39). -/
def Entry.before (a b : Entry) : Bool :=
  decide (a.start < b.start) || (decide (a.start = b.start) && decide (firstDay a.days < firstDay b.days))

/-- An entry inserted in its place (R39). -/
def insertTimetable (e : Entry) : List Entry → List Entry
  | [] => [e]
  | x :: rest => if e.before x then e :: x :: rest else x :: insertTimetable e rest

/-- A special day stands before another (R40). -/
def SpecialDay.before (a b : SpecialDay) : Bool :=
  decide (a.week < b.week) || (decide (a.week = b.week) && decide (a.day < b.day))

/-- A special day inserted in its place (R40). -/
def insertSpecial (d : SpecialDay) : List SpecialDay → List SpecialDay
  | [] => [d]
  | x :: rest => if d.before x then d :: x :: rest else x :: insertSpecial d rest

/-- The special day of a calendar day. -/
def Timetable.special (t : Timetable) (week day : Nat) : Option SpecialDay :=
  t.specials.find? fun d => decide (d.week = week) && decide (d.day = day)

/-- The day type of a calendar day, as its bit: Monday 0 to Sunday 6, A 7, B 8 (R41). -/
def Timetable.dayType (t : Timetable) (week day : Nat) : Nat :=
  match t.special week day with
  | some d =>
    match d.type with
    | .a => 7
    | .b => 8
  | none => day

/-- The day before a calendar day (R41). -/
def dayBefore (week day : Nat) : Nat × Nat :=
  if 1 ≤ day then (week, day - 1) else ((week + 65535) % 65536, 6)

/-- Of the entries that apply to a day type and start at `latest` or earlier, the one with the greatest start (R42). -/
def lastApplying (entries : List Entry) (dayType latest : Nat) : Option Entry :=
  entries.foldl
    (fun best e =>
      if e.days.getLsbD dayType ∧ e.start ≤ latest then
        match best with
        | none => some e
        | some b => if b.start < e.start then some e else some b
      else best)
    none

/-- The look-back of R42: `left` more days may be taken, `back` days have been. -/
def Timetable.lookBack (t : Timetable) (default : Nat) : Nat → Nat → Nat → Nat → Nat × Source
  | 0, _, _, _ => (default, .default)
  | left + 1, back, week, day =>
    let before := dayBefore week day
    match lastApplying t.entries (t.dayType before.1 before.2) 863999 with
    | some e => (e.plan, .earlier (back + 1) e.start)
    | none => t.lookBack default left (back + 1) before.1 before.2

/-- The scheduled plan and its source at a reading (R42). -/
def Timetable.find (t : Timetable) (now : NetTime) (default : Nat) : Nat × Source :=
  match lastApplying t.entries (t.dayType now.week now.day) now.timeOfDay with
  | some e => (e.plan, .today e.start)
  | none => t.lookBack default 7 0 now.week now.day

/-- An evaluation of the schedule (R42, R43) and its passing on (R46); in CONFIGURING there is none (R44, R45). -/
def evaluateSchedule (s : State) : State :=
  if s.running then
    let found := s.timetable.find s.clock.reading s.cfg.defaultPlan
    if s.timetable.scheduled = some found.1 then { s with timetable.source := found.2 }
    else
      decideGoverning
        (post (.schedule (s.timetable.scheduled.getD 0) found.1 found.2)
          { s with timetable.scheduled := some found.1, timetable.source := found.2 })
  else s

/-- The distance of a calendar day from today, in days (R51). -/
def dayDistance (week day : Nat) (now : NetTime) : Int :=
  signedWeeks ((week : Int) - now.week) * 7 + (day : Int) - now.day

/-- A special day lies eight or more days before today (R51). -/
def SpecialDay.past (d : SpecialDay) (now : NetTime) : Bool :=
  decide (dayDistance d.week d.day now < -7)

/-- The later of two special days, by their distance from today (R51). -/
def laterSpecial (now : NetTime) (a b : SpecialDay) : SpecialDay :=
  if dayDistance a.week a.day now < dayDistance b.week b.day now then b else a

/-- The edit count one higher, wrapping after 255 (R47). -/
def editUp (n : Nat) : Nat := (n + 1) % 256

/-- The pruning of special days (R51). -/
def prune (s : State) : State :=
  let now := s.clock.reading
  match s.timetable.specials.filter fun d => d.past now with
  | [] => s
  | d :: rest =>
    let latest := rest.foldl (laterSpecial now) d
    post (.specialDaysPruned (rest.length + 1) latest.week latest.day)
      { s with
        timetable.specials := s.timetable.specials.filter fun x => !x.past now
        timetable.editCount := editUp s.timetable.editCount }

/-- The evaluation at a calendar instant (R44); at midnight the pruning is done first, unless the clock is ALONE. -/
def takeCalendar (s : State) : State :=
  let s := { s with instants.calendar := false }
  evaluateSchedule (if s.clock.reading.timeOfDay = 0 ∧ s.clock.state ≠ .alone then prune s else s)

end Sys2Proof.Machine
end

