-- ==== Sys2Proof/Machine/ClockOps.lean ====
section
/-! DEFINITION. The Station Clock: steps and slews (R2, R3), the neighbour table (R4 to R7), the round (R8 to R13), the TIME
frame (R16, R17), the running of the clock (R1), and the attempt that begins (R17, R185, R186). -/

namespace Sys2Proof.Machine

/-! ### Steps and slews -/

/-- Every stored difference lowered by `d` (R2, R3). -/
def lowerDifferences (d : Int) (neighbours : List Neighbour) : List Neighbour :=
  neighbours.map fun n => { n with lastD := n.lastD - d }

/-- A step of the clock by `d` (R3). In RUNNING the Timetable prunes and evaluates (R45, R51), and after it the Order Handler
clears its issued list and evaluates (R65, R70): the order of the two is the model's (log 37). A millisecond still being held
back by the slew is dropped with the slew remainder, which is the model's choice (log 45). -/
def stepClock (d : Int) (s : State) : State :=
  let before := s.clock.reading
  let s :=
    { s with
      clock.reading := before.plus d
      clock.slew := 0
      clock.backlog := 0
      clock.neighbours := lowerDifferences d s.clock.neighbours
      instants.holding := false }
  if s.running then
    let s := post (.clockStep d before) s
    let s := evaluateSchedule (prune s)
    evaluateOrders none (stepIssued s)
  else s

/-- The slew millisecond of a boundary (R2). -/
def slewMillisecond (s : State) : State :=
  if 0 < s.clock.slew then
    { s with
      clock.reading := s.clock.reading.plus 1
      clock.slew := s.clock.slew - 1
      clock.neighbours := lowerDifferences 1 s.clock.neighbours }
  else if s.clock.slew < 0 then
    { s with
      clock.slew := s.clock.slew + 1
      clock.neighbours := lowerDifferences (-1) s.clock.neighbours
      instants.holding := true }
  else s

/-! ### The neighbour table -/

/-- The difference of a TIME frame: stamp plus line delay compensation minus the captured reading (R4). -/
def frameDifference (stamp : NetTime) (delay : Nat) (captured : NetTime) : Int :=
  stamp.diff captured + delay

/-- An entry inserted in station-number order. -/
def insertNeighbour (n : Neighbour) : List Neighbour → List Neighbour
  | [] => [n]
  | x :: rest => if n.station < x.station then n :: x :: rest else x :: insertNeighbour n rest

/-- The entry of greatest age, the lowest station number among equals; the table is in station-number order (R5). -/
def oldestNeighbour (neighbours : List Neighbour) : Option Neighbour :=
  neighbours.foldl
    (fun best n =>
      match best with
      | none => some n
      | some b => if b.age < n.age then some n else some b)
    none

/-- A new entry created when there is room or a replaceable entry, or the frame ignored and counted (R5). -/
def createNeighbour (n : Neighbour) (s : State) : State :=
  if s.clock.neighbours.length < 16 then
    { s with clock.neighbours := insertNeighbour n s.clock.neighbours }
  else
    match oldestNeighbour s.clock.neighbours with
    | some old =>
      if 3 ≤ old.age then
        { s with
          clock.neighbours :=
            insertNeighbour n (s.clock.neighbours.filter fun x => decide (x.station ≠ old.station)) }
      else { s with clock.tableFull := countUp 65535 s.clock.tableFull }
    | none => s

/-- A valid TIME frame taken into the neighbour table (R4, R5). Three points R4 leaves open are the model's choices: a frame that
bears this station's number and an undefined state code counts as rejected alone (log 50), a stamp whose millisecond of week
is out of range is taken as it stands (log 51), and bits 1 to 7 of the flags byte are ignored (log 52). -/
def takeTimeFrame (sender : Nat) (body : List Byte) (captured : NetTime) (s : State) : State :=
  match clockStateOf (field body 0 1), coordStateOf (field body 2 1) with
  | some clockState, some coordState =>
    if sender = 0 ∨ 250 < sender then { s with clock.rejectedTime := countUp 65535 s.clock.rejectedTime }
    else if sender = s.cfg.station then { s with clock.numberConflict := countUp 65535 s.clock.numberConflict }
    else
      let fresh : Neighbour :=
        { station := sender
          lastD := frameDifference (timeField body 3) s.cfg.delay captured
          age := 0
          clockState := clockState
          anchored := (BitVec.ofNat 8 (field body 1 1)).getLsbD 0
          coordState := coordState
          governing := if body.length = 12 then some (field body 9 1, BitVec.ofNat 16 (field body 10 2)) else none
          disputed := false }
      if s.clock.neighbours.any fun n => decide (n.station = sender) then
        { s with
          clock.neighbours := s.clock.neighbours.map fun n =>
            if n.station = sender then { fresh with disputed := n.disputed } else n }
      else createNeighbour fresh s
  | _, _ => { s with clock.rejectedTime := countUp 65535 s.clock.rejectedTime }

/-- Ageing at a round: every age one higher, saturating at 255, and entries that reach 30 removed (R6). -/
def ageNeighbours (neighbours : List Neighbour) : List Neighbour :=
  (neighbours.map fun n => { n with age := countUp 255 n.age }).filter fun n => decide (n.age < 30)

/-- The entry is fresh (R7). -/
def Neighbour.fresh (n : Neighbour) : Bool := decide (n.age ≤ 2)

/-- The entry is usable within an acceptance window (R7). -/
def Neighbour.usable (window : Nat) (n : Neighbour) : Bool :=
  n.fresh && decide (n.clockState ≠ .alone) && decide (n.lastD.natAbs ≤ window)

/-- The entry is disputed at a round taken in a state other than ALONE (R7). -/
def Neighbour.isDisputed (window : Nat) (n : Neighbour) : Bool :=
  n.fresh && decide (n.clockState ≠ .alone) && decide (window < n.lastD.natAbs)

/-- Classification at a round: the disputed flags and the disputed count; in ALONE all clear (R7). -/
def classify (s : State) : State :=
  let judge : Neighbour → Bool := fun n => decide (s.clock.state ≠ .alone) && n.isDisputed s.cfg.acceptWindow
  { s with
    clock.neighbours := s.clock.neighbours.map fun n => { n with disputed := judge n }
    clock.disputed := (s.clock.neighbours.filter judge).length }

/-! ### The round -/

/-- A value inserted in rising order. -/
def insertValue (x : Int) : List Int → List Int
  | [] => [x]
  | y :: rest => if x ≤ y then x :: y :: rest else y :: insertValue x rest

/-- The values in rising order. -/
def sortValues (values : List Int) : List Int :=
  values.foldr insertValue []

/-- The trimmed mean: `k` values discarded from each end of the sorted set, the mean of the rest truncated toward zero
(R8). -/
def trimmedMean (k : Nat) (values : List Int) : Int :=
  let kept := ((sortValues values).drop k).take (values.length - 2 * k)
  kept.sum.tdiv kept.length

/-- The correction over a choice of neighbours: the anchored ones alone if there are any, trimmed at 3 or more; otherwise
all with the station's own values before them, trimmed at 4 or more (R8, R10). -/
def correction (own : List Int) (chosen : List Neighbour) : Int :=
  let anchored := chosen.filter Neighbour.anchored
  if anchored.isEmpty then
    let values := own ++ chosen.map Neighbour.lastD
    trimmedMean (if 4 ≤ values.length then 1 else 0) values
  else trimmedMean (if 3 ≤ anchored.length then 1 else 0) (anchored.map Neighbour.lastD)

/-- The clock state set; a change posts CLOCK_STATE and is given to the Coordinator (R11, R83). -/
def setClockState (state : ClockState) (s : State) : State :=
  if s.clock.state = state then s
  else
    settleAction actionFuel .transitionOverrun
      (isolationChange (post (.clockState s.clock.state state) { s with clock.state := state }))

/-- HOLDOVER is entered or kept: the count goes up and at the limit CLOCK_ISOLATED is raised (R12). -/
def holdoverRound (s : State) : State :=
  let s := setClockState .holdover s
  let count := countUp 65535 s.clock.holdover
  let s := { s with clock.holdover := count }
  if s.cfg.holdoverLimit ≤ count ∧ s.clock.isolatedRaised = false then
    raise .clockIsolated none { s with clock.isolatedRaised := true }
  else s

/-- A state other than HOLDOVER is entered or kept; HOLDOVER left sets the count to 0 and withdraws CLOCK_ISOLATED (R12). -/
def leaveHoldover (state : ClockState) (s : State) : State :=
  let s := setClockState state { s with clock.holdover := 0 }
  if s.clock.isolatedRaised then withdraw .clockIsolated { s with clock.isolatedRaised := false } else s

/-- The state a non-anchored station takes from a correction, by the table of R11. -/
def roundState (old : ClockState) (window : Nat) (c : Int) : ClockState :=
  if c.natAbs ≤ window then .synced
  else if old = .synced ∧ c.natAbs ≤ 2 * window then .synced
  else .tracking

/-- The round of a non-anchored station in TRACKING, SYNCED or HOLDOVER (R8, R9, R11, R12). -/
def slewRound (s : State) : State :=
  let usable := s.clock.neighbours.filter (Neighbour.usable s.cfg.acceptWindow)
  if usable.isEmpty then holdoverRound s
  else
    let c := correction [0] usable
    let s := { s with clock.slew := clampTo s.cfg.slewLimit c }
    leaveHoldover (roundState s.clock.state s.cfg.syncWindow c) s

/-- The round of an ALONE station that is not anchored (R10). -/
def aloneRound (s : State) : State :=
  let fresh := s.clock.neighbours.filter Neighbour.fresh
  let timed := fresh.filter fun n => decide (n.clockState ≠ .alone)
  if timed.isEmpty then
    if fresh.isEmpty then s
    else if fresh.all fun n => decide (s.cfg.station < n.station) then setClockState .tracking s
    else s
  else setClockState .tracking (stepClock (correction [] timed) s)

/-- The round of an anchored station (R13). -/
def anchoredRound (s : State) : State :=
  let sum := s.clock.slew + s.clock.backlog
  let slew := clampTo s.cfg.slewLimit sum
  let s := { s with clock.slew := slew, clock.backlog := sum - slew }
  match s.clock.state with
  | .alone | .tracking => s
  | .synced | .holdover => if s.clock.setTimeMark then leaveHoldover .synced s else holdoverRound s

/-- The Line Interface's counts at a round (R194). -/
def roundCounts (s : State) : State :=
  { s with line.last := s.line.present, line.present := { sent := 0, received := 0, collisions := 0 } }

/-- The state decision and correction of a round (R8 to R13). -/
def clockRound (s : State) : State :=
  if s.cfg.anchored then anchoredRound s
  else if s.clock.state = .alone then aloneRound s
  else slewRound s

/-- The mark that SET_TIME has been taken in the round is cleared (R13). -/
def clearTimeMark (s : State) : State :=
  { s with clock.setTimeMark := false }

/-- A round taken in RUNNING (R6 to R13, R194). -/
def takeRound (s : State) : State :=
  clearTimeMark
    (clockRound
      (classify (roundCounts { s with instants.round := false, clock.neighbours := ageNeighbours s.clock.neighbours })))

/-! ### The TIME frame -/

/-- The content of a TIME frame but for its stamp (R17). -/
def State.timeContent (s : State) : TimeContent :=
  { clockState := s.clock.state
    anchored := s.cfg.anchored && decide (s.clock.state = .synced)
    coordState := s.coord.state
    stamp := none
    governing :=
      if s.coord.state = .idle then none
      else s.orders.governing.bind fun g => (s.storedPlan g.plan).map fun p => (g.plan, p.signature) }

/-- The TIME frame of the round built and handed to the send queue (R16). -/
def takeTimeBuild (s : State) : State :=
  placeTime s.timeContent { s with instants.frame := false }

/-- A round that the clock has reached is taken; nothing where none has been. -/
def roundFirst (s : State) : State :=
  if s.running && s.instants.round then takeRound s else s

/-! ### The running clock -/

/-- The station's offset in the round, in ms (R16). -/
def State.frameOffset (s : State) : Nat :=
  40 * s.cfg.station % 10000

/-- Milliseconds until the clock next reaches the station's offset, 1..10,000. A step that lands on the offset has not
reached it by running, and builds no frame (log 36). -/
def State.msToOffset (s : State) : Nat :=
  (s.frameOffset + 9999 - s.clock.reading.ms % 10000) % 10000 + 1

/-- Milliseconds until the clock next reaches a multiple of 100, 1..100. -/
def State.msToMultiple (s : State) : Nat :=
  100 - s.clock.reading.ms % 100

/-- The clock runs `n` milliseconds, not beyond its next multiple of 100, and marks what it reaches: a boundary, and in
RUNNING a round, the station's offset, a calendar instant (R1, R16, R44). Line waits run down with it (log 11). -/
def runClock (n : Nat) (s : State) : State :=
  let reading := s.clock.reading.plus n
  let boundary := decide (s.msToMultiple ≤ n)
  let calendar :=
    decide (reading.timeOfDay = 0) || s.timetable.entries.any fun e => decide (e.start = reading.timeOfDay)
  { s with
    clock.reading := reading
    line := s.lineAfter n
    instants.holding := false
    instants.boundary := boundary
    instants.timing := s.instants.timing && !boundary
    instants.round := s.instants.round || (s.running && boundary && decide (reading.ms % 10000 = 0))
    instants.frame := s.instants.frame || (s.running && decide (s.msToOffset ≤ n))
    instants.calendar := s.instants.calendar || (s.running && boundary && calendar) }

/-! ### The beginning of an attempt -/

/-- Preamble and start delimiter, three bytes, in thousandths of a bit time (R182). -/
def delimiterTime : Nat := 24000

/-- What the clock itself still does at the instant it stands at: a round reached is taken (R8 to R13), and a boundary takes its
slew millisecond (R2). -/
def settleClock (s : State) : State :=
  let s := roundFirst s
  if s.instants.boundary then { slewMillisecond s with instants.boundary := false } else s

/-- One millisecond of the timebase as the clock lives through it: the one held back passes (R2), any other moves the clock,
which settles where it comes to (R1). -/
def clockMillisecond (s : State) : State :=
  if s.instants.holding then { s with instants.holding := false } else settleClock (runClock 1 s)

/-- The clock settled where it stands, then moved on by some milliseconds of the timebase. -/
def clockAhead : Nat → State → State
  | 0, s => settleClock s
  | n + 1, s => clockMillisecond (clockAhead n s)

/-- The reading the stamp of a TIME frame names: the one the clock will have after preamble and delimiter (R17), through every
slew millisecond, held millisecond and round that lies between. Whether the part of a millisecond left over makes one more is
a free value; a SET_TIME that is taken between cannot be foreseen (log 9). -/
def stampFor (s : State) : NetTime :=
  (clockAhead (delimiterTime / bitRateOf s.cfg.bitRate + (Config.stampDraw s.draws).toNat) s).clock.reading

/-- A frame's attempt begins: the attempt count goes up, a TIME frame takes its stamp, and the bytes are driven (R186). -/
def beginAttempt (f : Frame) (s : State) : State :=
  let body : FrameBody :=
    match f.body with
    | .time c => .time { c with stamp := some (stampFor s) }
    | .order o => .order o
    | .cancel c => .cancel c
  { s with
    line.inHand := some { f with body := body, attempts := f.attempts + 1 }
    line.tx := .sending
    line.wait := 0
    line.deferred := 0
    line.lineOut := lineBytes s.cfg.station body
    draws := s.draws + 1 }

/-- The idle gap is met: SENDING begins with the next frame (R185, R186). -/
def meetGap (s : State) : State :=
  match s.line.next with
  | some f => beginAttempt f { s with line.queue := s.line.rest }
  | none => s

end Sys2Proof.Machine
end

