-- ==== Sys2Proof/Machine/CycleOps.lean ====
section
/-! DEFINITION. The cycle: figures and corrected splits (R80, R96, R97), the measure (R89, R90), transitions (R91 to R95), the
cycle end (R86, R88), the Sequencer's greens and clearances (R113 to R120), the end of startup red (R102, R112) and the
resume (R101, R104, R128). -/

namespace Sys2Proof.Machine

/-! ### Figures -/

/-- Stage boundaries: the sums of the splits before each stage, from `b` on (R80). -/
def boundsFrom : Nat → List Nat → List Nat
  | _, [] => []
  | b, split :: rest => b :: boundsFrom (b + split) rest

/-- The figures of a cycle of a plan with the given length and splits (R80). -/
def figuresOf (plan length : Nat) (splits : List Nat) : Figures :=
  { plan := plan, length := length, splits := splits, bounds := boundsFrom 0 splits }

/-- The nominal splits of a plan. -/
def PlanRecord.splits (p : PlanRecord) : List Nat :=
  p.stages.map StageRecord.split

/-- The figures of a nominal cycle (R80). -/
def nominalFigures (p : PlanRecord) : Figures :=
  figuresOf p.number p.cycle p.splits

/-- The whole of `k` given to stage 1 (R96). -/
def lengthenSplits (k : Nat) : List Nat → List Nat
  | [] => []
  | split :: rest => (split + k) :: rest

/-- The first share of each stage in a shortening by `k`: floor(k × spare / Σspare) (R97). -/
def floorTakes (k spareSum : Nat) (spares : List Nat) : List Nat :=
  spares.map fun spare => k * spare / spareSum

/-- The pass that gives the shortfall one ds at a time, in stage order, to stages that can give one more (R97). -/
def giveExtra : Nat → List Nat → List Nat → List Nat
  | m, spare :: spares, take :: takes =>
    if 0 < m ∧ take < spare then (take + 1) :: giveExtra (m - 1) spares takes else take :: giveExtra m spares takes
  | _, _, _ => []

/-- What each stage gives up when a cycle is shortened by `k` (R97). -/
def shortenTakes (k spareSum : Nat) (spares : List Nat) : List Nat :=
  let takes := floorTakes k spareSum spares
  giveExtra (k - takes.sum) spares takes

/-- The corrected splits of a shortening by `k` (R97). -/
def shortenSplits (k spareSum : Nat) (spares splits : List Nat) : List Nat :=
  List.zipWith (fun split take => split - take) splits (shortenTakes k spareSum spares)

/-- The figures of a cycle corrected by `k` in a direction (R92, R96, R97). -/
def correctedFigures (p : StoredPlan) (direction : Direction) (k : Nat) : Figures :=
  match direction with
  | .shorten => figuresOf p.plan.number (p.plan.cycle - k) (shortenSplits k p.spareSum p.spares p.plan.splits)
  | .lengthen => figuresOf p.plan.number (p.plan.cycle + k) (lengthenSplits k p.plan.splits)
  | .pending => nominalFigures p.plan

/-! ### The measure -/

/-- The reference instant at a reading (R89). -/
def Reference.instantAt (r : Reference) (now : NetTime) : NetTime :=
  match r with
  | .daily => now.midnight
  | .fixed instant => instant

/-- The elapsed time in ds (R90). -/
def Reference.elapsed (r : Reference) (now : NetTime) : Int :=
  match r with
  | .daily => now.timeOfDay
  | .fixed instant => now.diff instant / 100

/-- The measure of a plan's place (R90). -/
def measureOf (p : PlanRecord) (r : Reference) (now : NetTime) : Measure :=
  let ideal := ((r.elapsed now - p.offset) % (p.cycle : Int)).toNat
  { ideal := ideal, toShorten := ideal, toLengthen := (p.cycle - ideal) % p.cycle, reference := r.instantAt now }

/-- The junction is within tolerance (R90). -/
def Measure.within (m : Measure) (tolerance : Nat) : Bool :=
  decide (m.toShorten ≤ tolerance) || decide (m.toLengthen ≤ tolerance)

/-- The lengthening limit (R90). -/
def StoredPlan.lengthenLimit (p : StoredPlan) : Nat :=
  p.plan.cycle * p.plan.lengthen / 100

/-- The shortening limit (R90). -/
def StoredPlan.shortenLimit (p : StoredPlan) : Nat :=
  min (p.plan.cycle * p.plan.shorten / 100) p.spareSum

/-- The quotient rounded up. -/
def ceilDiv (a b : Nat) : Nat := (a + b - 1) / b

/-- The direction that takes fewer cycles; a tie and a shortening limit of 0 lengthen (R91). -/
def chooseDirection (p : StoredPlan) (m : Measure) : Direction :=
  if p.shortenLimit ≠ 0 ∧ ceilDiv m.toShorten p.shortenLimit < ceilDiv m.toLengthen p.lengthenLimit then .shorten
  else .lengthen

/-- The remaining amount in a direction (R92). -/
def Measure.remaining (m : Measure) : Direction → Nat
  | .shorten => m.toShorten
  | .lengthen => m.toLengthen
  | .pending => 0

/-- The limit in a direction (R92). -/
def StoredPlan.limit (p : StoredPlan) : Direction → Nat
  | .shorten => p.shortenLimit
  | .lengthen => p.lengthenLimit
  | .pending => 0

/-- A transition with a chosen direction is in progress (R91). -/
def Coordinator.correctingNow (c : Coordinator) : Bool :=
  match c.transition with
  | some t => decide (t.direction ≠ .pending)
  | none => false

/-- The counter decreased at a cycle end that ends a corrected cycle (R93). -/
def countCycle (s : State) : State :=
  match s.coord.transition with
  | some t =>
    if t.direction = .pending then s else { s with coord.transition := some { t with counter := t.counter - 1 } }
  | none => s

/-- A transition begun (R91). -/
def beginTransition (p : StoredPlan) (m : Measure) (s : State) : State :=
  let d := chooseDirection p m
  post (.transitionBegun d (m.remaining d) p.plan.transitions)
    (setCoord .correcting none
      { s with coord.transition := some { direction := d, counter := p.plan.transitions, amount := 0 } })

/-- The coming cycle's amount set from the measure (R92): the figures it gives. -/
def applyAmount (p : StoredPlan) (m : Measure) (s : State) : State × Figures :=
  match s.coord.transition with
  | some t =>
    let k := min (m.remaining t.direction) (p.limit t.direction)
    ({ s with coord.transition := some { t with amount := k } }, correctedFigures p t.direction k)
  | none => (s, nominalFigures p.plan)

/-- The transition's counter is used up and TRANSITION_OVERRUN not raised (R93). -/
def Coordinator.overruns (c : Coordinator) : Bool :=
  !c.overrunRaised && decide ((c.transition.map Transition.counter) = some 0)

/-- The measure and its judgement (R88, steps 3 and 4): the state, the figures of the coming cycle, and whether
TRANSITION_OVERRUN is to be raised (log 15). -/
def judge (p : StoredPlan) (r : Reference) (s : State) : State × Figures × Bool :=
  let m := measureOf p.plan r s.clock.reading
  let s := countCycle { s with coord.measure := some m }
  if m.within p.plan.tolerance then (abandonTransition (setCoord .coordinated none s), nominalFigures p.plan, false)
  else if s.coord.correctingNow then
    let applied := applyAmount p m s
    (applied.1, applied.2, s.coord.overruns)
  else
    let applied := applyAmount p m (beginTransition p m s)
    (applied.1, applied.2, false)

/-! ### The Sequencer's greens -/

/-- The boundary of stage `k`. -/
def Figures.bound (f : Figures) (k : Nat) : Nat := f.bounds.getD (k - 1) 0

/-- The corrected split of stage `k`. -/
def Figures.split (f : Figures) (k : Nat) : Nat := f.splits.getD (k - 1) 0

/-- Yellow and all-red together. -/
def StageRecord.clearance (st : StageRecord) : Nat := st.yellow + st.allRed

/-- A latch cleared (R115, R122). -/
def clearNumber (set : BitVec 16) (n : Nat) : BitVec 16 :=
  if n = 0 then set else set &&& ~~~(1#16 <<< (n - 1))

/-- A latch set (R122, R123). -/
def setNumber (set : BitVec 16) (n : Nat) : BitVec 16 :=
  if n = 0 then set else set ||| (1#16 <<< (n - 1))

/-- The groups of a trailing record. -/
def trailingSet (trailing : List Trailing) : GroupSet :=
  setOf fun g => trailing.any fun t => decide (t.group = g)

/-- The groups that are driven GREEN outside a beginning green (R120). -/
def State.leftGreen (s : State) (green : GroupSet) : GroupSet :=
  s.bank.driving .green &&& ~~~green

/-- A trailing clearance for a set of groups, with its yellow time and report (R120); none for an empty set. The groups enter the
record in rising number after those it holds, which is the model's choice (log 53). -/
def trail (occasion : TrailOccasion) (yellow : Nat) (groups : GroupSet) (s : State) : State :=
  if groups = 0 then s
  else
    post (.trailingClearance groups yellow occasion)
      (command groups .yellow
        { s with
          seq.trailing :=
            s.seq.trailing
              ++ (groupList.filter fun g => inSet g groups).map fun g => { group := g, yellow := yellow } })

/-- What the Sequencer holds and what its latches are at the beginning of a green (R115). -/
def Sequencer.begin (q : Sequencer) (f : Figures) (k : Nat) (st : StageRecord) : Sequencer :=
  { q with
    run :=
      some
        { stage := k, interval := .green, greenStart := f.bound k
          finish := f.bound k + f.split k - st.clearance, next := none, following := none }
    served := q.served.set (k - 1) .served
    trailing := q.trailing.filter fun t => !inSet t.group st.green
    latches := if st.onCall then clearNumber q.latches st.demandInput else q.latches }

/-- The green of stage `k` of the figures held begins (R115). `left` names the occasion and yellow of a trailing clearance
for groups left GREEN (R120). -/
def beginGreen (k : Nat) (left : Option (TrailOccasion × Nat)) (s : State) : State :=
  match s.seq.figures with
  | none => s
  | some f =>
    match s.stageOf f.plan k with
    | none => s
    | some st =>
      let s := { s with seq := s.seq.begin f k st }
      let s : State :=
        match left with
        | some (occasion, yellow) => trail occasion yellow (s.leftGreen st.green) s
        | none => s
      command (~~~(st.green ||| trailingSet s.seq.trailing)) .red (command st.green .green s)

/-- New figures taken by the Coordinator and handed to the Sequencer, with P (R80, R113). -/
def handFigures (f : Figures) (position : Nat) (s : State) : State :=
  { s with
    coord.figures := some f
    coord.length := f.length
    coord.position := position
    seq.figures := some f
    seq.served := f.splits.map fun _ => .notReached }

/-! ### The cycle end -/

/-- An activate request for an adoption: the slot becomes ACTIVE and the active plan is the adoption's (R34, R86). -/
def putInService (a : Adoption) (s : State) : State :=
  { s with store := (s.store.activate a.plan).getD s.store, coord.active := some a }

/-- The staged adoption looked at (R86). -/
def takeStaged (s : State) : State :=
  match s.coord.staged with
  | none => s
  | some x =>
    if 2 ≤ x.wait then { s with coord.staged := some { x with wait := 1 } }
    else
      post (.planAdopted x.adoption .cycleEnd)
        (abandonTransition { putInService x.adoption s with coord.staged := none })

/-- The yellow time of the stage that runs. -/
def State.runningYellow (s : State) : Nat :=
  match s.seq.run, s.seq.figures with
  | some r, some f => ((s.stageOf f.plan r.stage).map StageRecord.yellow).getD 0
  | _, _ => 0

/-- The figures of the coming cycle (R88, steps 2 to 4). -/
def comingCycle (a : Adoption) (p : StoredPlan) (s : State) : State × Figures × Bool :=
  match s.coord.state with
  | .isolated => (s, nominalFigures p.plan, false)
  | .correcting | .coordinated => judge p a.reference s
  | .idle | .suspended => (s, nominalFigures p.plan, false)

/-- TRANSITION_OVERRUN raised once the figures are handed (R93, log 15). -/
def raiseOverrun (raised : Bool) (s : State) : State :=
  if raised then raise .transitionOverrun none { s with coord.overrunRaised := true } else s

/-- The cycle end (R88) and the green of stage 1 that begins with it (R119, R120). -/
def takeCycleEnd (s : State) : State :=
  let yellow := s.runningYellow
  let s := takeStaged { s with coord.finalMark := false, instants.cycleEnd := false }
  match s.coord.active with
  | none => s
  | some a =>
    match s.storedPlan a.plan with
    | none => s
    | some p =>
      let c := comingCycle a p s
      raiseOverrun c.2.2 (beginGreen 1 (some (.cycleEnd, yellow)) (handFigures c.2.1 0 c.1))

/-! ### Skip decision and clearance -/

/-- What the skip decision finds: the skipped stages, the green end, and the next served stage (R116). -/
structure Decision where
  skipped : List Nat
  finish : Nat
  next : NextServed
  deriving DecidableEq, Repr

/-- The skip decision over the stages that follow, numbered from `j` (R116). -/
def decideNext (f : Figures) (latches : BitVec 16) (clearance : Nat) : Nat → Nat → List StageRecord → Decision
  | finish, _, [] => { skipped := [], finish := finish, next := .nextCycle }
  | finish, j, st :: rest =>
    if st.onCall && !hasNumber latches st.demandInput then
      let d := decideNext f latches clearance (f.bound j + f.split j - clearance) (j + 1) rest
      { d with skipped := j :: d.skipped }
    else { skipped := [], finish := finish, next := .stage j }

/-- The stage 1 green set that follows the final clearance (R117). -/
def State.nextCycleSet (s : State) : GroupSet :=
  match s.coord.staged with
  | some x =>
    if x.wait = 1 then s.greenSet x.adoption.plan 1 else s.greenSet ((s.coord.active.map Adoption.plan).getD 0) 1
  | none => s.greenSet ((s.coord.active.map Adoption.plan).getD 0) 1

/-- The clearance of the running stage begins (R117). -/
def beginClearance (r : RunState) (f : Figures) (st : StageRecord) (next : NextServed) (s : State) : State :=
  let following :=
    match next with
    | .stage j => s.greenSet f.plan j
    | .nextCycle => s.nextCycleSet
  let mark := s.coord.finalMark || decide (next = .nextCycle)
  command (st.green &&& ~~~following) .yellow
    { s with
      coord.finalMark := mark
      seq.run :=
        some { r with interval := .yellow, finish := r.finish + st.yellow, next := some next, following := some following } }

/-- Stages marked skipped in the served list. -/
def markSkipped (skipped : List Nat) (served : List ServedMark) : List ServedMark :=
  skipped.foldl (fun l j => l.set (j - 1) .skipped) served

/-- The green end (R116, R117): the skip decision at the green end first set, and the clearance at the final one. A decision
that moves the green end holds the next served stage; the following set is held from the clearance on (log 44). -/
def takeGreenEnd (s : State) : State :=
  match s.seq.run, s.seq.figures with
  | some r, some f =>
    match s.storedPlan f.plan, s.stageOf f.plan r.stage with
    | some p, some st =>
      match r.next with
      | some next => beginClearance r f st next s
      | none =>
        let d := decideNext f s.seq.latches st.clearance r.finish (r.stage + 1) (p.plan.stages.drop r.stage)
        if d.skipped.isEmpty then beginClearance r f st d.next s
        else
          { s with
            seq.served := markSkipped d.skipped s.seq.served
            seq.run := some { r with finish := d.finish, next := some d.next } }
    | _, _ => s
  | _, _ => s

/-- The yellow end of a stage with an all-red (R118). -/
def takeYellowEnd (s : State) : State :=
  match s.seq.run, s.seq.figures with
  | some r, some f =>
    match s.stageOf f.plan r.stage with
    | some st =>
      command (st.green &&& ~~~(r.following.getD 0)) .red
        { s with seq.run := some { r with interval := .allRed, finish := r.finish + st.allRed } }
    | none => s
  | _, _ => s

/-- The next served stage's green begins at its boundary (R115, R118). -/
def takeStageGreen (s : State) : State :=
  match s.seq.run with
  | some r =>
    match r.next with
    | some (.stage j) => beginGreen j none s
    | some .nextCycle | none => s
  | none => s

/-- A group's trailing yellow has run (R120). -/
def takeTrailingEnd (g : Group) (s : State) : State :=
  command (1#16 <<< g.val) .red { s with seq.trailing := s.seq.trailing.filter fun t => decide (t.group ≠ g) }

/-! ### The end of startup red -/

/-- The Coordinator leaves SUSPENDED: ISOLATED with no transition, or CORRECTING with a pending one (R101, R102). -/
def leaveSuspended (s : State) : State :=
  let s := abandonTransition s
  if s.isolating then setCoord .isolated none s
  else { setCoord .correcting none s with coord.transition := some pendingTransition }

/-- The plan of the first cycle chosen and put into service (R102). -/
def chooseFirstPlan (s : State) : State :=
  match s.coord.staged with
  | some x => post (.planAdopted x.adoption .startup) { putInService x.adoption s with coord.staged := none }
  | none =>
    match s.coord.active with
    | some _ => s
    | none =>
      let a : Adoption := { plan := s.cfg.defaultPlan, reference := .daily }
      post (.planAdopted a .standIn) (putInService a s)

/-- A nominal cycle of the active plan begins at stage `k` (R101, R102, R113). -/
def beginNominal (k : Nat) (left : Option (TrailOccasion × Nat)) (s : State) : State :=
  match s.coord.active.bind fun a => s.storedPlan a.plan with
  | none => s
  | some p =>
    let f := nominalFigures p.plan
    beginGreen k left (setSeq .run (handFigures f (f.bound k) (leaveSuspended s)))

/-- The end of startup red, but for a held take (R112, R102). -/
def endStartupRed (s : State) : State :=
  beginNominal 1 none (chooseFirstPlan { s with seq.startupCount := 0 })

/-! ### The resume -/

/-- The cases of the choice at a hand-back (R101, R104). -/
inductive ResumeCase where
  | fallback
  | override (o : Override)
  | staged (a : Adoption)
  | active
  deriving DecidableEq, Repr

/-- The case without an override (R101, cases 2 and 3). -/
def State.plainCase (s : State) : ResumeCase :=
  match s.coord.staged with
  | some x => .staged x.adoption
  | none => .active

/-- The case the Coordinator would take now (R101, R104). An override whose slot is EMPTY would be refused (R34, R87). -/
def State.resumeCase (s : State) (o : Option Override) : ResumeCase :=
  if s.coord.fallbackMark then .fallback
  else
    match o with
    | some o => if s.slotEmpty o.adoption.plan then s.plainCase else .override o
    | none => s.plainCase

/-- The fallback plan's adoption (R103). -/
def State.fallbackAdoption (s : State) : Adoption :=
  { plan := s.cfg.fallbackPlan, reference := .daily }

/-- The plan a case resumes. -/
def State.resumePlan (s : State) (c : ResumeCase) : Nat :=
  match c with
  | .fallback => s.cfg.fallbackPlan
  | .override o => o.adoption.plan
  | .staged a => a.plan
  | .active => (s.coord.active.map Adoption.plan).getD 0

/-- The entry stage of a case: the override's own or the save record's, taken as stage 1 beyond the plan's count (R101,
R104). -/
def State.resumeStage (s : State) (c : ResumeCase) (exit : Nat) : Nat :=
  let k :=
    match c with
    | .override o => o.stage
    | .fallback | .staged _ | .active => exit
  let count := ((s.storedPlan (s.resumePlan c)).map fun p => p.plan.stageCount).getD 0
  if count < k then 1 else k

/-- Any staged adoption emptied and its slot returned to STORED (R101, R104, log 20). -/
def emptyStaged (s : State) : State :=
  if s.coord.staged.isSome then { s with coord.staged := none, store := s.store.clearStaged } else s

/-- The plan chosen at a hand-back put into service (R101, R104). -/
def chooseResume (o : Option Override) (s : State) : State :=
  match s.resumeCase o with
  | .fallback =>
    let a := s.fallbackAdoption
    let s :=
      match o with
      | some o => { s with coord.requested := some o.adoption }
      | none => s
    if s.coord.active = some a then emptyStaged s
    else post (.planAdopted a .resume) (emptyStaged (putInService a s))
  | .override o =>
    post (.planAdopted o.adoption .resume)
      (emptyStaged { putInService o.adoption s with coord.requested := some o.adoption })
  | .staged a =>
    let s :=
      match o with
      | some o => post (.adoptionFailed o.adoption.plan .activate) s
      | none => s
    post (.planAdopted a .resume) { putInService a s with coord.staged := none }
  | .active =>
    match o with
    | some o => post (.adoptionFailed o.adoption.plan .activate) s
    | none => s

/-- The resume (R101, R104, R128): the chosen plan begins a partial cycle at its entry stage, groups left GREEN outside that
stage trail with the route's yellow. -/
def resume (exit : Nat) (o : Option Override) (yellow : Nat) (s : State) : State :=
  let k := s.resumeStage (s.resumeCase o) exit
  beginNominal k (some (.resume, yellow)) (chooseResume o s)

/-- The expected entry set (R159). -/
def State.expectedSet (s : State) (exit : Nat) (o : Option Override) : GroupSet :=
  let c := s.resumeCase o
  s.greenSet (s.resumePlan c) (s.resumeStage c exit)

end Sys2Proof.Machine
end

