-- ==== Sys2Proof/Machine/PreemptOps.lean ====
section
/-! DEFINITION. The Preemption Controller's run: the take and its hand-over (R125, R126, R148 to R150), ENTERING (R151, R152),
DWELL (R153, R154), runs that follow runs (R155 to R158), LEAVING and the hand-back (R159, R160). -/

namespace Sys2Proof.Machine

/-! ### Parts of a run -/

/-- A route with nothing in it, read where no input runs. -/
def noRoute : Route :=
  { track := 0, minDwell := 0, maxHold := 0, yellow := 0, allRed := 0, exitStage := 0 }

/-- The running input's route; empty where no input runs. -/
def State.runningRoute (s : State) : Route :=
  match s.preempt.running with
  | some i => s.route i
  | none => noRoute

/-- The groups of a set, in order. -/
def members (set : GroupSet) : List Group :=
  groupList.filter fun g => inSet g set

/-- The stage's holder: its clearance times (R151). -/
def stageHolder (k : Nat) (st : StageRecord) : Holder :=
  { holder := .stage k, yellow := st.yellow, allRed := st.allRed }

/-- The route's holder: its clearance times (R151). -/
def routeHolder (i : PreemptInput) (r : Route) : Holder :=
  { holder := .route i, yellow := r.yellow, allRed := r.allRed }

/-- A holder given to every group of a set. -/
def Preemption.giveHolder (p : Preemption) (set : GroupSet) (h : Holder) : Preemption :=
  { p with holders := Vector.ofFn fun g : Group => if inSet g set then some h else p.holders[g] }

/-- Groups of a set begin to clear, each with its holder's yellow; a group without a holder has none. They stand in rising number
after those that clear already, which is the model's choice (log 53). -/
def Preemption.startClearing (p : Preemption) (set : GroupSet) : Preemption :=
  { p with
    clearing :=
      p.clearing
        ++ (members set).filterMap fun g => p.holders[g].map fun h => { group := g, holder := h, yellow := h.yellow } }

/-! ### DWELL begins -/

/-- DWELL begins (R153). -/
def beginDwell (s : State) : State :=
  match s.preempt.running with
  | none => s
  | some i =>
    let track := (s.route i).track
    let s := setPreempt .dwell (some i) s
    let cleared : Preemption :=
      { s.preempt with
        greenHold := none, clearing := [], clearedAllRed := 0, allRed := none, dwell := 0
        holders := Vector.replicate 16 none }
    command (~~~track) .red (command track .green { s with preempt := cleared.giveHolder track (routeHolder i (s.route i)) })

/-! ### ENTERING -/

/-- The groups driven GREEN outside the track set are commanded YELLOW with their holders' yellow (R151). With nothing to
clear, an all-red under way runs out, and DWELL begins at once where there is none (R152). -/
def clearOutside (s : State) : State :=
  let out := s.leftGreen s.runningRoute.track
  let s := command out .yellow { s with preempt := { s.preempt.startClearing out with greenHold := none } }
  if s.preempt.clearing.isEmpty then if s.preempt.allRed.isSome then s else beginDwell s
  else { s with preempt.allRed := none }

/-- The ENTERING work begins with a green hold (R151). -/
def enterWith (hold : Nat) (s : State) : State :=
  if 0 < hold then { s with preempt.greenHold := some hold } else clearOutside s

/-! ### The take -/

/-- What the Sequencer hands over (R125). -/
structure HandOver where
  plan : Nat
  stage : Nat
  interval : Interval
  /-- ds already run in the interval; for a GREEN the ds of green served -/
  elapsed : Nat
  record : StageRecord
  following : GroupSet
  trailing : List Trailing
  deriving DecidableEq, Repr

/-- The P the Sequencer's intervals have reached: where a cycle end is due and not taken, C_cur (log 16). -/
def State.reachedPosition (s : State) : Nat :=
  if s.instants.cycleEnd then s.coord.position + 1 else s.coord.position

/-- The P value at which the running interval began. -/
def RunState.intervalStart (r : RunState) (st : StageRecord) : Nat :=
  match r.interval with
  | .green => r.greenStart
  | .yellow => r.finish - st.yellow
  | .allRed => r.finish - st.allRed

/-- The hand-over of the running stage (R125). -/
def State.handOver (s : State) : Option HandOver :=
  match s.seq.run, s.seq.figures with
  | some r, some f =>
    (s.stageOf f.plan r.stage).map fun st =>
      { plan := f.plan, stage := r.stage, interval := r.interval
        elapsed := s.reachedPosition - r.intervalStart st, record := st
        following := r.following.getD 0, trailing := s.seq.trailing }
  | _, _ => none

/-- The green hold of a hand-over (R151). -/
def HandOver.greenHold (h : HandOver) (track : GroupSet) : Nat :=
  if h.interval = .green ∧ h.record.green &&& ~~~track ≠ 0 then h.record.gmin - h.elapsed else 0

/-- The groups that clear at a hand-over: its trailing record, and in a YELLOW the stage's groups outside the following
set, each with the yellow still due (R151, R152). -/
def HandOver.clearing (h : HandOver) : List Clearing :=
  let holder := stageHolder h.stage h.record
  (h.trailing.map fun t => { group := t.group, holder := holder, yellow := t.yellow })
    ++
    match h.interval with
    | .yellow =>
      (members (h.record.green &&& ~~~h.following)).map fun g =>
        { group := g, holder := holder, yellow := h.record.yellow - h.elapsed }
    | .green | .allRed => []

/-- The all-red under way at a hand-over (R152). -/
def HandOver.allRed (h : HandOver) : Option Nat :=
  match h.interval with
  | .allRed => some (h.record.allRed - h.elapsed)
  | .green | .yellow => none

/-- The save record written at a grant (R150). -/
def HandOver.save (h : HandOver) (i : PreemptInput) (route : Route) (entry : NetTime) (position : Nat) : SaveRecord :=
  { source := i, entry := entry, plan := h.plan, position := position, stage := h.stage, interval := h.interval
    resumeStage := route.exitStage, override := none }

/-- The Sequencer yields the junction (R125). -/
def yieldJunction (s : State) : State :=
  let s := setSeq .yielded s
  { s with
    seq.run := none, seq.figures := none, seq.served := [], seq.trailing := [], seq.heldTake := false
    instants.cycleEnd := false }

/-- A take granted to an input with a hand-over (R149). -/
def grantTo (i : PreemptInput) (h : HandOver) (s : State) : State :=
  let route := s.route i
  let waiting := if i = .pe1 ∧ s.preempt.calls .pe2 then some PreemptInput.pe2 else none
  let preempt : Preemption :=
    { s.preempt with
      running := some i
      waiting := waiting
      heldTake := false
      save := some (h.save i route s.clock.reading s.coord.position)
      clearing := h.clearing
      clearedAllRed := 0
      allRed := h.allRed
      dwell := 0
      expected := none
      greenHold := none }
  let green := s.bank.driving .green
  let s := yieldJunction { s with preempt := preempt.giveHolder green (stageHolder h.stage h.record) }
  let s := setPreempt .entering (some i) (settleAction actionFuel .transitionOverrun (suspend .preemption s))
  enterWith (h.greenHold route.track) s

/-- A take granted to the claimant (R148, R149). -/
def grantTake (s : State) : State :=
  match s.preempt.claimant, s.handOver with
  | some i, some h => grantTo i h s
  | _, _ => s

/-- A take request: granted in RUN, held in FLASH and STARTUP_RED, without effect in YIELDED (R125, R126, R148). -/
def requestTake (s : State) : State :=
  match s.seq.state with
  | .run => grantTake s
  | .flash | .startupRed => { s with preempt.heldTake := true, seq.heldTake := true }
  | .yielded => s

/-! ### Runs that follow runs -/

/-- A run of another input begins from the aspects as they stand, without a hand-back (R158). -/
def directRun (i : PreemptInput) (s : State) : State :=
  let waiting := if s.preempt.waiting = some i then none else s.preempt.waiting
  clearOutside
    (setPreempt .entering (some i)
      { s with
        preempt.running := some i, preempt.waiting := waiting, preempt.expected := none, preempt.dwell := 0 })

/-- No group clears, none outside the track set is driven GREEN and no all-red runs (R152, "Nothing to clear"). -/
def State.nothingToClear (s : State) : Bool :=
  s.preempt.clearing.isEmpty && decide (s.leftGreen s.runningRoute.track = 0) && s.preempt.allRed.isNone

/-- The green hold with which ENTERING begins again from ENTERING: the one still running (R151, R157), but none where there is
nothing to clear and DWELL begins at once (R152). -/
def State.keptHold (s : State) : Nat :=
  if s.nothingToClear then 0 else s.preempt.greenHold.getD 0

/-- PE1's activation abandons a run of PE2 in ENTERING or DWELL; PE2 waits if its filtered level is still ACTIVE (R157). -/
def takeOver (s : State) : State :=
  let waiting := if s.preempt.pe2.active then some PreemptInput.pe2 else none
  let s :=
    post (.preemptAbandoned .pe2 .higherInput)
      { s with preempt.running := some .pe1, preempt.waiting := waiting, preempt.dwell := 0 }
  let s := setPreempt .entering (some .pe1) s
  enterWith s.keptHold s

/-! ### LEAVING and the hand-back -/

/-- The time from the entry instant to now, in ds (R160): the ms between them in whole ds, rounded down, and 0 where a step has
taken the reading back before the entry. Both are the model's choice (log 46). -/
def SaveRecord.duration (r : SaveRecord) (now : NetTime) : Nat :=
  (now.diff r.entry / 100).toNat

/-- The hand-back (R160). -/
def handBack (s : State) : State :=
  match s.preempt.save, s.preempt.running with
  | some r, some i =>
    let c := s.resumeCase r.override
    let ended : ReportBody :=
      .preemptEnded r.source (s.resumePlan c) (s.resumeStage c r.resumeStage) (r.duration s.clock.reading)
    let s := unstageOverride r.override (resume r.resumeStage r.override (s.route i).yellow s)
    let s := setPreempt .idle (some i) s
    post ended { s with preempt := s.preempt.atRest }
  | _, _ => s

/-- LEAVING is entered: the expected entry set is taken and the track groups outside it clear (R159). -/
def enterLeaving (s : State) : State :=
  match s.preempt.save with
  | none => s
  | some r =>
    let expected := s.expectedSet r.resumeStage r.override
    let out := s.leftGreen expected
    let s := setPreempt .leaving s.preempt.running { s with preempt.expected := some expected }
    let s := command out .yellow { s with preempt := s.preempt.startClearing out }
    if s.preempt.clearing.isEmpty then handBack s else s

/-- DWELL ends: a waiting input that is filtered ACTIVE begins, or LEAVING is entered (R153, R154). -/
def endDwell (s : State) : State :=
  match s.preempt.waiting with
  | some w => if (s.preempt.input w).active then directRun w s else enterLeaving s
  | none => enterLeaving s

/-! ### Clearances end -/

/-- The all-red has run: DWELL in ENTERING, the hand-back in LEAVING (R151, R159). -/
def endAllRed (s : State) : State :=
  match s.preempt.state with
  | .entering => beginDwell { s with preempt.allRed := none }
  | .leaving => handBack { s with preempt.allRed := none }
  | .idle | .dwell => s

/-- The greatest all-red among the groups cleared so far and the entries of a group (R151, log 18). -/
def clearedAllRedWith (cleared : Nat) (g : Group) (clearing : List Clearing) : Nat :=
  clearing.foldl (fun n c => if c.group = g then max n c.holder.allRed else n) cleared

/-- A clearing group's yellow has run: it is commanded RED, and after the last one the all-red begins; an all-red of 0 ends
at the same instant (R151). -/
def takeClearingEnd (g : Group) (s : State) : State :=
  let cleared := clearedAllRedWith s.preempt.clearedAllRed g s.preempt.clearing
  let clearing := s.preempt.clearing.filter fun c => decide (c.group ≠ g)
  let s := command (1#16 <<< g.val) .red { s with preempt.clearing := clearing, preempt.clearedAllRed := cleared }
  if clearing.isEmpty then
    if cleared = 0 then endAllRed s else { s with preempt.allRed := some cleared, preempt.clearedAllRed := 0 }
  else s

/-! ### Inputs -/

/-- The other input. -/
def otherInput : PreemptInput → PreemptInput
  | .pe1 => .pe2
  | .pe2 => .pe1

/-- An activation (R146, R148, R155). -/
def takeActivation (i : PreemptInput) (s : State) : State :=
  let f := s.preempt.input i
  let s := { s with preempt := s.preempt.setInput i { f with active := true, count := 0 } }
  if f.ignored then s
  else
    match s.preempt.state with
    | .idle => requestTake s
    | .entering | .dwell =>
      match i, s.preempt.running with
      | .pe1, some .pe2 => takeOver s
      | .pe2, some .pe1 => { s with preempt.waiting := some .pe2 }
      | _, _ => s
    | .leaving => directRun i s

/-- PREEMPT_STUCK withdrawn when an ignored input is released and no other is ignored (R146). -/
def withdrawStuck (i : PreemptInput) (s : State) : State :=
  if s.preempt.stuckRaised && !(s.preempt.input (otherInput i)).ignored then
    withdraw .preemptStuck { s with preempt.stuckRaised := false }
  else s

/-- A release (R146, R148, R153, R155). -/
def takeRelease (i : PreemptInput) (s : State) : State :=
  let f := s.preempt.input i
  let s := { s with preempt := s.preempt.setInput i { active := false, count := 0, ignored := false } }
  let s := if f.ignored then withdrawStuck i s else s
  let s := if s.preempt.waiting = some i then { s with preempt.waiting := none } else s
  match s.preempt.state with
  | .idle =>
    if s.preempt.heldTake && s.preempt.claimant.isNone then { s with preempt.heldTake := false, seq.heldTake := false }
    else s
  | .dwell => if s.preempt.running = some i ∧ s.runningRoute.minDwell ≤ s.preempt.dwell then endDwell s else s
  | .entering | .leaving => s

/-- The maximum hold of the running input (R154). -/
def takeMaximumHold (i : PreemptInput) (s : State) : State :=
  let s := { s with preempt := s.preempt.setInput i { s.preempt.input i with ignored := true } }
  let place := match i with
    | .pe1 => 1
    | .pe2 => 2
  let s := if s.preempt.stuckRaised then s else raise .preemptStuck (some place) { s with preempt.stuckRaised := true }
  if s.preempt.state = .dwell ∧ s.preempt.running = some i then endDwell s else s

end Sys2Proof.Machine
end

