-- ==== Sys2Proof/Machine/Instants.lean ====
section
/-! DEFINITION. What happens at an instant: which events are due, how one is taken, how the clock runs to the next one (log 1
to log 6), and the decisecond boundary with its samples (R1, R2, R79, R112, R122, R134, R136, R142, R146). -/

namespace Sys2Proof.Machine

/-! ### Which events are due -/

/-- A round has been reached (R1). -/
def State.roundDue (s : State) : Bool := s.running && s.instants.round

/-- The station's offset in the round has been reached (R16). -/
def State.frameDue (s : State) : Bool := s.running && s.instants.frame

/-- A calendar instant has been reached (R44). -/
def State.calendarDue (s : State) : Bool := s.running && s.instants.calendar

/-- The clock has reached the end of an entry of the order list (R65). -/
def State.orderEndDue (s : State) : Bool :=
  s.running && s.orders.entries.any fun e => e.finish.atOrBefore s.clock.reading

/-- The clock has reached the start of a PENDING entry of the order list (R65). -/
def State.orderStartDue (s : State) : Bool :=
  s.running && s.orders.entries.any fun e =>
    decide (e.state = .pending) && (e.detail.map fun d => d.start.atOrBefore s.clock.reading).getD false

/-- The clock has reached the end of an issued order (R70). -/
def State.issuedEndDue (s : State) (stamp : NetTime) : Bool :=
  s.running && s.orders.issued.any fun i => decide (i.key.stamp = stamp) && i.finish.atOrBefore s.clock.reading

/-- The clock has reached the next repeat of an issued order (R69). -/
def State.repeatDue (s : State) (stamp : NetTime) : Bool :=
  s.running && s.orders.issued.any fun i => decide (i.key.stamp = stamp) && i.nextRepeat.atOrBefore s.clock.reading

/-- The input's filter has counted enough samples of the other level (R146). -/
def State.filterDue (s : State) (i : PreemptInput) : Bool :=
  s.running && decide (s.cfg.filterCount ≤ (s.preempt.input i).count)

/-- The input is activated (R146). -/
def State.activationDue (s : State) (i : PreemptInput) : Bool := s.filterDue i && !(s.preempt.input i).active

/-- The input is released (R146). -/
def State.releaseDue (s : State) (i : PreemptInput) : Bool := s.filterDue i && (s.preempt.input i).active

/-- P would reach C_cur (R79). -/
def State.cycleEndDue (s : State) : Bool := s.instants.cycleEnd

/-- P has reached the end of the running interval, in RUN (R114). -/
def State.intervalDue (s : State) (p : RunState → Bool) : Bool :=
  match s.seq.run with
  | some r => decide (s.seq.state = .run) && p r && decide (r.finish ≤ s.coord.position)
  | none => false

/-- P has reached a green end (R116). -/
def State.greenEndDue (s : State) : Bool := s.intervalDue fun r => decide (r.interval = .green)

/-- The running stage has an all-red (R118). -/
def State.hasAllRed (s : State) (r : RunState) : Bool :=
  match s.seq.figures with
  | some f => decide (0 < ((s.stageOf f.plan r.stage).map StageRecord.allRed).getD 0)
  | none => false

/-- P has reached the yellow end of a stage with an all-red (R118). -/
def State.yellowEndDue (s : State) : Bool :=
  s.intervalDue fun r => decide (r.interval = .yellow) && s.hasAllRed r

/-- The clearance has run and the next served stage is one of this cycle. -/
def State.clearanceRun (s : State) (r : RunState) : Bool :=
  (decide (r.interval = .allRed) || (decide (r.interval = .yellow) && !s.hasAllRed r))
    && match r.next with
      | some (.stage _) => true
      | some .nextCycle | none => false

/-- P has reached the boundary of the next served stage (R115, R118). -/
def State.stageGreenDue (s : State) : Bool := s.intervalDue s.clearanceRun

/-- A group's trailing yellow has run (R120). -/
def State.trailingDue (s : State) (g : Group) : Bool :=
  decide (s.seq.state = .run) && s.seq.trailing.any fun t => decide (t.group = g) && decide (t.yellow = 0)

/-- The startup red count has reached 0 (R112). -/
def State.startupDue (s : State) : Bool :=
  decide (s.seq.state = .startupRed) && decide (s.seq.startupCount = 0)

/-- The half-period count would reach 0 (R134). -/
def State.toggleDue (s : State) : Bool := s.bank.flash && s.instants.toggle

/-- The green hold has run (R151). -/
def State.greenHoldDue (s : State) : Bool :=
  decide (s.preempt.state = .entering) && decide (s.preempt.greenHold = some 0)

/-- A clearing group's yellow has run; it does not run during a green hold (R151, log 17). -/
def State.clearingDue (s : State) (g : Group) : Bool :=
  s.preempt.greenHold.isNone && s.preempt.clearing.any fun c => decide (c.group = g) && decide (c.yellow = 0)

/-- The all-red after the last clearing yellow has run (R151, R159). -/
def State.allRedDue (s : State) : Bool :=
  s.preempt.clearing.isEmpty && decide (s.preempt.allRed = some 0)

/-- The running input in DWELL, with what it satisfies. -/
def State.dwellDue (s : State) (p : PreemptInput → Bool) : Bool :=
  match s.preempt.running with
  | some i => decide (s.preempt.state = .dwell) && p i
  | none => false

/-- The dwell count has reached the minimum dwell with the running input INACTIVE (R153). -/
def State.minimumDwellDue (s : State) : Bool :=
  s.dwellDue fun i => decide ((s.route i).minDwell ≤ s.preempt.dwell) && !(s.preempt.input i).active

/-- The dwell count has reached the maximum hold with the running input ACTIVE (R154). -/
def State.maximumHoldDue (s : State) : Bool :=
  s.dwellDue fun i =>
    decide ((s.route i).maxHold ≠ 0) && decide ((s.route i).maxHold ≤ s.preempt.dwell) && s.preempt.calls i

/-- The relay wait of DEFER has run down (R184). -/
def State.relayDue (s : State) : Bool :=
  decide (s.line.tx = .defer) && decide (s.line.wait = 0)

/-- A backoff wait has run down (R187). -/
def State.backoffDue (s : State) : Bool :=
  decide (s.line.tx = .backoff) && decide (s.line.wait = 0)

/-- The transmitter has looked for the idle gap for the defer limit (R185). -/
def State.deferDue (s : State) : Bool :=
  s.line.ready && decide (deferLimit ≤ s.line.deferred)

/-- The transmitter looks for the idle gap, and the line can have been idle for as long (R185, log 28). -/
def State.gapDue (s : State) : Bool :=
  s.line.ready && decide (idleGap ≤ s.line.idleTime)

/-! ### How an event is taken -/

/-- Ended issued orders of a stamp removed (R70). -/
def takeIssuedEnd (stamp : NetTime) (s : State) : State :=
  { s with
    orders.issued := s.orders.issued.filter fun i =>
      !(decide (i.key.stamp = stamp) && i.finish.atOrBefore s.clock.reading) }

/-- The issued order of a stamp repeated (R69). -/
def takeRepeat (stamp : NetTime) (s : State) : State :=
  match s.orders.issuedEntry stamp with
  | some i => repeatIssued i s
  | none => s

/-- The end of startup red, and a held take granted as RUN is entered (R112, R126). -/
def takeStartupEnd (s : State) : State :=
  let s := endStartupRed s
  if s.seq.heldTake && decide (s.seq.state = .run) then grantTake s else s

/-- The flash toggles (R134). -/
def takeToggle (s : State) : State :=
  { s with bank := s.bank.toggle s.cfg.flashYellow, instants.toggle := false }

/-- A green-sense filter becomes FAULTED (R139, R141). -/
def takeGreenFaulted (g : Group) (s : State) : State :=
  settleAction actionFuel .greenSense (markGreenFaulted g s)

/-- A green-sense filter becomes CLEAN (R139, R141). -/
def takeGreenClean (g : Group) (s : State) : State :=
  settleAction actionFuel .greenSense (markGreenClean g s)

/-- A lamp-out filter becomes FAULTED (R140, R141). -/
def takeLampFaulted (g : Group) (s : State) : State :=
  settleAction actionFuel .lampOut (markLampFaulted g s)

/-- A lamp-out filter becomes CLEAN (R140, R141). -/
def takeLampClean (g : Group) (s : State) : State :=
  settleAction actionFuel .lampOut (markLampClean g s)

/-- The green hold ends (R151). -/
def takeGreenHoldEnd (s : State) : State :=
  clearOutside { s with preempt.greenHold := none }

/-- The maximum hold of the running input is reached (R154). -/
def takeMaximum (s : State) : State :=
  match s.preempt.running with
  | some i => takeMaximumHold i s
  | none => s

/-- The TIME frame built where the clock has come to its instant, after the decision of a round of that instant (R16). -/
def takeFrameInstant (s : State) : State :=
  takeTimeBuild (roundFirst s)

/-- The relay wait is over: the transmitter looks for the idle gap (R184, R185). -/
def takeRelayWait (s : State) : State :=
  { s with line.wait := 0 }

/-- A backoff wait is over: the frame in hand defers again (R187). Line time that ran beyond the wait counts as deferred. -/
def takeBackoff (s : State) : State :=
  { s with line.tx := .defer, line.wait := 0 }

/-! ### The first event that is due -/

/-- Events of the clock, the Order Handler and the Timetable that are due, one of them taken (log 2). -/
def takeClockDue (s : State) : Option State :=
  if s.roundDue then some (takeRound s)
  else if s.frameDue then some (takeTimeBuild s)
  else if s.orderEndDue then some (evaluateOrders none s)
  else if s.orderStartDue then some (evaluateOrders none s)
  else
    match s.orders.issued.find? fun i => s.issuedEndDue i.key.stamp with
    | some i => some (takeIssuedEnd i.key.stamp s)
    | none =>
      match s.orders.issued.find? fun i => s.repeatDue i.key.stamp with
      | some i => some (takeRepeat i.key.stamp s)
      | none => if s.calendarDue then some (takeCalendar s) else none

/-- Events of the inputs, the cycle and the stages that are due, one of them taken (log 2). -/
def takeCycleDue (s : State) : Option State :=
  if s.releaseDue .pe1 then some (takeRelease .pe1 s)
  else if s.releaseDue .pe2 then some (takeRelease .pe2 s)
  else if s.activationDue .pe1 then some (takeActivation .pe1 s)
  else if s.activationDue .pe2 then some (takeActivation .pe2 s)
  else if s.cycleEndDue then some (takeCycleEnd s)
  else if s.greenEndDue then some (takeGreenEnd s)
  else if s.yellowEndDue then some (takeYellowEnd s)
  else if s.stageGreenDue then some (takeStageGreen s)
  else
    match groupList.find? s.trailingDue with
    | some g => some (takeTrailingEnd g s)
    | none => if s.startupDue then some (takeStartupEnd s) else none

/-- Events of the outputs, the preemption timers and the line that are due, one of them taken (log 2). -/
def takeOutputDue (s : State) : Option State :=
  if s.toggleDue then some (takeToggle s)
  else
    match groupList.find? s.greenFaultedDue, groupList.find? s.greenCleanDue, groupList.find? s.lampFaultedDue,
      groupList.find? s.lampCleanDue with
    | some g, _, _, _ => some (takeGreenFaulted g s)
    | none, some g, _, _ => some (takeGreenClean g s)
    | none, none, some g, _ => some (takeLampFaulted g s)
    | none, none, none, some g => some (takeLampClean g s)
    | none, none, none, none =>
      if s.greenHoldDue then some (takeGreenHoldEnd s)
      else
        match groupList.find? s.clearingDue with
        | some g => some (takeClearingEnd g s)
        | none =>
          if s.allRedDue then some (endAllRed s)
          else if s.maximumHoldDue then some (takeMaximum s)
          else if s.minimumDwellDue then some (endDwell s)
          else if s.backoffDue then some (takeBackoff s)
          else if s.deferDue then some (reachDeferLimit s)
          else none

/-- The first event that is due, taken; none where nothing is (log 2). -/
def takeFirstDue (s : State) : Option State :=
  match takeClockDue s with
  | some s' => some s'
  | none =>
    match takeCycleDue s with
    | some s' => some s'
    | none => takeOutputDue s

/-! ### Running to an instant -/

/-- A millisecond held back by a negative slew passes: the line's waits run and the clock does not (R2). -/
def passHeld (s : State) : State :=
  if s.instants.holding then { s with instants.holding := false, line := s.lineAfter 1 } else s

/-- The line times still to run: to the end of a BACKOFF, and in DEFER to the end of the relay wait, to the earliest idle gap
and to the defer limit (R184, R185, R187). -/
def LineInterface.waits (l : LineInterface) : List Nat :=
  match l.tx with
  | .backoff => [l.wait]
  | .defer => [l.wait, idleGap - l.idleTime, l.wait + (deferLimit - l.deferred)]
  | .idle | .sending => []

/-- The shorter of a number of ms and the ms to a later instant. -/
def earlier (now : NetTime) (n : Nat) (t : NetTime) : Nat :=
  if t.later now then min n (t.diff now).toNat else n

/-- Milliseconds to the next instant that is no decisecond boundary, at most `n`: an order's start or end, an issued
order's end or repeat, the station's offset in the round, what the transmitter waits for. -/
def State.msToEvent (s : State) (n : Nat) : Nat :=
  let now := s.clock.reading
  let n := s.orders.entries.foldl (fun n e => earlier now n e.finish) n
  let n :=
    s.orders.entries.foldl
      (fun n e =>
        match e.detail with
        | some d => earlier now n d.start
        | none => n)
      n
  let n := s.orders.issued.foldl (fun n i => earlier now (earlier now n i.finish) i.nextRepeat) n
  let n := if s.running then min n s.msToOffset else n
  s.line.waits.foldl (fun n w => if w = 0 then n else min n (ceilDiv w (bitRateOf s.cfg.bitRate))) n

/-- What comes next before the clock's next decisecond boundary: the first event that is due (log 2), the millisecond being held
back, or the clock running to its next instant. -/
def nextInstant (s : State) : State :=
  match takeFirstDue s with
  | some s' => s'
  | none => if s.instants.holding then passHeld s else runClock (s.msToEvent s.msToMultiple) s

/-- The clock runs from instant to instant, taking what falls due on the way, until `due` holds or a decisecond boundary is
reached (log 4). `due` is asked after every event and every millisecond held back, so what it names comes at once. -/
def runUntil (due : State → Bool) : Nat → State → State
  | 0, s => s
  | n + 1, s => if due s || s.instants.boundary then s else runUntil due n (nextInstant s)

/-- More events and instants than a decisecond can hold. -/
def runFuel : Nat := 1024

/-- The clock runs to its next decisecond boundary, unless it stands at one that has not been taken. -/
def toBoundary (s : State) : State :=
  runUntil (fun _ => false) runFuel s

/-- An event that comes at an instant of the clock (log 3, log 4): taken when it is due, or when the clock comes to it within
the present decisecond; otherwise nothing happens. -/
def whenReached (due : State → Bool) (take : State → State) (s : State) : State :=
  let reached := runUntil due runFuel s
  if due reached then take reached else s

/-! ### The decisecond boundary -/

/-- P one higher, or the cycle end marked (R79). -/
def stepPosition (s : State) : State :=
  match s.coord.state with
  | .isolated | .correcting | .coordinated =>
    if s.coord.length ≤ s.coord.position + 1 then { s with instants.cycleEnd := true }
    else { s with coord.position := s.coord.position + 1 }
  | .idle | .suspended => s

/-- The Sequencer's own counts at a boundary: trailing yellows and startup red (R112, R120). -/
def stepSequencer (s : State) : State :=
  match s.seq.state with
  | .run => { s with seq.trailing := s.seq.trailing.map fun t => { t with yellow := t.yellow - 1 } }
  | .startupRed => { s with seq.startupCount := s.seq.startupCount - 1 }
  | .flash | .yielded => s

/-- The half-period count one lower, or the toggle marked (R134). -/
def stepFlash (s : State) : State :=
  if s.bank.flash then
    if s.bank.half ≤ 1 then { s with instants.toggle := true } else { s with bank.half := s.bank.half - 1 }
  else s

/-- The clearing yellows one lower, or the all-red after the last of them (R151, R159). -/
def stepClearing (s : State) : State :=
  if s.preempt.clearing.isEmpty then { s with preempt.allRed := s.preempt.allRed.map (· - 1) }
  else { s with preempt.clearing := s.preempt.clearing.map fun c => { c with yellow := c.yellow - 1 } }

/-- The Preemption Controller's timers at a boundary (R151, R153, R159). -/
def stepPreemption (s : State) : State :=
  match s.preempt.state with
  | .idle => s
  | .entering =>
    match s.preempt.greenHold with
    | some n => { s with preempt.greenHold := some (n - 1) }
    | none => stepClearing s
  | .dwell => { s with preempt.dwell := s.preempt.dwell + 1 }
  | .leaving => stepClearing s

/-- The boundary delivered to the timing blocks (R1). -/
def stepTiming (s : State) : State :=
  let s := stepPreemption (stepFlash (stepSequencer (stepPosition s)))
  { s with instants.timing := true }

/-- The demand sample (R122). -/
def sampleDemand (levels : Levels) (s : State) : State :=
  { s with seq.latches := s.seq.latches ||| levels.demand }

/-- The cabinet-flash sample (R142). -/
def sampleCabinet (level : Bool) (s : State) : State :=
  let s := { s with bank.cabinetSampled := level }
  if level && !s.bank.cabinetRaised then raise .cabinetFlash none { s with bank.cabinetRaised := true }
  else if !level && s.bank.cabinetRaised then withdraw .cabinetFlash { s with bank.cabinetRaised := false }
  else s

/-- One sample of a preemption input's filter (R146). -/
def InputFilter.sample (f : InputFilter) (level : Bool) : InputFilter :=
  if level = f.active then { f with count := 0 } else { f with count := f.count + 1 }

/-- Both preemption inputs sampled (R146). -/
def samplePreempt (levels : Levels) (s : State) : State :=
  { s with preempt.pe1 := s.preempt.pe1.sample levels.pe1, preempt.pe2 := s.preempt.pe2.sample levels.pe2 }

/-- The samples of a boundary, in RUNNING (R122, R136, R142, R146). Of the readback compare and the cabinet-flash sample, which
may come in either order, the compare comes first (log 38). -/
def takeSamples (levels : Levels) (s : State) : State :=
  if s.running then
    let s := sampleDemand levels s
    let s := { s with bank := s.bank.sample s.cfg.monitored levels }
    samplePreempt levels (sampleCabinet levels.cabinetFlash s)
  else s

/-- The timing blocks stepped for a boundary, unless they have been. -/
def timed (s : State) : State :=
  if s.instants.timing then s else stepTiming s

/-- The work at a boundary the clock stands at: a round of the same millisecond first (log 5), the timing blocks, the samples
(log 6), and the slew millisecond (R2). -/
def boundaryWork (levels : Levels) (s : State) : State :=
  let s := { s with pins := levels }
  let s := slewMillisecond (takeSamples levels (timed (roundFirst s)))
  { s with instants.boundary := false, instants.timing := false }

/-- The next decisecond boundary, or the one the clock stands at (R1). -/
def takeBoundary (levels : Levels) (s : State) : State :=
  boundaryWork levels (toBoundary s)

/-- An event that the timing blocks come to at a boundary (log 3, log 6): taken when it is due, or when it falls due at the
next boundary, whose samples are then still to come; otherwise nothing happens. -/
def whenDue (due : State → Bool) (take : State → State) (s : State) : State :=
  if due s then take s
  else
    let stepped := timed (toBoundary s)
    if due stepped then take stepped else s

/-- An event that the samples of a boundary bring about (log 3): taken when it is due; otherwise nothing happens. -/
def whenSampled (due : State → Bool) (take : State → State) (s : State) : State :=
  if due s then take s else s

/-- What the block does with no command waiting (log 1): the first due event, the boundary the clock stands at with the
levels last given, or one millisecond of the timebase. -/
def tick (s : State) : State :=
  match takeFirstDue s with
  | some s' => s'
  | none =>
    if s.instants.boundary then boundaryWork s.pins s
    else if s.instants.holding then passHeld s
    else runClock 1 s

end Sys2Proof.Machine
end

