-- ==== Sys2Proof/Machine/ClockEvents.lean ====
section
/-! DEFINITION. The events of the station clock, the calendar and the orders: decisecond boundary, round, TIME frame, calendar,
order start and end, repeat and end of an issued order (log 3, log 4). -/

namespace Sys2Proof.Machine

/-- DECISECOND_BOUNDARY (R1). -/
def execDecisecondBoundary (levels : Levels) (s : State) : Host.Outcome State Fault Refusal :=
  .next (takeBoundary levels s)

/-- ROUND (R6 to R13, R194). -/
def execRound (s : State) : Host.Outcome State Fault Refusal :=
  .next (whenReached State.roundDue takeRound s)

/-- TIME_FRAME_BUILD (R16). -/
def execTimeFrameBuild (s : State) : Host.Outcome State Fault Refusal :=
  .next (whenReached State.frameDue takeFrameInstant s)

/-- CALENDAR_INSTANT (R44). -/
def execCalendarInstant (s : State) : Host.Outcome State Fault Refusal :=
  .next (whenReached State.calendarDue takeCalendar s)

/-- ORDER_START_INSTANT (R65). -/
def execOrderStartInstant (s : State) : Host.Outcome State Fault Refusal :=
  .next (whenReached State.orderStartDue (evaluateOrders none) s)

/-- ORDER_END_INSTANT (R65). -/
def execOrderEndInstant (s : State) : Host.Outcome State Fault Refusal :=
  .next (whenReached State.orderEndDue (evaluateOrders none) s)

/-- REPEAT_INSTANT (R69). -/
def execRepeatInstant (stamp : NetTime) (s : State) : Host.Outcome State Fault Refusal :=
  .next (whenReached (fun s => s.repeatDue stamp) (takeRepeat stamp) s)

/-- ISSUED_END_INSTANT (R70). -/
def execIssuedEndInstant (stamp : NetTime) (s : State) : Host.Outcome State Fault Refusal :=
  .next (whenReached (fun s => s.issuedEndDue stamp) (takeIssuedEnd stamp) s)

end Sys2Proof.Machine
end

