-- ==== Sys2Proof/Machine/CycleEvents.lean ====
section
/-! DEFINITION. The events of the cycle, the stages and the outputs, each at a decisecond boundary (log 3, log 6). -/

namespace Sys2Proof.Machine

/-- CYCLE_END (R88, R119). -/
def execCycleEnd (s : State) : Host.Outcome State Fault Refusal :=
  .next (whenDue State.cycleEndDue takeCycleEnd s)

/-- STAGE_GREEN_BEGIN (R115). -/
def execStageGreenBegin (s : State) : Host.Outcome State Fault Refusal :=
  .next (whenDue State.stageGreenDue takeStageGreen s)

/-- GREEN_END (R116, R117). -/
def execGreenEnd (s : State) : Host.Outcome State Fault Refusal :=
  .next (whenDue State.greenEndDue takeGreenEnd s)

/-- YELLOW_END (R118). -/
def execYellowEnd (s : State) : Host.Outcome State Fault Refusal :=
  .next (whenDue State.yellowEndDue takeYellowEnd s)

/-- TRAILING_YELLOW_END (R120). -/
def execTrailingYellowEnd (group : Group) (s : State) : Host.Outcome State Fault Refusal :=
  .next (whenDue (fun s => s.trailingDue group) (takeTrailingEnd group) s)

/-- STARTUP_RED_END (R112, R102, R126). -/
def execStartupRedEnd (s : State) : Host.Outcome State Fault Refusal :=
  .next (whenDue State.startupDue takeStartupEnd s)

/-- FLASH_TOGGLE (R134). -/
def execFlashToggle (s : State) : Host.Outcome State Fault Refusal :=
  .next (whenDue State.toggleDue takeToggle s)

/-- GREEN_SENSE_FAULTED (R139, R141). -/
def execGreenSenseFaulted (group : Group) (s : State) : Host.Outcome State Fault Refusal :=
  .next (whenSampled (fun s => s.greenFaultedDue group) (takeGreenFaulted group) s)

/-- GREEN_SENSE_CLEAN (R139, R141). -/
def execGreenSenseClean (group : Group) (s : State) : Host.Outcome State Fault Refusal :=
  .next (whenSampled (fun s => s.greenCleanDue group) (takeGreenClean group) s)

/-- LAMP_OUT_FAULTED (R140, R141). -/
def execLampOutFaulted (group : Group) (s : State) : Host.Outcome State Fault Refusal :=
  .next (whenSampled (fun s => s.lampFaultedDue group) (takeLampFaulted group) s)

/-- LAMP_OUT_CLEAN (R140, R141). -/
def execLampOutClean (group : Group) (s : State) : Host.Outcome State Fault Refusal :=
  .next (whenSampled (fun s => s.lampCleanDue group) (takeLampClean group) s)

end Sys2Proof.Machine
end

