-- ==== Sys2Proof/Machine/Operands.lean ====
section
/-! DEFINITION. The operands of the requests: body lengths (R201, R215), the plan body (R23 to R27), the configuration record
(R147, R202), the fields of the shorter bodies. -/

namespace Sys2Proof.Machine

/-! ### Body lengths -/

/-- The body has the length the code calls for (R201, check 3; R215). -/
def lengthIs (n : Nat) (body : List Byte) : Bool :=
  decide (body.length = n)

/-- The body of LOAD_PLAN has 10 bytes plus 12 for each stage it counts (R201, check 3). -/
def planLengthIs (body : List Byte) : Bool :=
  decide (10 ≤ body.length) && decide (body.length = 10 + 12 * field body 9 1)

/-! ### The plan body -/

/-- The stage record at an offset of a plan body (R215). -/
def readStage (body : List Byte) (offset : Nat) : StageRecord :=
  { green := BitVec.ofNat 16 (field body offset 2)
    split := field body (offset + 2) 2
    gmin := field body (offset + 4) 2
    ped := field body (offset + 6) 2
    yellow := field body (offset + 8) 1
    allRed := field body (offset + 9) 1
    demandClass := field body (offset + 10) 1
    demandInput := field body (offset + 11) 1 }

/-- The plan record of a plan body (R215). -/
def readPlan (body : List Byte) : PlanRecord :=
  { number := field body 0 1
    cycle := field body 1 2
    offset := field body 3 2
    tolerance := field body 5 1
    lengthen := field body 6 1
    shorten := field body 7 1
    transitions := field body 8 1
    stageCount := field body 9 1
    stages := (List.range (field body 9 1)).map fun k => readStage body (10 + 12 * k) }

/-- The 12 bytes of a stage record (R215). -/
def stageBytes (st : StageRecord) : List Byte :=
  be 2 st.green.toNat ++ be 2 st.split ++ be 2 st.gmin ++ be 2 st.ped ++ be 1 st.yellow ++ be 1 st.allRed
    ++ be 1 st.demandClass ++ be 1 st.demandInput

/-- The canonical body of a plan (R27, R215). -/
def planBytes (p : PlanRecord) : List Byte :=
  be 1 p.number ++ be 2 p.cycle ++ be 2 p.offset ++ be 1 p.tolerance ++ be 1 p.lengthen ++ be 1 p.shorten
    ++ be 1 p.transitions ++ be 1 p.stageCount ++ (p.stages.map stageBytes).flatten

/-- A number lies in a range, both ends included. -/
def within (low high n : Nat) : Bool :=
  decide (low ≤ n) && decide (n ≤ high)

/-- A plan number (Conventions). -/
def planNumber (n : Nat) : Bool := within 1 32 n

/-- Every field of a stage but its green set lies in its range (R24). -/
def StageRecord.inRange (st : StageRecord) : Bool :=
  within 1 2400 st.split && within 40 600 st.gmin && within 0 900 st.ped && within 30 60 st.yellow
    && within 0 60 st.allRed
    && ((decide (st.demandClass = 0) && decide (st.demandInput = 0))
      || (decide (st.demandClass = 1) && within 1 16 st.demandInput))

/-- Every header field but plan number and stage count lies in its range (R23). -/
def PlanRecord.headerInRange (p : PlanRecord) : Bool :=
  within 300 2400 p.cycle && decide (p.offset < p.cycle) && within 0 50 p.tolerance && within 5 50 p.lengthen
    && within 0 33 p.shorten && within 1 8 p.transitions

/-- The green a stage needs: the greater of gmin and ped (R25, R26). -/
def StageRecord.need (st : StageRecord) : Nat := max st.gmin st.ped

/-- The split holds the need and the clearance (R25, check 8). -/
def StageRecord.longEnough (st : StageRecord) : Bool :=
  decide (st.need + st.yellow + st.allRed ≤ st.split)

/-- The spare of a stage (R26). -/
def StageRecord.spare (st : StageRecord) : Nat :=
  st.split - st.yellow - st.allRed - st.need

/-- The number, counted from 1, of the first stage that fails a test. -/
def firstFailing (test : StageRecord → Bool) (stages : List StageRecord) : Option Nat :=
  (stages.findIdx? fun st => !test st).map (· + 1)

/-- The slot is ACTIVE or STAGED or pinned (R25, check 2; R29). -/
def Slot.inUse (slot : Slot) : Bool :=
  decide (slot.state = .active) || decide (slot.state = .staged) || slot.pinned

/-- A plan as it is stored: with its signature and derived quantities (R26, R27). -/
def storedFrom (p : PlanRecord) : StoredPlan :=
  let spares := p.stages.map StageRecord.spare
  { plan := p, signature := crc16 (planBytes p), spares := spares, spareSum := spares.sum }

/-! ### Answers -/

/-- What a request is answered with: response code and body. -/
structure Answer where
  code : ResponseCode
  body : List Byte
  deriving DecidableEq, Repr

/-- An answer with an empty body. -/
def plain (code : ResponseCode) : Answer := { code := code, body := [] }

/-- DONE with a body. -/
def done (body : List Byte) : Answer := { code := .done, body := body }

/-- The INVALID reasons (R214). -/
inductive Reason where
  | splitSum | splitShort | stage1OnCall | emptySet | stageCount | pastEnd | planEmpty | entryStage
  deriving DecidableEq, Repr

/-- INVALID reason codes (R214). -/
def Reason.code : Reason → Nat
  | .splitSum => 1
  | .splitShort => 2
  | .stage1OnCall => 3
  | .emptySet => 4
  | .stageCount => 5
  | .pastEnd => 6
  | .planEmpty => 7
  | .entryStage => 8

/-- INVALID with its reason and detail (R214). -/
def invalid (reason : Reason) (detail : Nat) : Answer :=
  { code := .invalid, body := be 1 reason.code ++ be 1 detail }

/-- The refusal of a plan, by the first of the eight checks that fails (R25); none for a plan that passes. -/
def planRefusal (store : PlanStore) (p : PlanRecord) : Option Answer :=
  if !planNumber p.number then some (plain .range)
  else if (store.slot p.number).inUse then some (plain .inUse)
  else if !within 2 8 p.stageCount then some (invalid .stageCount 0)
  else if !(p.headerInRange && p.stages.all StageRecord.inRange) then some (plain .range)
  else
    match firstFailing (fun st => decide (st.green ≠ 0)) p.stages with
    | some k => some (invalid .emptySet k)
    | none =>
      if (p.stages.headD (readStage [] 0)).onCall then some (invalid .stage1OnCall 1)
      else if p.splits.sum ≠ p.cycle then some (invalid .splitSum 0)
      else (firstFailing StageRecord.longEnough p.stages).map (invalid .splitShort)

/-! ### The configuration record -/

/-- A field of `len` bytes, or its default when every byte is hexadecimal FF (R202). -/
def fieldOr (default : Nat) (body : List Byte) (offset len : Nat) : Nat :=
  if field body offset len = 256 ^ len - 1 then default else field body offset len

/-- A fault action of its code (R214). -/
def faultActionOf : Nat → Option FaultAction
  | 0 => some .report
  | 1 => some .isolate
  | 2 => some .fallback
  | 3 => some .flash
  | _ => none

/-- The defaults of the six configurable classes, as codes, in the order of R168. -/
def actionDefaults : List Nat := [1, 0, 2, 0, 0, 0]

/-- The code of the action of a configurable class in a configuration record, its default taken (R202). -/
def actionField (body : List Byte) (i : Nat) : Nat :=
  fieldOr (actionDefaults.getD i 0) body (14 + i) 1

/-- The route at an offset of a configuration record (R215). -/
def readRoute (body : List Byte) (offset : Nat) : Route :=
  { track := BitVec.ofNat 16 (field body offset 2)
    minDwell := field body (offset + 2) 2
    maxHold := field body (offset + 4) 2
    yellow := field body (offset + 6) 1
    allRed := field body (offset + 7) 1
    exitStage := field body (offset + 8) 1 }

/-- The configuration record of a START body, defaults taken (R202, R215). -/
def readConfig (body : List Byte) : ConfigRecord :=
  { station := field body 0 1
    zone := field body 1 1
    bitRate := field body 2 1
    delay := field body 3 1
    anchored := decide (field body 4 1 = 1)
    syncWindow := fieldOr 50 body 5 2
    slewLimit := fieldOr 20 body 7 1
    acceptWindow := fieldOr 5000 body 8 2
    holdoverLimit := fieldOr 30 body 10 2
    defaultPlan := field body 12 1
    fallbackPlan := field body 13 1
    actions := Vector.ofFn fun i : Fin 6 => (faultActionOf (actionField body i.val)).getD .report
    filterCount := fieldOr 3 body 20 1
    route1 := readRoute body 21
    route2 := readRoute body 30
    flashYellow := BitVec.ofNat 16 (field body 39 2)
    monitored := BitVec.ofNat 16 (field body 41 2)
    greenCount := fieldOr 3 body 43 1
    lampCount := fieldOr 20 body 44 1
    startupRed := fieldOr 50 body 45 1 }

/-- A route's fields lie in their ranges (R147, R202). -/
def Route.inRange (r : Route) : Bool :=
  decide (r.track ≠ 0) && within 50 1200 r.minDwell
    && (decide (r.maxHold = 0) || (within 600 18000 r.maxHold && decide (r.minDwell ≤ r.maxHold)))
    && within 30 60 r.yellow && within 0 60 r.allRed && within 1 8 r.exitStage

/-- Every field of a configuration record lies in its range (R202). The flag and the six action codes are looked at in the
body. -/
def configInRange (body : List Byte) : Bool :=
  let c := readConfig body
  within 1 250 c.station && within 1 16 c.zone && within 0 4 c.bitRate && within 0 50 c.delay
    && within 0 1 (field body 4 1) && within 10 500 c.syncWindow && within 1 100 c.slewLimit
    && within 100 60000 c.acceptWindow && within 6 360 c.holdoverLimit && planNumber c.defaultPlan
    && planNumber c.fallbackPlan && ((List.range 6).all fun i => within 0 3 (actionField body i))
    && within 1 7 c.filterCount && c.route1.inRange && c.route2.inRange && within 2 7 c.greenCount
    && within 2 50 c.lampCount && within 30 100 c.startupRed

/-- The refusal of a configuration record (R202); none for one that is accepted. -/
def configRefusal (store : PlanStore) (body : List Byte) : Option Answer :=
  let c := readConfig body
  if !configInRange body then some (plain .range)
  else if (store.slot c.defaultPlan).state = .empty then some (invalid .planEmpty c.defaultPlan)
  else if (store.slot c.fallbackPlan).state = .empty then some (invalid .planEmpty c.fallbackPlan)
  else none

/-! ### Shorter bodies -/

/-- ISSUE_ORDER's fields (R67, R215). -/
structure IssueRequest where
  plan : Nat
  start : NetTime
  finish : NetTime
  priority : Nat
  zones : GroupSet
  hop : Nat
  presence : Nat
  revises : NetTime
  deriving DecidableEq, Repr

/-- The body of ISSUE_ORDER read (R215). -/
def readIssue (body : List Byte) : IssueRequest :=
  { plan := field body 0 1
    start := timeField body 1
    finish := timeField body 7
    priority := field body 13 1
    zones := BitVec.ofNat 16 (field body 14 2)
    hop := field body 16 1
    presence := field body 17 1
    revises := timeField body 18 }

/-- The fields of ISSUE_ORDER lie in their ranges (R67, check 1); the presence byte is a flag (log 24). -/
def IssueRequest.inRange (r : IssueRequest) : Bool :=
  planNumber r.plan && within 0 7 r.priority && decide (r.zones ≠ 0) && within 0 15 r.hop && r.start.inWeek
    && r.finish.inWeek && windowOk r.start r.finish && within 0 1 r.presence

/-- REWRITE_SAVE's override (R161, R215); the instant is ignored for DAILY. -/
def readOverride (body : List Byte) : Override :=
  { adoption :=
      { plan := field body 0 1
        reference := if field body 1 1 = 1 then .fixed (timeField body 2) else .daily }
    stage := field body 8 1 }

/-- REWRITE_SAVE's fields lie in their ranges (R161, R214). -/
def overrideInRange (body : List Byte) : Bool :=
  planNumber (field body 0 1) && within 0 1 (field body 1 1) && within 1 8 (field body 8 1)
    && (decide (field body 1 1 = 0) || (timeField body 2).inWeek)

/-- The key of CANCEL_ORDER (R71, R215). -/
def readKey (body : List Byte) : OrderKey :=
  { origin := field body 0 1, stamp := timeField body 1 }

/-- The entry of ADD_ENTRY (R47, R215). -/
def readEntry (body : List Byte) : Entry :=
  { days := BitVec.ofNat 16 (field body 0 2), start := field body 2 4, plan := field body 6 1 }

/-- The type of a special day of its code (R215). -/
def specialTypeOf : Nat → Option SpecialType
  | 0 => some .a
  | 1 => some .b
  | _ => none

/-- The class of its code (R214). -/
def faultClassOf : Nat → Option FaultClass
  | 1 => some .clockIsolated
  | 2 => some .transitionOverrun
  | 3 => some .planMissing
  | 4 => some .lineJam
  | 5 => some .lampOut
  | 6 => some .preemptStuck
  | 7 => some .greenSense
  | 8 => some .cabinetFlash
  | _ => none

end Sys2Proof.Machine
end

