-- ==== Sys2Proof/Machine/Format.lean ====
section
/-! DEFINITION. Formats of what the part sends to the host: enumerated codes (R214), reports (R208, R215), response packets
(R215), the bodies of DONE responses (R213; log 13). -/

namespace Sys2Proof.Machine

/-! ### Single fields -/

/-- A flag or mark in one byte (R213). -/
def flagByte (b : Bool) : List Byte := be 1 (if b then 1 else 0)

/-- A set of groups or zones in two bytes (R213). -/
def setBytes (set : BitVec 16) : List Byte := be 2 set.toNat

/-- An optional field of `n` bytes: a presence byte, then the field, all zeros when absent (R213). -/
def optional (n : Nat) : Option (List Byte) → List Byte
  | some bytes => be 1 1 ++ bytes
  | none => be 1 0 ++ List.replicate n 0

/-- A collection: its count, then its items (R213). -/
def collection (items : List (List Byte)) : List Byte :=
  be 1 items.length ++ items.flatten

/-- An optional number of `n` bytes. -/
def optNat (n : Nat) (x : Option Nat) : List Byte := optional n (x.map (be n))

/-- An optional network time. -/
def optTime (t : Option NetTime) : List Byte := optional 6 (t.map timeBytes)

/-! ### Enumerated codes (R214) -/

/-- Part state codes. -/
def PartState.code : PartState → Nat
  | .configuring => 0
  | .running => 1

/-- Slot state codes. -/
def SlotState.code : SlotState → Nat
  | .empty => 0
  | .stored => 1
  | .staged => 2
  | .active => 3

/-- Special day type codes (R215). -/
def SpecialType.code : SpecialType → Nat
  | .a => 0
  | .b => 1

/-- Reference kind codes. -/
def Reference.code : Reference → Nat
  | .daily => 0
  | .fixed _ => 1

/-- The instant of a FIXED reference. -/
def Reference.instant : Reference → Option NetTime
  | .daily => none
  | .fixed t => some t

/-- Suspension cause codes. -/
def SuspensionCause.code : SuspensionCause → Nat
  | .preemption => 0
  | .flash => 1

/-- Direction codes. -/
def Direction.code : Direction → Nat
  | .pending => 0
  | .shorten => 1
  | .lengthen => 2

/-- Sequencer state codes. -/
def SeqState.code : SeqState → Nat
  | .flash => 0
  | .startupRed => 1
  | .run => 2
  | .yielded => 3

/-- Interval codes. -/
def Interval.code : Interval → Nat
  | .green => 0
  | .yellow => 1
  | .allRed => 2

/-- Served mark codes. -/
def ServedMark.code : ServedMark → Nat
  | .served => 0
  | .skipped => 1
  | .notReached => 2

/-- Aspect codes. -/
def Aspect.code : Aspect → Nat
  | .red => 0
  | .yellow => 1
  | .green => 2
  | .dark => 3

/-- Flash phase codes. -/
def Phase.code : Phase → Nat
  | .on => 0
  | .off => 1

/-- Filter mark codes: CLEAN 0, FAULTED 1. -/
def Filter.code (f : Filter) : Nat := if f.faulted then 1 else 0

/-- Filtered level codes: ACTIVE 0, INACTIVE 1. -/
def InputFilter.code (f : InputFilter) : Nat := if f.active then 0 else 1

/-- Preemption state codes. -/
def PreemptState.code : PreemptState → Nat
  | .idle => 0
  | .entering => 1
  | .dwell => 2
  | .leaving => 3

/-- Preemption inputs: PE1 1, PE2 2. -/
def inputCode : PreemptInput → Nat
  | .pe1 => 1
  | .pe2 => 2

/-- Fault classes: 1..8 in the order of R168. -/
def FaultClass.code (c : FaultClass) : Nat := c.place.val + 1

/-- Fault action codes. -/
def FaultAction.code (a : FaultAction) : Nat := a.severity

/-- Record state codes. -/
def RecordState.code : RecordState → Nat
  | .clear => 0
  | .active => 1
  | .held => 2

/-- Transmitter state codes. -/
def TxState.code : TxState → Nat
  | .idle => 0
  | .defer => 1
  | .sending => 2
  | .backoff => 3

/-- Frame kinds of dedup keys: ORDER 2, CANCEL 3. -/
def DedupKind.code : DedupKind → Nat
  | .order => 2
  | .cancel => 3

/-- Causes of a PLAN_ADOPTED report. -/
def AdoptCause.code : AdoptCause → Nat
  | .cycleEnd => 0
  | .resume => 1
  | .startup => 2
  | .standIn => 3

/-- Occasions of an ADOPTION_FAILED report. -/
def FailOccasion.code : FailOccasion → Nat
  | .stage => 0
  | .activate => 1

/-- Occasions of a TRAILING_CLEARANCE report. -/
def TrailOccasion.code : TrailOccasion → Nat
  | .cycleEnd => 0
  | .resume => 1

/-- Causes of a PREEMPT_ABANDONED report. -/
def AbandonCause.code : AbandonCause → Nat
  | .higherInput => 0
  | .flash => 1

/-- Response codes. -/
def ResponseCode.code : ResponseCode → Nat
  | .done => 0
  | .state => 1
  | .range => 2
  | .invalid => 3
  | .full => 4
  | .inUse => 5
  | .duplicate => 6
  | .notFound => 7
  | .busy => 8
  | .unknown => 9
  | .malformed => 10

/-- The code of the source of the scheduled plan: TODAY 0, EARLIER 1, DEFAULT 2 (R43, R214). -/
def Source.code : Source → Nat
  | .today _ => 0
  | .earlier _ _ => 1
  | .default => 2

/-- The days back of a source that has them (R43). -/
def Source.days : Source → Option Nat
  | .earlier days _ => some days
  | .today _ | .default => none

/-- The start of a source that has one (R43). -/
def Source.start : Source → Option Nat
  | .today start | .earlier _ start => some start
  | .default => none

/-- The source in a report's slot: code, days back and start, 0 where absent (R215). -/
def Source.slotBytes (source : Source) : List Byte :=
  be 1 source.code ++ be 1 (source.days.getD 0) ++ be 4 (source.start.getD 0)

/-- The source in a DONE body: code, then days back and start as optional fields (R53, R213, log 13). -/
def Source.bytes (source : Source) : List Byte :=
  be 1 source.code ++ optNat 1 source.days ++ optNat 4 source.start

/-- The governing source: SCHEDULE 0, ORDER 1. -/
def GovSource.code : GovSource → Nat
  | .schedule => 0
  | .order _ => 1

/-- The key of the governing source. -/
def GovSource.key : GovSource → Option OrderKey
  | .schedule => none
  | .order k => some k

/-! ### Reports -/

/-- A report's kind code and three slots (R215). -/
def ReportBody.layout : ReportBody → Nat × List Byte × List Byte × List Byte
  | .clockState old new => (0x01, be 1 old.code, be 1 new.code, [])
  | .clockStep step before => (0x02, beInt 6 step, timeBytes before, [])
  | .schedule old new source => (0x03, be 1 old, be 1 new, source.slotBytes)
  | .specialDaysPruned removed week day => (0x04, be 1 removed, be 2 week ++ be 1 day, [])
  | .orderStored key revision => (0x05, be 1 key.origin, timeBytes key.stamp, be 1 revision)
  | .orderRevised key revision => (0x06, be 1 key.origin, timeBytes key.stamp, be 1 revision)
  | .orderCancelled key revision => (0x07, be 1 key.origin, timeBytes key.stamp, be 1 revision)
  | .orderRefused key revision => (0x08, be 1 key.origin, timeBytes key.stamp, be 1 revision)
  | .orderEvicted key held => (0x09, be 1 key.origin, timeBytes key.stamp, be 1 held.code)
  | .orderState key old new => (0x0A, be 1 key.origin, timeBytes key.stamp, [old, new])
  | .orderEnded key plan => (0x0B, be 1 key.origin, timeBytes key.stamp, be 1 plan)
  | .orderIssued stamp revision plan => (0x0C, timeBytes stamp, be 1 revision, be 1 plan)
  | .governing g source =>
    (0x0D, be 1 g.plan ++ be 1 g.reference.code,
      be 1 source.code ++ be 1 ((source.key.map OrderKey.origin).getD 0),
      timeBytes ((source.key.map OrderKey.stamp).getD ⟨0, 0⟩))
  | .planAdopted a cause => (0x10, be 1 a.plan, be 1 a.reference.code, be 1 cause.code)
  | .coordState old new cause => (0x11, be 1 old.code, be 1 new.code, be 1 ((cause.map SuspensionCause.code).getD 0))
  | .transitionBegun d remaining n => (0x12, be 1 d.code, be 2 remaining, be 1 n)
  | .adoptionFailed plan occasion => (0x13, be 1 plan, be 1 occasion.code, [])
  | .sequencerState old new => (0x18, be 1 old.code, be 1 new.code, [])
  | .trailingClearance groups yellow occasion => (0x19, setBytes groups, be 1 yellow, be 1 occasion.code)
  | .readbackGroup g cls raised => (0x20, be 1 (groupNumber g), be 1 cls.code, flagByte raised)
  | .preemptState old new running => (0x28, be 1 old.code, be 1 new.code, be 1 ((running.map inputCode).getD 0))
  | .preemptAbandoned i cause => (0x29, be 1 (inputCode i), be 1 cause.code, [])
  | .preemptEnded source plan stage duration =>
    (0x2A, be 1 (inputCode source), be 1 plan ++ be 1 stage, be 4 duration)
  | .overrideWritten a stage => (0x2B, be 1 a.plan, be 1 a.reference.code, be 1 stage)
  | .overrideCleared plan => (0x2C, be 1 plan, [], [])
  | .faultRaised c detail count => (0x30, be 1 c.code, be 1 (detail.getD 0), be 1 count)
  | .faultWithdrawn c state => (0x31, be 1 c.code, be 1 state.code, [])
  | .faultAcked c => (0x32, be 1 c.code, [], [])
  | .effectiveAction old new c => (0x33, be 1 old.code, be 1 new.code, be 1 c.code)
  | .sendGivenUp kind key revision announce =>
    (0x38, be 1 kind.code ++ be 1 key.origin, timeBytes key.stamp, be 1 revision ++ be 1 announce)

/-- A parameter slot of 6 bytes: its fields from the first byte, the rest 0 (R215). -/
def slotBytes (fields : List Byte) : List Byte :=
  (fields ++ List.replicate 6 0).take 6

/-- The 25 bytes of a report (R215). -/
def Report.bytes (r : Report) : List Byte :=
  let l := r.body.layout
  be 1 l.1 ++ timeBytes r.time ++ slotBytes l.2.1 ++ slotBytes l.2.2.1 ++ slotBytes l.2.2.2

/-! ### Response packets -/

/-- A response packet (R215). -/
def Response.bytes (r : Response) : List Byte :=
  withCrc (r.request :: r.seq :: (be 1 r.code.code ++ be 2 r.body.length ++ r.body))

/-- The empty packet: its request code byte is 0 (R200); the bytes the spec does not give are free values (log 10). -/
def emptyPacket : List Byte :=
  withCrc (0x00#8 :: Config.emptyPacketSequence :: Config.emptyPacketResponse :: be 2 0)

/-! ### Sections of STATUS (R206) -/

/-- The port's section (R206). -/
def portSection (p : CabinetPort) : List Byte :=
  be 1 p.part.code ++ be 1 p.reports.length ++ flagByte p.overflow ++ be 1 p.dropped ++ be 2 p.malformed
    ++ be 2 p.discarded

/-- The Station Clock's section (R18). -/
def clockSection (c : StationClock) : List Byte :=
  timeBytes c.reading ++ be 1 c.state.code ++ beInt 6 c.slew ++ beInt 6 c.backlog ++ be 2 c.holdover
    ++ be 1 c.disputed ++ be 2 c.tableFull ++ be 2 c.numberConflict ++ be 2 c.rejectedTime

/-- The wait still to run, in slots rounded up, while the transmitter waits (R196, log 13). -/
def waitSlots (l : LineInterface) : Option Nat :=
  match l.tx with
  | .defer | .backoff => some (ceilDiv l.wait slotTime)
  | .idle | .sending => none

/-- The frame in hand: kind, attempt count and relay flag (R196). -/
def Frame.summary (f : Frame) : List Byte :=
  [f.body.code] ++ be 1 f.attempts ++ flagByte f.relay

/-- The Line Interface's section (R196). One presence byte stands for the frame in hand with its three fields: the model's
choice (log 13). -/
def lineSection (l : LineInterface) : List Byte :=
  be 1 l.tx.code ++ optNat 1 (waitSlots l) ++ optional 3 (l.inHand.map Frame.summary) ++ be 1 l.queue.length
    ++ be 1 (l.queue.filter Frame.relay).length ++ flagByte (l.queue.any Frame.isTime) ++ flagByte l.receiving
    ++ be 1 l.dedup.length ++ be 1 l.giveUpRun ++ flagByte l.jamRaised ++ be 2 l.counts.sent ++ be 2 l.counts.received
    ++ be 2 l.counts.crcError ++ be 2 l.counts.lengthError ++ be 2 l.counts.unknownKind ++ be 2 l.counts.duplicate
    ++ be 2 l.counts.relayDropped ++ be 2 l.counts.timeSkipped ++ be 2 l.counts.collision ++ be 2 l.counts.deferTimeout
    ++ be 2 l.counts.giveUp ++ be 4 l.last.sent ++ be 4 l.last.received ++ be 4 l.last.collisions

/-- A plan with its reference, each field optional (log 13). -/
def adoptionBytes (a : Option Adoption) (instant : Option NetTime) : List Byte :=
  optNat 1 (a.map Adoption.plan) ++ optNat 1 (a.map fun a => a.reference.code) ++ optTime instant

/-- The instant of an adoption's FIXED reference. -/
def fixedInstant (a : Option Adoption) : Option NetTime :=
  a.bind fun a => a.reference.instant

/-- The instant shown with the active plan: a FIXED reference's own, or for DAILY the one found at the last measured cycle
end (R106). Where that cycle end measured another plan, under FIXED too, its reference is still the one shown: the model's
choice (log 56). -/
def activeInstant (c : Coordinator) : Option NetTime :=
  match c.active with
  | some a =>
    match a.reference with
    | .fixed t => some t
    | .daily => c.measure.map Measure.reference
  | none => none

/-- The corrected splits and boundaries of a cycle, stage by stage; a collection of count 0 where no figures are held, with no
presence byte (log 13). -/
def figuresBytes (f : Option Figures) : List Byte :=
  match f with
  | some f => collection (List.zipWith (fun split bound => be 2 split ++ be 2 bound) f.splits f.bounds)
  | none => collection []

/-- The Cycle Coordinator's section (R106), the final-clearance mark after it (R129, log 13). -/
def coordSection (c : Coordinator) : List Byte :=
  be 1 c.state.code ++ optNat 1 (c.cause.map SuspensionCause.code) ++ adoptionBytes c.active (activeInstant c)
    ++ adoptionBytes (c.staged.map StagedAdoption.adoption) (fixedInstant (c.staged.map StagedAdoption.adoption))
    ++ optNat 1 (c.staged.map StagedAdoption.wait) ++ adoptionBytes c.requested (fixedInstant c.requested)
    ++ flagByte c.fallbackMark ++ be 2 c.position ++ be 2 c.length ++ figuresBytes c.figures
    ++ optNat 2 (c.measure.map Measure.ideal) ++ optNat 2 (c.measure.map Measure.toShorten)
    ++ optNat 2 (c.measure.map Measure.toLengthen) ++ optNat 1 (c.transition.map fun t => t.direction.code)
    ++ optNat 1 (c.transition.map Transition.counter) ++ optNat 2 (c.transition.map Transition.amount)
    ++ flagByte c.overrunRaised ++ flagByte c.finalMark

/-- The next served stage's number; stage 1 for the next cycle (R116). -/
def NextServed.number : NextServed → Nat
  | .stage k => k
  | .nextCycle => 1

/-- The Stage Sequencer's section (R129). A served list or figures not held are collections of count 0 with no presence byte,
and the 16 demand latches are one set of 2 bytes, the lowest bit for input 1: the model's choices (log 13). -/
def seqSection (q : Sequencer) : List Byte :=
  be 1 q.state.code ++ optNat 1 (if q.state = .startupRed then some q.startupCount else none)
    ++ optNat 1 (q.run.map RunState.stage) ++ optNat 1 (q.run.map fun r => r.interval.code)
    ++ optNat 2 (q.run.map RunState.greenStart) ++ optNat 2 (q.run.map RunState.finish)
    ++ optNat 1 (q.run.bind fun r => r.next.map NextServed.number)
    ++ optional 2 (q.run.bind fun r => r.following.map setBytes)
    ++ collection (q.served.map fun m => be 1 m.code)
    ++ optNat 1 (q.figures.map Figures.plan) ++ optNat 2 (q.figures.map Figures.length) ++ figuresBytes q.figures
    ++ collection (q.trailing.map fun t => be 1 (groupNumber t.group) ++ be 1 t.yellow)
    ++ setBytes q.latches ++ flagByte q.heldTake

/-- A run of bytes for each of the 16 groups. -/
def perGroup (f : Group → List Byte) : List Byte := (groupList.map f).flatten

/-- The Output Bank's section (R143); the flash mode is sent as a flag, on as 1 (log 13). -/
def bankSection (b : OutputBank) : List Byte :=
  perGroup (fun g => be 1 b.drive[g].code ++ be 1 b.commanded[g].code) ++ flagByte b.flash ++ be 1 b.phase.code
    ++ be 1 b.half ++ perGroup (fun g => be 1 b.settle[g]) ++ setBytes b.sensedGreen ++ setBytes b.sensedRed
    ++ setBytes b.mask ++ flagByte b.greenAll ++ flagByte b.greenSome ++ flagByte b.redAll ++ flagByte b.redSome
    ++ perGroup (fun g =>
      be 1 b.greenFilter[g].code ++ be 1 b.greenFilter[g].count ++ be 1 b.lampFilter[g].code
        ++ be 1 b.lampFilter[g].count)
    ++ flagByte b.greenSenseRaised ++ flagByte b.lampOutRaised ++ flagByte b.cabinetRaised ++ flagByte b.cabinetSampled

/-- An input's filtered level, run count and ignore mark (R165). -/
def InputFilter.bytes (f : InputFilter) : List Byte :=
  be 1 f.code ++ be 1 f.count ++ flagByte f.ignored

/-- The Preemption Controller's section (R165). -/
def preemptSection (p : Preemption) : List Byte :=
  be 1 p.state.code ++ optNat 1 (p.running.map inputCode) ++ optNat 1 (p.waiting.map inputCode) ++ flagByte p.heldTake
    ++ p.pe1.bytes ++ p.pe2.bytes ++ flagByte p.stuckRaised

/-- The Fault Unit's section (R206). -/
def faultSection (f : FaultUnit) : List Byte :=
  be 1 f.effective.code ++ (allClasses.map fun c => be 1 (f.record c).state.code).flatten

/-- The body of STATUS (R206). -/
def statusBody (s : State) : List Byte :=
  portSection s.port ++ clockSection s.clock ++ lineSection s.line ++ coordSection s.coord ++ seqSection s.seq
    ++ bankSection s.bank ++ preemptSection s.preempt ++ faultSection s.faults

/-! ### The other DONE bodies -/

/-- IDENTIFY's answer (R205). -/
def identifyBody (s : State) : List Byte :=
  be 1 0xC7 ++ be 2 0x0216 ++ be 1 1 ++ be 1 32 ++ be 1 64 ++ be 1 32 ++ be 1 12 ++ be 1 4 ++ be 1 16 ++ be 1 8 ++ be 1 32
    ++ be 1 32 ++ be 1 16 ++ be 1 8 ++ be 1 s.port.part.code

/-- READ_PLAN's answer (R30): for an EMPTY slot the state and the pinned mark alone, with no presence byte for what is not
there (log 13). -/
def planAnswer (slot : Slot) : List Byte :=
  be 1 slot.state.code ++ flagByte slot.pinned
    ++ match slot.plan with
      | some p => setBytes p.signature ++ planBytes p.plan
      | none => []

/-- A timetable entry (R39). -/
def Entry.bytes (e : Entry) : List Byte :=
  setBytes e.days ++ be 4 e.start ++ be 1 e.plan

/-- A special day (R40). -/
def SpecialDay.bytes (d : SpecialDay) : List Byte :=
  be 2 d.week ++ be 1 d.day ++ be 1 d.type.code

/-- The items of a list from a first position on, up to 16 (R53). -/
def page (first : Nat) (items : List (List Byte)) : List (List Byte) :=
  (items.drop (first - 1)).take 16

/-- READ_TIMETABLE's answer for a list of items (R53). -/
def timetableAnswer (first : Nat) (items : List (List Byte)) (s : State) : List Byte :=
  be 1 items.length ++ be 1 s.timetable.editCount ++ collection (page first items)
    ++ be 1 (s.timetable.dayType s.clock.reading.week s.clock.reading.day) ++ be 1 (s.timetable.scheduled.getD 0)
    ++ s.timetable.source.bytes

/-- An entry of the order list, the fields a placeholder lacks optional (R56, R76). -/
def OrderEntry.bytes (e : OrderEntry) : List Byte :=
  be 1 e.key.origin ++ timeBytes e.key.stamp ++ be 1 e.revision ++ optNat 1 (e.detail.map OrderDetail.plan)
    ++ optional 2 (e.detail.map fun d => setBytes d.signature) ++ optTime (e.detail.map OrderDetail.start)
    ++ timeBytes e.finish ++ optNat 1 (e.detail.map OrderDetail.priority) ++ setBytes e.zones ++ be 1 e.hop
    ++ be 1 e.state.code ++ timeBytes e.storedAt

/-- An entry of the issued list (R56, R67, R76). -/
def IssuedEntry.bytes (i : IssuedEntry) : List Byte :=
  be 1 i.key.origin ++ timeBytes i.key.stamp ++ be 1 i.revision ++ be 1 i.detail.plan ++ setBytes i.detail.signature
    ++ timeBytes i.detail.start ++ timeBytes i.finish ++ be 1 i.detail.priority ++ setBytes i.zones ++ be 1 i.hop
    ++ be 1 i.announce ++ timeBytes i.nextRepeat

/-- READ_ORDERS's answer for a list of items (R76). The number of entries is the collection's own count, with no second byte
before it: the model's choice (log 13). -/
def ordersAnswer (items : List (List Byte)) (o : OrderHandler) : List Byte :=
  collection items ++ adoptionBytes o.governing (fixedInstant o.governing) ++ be 1 o.govSource.code
    ++ optNat 1 (o.govSource.key.map OrderKey.origin) ++ optTime (o.govSource.key.map OrderKey.stamp)
    ++ flagByte o.planMissing ++ be 2 o.outOfZone ++ be 2 o.rejected ++ be 2 o.refusedRoom ++ be 2 o.evicted
    ++ be 2 o.droppedCancel

/-- A neighbour table entry (R207). -/
def Neighbour.bytes (n : Neighbour) : List Byte :=
  be 1 n.station ++ beInt 6 n.lastD ++ be 1 n.age ++ be 1 n.clockState.code ++ flagByte n.anchored
    ++ be 1 n.coordState.code ++ optNat 1 (n.governing.map Prod.fst)
    ++ optional 2 (n.governing.map fun g => setBytes g.2) ++ flagByte n.disputed

/-- READ_NEIGHBOURS's answer (R207). The number of entries is the collection's own count, with no second byte before it: the
model's choice (log 13). -/
def neighboursAnswer (c : StationClock) : List Byte :=
  collection (c.neighbours.map Neighbour.bytes)

/-- READ_REPORTS's answer (R210). The number returned stands before the marks, and the collection has its own count as well
(log 13). -/
def reportsAnswer (p : CabinetPort) : List Byte :=
  be 1 (p.reports.take 8).length ++ flagByte p.overflow ++ be 1 p.dropped ++ be 1 (p.reports.drop 8).length
    ++ collection ((p.reports.take 8).map Report.bytes)

/-- A holder: its kind, stage 0 or route 1, and its number (log 13). -/
def Holder.bytes (h : Holder) : List Byte :=
  match h.holder with
  | .stage k => be 1 0 ++ be 1 k
  | .route i => be 1 1 ++ be 1 (inputCode i)

/-- A clearing group (R163). -/
def Clearing.bytes (c : Clearing) : List Byte :=
  be 1 (groupNumber c.group) ++ c.holder.bytes ++ be 1 c.yellow

/-- The save record's fields (R150). -/
def SaveRecord.bytes (r : SaveRecord) : List Byte :=
  be 1 (inputCode r.source) ++ timeBytes r.entry ++ be 1 r.plan ++ be 2 r.position ++ be 1 r.stage
    ++ be 1 r.interval.code ++ be 1 r.resumeStage
    ++ adoptionBytes (r.override.map Override.adoption) (fixedInstant (r.override.map Override.adoption))
    ++ optNat 1 (r.override.map Override.stage)

/-- READ_SAVE's answer (R163). It is given only while a run exists, so its running input is no optional field but a plain input
number (R213). Outside DWELL, where no dwell count runs, the model shows the one it holds: 0 in ENTERING, and in LEAVING the
count at which DWELL ended (log 47). -/
def saveAnswer (r : SaveRecord) (s : State) : List Byte :=
  let p := s.preempt
  r.bytes ++ be 1 p.state.code ++ be 1 ((p.running.map inputCode).getD 0) ++ optNat 1 (p.waiting.map inputCode)
    ++ optNat 2 p.greenHold ++ collection (p.clearing.map Clearing.bytes) ++ optNat 1 p.allRed ++ be 4 p.dwell
    ++ be 2 s.runningRoute.minDwell ++ be 2 s.runningRoute.maxHold ++ optional 2 (p.expected.map setBytes)

/-- One fault record (R169, R178). -/
def FaultRecord.bytes (r : FaultRecord) : List Byte :=
  be 1 r.state.code ++ be 1 r.count ++ optTime r.firstRaised ++ optNat 1 r.detail

/-- READ_FAULTS's answer (R178). The action is an optional field of all eight classes, of GREEN_SENSE and CABINET_FLASH too,
whose action is never absent: the model's choice (log 13). -/
def faultsAnswer (s : State) : List Byte :=
  be 1 s.faults.effective.code
    ++ (allClasses.map fun c =>
      optNat 1 ((actionOf s.port.config c).map FaultAction.code) ++ (s.faults.record c).bytes).flatten

end Sys2Proof.Machine
end

