-- ==== Sys2Proof/Machine/HostPort.lean ====
section
/-! DEFINITION. The exchange (R199 to R201), START and RESTART (R202 to R204), SET_TIME (R14, R15), the port's own requests (R205
to R207, R210), read transfers and power-on reset. -/

namespace Sys2Proof.Machine

/-! ### The exchange -/

/-- In which part states a request is taken (R199). -/
inductive Admission where
  | both | configuringOnly | runningOnly
  deriving DecidableEq, Repr

/-- The part state admits the request (R199). -/
def Admission.admits (a : Admission) (part : PartState) : Bool :=
  match a, part with
  | .both, _ => true
  | .configuringOnly, .configuring => true
  | .configuringOnly, .running => false
  | .runningOnly, .running => true
  | .runningOnly, .configuring => false

/-- A request packet has arrived: a response still held is discarded and counted (R200). -/
def discardHeld (s : State) : State :=
  if s.port.held.isSome then
    { s with port.held := none, port.discarded := countUp 65535 s.port.discarded }
  else s

/-- The response becomes the held response (R200). -/
def hold (request seq : Byte) (a : Answer) (s : State) : State :=
  { s with port.held := some { request := request, seq := seq, code := a.code, body := a.body } }

/-- MALFORMED, counted (R201). -/
def refuseMalformed (request seq : Byte) (s : State) : State :=
  hold request seq (plain .malformed) { s with port.malformed := countUp 65535 s.port.malformed }

/-- A request served: checks 3 and 4 of R201, then the owner's work and its answer (R200). -/
def serve (request seq : Byte) (fits : Bool) (admission : Admission) (work : State → State × Answer) (s : State) : State :=
  let s := discardHeld s
  if fits then
    if admission.admits s.port.part then
      let r := work s
      hold request seq r.2 r.1
    else hold request seq (plain .state) s
  else refuseMalformed request seq s

/-- Work that changes nothing and answers DONE. -/
def answering (body : State → List Byte) (s : State) : State × Answer := (s, done (body s))

/-! ### START -/

/-- The default and fallback slots pinned (R36). -/
def PlanStore.pin (store : PlanStore) (n : Nat) : PlanStore :=
  store.put n { store.slot n with pinned := true }

/-- The Coordinator leaves IDLE at START (R82, R85). -/
def startCoordinator (s : State) : State :=
  setCoord .suspended (some .flash)
    { s with coord.position := 0, coord.figures := none, coord.finalMark := false }

/-- START accepted (R203; log 21, log 23). -/
def beginRunning (c : ConfigRecord) (s : State) : State :=
  let s :=
    { s with
      port.config := some c
      port.part := .running
      store := (s.store.pin c.defaultPlan).pin c.fallbackPlan
      bank := s.bank.takeColours c.flashYellow }
  let s := evaluateSchedule (startCoordinator s)
  if s.faults.effective = .flash then s else flashExit s

/-- START's work (R202, R203). -/
def startWork (body : List Byte) (s : State) : State × Answer :=
  match configRefusal s.store body with
  | some refusal => (s, refusal)
  | none => (beginRunning (readConfig body) s, done [])

/-! ### RESTART -/

/-- Slots after RESTART: nothing ACTIVE, STAGED or pinned, every plan kept (R38). -/
def PlanStore.afterRestart (store : PlanStore) : PlanStore :=
  { store with
    slots := store.slots.map fun x =>
      { x with state := if x.state = .empty then .empty else .stored, pinned := false } }

/-- The Output Bank after RESTART (R145, log 22). -/
def OutputBank.afterRestart (bank : OutputBank) : OutputBank :=
  { OutputBank.reset with
    settle := Vector.ofFn fun g : Group => if bank.drive[g] = .red then 0 else 3
    sensedGreen := bank.sensedGreen
    sensedRed := bank.sensedRed
    mask := bank.mask
    cabinetSampled := bank.cabinetSampled }

/-- The part after RESTART, its response apart (R20, R38, R55, R78, R108, R131, R145, R167, R180, R198, R212; log 33). -/
def restarted (s : State) : State :=
  { State.reset with
    clock := { StationClock.reset with reading := s.clock.reading }
    store := s.store.afterRestart
    timetable := { s.timetable with scheduled := none, source := .default }
    bank := s.bank.afterRestart
    port := { CabinetPort.reset with dataOut := s.port.dataOut }
    pins := s.pins
    instants :=
      { noInstants with
        holding := s.instants.holding, boundary := s.instants.boundary, timing := s.instants.timing }
    draws := s.draws
    pending := s.pending }

/-- RESTART's work (R204). -/
def restartWork (s : State) : State × Answer := (restarted s, done [])

/-! ### SET_TIME -/

/-- A difference admitted to the correction of an anchored station (R14). -/
def admitDifference (d : Int) (s : State) : State :=
  let sum := s.clock.slew + s.clock.backlog + d
  let slew := clampTo s.cfg.slewLimit sum
  leaveHoldover .synced
    { s with clock.slew := slew, clock.backlog := sum - slew, clock.setTimeMark := true }

/-- SET_TIME on an anchored station in RUNNING (R14, log 29). -/
def setTimeAnchored (t : NetTime) (s : State) : State × Answer :=
  match s.clock.state with
  | .alone =>
    let s := setClockState .synced (stepClock (t.diff s.clock.reading) s)
    ({ s with clock.setTimeMark := true }, done [])
  | .tracking | .synced | .holdover =>
    let d := t.diff (s.clock.reading.plus (s.clock.slew + s.clock.backlog))
    if d.natAbs ≤ 1000 then (admitDifference d s, done []) else (s, plain .range)

/-- SET_TIME's work (R14, R15). -/
def setTimeWork (body : List Byte) (s : State) : State × Answer :=
  let t := timeField body 0
  if !t.inWeek then (s, plain .range)
  else
    match s.port.part with
    | .configuring => (stepClock (t.diff s.clock.reading) s, done [])
    | .running => if s.cfg.anchored then setTimeAnchored t s else (s, plain .state)

/-! ### READ_REPORTS -/

/-- READ_REPORTS's work (R210). -/
def readReportsWork (s : State) : State × Answer :=
  ({ s with port.reports := s.port.reports.drop 8, port.overflow := false, port.dropped := 0 },
    done (reportsAnswer s.port))

/-! ### Meanings -/

/-- IDENTIFY (R205). -/
def execIdentify (seq : Byte) (body : List Byte) (s : State) : Host.Outcome State Fault Refusal :=
  .next (serve 0x01 seq (lengthIs 0 body) .both (answering identifyBody) s)

/-- STATUS (R206). -/
def execStatus (seq : Byte) (body : List Byte) (s : State) : Host.Outcome State Fault Refusal :=
  .next (serve 0x02 seq (lengthIs 0 body) .both (answering statusBody) s)

/-- START (R202, R203). -/
def execStart (seq : Byte) (body : List Byte) (s : State) : Host.Outcome State Fault Refusal :=
  .next (serve 0x03 seq (lengthIs 46 body) .configuringOnly (startWork body) s)

/-- RESTART (R204). -/
def execRestart (seq : Byte) (body : List Byte) (s : State) : Host.Outcome State Fault Refusal :=
  .next (serve 0x04 seq (lengthIs 0 body) .both restartWork s)

/-- SET_TIME (R14, R15). -/
def execSetTime (seq : Byte) (body : List Byte) (s : State) : Host.Outcome State Fault Refusal :=
  .next (serve 0x05 seq (lengthIs 6 body) .both (setTimeWork body) s)

/-- READ_REPORTS (R210). -/
def execReadReports (seq : Byte) (body : List Byte) (s : State) : Host.Outcome State Fault Refusal :=
  .next (serve 0x40 seq (lengthIs 0 body) .both readReportsWork s)

/-- READ_NEIGHBOURS (R207). -/
def execReadNeighbours (seq : Byte) (body : List Byte) (s : State) : Host.Outcome State Fault Refusal :=
  .next (serve 0x41 seq (lengthIs 0 body) .both (answering fun s => neighboursAnswer s.clock) s)

/-- UNKNOWN_REQUEST (R201, check 2); a code that is a request's is another command (log 3). -/
def execUnknownRequest (code seq : Byte) (_body : List Byte) (s : State) : Host.Outcome State Fault Refusal :=
  if code ∈ requestCodes then .next s else .next (hold code seq (plain .unknown) (discardHeld s))

/-- MALFORMED_REQUEST (R201, check 1): the code and sequence number are echoed as they were received; what is echoed for one
that did not arrive is a free value (log 10). A sound packet is another command (log 3). -/
def execMalformedRequest (packet : List Byte) (s : State) : Host.Outcome State Fault Refusal :=
  if packetSound packet then .next s
  else
    .next
      (refuseMalformed (packet.getD 0 (Config.missingEcho 0)) (packet.getD 1 (Config.missingEcho 1)) (discardHeld s))

/-- READ_TRANSFER (R200): the held response from its first byte, released when its last byte has been read; the empty packet
when none is held. -/
def execReadTransfer (count : Nat) (s : State) : Host.Outcome State Fault Refusal :=
  match s.port.held with
  | some r =>
    .next
      { s with
        port.dataOut := r.bytes.take count
        port.held := if r.bytes.length ≤ count then none else some r }
  | none => .next { s with port.dataOut := emptyPacket.take count }

/-- POWER_ON_RESET (R19, R37, R54, R77, R107, R130, R144, R166, R179, R197, R211; log 25). -/
def execPowerOnReset (s : State) : Host.Outcome State Fault Refusal :=
  .next { State.reset with pins := s.pins, draws := s.draws, pending := s.pending }

end Sys2Proof.Machine
end

