-- ==== Sys2Proof/Machine/HostCalendar.lean ====
section
/-! DEFINITION. The edits and reading of the timetable and the special days (R47 to R50, R53). -/

namespace Sys2Proof.Machine

/-- The entry that stands in the way of a new one: the same start and a day type in common (R47); of several, the first in the
list's order, the spec naming none (log 40). -/
def Timetable.conflict (t : Timetable) (e : Entry) : Option Entry :=
  t.entries.find? fun x => decide (x.start = e.start) && decide (x.days &&& e.days ≠ 0)

/-- The greatest start of an entry (R39). -/
def greatestStart : Nat := 863999

/-- ADD_ENTRY's work (R47, R45). -/
def addEntryWork (body : List Byte) (s : State) : State × Answer :=
  let e := readEntry body
  if !(daySetOk e.days && within 0 greatestStart e.start && planNumber e.plan) then (s, plain .range)
  else
    match s.timetable.conflict e with
    | some x => (s, { code := .duplicate, body := setBytes x.days ++ be 1 x.plan })
    | none =>
      if 64 ≤ s.timetable.entries.length then (s, plain .full)
      else
        (evaluateSchedule
            { s with
              timetable.entries := insertTimetable e s.timetable.entries
              timetable.editCount := editUp s.timetable.editCount },
          done [])

/-- DROP_ENTRY's work (R48, R45). -/
def dropEntryWork (body : List Byte) (s : State) : State × Answer :=
  let start := field body 0 4
  let days := BitVec.ofNat 16 (field body 4 2)
  if !(daySetOk days && within 0 greatestStart start) then (s, plain .range)
  else if s.timetable.entries.any fun x => decide (x.start = start) && decide (x.days = days) then
    (evaluateSchedule
        { s with
          timetable.entries := s.timetable.entries.filter fun x => !(decide (x.start = start) && decide (x.days = days))
          timetable.editCount := editUp s.timetable.editCount },
      done [])
  else (s, plain .notFound)

/-- The day lies too far in the past to be added (R49). -/
def State.tooFarPast (s : State) (week day : Nat) : Bool :=
  s.running && decide (s.clock.state ≠ .alone) && decide (dayDistance week day s.clock.reading < -7)

/-- ADD_SPECIAL_DAY's work (R49, R45). -/
def addSpecialWork (body : List Byte) (s : State) : State × Answer :=
  let week := field body 0 2
  let day := field body 2 1
  match specialTypeOf (field body 3 1) with
  | none => (s, plain .range)
  | some type =>
    if !within 0 6 day || s.tooFarPast week day then (s, plain .range)
    else
      match s.timetable.special week day with
      | some d => (s, { code := .duplicate, body := be 1 d.type.code })
      | none =>
        if 32 ≤ s.timetable.specials.length then (s, plain .full)
        else
          (evaluateSchedule
              { s with
                timetable.specials := insertSpecial { week := week, day := day, type := type } s.timetable.specials
                timetable.editCount := editUp s.timetable.editCount },
            done [])

/-- DROP_SPECIAL_DAY's work (R50, R45). -/
def dropSpecialWork (body : List Byte) (s : State) : State × Answer :=
  let week := field body 0 2
  let day := field body 2 1
  if !within 0 6 day then (s, plain .range)
  else if (s.timetable.special week day).isSome then
    (evaluateSchedule
        { s with
          timetable.specials :=
            s.timetable.specials.filter fun d => !(decide (d.week = week) && decide (d.day = day))
          timetable.editCount := editUp s.timetable.editCount },
      done [])
  else (s, plain .notFound)

/-- READ_TIMETABLE's work (R53). -/
def readTimetableWork (body : List Byte) (s : State) : State × Answer :=
  let first := field body 1 1
  match field body 0 1 with
  | 0 =>
    if within 1 64 first then (s, done (timetableAnswer first (s.timetable.entries.map Entry.bytes) s))
    else (s, plain .range)
  | 1 =>
    if within 1 32 first then (s, done (timetableAnswer first (s.timetable.specials.map SpecialDay.bytes) s))
    else (s, plain .range)
  | _ => (s, plain .range)

/-- ADD_ENTRY (R47). -/
def execAddEntry (seq : Byte) (body : List Byte) (s : State) : Host.Outcome State Fault Refusal :=
  .next (serve 0x18 seq (lengthIs 7 body) .both (addEntryWork body) s)

/-- DROP_ENTRY (R48). -/
def execDropEntry (seq : Byte) (body : List Byte) (s : State) : Host.Outcome State Fault Refusal :=
  .next (serve 0x19 seq (lengthIs 6 body) .both (dropEntryWork body) s)

/-- READ_TIMETABLE (R53). -/
def execReadTimetable (seq : Byte) (body : List Byte) (s : State) : Host.Outcome State Fault Refusal :=
  .next (serve 0x1A seq (lengthIs 2 body) .both (readTimetableWork body) s)

/-- ADD_SPECIAL_DAY (R49). -/
def execAddSpecialDay (seq : Byte) (body : List Byte) (s : State) : Host.Outcome State Fault Refusal :=
  .next (serve 0x1B seq (lengthIs 4 body) .both (addSpecialWork body) s)

/-- DROP_SPECIAL_DAY (R50). -/
def execDropSpecialDay (seq : Byte) (body : List Byte) (s : State) : Host.Outcome State Fault Refusal :=
  .next (serve 0x1C seq (lengthIs 3 body) .both (dropSpecialWork body) s)

end Sys2Proof.Machine
end

