-- ==== Sys2Proof/Machine/HostJunction.lean ====
section
/-! DEFINITION. PLACE_CALL (R123), READ_SAVE and REWRITE_SAVE (R161, R163), READ_FAULTS and ACK_FAULT (R175, R178). -/

namespace Sys2Proof.Machine

/-- PLACE_CALL's work (R123). The latch's state before the request is shown as a flag, latched as 1: the coding is the model's
choice (log 13). -/
def placeCallWork (body : List Byte) (s : State) : State × Answer :=
  let n := field body 0 1
  if within 1 16 n then
    ({ s with seq.latches := setNumber s.seq.latches n }, done (flagByte (hasNumber s.seq.latches n)))
  else (s, plain .range)

/-- READ_SAVE's work (R163). -/
def readSaveWork (s : State) : State × Answer :=
  match s.preempt.state, s.preempt.save with
  | .idle, _ => (s, plain .state)
  | _, some r => (s, done (saveAnswer r s))
  | _, none => (s, plain .state)

/-- The override written into the save record, its slot staged and the Coordinator's staged adoption emptied (R161, R84). -/
def writeOverride (o : Override) (r : SaveRecord) (s : State) : State :=
  post (.overrideWritten o.adoption o.stage)
    { s with
      preempt.save := some { r with override := some o }
      store := (s.store.stage o.adoption.plan).getD s.store
      coord.staged := none }

/-- REWRITE_SAVE's work (R161). -/
def rewriteSaveWork (body : List Byte) (s : State) : State × Answer :=
  let o := readOverride body
  if !overrideInRange body then (s, plain .range)
  else
    match s.preempt.state, s.preempt.save with
    | .idle, _ => (s, plain .state)
    | _, none => (s, plain .state)
    | _, some r =>
      match s.storedPlan o.adoption.plan with
      | none => (s, invalid .planEmpty o.adoption.plan)
      | some p =>
        if p.plan.stageCount < o.stage then (s, invalid .entryStage 0) else (writeOverride o r s, done [])

/-- READ_FAULTS's work (R178). -/
def readFaultsWork (s : State) : State × Answer := (s, done (faultsAnswer s))

/-- A HELD record acknowledged (R175). -/
def acknowledge (c : FaultClass) (s : State) : State :=
  settleAction actionFuel c
    (post (.faultAcked c) { s with faults := s.faults.setRecord c { s.faults.record c with state := .clear } })

/-- ACK_FAULT's work (R175). -/
def ackFaultWork (body : List Byte) (s : State) : State × Answer :=
  match faultClassOf (field body 0 1) with
  | none => (s, plain .range)
  | some c =>
    match (s.faults.record c).state with
    | .held =>
      let s := acknowledge c s
      (s, done (be 1 s.faults.effective.code))
    | .active => (s, { code := .state, body := be 1 RecordState.active.code })
    | .clear => (s, { code := .state, body := be 1 RecordState.clear.code })

/-- PLACE_CALL (R123). -/
def execPlaceCall (seq : Byte) (body : List Byte) (s : State) : Host.Outcome State Fault Refusal :=
  .next (serve 0x28 seq (lengthIs 1 body) .runningOnly (placeCallWork body) s)

/-- READ_SAVE (R163). -/
def execReadSave (seq : Byte) (body : List Byte) (s : State) : Host.Outcome State Fault Refusal :=
  .next (serve 0x30 seq (lengthIs 0 body) .both readSaveWork s)

/-- REWRITE_SAVE (R161). -/
def execRewriteSave (seq : Byte) (body : List Byte) (s : State) : Host.Outcome State Fault Refusal :=
  .next (serve 0x31 seq (lengthIs 9 body) .runningOnly (rewriteSaveWork body) s)

/-- READ_FAULTS (R178). -/
def execReadFaults (seq : Byte) (body : List Byte) (s : State) : Host.Outcome State Fault Refusal :=
  .next (serve 0x38 seq (lengthIs 0 body) .both readFaultsWork s)

/-- ACK_FAULT (R175). -/
def execAckFault (seq : Byte) (body : List Byte) (s : State) : Host.Outcome State Fault Refusal :=
  .next (serve 0x39 seq (lengthIs 1 body) .runningOnly (ackFaultWork body) s)

end Sys2Proof.Machine
end

