-- ==== Sys2Proof/Machine/HostOrders.lean ====
section
/-! DEFINITION. ISSUE_ORDER, CANCEL_ORDER and READ_ORDERS (R67, R68, R71, R76). -/

namespace Sys2Proof.Machine

/-! ### ISSUE_ORDER -/

/-- The issued entry a request revises; none for a new order. -/
def State.revised (s : State) (r : IssueRequest) : Option IssuedEntry :=
  if r.presence = 1 then s.orders.issuedEntry r.revises else none

/-- Checks 4 to 6 of R67. -/
def issueRoom (r : IssueRequest) (s : State) : Option Answer :=
  if s.slotEmpty r.plan then some (invalid .planEmpty r.plan)
  else if r.presence = 0 ∧ 4 ≤ s.orders.issued.length then some (plain .full)
  else if s.line.hasRoom then none
  else some (plain .busy)

/-- The refusal of an ISSUE_ORDER, by the first check that fails (R67); none for one that is accepted. -/
def issueRefusal (r : IssueRequest) (s : State) : Option Answer :=
  if !r.inRange then some (plain .range)
  else if r.finish.atOrBefore s.clock.reading then some (invalid .pastEnd 0)
  else if r.presence = 1 then
    match s.orders.issuedEntry r.revises with
    | none => some (plain .notFound)
    | some i => if i.revision = 255 then some (plain .range) else issueRoom r s
  else issueRoom r s

/-- The signature of the plan a slot holds. -/
def State.signatureOf (s : State) (plan : Nat) : BitVec 16 :=
  ((s.storedPlan plan).map StoredPlan.signature).getD 0

/-- The issued entry an accepted ISSUE_ORDER makes (R68). The stamps that may be taken are at most 16. -/
def formIssued (r : IssueRequest) (s : State) : IssuedEntry :=
  let id : NetTime × Nat :=
    match s.revised r with
    | some i => (i.key.stamp, i.revision + 1)
    | none => (freeStamp s 17 s.clock.reading, 0)
  { key := { origin := s.cfg.station, stamp := id.1 }
    revision := id.2
    detail := { plan := r.plan, signature := s.signatureOf r.plan, start := r.start, priority := r.priority }
    finish := r.finish
    zones := r.zones
    hop := r.hop
    announce := 0
    nextRepeat := s.clock.reading.plus 60000 }

/-- The issued list with the entry: replaced in place by a revision, inserted for a new order (R68). -/
def storeIssued (r : IssueRequest) (i : IssuedEntry) (s : State) : State :=
  match s.revised r with
  | some _ => { s with orders.issued := mapIssued i.key.stamp (fun _ => i) s.orders.issued }
  | none => { s with orders.issued := insertIssued i s.orders.issued }

/-- ISSUE_ORDER's work (R67, R68). -/
def issueWork (body : List Byte) (s : State) : State × Answer :=
  let r := readIssue body
  match issueRefusal r s with
  | some refusal => (s, refusal)
  | none =>
    let i := formIssued r s
    let o := i.content 0
    let s := processOrder o (placeOwnOrder o (storeIssued r i s))
    (post (.orderIssued i.key.stamp i.revision r.plan) s,
      done (timeBytes i.key.stamp ++ be 1 i.revision ++ setBytes i.detail.signature))

/-! ### CANCEL_ORDER -/

/-- The issued entry of a key. -/
def OrderHandler.issuedOf (o : OrderHandler) (k : OrderKey) : Option IssuedEntry :=
  o.issued.find? fun i => decide (i.key = k)

/-- The CANCEL a CANCEL_ORDER forms, from the order list's entry or else the issued one (R71). -/
def formCancel (k : OrderKey) (o : OrderHandler) : Option CancelContent :=
  match o.entry k with
  | some e =>
    some { key := k, revision := e.revision, finish := e.finish, zones := e.zones, hop := 15, announce := 0 }
  | none =>
    (o.issuedOf k).map fun i =>
      { key := k, revision := i.revision, finish := i.finish, zones := i.zones, hop := 15, announce := 0 }

/-- CANCEL_ORDER's work (R71). -/
def cancelWork (body : List Byte) (s : State) : State × Answer :=
  let k := readKey body
  if !(within 1 250 k.origin && k.stamp.inWeek) then (s, plain .range)
  else
    match formCancel k s.orders with
    | none => (s, plain .notFound)
    | some c =>
      if s.line.hasRoom then (arriveCancel c (placeOwnCancel c s), done (be 1 c.revision)) else (s, plain .busy)

/-! ### READ_ORDERS -/

/-- READ_ORDERS's work (R76). -/
def readOrdersWork (body : List Byte) (s : State) : State × Answer :=
  match field body 0 1 with
  | 0 => (s, done (ordersAnswer (s.orders.entries.map OrderEntry.bytes) s.orders))
  | 1 => (s, done (ordersAnswer (s.orders.issued.map IssuedEntry.bytes) s.orders))
  | _ => (s, plain .range)

/-- ISSUE_ORDER (R67, R68). -/
def execIssueOrder (seq : Byte) (body : List Byte) (s : State) : Host.Outcome State Fault Refusal :=
  .next (serve 0x20 seq (lengthIs 24 body) .runningOnly (issueWork body) s)

/-- CANCEL_ORDER (R71). -/
def execCancelOrder (seq : Byte) (body : List Byte) (s : State) : Host.Outcome State Fault Refusal :=
  .next (serve 0x21 seq (lengthIs 7 body) .runningOnly (cancelWork body) s)

/-- READ_ORDERS (R76). -/
def execReadOrders (seq : Byte) (body : List Byte) (s : State) : Host.Outcome State Fault Refusal :=
  .next (serve 0x22 seq (lengthIs 1 body) .both (readOrdersWork body) s)

end Sys2Proof.Machine
end

