-- ==== Sys2Proof/Machine/HostPlans.lean ====
section
/-! DEFINITION. LOAD_PLAN, ERASE_PLAN and READ_PLAN (R25 to R31). -/

namespace Sys2Proof.Machine

/-- A plan that passed validation stored in its slot (R28). -/
def PlanStore.load (store : PlanStore) (p : PlanRecord) : PlanStore :=
  store.put p.number { store.slot p.number with state := .stored, plan := some (storedFrom p) }

/-- LOAD_PLAN's work (R25, R28, R31). The mark of its answer is 1 where the slot held a plan before and 0 where it was EMPTY:
R28 gives no polarity, and that one is the model's choice (log 13). -/
def loadPlanWork (body : List Byte) (s : State) : State × Answer :=
  let p := readPlan body
  match planRefusal s.store p with
  | some refusal => (s, refusal)
  | none =>
    (evaluateOrders none { s with store := s.store.load p },
      done (setBytes (storedFrom p).signature ++ flagByte (!s.slotEmpty p.number)))

/-- ERASE_PLAN's work (R29, R31). -/
def erasePlanWork (body : List Byte) (s : State) : State × Answer :=
  let n := field body 0 1
  if !planNumber n then (s, plain .range)
  else if (s.slot n).inUse then (s, plain .inUse)
  else if s.slotEmpty n then (s, plain .notFound)
  else
    (evaluateOrders none { s with store := s.store.put n { s.slot n with state := .empty, plan := none } }, done [])

/-- READ_PLAN's work (R30). -/
def readPlanWork (body : List Byte) (s : State) : State × Answer :=
  let n := field body 0 1
  if planNumber n then (s, done (planAnswer (s.slot n))) else (s, plain .range)

/-- LOAD_PLAN (R25, R28). -/
def execLoadPlan (seq : Byte) (body : List Byte) (s : State) : Host.Outcome State Fault Refusal :=
  .next (serve 0x10 seq (planLengthIs body) .both (loadPlanWork body) s)

/-- ERASE_PLAN (R29). -/
def execErasePlan (seq : Byte) (body : List Byte) (s : State) : Host.Outcome State Fault Refusal :=
  .next (serve 0x11 seq (lengthIs 1 body) .both (erasePlanWork body) s)

/-- READ_PLAN (R30). -/
def execReadPlan (seq : Byte) (body : List Byte) (s : State) : Host.Outcome State Fault Refusal :=
  .next (serve 0x12 seq (lengthIs 1 body) .both (readPlanWork body) s)

end Sys2Proof.Machine
end

