-- ==== Sys2Proof/Machine/LineEvents.lean ====
section
/-! DEFINITION. The events of the coordination line: frames received (R189 to R193), waits and gaps (R184, R185), frames
sent, collisions and backoff (R186 to R188). -/

namespace Sys2Proof.Machine

/-! ### The receiver -/

/-- The receiver is in FRAME (R189); it takes no frame in CONFIGURING (R195). -/
def State.inFrame (s : State) : Bool := s.running && s.line.receiving

/-- A valid frame counted; the receiver returns to HUNT (R190, R194). The round's count goes up also where the running count
stands at 65,535: the model's choice (log 55). -/
def countReceived (s : State) : State :=
  { s with
    line.receiving := false
    line.idleTime := 0
    line.counts.received := countUp 65535 s.line.counts.received
    line.present.received := s.line.present.received + 1 }

/-- A TIME frame handed on (R191, R4). -/
def receiveTime (sender : Byte) (body : List Byte) (s : State) : State :=
  takeTimeFrame sender.toNat body (s.line.captured.getD s.clock.reading) (countReceived s)

/-- A duplicate counted (R191). -/
def countDuplicate (s : State) : State :=
  { s with line.counts.duplicate := countUp 65535 s.line.counts.duplicate }

/-- An ORDER frame handed on (R191, R59, R193). -/
def receiveOrder (body : List Byte) (s : State) : State :=
  let o := readOrderBody body
  let s := countReceived s
  if o.dedupKey ∈ s.line.dedup then countDuplicate s
  else relayOrder o (arriveOrder o { s with line.dedup := enterKey o.dedupKey s.line.dedup })

/-- A CANCEL frame handed on (R191, R62, R193). -/
def receiveCancel (body : List Byte) (s : State) : State :=
  let c := readCancelBody body
  let s := countReceived s
  if c.dedupKey ∈ s.line.dedup then countDuplicate s
  else relayCancel c (arriveCancel c { s with line.dedup := enterKey c.dedupKey s.line.dedup })

/-- A completed frame that fails a check of R190: own readback is not counted; the others by the first check that fails. -/
def rejectFrame (own : Bool) (kind sender : Byte) (body : List Byte) (crc : BitVec 16) (s : State) : State :=
  let s := { s with line.receiving := false, line.idleTime := 0 }
  if own then s
  else if crc ≠ frameCrc kind sender body then
    { s with line.counts.crcError := countUp 65535 s.line.counts.crcError }
  else if frameLengths kind = [] then
    { s with line.counts.unknownKind := countUp 65535 s.line.counts.unknownKind }
  else { s with line.counts.lengthError := countUp 65535 s.line.counts.lengthError }

/-- A frame dropped for its length; the receiver returns to HUNT (R189). `idle` is how long the line has been idle. -/
def dropLength (idle : Nat) (s : State) : State :=
  { s with
    line.receiving := false, line.idleTime := idle
    line.counts.lengthError := countUp 65535 s.line.counts.lengthError }

/-- The idle line that ends a frame early, 16 bit times (R189). -/
def earlyEnd : Nat := 16000

/-- The start delimiter ends: the reading is captured and the receiver enters FRAME (R189). -/
def captureDelimiter (s : State) : State :=
  { s with line.receiving := true, line.captured := some s.clock.reading, line.idleTime := 0 }

/-! ### The transmitter -/

/-- The frame in hand has been sent whole (R186, R194). The round's count goes up past a running count at its end (log 55). -/
def completeFrame (s : State) : State :=
  let s :=
    deferOnHead
      { s with
        line.inHand := none
        line.lineOut := []
        line.idleTime := 0
        line.counts.sent := countUp 65535 s.line.counts.sent
        line.present.sent := s.line.present.sent + 1
        line.giveUpRun := 0 }
  if s.line.jamRaised then withdraw .lineJam { s with line.jamRaised := false } else s

/-- The attempt has met a collision (R187, R194). The round's count goes up past a running count at its end (log 55). -/
def collide (s : State) : State :=
  match s.line.inHand with
  | some f =>
    attemptFailed f
      { s with
        line.idleTime := 0
        line.counts.collision := countUp 65535 s.line.counts.collision
        line.present.collisions := s.line.present.collisions + 1 }
  | none => s

/-! ### Meanings -/

/-- TIME_FRAME_RECEIVED (R4, R190, R191). -/
def execTimeFrameReceived (sender : Byte) (body : List Byte) (s : State) : Host.Outcome State Fault Refusal :=
  if s.inFrame && decide (body.length ∈ frameLengths 1) then .next (receiveTime sender body s) else .next s

/-- ORDER_FRAME_RECEIVED (R59, R190, R191). -/
def execOrderFrameReceived (_sender : Byte) (body : List Byte) (s : State) : Host.Outcome State Fault Refusal :=
  if s.inFrame && decide (body.length ∈ frameLengths 2) then .next (receiveOrder body s) else .next s

/-- CANCEL_FRAME_RECEIVED (R62, R190, R191). -/
def execCancelFrameReceived (_sender : Byte) (body : List Byte) (s : State) : Host.Outcome State Fault Refusal :=
  if s.inFrame && decide (body.length ∈ frameLengths 3) then .next (receiveCancel body s) else .next s

/-- FRAME_REJECTED (R190). -/
def execFrameRejected (own : Bool) (kind sender : Byte) (body : List Byte) (crc : BitVec 16) (s : State) :
    Host.Outcome State Fault Refusal :=
  if s.inFrame && !frameValid own kind sender body crc then .next (rejectFrame own kind sender body crc s) else .next s

/-- BODY_LENGTH_EXCEEDED (R189). -/
def execBodyLengthExceeded (length : Byte) (s : State) : Host.Outcome State Fault Refusal :=
  if s.inFrame && decide (greatestBody < length.toNat) then .next (dropLength 0 s) else .next s

/-- FRAME_ENDED_EARLY (R189). -/
def execFrameEndedEarly (s : State) : Host.Outcome State Fault Refusal :=
  if s.inFrame then .next (dropLength earlyEnd s) else .next s

/-- START_DELIMITER_END (R189). -/
def execStartDelimiterEnd (s : State) : Host.Outcome State Fault Refusal :=
  if s.running && !s.line.receiving then .next (captureDelimiter s) else .next s

/-- RELAY_WAIT_EXPIRY (R184), once the wait has run in line time (log 11). -/
def execRelayWaitExpiry (s : State) : Host.Outcome State Fault Refusal :=
  .next (whenReached State.relayDue takeRelayWait s)

/-- IDLE_GAP_MET (R185, R186), once the line can have been idle for the gap (log 28). -/
def execIdleGapMet (s : State) : Host.Outcome State Fault Refusal :=
  .next (whenReached State.gapDue meetGap s)

/-- DEFER_TIMEOUT (R185). -/
def execDeferTimeout (s : State) : Host.Outcome State Fault Refusal :=
  .next (whenReached State.deferDue reachDeferLimit s)

/-- FRAME_SENT (R186). -/
def execFrameSent (s : State) : Host.Outcome State Fault Refusal :=
  if s.line.tx = .sending then .next (completeFrame s) else .next s

/-- COLLISION (R187). -/
def execCollision (s : State) : Host.Outcome State Fault Refusal :=
  if s.line.tx = .sending then .next (collide s) else .next s

/-- BACKOFF_EXPIRY (R187), once the wait has run in line time (log 11). -/
def execBackoffExpiry (s : State) : Host.Outcome State Fault Refusal :=
  .next (whenReached State.backoffDue takeBackoff s)

end Sys2Proof.Machine
end

