-- ==== Sys2Proof/Machine/PreemptEvents.lean ====
section
/-! DEFINITION. The events of the Preemption Controller (R146, R151, R153 to R155), each at a decisecond boundary (log 3,
log 6). -/

namespace Sys2Proof.Machine

/-- PREEMPT_ACTIVATION (R146, R148, R155). -/
def execPreemptActivation (input : PreemptInput) (s : State) : Host.Outcome State Fault Refusal :=
  .next (whenSampled (fun s => s.activationDue input) (takeActivation input) s)

/-- PREEMPT_RELEASE (R146, R148, R153). -/
def execPreemptRelease (input : PreemptInput) (s : State) : Host.Outcome State Fault Refusal :=
  .next (whenSampled (fun s => s.releaseDue input) (takeRelease input) s)

/-- GREEN_HOLD_END (R151). -/
def execGreenHoldEnd (s : State) : Host.Outcome State Fault Refusal :=
  .next (whenDue State.greenHoldDue takeGreenHoldEnd s)

/-- CLEARING_YELLOW_END (R151). -/
def execClearingYellowEnd (group : Group) (s : State) : Host.Outcome State Fault Refusal :=
  .next (whenDue (fun s => s.clearingDue group) (takeClearingEnd group) s)

/-- PREEMPT_ALL_RED_END (R151, R159). -/
def execPreemptAllRedEnd (s : State) : Host.Outcome State Fault Refusal :=
  .next (whenDue State.allRedDue endAllRed s)

/-- MINIMUM_DWELL_REACHED (R153). -/
def execMinimumDwellReached (s : State) : Host.Outcome State Fault Refusal :=
  .next (whenDue State.minimumDwellDue endDwell s)

/-- MAXIMUM_HOLD (R154). -/
def execMaximumHold (s : State) : Host.Outcome State Fault Refusal :=
  .next (whenDue State.maximumHoldDue takeMaximum s)

end Sys2Proof.Machine
end

