-- ==== Sys2Proof/Machine/Dispatch.lean ====
section
/-! DEFINITION. The one arm of each command. -/

namespace Sys2Proof.Machine

/-- The effect of a command on everything but the queue. -/
def exec (i : Instr) (s : State) : Host.Outcome State Fault Refusal :=
  match i with
  | .identify seq body => Sys2Proof.Machine.execIdentify seq body s
  | .status seq body => Sys2Proof.Machine.execStatus seq body s
  | .start seq body => Sys2Proof.Machine.execStart seq body s
  | .restart seq body => Sys2Proof.Machine.execRestart seq body s
  | .setTime seq body => Sys2Proof.Machine.execSetTime seq body s
  | .loadPlan seq body => Sys2Proof.Machine.execLoadPlan seq body s
  | .erasePlan seq body => Sys2Proof.Machine.execErasePlan seq body s
  | .readPlan seq body => Sys2Proof.Machine.execReadPlan seq body s
  | .addEntry seq body => Sys2Proof.Machine.execAddEntry seq body s
  | .dropEntry seq body => Sys2Proof.Machine.execDropEntry seq body s
  | .readTimetable seq body => Sys2Proof.Machine.execReadTimetable seq body s
  | .addSpecialDay seq body => Sys2Proof.Machine.execAddSpecialDay seq body s
  | .dropSpecialDay seq body => Sys2Proof.Machine.execDropSpecialDay seq body s
  | .issueOrder seq body => Sys2Proof.Machine.execIssueOrder seq body s
  | .cancelOrder seq body => Sys2Proof.Machine.execCancelOrder seq body s
  | .readOrders seq body => Sys2Proof.Machine.execReadOrders seq body s
  | .placeCall seq body => Sys2Proof.Machine.execPlaceCall seq body s
  | .readSave seq body => Sys2Proof.Machine.execReadSave seq body s
  | .rewriteSave seq body => Sys2Proof.Machine.execRewriteSave seq body s
  | .readFaults seq body => Sys2Proof.Machine.execReadFaults seq body s
  | .ackFault seq body => Sys2Proof.Machine.execAckFault seq body s
  | .readReports seq body => Sys2Proof.Machine.execReadReports seq body s
  | .readNeighbours seq body => Sys2Proof.Machine.execReadNeighbours seq body s
  | .unknownRequest code seq body => Sys2Proof.Machine.execUnknownRequest code seq body s
  | .readTransfer count => Sys2Proof.Machine.execReadTransfer count s
  | .powerOnReset => Sys2Proof.Machine.execPowerOnReset s
  | .decisecondBoundary levels => Sys2Proof.Machine.execDecisecondBoundary levels s
  | .round => Sys2Proof.Machine.execRound s
  | .timeFrameBuild => Sys2Proof.Machine.execTimeFrameBuild s
  | .calendarInstant => Sys2Proof.Machine.execCalendarInstant s
  | .orderStartInstant => Sys2Proof.Machine.execOrderStartInstant s
  | .orderEndInstant => Sys2Proof.Machine.execOrderEndInstant s
  | .repeatInstant stamp => Sys2Proof.Machine.execRepeatInstant stamp s
  | .issuedEndInstant stamp => Sys2Proof.Machine.execIssuedEndInstant stamp s
  | .timeFrameReceived sender body => Sys2Proof.Machine.execTimeFrameReceived sender body s
  | .orderFrameReceived sender body => Sys2Proof.Machine.execOrderFrameReceived sender body s
  | .cancelFrameReceived sender body => Sys2Proof.Machine.execCancelFrameReceived sender body s
  | .frameRejected own kind sender body crc => Sys2Proof.Machine.execFrameRejected own kind sender body crc s
  | .bodyLengthExceeded length => Sys2Proof.Machine.execBodyLengthExceeded length s
  | .frameEndedEarly => Sys2Proof.Machine.execFrameEndedEarly s
  | .relayWaitExpiry => Sys2Proof.Machine.execRelayWaitExpiry s
  | .idleGapMet => Sys2Proof.Machine.execIdleGapMet s
  | .deferTimeout => Sys2Proof.Machine.execDeferTimeout s
  | .frameSent => Sys2Proof.Machine.execFrameSent s
  | .collision => Sys2Proof.Machine.execCollision s
  | .backoffExpiry => Sys2Proof.Machine.execBackoffExpiry s
  | .cycleEnd => Sys2Proof.Machine.execCycleEnd s
  | .stageGreenBegin => Sys2Proof.Machine.execStageGreenBegin s
  | .greenEnd => Sys2Proof.Machine.execGreenEnd s
  | .yellowEnd => Sys2Proof.Machine.execYellowEnd s
  | .trailingYellowEnd group => Sys2Proof.Machine.execTrailingYellowEnd group s
  | .startupRedEnd => Sys2Proof.Machine.execStartupRedEnd s
  | .flashToggle => Sys2Proof.Machine.execFlashToggle s
  | .greenSenseFaulted group => Sys2Proof.Machine.execGreenSenseFaulted group s
  | .greenSenseClean group => Sys2Proof.Machine.execGreenSenseClean group s
  | .lampOutFaulted group => Sys2Proof.Machine.execLampOutFaulted group s
  | .lampOutClean group => Sys2Proof.Machine.execLampOutClean group s
  | .preemptActivation input => Sys2Proof.Machine.execPreemptActivation input s
  | .preemptRelease input => Sys2Proof.Machine.execPreemptRelease input s
  | .greenHoldEnd => Sys2Proof.Machine.execGreenHoldEnd s
  | .clearingYellowEnd group => Sys2Proof.Machine.execClearingYellowEnd group s
  | .preemptAllRedEnd => Sys2Proof.Machine.execPreemptAllRedEnd s
  | .minimumDwellReached => Sys2Proof.Machine.execMinimumDwellReached s
  | .maximumHold => Sys2Proof.Machine.execMaximumHold s
  | .startDelimiterEnd => Sys2Proof.Machine.execStartDelimiterEnd s
  | .malformedRequest packet => Sys2Proof.Machine.execMalformedRequest packet s

end Sys2Proof.Machine
end

