-- ==== Sys2Proof/Safety.lean ====
section
/-! DEFINITION. What a sound state of the part is, what an answered request leaves, and what the delivery of an effective
action never touches: the terms the claims use. -/

namespace Sys2Proof.Machine

/-! ### A sound state -/

/-- The reading is a network time (Conventions); the neighbour table is within its room, in station-number order, no two
entries of one station (R5). -/
structure StationClock.Sound (c : StationClock) : Prop where
  week : c.reading.week < 65536
  ms : c.reading.ms < weekMs
  neighbours : c.neighbours.length ≤ 16
  stations : (c.neighbours.map Neighbour.station).Pairwise (· < ·)

/-- A stored plan stands in the slot of its number, passes the checks of R25 and has the signature and derived quantities of
R26 and R27. An empty store is taken for the check, since a slot is in use for the plan it holds. -/
structure StoredPlan.Sound (slot : Nat) (p : StoredPlan) : Prop where
  number : p.plan.number = slot
  stages : p.plan.stages.length = p.plan.stageCount
  passes : planRefusal PlanStore.reset p.plan = none
  spares : p.spares = p.plan.stages.map fun st => st.split - st.yellow - st.allRed - max st.gmin st.ped
  spareSum : p.spareSum = p.spares.sum
  signature : p.signature = crc16 (planBytes p.plan)

/-- At most one slot is ACTIVE, at most one is STAGED, a slot holds a plan exactly when it is not EMPTY (R22, R33, R34), and
every plan held is sound. -/
structure PlanStore.Sound (store : PlanStore) : Prop where
  oneActive : ∀ i j : Fin 32, store.slots[i].state = .active → store.slots[j].state = .active → i = j
  oneStaged : ∀ i j : Fin 32, store.slots[i].state = .staged → store.slots[j].state = .staged → i = j
  emptyHoldsNone : ∀ i : Fin 32, store.slots[i].state = .empty ↔ store.slots[i].plan = none
  plans : ∀ (i : Fin 32) (p : StoredPlan), store.slots[i].plan = some p → p.Sound (i.val + 1)

/-- An entry stands before another: by start, then by the first day type of its set, taken in the order Monday to Sunday, A,
B, the bits of the set from the lowest (R39). -/
def EntryBefore (a b : Entry) : Prop :=
  a.start < b.start
    ∨ (a.start = b.start
      ∧ ∃ i, i < 9 ∧ a.days.getLsbD i = true ∧ ∀ j, j ≤ i → b.days.getLsbD j = false)

/-- A special day stands before another: by week, then by day (R40). -/
def SpecialBefore (a b : SpecialDay) : Prop :=
  a.week < b.week ∨ (a.week = b.week ∧ a.day < b.day)

/-- The entries and the special days are within their room and in their order, no two entries of one start have a day type in
common (R39, R40), and the edit count fits its byte (R47). -/
structure Timetable.Sound (t : Timetable) : Prop where
  entries : t.entries.length ≤ 64
  specials : t.specials.length ≤ 32
  editCount : t.editCount < 256
  inOrder : t.entries.Pairwise EntryBefore
  apart : t.entries.Pairwise fun a b => a.start = b.start → a.days &&& b.days = 0
  daysInOrder : t.specials.Pairwise SpecialBefore

/-- The order list and the issued list are within their room, no two entries of one key, none issued of one stamp (R56,
R67); a cancel placeholder is CANCELLED (R63); at most one entry is IN_FORCE (R58). -/
structure OrderHandler.Sound (o : OrderHandler) : Prop where
  entries : o.entries.length ≤ 12
  issued : o.issued.length ≤ 4
  keys : (o.entries.map OrderEntry.key).Nodup
  placeholders : ∀ e ∈ o.entries, e.detail = none → e.state = .cancelled
  stamps : (o.issued.map fun i => i.key.stamp).Nodup
  oneInForce : ∀ e ∈ o.entries, ∀ x ∈ o.entries, e.state = .inForce → x.state = .inForce → e = x

/-- While a cycle runs, P lies below the cycle's length (R80). -/
def Coordinator.Sound (c : Coordinator) : Prop :=
  c.state = .isolated ∨ c.state = .correcting ∨ c.state = .coordinated → c.position < c.length

/-- In the flash mode no group drives GREEN (R133, R134), the half-period count is 1..5 (R134) and no settle count exceeds 3
(R132). -/
structure OutputBank.Sound (bank : OutputBank) : Prop where
  noGreenInFlash : bank.flash = true → ∀ g : Group, bank.drive[g] ≠ .green
  half : 1 ≤ bank.half ∧ bank.half ≤ 5
  settle : ∀ g : Group, bank.settle[g] ≤ 3

/-- The send queue and the dedup cache are within their room (R183, R192), at most one TIME frame queued (R183), no two keys
alike (R192). -/
structure LineInterface.Sound (l : LineInterface) : Prop where
  queue : l.queue.length ≤ 8
  dedup : l.dedup.length ≤ 32
  noRepeats : l.dedup.Nodup
  oneTime : (l.queue.filter Frame.isTime).length ≤ 1

/-- The report queue is within its room and the dropped count within its byte (R208); a configuration record is held in
RUNNING (R202). -/
structure CabinetPort.Sound (p : CabinetPort) : Prop where
  reports : p.reports.length ≤ 32
  dropped : p.dropped ≤ 255
  configured : p.part = .running → p.config ≠ none

/-- Every block is sound, and in CONFIGURING every fault record is CLEAR (R173). -/
structure Rooms (s : State) : Prop where
  clock : s.clock.Sound
  store : s.store.Sound
  timetable : s.timetable.Sound
  orders : s.orders.Sound
  coord : s.coord.Sound
  bank : s.bank.Sound
  line : s.line.Sound
  port : s.port.Sound
  quiet : s.port.part = .configuring → ∀ c : FaultClass, (s.faults.record c).state = .clear

/-- The effective action is the most severe among the ACTIVE and HELD records, or REPORT when there is none (R172). -/
def State.Settled (s : State) : Prop :=
  s.faults.effective = mostSevere s.port.config s.faults

/-- The invariant of the part. -/
structure Inv (s : State) : Prop extends Rooms s where
  settled : s.Settled

/-! ### What a delivery leaves alone -/

/-- What raising and withdrawing faults, delivering an effective action and adopting a governing plan never change: the
clock, the timetable's lists, the orders held, the line, the exchange, the plans stored and their pins, the demand latches,
the filters of the preemption inputs, the pins, the free values and the queue (R73, R173). -/
structure Kept (s t : State) : Prop where
  clock : t.clock = s.clock
  entries : t.timetable.entries = s.timetable.entries
  specials : t.timetable.specials = s.timetable.specials
  editCount : t.timetable.editCount = s.timetable.editCount
  orders : t.orders.entries = s.orders.entries
  issued : t.orders.issued = s.orders.issued
  line : t.line = s.line
  part : t.port.part = s.port.part
  config : t.port.config = s.port.config
  held : t.port.held = s.port.held
  refusedPackets : t.port.malformed = s.port.malformed ∧ t.port.discarded = s.port.discarded
  plans : ∀ n, t.storedPlan n = s.storedPlan n
  pinned : ∀ n, (t.slot n).pinned = (s.slot n).pinned
  latches : t.seq.latches = s.seq.latches
  inputs : t.preempt.pe1 = s.preempt.pe1 ∧ t.preempt.pe2 = s.preempt.pe2
  pins : t.pins = s.pins
  draws : t.draws = s.draws
  pending : t.pending = s.pending

/-! ### Requests -/

/-- The state once a request is answered: the response is held, and one still held before is discarded and counted
(R200). -/
def State.answered (s : State) (request seq : Byte) (code : ResponseCode) (body : List Byte) : State :=
  { s with
    port.held := some { request := request, seq := seq, code := code, body := body }
    port.discarded := if s.port.held.isSome then min 65535 (s.port.discarded + 1) else s.port.discarded }

/-- What R201 looks at in a request: its code, its sequence number, whether its body has the length the code calls for, and
the part states that admit it (R199, R215). -/
structure RequestShape where
  code : Byte
  seq : Byte
  fits : Bool
  admission : Admission
  deriving DecidableEq, Repr

/-- The requests of R215's table, with their body lengths, and the part states of R199. -/
def requestShape : Instr → Option RequestShape
  | .identify seq body => some ⟨0x01, seq, decide (body.length = 0), .both⟩
  | .status seq body => some ⟨0x02, seq, decide (body.length = 0), .both⟩
  | .start seq body => some ⟨0x03, seq, decide (body.length = 46), .configuringOnly⟩
  | .restart seq body => some ⟨0x04, seq, decide (body.length = 0), .both⟩
  | .setTime seq body => some ⟨0x05, seq, decide (body.length = 6), .both⟩
  | .loadPlan seq body => some ⟨0x10, seq, planLengthIs body, .both⟩
  | .erasePlan seq body => some ⟨0x11, seq, decide (body.length = 1), .both⟩
  | .readPlan seq body => some ⟨0x12, seq, decide (body.length = 1), .both⟩
  | .addEntry seq body => some ⟨0x18, seq, decide (body.length = 7), .both⟩
  | .dropEntry seq body => some ⟨0x19, seq, decide (body.length = 6), .both⟩
  | .readTimetable seq body => some ⟨0x1A, seq, decide (body.length = 2), .both⟩
  | .addSpecialDay seq body => some ⟨0x1B, seq, decide (body.length = 4), .both⟩
  | .dropSpecialDay seq body => some ⟨0x1C, seq, decide (body.length = 3), .both⟩
  | .issueOrder seq body => some ⟨0x20, seq, decide (body.length = 24), .runningOnly⟩
  | .cancelOrder seq body => some ⟨0x21, seq, decide (body.length = 7), .runningOnly⟩
  | .readOrders seq body => some ⟨0x22, seq, decide (body.length = 1), .both⟩
  | .placeCall seq body => some ⟨0x28, seq, decide (body.length = 1), .runningOnly⟩
  | .readSave seq body => some ⟨0x30, seq, decide (body.length = 0), .both⟩
  | .rewriteSave seq body => some ⟨0x31, seq, decide (body.length = 9), .runningOnly⟩
  | .readFaults seq body => some ⟨0x38, seq, decide (body.length = 0), .both⟩
  | .ackFault seq body => some ⟨0x39, seq, decide (body.length = 1), .runningOnly⟩
  | .readReports seq body => some ⟨0x40, seq, decide (body.length = 0), .both⟩
  | .readNeighbours seq body => some ⟨0x41, seq, decide (body.length = 0), .both⟩
  | .unknownRequest .. | .readTransfer .. | .powerOnReset | .decisecondBoundary .. | .round | .timeFrameBuild
  | .calendarInstant | .orderStartInstant | .orderEndInstant | .repeatInstant .. | .issuedEndInstant ..
  | .timeFrameReceived .. | .orderFrameReceived .. | .cancelFrameReceived .. | .frameRejected ..
  | .bodyLengthExceeded .. | .frameEndedEarly | .relayWaitExpiry | .idleGapMet | .deferTimeout | .frameSent | .collision
  | .backoffExpiry | .cycleEnd | .stageGreenBegin | .greenEnd | .yellowEnd | .trailingYellowEnd .. | .startupRedEnd
  | .flashToggle | .greenSenseFaulted .. | .greenSenseClean .. | .lampOutFaulted .. | .lampOutClean ..
  | .preemptActivation .. | .preemptRelease .. | .greenHoldEnd | .clearingYellowEnd .. | .preemptAllRedEnd
  | .minimumDwellReached | .maximumHold | .startDelimiterEnd | .malformedRequest .. => none

/-- What an accepted edit of the calendar leaves (R45, R47 to R50): DONE is held, the lists are as given and the edit count is
one higher. In CONFIGURING nothing else changes; in RUNNING the schedule is evaluated at the present reading. -/
structure Edited (s t : State) (request seq : Byte) (newEntries : List Entry) (newDays : List SpecialDay) : Prop where
  held : t.port.held = some { request := request, seq := seq, code := .done, body := [] }
  entries : t.timetable.entries = newEntries
  specials : t.timetable.specials = newDays
  editCount : t.timetable.editCount = (s.timetable.editCount + 1) % 256
  configuring : s.port.part = .configuring →
    t =
      ({ s with
          timetable.entries := newEntries, timetable.specials := newDays
          timetable.editCount := (s.timetable.editCount + 1) % 256 } : State).answered request seq .done []
  running : s.port.part = .running →
    t.timetable.scheduled = some (t.timetable.find s.clock.reading s.cfg.defaultPlan).1
      ∧ t.timetable.source = (t.timetable.find s.clock.reading s.cfg.defaultPlan).2
  clock : t.clock = s.clock
  orders : t.orders.entries = s.orders.entries
  issued : t.orders.issued = s.orders.issued
  line : t.line = s.line
  plans : ∀ n, t.storedPlan n = s.storedPlan n
  latches : t.seq.latches = s.seq.latches

/-! ### The configuration record -/

/-- A route at an offset of a START body lies in its ranges (R147, R202). -/
def RouteFits (body : List Byte) (o : Nat) : Prop :=
  field body o 2 ≠ 0
    ∧ 50 ≤ field body (o + 2) 2 ∧ field body (o + 2) 2 ≤ 1200
    ∧ (field body (o + 4) 2 = 0
      ∨ (600 ≤ field body (o + 4) 2 ∧ field body (o + 4) 2 ≤ 18000 ∧ field body (o + 2) 2 ≤ field body (o + 4) 2))
    ∧ 30 ≤ field body (o + 6) 1 ∧ field body (o + 6) 1 ≤ 60
    ∧ field body (o + 7) 1 ≤ 60
    ∧ 1 ≤ field body (o + 8) 1 ∧ field body (o + 8) 1 ≤ 8

/-- A field with a default is in range: its bytes are all FF, or its value lies between the ends (R202). -/
def DefaultFits (body : List Byte) (o len low high : Nat) : Prop :=
  field body o len = 256 ^ len - 1 ∨ (low ≤ field body o len ∧ field body o len ≤ high)

/-- Every field of a START body lies in its range (R202, R147, R215). -/
def ConfigFits (body : List Byte) : Prop :=
  (1 ≤ field body 0 1 ∧ field body 0 1 ≤ 250)
    ∧ (1 ≤ field body 1 1 ∧ field body 1 1 ≤ 16)
    ∧ field body 2 1 ≤ 4
    ∧ field body 3 1 ≤ 50
    ∧ field body 4 1 ≤ 1
    ∧ DefaultFits body 5 2 10 500
    ∧ DefaultFits body 7 1 1 100
    ∧ DefaultFits body 8 2 100 60000
    ∧ DefaultFits body 10 2 6 360
    ∧ (1 ≤ field body 12 1 ∧ field body 12 1 ≤ 32)
    ∧ (1 ≤ field body 13 1 ∧ field body 13 1 ≤ 32)
    ∧ (∀ i : Fin 6, DefaultFits body (14 + i.val) 1 0 3)
    ∧ DefaultFits body 20 1 1 7
    ∧ RouteFits body 21 ∧ RouteFits body 30
    ∧ DefaultFits body 43 1 2 7
    ∧ DefaultFits body 44 1 2 50
    ∧ DefaultFits body 45 1 30 100

/-- The value of a field with a default (R202). -/
def defaulted (body : List Byte) (o len default : Nat) : Nat :=
  if field body o len = 256 ^ len - 1 then default else field body o len

/-- The route at an offset of a START body (R215). -/
def RouteRead (body : List Byte) (o : Nat) (r : Route) : Prop :=
  r.track.toNat = field body o 2 ∧ r.minDwell = field body (o + 2) 2 ∧ r.maxHold = field body (o + 4) 2
    ∧ r.yellow = field body (o + 6) 1 ∧ r.allRed = field body (o + 7) 1 ∧ r.exitStage = field body (o + 8) 1

/-- The record a START body carries, its defaults taken (R202, R168, R215). -/
structure ConfigRead (body : List Byte) (c : ConfigRecord) : Prop where
  station : c.station = field body 0 1
  zone : c.zone = field body 1 1
  bitRate : c.bitRate = field body 2 1
  delay : c.delay = field body 3 1
  anchored : c.anchored = decide (field body 4 1 = 1)
  syncWindow : c.syncWindow = defaulted body 5 2 50
  slewLimit : c.slewLimit = defaulted body 7 1 20
  acceptWindow : c.acceptWindow = defaulted body 8 2 5000
  holdoverLimit : c.holdoverLimit = defaulted body 10 2 30
  defaultPlan : c.defaultPlan = field body 12 1
  fallbackPlan : c.fallbackPlan = field body 13 1
  actions : ∀ i : Fin 6, c.actions[i].code = defaulted body (14 + i.val) 1 ([1, 0, 2, 0, 0, 0].getD i.val 0)
  filterCount : c.filterCount = defaulted body 20 1 3
  route1 : RouteRead body 21 c.route1
  route2 : RouteRead body 30 c.route2
  flashYellow : c.flashYellow.toNat = field body 39 2
  monitored : c.monitored.toNat = field body 41 2
  greenCount : c.greenCount = defaulted body 43 1 3
  lampCount : c.lampCount = defaulted body 44 1 20
  startupRed : c.startupRed = defaulted body 45 1 50

/-! ### Holdover -/

/-- CLOCK_ISOLATED at a round in HOLDOVER (R12): at the limit it stands raised, its record ACTIVE from then on. -/
def IsolatesAtTheLimit (s t : State) : Prop :=
  (s.cfg.holdoverLimit ≤ t.clock.holdover → t.clock.isolatedRaised = true
    ∧ (s.clock.isolatedRaised = false → (t.faults.record .clockIsolated).state = .active))
  ∧ (t.clock.holdover < s.cfg.holdoverLimit → t.clock.isolatedRaised = s.clock.isolatedRaised)
  ∧ (t.clock.holdover < s.cfg.holdoverLimit ∨ s.clock.isolatedRaised = true →
    (t.faults.record .clockIsolated).state = (s.faults.record .clockIsolated).state)

/-! ### The order list and the Coordinator's requests -/

/-- A time that does not lie across the week wrap from another such time (Conventions). -/
def Plain (t : NetTime) : Prop := t.week < 32768 ∧ t.ms < 604800000

/-- An order ranks above another: by the higher priority, then the later start, then the higher origin, then the later issue
stamp (R57). -/
def Outranks (d : OrderDetail) (k : OrderKey) (e : OrderDetail) (l : OrderKey) : Prop :=
  e.priority < d.priority
    ∨ (d.priority = e.priority
      ∧ (0 < d.start.diff e.start
        ∨ (d.start = e.start ∧ (l.origin < k.origin ∨ (k.origin = l.origin ∧ 0 < k.stamp.diff l.stamp)))))

/-- An entry stands before another in the order list: by the earlier start, then by rank; an order before a placeholder;
placeholders by the earlier end (R58). -/
def OrderBefore (a b : OrderEntry) : Prop :=
  match a.detail, b.detail with
  | some d, some e => 0 < e.start.diff d.start ∨ (d.start = e.start ∧ Outranks d a.key e b.key)
  | some _, none => True
  | none, some _ => False
  | none, none => 0 < b.finish.diff a.finish

/-- The order list stands in the order of R58, the issued list in that of the issue stamps, earliest first (R67). -/
structure OrderHandler.InOrder (o : OrderHandler) : Prop where
  entries : o.entries.Pairwise fun a b => ¬ OrderBefore b a
  issued : o.issued.Pairwise fun a b => 0 < b.key.stamp.diff a.key.stamp

/-- No time that the two lists are ordered by lies across the week wrap. -/
structure OrderHandler.PlainTimes (o : OrderHandler) : Prop where
  entries : ∀ e ∈ o.entries, Plain e.key.stamp ∧ Plain e.finish
  starts : ∀ e d, e ∈ o.entries → e.detail = some d → Plain d.start
  issued : ∀ i ∈ o.issued, Plain i.key.stamp

/-- An entry that is candidate for being in force at the present reading (R64, step 2). -/
def Candidate (t : State) (e : OrderEntry) (d : OrderDetail) : Prop :=
  e ∈ t.orders.entries ∧ e.detail = some d ∧ e.state ≠ .cancelled
    ∧ (t.storedPlan d.plan).map StoredPlan.signature = some d.signature ∧ d.start.diff t.clock.reading ≤ 0

/-- What an evaluation leaves of an order list (R64, R57): ended entries go, the others keep all but their states; CANCELLED
stays; MISMATCH and PENDING are as the stored plan and the start say; of the candidates one is IN_FORCE, the highest-ranked
when no time lies across the week wrap, and the others are ECLIPSED. -/
structure Evaluated (before : List OrderEntry) (t : State) : Prop where
  kept :
    t.orders.entries.map (fun e => { e with state := .pending }) =
      (before.filter fun e => decide (0 < e.finish.diff t.clock.reading)).map fun e => { e with state := .pending }
  cancelled : ∀ e ∈ t.orders.entries, e.state = .cancelled ↔ ∃ x ∈ before, x.key = e.key ∧ x.state = .cancelled
  judged : ∀ e d, e ∈ t.orders.entries → e.detail = some d → e.state ≠ .cancelled →
    let holds := (t.storedPlan d.plan).map StoredPlan.signature = some d.signature
    (e.state = .mismatch ↔ ¬ holds)
      ∧ (e.state = .pending ↔ holds ∧ 0 < d.start.diff t.clock.reading)
      ∧ (e.state = .inForce ∨ e.state = .eclipsed ↔ Candidate t e d)
  one : ∀ e x, e ∈ t.orders.entries → x ∈ t.orders.entries → e.state = .inForce → x.state = .inForce → e = x
  chosen : (∃ e d, Candidate t e d) → ∃ e ∈ t.orders.entries, e.state = .inForce
  highest :
    (∀ e d, e ∈ before → e.detail = some d → Plain d.start ∧ Plain e.key.stamp) →
    ∀ e d x dx, Candidate t e d → Candidate t x dx → e.state = .inForce → e ≠ x → Outranks d e.key dx x.key

/-- The entries of other keys that have not ended stay, but for their states, and what is CANCELLED stays so. -/
def EntriesStay (s t : State) (gone : OrderKey) : Prop :=
  ∀ e ∈ s.orders.entries, e.key ≠ gone → 0 < e.finish.diff s.clock.reading →
    ∃ x ∈ t.orders.entries, x = { e with state := x.state } ∧ (e.state = .cancelled → x.state = .cancelled)

/-- The order list holds an order with all its fields, stored at an instant, and stands as an evaluation leaves it (R61,
R64). -/
def HoldsOrder (t : State) (o : OrderContent) (stored : NetTime) : Prop :=
  (∃ e ∈ t.orders.entries, e.key = o.key ∧ e.revision = o.revision ∧ e.detail = some o.detail ∧ e.finish = o.finish
    ∧ e.zones = o.zones ∧ e.hop = o.hop ∧ e.storedAt = stored ∧ e.state ≠ .cancelled)
  ∧ Evaluated t.orders.entries t

/-- What taking an ORDER that passes R59 leaves of the order list (R60, R61): a repeat is ignored; a revision replaces the held
entry, whose storing instant stays (log 43), or cancels it outside the zone; a new order is stored in the zone, in a full
list in the place of the CANCELLED entry that ends first, or else of the lowest-ranked one that is not IN_FORCE, unless that
one outranks it. -/
structure OrderTaken (s t : State) (o : OrderContent) : Prop where
  held : ∀ e ∈ s.orders.entries, e.key = o.key →
    (o.revision ≤ e.revision → t.orders.entries = s.orders.entries)
    ∧ (e.revision < o.revision → EntriesStay s t e.key)
    ∧ (e.revision < o.revision → hasNumber o.zones s.cfg.zone = true → HoldsOrder t o e.storedAt)
    ∧ (e.revision < o.revision → ¬ hasNumber o.zones s.cfg.zone = true → 0 < e.finish.diff s.clock.reading →
      { e with
        state := .cancelled, revision := o.revision
        finish := if 0 < o.finish.diff e.finish then o.finish else e.finish } ∈ t.orders.entries)
  elsewhere : (∀ e ∈ s.orders.entries, e.key ≠ o.key) → ¬ hasNumber o.zones s.cfg.zone = true →
    t.orders.entries = s.orders.entries ∧ t.orders.outOfZone = min 65535 (s.orders.outOfZone + 1)
  stored : (∀ e ∈ s.orders.entries, e.key ≠ o.key) → hasNumber o.zones s.cfg.zone = true →
    s.orders.entries.length < 12 → HoldsOrder t o s.clock.reading ∧ EntriesStay s t o.key
  full : (∀ e ∈ s.orders.entries, e.key ≠ o.key) → hasNumber o.zones s.cfg.zone = true →
    s.orders.entries.length = 12 →
    let replaced := fun v : OrderEntry =>
      HoldsOrder t o s.clock.reading ∧ (∀ x ∈ t.orders.entries, x.key ≠ v.key) ∧ EntriesStay s t v.key
    ((∃ e ∈ s.orders.entries, e.state = .cancelled) →
      ∃ v ∈ s.orders.entries, v.state = .cancelled ∧ replaced v ∧ t.orders.evicted = s.orders.evicted
        ∧ ((∀ e ∈ s.orders.entries, Plain e.finish ∧ Plain e.key.stamp) →
          ∀ x ∈ s.orders.entries, x.state = .cancelled → x ≠ v →
            0 < x.finish.diff v.finish
              ∨ (x.finish = v.finish
                ∧ (v.key.origin < x.key.origin
                  ∨ (v.key.origin = x.key.origin ∧ 0 < x.key.stamp.diff v.key.stamp)))))
    ∧ ((∀ e ∈ s.orders.entries, e.state ≠ .cancelled) →
      ∃ v d, v ∈ s.orders.entries ∧ v.state ≠ .inForce ∧ v.detail = some d
        ∧ ((∀ e d, e ∈ s.orders.entries → e.detail = some d → Plain d.start ∧ Plain e.key.stamp) →
          ∀ x dx, x ∈ s.orders.entries → x.state ≠ .inForce → x.detail = some dx → x ≠ v →
            Outranks dx x.key d v.key)
        ∧ (Outranks d v.key o.detail o.key →
          t.orders.entries = s.orders.entries ∧ t.orders.evicted = s.orders.evicted
            ∧ t.orders.refusedRoom = min 65535 (s.orders.refusedRoom + 1))
        ∧ (¬ Outranks d v.key o.detail o.key →
          replaced v ∧ t.orders.evicted = min 65535 (s.orders.evicted + 1)
            ∧ t.orders.refusedRoom = s.orders.refusedRoom))

/-- What taking a CANCEL that passes R62 leaves of the order list and the issued list (R62, R63): a held entry of its revision
or a lower one becomes CANCELLED; for a key not held a placeholder is stored in the zone, in a full list in the place of the
CANCELLED entry that ends first where one ends before it, or else dropped; an issued entry of its revision or a lower one
goes. -/
structure CancelTaken (s t : State) (c : CancelContent) : Prop where
  held : ∀ e ∈ s.orders.entries, e.key = c.key → 0 < e.finish.diff s.clock.reading →
    (e.state ≠ .cancelled → e.revision ≤ c.revision →
      { e with state := .cancelled, revision := c.revision } ∈ t.orders.entries)
    ∧ (e.state ≠ .cancelled → c.revision < e.revision → t.orders.entries = s.orders.entries)
    ∧ (e.state = .cancelled → { e with revision := max e.revision c.revision } ∈ t.orders.entries)
    ∧ EntriesStay s t e.key
  elsewhere : (∀ e ∈ s.orders.entries, e.key ≠ c.key) → ¬ hasNumber c.zones s.cfg.zone = true →
    t.orders.entries = s.orders.entries
  placeholder : (∀ e ∈ s.orders.entries, e.key ≠ c.key) → hasNumber c.zones s.cfg.zone = true →
    let holds :=
      { key := c.key, revision := c.revision, detail := none, finish := c.finish, zones := c.zones, hop := c.hop
        state := .cancelled, storedAt := s.clock.reading } ∈ t.orders.entries
    let ended := fun e : OrderEntry => e ∈ s.orders.entries ∧ e.state = .cancelled ∧ 0 < c.finish.diff e.finish
    (s.orders.entries.length < 12 → holds ∧ EntriesStay s t c.key)
    ∧ (s.orders.entries.length = 12 →
      ((∀ e, ¬ ended e) →
        t.orders.entries = s.orders.entries ∧ t.orders.droppedCancel = min 65535 (s.orders.droppedCancel + 1))
      ∧ ((∃ e, ended e) → c.finish.week < 32768 → (∀ e ∈ s.orders.entries, Plain e.finish) →
        ∃ v, ended v ∧ (∀ x ∈ s.orders.entries, x.state = .cancelled → 0 ≤ x.finish.diff v.finish)
          ∧ holds ∧ (∀ x ∈ t.orders.entries, x.key ≠ v.key) ∧ EntriesStay s t v.key
          ∧ t.orders.droppedCancel = s.orders.droppedCancel))
  issued :
    t.orders.issued =
      if c.key.origin = s.cfg.station then
        s.orders.issued.filter fun i => decide (¬ (i.key.stamp = c.key.stamp ∧ i.revision ≤ c.revision))
      else s.orders.issued

/-- The Coordinator's staged adoption emptied, its slot returned to STORED (R84, R35). -/
def Unstaged (s : State) (c : Coordinator) (t : State) : Prop :=
  t.coord = { c with staged := none }
    ∧ (c.staged.isSome = true → ∀ n, (t.slot n).state = if (s.slot n).state = .staged then .stored else (s.slot n).state)

/-- The cases of R84 and R87 for an adoption put forward to a Coordinator that stands as `c`. -/
structure PutForward (s : State) (c : Coordinator) (a : Adoption) (t : State) : Prop where
  same : c.active = some a → Unstaged s c t
  held : c.active ≠ some a → c.staged.map StagedAdoption.adoption = some a → t.coord = c
  granted : c.active ≠ some a → c.staged.map StagedAdoption.adoption ≠ some a → (s.slot a.plan).state ≠ .empty →
    t.coord = { c with staged := some { adoption := a, wait := if c.finalMark then 2 else 1 } }
      ∧ (t.slot a.plan).state = (if (s.slot a.plan).state = .active then .active else .staged)
      ∧ ∀ n, n ≠ a.plan → (t.slot n).state = if (s.slot n).state = .staged then .stored else (s.slot n).state
  refused : c.active ≠ some a → c.staged.map StagedAdoption.adoption ≠ some a → (s.slot a.plan).state = .empty →
    t.coord = { c with requested := none }
      ∧ (s.port.reports.length + 2 < 32 →
        { time := s.clock.reading, body := .adoptionFailed a.plan .stage } ∈ t.port.reports)

/-! ### The transmitter -/

/-- DEFER has begun on the head of the queue, with a relay wait of 0..15 slots for a relay copy and of 0 for any other frame;
with an empty queue the transmitter is IDLE (R184). The count of the time in DEFER, the model's own, starts anew (log 28). -/
structure DefersOnHead (l : LineInterface) : Prop where
  idle : l.queue = [] → l.tx = .idle
  defer : l.queue ≠ [] → l.tx = .defer
  plain : ∀ f, l.queue.head? = some f → f.relay = false → l.wait = 0
  relay : ∀ f, l.queue.head? = some f → f.relay = true → ∃ slots, slots ≤ 15 ∧ l.wait = slots * 16000
  deferred : l.deferred = 0

/-- The transmitter goes on with what it does. -/
def GoesOn (old new : LineInterface) : Prop :=
  new.tx = old.tx ∧ new.wait = old.wait ∧ new.deferred = old.deferred ∧ new.inHand = old.inHand

/-- A frame placed at the tail of the queue: an IDLE transmitter with no frame in hand defers on it, any other goes on
(R183, R184). -/
structure PlacedAtTail (old new : LineInterface) (f : Frame) : Prop where
  queue : new.queue = old.queue ++ [f]
  idle : old.tx = .idle → old.inHand = none → DefersOnHead new ∧ new.inHand = none
  other : old.tx ≠ .idle ∨ old.inHand ≠ none → GoesOn old new

/-- A TIME frame has changed the head of the queue, or has not: where the transmitter was deferring on the head with no frame in
hand it defers anew, otherwise it goes on (R184). -/
structure HeadChanged (old new : LineInterface) (changed : Prop) : Prop where
  anew : changed → old.tx = .defer → old.inHand = none → DefersOnHead new ∧ new.inHand = none
  other : ¬ changed ∨ old.tx ≠ .defer ∨ old.inHand ≠ none → GoesOn old new

/-! ### The junction -/

/-- What aspect commands leave in the Output Bank (R132): outside the flash mode every group drives its aspect, with settle
count 3 where that is a change; in the flash mode nothing is driven. -/
def Redriven (old new : OutputBank) (aspect : Group → Aspect) : Prop :=
  new = { old with drive := new.drive, commanded := new.commanded, settle := new.settle }
    ∧ (old.flash = true → new = old)
    ∧ (old.flash = false → ∀ g : Group, new.drive[g] = aspect g
      ∧ new.settle[g] = if aspect g = old.drive[g] then old.settle[g] else 3)

/-- What the beginning of the green of stage `k` leaves (R115, R120, R122). `left` is the yellow of the groups left GREEN
outside the stage's set, where they take a trailing clearance. -/
structure GreenBegun (s t : State) (f : Figures) (k : Nat) (st : StageRecord) (left : Option Nat) : Prop where
  run : t.seq.run =
    some
      { stage := k, interval := .green, greenStart := f.bound k
        finish := f.bound k + f.split k - (st.yellow + st.allRed), next := none, following := none }
  latches : t.seq.latches =
    if st.demandClass = 1 then clearNumber s.seq.latches st.demandInput else s.seq.latches
  trailing : t.seq.trailing =
    (s.seq.trailing.filter fun x => !inSet x.group st.green)
      ++ match left with
        | some yellow =>
          (groupList.filter fun g => decide (s.bank.drive[g] = .green) && !inSet g st.green).map fun g =>
            { group := g, yellow := yellow }
        | none => []
  bank :
    Redriven s.bank t.bank fun g =>
      if inSet g st.green = true then .green
      else if left.isSome = true ∧ s.bank.drive[g] = .green then .yellow
      else if ∃ x ∈ s.seq.trailing, x.group = g then s.bank.drive[g]
      else .red

/-- What a nominal cycle of a plan leaves that begins at stage `e` out of SUSPENDED (R101, R102, R113). -/
structure NominalBegun (s t : State) (a : Adoption) (p : StoredPlan) (e : Nat) (st : StageRecord) (left : Option Nat) :
    Prop where
  active : t.coord.active = some a
  staged : t.coord.staged = none
  figures : t.coord.figures = some (nominalFigures p.plan) ∧ t.seq.figures = some (nominalFigures p.plan)
  position : t.coord.position = (p.plan.splits.take (e - 1)).sum ∧ t.coord.length = p.plan.cycle
  state : t.coord.state = if s.isolating then .isolated else .correcting
  transition : t.coord.transition =
    if s.isolating then none else some { direction := .pending, counter := 0, amount := 0 }
  sequencer : t.seq.state = .run
  served : t.seq.served = (p.plan.stages.map fun _ => ServedMark.notReached).set (e - 1) .served
  green : GreenBegun s t (nominalFigures p.plan) e st left

/-- The adoption and entry stage of the choice at a hand-back (R101, R104). -/
def ResumeChoice (s : State) (r : SaveRecord) (a : Adoption) (k : Nat) : Prop :=
  (s.coord.fallbackMark = true ∧ a = { plan := s.cfg.fallbackPlan, reference := .daily } ∧ k = r.resumeStage)
    ∨ (s.coord.fallbackMark = false
      ∧ ∃ o, r.override = some o ∧ (s.slot o.adoption.plan).state ≠ .empty ∧ a = o.adoption ∧ k = o.stage)
    ∨ (s.coord.fallbackMark = false ∧ (∀ o, r.override = some o → (s.slot o.adoption.plan).state = .empty)
      ∧ k = r.resumeStage
      ∧ ((∃ x, s.coord.staged = some x ∧ a = x.adoption) ∨ (s.coord.staged = none ∧ s.coord.active = some a)))

/-- What becomes of the requested record, of the slots and of the override at a hand-back to the adoption `a` (R101, R104, R160):
an override that is activated, or given while the fallback mark is set, takes the requested record; a plan that was not active
already is ACTIVE; the override's slot is STAGED no more. PREEMPT_ENDED is posted with the plan and entry stage resumed; that
the time since the entry is in whole ds, and 0 for a reading before it, is the model's choice (log 46). -/
structure Resumed (s t : State) (r : SaveRecord) (a : Adoption) (e : Nat) : Prop where
  overridden : ∀ o, r.override = some o → s.coord.fallbackMark = true ∨ (s.slot o.adoption.plan).state ≠ .empty →
    t.coord.requested = some o.adoption
  requested : (∀ o, r.override = some o → s.coord.fallbackMark = false ∧ (s.slot o.adoption.plan).state = .empty) →
    t.coord.requested = s.coord.requested
  activated : s.coord.active ≠ some a → (t.slot a.plan).state = .active
  unstaged : ∀ o, r.override = some o → (t.slot o.adoption.plan).state ≠ .staged
  report : s.port.reports.length ≤ 20 →
    { time := s.clock.reading
      body := .preemptEnded r.source a.plan e ((s.clock.reading.diff r.entry / 100).toNat) } ∈ t.port.reports

/-- The junction is handed back (R160): the chosen plan's partial cycle begins at its entry stage, an entry stage beyond the
plan's count being taken as 1, and the controller is IDLE with no save record. -/
def HandedBack (s t : State) (yellow : Nat) : Prop :=
  ∀ (r : SaveRecord) (a : Adoption) (k : Nat) (p : StoredPlan) (st : StageRecord), s.preempt.save = some r →
    ResumeChoice s r a k → s.storedPlan a.plan = some p → p.plan.number = a.plan →
    let e := if p.plan.stageCount < k then 1 else k
    p.plan.stage e = some st →
    NominalBegun s t a p e st (some yellow) ∧ Resumed s t r a e ∧ t.preempt.state = .idle ∧ t.preempt.running = none
      ∧ t.preempt.waiting = none ∧ t.preempt.save = none ∧ t.preempt.clearing = []

/-- What ENTERING leaves once no green hold stands in the way (R151, R152): the groups driven GREEN outside the track set are
YELLOW and clear with the groups of `clearing`; with none clearing an all-red under way runs out, and without one DWELL
begins with the track set GREEN. -/
def EnteringCleared (bank : OutputBank) (track : GroupSet) (clearing : List Clearing) (allRed : Option Nat) (t : State) :
    Prop :=
  let cleared : Group → Aspect := fun g =>
    if bank.drive[g] = .green ∧ inSet g track = false then .yellow else bank.drive[g]
  (clearing ≠ [] →
    t.preempt.state = .entering ∧ t.preempt.clearing = clearing ∧ t.preempt.allRed = none ∧ t.preempt.greenHold = none
      ∧ Redriven bank t.bank cleared)
  ∧ (clearing = [] → ∀ n, allRed = some n →
    t.preempt.state = .entering ∧ t.preempt.clearing = [] ∧ t.preempt.allRed = some n ∧ t.preempt.greenHold = none
      ∧ Redriven bank t.bank cleared)
  ∧ (clearing = [] → allRed = none →
    t.preempt.state = .dwell ∧ t.preempt.dwell = 0
      ∧ Redriven bank t.bank fun g => if inSet g track = true then .green else .red)

/-- The groups driven GREEN outside a set, each with the holder the controller has for it (R151). -/
def newClearing (s : State) (outside : GroupSet) : List Clearing :=
  (groupList.filter fun g => decide (s.bank.drive[g] = .green) && !inSet g outside).filterMap fun g =>
    s.preempt.holders[g].map fun h => { group := g, holder := h, yellow := h.yellow }

/-- What the end of DWELL leaves (R153, R154, R158, R159): a waiting input that is filtered ACTIVE begins from the aspects
as they stand; otherwise LEAVING clears the groups outside the expected entry set, or with none of them the junction is
handed back. -/
def DwellEnded (s t : State) (i : PreemptInput) : Prop :=
  (∀ w, s.preempt.waiting = some w → (s.preempt.input w).active = true →
    t.preempt.running = some w ∧ t.preempt.waiting = none
      ∧ EnteringCleared s.bank (s.route w).track (newClearing s (s.route w).track) none t)
  ∧ ((∀ w, s.preempt.waiting = some w → (s.preempt.input w).active = false) →
    ∀ (r : SaveRecord) (a : Adoption) (k : Nat) (p : StoredPlan) (st : StageRecord), s.preempt.save = some r →
    ResumeChoice s r a k → s.storedPlan a.plan = some p →
    p.plan.stage (if p.plan.stageCount < k then 1 else k) = some st →
    (newClearing s st.green ≠ [] →
      t.preempt.state = .leaving ∧ t.preempt.running = some i ∧ t.preempt.expected = some st.green
        ∧ t.preempt.clearing = newClearing s st.green
        ∧ Redriven s.bank t.bank fun g =>
          if s.bank.drive[g] = .green ∧ inSet g st.green = false then .yellow else s.bank.drive[g])
    ∧ ((∀ g : Group, s.bank.drive[g] = .green → inSet g st.green = true) → HandedBack s t (s.route i).yellow))

/-- The junction is in flash (R110, R133, R100, R141, R164): the outputs in phase ON with five deciseconds to run, every filter
CLEAN, the four compare flags clear and neither readback class raised; no stage, figures or startup red; the Coordinator
SUSPENDED with cause FLASH; no preemption, a take held for an input that calls. -/
structure InFlash (t : State) : Prop where
  sequencer : t.seq.state = .flash ∧ t.seq.run = none ∧ t.seq.figures = none ∧ t.seq.served = [] ∧ t.seq.trailing = []
    ∧ t.seq.startupCount = 0
  bank : t.bank.flash = true ∧ t.bank.phase = .on ∧ t.bank.half = 5
  colours : ∀ g : Group, t.bank.drive[g] = (if inSet g t.cfg.flashYellow then .yellow else .red)
    ∧ t.bank.greenFilter[g] = ⟨false, 0⟩ ∧ t.bank.lampFilter[g] = ⟨false, 0⟩
  compare : t.bank.greenAll = false ∧ t.bank.greenSome = false ∧ t.bank.redAll = false ∧ t.bank.redSome = false
    ∧ t.bank.greenSenseRaised = false ∧ t.bank.lampOutRaised = false
  coord : t.coord.state = .suspended ∧ t.coord.cause = some .flash ∧ t.coord.transition = none
    ∧ t.coord.finalMark = false ∧ t.coord.figures = none
  preempt : t.preempt.state = .idle ∧ t.preempt.running = none ∧ t.preempt.waiting = none ∧ t.preempt.save = none
  take : t.preempt.heldTake = t.preempt.claimant.isSome ∧ t.seq.heldTake = t.preempt.claimant.isSome

/-! ### What fits its bytes -/

/-- Every field of a stage fits its field of the layout (R215). -/
def StageRecord.fits (st : StageRecord) : Bool :=
  decide (st.split < 65536) && decide (st.gmin < 65536) && decide (st.ped < 65536) && decide (st.yellow < 256)
    && decide (st.allRed < 256) && decide (st.demandClass < 256) && decide (st.demandInput < 256)

/-- Every field of a plan fits its field of the layout, and the stage count counts the stages (R215). -/
def PlanRecord.fits (p : PlanRecord) : Bool :=
  decide (p.number < 256) && decide (p.cycle < 65536) && decide (p.offset < 65536) && decide (p.tolerance < 256)
    && decide (p.lengthen < 256) && decide (p.shorten < 256) && decide (p.transitions < 256)
    && decide (p.stageCount < 256) && decide (p.stages.length = p.stageCount) && p.stages.all StageRecord.fits

/-- A network time fits its 6 bytes (R213). -/
def timeFits (t : NetTime) : Bool :=
  decide (t.week < 65536) && decide (t.ms < 4294967296)

/-- Every field of an ORDER fits its field of the layout (R215). -/
def OrderContent.fits (o : OrderContent) : Bool :=
  decide (o.key.origin < 256) && timeFits o.key.stamp && decide (o.revision < 256) && decide (o.detail.plan < 256)
    && timeFits o.detail.start && timeFits o.finish && decide (o.detail.priority < 256) && decide (o.hop < 256)
    && decide (o.announce < 256)

/-- Every field of a CANCEL fits its field of the layout (R215). -/
def CancelContent.fits (c : CancelContent) : Bool :=
  decide (c.key.origin < 256) && timeFits c.key.stamp && decide (c.revision < 256) && timeFits c.finish && decide (c.hop < 256)
    && decide (c.announce < 256)

/-! ### What the part sends

Each answer is a list of fields in the order in which its rule lists them, laid out by R213 and, where that leaves a
choice, as log 13 says. -/

/-- A run of bytes and its CRC (R215). -/
def withItsCrc (bytes : List Byte) : List Byte := bytes ++ be 2 (crc16 bytes).toNat

/-- A flag or mark (R213). -/
def flagField (b : Bool) : List Byte := if b then [1] else [0]

/-- A set of groups or zones, or a signature (R213). -/
def wordField (set : BitVec 16) : List Byte := be 2 set.toNat

/-- A network time: week index, then millisecond of week (R213). -/
def netTimeField (t : NetTime) : List Byte := be 2 t.week ++ be 4 t.ms

/-- A signed difference or step in 6 bytes, two's complement (R213). -/
def signedField (v : Int) : List Byte := be 6 (v % 281474976710656).toNat

/-- An optional field of `n` bytes: a presence byte, then the field, all zeros when absent (R213). -/
def absentOr (n : Nat) : Option (List Byte) → List Byte
  | some bytes => 1 :: bytes
  | none => 0 :: List.replicate n 0

/-- A collection: its count, then its items, each with its fields (R213). -/
def counted (items : List (List (List Byte))) : List Byte :=
  be 1 items.length ++ (items.map List.flatten).flatten

/-- The values of a list have codes that count up from a first one (R214). -/
def CodedFrom {α : Type} (first : Nat) (code : α → Nat) (values : List α) : Prop :=
  values.map code = List.range' first values.length

/-- The enumerated values have the codes of R214: the place in the list in which the chapter first names them, from 0 on, but for
fault classes and preemption inputs, from 1 on, and the frame kinds ORDER 2 and CANCEL 3. -/
structure EnumerationsCoded : Prop where
  part : CodedFrom 0 PartState.code [.configuring, .running]
  slot : CodedFrom 0 SlotState.code [.empty, .stored, .staged, .active]
  clock : CodedFrom 0 ClockState.code [.alone, .tracking, .synced, .holdover]
  coord : CodedFrom 0 CoordState.code [.idle, .isolated, .correcting, .coordinated, .suspended]
  reference : ∀ t, CodedFrom 0 Reference.code [.daily, .fixed t]
  suspension : CodedFrom 0 SuspensionCause.code [.preemption, .flash]
  direction : CodedFrom 0 Direction.code [.pending, .shorten, .lengthen]
  sequencer : CodedFrom 0 SeqState.code [.flash, .startupRed, .run, .yielded]
  interval : CodedFrom 0 Interval.code [.green, .yellow, .allRed]
  served : CodedFrom 0 ServedMark.code [.served, .skipped, .notReached]
  aspect : CodedFrom 0 Aspect.code [.red, .yellow, .green, .dark]
  phase : CodedFrom 0 Phase.code [.on, .off]
  filter : ∀ n m, CodedFrom 0 Filter.code [⟨false, n⟩, ⟨true, m⟩]
  level : ∀ n m x y, CodedFrom 0 InputFilter.code [⟨true, n, x⟩, ⟨false, m, y⟩]
  preemption : CodedFrom 0 PreemptState.code [.idle, .entering, .dwell, .leaving]
  action : CodedFrom 0 FaultAction.code [.report, .isolate, .fallback, .flash]
  record : CodedFrom 0 RecordState.code [.clear, .active, .held]
  transmitter : CodedFrom 0 TxState.code [.idle, .defer, .sending, .backoff]
  order : CodedFrom 0 OrderState.code [.pending, .inForce, .eclipsed, .mismatch, .cancelled]
  source : ∀ a n b, CodedFrom 0 Source.code [.today a, .earlier n b, .default]
  governing : ∀ k, CodedFrom 0 GovSource.code [.schedule, .order k]
  adopted : CodedFrom 0 AdoptCause.code [.cycleEnd, .resume, .startup, .standIn]
  failed : CodedFrom 0 FailOccasion.code [.stage, .activate]
  trailing : CodedFrom 0 TrailOccasion.code [.cycleEnd, .resume]
  abandoned : CodedFrom 0 AbandonCause.code [.higherInput, .flash]
  special : CodedFrom 0 SpecialType.code [.a, .b]
  response : CodedFrom 0 ResponseCode.code
    [.done, .state, .range, .invalid, .full, .inUse, .duplicate, .notFound, .busy, .unknown, .malformed]
  faultClass : CodedFrom 1 FaultClass.code
    [.clockIsolated, .transitionOverrun, .planMissing, .lineJam, .lampOut, .preemptStuck, .greenSense, .cabinetFlash]
  input : CodedFrom 1 inputCode [.pe1, .pe2]
  frame : CodedFrom 2 DedupKind.code [.order, .cancel]
  group : CodedFrom 1 groupNumber groupList

/-- The port's section of STATUS (R206). -/
def portFields (p : CabinetPort) : List (List Byte) :=
  [be 1 p.part.code, be 1 p.reports.length, flagField p.overflow, be 1 p.dropped, be 2 p.malformed, be 2 p.discarded]

/-- The Station Clock's section (R18). -/
def clockFields (c : StationClock) : List (List Byte) :=
  [netTimeField c.reading, be 1 c.state.code, signedField c.slew, signedField c.backlog, be 2 c.holdover, be 1 c.disputed,
    be 2 c.tableFull, be 2 c.numberConflict, be 2 c.rejectedTime]

/-- The Line Interface's section (R196): the wait, while one is to run, in slots rounded up, and one presence byte for the
frame in hand with its kind, attempt count and relay flag (log 13). -/
def lineFields (l : LineInterface) : List (List Byte) :=
  [be 1 l.tx.code, absentOr 1 (if l.tx = .defer ∨ l.tx = .backoff then some (be 1 ((l.wait + 15999) / 16000)) else none),
    absentOr 3 (l.inHand.map fun f => [[f.body.code], be 1 f.attempts, flagField f.relay].flatten), be 1 l.queue.length,
    be 1 (l.queue.countP Frame.relay), flagField (l.queue.any Frame.isTime), flagField l.receiving, be 1 l.dedup.length,
    be 1 l.giveUpRun, flagField l.jamRaised, be 2 l.counts.sent, be 2 l.counts.received, be 2 l.counts.crcError,
    be 2 l.counts.lengthError, be 2 l.counts.unknownKind, be 2 l.counts.duplicate, be 2 l.counts.relayDropped,
    be 2 l.counts.timeSkipped, be 2 l.counts.collision, be 2 l.counts.deferTimeout, be 2 l.counts.giveUp, be 4 l.last.sent,
    be 4 l.last.received, be 4 l.last.collisions]

/-- A plan, its reference kind and the instant shown with it, each optional (log 13). -/
def planFields (a : Option Adoption) (instant : Option NetTime) : List (List Byte) :=
  [absentOr 1 (a.map fun a => be 1 a.plan), absentOr 1 (a.map fun a => be 1 a.reference.code),
    absentOr 6 (instant.map netTimeField)]

/-- The instant of a FIXED reference; none for DAILY. -/
def instantOf (a : Option Adoption) : Option NetTime :=
  match a with
  | some { reference := .fixed t, .. } => some t
  | some { reference := .daily, .. } | none => none

/-- The splits and boundaries of a cycle, stage by stage; none where no figures are held (log 13). -/
def splitFields (f : Option Figures) : List Byte :=
  counted (match f with
    | some f => (f.splits.zip f.bounds).map fun x => [be 2 x.1, be 2 x.2]
    | none => [])

/-- The Cycle Coordinator's section (R106); for a plan active under DAILY the reference of the last measure, whichever plan it
measured (log 56); the final-clearance mark stands at the end (R129, log 13). -/
def coordFields (c : Coordinator) : List (List Byte) :=
  let daily := c.active.bind fun a => if a.reference = .daily then c.measure.map Measure.reference else none
  let staged := c.staged.map StagedAdoption.adoption
  [be 1 c.state.code, absentOr 1 (c.cause.map fun x => be 1 x.code)]
    ++ planFields c.active (instantOf c.active <|> daily) ++ planFields staged (instantOf staged)
    ++ [absentOr 1 (c.staged.map fun x => be 1 x.wait)] ++ planFields c.requested (instantOf c.requested)
    ++ [flagField c.fallbackMark, be 2 c.position, be 2 c.length, splitFields c.figures,
      absentOr 2 (c.measure.map fun m => be 2 m.ideal), absentOr 2 (c.measure.map fun m => be 2 m.toShorten),
      absentOr 2 (c.measure.map fun m => be 2 m.toLengthen), absentOr 1 (c.transition.map fun x => be 1 x.direction.code),
      absentOr 1 (c.transition.map fun x => be 1 x.counter), absentOr 2 (c.transition.map fun x => be 2 x.amount),
      flagField c.overrunRaised, flagField c.finalMark]

/-- The Stage Sequencer's section (R129); the next cycle as the next served is stage 1, and the demand latches are one set
(log 13). -/
def seqFields (q : Sequencer) : List (List Byte) :=
  [be 1 q.state.code, absentOr 1 (if q.state = .startupRed then some (be 1 q.startupCount) else none),
    absentOr 1 (q.run.map fun r => be 1 r.stage), absentOr 1 (q.run.map fun r => be 1 r.interval.code),
    absentOr 2 (q.run.map fun r => be 2 r.greenStart), absentOr 2 (q.run.map fun r => be 2 r.finish),
    absentOr 1 ((q.run.bind RunState.next).map fun n =>
      be 1 (match n with
        | .stage k => k
        | .nextCycle => 1)),
    absentOr 2 ((q.run.bind RunState.following).map wordField), counted (q.served.map fun m => [be 1 m.code]),
    absentOr 1 (q.figures.map fun f => be 1 f.plan), absentOr 2 (q.figures.map fun f => be 2 f.length),
    splitFields q.figures, counted (q.trailing.map fun x => [be 1 (groupNumber x.group), be 1 x.yellow]),
    wordField q.latches, flagField q.heldTake]

/-- The Output Bank's section (R143), the flash mode as a flag (log 13). -/
def bankFields (b : OutputBank) : List (List Byte) :=
  (groupList.flatMap fun g => [be 1 b.drive[g].code, be 1 b.commanded[g].code])
    ++ [flagField b.flash, be 1 b.phase.code, be 1 b.half] ++ (groupList.map fun g => be 1 b.settle[g])
    ++ [wordField b.sensedGreen, wordField b.sensedRed, wordField b.mask, flagField b.greenAll, flagField b.greenSome,
      flagField b.redAll, flagField b.redSome]
    ++ (groupList.flatMap fun g =>
      [be 1 b.greenFilter[g].code, be 1 b.greenFilter[g].count, be 1 b.lampFilter[g].code, be 1 b.lampFilter[g].count])
    ++ [flagField b.greenSenseRaised, flagField b.lampOutRaised, flagField b.cabinetRaised, flagField b.cabinetSampled]

/-- The Preemption Controller's section (R165). -/
def preemptFields (p : Preemption) : List (List Byte) :=
  [be 1 p.state.code, absentOr 1 (p.running.map fun i => be 1 (inputCode i)),
    absentOr 1 (p.waiting.map fun i => be 1 (inputCode i)), flagField p.heldTake, be 1 p.pe1.code, be 1 p.pe1.count,
    flagField p.pe1.ignored, be 1 p.pe2.code, be 1 p.pe2.count, flagField p.pe2.ignored, flagField p.stuckRaised]

/-- The eight fault classes in the order of R168. -/
def classesInOrder : List FaultClass :=
  [.clockIsolated, .transitionOverrun, .planMissing, .lineJam, .lampOut, .preemptStuck, .greenSense, .cabinetFlash]

/-- The Fault Unit's section (R206). -/
def faultFields (f : FaultUnit) : List (List Byte) :=
  be 1 f.effective.code :: classesInOrder.map fun c => be 1 (f.record c).state.code

/-- READ_FAULTS's answer: the effective action, and for each class its action, state, count, first-raised time and last detail
(R178), the action an optional field for all eight (log 13). -/
def faultsFields (s : State) : List (List Byte) :=
  be 1 s.faults.effective.code :: classesInOrder.flatMap fun c =>
    let r := s.faults.record c
    [absentOr 1 ((actionOf s.port.config c).map fun a => be 1 a.code), be 1 r.state.code, be 1 r.count,
      absentOr 6 (r.firstRaised.map netTimeField), absentOr 1 (r.detail.map (be 1))]

/-- An entry in READ_NEIGHBOURS's answer (R207). -/
def neighbourFields (n : Neighbour) : List (List Byte) :=
  [be 1 n.station, signedField n.lastD, be 1 n.age, be 1 n.clockState.code, flagField n.anchored, be 1 n.coordState.code,
    absentOr 1 (n.governing.map fun g => be 1 g.1), absentOr 2 (n.governing.map fun g => wordField g.2), flagField n.disputed]

/-- An entry of the order list in READ_ORDERS's answer, what a placeholder lacks absent (R56, R76). -/
def orderFields (e : OrderEntry) : List (List Byte) :=
  [be 1 e.key.origin, netTimeField e.key.stamp, be 1 e.revision, absentOr 1 (e.detail.map fun d => be 1 d.plan),
    absentOr 2 (e.detail.map fun d => wordField d.signature), absentOr 6 (e.detail.map fun d => netTimeField d.start),
    netTimeField e.finish, absentOr 1 (e.detail.map fun d => be 1 d.priority), wordField e.zones, be 1 e.hop,
    be 1 e.state.code, netTimeField e.storedAt]

/-- An entry of the issued list in READ_ORDERS's answer (R67, R76). -/
def issuedFields (i : IssuedEntry) : List (List Byte) :=
  [be 1 i.key.origin, netTimeField i.key.stamp, be 1 i.revision, be 1 i.detail.plan, wordField i.detail.signature,
    netTimeField i.detail.start, netTimeField i.finish, be 1 i.detail.priority, wordField i.zones, be 1 i.hop,
    be 1 i.announce, netTimeField i.nextRepeat]

/-- What stands after the items in READ_ORDERS's answer: the governing plan with its source, PLAN_MISSING and the five counts
(R76). -/
def governingFields (o : OrderHandler) : List (List Byte) :=
  let key := match o.govSource with
    | .order k => some k
    | .schedule => none
  planFields o.governing (instantOf o.governing)
    ++ [be 1 o.govSource.code, absentOr 1 (key.map fun k => be 1 k.origin), absentOr 6 (key.map fun k => netTimeField k.stamp),
      flagField o.planMissing, be 2 o.outOfZone, be 2 o.rejected, be 2 o.refusedRoom, be 2 o.evicted, be 2 o.droppedCancel]

/-- READ_SAVE's answer: the save record with its override (R150), then the run as it stands (R163). A holder is its kind, stage 0
or route 1, and its number (log 13); the running input, never absent here, is a plain number (R213). -/
def saveFields (r : SaveRecord) (s : State) : List (List Byte) :=
  let p := s.preempt
  let override := r.override.map Override.adoption
  let route := s.runningRoute
  [be 1 (inputCode r.source), netTimeField r.entry, be 1 r.plan, be 2 r.position, be 1 r.stage, be 1 r.interval.code,
    be 1 r.resumeStage]
    ++ planFields override (instantOf override)
    ++ [absentOr 1 (r.override.map fun o => be 1 o.stage), be 1 p.state.code,
      be 1 ((p.running.map inputCode).getD 0), absentOr 1 (p.waiting.map fun i => be 1 (inputCode i)),
      absentOr 2 (p.greenHold.map (be 2)),
      counted (p.clearing.map fun c =>
        [be 1 (groupNumber c.group)]
          ++ (match c.holder.holder with
            | .stage k => [be 1 0, be 1 k]
            | .route i => [be 1 1, be 1 (inputCode i)])
          ++ [be 1 c.yellow]),
      absentOr 1 (p.allRed.map (be 1)), be 4 p.dwell, be 2 route.minDwell, be 2 route.maxHold,
      absentOr 2 (p.expected.map wordField)]

/-- A timetable entry: day types, start and plan (R39). -/
def entryFields (e : Entry) : List (List Byte) := [wordField e.days, be 4 e.start, be 1 e.plan]

/-- A special day: week, day and type (R40). -/
def dayFields (d : SpecialDay) : List (List Byte) := [be 2 d.week, be 1 d.day, be 1 d.type.code]

/-- READ_TIMETABLE's answer: the list's length, the edit count, up to 16 items from the first position on, today's day type, the
scheduled plan, 0 while absent, and its source with days back and start where it has them (R53, R43). -/
def timetableFields (first : Nat) (items : List (List (List Byte))) (s : State) : List (List Byte) :=
  let source := s.timetable.source
  let back := match source with
    | .earlier n _ => some n
    | .today _ | .default => none
  let start := match source with
    | .today start | .earlier _ start => some start
    | .default => none
  [be 1 items.length, be 1 s.timetable.editCount, counted ((items.drop (first - 1)).take 16),
    be 1 (s.timetable.dayType s.clock.reading.week (s.clock.reading.ms / 86400000)), be 1 (s.timetable.scheduled.getD 0),
    be 1 source.code, absentOr 1 (back.map (be 1)), absentOr 4 (start.map (be 4))]

/-- The kind code of a report and what its three parameter slots carry, by the table of R215. -/
def reportFields : ReportBody → Nat × List (List (List Byte))
  | .clockState old new => (0x01, [[be 1 old.code], [be 1 new.code], []])
  | .clockStep step before => (0x02, [[signedField step], [netTimeField before], []])
  | .schedule old new source =>
    (0x03, [[be 1 old], [be 1 new],
      match source with
      | .today start => [be 1 0, be 1 0, be 4 start]
      | .earlier n start => [be 1 1, be 1 n, be 4 start]
      | .default => [be 1 2, be 1 0, be 4 0]])
  | .specialDaysPruned removed week day => (0x04, [[be 1 removed], [be 2 week, be 1 day], []])
  | .orderStored key revision => (0x05, [[be 1 key.origin], [netTimeField key.stamp], [be 1 revision]])
  | .orderRevised key revision => (0x06, [[be 1 key.origin], [netTimeField key.stamp], [be 1 revision]])
  | .orderCancelled key revision => (0x07, [[be 1 key.origin], [netTimeField key.stamp], [be 1 revision]])
  | .orderRefused key revision => (0x08, [[be 1 key.origin], [netTimeField key.stamp], [be 1 revision]])
  | .orderEvicted key state => (0x09, [[be 1 key.origin], [netTimeField key.stamp], [be 1 state.code]])
  | .orderState key old new => (0x0A, [[be 1 key.origin], [netTimeField key.stamp], [[old], [new]]])
  | .orderEnded key plan => (0x0B, [[be 1 key.origin], [netTimeField key.stamp], [be 1 plan]])
  | .orderIssued stamp revision plan => (0x0C, [[netTimeField stamp], [be 1 revision], [be 1 plan]])
  | .governing a .schedule => (0x0D, [[be 1 a.plan, be 1 a.reference.code], [be 1 0, be 1 0], [netTimeField ⟨0, 0⟩]])
  | .governing a (.order key) =>
    (0x0D, [[be 1 a.plan, be 1 a.reference.code], [be 1 1, be 1 key.origin], [netTimeField key.stamp]])
  | .planAdopted a cause => (0x10, [[be 1 a.plan], [be 1 a.reference.code], [be 1 cause.code]])
  | .coordState old new cause =>
    (0x11, [[be 1 old.code], [be 1 new.code], [be 1 ((cause.map SuspensionCause.code).getD 0)]])
  | .transitionBegun d remaining n => (0x12, [[be 1 d.code], [be 2 remaining], [be 1 n]])
  | .adoptionFailed plan occasion => (0x13, [[be 1 plan], [be 1 occasion.code], []])
  | .sequencerState old new => (0x18, [[be 1 old.code], [be 1 new.code], []])
  | .trailingClearance groups yellow occasion => (0x19, [[wordField groups], [be 1 yellow], [be 1 occasion.code]])
  | .readbackGroup g cls raised => (0x20, [[be 1 (groupNumber g)], [be 1 cls.code], [flagField raised]])
  | .preemptState old new running =>
    (0x28, [[be 1 old.code], [be 1 new.code], [be 1 ((running.map inputCode).getD 0)]])
  | .preemptAbandoned i cause => (0x29, [[be 1 (inputCode i)], [be 1 cause.code], []])
  | .preemptEnded source plan stage duration =>
    (0x2A, [[be 1 (inputCode source)], [be 1 plan, be 1 stage], [be 4 duration]])
  | .overrideWritten a stage => (0x2B, [[be 1 a.plan], [be 1 a.reference.code], [be 1 stage]])
  | .overrideCleared plan => (0x2C, [[be 1 plan], [], []])
  | .faultRaised c detail count => (0x30, [[be 1 c.code], [be 1 (detail.getD 0)], [be 1 count]])
  | .faultWithdrawn c state => (0x31, [[be 1 c.code], [be 1 state.code], []])
  | .faultAcked c => (0x32, [[be 1 c.code], [], []])
  | .effectiveAction old new c => (0x33, [[be 1 old.code], [be 1 new.code], [be 1 c.code]])
  | .sendGivenUp kind key revision announce =>
    (0x38, [[be 1 kind.code, be 1 key.origin], [netTimeField key.stamp], [be 1 revision, be 1 announce]])

/-- The 25 bytes of a report: kind, time and three slots of 6 bytes, each filled from its first byte on and 0 behind
(R215). -/
def reportField (r : Report) : List (List Byte) :=
  let l := reportFields r.body
  [be 1 l.1, netTimeField r.time] ++ l.2.map fun slot => slot.flatten ++ List.replicate (6 - slot.flatten.length) 0

/-! ### Events -/

/-- When an event that comes at an instant of the clock is due (log 3). -/
def clockDue : Instr → Option (State → Bool)
  | .round => some State.roundDue
  | .timeFrameBuild => some State.frameDue
  | .calendarInstant => some State.calendarDue
  | .orderStartInstant => some State.orderStartDue
  | .orderEndInstant => some State.orderEndDue
  | .repeatInstant stamp => some fun s => s.repeatDue stamp
  | .issuedEndInstant stamp => some fun s => s.issuedEndDue stamp
  | .relayWaitExpiry => some State.relayDue
  | .idleGapMet => some State.gapDue
  | .deferTimeout => some State.deferDue
  | .backoffExpiry => some State.backoffDue
  | _ => none

/-- When an event the timing blocks come to at a decisecond boundary is due (log 3). -/
def boundaryDue : Instr → Option (State → Bool)
  | .cycleEnd => some State.cycleEndDue
  | .stageGreenBegin => some State.stageGreenDue
  | .greenEnd => some State.greenEndDue
  | .yellowEnd => some State.yellowEndDue
  | .trailingYellowEnd g => some fun s => s.trailingDue g
  | .startupRedEnd => some State.startupDue
  | .flashToggle => some State.toggleDue
  | .greenHoldEnd => some State.greenHoldDue
  | .clearingYellowEnd g => some fun s => s.clearingDue g
  | .preemptAllRedEnd => some State.allRedDue
  | .minimumDwellReached => some State.minimumDwellDue
  | .maximumHold => some State.maximumHoldDue
  | _ => none

/-- When an event the samples of a boundary bring about is due (log 3). -/
def sampleDue : Instr → Option (State → Bool)
  | .greenSenseFaulted g => some fun s => s.greenFaultedDue g
  | .greenSenseClean g => some fun s => s.greenCleanDue g
  | .lampOutFaulted g => some fun s => s.lampFaultedDue g
  | .lampOutClean g => some fun s => s.lampCleanDue g
  | .preemptActivation i => some fun s => s.activationDue i
  | .preemptRelease i => some fun s => s.releaseDue i
  | _ => none

/-- An event is due that the part comes to by itself. The end of a relay wait leaves nothing to be done, and the gap is met only
on a line that the outside world leaves idle, so that these two come as commands alone. -/
def DueNow (c : Instr) (s : State) : Prop :=
  c ≠ .relayWaitExpiry ∧ c ≠ .idleGapMet
    ∧ ∃ due, (clockDue c = some due ∨ boundaryDue c = some due ∨ sampleDue c = some due) ∧ due s = true

end Sys2Proof.Machine
end

