-- ==== Sys2Proof/Certificates/Slice0/Obligations.lean ====
section
/-! DEFINITION. The statements for the provers. -/

open Sys2Proof Sys2Proof.Machine

/-! ### The whole part -/

/-- With a command at the front of the queue, a step is that command's meaning on the state with the rest of the queue. -/
def Obligations.StepRunsFrontCommand : Prop :=
  ∀ (c : Instr) (rest : List Instr) (s : State), s.pending = c :: rest → step s = exec c { s with pending := rest }

/-- R1, R2, R16, R44, and the model's choice of log 1: what a step does with no command waiting. Where an event is due, it takes
one that is (which of several is log 2). Where none is, it takes the boundary the clock stands at, with the levels last given.
Where there is none either, one millisecond passes. One held back by a slew (R2) leaves the clock where it is. Any other moves
it on by one, carrying into the week, and marks what it reaches: a boundary at a multiple of 100; in RUNNING a round at a
multiple of 10,000, the station's offset of 40 ms times its number in the round, and at a boundary a calendar instant, midnight
or the start of an entry. Nothing else changes but, in RUNNING, the line's wait and its two counts of line time (R185, log 28). -/
def Obligations.IdleStepLetsOneMillisecondPass : Prop :=
  ∀ s : State, s.pending = [] →
    let rate := bitRateOf s.cfg.bitRate
    let passed : LineInterface :=
      if s.port.part = .running then
        { s.line with
          wait := s.line.wait - rate
          deferred :=
            if s.line.tx = .defer ∨ s.line.tx = .backoff then s.line.deferred + (rate - s.line.wait) else s.line.deferred
          idleTime := min 24000 (s.line.idleTime + rate) }
      else s.line
    ((∃ c, DueNow c s) → ∃ c, DueNow c s ∧ step s = exec c s)
    ∧ ((∀ c, ¬ DueNow c s) →
      (s.instants.boundary = true → step s = exec (.decisecondBoundary s.pins) s)
      ∧ (s.instants.boundary = false → s.instants.holding = true →
        step s = .next { s with instants.holding := false, line := passed })
      ∧ (s.instants.boundary = false → s.instants.holding = false → s.clock.Sound →
        let reading : NetTime :=
          if s.clock.reading.ms = 604799999 then { week := (s.clock.reading.week + 1) % 65536, ms := 0 }
          else { week := s.clock.reading.week, ms := s.clock.reading.ms + 1 }
        let timeOfDay := reading.ms % 86400000 / 100
        let round := s.port.part = .running ∧ reading.ms % 10000 = 0
        let frame := s.port.part = .running ∧ reading.ms % 10000 = 40 * s.cfg.station % 10000
        let calendar := s.port.part = .running ∧ reading.ms % 100 = 0
          ∧ (timeOfDay = 0 ∨ ∃ e ∈ s.timetable.entries, e.start = timeOfDay)
        step s =
          .next
            { s with
              clock.reading := reading
              line := passed
              instants :=
                { s.instants with
                  holding := false
                  boundary := decide (reading.ms % 100 = 0)
                  timing := s.instants.timing && !decide (reading.ms % 100 = 0)
                  round := s.instants.round || decide round
                  frame := s.instants.frame || decide frame
                  calendar := s.instants.calendar || decide calendar } }))

/-- Every command answers a next state, with the queue as it was. R200 and R201 say of a request that it is answered at once;
that no event stops the part is the model's reading, and that POWER_ON_RESET and RESTART keep the queue is the model's own
(log 25, log 33). -/
def Obligations.EveryCommandAnswersNextAndLeavesTheQueue : Prop :=
  ∀ (c : Instr) (s : State), ∃ t, exec c s = .next t ∧ t.pending = s.pending

/-- The invariant holds after power-on reset, and both order lists stand in their order. -/
def Obligations.ResetIsSound : Prop := Inv State.reset ∧ State.reset.orders.InOrder

/-- Every step keeps the invariant: each collection within the room its rule gives it; the neighbours in station-number order,
no two of one station; no two orders of one key, none issued of one stamp, no dedup key twice; at most one order IN_FORCE and
at most one TIME frame queued; at most one slot ACTIVE and one STAGED, and every plan held in the slot of its number, through
its checks, with its signature and spares; P below the length while a cycle runs; the reading a network time; no group GREEN
in the flash mode; a configuration record held in RUNNING; no fault raised in CONFIGURING, and the effective action the most
severe of the faults that stand. The timetable's entries and the special days stay in their order, no two entries of one start
with a day type in common (R39, R40). The order list and the issued list stay in theirs too (R58, R67), for times that do not
lie across the week wrap, since "later" is no order of times that do. -/
def Obligations.EveryStepKeepsTheInvariant : Prop :=
  ∀ s t : State, Inv s → step s = .next t →
    Inv t ∧ (s.orders.PlainTimes → t.orders.PlainTimes → s.orders.InOrder → t.orders.InOrder)

/-! ### Encodings -/

/-- R201, R215, R27: a request read from the packet it is written to is itself. A plan read from its canonical body is itself,
and the body written again is the body read; the ORDER and CANCEL bodies have the length of their kind and read back as what
they were written from. -/
def Obligations.PacketsAndBodiesReadBack : Prop :=
  (∀ (c : Instr) (p : List Byte), wellFormed c = true → packetOfCommand c = some p → commandOfPacket p = c)
  ∧ ((∀ p : PlanRecord, p.fits = true → planLengthIs (planBytes p) = true ∧ readPlan (planBytes p) = p)
     ∧ ∀ body : List Byte, planLengthIs body = true → planBytes (readPlan body) = body)
  ∧ (∀ o : OrderContent, o.fits = true →
        (orderBodyBytes o).length ∈ frameLengths 2 ∧ readOrderBody (orderBodyBytes o) = o)
      ∧ ∀ c : CancelContent, c.fits = true →
        (cancelBodyBytes c).length ∈ frameLengths 3 ∧ readCancelBody (cancelBodyBytes c) = c


/-! ### The exchange -/

/-- R201: a request whose body has not the length its code calls for is refused with MALFORMED and counted; one that the
part state does not admit is refused with STATE; an unknown code is answered UNKNOWN; a packet that is not sound is answered
MALFORMED and counted, its code and sequence number echoed as far as they were received. None of these changes anything but
the exchange. -/
def Obligations.PacketsAndRequestsAreChecked : Prop :=
  (∀ (c : Instr) (r : RequestShape) (s : State), requestShape c = some r →
     (r.fits = false →
       exec c s =
         .next (({ s with port.malformed := min 65535 (s.port.malformed + 1) } : State).answered r.code r.seq .malformed []))
     ∧ (r.fits = true → r.admission.admits s.port.part = false → exec c s = .next (s.answered r.code r.seq .state [])))
  ∧ (∀ (code seq : Byte) (body : List Byte) (s : State), code ∉ requestCodes →
        exec (.unknownRequest code seq body) s = .next (s.answered code seq .unknown []))
      ∧ ∀ (packet : List Byte) (s : State), packetSound packet = false →
        ∃ code seq, (∀ x, packet[0]? = some x → code = x) ∧ (∀ x, packet[1]? = some x → seq = x)
          ∧ exec (.malformedRequest packet) s =
            .next
              (({ s with port.malformed := min 65535 (s.port.malformed + 1) } : State).answered code seq .malformed [])

/-- R200: every request is answered at once under its own code and sequence number. R201 for its own four checks, and the
owners' rules for theirs (R14, R25, R29, R47 to R50, R67, R71, R123, R161, R175, R202): one that is not answered DONE changes
nothing but the exchange. -/
def Obligations.RefusedRequestsChangeNothing : Prop :=
  ∀ (c : Instr) (r : RequestShape) (s t : State), requestShape c = some r → exec c s = .next t →
    ∃ h, t.port.held = some h ∧ h.request = r.code ∧ h.seq = r.seq
      ∧ (h.code ≠ .done →
        t =
          { s with
            port.held := t.port.held, port.discarded := t.port.discarded, port.malformed := t.port.malformed })

/-- R200, R215: a read transfer sends the held response from its first byte and releases it once its last byte has been read: the
codes echoed, the response code, the body's length and the body, with their CRC. With none held it sends the empty packet:
its request code byte is 0 and its body empty; sequence number and response code, which the spec does not give, are any two
bytes, the same ones each time (log 10). A number goes most significant byte first (R213). -/
def Obligations.ReadTransferSendsTheHeldResponse : Prop :=
  (∀ n v : Nat, be 0 v = [] ∧ be (n + 1) v = be n (v / 256) ++ [BitVec.ofNat 8 v])
  ∧ ∃ seq code : Byte, ∀ (count : Nat) (s : State),
    let bytes := fun r : Response =>
      withItsCrc ([r.request, r.seq, BitVec.ofNat 8 r.code.code] ++ be 2 r.body.length ++ r.body)
    (∀ r, s.port.held = some r → count < (bytes r).length →
      exec (.readTransfer count) s = .next { s with port.dataOut := (bytes r).take count })
    ∧ (∀ r, s.port.held = some r → (bytes r).length ≤ count →
      exec (.readTransfer count) s = .next { s with port.dataOut := bytes r, port.held := none })
    ∧ (s.port.held = none →
      exec (.readTransfer count) s = .next { s with port.dataOut := (withItsCrc [0, seq, code, 0, 0]).take count })

/-- R37. -/
def Obligations.PowerOnResetEmptiesEverySlot : Prop :=
  ∀ s : State, ∃ t, exec .powerOnReset s = .next t
    ∧ ∀ n, 1 ≤ n → n ≤ 32 → (t.slot n).state = .empty ∧ (t.slot n).plan = none ∧ (t.slot n).pinned = false

/-- R19, R37, R54, R77, R107, R130, R144, R166, R179, R197, R211: what power-on reset leaves, block by block and field by field.
The fields of the model's own are cleared, but for the levels on the pins, the draws and the queue, which stay (log 25). The
spec gives no reset value for some of them: no captured reading in the receiver, no bytes on SPI data out and no instant marked
as reached are the model's choice (log 27), and so are the Line Interface's two counts of line time (log 28). -/
def Obligations.PowerOnResetSetsEveryBlock : Prop :=
  ∀ s : State,
    exec .powerOnReset s =
      .next
        { clock :=
            { reading := ⟨0, 0⟩, state := .alone, neighbours := [], slew := 0, backlog := 0, setTimeMark := false
              holdover := 0, disputed := 0, tableFull := 0, numberConflict := 0, rejectedTime := 0, isolatedRaised := false }
          store := { slots := Vector.replicate 32 { state := .empty, plan := none, pinned := false } }
          timetable := { entries := [], specials := [], scheduled := none, source := .default, editCount := 0 }
          orders :=
            { entries := [], issued := [], governing := none, govSource := .schedule, planMissing := false, outOfZone := 0
              rejected := 0, refusedRoom := 0, evicted := 0, droppedCancel := 0 }
          coord :=
            { state := .idle, cause := none, active := none, requested := none, staged := none, finalMark := false
              position := 0, length := 0, figures := none, transition := none, measure := none, fallbackMark := false
              overrunRaised := false }
          seq :=
            { state := .flash, run := none, figures := none, served := [], trailing := [], startupCount := 0, latches := 0
              heldTake := false }
          bank :=
            { drive := Vector.replicate 16 .red, commanded := Vector.replicate 16 .red, flash := true, phase := .on
              half := 5, settle := Vector.replicate 16 0, sensedGreen := 0, sensedRed := 0, cabinetSampled := false
              mask := 0, greenAll := false, greenSome := false, redAll := false, redSome := false
              greenFilter := Vector.replicate 16 ⟨false, 0⟩, lampFilter := Vector.replicate 16 ⟨false, 0⟩
              greenSenseRaised := false, lampOutRaised := false, cabinetRaised := false }
          preempt :=
            { state := .idle, running := none, waiting := none, heldTake := false, pe1 := ⟨false, 0, false⟩
              pe2 := ⟨false, 0, false⟩, greenHold := none, holders := Vector.replicate 16 none, clearing := []
              clearedAllRed := 0, allRed := none, dwell := 0, expected := none, save := none, stuckRaised := false }
          faults :=
            { records := Vector.replicate 8 { state := .clear, count := 0, firstRaised := none, detail := none }
              effective := .report }
          line :=
            { queue := [], inHand := none, tx := .idle, wait := 0, deferred := 0, idleTime := 0, lineOut := []
              receiving := false, captured := none, dedup := [], giveUpRun := 0, present := ⟨0, 0, 0⟩, last := ⟨0, 0, 0⟩
              counts := ⟨0, 0, 0, 0, 0, 0, 0, 0, 0, 0, 0⟩, jamRaised := false }
          port :=
            { part := .configuring, config := none, held := none, reports := [], overflow := false, dropped := 0
              malformed := 0, discarded := 0, dataOut := [] }
          pins := s.pins
          instants :=
            { holding := false, boundary := false, timing := false, round := false, frame := false, calendar := false
              cycleEnd := false, toggle := false }
          draws := s.draws
          pending := s.pending }


/-- R18, R76, R106, R129, R143, R163, R165, R178, R196, R206, R207: the reading requests answer DONE with what the state
holds, field by field in the order in which each rule lists it (`portFields` to `saveFields`), and change nothing; READ_SAVE in
IDLE is refused with STATE. What the rules leave open of the layout is the model's choice (log 13), and so is the dwell count
shown outside DWELL (log 47) and the instant shown with a plan active under DAILY where the last measure was of another plan
(log 56). STATUS shows the discarded count as this request has left it. R123: the latch that
PLACE_CALL's answer shows is a flag, latched as 1 (log 13). -/
def Obligations.ReadingRequestsShowTheState : Prop :=
  ∀ (seq : Byte) (s : State),
    exec (.status seq []) s =
        .next
          (s.answered 0x02 seq .done
            (portFields (s.answered 0x02 seq .done []).port ++ clockFields s.clock ++ lineFields s.line
              ++ coordFields s.coord ++ seqFields s.seq ++ bankFields s.bank ++ preemptFields s.preempt
              ++ faultFields s.faults).flatten)
      ∧ exec (.readFaults seq []) s = .next (s.answered 0x38 seq .done (faultsFields s).flatten)
      ∧ exec (.readNeighbours seq []) s =
        .next (s.answered 0x41 seq .done (counted (s.clock.neighbours.map neighbourFields)))
      ∧ exec (.readOrders seq [0]) s =
        .next
          (s.answered 0x22 seq .done (counted (s.orders.entries.map orderFields) ++ (governingFields s.orders).flatten))
      ∧ exec (.readOrders seq [1]) s =
        .next
          (s.answered 0x22 seq .done (counted (s.orders.issued.map issuedFields) ++ (governingFields s.orders).flatten))
      ∧ (∀ r, s.preempt.state ≠ .idle → s.preempt.save = some r →
        exec (.readSave seq []) s = .next (s.answered 0x30 seq .done (saveFields r s).flatten))
      ∧ (s.preempt.state = .idle → exec (.readSave seq []) s = .next (s.answered 0x30 seq .state []))
      ∧ ∀ n : Byte, s.port.part = .running → 1 ≤ n.toNat → n.toNat ≤ 16 →
        exec (.placeCall seq [n]) s =
          .next
            (({ s with seq.latches := s.seq.latches ||| 1#16 <<< (n.toNat - 1) } : State).answered 0x28 seq .done
              [if s.seq.latches.getLsbD (n.toNat - 1) then 1 else 0])

/-- R205, R30, R53, R213, laid out as log 13 says: IDENTIFY answers the family and part codes, the revision, the eleven
capacities and the part state, and changes nothing. READ_PLAN shows the slot's state and pin, and of a slot that holds a plan
its signature and canonical body. READ_TIMETABLE shows a page of the entries or of the special days from a first position on,
up to 16 items, with the list's length, the edit count, today's day type, the scheduled plan and its source
(`timetableFields`). A number, a position or a selector out of range is refused with RANGE. -/
def Obligations.IdentifyPlanAndTimetableReadsShowThem : Prop :=
  (∀ (seq : Byte) (s : State),
     exec (.identify seq []) s =
       .next
         (s.answered 0x01 seq .done
           [0xC7, 0x02, 0x16, 1, 32, 64, 32, 12, 4, 16, 8, 32, 32, 16, 8,
             match s.port.part with
             | .configuring => 0
             | .running => 1]))
  ∧ (∀ (seq n : Byte) (s : State),
     (1 ≤ n.toNat → n.toNat ≤ 32 →
       exec (.readPlan seq [n]) s =
         .next
           (s.answered 0x12 seq .done
             ([BitVec.ofNat 8 (s.slot n.toNat).state.code, if (s.slot n.toNat).pinned then 1 else 0]
               ++ match s.storedPlan n.toNat with
                 | some p => be 2 p.signature.toNat ++ planBytes p.plan
                 | none => [])))
     ∧ (¬ (1 ≤ n.toNat ∧ n.toNat ≤ 32) → exec (.readPlan seq [n]) s = .next (s.answered 0x12 seq .range [])))
  ∧ ∀ (seq first : Byte) (s : State),
      (1 ≤ first.toNat → first.toNat ≤ 64 →
        exec (.readTimetable seq [0, first]) s =
          .next (s.answered 0x1A seq .done (timetableFields first.toNat (s.timetable.entries.map entryFields) s).flatten))
      ∧ (1 ≤ first.toNat → first.toNat ≤ 32 →
        exec (.readTimetable seq [1, first]) s =
          .next (s.answered 0x1A seq .done (timetableFields first.toNat (s.timetable.specials.map dayFields) s).flatten))
      ∧ (first.toNat = 0 ∨ 64 < first.toNat →
        exec (.readTimetable seq [0, first]) s = .next (s.answered 0x1A seq .range []))
      ∧ (first.toNat = 0 ∨ 32 < first.toNat →
        exec (.readTimetable seq [1, first]) s = .next (s.answered 0x1A seq .range []))
      ∧ ∀ selector : Byte, 1 < selector.toNat →
        exec (.readTimetable seq [selector, first]) s = .next (s.answered 0x1A seq .range [])

/-- R208, R209, R210: a report stands at the tail of the queue with the present reading, or, with 32 held, is dropped, marked
and counted; the attention line is asserted while a report is held. READ_REPORTS takes up to 8 from the head, oldest first, in
the layout of log 13; the overflow mark and the dropped count are shown as they stood and then cleared. R215, R214: each report
is 25 bytes, kind, time and three slots filled by the table of the kinds (`reportFields`), and the enumerated values that
reports and answers show have their codes; for the filtered level and the flash phase the order is read from the text
(log 13). -/
def Obligations.ReportsArePostedAndRead : Prop :=
  EnumerationsCoded
  ∧ (∀ (body : ReportBody) (s : State),
     (s.port.reports.length < 32 →
       post body s = { s with port.reports := s.port.reports ++ [{ time := s.clock.reading, body := body }] })
     ∧ (32 ≤ s.port.reports.length →
       post body s = { s with port.overflow := true, port.dropped := min 255 (s.port.dropped + 1) })
     ∧ (s.attention = true ↔ s.port.reports ≠ []) ∧ (post body s).attention = true)
  ∧ ∀ (seq : Byte) (s : State),
      let left : State :=
        { s with port.reports := s.port.reports.drop 8, port.overflow := false, port.dropped := 0 }
      exec (.readReports seq []) s =
        .next
          (left.answered 0x40 seq .done
            (be 1 (min 8 s.port.reports.length) ++ [if s.port.overflow then 1 else 0] ++ be 1 s.port.dropped
              ++ be 1 (s.port.reports.length - 8)
              ++ (be 1 (min 8 s.port.reports.length) ++ ((s.port.reports.take 8).map fun r => (reportField r).flatten).flatten)))
      ∧ (left.attention = true ↔ 8 < s.port.reports.length)

/-! ### START, RESTART, SET_TIME -/

/-- R202, R147, R168, R203, R36, R82, R42, R111: a START whose record is accepted makes the part RUNNING with that record, pins
the default and the fallback slot, evaluates the schedule, puts the Coordinator in SUSPENDED with cause FLASH, and leaves the
Sequencer in FLASH only while FLASH is the effective action. From blocks as a reset leaves them the scheduled plan governs,
DAILY (R73, R84): it is requested and staged and startup red begins with all groups RED and its whole count; or, its slot EMPTY,
PLAN_MISSING is raised (R74). Clock, lists, orders, line, stored plans, latches and input
filters stay. A record with a field out of its range is refused with RANGE; then a default plan, and then a fallback plan,
whose slot is EMPTY is refused with INVALID, reason PLAN_EMPTY (7), and the plan's number. The ranges and the defaults of
bytes FF are those of `ConfigFits` and `ConfigRead`; that an anchored flag above 1 is out of range is the model's reading
(log 24), and that the line stays so its count of idle line, the model's own, starts at START (log 49). -/
def Obligations.StartChecksItsRecordAndBeginsRunning : Prop :=
  ∀ (seq : Byte) (body : List Byte) (s : State), s.port.part = .configuring → body.length = 46 →
    (¬ ConfigFits body → exec (.start seq body) s = .next (s.answered 0x03 seq .range []))
    ∧ (ConfigFits body →
      (s.slot (field body 12 1)).state = .empty →
      exec (.start seq body) s = .next (s.answered 0x03 seq .invalid [7, BitVec.ofNat 8 (field body 12 1)]))
    ∧ (ConfigFits body → (s.slot (field body 12 1)).state ≠ .empty → (s.slot (field body 13 1)).state = .empty →
      exec (.start seq body) s = .next (s.answered 0x03 seq .invalid [7, BitVec.ofNat 8 (field body 13 1)]))
    ∧ (ConfigFits body → (s.slot (field body 12 1)).state ≠ .empty → (s.slot (field body 13 1)).state ≠ .empty →
      ∃ t c, exec (.start seq body) s = .next t
        ∧ ConfigRead body c ∧ t.port.part = .running ∧ t.port.config = some c
        ∧ t.port.held = some { request := 0x03, seq := seq, code := .done, body := [] }
        ∧ t.coord.state = .suspended ∧ t.coord.cause = some .flash ∧ t.coord.position = 0 ∧ t.coord.figures = none
        ∧ (t.seq.state = .flash → t.faults.effective = .flash)
        ∧ t.timetable.scheduled = some (s.timetable.find s.clock.reading c.defaultPlan).1
        ∧ t.timetable.source = (s.timetable.find s.clock.reading c.defaultPlan).2
        ∧ (∀ n, 1 ≤ n → n ≤ 32 →
          (t.slot n).pinned = ((s.slot n).pinned || n == c.defaultPlan || n == c.fallbackPlan))
        ∧ (∀ n, t.storedPlan n = s.storedPlan n)
        ∧ t.clock = s.clock ∧ t.timetable.entries = s.timetable.entries ∧ t.timetable.specials = s.timetable.specials
        ∧ t.timetable.editCount = s.timetable.editCount ∧ t.orders.entries = s.orders.entries
        ∧ t.orders.issued = s.orders.issued ∧ t.line = s.line ∧ t.seq.latches = s.seq.latches
        ∧ t.preempt.pe1 = s.preempt.pe1 ∧ t.preempt.pe2 = s.preempt.pe2
        ∧ (Inv s → s.orders = OrderHandler.reset → s.coord = Coordinator.reset → s.timetable.scheduled = none →
          s.seq.state = .flash →
          let g : Adoption := { plan := (s.timetable.find s.clock.reading c.defaultPlan).1, reference := .daily }
          let begins := t.seq.state = .startupRed ∧ t.seq.startupCount = c.startupRed ∧ t.bank.flash = false
            ∧ ∀ h : Group, t.bank.drive[h] = .red
          t.orders.governing = some g ∧ t.orders.govSource = .schedule
            ∧ ((s.slot g.plan).state ≠ .empty →
              t.orders.planMissing = false ∧ t.coord.requested = some g
                ∧ t.coord.staged = some { adoption := g, wait := 1 }
                ∧ (t.slot g.plan).state = (if (s.slot g.plan).state = .active then .active else .staged)
                ∧ t.faults.effective = .report ∧ begins)
            ∧ ((s.slot g.plan).state = .empty →
              t.orders.planMissing = true ∧ t.coord.requested = none
                ∧ (t.faults.record .planMissing).state = .active
                ∧ (t.faults.record .planMissing).detail = some g.plan
                ∧ (actionOf (some c) .planMissing = some .flash → t.seq.state = .flash)
                ∧ (actionOf (some c) .planMissing ≠ some .flash → begins))))

/-- R20, R38, R55, R78, R108, R131, R145, R167, R180, R198, R204, R212: RESTART keeps the clock's reading, every stored plan,
the timetable and the special days; every other block takes its reset values, no slot stays STAGED, ACTIVE or pinned, and
the part is CONFIGURING with the DONE of the RESTART held. The Output Bank enters flash with every filter CLEAN, every compare
flag and raised mark clear, and its last samples; its settle counts, 0 for a group already RED and 3 for one that changes, are
the model's reading (log 22). That the bytes last read, the pins, the draws and the queue stay is the model's (log 33). -/
def Obligations.RestartKeepsPlansAndCalendar : Prop :=
  ∀ (seq : Byte) (s : State), ∃ t, exec (.restart seq []) s = .next t
    ∧ t.port =
      { CabinetPort.reset with
        held := some { request := 0x04, seq := seq, code := .done, body := [] }, dataOut := s.port.dataOut }
    ∧ t.clock = { StationClock.reset with reading := s.clock.reading }
    ∧ t.timetable = { s.timetable with scheduled := none, source := .default }
    ∧ (∀ n, t.storedPlan n = s.storedPlan n ∧ (t.slot n).pinned = false
      ∧ (t.slot n).state = if (s.slot n).state = .empty then .empty else .stored)
    ∧ t.orders = OrderHandler.reset ∧ t.coord = Coordinator.reset ∧ t.seq = Sequencer.reset
    ∧ t.preempt = Preemption.reset ∧ t.faults = FaultUnit.reset ∧ t.line = LineInterface.reset
    ∧ t.bank =
      { OutputBank.reset with
        settle := t.bank.settle, sensedGreen := s.bank.sensedGreen, sensedRed := s.bank.sensedRed, mask := s.bank.mask
        cabinetSampled := s.bank.cabinetSampled }
    ∧ (∀ g : Group, t.bank.drive[g] = .red ∧ t.bank.commanded[g] = .red
      ∧ t.bank.greenFilter[g] = ⟨false, 0⟩ ∧ t.bank.lampFilter[g] = ⟨false, 0⟩
      ∧ t.bank.settle[g] = if s.bank.drive[g] = .red then 0 else 3)
    ∧ t.pins = s.pins ∧ t.draws = s.draws ∧ t.pending = s.pending

/-- R14, R15, R3: in CONFIGURING SET_TIME sets the clock to the time given, with no slew or backlog left and every stored
difference lowered by the step; a millisecond of week beyond 604,799,999 is refused, in RUNNING too, where the model checks it
before the station's being anchored (log 24). In RUNNING a station that is not anchored refuses the others with STATE. An
anchored one in SYNCED or HOLDOVER takes a difference of up to 1,000 ms from the intended reading into its correction, the slew
within its limit and the rest in the backlog, and is SYNCED with the SET_TIME mark set; a larger difference is refused. In ALONE
it is set to the time and SYNCED. That a millisecond still being held back is dropped by the setting is the model's choice (log
45). -/
def Obligations.SetTimeSetsOrCorrectsTheClock : Prop :=
  (∀ (seq : Byte) (body : List Byte) (s : State), s.port.part = .configuring → body.length = 6 → s.clock.Sound →
     ((timeField body 0).ms < 604800000 →
       exec (.setTime seq body) s =
         .next
           (({ s with
               clock :=
                 { s.clock with
                   reading := timeField body 0, slew := 0, backlog := 0
                   neighbours :=
                     s.clock.neighbours.map fun n =>
                       { n with lastD := n.lastD - (timeField body 0).diff s.clock.reading } }
               instants.holding := false } : State).answered 0x05 seq .done []))
     ∧ (604800000 ≤ (timeField body 0).ms → exec (.setTime seq body) s = .next (s.answered 0x05 seq .range [])))
  ∧ (∀ (seq : Byte) (body : List Byte) (s : State), s.port.part = .running → body.length = 6 →
      604800000 ≤ (timeField body 0).ms → exec (.setTime seq body) s = .next (s.answered 0x05 seq .range []))
  ∧ ∀ (seq : Byte) (body : List Byte) (s : State), s.port.part = .running → body.length = 6 →
      (timeField body 0).ms < 604800000 → s.clock.Sound →
      (s.cfg.anchored = false → exec (.setTime seq body) s = .next (s.answered 0x05 seq .state []))
      ∧ (s.cfg.anchored = true → s.clock.state = .alone →
        ∃ t, exec (.setTime seq body) s = .next t ∧ t.clock.reading = timeField body 0 ∧ t.clock.state = .synced
          ∧ t.clock.setTimeMark = true ∧ t.clock.slew = 0 ∧ t.clock.backlog = 0
          ∧ t.port.held = some { request := 0x05, seq := seq, code := .done, body := [] })
      ∧ (s.cfg.anchored = true → s.clock.state = .synced ∨ s.clock.state = .holdover →
        let d := (timeField body 0).diff (s.clock.reading.plus (s.clock.slew + s.clock.backlog))
        (1000 < d.natAbs → exec (.setTime seq body) s = .next (s.answered 0x05 seq .range []))
        ∧ (d.natAbs ≤ 1000 →
          ∃ t, exec (.setTime seq body) s = .next t ∧ t.clock.reading = s.clock.reading ∧ t.clock.state = .synced
            ∧ t.clock.slew + t.clock.backlog = s.clock.slew + s.clock.backlog + d
            ∧ t.clock.slew =
              max (-(s.cfg.slewLimit : Int)) (min s.cfg.slewLimit (s.clock.slew + s.clock.backlog + d))
            ∧ t.clock.setTimeMark = true ∧ t.clock.holdover = 0 ∧ t.clock.isolatedRaised = false
            ∧ (s.clock.isolatedRaised = true → (t.faults.record .clockIsolated).state ≠ .active)
            ∧ t.clock.neighbours = s.clock.neighbours ∧ t.line = s.line ∧ t.timetable.entries = s.timetable.entries
            ∧ t.orders.entries = s.orders.entries ∧ t.orders.issued = s.orders.issued
            ∧ (∀ n, t.storedPlan n = s.storedPlan n)
            ∧ t.port.held = some { request := 0x05, seq := seq, code := .done, body := [] }))

/-! ### Plans -/

/-- R23, R24, R25: the checks of a plan, in their order: a plan passes all of them exactly when it holds to each, and the
refusal is that of the first it fails, with the first stage that fails it. LOAD_PLAN is answered with that refusal and changes
nothing else. -/
def Obligations.PlansAreCheckedInOrder : Prop :=
  (∀ (seq : Byte) (body : List Byte) (s : State) (a : Answer), planLengthIs body = true →
     planRefusal s.store (readPlan body) = some a →
     exec (.loadPlan seq body) s = .next (s.answered 0x10 seq a.code a.body))
  ∧ ∀ (store : PlanStore) (p : PlanRecord),
    let number := 1 ≤ p.number ∧ p.number ≤ 32
    let free := (store.slot p.number).state ≠ .active ∧ (store.slot p.number).state ≠ .staged
      ∧ (store.slot p.number).pinned = false
    let count := 2 ≤ p.stageCount ∧ p.stageCount ≤ 8
    let header := (300 ≤ p.cycle ∧ p.cycle ≤ 2400) ∧ p.offset < p.cycle ∧ p.tolerance ≤ 50
      ∧ (5 ≤ p.lengthen ∧ p.lengthen ≤ 50) ∧ p.shorten ≤ 33 ∧ (1 ≤ p.transitions ∧ p.transitions ≤ 8)
    let inRange := fun st : StageRecord =>
      (1 ≤ st.split ∧ st.split ≤ 2400) ∧ (40 ≤ st.gmin ∧ st.gmin ≤ 600) ∧ st.ped ≤ 900
        ∧ (30 ≤ st.yellow ∧ st.yellow ≤ 60) ∧ st.allRed ≤ 60
        ∧ ((st.demandClass = 0 ∧ st.demandInput = 0)
          ∨ (st.demandClass = 1 ∧ 1 ≤ st.demandInput ∧ st.demandInput ≤ 16))
    let ranges := header ∧ ∀ st ∈ p.stages, inRange st
    let sets := ∀ st ∈ p.stages, st.green ≠ 0
    let fixed := ∀ st, p.stages.head? = some st → st.demandClass ≠ 1
    let sum := (p.stages.map StageRecord.split).sum = p.cycle
    let fits := fun st : StageRecord => max st.gmin st.ped + st.yellow + st.allRed ≤ st.split
    let long := ∀ st ∈ p.stages, fits st
    (planRefusal store p = none ↔ number ∧ free ∧ count ∧ ranges ∧ sets ∧ fixed ∧ sum ∧ long)
    ∧ (¬ number → planRefusal store p = some (plain .range))
    ∧ (number → ¬ free → planRefusal store p = some (plain .inUse))
    ∧ (number → free → ¬ count → planRefusal store p = some (invalid .stageCount 0))
    ∧ (number → free → count → ¬ ranges → planRefusal store p = some (plain .range))
    ∧ (number → free → count → ranges → ¬ sets →
      ∃ k, planRefusal store p = some (invalid .emptySet k) ∧ (p.stage k).map StageRecord.green = some 0
        ∧ ∀ j, 1 ≤ j → j < k → (p.stage j).map StageRecord.green ≠ some 0)
    ∧ (number → free → count → ranges → sets → ¬ fixed → planRefusal store p = some (invalid .stage1OnCall 1))
    ∧ (number → free → count → ranges → sets → fixed → ¬ sum → planRefusal store p = some (invalid .splitSum 0))
    ∧ (number → free → count → ranges → sets → fixed → sum → ¬ long →
      ∃ k st, planRefusal store p = some (invalid .splitShort k) ∧ p.stage k = some st ∧ ¬ fits st
        ∧ ∀ j x, 1 ≤ j → j < k → p.stage j = some x → fits x)

/-- R26, R27, R28, R30, R31, R64: an accepted LOAD_PLAN stores the plan with the CRC of its body as signature, its spares and
their sum, answers DONE with the signature and whether the slot held a plan before, and touches no other slot's plan. In
CONFIGURING nothing else changes and the slot is STORED; in RUNNING the order list is evaluated. A READ_PLAN that follows
returns the signature and the bytes that LOAD_PLAN carried, the two following the slot state and the pinned mark without a
presence byte: that layout and the mark of LOAD_PLAN's answer, 1 for a slot that held a plan, are the model's choice
(log 13). -/
def Obligations.LoadPlanStoresThePlanThatReadPlanReturns : Prop :=
  ∀ (seq seq' : Byte) (body : List Byte) (s : State), planLengthIs body = true →
    planRefusal s.store (readPlan body) = none →
    let p := readPlan body
    let spares := p.stages.map fun st => st.split - st.yellow - st.allRed - max st.gmin st.ped
    let new : Slot :=
      { state := .stored, pinned := (s.slot p.number).pinned
        plan := some { plan := p, signature := crc16 body, spares := spares, spareSum := spares.sum } }
    let answer := be 2 (crc16 body).toNat ++ [if (s.slot p.number).state = .empty then 0 else 1]
    (s.port.part = .configuring →
      exec (.loadPlan seq body) s =
        .next (({ s with store := s.store.put p.number new } : State).answered 0x10 seq .done answer))
    ∧ ∃ t u, exec (.loadPlan seq body) s = .next t
      ∧ t.port.held = some { request := 0x10, seq := seq, code := .done, body := answer }
      ∧ t.storedPlan p.number = new.plan ∧ (∀ n, n ≠ p.number → t.storedPlan n = s.storedPlan n)
      ∧ (∀ n, (t.slot n).pinned = (s.slot n).pinned)
      ∧ t.clock = s.clock ∧ t.timetable = s.timetable ∧ t.line = s.line ∧ t.orders.issued = s.orders.issued
      ∧ t.seq.latches = s.seq.latches ∧ t.port.part = s.port.part ∧ t.port.config = s.port.config
      ∧ (s.port.part = .running → Inv s → Evaluated s.orders.entries t)
      ∧ exec (.readPlan seq' (body.take 1)) t = .next u
      ∧ ∃ h, u.port.held = some h ∧ h.request = 0x12 ∧ h.seq = seq' ∧ h.code = .done
        ∧ h.body.drop 2 = be 2 (crc16 body).toNat ++ body


/-- R29, R31, R64: the cases of ERASE_PLAN. A STORED slot that is not pinned becomes EMPTY; no other slot's plan changes. In
RUNNING the order list is then evaluated. -/
def Obligations.ErasePlanEmptiesTheSlot : Prop :=
  ∀ (seq n : Byte) (s : State),
    (¬ (1 ≤ n.toNat ∧ n.toNat ≤ 32) → exec (.erasePlan seq [n]) s = .next (s.answered 0x11 seq .range []))
    ∧ (1 ≤ n.toNat → n.toNat ≤ 32 →
      ((s.slot n.toNat).state = .active ∨ (s.slot n.toNat).state = .staged ∨ (s.slot n.toNat).pinned = true →
        exec (.erasePlan seq [n]) s = .next (s.answered 0x11 seq .inUse []))
      ∧ ((s.slot n.toNat).state = .empty → (s.slot n.toNat).pinned = false →
        exec (.erasePlan seq [n]) s = .next (s.answered 0x11 seq .notFound []))
      ∧ ((s.slot n.toNat).state = .stored → (s.slot n.toNat).pinned = false →
        (s.port.part = .configuring →
          exec (.erasePlan seq [n]) s =
            .next (({ s with store := s.store.put n.toNat Slot.empty } : State).answered 0x11 seq .done []))
        ∧ ∃ t, exec (.erasePlan seq [n]) s = .next t
          ∧ t.port.held = some { request := 0x11, seq := seq, code := .done, body := [] }
          ∧ t.storedPlan n.toNat = none ∧ (∀ m, m ≠ n.toNat → t.storedPlan m = s.storedPlan m)
          ∧ (Inv s → (t.slot n.toNat).state = .empty)
          ∧ (s.port.part = .running → Inv s → Evaluated s.orders.entries t)
          ∧ t.clock = s.clock ∧ t.timetable = s.timetable ∧ t.line = s.line ∧ t.orders.issued = s.orders.issued))

/-- R33, R34, R35: the stage, activate and clear-staged requests, slot by slot. -/
def Obligations.SlotRequestsFollowTheirTables : Prop :=
  ∀ (store : PlanStore) (n : Nat), store.Sound →
    ((store.slot n).state = .empty → store.stage n = none ∧ store.activate n = none)
    ∧ ((store.slot n).state ≠ .empty →
      ∃ u v, store.stage n = some u ∧ store.activate n = some v ∧ u.Sound ∧ v.Sound
        ∧ (u.slot n).state = (if (store.slot n).state = .active then .active else .staged)
        ∧ (∀ m, m ≠ n → (u.slot m).state = if (store.slot m).state = .staged then .stored else (store.slot m).state)
        ∧ (v.slot n).state = .active
        ∧ (∀ m, m ≠ n → (v.slot m).state = if (store.slot m).state = .active then .stored else (store.slot m).state)
        ∧ ∀ m, (u.slot m).plan = (store.slot m).plan ∧ (u.slot m).pinned = (store.slot m).pinned
          ∧ (v.slot m).plan = (store.slot m).plan ∧ (v.slot m).pinned = (store.slot m).pinned)
    ∧ ∀ m, (store.clearStaged.slot m).plan = (store.slot m).plan
      ∧ (store.clearStaged.slot m).state = if (store.slot m).state = .staged then .stored else (store.slot m).state

/-- R39, R40, R45, R47 to R50: the cases of ADD_ENTRY, DROP_ENTRY, ADD_SPECIAL_DAY and DROP_SPECIAL_DAY. An item added stands
before the first one it comes before in the order of its list (`EntryBefore`, `SpecialBefore`). -/
def Obligations.CalendarEditsFollowTheirCases : Prop :=
  (∀ (seq : Byte) (body : List Byte) (s : State),
     (body.length = 7 →
       let e := readEntry body
       let ok := e.days ≠ 0 ∧ e.days.toNat < 512 ∧ e.start ≤ 863999 ∧ 1 ≤ e.plan ∧ e.plan ≤ 32
       let clash := fun x : Entry => x.start = e.start ∧ x.days &&& e.days ≠ 0
       (¬ ok → exec (.addEntry seq body) s = .next (s.answered 0x18 seq .range []))
       ∧ (ok → (∃ x ∈ s.timetable.entries, clash x) →
         ∃ x ∈ s.timetable.entries, clash x
           ∧ exec (.addEntry seq body) s = .next (s.answered 0x18 seq .duplicate (be 2 x.days.toNat ++ be 1 x.plan)))
       ∧ (ok → (∀ x ∈ s.timetable.entries, ¬ clash x) → 64 ≤ s.timetable.entries.length →
         exec (.addEntry seq body) s = .next (s.answered 0x18 seq .full []))
       ∧ (ok → (∀ x ∈ s.timetable.entries, ¬ clash x) → s.timetable.entries.length < 64 →
         ∃ t front rest, exec (.addEntry seq body) s = .next t ∧ s.timetable.entries = front ++ rest
           ∧ (∀ x ∈ front, ¬ EntryBefore e x) ∧ (∀ x, rest.head? = some x → EntryBefore e x)
           ∧ Edited s t 0x18 seq (front ++ e :: rest) s.timetable.specials))
     ∧ (body.length = 6 →
       let start := field body 0 4
       let days := BitVec.ofNat 16 (field body 4 2)
       let ok := days ≠ 0 ∧ days.toNat < 512 ∧ start ≤ 863999
       (¬ ok → exec (.dropEntry seq body) s = .next (s.answered 0x19 seq .range []))
       ∧ (ok → (∀ x ∈ s.timetable.entries, ¬ (x.start = start ∧ x.days = days)) →
         exec (.dropEntry seq body) s = .next (s.answered 0x19 seq .notFound []))
       ∧ (ok → (∃ x ∈ s.timetable.entries, x.start = start ∧ x.days = days) →
         ∃ t, exec (.dropEntry seq body) s = .next t
           ∧ Edited s t 0x19 seq
             (s.timetable.entries.filter fun x => decide (¬ (x.start = start ∧ x.days = days))) s.timetable.specials)))
  ∧ ∀ (seq : Byte) (body : List Byte) (s : State),
      (body.length = 4 →
        let week := field body 0 2
        let day := field body 2 1
        let typeCode := field body 3 1
        let late := s.port.part = .running ∧ s.clock.state ≠ .alone
          ∧ signedWeeks ((week : Int) - s.clock.reading.week) * 7 + (day : Int) - (s.clock.reading.ms / 86400000 : Nat) < -7
        let ok := day ≤ 6 ∧ typeCode ≤ 1 ∧ ¬ late
        let same := fun x : SpecialDay => x.week = week ∧ x.day = day
        (¬ ok → exec (.addSpecialDay seq body) s = .next (s.answered 0x1B seq .range []))
        ∧ (ok → (∃ x ∈ s.timetable.specials, same x) →
          ∃ x ∈ s.timetable.specials, same x
            ∧ exec (.addSpecialDay seq body) s =
              .next
                (s.answered 0x1B seq .duplicate
                  [match x.type with
                  | .a => 0
                  | .b => 1]))
        ∧ (ok → (∀ x ∈ s.timetable.specials, ¬ same x) → 32 ≤ s.timetable.specials.length →
          exec (.addSpecialDay seq body) s = .next (s.answered 0x1B seq .full []))
        ∧ (ok → (∀ x ∈ s.timetable.specials, ¬ same x) → s.timetable.specials.length < 32 →
          let new : SpecialDay := { week := week, day := day, type := if typeCode = 0 then .a else .b }
          ∃ t front rest, exec (.addSpecialDay seq body) s = .next t ∧ s.timetable.specials = front ++ rest
            ∧ (∀ x ∈ front, ¬ SpecialBefore new x) ∧ (∀ x, rest.head? = some x → SpecialBefore new x)
            ∧ Edited s t 0x1B seq s.timetable.entries (front ++ new :: rest)))
      ∧ (body.length = 3 →
        let week := field body 0 2
        let day := field body 2 1
        (6 < day → exec (.dropSpecialDay seq body) s = .next (s.answered 0x1C seq .range []))
        ∧ (day ≤ 6 → (∀ x ∈ s.timetable.specials, ¬ (x.week = week ∧ x.day = day)) →
          exec (.dropSpecialDay seq body) s = .next (s.answered 0x1C seq .notFound []))
        ∧ (day ≤ 6 → (∃ x ∈ s.timetable.specials, x.week = week ∧ x.day = day) →
          ∃ t, exec (.dropSpecialDay seq body) s = .next t
            ∧ Edited s t 0x1C seq s.timetable.entries
              (s.timetable.specials.filter fun x => decide (¬ (x.week = week ∧ x.day = day)))))

/-- R41, R42: today's latest applying entry; else the latest of the first of the seven days before that has one; else the
default plan. `back n` is the calendar day `n` days before today. A calendar day has the type of its special day, A as bit 7 and
B as bit 8, and without one its weekday; the day before a Monday is the Sunday of the week before, week 65,535 before week
0. -/
def Obligations.TheScheduleLooksBackSevenDays : Prop :=
  (∀ (t : Timetable) (week day : Nat),
    (∀ d ∈ t.specials, d.week = week → d.day = day → (∀ x ∈ t.specials, x.week = week → x.day = day → x = d) →
      (d.type = .a → t.dayType week day = 7) ∧ (d.type = .b → t.dayType week day = 8))
    ∧ ((∀ d ∈ t.specials, d.week = week → d.day ≠ day) → t.dayType week day = day)
    ∧ dayBefore week (day + 1) = (week, day) ∧ (week < 65535 → dayBefore (week + 1) 0 = (week, 6))
    ∧ dayBefore 0 0 = (65535, 6))
  ∧ ∀ (t : Timetable) (now : NetTime) (default : Nat),
    let back := fun n : Nat => (fun d : Nat × Nat => dayBefore d.1 d.2)^[n] (now.week, now.day)
    let applies := fun (n latest : Nat) (e : Entry) =>
      e ∈ t.entries ∧ e.days.getLsbD (t.dayType (back n).1 (back n).2) = true ∧ e.start ≤ latest
    let last := fun (n latest : Nat) (e : Entry) => applies n latest e ∧ ∀ x, applies n latest x → x.start ≤ e.start
    ((∃ e, applies 0 now.timeOfDay e) →
      ∃ e, last 0 now.timeOfDay e ∧ t.find now default = (e.plan, .today e.start))
    ∧ ((∀ e, ¬ applies 0 now.timeOfDay e) → (∃ n e, 1 ≤ n ∧ n ≤ 7 ∧ applies n 863999 e) →
      ∃ n e, 1 ≤ n ∧ n ≤ 7 ∧ last n 863999 e ∧ (∀ m x, 1 ≤ m → m < n → ¬ applies m 863999 x)
        ∧ t.find now default = (e.plan, .earlier n e.start))
    ∧ ((∀ e, ¬ applies 0 now.timeOfDay e) → (∀ n e, 1 ≤ n → n ≤ 7 → ¬ applies n 863999 e) →
      t.find now default = (default, .default))

/-- R44, R51, R43: a calendar instant taken in RUNNING evaluates the schedule; at midnight with the clock not ALONE the special
days eight or more days past are removed first, as one edit. -/
def Obligations.CalendarInstantsEvaluateTheSchedule : Prop :=
  ∀ s : State, s.port.part = .running → s.instants.calendar = true →
    let past := fun d : SpecialDay =>
      signedWeeks ((d.week : Int) - s.clock.reading.week) * 7 + (d.day : Int) - (s.clock.reading.day : Int) < -7
    let pruning := s.clock.reading.timeOfDay = 0 ∧ s.clock.state ≠ .alone
    ∃ t, exec .calendarInstant s = .next t
      ∧ t.instants.calendar = false
      ∧ t.timetable.entries = s.timetable.entries
      ∧ (pruning → t.timetable.specials = s.timetable.specials.filter fun d => decide (¬ past d))
      ∧ (pruning → (∃ d ∈ s.timetable.specials, past d) → t.timetable.editCount = (s.timetable.editCount + 1) % 256)
      ∧ (pruning → (∀ d ∈ s.timetable.specials, ¬ past d) → t.timetable.editCount = s.timetable.editCount)
      ∧ (¬ pruning → t.timetable.specials = s.timetable.specials ∧ t.timetable.editCount = s.timetable.editCount)
      ∧ t.timetable.scheduled = some (t.timetable.find s.clock.reading s.cfg.defaultPlan).1
      ∧ t.timetable.source = (t.timetable.find s.clock.reading s.cfg.defaultPlan).2
      ∧ t.clock = s.clock ∧ t.orders.entries = s.orders.entries ∧ t.orders.issued = s.orders.issued ∧ t.line = s.line
      ∧ t.seq.latches = s.seq.latches ∧ ∀ n, t.storedPlan n = s.storedPlan n

/-! ### Orders -/

/-- R67, checks in their order: the refusals of ISSUE_ORDER in RUNNING. That a presence byte above 1 is among the RANGE
refusals is the model's reading (log 24). -/
def Obligations.IssueOrderIsCheckedInOrder : Prop :=
  ∀ (seq : Byte) (body : List Byte) (s : State), s.port.part = .running → body.length = 24 →
    let r := readIssue body
    let ranges := 1 ≤ r.plan ∧ r.plan ≤ 32 ∧ r.priority ≤ 7 ∧ r.zones ≠ 0 ∧ r.hop ≤ 15 ∧ r.start.ms < 604800000
      ∧ r.finish.ms < 604800000 ∧ 0 < r.finish.diff r.start ∧ r.finish.diff r.start ≤ 604800000 ∧ r.presence ≤ 1
    let ahead := 0 < r.finish.diff s.clock.reading
    let refused := fun (code : ResponseCode) (answer : List Byte) =>
      exec (.issueOrder seq body) s = .next (s.answered 0x20 seq code answer)
    let revises := fun i : IssuedEntry => s.orders.issued.find? (fun x => decide (x.key.stamp = r.revises)) = some i
    let known := r.presence = 0 ∨ ∃ i, revises i ∧ i.revision ≠ 255
    let filled := (s.slot r.plan).state ≠ .empty
    let free := r.presence = 1 ∨ s.orders.issued.length < 4
    (¬ ranges → refused .range [])
    ∧ (ranges → ¬ ahead → refused .invalid [6, 0])
    ∧ (ranges → ahead → r.presence = 1 → (∀ i ∈ s.orders.issued, i.key.stamp ≠ r.revises) → refused .notFound [])
    ∧ (ranges → ahead → r.presence = 1 → (∃ i, revises i ∧ i.revision = 255) → refused .range [])
    ∧ (ranges → ahead → known → ¬ filled → refused .invalid [7, BitVec.ofNat 8 r.plan])
    ∧ (ranges → ahead → known → filled → ¬ free → refused .full [])
    ∧ (ranges → ahead → known → filled → free → 8 ≤ s.line.queue.length → refused .busy [])

/-- R68: an accepted ISSUE_ORDER that is new takes the first free stamp from the reading on and revision 0 and joins the issued
list; one that revises keeps the stamp, takes the next revision and replaces the entry. Its ORDER frame goes to the tail of
the send queue, an IDLE transmitter deferring on it with no relay wait (R183, R184; the count of the time in DEFER is the model's
own, log 28), and DONE carries stamp, revision and signature. The order is then taken into this station's own list as if it
had arrived (R60, R61, R64; `OrderTaken`): a new one is stored, or refused for room, and a revision replaces the held entry,
which keeps its storing instant by the model's choice (log 43); outside the zone mask a new order is not stored here. -/
def Obligations.IssuedOrdersAreAnnounced : Prop :=
  ∀ (seq : Byte) (body : List Byte) (s : State), s.port.part = .running → body.length = 24 → Inv s →
    issueRefusal (readIssue body) s = none →
    let r := readIssue body
    let old := s.orders.issued.find? fun x => decide (x.key.stamp = r.revises)
    let taken := fun stamp : NetTime =>
      (∃ i ∈ s.orders.issued, i.key.stamp = stamp)
        ∨ ∃ e ∈ s.orders.entries, e.key.origin = s.cfg.station ∧ e.key.stamp = stamp
    ∃ t i, exec (.issueOrder seq body) s = .next t
      ∧ i.key.origin = s.cfg.station
      ∧ i.detail =
        { plan := r.plan, signature := ((s.storedPlan r.plan).map StoredPlan.signature).getD 0, start := r.start
          priority := r.priority }
      ∧ i.finish = r.finish ∧ i.zones = r.zones ∧ i.hop = r.hop ∧ i.announce = 0
      ∧ i.nextRepeat = s.clock.reading.plus 60000
      ∧ (r.presence = 0 →
        i.revision = 0 ∧ t.orders.issued.Perm (i :: s.orders.issued)
          ∧ (∃ k : Nat, i.key.stamp = s.clock.reading.plus k ∧ ¬ taken i.key.stamp
            ∧ ∀ j : Nat, j < k → taken (s.clock.reading.plus j))
          ∧ (hasNumber r.zones s.cfg.zone = false → t.orders.entries = s.orders.entries))
      ∧ (r.presence = 1 →
        (∀ o, old = some o → i.key.stamp = o.key.stamp ∧ i.revision = o.revision + 1)
          ∧ t.orders.issued = s.orders.issued.map fun x => if x.key.stamp = r.revises then i else x)
      ∧ OrderTaken s t (i.content 0)
      ∧ PlacedAtTail s.line t.line { body := .order (i.content 0), attempts := 0, relay := false }
      ∧ (i.content 0).dedupKey ∈ t.line.dedup
      ∧ t.port.held =
        some
          { request := 0x20, seq := seq, code := .done
            body := be 2 i.key.stamp.week ++ be 4 i.key.stamp.ms ++ be 1 i.revision ++ be 2 i.detail.signature.toNat }
      ∧ t.clock = s.clock ∧ t.timetable.entries = s.timetable.entries ∧ t.seq.latches = s.seq.latches
      ∧ ∀ n, t.storedPlan n = s.storedPlan n

/-- R71: the cases of CANCEL_ORDER in RUNNING. An accepted one puts a CANCEL with hop limit 15 at the tail of the send queue,
an IDLE transmitter deferring on it with no relay wait (R183, R184, log 28),
and applies it here as if it had arrived (R62, R63; `CancelTaken`): a held entry that is not CANCELLED becomes so, a key on the
issued list alone leaves a placeholder in the zone, and where the origin is this station the issued entry of that revision or
a lower one goes, so that the order is repeated no more. -/
def Obligations.CancelOrderFollowsItsCases : Prop :=
  ∀ (seq : Byte) (body : List Byte) (s : State), s.port.part = .running → body.length = 7 → Inv s →
    let k := readKey body
    let ok := 1 ≤ k.origin ∧ k.origin ≤ 250 ∧ k.stamp.ms < 604800000
    let held := fun e : OrderEntry => e ∈ s.orders.entries ∧ e.key = k
    let issued := fun i : IssuedEntry => i ∈ s.orders.issued ∧ i.key = k
    let sent := fun (c : CancelContent) (t : State) =>
      exec (.cancelOrder seq body) s = .next t
        ∧ PlacedAtTail s.line t.line { body := .cancel c, attempts := 0, relay := false }
        ∧ t.port.held =
          some { request := 0x21, seq := seq, code := .done, body := [BitVec.ofNat 8 c.revision] }
        ∧ t.clock = s.clock ∧ ∀ n, t.storedPlan n = s.storedPlan n
    (¬ ok → exec (.cancelOrder seq body) s = .next (s.answered 0x21 seq .range []))
    ∧ (ok → (∀ e, ¬ held e) → (∀ i, ¬ issued i) →
      exec (.cancelOrder seq body) s = .next (s.answered 0x21 seq .notFound []))
    ∧ (ok → ((∃ e, held e) ∨ ∃ i, issued i) → 8 ≤ s.line.queue.length →
      exec (.cancelOrder seq body) s = .next (s.answered 0x21 seq .busy []))
    ∧ (ok → s.line.queue.length < 8 → ∀ e, held e →
      let c : CancelContent :=
        { key := k, revision := e.revision, finish := e.finish, zones := e.zones, hop := 15, announce := 0 }
      ∃ t, sent c t
        ∧ (e.zones ≠ 0 → e.finish.ms < 604800000 → 0 < e.finish.diff s.clock.reading →
          { e with state := .cancelled } ∈ t.orders.entries ∧ CancelTaken s t c))
    ∧ (ok → s.line.queue.length < 8 → (∀ e, ¬ held e) → ∀ i, issued i →
      let c : CancelContent :=
        { key := k, revision := i.revision, finish := i.finish, zones := i.zones, hop := 15, announce := 0 }
      ∃ t, sent c t
        ∧ (i.zones ≠ 0 → i.finish.ms < 604800000 → 0 < i.finish.diff s.clock.reading →
          CancelTaken s t c
            ∧ (k.origin = s.cfg.station →
              t.orders.issued = s.orders.issued.filter fun x => decide (x.key.stamp ≠ k.stamp))))

/-- R190 to R193: an ORDER or CANCEL frame whose dedup key is in the cache is counted as received and as a duplicate, and
nothing else happens, but for the model's own count of idle line, which starts at 0 where a frame ends (log 28). One with a new
key enters it and is relayed, with the hop limit one lower, when that is 1..15 and the send queue has room, an IDLE transmitter
deferring on the copy with a relay wait of 0..15 slots (R183, R184); a copy that finds no room is counted. That the round's
count goes up also past a running count at 65,535 is the model's choice (log 55). -/
def Obligations.OrderFramesAreTakenOnceAndRelayed : Prop :=
  ∀ (sender : Byte) (body : List Byte) (s : State), s.port.part = .running → s.line.receiving = true →
    let received : State :=
      { s with
        line.receiving := false, line.idleTime := 0
        line.counts.received := min 65535 (s.line.counts.received + 1)
        line.present.received := s.line.present.received + 1 }
    let entered := fun k : DedupKey => (if s.line.dedup.length < 32 then s.line.dedup else s.line.dedup.drop 1) ++ [k]
    let relayed := fun (hop : Nat) (copy : FrameBody) (t : State) =>
      (1 ≤ hop → hop ≤ 15 → s.line.queue.length < 8 →
        PlacedAtTail s.line t.line { body := copy, attempts := 0, relay := true })
      ∧ (1 ≤ hop → hop ≤ 15 → 8 ≤ s.line.queue.length →
        t.line.queue = s.line.queue ∧ GoesOn s.line t.line ∧ t.line.counts.relayDropped = min 65535 (s.line.counts.relayDropped + 1))
      ∧ (hop = 0 ∨ 15 < hop → t.line.queue = s.line.queue ∧ GoesOn s.line t.line)
    let common := fun (k : DedupKey) (t : State) =>
      t.line.dedup = entered k ∧ t.line.receiving = false ∧ t.line.counts.received = received.line.counts.received
        ∧ t.line.present = received.line.present ∧ t.clock = s.clock ∧ t.timetable.entries = s.timetable.entries
        ∧ t.seq.latches = s.seq.latches ∧ t.port.held = s.port.held ∧ ∀ n, t.storedPlan n = s.storedPlan n
    (body.length = 28 →
      let o := readOrderBody body
      (o.dedupKey ∈ s.line.dedup →
        exec (.orderFrameReceived sender body) s =
          .next { received with line.counts.duplicate := min 65535 (s.line.counts.duplicate + 1) })
      ∧ (o.dedupKey ∉ s.line.dedup →
        ∃ t, exec (.orderFrameReceived sender body) s = .next t ∧ common o.dedupKey t
          ∧ t.orders.issued = s.orders.issued ∧ relayed o.hop (.order { o with hop := o.hop - 1 }) t))
    ∧ (body.length = 18 →
      let c := readCancelBody body
      (c.dedupKey ∈ s.line.dedup →
        exec (.cancelFrameReceived sender body) s =
          .next { received with line.counts.duplicate := min 65535 (s.line.counts.duplicate + 1) })
      ∧ (c.dedupKey ∉ s.line.dedup →
        ∃ t, exec (.cancelFrameReceived sender body) s = .next t ∧ common c.dedupKey t
          ∧ relayed c.hop (.cancel { c with hop := c.hop - 1 }) t))

/-- R59, R60, R61, ranks by R57: what an arriving ORDER with a new dedup key does to the order list. A revision keeps the
storing instant, which is the model's choice (log 43). In a full list the CANCELLED entry that ends first makes room, or else
the lowest-ranked one that is not IN_FORCE, unless it outranks the new order; the other entries stay, but for those whose end
has come. Which entry comes first is said for times that do not lie across the week wrap. -/
def Obligations.ArrivingOrdersAreStoredRevisedOrRefused : Prop :=
  ∀ (sender : Byte) (body : List Byte) (s : State), s.port.part = .running → s.line.receiving = true → Inv s →
    body.length = 28 → (readOrderBody body).dedupKey ∉ s.line.dedup →
    let o := readOrderBody body
    let ok := 1 ≤ o.key.origin ∧ o.key.origin ≤ 250 ∧ 1 ≤ o.detail.plan ∧ o.detail.plan ≤ 32 ∧ o.detail.priority ≤ 7
      ∧ o.zones ≠ 0 ∧ o.hop ≤ 15 ∧ o.key.stamp.ms < 604800000 ∧ o.detail.start.ms < 604800000 ∧ o.finish.ms < 604800000
      ∧ 0 < o.finish.diff o.detail.start ∧ o.finish.diff o.detail.start ≤ 604800000 ∧ 0 < o.finish.diff s.clock.reading
    ∃ t, exec (.orderFrameReceived sender body) s = .next t
      ∧ (¬ ok → t.orders.entries = s.orders.entries ∧ t.orders.rejected = min 65535 (s.orders.rejected + 1))
      ∧ (ok → OrderTaken s t o)

/-- R62, R63: what an arriving CANCEL with a new dedup key does to the order list. In a full list its placeholder takes the
place of the CANCELLED entry that ends first, where one ends before the placeholder does; else it is dropped. The other
entries stay, but for those whose end has come. Which entry ends first is said for times not across the week wrap. -/
def Obligations.ArrivingCancelsWithdrawOrders : Prop :=
  ∀ (sender : Byte) (body : List Byte) (s : State), s.port.part = .running → s.line.receiving = true → Inv s →
    body.length = 18 → (readCancelBody body).dedupKey ∉ s.line.dedup →
    let c := readCancelBody body
    let ok := 1 ≤ c.key.origin ∧ c.key.origin ≤ 250 ∧ c.key.stamp.ms < 604800000 ∧ c.finish.ms < 604800000
      ∧ c.zones ≠ 0 ∧ 0 < c.finish.diff s.clock.reading
    ∃ t, exec (.cancelFrameReceived sender body) s = .next t
      ∧ (¬ ok → t.orders.entries = s.orders.entries ∧ t.orders.issued = s.orders.issued
        ∧ t.orders.droppedCancel = min 65535 (s.orders.droppedCancel + 1))
      ∧ (ok → CancelTaken s t c)

/-- R64, R65, R57: the start and the end instant of an entry bring the whole list into the states the reading calls for. Ended
entries go; the others keep all but their states; CANCELLED stays; MISMATCH and PENDING are as the stored plan and the
start say; of the candidates one is IN_FORCE, the highest-ranked when no time lies across the week wrap, and the others are
ECLIPSED. -/
def Obligations.EvaluationSettlesTheOrderList : Prop :=
  ∀ (c : Instr) (s : State), s.port.part = .running → Inv s →
    (c = .orderEndInstant ∧ (∃ e ∈ s.orders.entries, e.finish.diff s.clock.reading ≤ 0))
      ∨ (c = .orderStartInstant
        ∧ ∃ e ∈ s.orders.entries, e.state = .pending
          ∧ ∃ d, e.detail = some d ∧ d.start.diff s.clock.reading ≤ 0) →
    ∃ t, exec c s = .next t ∧ Evaluated s.orders.entries t ∧ Kept { s with orders.entries := t.orders.entries } t

/-- R69, R70: a repeat places the order's frame with the next announce count when the send queue has room, an IDLE transmitter
deferring on it with no relay wait (R183, R184, log 28), and waits another 60 s either way; the end instant takes the issued
entry off the list. -/
def Obligations.IssuedOrdersRepeatAndEnd : Prop :=
  ∀ (stamp : NetTime) (i : IssuedEntry) (s : State), s.port.part = .running → Inv s → i ∈ s.orders.issued →
    i.key.stamp = stamp →
    (i.nextRepeat.diff s.clock.reading ≤ 0 →
      let new := { i with announce := (i.announce + 1) % 256, nextRepeat := s.clock.reading.plus 60000 }
      (8 ≤ s.line.queue.length →
        exec (.repeatInstant stamp) s =
          .next
            { s with
              orders.issued := s.orders.issued.map fun x =>
                if x = i then { i with nextRepeat := s.clock.reading.plus 60000 } else x })
      ∧ (s.line.queue.length < 8 →
        ∃ t, exec (.repeatInstant stamp) s = .next t
          ∧ t.orders = { s.orders with issued := s.orders.issued.map fun x => if x = i then new else x }
          ∧ PlacedAtTail s.line t.line
            { body := .order (i.content ((i.announce + 1) % 256)), attempts := 0, relay := false }
          ∧ (i.content ((i.announce + 1) % 256)).dedupKey ∈ t.line.dedup
          ∧ t = { s with orders := t.orders, line := t.line, draws := t.draws }))
    ∧ (i.finish.diff s.clock.reading ≤ 0 →
      exec (.issuedEndInstant stamp) s =
        .next { s with orders.issued := s.orders.issued.filter fun x => decide (x ≠ i) })

/-! ### The governing plan, adoption requests, isolation and fallback -/

/-- R72, R73, R74: the governing plan is that of the order IN_FORCE, with its start as reference, else the scheduled plan, DAILY;
a change is reported. While its slot is EMPTY, PLAN_MISSING stands raised with its number and no adoption request is sent; once
it is not, PLAN_MISSING is withdrawn, and a request is sent if it had been raised or the plan has changed. An order's start or
end instant leaves the governing plan so decided. -/
def Obligations.TheGoverningPlanIsDecided : Prop :=
  ∀ s : State, Inv s → s.port.part = .running →
    let calls := fun (s : State) (g : Option Adoption) (source : GovSource) =>
      (∃ e ∈ s.orders.entries, e.state = .inForce
        ∧ ∃ d, e.detail = some d ∧ g = some { plan := d.plan, reference := .fixed d.start } ∧ source = .order e.key)
      ∨ ((∀ e ∈ s.orders.entries, e.state ≠ .inForce)
        ∧ g = (s.timetable.scheduled.map fun p => { plan := p, reference := .daily }) ∧ source = .schedule)
    let t := decideGoverning s
    (calls s t.orders.governing t.orders.govSource ∧ Kept s t
      ∧ (t.orders.governing = none → t.coord = s.coord ∧ t.faults = s.faults ∧ t.orders.planMissing = s.orders.planMissing)
      ∧ ∀ a, t.orders.governing = some a →
        (s.orders.governing ≠ some a → s.port.reports.length < 32 →
          { time := s.clock.reading, body := .governing a t.orders.govSource } ∈ t.port.reports)
        ∧ (t.orders.planMissing = true ↔ (s.slot a.plan).state = .empty)
        ∧ ((s.slot a.plan).state = .empty →
          (s.orders.planMissing = true → t.coord = s.coord ∧ t.faults = s.faults)
          ∧ (s.orders.planMissing = false →
            (t.faults.record .planMissing).state = .active ∧ (t.faults.record .planMissing).detail = some a.plan
              ∧ (actionOf s.port.config .planMissing = some .report → t.coord = s.coord)))
        ∧ ((s.slot a.plan).state ≠ .empty →
          (s.orders.planMissing = true → (t.faults.record .planMissing).state ≠ .active)
          ∧ (s.orders.planMissing = true ∨ s.orders.governing ≠ some a → t.coord.requested = some a)
          ∧ (s.orders.planMissing = false → s.orders.governing = some a → t.coord = s.coord)
          ∧ (s.orders.planMissing = false → t.faults = s.faults)))
    ∧ ∀ c : Instr,
      (c = .orderEndInstant ∧ (∃ e ∈ s.orders.entries, e.finish.diff s.clock.reading ≤ 0))
        ∨ (c = .orderStartInstant
          ∧ ∃ e ∈ s.orders.entries, e.state = .pending
            ∧ ∃ d, e.detail = some d ∧ d.start.diff s.clock.reading ≤ 0) →
      ∃ t, exec c s = .next t ∧ calls t t.orders.governing t.orders.govSource

/-- R84, R85, R87, R162: an adoption request takes the requested record. With the fallback mark clear it is put forward: it
empties the staged adoption where it is the active plan, stands where it is staged, and else is staged, with wait count 2
under the final-clearance mark and 1 otherwise, or fails for an EMPTY slot. While the Coordinator is SUSPENDED for a
preemption it also clears the resume override, and a slot the override alone had staged is STORED again. -/
def Obligations.AdoptionRequestsAreStaged : Prop :=
  ∀ (a : Adoption) (s : State), Inv s →
    let t := adoptionRequest a s
    let c : Coordinator := { s.coord with requested := some a }
    let preempted := s.coord.state = .suspended ∧ s.coord.cause = some .preemption
    let override := s.preempt.save.bind SaveRecord.override
    (s.coord.fallbackMark = false → PutForward s c a t)
    ∧ (s.coord.fallbackMark = true → t.coord = c)
    ∧ (¬ preempted ∨ override = none → t.preempt = s.preempt)
    ∧ (preempted → ∀ r o, s.preempt.save = some r → r.override = some o →
      t.preempt = { s.preempt with save := some { r with override := none } }
        ∧ (s.port.reports.length + 2 < 32 →
          { time := s.clock.reading, body := .overrideCleared o.adoption.plan } ∈ t.port.reports)
        ∧ ((t.slot o.adoption.plan).state = .staged →
          (t.coord.staged.map fun x => x.adoption.plan) = some o.adoption.plan))
    ∧ Kept s t ∧ t.orders = s.orders ∧ t.timetable = s.timetable ∧ t.seq = s.seq ∧ t.bank = s.bank ∧ t.faults = s.faults

/-- R83, R95, R100, R103, R105: a running cycle becomes ISOLATED once the clock is ALONE or the effective action ISOLATE or
FALLBACK, and CORRECTING with a pending transition once none of these holds; IDLE and SUSPENDED do not change. FALLBACK sets
the mark and puts the fallback plan forward, after a FLASH that came while the mark was set once more (R173, R174; log 57);
ISOLATE and REPORT clear it, and the requested record is taken again, or without one the staged adoption emptied. A transition abandoned on the way withdraws TRANSITION_OVERRUN, as a suspension does. A
raising that makes the effective action ISOLATE isolates a running cycle, and the round that brings an ALONE station among
ALONE neighbours into TRACKING ends the isolation. That a suspension drops the figures and keeps P and the cycle's length is
the model's reading (log 32), and that the pending transition's amount is 0 is its choice (log 54). -/
def Obligations.IsolationAndFallbackFollowTheAction : Prop :=
  ∀ s : State,
    let isolating := s.clock.state = .alone ∨ s.faults.effective = .isolate ∨ s.faults.effective = .fallback
    let measuring := s.coord.state = .correcting ∨ s.coord.state = .coordinated
    let pending : Transition := { direction := .pending, counter := 0, amount := 0 }
    let withdrawn := fun t : State =>
      s.coord.overrunRaised = true → (t.faults.record .transitionOverrun).state ≠ .active
    let u := isolationChange s
    let fallback : Adoption := { plan := s.cfg.fallbackPlan, reference := .daily }
    (measuring → isolating →
      u.coord = { s.coord with state := .isolated, cause := none, transition := none, overrunRaised := false }
        ∧ withdrawn u ∧ u.bank = s.bank ∧ u.seq = s.seq ∧ u.store = s.store)
    ∧ (s.coord.state = .isolated → ¬ isolating →
      u = { s with coord := u.coord, port := u.port }
        ∧ u.coord = { s.coord with state := .correcting, cause := none, transition := some pending })
    ∧ (¬ (measuring ∧ isolating) → ¬ (s.coord.state = .isolated ∧ ¬ isolating) → u = s)
    ∧ (∀ action, action = .flash ∨ (action ≠ .fallback ∧ s.coord.fallbackMark = false) → deliverCoordinator action s = u)
    ∧ (Inv s → PutForward u { u.coord with fallbackMark := true } fallback (deliverCoordinator .fallback s))
    ∧ (Inv s → s.coord.fallbackMark = true → ∀ action, action = .isolate ∨ action = .report →
      (∀ a, s.coord.requested = some a →
        PutForward u { u.coord with fallbackMark := false } a (deliverCoordinator action s))
      ∧ (s.coord.requested = none → Unstaged u { u.coord with fallbackMark := false } (deliverCoordinator action s)))
    ∧ (∀ cause : SuspensionCause,
      (suspend cause s).coord =
          { s.coord with
            state := .suspended, cause := some cause, transition := none, finalMark := false, figures := none
            overrunRaised := false }
        ∧ withdrawn (suspend cause s))
    ∧ (Inv s → s.port.part = .running → s.faults.effective = .report → measuring →
      ∀ (c : FaultClass) (detail : Option Nat), actionOf s.port.config c = some .isolate → c ≠ .transitionOverrun →
        (raise c detail s).faults.effective = .isolate ∧ (raise c detail s).coord.state = .isolated
          ∧ (raise c detail s).coord.transition = none)
    ∧ (Inv s → s.port.part = .running → s.instants.round = true → s.cfg.anchored = false → s.clock.state = .alone →
      (∀ n ∈ s.clock.neighbours, n.clockState = .alone) → s.coord.state = .isolated → s.faults.effective ≠ .isolate →
      s.faults.effective ≠ .fallback →
      ∃ t, exec .round s = .next t
        ∧ (t.clock.state = .tracking →
          t.coord = { s.coord with state := .correcting, cause := none, transition := some pending })
        ∧ (t.clock.state = .alone → t.coord = s.coord))

/-! ### The station clock -/

/-- R6, R7, R194, R13: what every round does before its decision, the clock not being ALONE or the station anchored: ages go
up and entries of 30 rounds leave, the others are classified, the line's counts move on, the SET_TIME mark is cleared. -/
def Obligations.RoundsAgeAndClassifyNeighbours : Prop :=
  ∀ s : State, s.port.part = .running → s.instants.round = true → s.clock.state ≠ .alone ∨ s.cfg.anchored = true →
    let disputed := fun n : Neighbour =>
      decide (s.clock.state ≠ .alone ∧ n.age ≤ 2 ∧ n.clockState ≠ .alone ∧ s.cfg.acceptWindow < n.lastD.natAbs)
    let aged := (s.clock.neighbours.map fun n => { n with age := min 255 (n.age + 1) }).filter fun n => decide (n.age < 30)
    ∃ t, exec .round s = .next t
      ∧ t.clock.neighbours = aged.map (fun n => { n with disputed := disputed n })
      ∧ t.clock.disputed = aged.countP disputed
      ∧ t.clock.setTimeMark = false
      ∧ t.clock.reading = s.clock.reading
      ∧ t.instants.round = false
      ∧ t.line =
        { s.line with
          last := s.line.present, present := { sent := 0, received := 0, collisions := 0 } }
      ∧ t.timetable.entries = s.timetable.entries ∧ t.orders.entries = s.orders.entries
      ∧ t.orders.issued = s.orders.issued ∧ t.seq.latches = s.seq.latches ∧ t.port.held = s.port.held
      ∧ ∀ n, t.storedPlan n = s.storedPlan n

/-- R8, R9, R11, R12: the decision of a station that is not anchored and has left ALONE. With no usable neighbour it is HOLDOVER
and the count goes up, CLOCK_ISOLATED being raised at the limit and withdrawn when HOLDOVER is left; otherwise the correction is
slewed within the limit and decides the state by the table of R11. The trimmed mean of a value set is the mean, truncated toward
zero, of what is left of the set in rising order when the trim is discarded from each end. -/
def Obligations.RoundsCorrectAStationThatHasTheTime : Prop :=
  (∀ (k : Nat) (values : List Int), 2 * k < values.length →
    ∃ low mid high : List Int, (low ++ mid ++ high).Perm values ∧ (low ++ mid ++ high).Pairwise (· ≤ ·)
      ∧ low.length = k ∧ high.length = k ∧ trimmedMean k values = mid.sum.tdiv mid.length)
  ∧ ∀ s : State, s.port.part = .running → s.instants.round = true → s.cfg.anchored = false → s.clock.state ≠ .alone →
    let usable := fun t : State =>
      t.clock.neighbours.filter fun n =>
        decide (n.age ≤ 2 ∧ n.clockState ≠ .alone ∧ n.lastD.natAbs ≤ s.cfg.acceptWindow)
    let withdrawn := fun t : State =>
      s.clock.isolatedRaised = true → (t.faults.record .clockIsolated).state ≠ .active
    ∃ t, exec .round s = .next t
      ∧ (usable t = [] →
        t.clock.state = .holdover ∧ t.clock.slew = s.clock.slew ∧ t.clock.holdover = min 65535 (s.clock.holdover + 1)
          ∧ IsolatesAtTheLimit s t)
      ∧ (usable t ≠ [] →
        let anchored := (usable t).filter Neighbour.anchored
        let values :=
          if anchored = [] then 0 :: (usable t).map Neighbour.lastD else anchored.map Neighbour.lastD
        let trim := if anchored = [] then if 4 ≤ values.length then 1 else 0 else if 3 ≤ values.length then 1 else 0
        let c := trimmedMean trim values
        t.clock.slew = max (-(s.cfg.slewLimit : Int)) (min s.cfg.slewLimit c)
          ∧ t.clock.holdover = 0 ∧ t.clock.isolatedRaised = false ∧ withdrawn t
          ∧ (c.natAbs ≤ s.cfg.syncWindow → t.clock.state = .synced)
          ∧ (s.cfg.syncWindow < c.natAbs → c.natAbs ≤ 2 * s.cfg.syncWindow →
            t.clock.state = if s.clock.state = .synced then .synced else .tracking)
          ∧ (2 * s.cfg.syncWindow < c.natAbs → t.clock.state = .tracking))

/-- R10, R3, R6, R7, R194: the round of an ALONE station that is not anchored. Ages go up, entries of 30 rounds leave, no entry
is disputed, the SET_TIME mark is cleared and the line's counts move on. With a fresh neighbour that is not ALONE it steps by the
correction and becomes TRACKING; the lowest number among fresh ALONE neighbours alone makes it the seed, TRACKING without a
step; otherwise it stays ALONE. -/
def Obligations.RoundsBringAnAloneStationIntoTime : Prop :=
  ∀ s : State, s.port.part = .running → s.instants.round = true → s.cfg.anchored = false → s.clock.state = .alone →
    let aged := (s.clock.neighbours.map fun n => { n with age := min 255 (n.age + 1) }).filter fun n => decide (n.age < 30)
    let fresh := aged.filter fun n => decide (n.age ≤ 2)
    let timed := fresh.filter fun n => decide (n.clockState ≠ .alone)
    let anchored := timed.filter Neighbour.anchored
    let values := (if anchored = [] then timed else anchored).map Neighbour.lastD
    let trim := if anchored = [] then if 4 ≤ values.length then 1 else 0 else if 3 ≤ values.length then 1 else 0
    ∃ t, exec .round s = .next t
      ∧ t.clock.disputed = 0 ∧ t.clock.setTimeMark = false ∧ t.instants.round = false
      ∧ t.line =
        { s.line with
          last := s.line.present, present := { sent := 0, received := 0, collisions := 0 } }
      ∧ (timed ≠ [] →
        t.clock.state = .tracking ∧ t.clock.reading = s.clock.reading.plus (trimmedMean trim values)
          ∧ t.clock.slew = 0 ∧ t.clock.backlog = 0
          ∧ t.clock.neighbours =
            aged.map fun n => { n with lastD := n.lastD - trimmedMean trim values, disputed := false })
      ∧ (timed = [] → t.clock.reading = s.clock.reading ∧ t.clock.slew = s.clock.slew
        ∧ t.clock.neighbours = aged.map (fun n => { n with disputed := false })
        ∧ t.clock.state =
          if fresh ≠ [] ∧ ∀ n ∈ fresh, s.cfg.station < n.station then .tracking else .alone)

/-- R13, R12: the round of an anchored station: the amounts are joined and the slew takes what its limit allows; SYNCED needs a
SET_TIME since the last round, HOLDOVER counts up, with CLOCK_ISOLATED at the limit, ALONE stays. -/
def Obligations.RoundsOfAnAnchoredStation : Prop :=
  ∀ s : State, s.port.part = .running → s.instants.round = true → s.cfg.anchored = true →
    ∃ t, exec .round s = .next t
      ∧ t.clock.slew + t.clock.backlog = s.clock.slew + s.clock.backlog
      ∧ t.clock.slew = max (-(s.cfg.slewLimit : Int)) (min s.cfg.slewLimit (s.clock.slew + s.clock.backlog))
      ∧ (s.clock.state = .alone → t.clock.state = .alone)
      ∧ (s.clock.state = .synced ∨ s.clock.state = .holdover →
        (s.clock.setTimeMark = true →
          t.clock.state = .synced ∧ t.clock.holdover = 0 ∧ t.clock.isolatedRaised = false
            ∧ (s.clock.isolatedRaised = true → (t.faults.record .clockIsolated).state ≠ .active))
        ∧ (s.clock.setTimeMark = false →
          t.clock.state = .holdover ∧ t.clock.holdover = min 65535 (s.clock.holdover + 1) ∧ IsolatesAtTheLimit s t))

/-- R16, R17, R183: the TIME frame is built after the decision of a round of the same instant, from the state it leaves. It
takes the place of a queued one, else the tail, else the room of the oldest relay copy; without any of these it is skipped
and counted. An IDLE transmitter defers on it with no relay wait, and one that was deferring on the head that is replaced or gives
its room defers anew (R184; the count of the time in DEFER is the model's own, log 28). -/
def Obligations.TimeFramesAreBuiltAndQueued : Prop :=
  ∀ s : State, s.port.part = .running → s.instants.frame = true →
    ∃ u t, (if s.instants.round = true then exec .round s = .next u else u = s)
      ∧ exec .timeFrameBuild s = .next t
      ∧ let governing :=
          if u.coord.state = .idle then none
          else u.orders.governing.bind fun g => (u.storedPlan g.plan).map fun p => (g.plan, p.signature)
        let f : Frame :=
          { body :=
              .time
                { clockState := u.clock.state, anchored := u.cfg.anchored && decide (u.clock.state = .synced)
                  coordState := u.coord.state, stamp := none, governing := governing }
            attempts := 0, relay := false }
        t = { u with line := t.line, draws := t.draws, instants.frame := false }
        ∧ t.line.dedup = u.line.dedup ∧ t.line.inHand = u.line.inHand
        ∧ (∀ front old rest, u.line.queue = front ++ old :: rest → old.isTime = true → (∀ x ∈ front, x.isTime = false) →
          t.line.queue = front ++ f :: rest ∧ HeadChanged u.line t.line (front = []))
        ∧ ((∀ x ∈ u.line.queue, x.isTime = false) →
          (u.line.queue.length < 8 → PlacedAtTail u.line t.line f)
          ∧ (8 ≤ u.line.queue.length →
            (∀ front old rest, u.line.queue = front ++ old :: rest → old.relay = true → (∀ x ∈ front, x.relay = false) →
              t.line.queue = front ++ rest ++ [f] ∧ HeadChanged u.line t.line (front = [])
                ∧ t.line.counts.relayDropped = min 65535 (u.line.counts.relayDropped + 1))
            ∧ ((∀ x ∈ u.line.queue, x.relay = false) →
              t.line = { u.line with counts.timeSkipped := min 65535 (u.line.counts.timeSkipped + 1) })))

/-- R4, R5: what a TIME frame does to the neighbour table: an entry is renewed in its place, a new one stands in
station-number order, in a full table in the room of the oldest entry of age 3 or more, the lowest number among equals.
The frame is counted as received (R190, R194), and the model's own count of idle line starts at 0 where it ends (log 28); that the
round's count goes up also past a running count at 65,535 is the model's choice (log 55). Three
points that R4 leaves open are the model's choice: own number and undefined code together (log 50), a stamp out of the week
(log 51), the other bits of the flags byte (log 52). -/
def Obligations.TimeFramesUpdateTheNeighbourTable : Prop :=
  ∀ (sender : Byte) (body : List Byte) (captured : NetTime) (s : State), s.port.part = .running →
    s.line.receiving = true → s.line.captured = some captured → body.length = 9 ∨ body.length = 12 → Inv s →
    let n := sender.toNat
    let table := s.clock.neighbours
    let placed := fun (table : List Neighbour) (new : Neighbour) =>
      (table.filter fun x => decide (x.station < n)) ++ new :: table.filter fun x => decide (n < x.station)
    let bad := n = 0 ∨ 250 < n ∨ 3 < field body 0 1 ∨ 4 < field body 2 1
    ∃ t, exec (.timeFrameReceived sender body) s = .next t
      ∧ t = { s with clock := t.clock, line := t.line }
      ∧ t.line =
        { s.line with
          receiving := false, idleTime := 0, counts.received := min 65535 (s.line.counts.received + 1)
          present.received := s.line.present.received + 1 }
      ∧ (bad → t.clock = { s.clock with rejectedTime := min 65535 (s.clock.rejectedTime + 1) })
      ∧ (¬ bad → n = s.cfg.station →
        t.clock = { s.clock with numberConflict := min 65535 (s.clock.numberConflict + 1) })
      ∧ (¬ bad → n ≠ s.cfg.station →
        ∃ new : Neighbour, new.station = n ∧ new.age = 0
          ∧ new.lastD = (timeField body 3).diff captured + s.cfg.delay
          ∧ new.clockState.code = field body 0 1 ∧ new.coordState.code = field body 2 1
          ∧ new.anchored = decide (field body 1 1 % 2 = 1)
          ∧ new.governing =
            (if body.length = 12 then some (field body 9 1, BitVec.ofNat 16 (field body 10 2)) else none)
          ∧ (∀ old ∈ table, old.station = n →
            new.disputed = old.disputed
              ∧ t.clock = { s.clock with neighbours := table.map fun x => if x.station = n then new else x })
          ∧ ((∀ x ∈ table, x.station ≠ n) →
            new.disputed = false
            ∧ (table.length < 16 → t.clock = { s.clock with neighbours := placed table new })
            ∧ (table.length = 16 → (∀ x ∈ table, x.age ≤ 2) →
              t.clock = { s.clock with tableFull := min 65535 (s.clock.tableFull + 1) })
            ∧ (table.length = 16 → (∃ x ∈ table, 3 ≤ x.age) →
              ∃ old ∈ table, 3 ≤ old.age ∧ (∀ x ∈ table, x.age ≤ old.age)
                ∧ (∀ x ∈ table, x.age = old.age → old.station ≤ x.station)
                ∧ t.clock =
                  { s.clock with neighbours := placed (table.filter fun x => decide (x.station ≠ old.station)) new })))

/-- R79, R112, R120, R134, R151, R153: at a decisecond boundary, with no round of the same millisecond, every timer that runs
moves by one: P, or the mark that the cycle ends; trailing yellows; startup red; the half-period, or the mark that the flash
toggles; the preemption timer of the state, the clearing yellows standing still while a green hold runs (log 17). -/
def Obligations.BoundariesMoveEveryTimer : Prop :=
  ∀ (levels : Levels) (s : State), s.instants.boundary = true → s.instants.timing = false → s.instants.round = false →
    levels.cabinetFlash = s.bank.cabinetRaised →
    let counting := s.coord.state = .isolated ∨ s.coord.state = .correcting ∨ s.coord.state = .coordinated
    let turning := s.bank.flash = true ∧ s.bank.half ≤ 1
    let clearing :=
      s.preempt.state = .leaving ∨ (s.preempt.state = .entering ∧ s.preempt.greenHold = none)
    ∃ t, exec (.decisecondBoundary levels) s = .next t
      ∧ t.instants.boundary = false
      ∧ t.coord =
        { s.coord with
          position :=
            if counting ∧ s.coord.position + 1 < s.coord.length then s.coord.position + 1 else s.coord.position }
      ∧ t.instants.cycleEnd =
        (s.instants.cycleEnd || decide (counting ∧ s.coord.length ≤ s.coord.position + 1))
      ∧ t.seq =
        { s.seq with
          trailing :=
            if s.seq.state = .run then s.seq.trailing.map fun x => { x with yellow := x.yellow - 1 } else s.seq.trailing
          startupCount := if s.seq.state = .startupRed then s.seq.startupCount - 1 else s.seq.startupCount
          latches := t.seq.latches }
      ∧ t.bank.half = (if s.bank.flash = true ∧ ¬ turning then s.bank.half - 1 else s.bank.half)
      ∧ t.instants.toggle = (s.instants.toggle || decide turning)
      ∧ t.bank.drive = s.bank.drive ∧ t.bank.commanded = s.bank.commanded ∧ t.bank.phase = s.bank.phase
      ∧ t.preempt =
        { s.preempt with
          dwell := if s.preempt.state = .dwell then s.preempt.dwell + 1 else s.preempt.dwell
          greenHold :=
            if s.preempt.state = .entering then s.preempt.greenHold.map (· - 1) else s.preempt.greenHold
          clearing :=
            if clearing then s.preempt.clearing.map fun c => { c with yellow := c.yellow - 1 } else s.preempt.clearing
          allRed :=
            if clearing ∧ s.preempt.clearing = [] then s.preempt.allRed.map (· - 1) else s.preempt.allRed
          pe1 := t.preempt.pe1
          pe2 := t.preempt.pe2 }
      ∧ t.orders = s.orders ∧ t.timetable = s.timetable ∧ t.store = s.store ∧ t.line = s.line ∧ t.port = s.port
      ∧ t.faults = s.faults ∧ t.pins = levels

/-- R2, R122, R136 to R140, R142, R146: at a decisecond boundary in RUNNING the demand inputs set latches, the readback
patterns are recorded and settle counts run down, both preemption filters take their sample. With the flash mode off the four
compare flags and the run counts of the readback filters follow the sample over the mask; with it on they stay. An inactive
cabinet-flash sample withdraws CABINET_FLASH, whose record is HELD. In CONFIGURING nothing is sampled. In both the slew moves
the clock by one millisecond at most, and every stored difference with it. At a boundary whose sample raises CABINET_FLASH,
where R142 leaves the order open, the mask is that of a compare taken before the cabinet sample: the model's choice
(log 38). -/
def Obligations.BoundariesSampleAndSlew : Prop :=
  ∀ (levels : Levels) (s : State), s.instants.boundary = true → s.instants.round = false →
    let running := s.port.part = .running
    let filtered := fun (f g : InputFilter) (level : Bool) =>
      g = { f with count := if level = f.active then 0 else f.count + 1 }
    ∃ t, exec (.decisecondBoundary levels) s = .next t
      ∧ (running →
        t.seq.latches = s.seq.latches ||| levels.demand
          ∧ filtered s.preempt.pe1 t.preempt.pe1 levels.pe1 ∧ filtered s.preempt.pe2 t.preempt.pe2 levels.pe2
          ∧ t.bank.sensedGreen = levels.greenSense ∧ t.bank.sensedRed = levels.redSense
          ∧ t.bank.cabinetSampled = levels.cabinetFlash
          ∧ (∀ g : Group, inSet g t.bank.mask = (inSet g s.cfg.monitored && decide (s.bank.settle[g] = 0)))
          ∧ (levels.cabinetFlash = s.bank.cabinetRaised →
            (∀ g : Group, t.bank.settle[g] = s.bank.settle[g] - 1)
            ∧ (s.bank.flash = false →
              let differs := fun (sense : BitVec 16) (a : Aspect) (g : Group) =>
                inSet g sense ≠ decide (s.bank.drive[g] = a)
              let flags := fun (all some : Bool) (sense : BitVec 16) (a : Aspect) =>
                (some = true ↔ ∃ g : Group, inSet g t.bank.mask = true ∧ differs sense a g)
                  ∧ (all = true ↔ t.bank.mask ≠ 0 ∧ ∀ g : Group, inSet g t.bank.mask = true → ¬ differs sense a g)
              let stepped := fun (f : Filter) (g : Group) (faulty : Bool) =>
                if inSet g t.bank.mask = true then { f with count := if faulty = f.faulted then 0 else f.count + 1 } else f
              flags t.bank.greenAll t.bank.greenSome levels.greenSense .green
                ∧ flags t.bank.redAll t.bank.redSome levels.redSense .red
                ∧ ∀ g : Group,
                  t.bank.greenFilter[g] =
                      stepped s.bank.greenFilter[g] g (inSet g levels.greenSense && decide (s.bank.drive[g] ≠ .green))
                    ∧ t.bank.lampFilter[g] =
                      stepped s.bank.lampFilter[g] g (decide (s.bank.drive[g] = .red) && !inSet g levels.redSense))
            ∧ (s.bank.flash = true →
              t.bank.greenAll = s.bank.greenAll ∧ t.bank.greenSome = s.bank.greenSome
                ∧ t.bank.redAll = s.bank.redAll ∧ t.bank.redSome = s.bank.redSome
                ∧ t.bank.greenFilter = s.bank.greenFilter ∧ t.bank.lampFilter = s.bank.lampFilter))
          ∧ (levels.cabinetFlash = false → s.bank.cabinetRaised = true →
            t.bank.cabinetRaised = false
              ∧ (t.faults.record .cabinetFlash).state =
                if (s.faults.record .cabinetFlash).state = .active then .held
                else (s.faults.record .cabinetFlash).state))
      ∧ (¬ running →
        t.seq.latches = s.seq.latches ∧ t.preempt.pe1 = s.preempt.pe1 ∧ t.preempt.pe2 = s.preempt.pe2
          ∧ t.bank.sensedGreen = s.bank.sensedGreen ∧ t.bank.sensedRed = s.bank.sensedRed
          ∧ t.bank.cabinetSampled = s.bank.cabinetSampled ∧ t.bank.mask = s.bank.mask ∧ t.bank.settle = s.bank.settle)
      ∧ (s.clock.slew = 0 → t.clock = s.clock ∧ t.instants.holding = s.instants.holding)
      ∧ (0 < s.clock.slew →
        t.clock =
          { s.clock with
            reading := s.clock.reading.plus 1, slew := s.clock.slew - 1
            neighbours := s.clock.neighbours.map fun n => { n with lastD := n.lastD - 1 } })
      ∧ (s.clock.slew < 0 →
        t.clock =
          { s.clock with
            slew := s.clock.slew + 1
            neighbours := s.clock.neighbours.map fun n => { n with lastD := n.lastD + 1 } }
        ∧ t.instants.holding = true)

/-! ### The line -/

/-- R184 to R187, R189, R190: what the receiver does at a start delimiter, at a frame that is too long, at one that ends early
and at one that fails a check. A relay wait or a backoff ends when the line time left of it has run, to the millisecond at
which it is over (log 11): where nothing nearer stands between, the clock comes to that millisecond and the frame defers with
no wait; a wait that outlasts the decisecond does not end in it and nothing happens (log 3, log 4). When the gap is met, on a
line that can have been idle for 24 bit times (log 28), the frame in hand, or else the head of the queue, is sent: its attempt
count goes up, preamble, delimiter, header, body and CRC are driven, and a TIME frame takes the reading the clock will have 24
bit times on, a part of a millisecond left over making one more or not (R17, log 9); the other bits of its flags byte are 0
(log 52). A gap that is met as soon as an event due at this instant is taken, the end of a BACKOFF or the building of a TIME
frame, is met at this instant. The stamp's reading counts the round the clock
stands at, a slew millisecond still to be taken, and the plain milliseconds after them. -/
def Obligations.LineEventsMoveReceiverAndTransmitter : Prop :=
  (∀ s : State, s.port.part = .running →
     (s.line.receiving = false →
       exec .startDelimiterEnd s =
         .next { s with line.receiving := true, line.captured := some s.clock.reading, line.idleTime := 0 })
     ∧ (s.line.receiving = true →
       let hunting : State := { s with line.receiving := false, line.idleTime := 0 }
       let short : State :=
         { hunting with line.counts.lengthError := min 65535 (s.line.counts.lengthError + 1) }
       exec .frameEndedEarly s = .next { short with line.idleTime := 16000 }
       ∧ (∀ length : Byte, 28 < length.toNat → exec (.bodyLengthExceeded length) s = .next short)
       ∧ ∀ (kind sender : Byte) (body : List Byte) (crc : BitVec 16),
         let good := crc = crc16 (kind :: sender :: BitVec.ofNat 8 body.length :: body)
         let known := kind = 1 ∨ kind = 2 ∨ kind = 3
         exec (.frameRejected true kind sender body crc) s = .next hunting
         ∧ (¬ good →
           exec (.frameRejected false kind sender body crc) s =
             .next { hunting with line.counts.crcError := min 65535 (s.line.counts.crcError + 1) })
         ∧ (good → ¬ known →
           exec (.frameRejected false kind sender body crc) s =
             .next { hunting with line.counts.unknownKind := min 65535 (s.line.counts.unknownKind + 1) })
         ∧ (good → known → body.length ∉ frameLengths kind →
           exec (.frameRejected false kind sender body crc) s = .next short)))
  ∧ ∀ s : State,
      (s.line.wait = 0 →
        (s.line.tx = .defer → exec .relayWaitExpiry s = .next s)
        ∧ (s.line.tx = .backoff → exec .backoffExpiry s = .next { s with line.tx := .defer }))
      ∧ (s.port.part = .running → s.instants.holding = false → s.instants.boundary = false → takeFirstDue s = none →
        s.line.wait ≠ 0 →
        ∀ c, (c = .relayWaitExpiry ∧ s.line.tx = .defer) ∨ (c = .backoffExpiry ∧ s.line.tx = .backoff) →
        let rate := bitRateOf s.cfg.bitRate
        let n := (s.line.wait + rate - 1) / rate
        (s.msToEvent s.msToMultiple = n →
          ∃ t, exec c s = .next t
            ∧ t =
              { s with
                clock.reading := s.clock.reading.plus n
                line.tx := .defer, line.wait := 0, line.deferred := s.line.deferred + (n * rate - s.line.wait)
                line.idleTime := min 24000 (s.line.idleTime + n * rate), instants := t.instants })
        ∧ (s.msToEvent s.msToMultiple = s.msToMultiple → s.msToMultiple < n → exec c s = .next s))
      ∧ (∀ u, s.instants.boundary = false → s.line.tx ≠ .defer → takeFirstDue s = some u → u.line.tx = .defer →
        u.line.wait = 0 → 24000 ≤ u.line.idleTime → u.line.inHand ≠ none ∨ u.line.queue ≠ [] →
        exec .idleGapMet s = exec .idleGapMet u)
      ∧ (s.line.tx = .defer → s.line.wait = 0 → 24000 ≤ s.line.idleTime →
        let whole := 24000 / bitRateOf s.cfg.bitRate
        ∀ (f : Frame) (rest : List Frame),
          (s.line.inHand = some f ∧ s.line.queue = rest) ∨ (s.line.inHand = none ∧ s.line.queue = f :: rest) →
          ∃ t b, exec .idleGapMet s = .next t
            ∧ t =
              { s with
                line.queue := rest, line.inHand := some { f with body := b, attempts := f.attempts + 1 }
                line.tx := .sending, line.wait := 0, line.deferred := 0, line.lineOut := t.line.lineOut
                draws := s.draws + 1 }
            ∧ (f.isTime = false → b = f.body)
            ∧ (∀ c, f.body = .time c →
              ∃ k stamp, k ≤ 1 ∧ b = .time { c with stamp := some stamp }
                ∧ stamp = (clockAhead (whole + k) s).clock.reading
                ∧ ∀ u,
                  (if s.port.part = .running ∧ s.instants.round = true then exec .round s = .next u else u = s) →
                  u.clock.Sound → u.instants.holding = false →
                  (u.clock.slew = 0 → u.clock.reading.ms % 10000 + whole + k < 10000 →
                    stamp = u.clock.reading.plus (whole + k))
                  ∧ (u.instants.boundary = true → u.clock.reading.ms % 100 + whole + k < 99 →
                    (0 < u.clock.slew → stamp = u.clock.reading.plus (whole + k + 1))
                    ∧ (u.clock.slew < 0 → stamp = u.clock.reading.plus (whole + k - 1))))
            ∧ let header := b.code :: BitVec.ofNat 8 s.cfg.station :: BitVec.ofNat 8 b.bytes.length :: b.bytes
              t.line.lineOut = [0xAA#8, 0xAA#8, 0xE5#8] ++ header ++ be 2 (crc16 header).toNat)

/-- R181, R184 to R188, R194: a frame sent whole leaves the hand, counts, ends the give-up run and withdraws LINE_JAM; the
transmitter defers on the head of the queue, or is IDLE. A collision, or the end of 8,192 bit times of DEFER, counts as one and
sends the frame into BACKOFF with a wait of 0..2^a − 1 slots, or at its eighth attempt gives it up, with a report for an ORDER
or CANCEL of this station, which at the sixteenth in a row raises LINE_JAM. Waits, limit and times are line time in thousandths
of a bit time (log 11); the count of the time in DEFER, which starts anew here, and that of idle line are the model's own (log
28). That the round's counts go up also past a running count at 65,535 is the model's choice (log 55). -/
def Obligations.AttemptsEndAsSentOrCollided : Prop :=
  ∀ s : State, Inv s →
    let failed := fun (f : Frame) (queue : List Frame) (t : State) =>
      (f.attempts < 8 →
        t.line.tx = .backoff ∧ t.line.inHand = some f ∧ t.line.queue = queue
          ∧ t.line.giveUpRun = s.line.giveUpRun
          ∧ ∃ slots, slots < 2 ^ min f.attempts 6 ∧ t.line.wait = slots * 16000)
      ∧ (8 ≤ f.attempts →
        t.line.inHand = none ∧ t.line.queue = queue ∧ t.line.counts.giveUp = min 65535 (s.line.counts.giveUp + 1)
          ∧ t.line.giveUpRun = min 255 (s.line.giveUpRun + 1)
          ∧ DefersOnHead t.line
          ∧ (t.line.jamRaised = (s.line.jamRaised || decide (16 ≤ t.line.giveUpRun)))
          ∧ (s.port.part = .running → s.line.jamRaised = false → 16 ≤ t.line.giveUpRun →
            (t.faults.record .lineJam).state = .active)
          ∧ (f.relay = false → s.port.reports.length < 32 →
            (∀ o, f.body = .order o →
              { time := s.clock.reading, body := .sendGivenUp .order o.key o.revision o.announce } ∈ t.port.reports)
            ∧ ∀ c, f.body = .cancel c →
              { time := s.clock.reading, body := .sendGivenUp .cancel c.key c.revision c.announce } ∈ t.port.reports))
      ∧ t.line.deferred = 0 ∧ t.line.dedup = s.line.dedup ∧ t.clock = s.clock
    (s.line.tx = .sending →
      (∃ t, exec .frameSent s = .next t
        ∧ t.line.inHand = none ∧ t.line.queue = s.line.queue
        ∧ DefersOnHead t.line
        ∧ t.line.counts = { s.line.counts with sent := min 65535 (s.line.counts.sent + 1) }
        ∧ t.line.present = { s.line.present with sent := s.line.present.sent + 1 }
        ∧ t.line.giveUpRun = 0 ∧ t.line.jamRaised = false ∧ t.line.deferred = 0 ∧ t.line.idleTime = 0
        ∧ (s.line.jamRaised = true → (t.faults.record .lineJam).state ≠ .active)
        ∧ t.line.dedup = s.line.dedup ∧ t.clock = s.clock)
      ∧ ∀ f, s.line.inHand = some f →
        ∃ t, exec .collision s = .next t ∧ failed f s.line.queue t
          ∧ t.line.counts.collision = min 65535 (s.line.counts.collision + 1)
          ∧ t.line.present.collisions = s.line.present.collisions + 1 ∧ t.line.idleTime = 0)
    ∧ (s.line.tx = .defer → s.line.wait = 0 → 8192000 ≤ s.line.deferred →
      ∀ (f : Frame) (rest : List Frame),
        (s.line.inHand = some f ∧ s.line.queue = rest) ∨ (s.line.inHand = none ∧ s.line.queue = f :: rest) →
        ∃ t, exec .deferTimeout s = .next t ∧ failed { f with attempts := f.attempts + 1 } rest t
          ∧ t.line.counts.deferTimeout = min 65535 (s.line.counts.deferTimeout + 1)
          ∧ t.line.counts.collision = s.line.counts.collision ∧ t.line.idleTime = s.line.idleTime)

/-! ### The cycle -/

/-- R89, R90, R91: the measure finds the reference instant, the place in the cycle and both amounts; a transition shortens
exactly when that takes fewer cycles than lengthening, and never with a shortening limit of 0. -/
def Obligations.TheMeasureFindsBothWays : Prop :=
  (∀ (p : PlanRecord) (r : Reference) (now : NetTime), 0 < p.cycle →
    let m := measureOf p r now
    let elapsed : Int :=
      match r with
      | .daily => (now.ms % 86400000 / 100 : Nat)
      | .fixed instant => (signedWeeks ((now.week : Int) - instant.week) * 604800000 + now.ms - instant.ms).fdiv 100
    m.reference =
        (match r with
        | .daily => { week := now.week, ms := now.ms / 86400000 * 86400000 }
        | .fixed instant => instant)
      ∧ m.ideal < p.cycle ∧ (p.cycle : Int) ∣ elapsed - p.offset - m.ideal
      ∧ m.toShorten = m.ideal ∧ m.toLengthen < p.cycle ∧ p.cycle ∣ m.toShorten + m.toLengthen)
  ∧ ∀ (p : StoredPlan) (m : Measure), 0 < p.plan.cycle * p.plan.lengthen / 100 →
    let long := p.plan.cycle * p.plan.lengthen / 100
    let short := min (p.plan.cycle * p.plan.shorten / 100) p.spareSum
    p.lengthenLimit = long ∧ p.shortenLimit = short
      ∧ ((short ≠ 0 ∧ ∃ n, m.toShorten ≤ n * short ∧ n * long < m.toLengthen) → chooseDirection p m = .shorten)
      ∧ (¬ (short ≠ 0 ∧ ∃ n, m.toShorten ≤ n * short ∧ n * long < m.toLengthen) → chooseDirection p m = .lengthen)

/-- R80, R81, R96, R97, R115: of a plan that passes its checks, a cycle corrected within its limits sums to its length and
leaves every stage the green it needs. Lengthening gives the whole amount to stage 1; shortening takes from each stage its
share of the spare rounded down or one more, never more than its spare, the extra from the first stages that can give it. -/
def Obligations.CorrectedCyclesKeepEveryNeed : Prop :=
  ∀ (store : PlanStore) (plan : PlanRecord) (d : Direction) (k : Nat), plan.stages.length = plan.stageCount →
    planRefusal store plan = none → k ≤ (storedFrom plan).limit d →
    let p := storedFrom plan
    let f := correctedFigures p d k
    let spare := fun st : StageRecord => st.split - st.yellow - st.allRed - max st.gmin st.ped
    f.plan = plan.number ∧ f.splits.length = plan.stageCount ∧ f.splits.sum = f.length
      ∧ (∀ j, j < plan.stageCount → f.bounds[j]? = some (f.splits.take j).sum)
      ∧ plan.cycle - plan.cycle * plan.shorten / 100 ≤ f.length
      ∧ f.length ≤ plan.cycle + plan.cycle * plan.lengthen / 100
      ∧ (∀ (j : Nat) (st : StageRecord) (split : Nat), plan.stages[j]? = some st → f.splits[j]? = some split →
        max st.gmin st.ped + st.yellow + st.allRed ≤ split)
      ∧ (d = .lengthen →
        f.length = plan.cycle + k ∧ f.splits.head? = (plan.stages.head?.map fun st => st.split + k)
          ∧ f.splits.tail = plan.stages.tail.map StageRecord.split)
      ∧ (d = .shorten →
        let sum := (plan.stages.map spare).sum
        f.length = plan.cycle - k
          ∧ ∃ takes : List Nat, takes.length = plan.stageCount ∧ takes.sum = k
            ∧ f.splits = List.zipWith (fun (st : StageRecord) take => st.split - take) plan.stages takes
            ∧ (∀ (j : Nat) (st : StageRecord) (take : Nat), plan.stages[j]? = some st → takes[j]? = some take →
              take ≤ spare st ∧ (take = k * spare st / sum ∨ take = k * spare st / sum + 1))
            ∧ ∀ (i j : Nat) (a b : StageRecord) (x y : Nat), i < j → plan.stages[i]? = some a → plan.stages[j]? = some b →
              takes[i]? = some x → takes[j]? = some y → y = k * spare b / sum + 1 → k * spare a / sum < spare a →
              x = k * spare a / sum + 1)

/-- R79, R80, R86, R88 to R95, R113, R119: a cycle end in RUNNING. A staged adoption with wait count 1 is activated, one with 2
waits for the next cycle end. In ISOLATED the coming cycle is nominal; otherwise the measure makes it nominal and COORDINATED
within tolerance, begins a transition where none is in progress, or goes on with the one that is. Stage 1 begins at P = 0. A
transition whose counter is used up raises TRANSITION_OVERRUN, once the figures are handed (log 15), with what its action
brings; one that is abandoned withdraws it. TRANSITION_OVERRUN stands raised in a running cycle only where it is configured
REPORT: every other action has ended the transition (R83, R100). The groups of a trailing clearance stand in rising number, the
model's choice (log 53). -/
def Obligations.CycleEndsMeasureAndJudge : Prop :=
  ∀ (s : State) (a : Adoption) (p : StoredPlan) (st : StageRecord), Inv s → s.port.part = .running →
    s.instants.cycleEnd = true →
    (s.coord.overrunRaised = true → actionOf s.port.config .transitionOverrun = some .report) →
    let activated := s.coord.staged.filter fun x => decide (x.wait < 2)
    (match activated with
      | some x => some x.adoption
      | none => s.coord.active) = some a →
    s.storedPlan a.plan = some p → p.plan.number = a.plan → p.plan.stage 1 = some st →
    let m := measureOf p.plan a.reference s.clock.reading
    let near := m.toShorten ≤ p.plan.tolerance ∨ m.toLengthen ≤ p.plan.tolerance
    let going := if activated.isSome then none else s.coord.transition.filter fun x => decide (x.direction ≠ .pending)
    let measuring := s.coord.state = .correcting ∨ s.coord.state = .coordinated
    let overruns := measuring ∧ ¬ near ∧ s.coord.overrunRaised = false ∧ ∃ x, going = some x ∧ x.counter ≤ 1
    let abandoned := activated.isSome = true ∨ (measuring ∧ near)
    ∃ t u f, exec .cycleEnd s = .next t
      ∧ (¬ overruns → t = u)
      ∧ (overruns →
        t = raise .transitionOverrun none { u with coord.overrunRaised := true }
          ∧ (actionOf s.port.config .transitionOverrun = some .report →
            t = { u with coord.overrunRaised := true, faults := t.faults, port := t.port }
              ∧ (t.faults.record .transitionOverrun).state = .active))
      ∧ (abandoned → u.coord.overrunRaised = false
        ∧ (s.coord.overrunRaised = true → (u.faults.record .transitionOverrun).state ≠ .active))
      ∧ (¬ abandoned → u.coord.overrunRaised = s.coord.overrunRaised ∧ u.faults = s.faults)
      ∧ u.instants.cycleEnd = false ∧ u.coord.finalMark = false ∧ u.coord.position = 0
      ∧ u.coord.active = some a
      ∧ u.coord.staged =
        ((s.coord.staged.filter fun x => decide (2 ≤ x.wait)).map fun x => { x with wait := 1 })
      ∧ (activated.isSome = true → (u.slot a.plan).state = .active)
      ∧ u.coord.figures = some f ∧ u.seq.figures = some f ∧ u.coord.length = f.length
      ∧ u.seq.served = (f.splits.map fun _ => ServedMark.notReached).set 0 .served
      ∧ GreenBegun s u f 1 st (some s.runningYellow)
      ∧ (s.coord.state = .isolated →
        u.coord.state = .isolated ∧ u.coord.measure = s.coord.measure ∧ f = nominalFigures p.plan)
      ∧ (measuring →
        u.coord.measure = some m
        ∧ (near → u.coord.state = .coordinated ∧ u.coord.transition = none ∧ f = nominalFigures p.plan)
        ∧ (¬ near → going = none →
          let d := chooseDirection p m
          let k := min (m.remaining d) (p.limit d)
          u.coord.state = .correcting ∧ f = correctedFigures p d k
            ∧ u.coord.transition = some { direction := d, counter := p.plan.transitions, amount := k })
        ∧ (¬ near → ∀ x, going = some x →
          let k := min (m.remaining x.direction) (p.limit x.direction)
          u.coord.state = s.coord.state ∧ f = correctedFigures p x.direction k
            ∧ u.coord.transition = some { x with counter := x.counter - 1, amount := k }))
      ∧ u.clock = s.clock ∧ u.timetable = s.timetable ∧ u.orders = s.orders ∧ u.line = s.line ∧ u.preempt = s.preempt
      ∧ ∀ n, u.storedPlan n = s.storedPlan n

/-- R114, R116, R117, R85: at a green end the stages that follow are looked at in order, those ON_CALL and not called being
skipped; where some are skipped the green goes on to the end of the last of them less the clearance. Otherwise, and at the
end so moved, the clearance begins: groups outside the following set go YELLOW, and the final one sets its mark. That the
following set stays absent while the green goes on to an end so moved is the model's choice (log 44). -/
def Obligations.GreenEndsSkipAndClear : Prop :=
  ∀ (s : State) (r : RunState) (f : Figures) (p : StoredPlan) (st : StageRecord), s.seq.state = .run →
    s.seq.run = some r → s.seq.figures = some f → s.storedPlan f.plan = some p → p.plan.stage r.stage = some st →
    r.interval = .green → r.finish ≤ s.coord.position →
    let uncalled := fun j =>
      ∃ x, p.plan.stage j = some x ∧ x.demandClass = 1 ∧ hasNumber s.seq.latches x.demandInput = false
    let ends := fun (n : Nat) (next : NextServed) =>
      (∀ j, r.stage < j → j ≤ r.stage + n → uncalled j) ∧ ¬ uncalled (r.stage + n + 1)
        ∧ next = if p.plan.stage (r.stage + n + 1) = none then .nextCycle else .stage (r.stage + n + 1)
    let clears := fun (next : NextServed) =>
      let following :=
        match next with
        | .stage j => s.greenSet f.plan j
        | .nextCycle =>
          match s.coord.staged.filter (fun x => decide (x.wait = 1)), s.coord.active with
          | some x, _ => s.greenSet x.adoption.plan 1
          | none, some a => s.greenSet a.plan 1
          | none, none => s.greenSet 0 1
      ∃ t, exec .greenEnd s = .next t
        ∧ t =
          { s with
            coord.finalMark := s.coord.finalMark || decide (next = .nextCycle), bank := t.bank
            seq.run :=
              some
                { r with
                  interval := .yellow, finish := r.finish + st.yellow, next := some next, following := some following } }
        ∧ Redriven s.bank t.bank fun g =>
          if inSet g st.green = true ∧ inSet g following = false then .yellow else s.bank.drive[g]
    (∀ next, r.next = some next → clears next)
    ∧ (r.next = none →
      ∃ n next, ends n next
        ∧ (n = 0 → clears next)
        ∧ (0 < n →
          exec .greenEnd s =
            .next
              { s with
                seq.served :=
                  (List.range n).foldl (fun l i => l.set (r.stage + i) ServedMark.skipped) s.seq.served
                seq.run :=
                  some
                    { r with
                      finish := f.bound (r.stage + n) + f.split (r.stage + n) - (st.yellow + st.allRed)
                      next := some next } }))

/-- R114, R115, R118, R120: a yellow with an all-red after it ends in RED; when the clearance has run, the next served stage
of the cycle begins GREEN at its boundary; a trailing yellow that has run ends in RED. -/
def Obligations.ClearancesEndAndGreensBegin : Prop :=
  ∀ s : State, s.seq.state = .run →
    (∀ (r : RunState) (f : Figures) (st : StageRecord), s.seq.run = some r → s.seq.figures = some f →
      s.stageOf f.plan r.stage = some st → r.finish ≤ s.coord.position →
      (r.interval = .yellow → 0 < st.allRed →
        ∃ t, exec .yellowEnd s = .next t
          ∧ t =
            { s with
              bank := t.bank, seq.run := some { r with interval := .allRed, finish := r.finish + st.allRed } }
          ∧ Redriven s.bank t.bank fun g =>
            if inSet g st.green = true ∧ inSet g (r.following.getD 0) = false then .red else s.bank.drive[g])
      ∧ (r.interval = .allRed ∨ (r.interval = .yellow ∧ st.allRed = 0) → ∀ (j : Nat) (new : StageRecord),
        r.next = some (.stage j) → s.stageOf f.plan j = some new →
        ∃ t, exec .stageGreenBegin s = .next t ∧ GreenBegun s t f j new none
          ∧ t = { s with seq := t.seq, bank := t.bank }
          ∧ t.seq.served = s.seq.served.set (j - 1) .served ∧ t.seq.figures = some f ∧ t.seq.state = .run))
    ∧ ∀ g : Group, (∃ x ∈ s.seq.trailing, x.group = g ∧ x.yellow = 0) →
      ∃ t, exec (.trailingYellowEnd g) s = .next t
        ∧ t = { s with bank := t.bank, seq.trailing := s.seq.trailing.filter fun x => decide (x.group ≠ g) }
        ∧ Redriven s.bank t.bank fun h => if h = g then .red else s.bank.drive[h]

/-- R102, R112, R126: at the end of startup red the staged plan, else the active one, else the default plan begins a nominal
cycle at stage 1. A take held for an input that calls is granted at once, PE2 waiting where PE1 takes and both call (R149),
and stage 1's minimum green is served first. -/
def Obligations.StartupRedEndsInTheFirstCycle : Prop :=
  ∀ (s : State) (a : Adoption) (p : StoredPlan) (st : StageRecord), Inv s → s.seq.state = .startupRed →
    s.seq.startupCount = 0 → s.coord.overrunRaised = false → s.instants.cycleEnd = false →
    a =
      (match s.coord.staged, s.coord.active with
      | some x, _ => x.adoption
      | none, some b => b
      | none, none => { plan := s.cfg.defaultPlan, reference := .daily }) →
    s.storedPlan a.plan = some p → p.plan.number = a.plan → p.plan.stage 1 = some st →
    ∃ t, exec .startupRedEnd s = .next t
      ∧ (s.coord.staged ≠ none ∨ s.coord.active = none → (t.slot a.plan).state = .active)
      ∧ t.coord.active = some a ∧ t.seq.startupCount = 0
      ∧ t.clock = s.clock ∧ t.timetable = s.timetable ∧ t.orders = s.orders ∧ t.line = s.line ∧ t.faults = s.faults
      ∧ (s.seq.heldTake = false → NominalBegun s t a p 1 st none ∧ t.preempt = s.preempt)
      ∧ (s.seq.heldTake = true → ∀ i, s.preempt.claimant = some i →
        t.seq.state = .yielded ∧ t.seq.run = none ∧ t.seq.heldTake = false ∧ t.preempt.heldTake = false
          ∧ t.coord.state = .suspended ∧ t.coord.cause = some .preemption ∧ t.preempt.running = some i
          ∧ t.preempt.waiting = (if i = .pe1 ∧ s.preempt.calls .pe2 = true then some .pe2 else none)
          ∧ t.preempt.save =
            some
              { source := i, entry := s.clock.reading, plan := a.plan, position := 0, stage := 1, interval := .green
                resumeStage := (s.route i).exitStage, override := none }
          ∧ (st.green &&& ~~~(s.route i).track ≠ 0 → 0 < st.gmin →
            t.preempt.state = .entering ∧ t.preempt.greenHold = some st.gmin))

/-! ### Demand, outputs, faults -/

/-- R123. The latch is set as a sample sets it, and the answer's one byte says what it was before, latched and clear told apart
by `shown`, whose coding the spec leaves open; of the request and the green that clears the latch the later one stands. -/
def Obligations.PlaceCallSetsTheLatch : Prop :=
  ∃ shown : Bool → Byte, shown true ≠ shown false ∧ ∀ (seq n : Byte) (s : State),
    (s.port.part = .configuring → exec (.placeCall seq [n]) s = .next (s.answered 0x28 seq .state []))
    ∧ (s.port.part = .running →
      (n.toNat = 0 ∨ 16 < n.toNat → exec (.placeCall seq [n]) s = .next (s.answered 0x28 seq .range []))
      ∧ (1 ≤ n.toNat → n.toNat ≤ 16 →
        let bit : BitVec 16 := 1#16 <<< (n.toNat - 1)
        let placed := fun s : State => ({ s with seq.latches := s.seq.latches ||| bit } : State)
        exec (.placeCall seq [n]) s =
            .next ((placed s).answered 0x28 seq .done [shown (s.seq.latches.getLsbD (n.toNat - 1))])
          ∧ (∀ levels : Levels, sampleDemand levels (placed s) = placed (sampleDemand levels s))
          ∧ (∀ levels : Levels, levels.demand = bit → sampleDemand levels s = placed s)
          ∧ ∀ (f : Figures) (k : Nat) (st : StageRecord), st.demandClass = 1 → st.demandInput = n.toNat →
            ((placed s).seq.begin f k st).latches.getLsbD (n.toNat - 1) = false
              ∧ (placed { s with seq := s.seq.begin f k st }).seq.latches.getLsbD (n.toNat - 1) = true))

/-- R134, R139, R140, R141: the flash toggles between its colours and DARK; a filter that has run its count changes its mark,
and the class is raised with the first group that is FAULTED and withdrawn with the last. With LAMP_OUT configured REPORT
nothing else follows from it. -/
def Obligations.FlashAndFiltersChange : Prop :=
  ∀ s : State, Inv s →
    (s.bank.flash = true → s.instants.toggle = true →
      ∃ t, exec .flashToggle s = .next t ∧ t = { s with bank := t.bank, instants.toggle := false }
        ∧ t.bank = { s.bank with drive := t.bank.drive, settle := t.bank.settle, phase := t.bank.phase, half := 5 }
        ∧ t.bank.phase ≠ s.bank.phase
        ∧ ∀ g : Group,
          t.bank.drive[g] =
              (if s.bank.phase = .on then .dark else if inSet g s.cfg.flashYellow then .yellow else .red)
            ∧ t.bank.settle[g] = if t.bank.drive[g] = s.bank.drive[g] then s.bank.settle[g] else 3)
    ∧ ∀ g : Group, s.port.part = .running → s.bank.flash = false →
      let green : State := { s with bank.greenFilter := s.bank.greenFilter.set g ⟨!(s.bank.greenFilter[g]).faulted, 0⟩ }
      let lamp : State := { s with bank.lampFilter := s.bank.lampFilter.set g ⟨!(s.bank.lampFilter[g]).faulted, 0⟩ }
      (s.cfg.greenCount ≤ (s.bank.greenFilter[g]).count →
        ((s.bank.greenFilter[g]).faulted = false → s.bank.greenSenseRaised = true →
          ∃ t, exec (.greenSenseFaulted g) s = .next t ∧ t = { green with port := t.port })
        ∧ ((s.bank.greenFilter[g]).faulted = true →
          let last := s.bank.greenSenseRaised = true ∧ ∀ h : Group, h ≠ g → (s.bank.greenFilter[h]).faulted = false
          ∃ t, exec (.greenSenseClean g) s = .next t
            ∧ (¬ last → t = { green with port := t.port })
            ∧ (last →
              t = { green with port := t.port, faults := t.faults, bank.greenSenseRaised := false }
                ∧ (t.faults.record .greenSense).state ≠ .active)))
      ∧ (s.cfg.lampCount ≤ (s.bank.lampFilter[g]).count → actionOf s.port.config .lampOut = some .report →
        ((s.bank.lampFilter[g]).faulted = false →
          ∃ t, exec (.lampOutFaulted g) s = .next t
            ∧ t = { lamp with port := t.port, faults := t.faults, bank.lampOutRaised := true }
            ∧ (s.bank.lampOutRaised = true → t.faults = s.faults)
            ∧ (s.bank.lampOutRaised = false →
              (t.faults.record .lampOut).state = .active ∧ (t.faults.record .lampOut).detail = some (g.val + 1)))
        ∧ ((s.bank.lampFilter[g]).faulted = true →
          let last := s.bank.lampOutRaised = true ∧ ∀ h : Group, h ≠ g → (s.bank.lampFilter[h]).faulted = false
          ∃ t, exec (.lampOutClean g) s = .next t
            ∧ (¬ last → t = { lamp with port := t.port })
            ∧ (last →
              t = { lamp with port := t.port, faults := t.faults, bank.lampOutRaised := false }
                ∧ (t.faults.record .lampOut).state ≠ .active)))

/-- R110, R133, R141, R142, R164, R172: a class whose action is FLASH puts the junction into flash when it is raised, be it
GREEN_SENSE at a filter that becomes FAULTED or CABINET_FLASH at a boundary whose sample is active. GREEN_SENSE, withdrawn by
the flash itself, is HELD. What the same sample brings about in other filters still happens (R139, R140, log 39). At a
boundary that raises CABINET_FLASH the model compares before it takes the cabinet sample, so that the lamp-out counts of that
sample still count (log 38), and counts its timers before both, so that the half-period of 5 stands whole after it (log 6):
both its choice. That the Coordinator holds no figures in SUSPENDED is the model's reading (log 32). -/
def Obligations.FlashTakesTheJunction : Prop :=
  ∀ s : State, Inv s → s.port.part = .running → s.faults.effective ≠ .flash → s.seq.state ≠ .flash →
    s.bank.flash = false → (s.preempt.state = .idle ↔ s.preempt.running = none) →
    (s.preempt.state = .idle → s.preempt.waiting = none ∧ s.preempt.save = none) →
    (∀ (c : FaultClass) (detail : Option Nat), actionOf s.port.config c = some .flash →
      InFlash (raise c detail s) ∧ (raise c detail s).faults.effective = .flash
        ∧ ((raise c detail s).faults.record c).state ≠ .clear)
    ∧ (∀ g : Group, s.cfg.greenCount ≤ (s.bank.greenFilter[g]).count → (s.bank.greenFilter[g]).faulted = false →
      s.bank.greenSenseRaised = false →
      ∃ t, exec (.greenSenseFaulted g) s = .next t ∧ InFlash t ∧ t.faults.effective = .flash
        ∧ (t.faults.record .greenSense).state = .held ∧ (t.faults.record .greenSense).detail = some (g.val + 1)
        ∧ t.bank.greenSenseRaised = false
        ∧ ∀ h : Group, h ≠ g → t.port.overflow = false →
          (s.cfg.greenCount ≤ (s.bank.greenFilter[h]).count → (s.bank.greenFilter[h]).faulted = false →
            { time := s.clock.reading, body := .readbackGroup h .greenSense true } ∈ t.port.reports)
          ∧ (s.cfg.lampCount ≤ (s.bank.lampFilter[h]).count → (s.bank.lampFilter[h]).faulted = false →
            { time := s.clock.reading, body := .readbackGroup h .lampOut true } ∈ t.port.reports))
    ∧ ∀ levels : Levels, s.instants.boundary = true → s.instants.round = false → levels.cabinetFlash = true →
      s.bank.cabinetRaised = false →
      ∃ t, exec (.decisecondBoundary levels) s = .next t ∧ InFlash t ∧ t.faults.effective = .flash
        ∧ (t.faults.record .cabinetFlash).state = .active ∧ t.bank.cabinetRaised = true
        ∧ t.seq.latches = s.seq.latches ||| levels.demand
        ∧ ∀ g : Group, s.bank.lampOutRaised = false → (s.faults.record .lampOut).state ≠ .active →
          inSet g s.cfg.monitored = true → s.bank.settle[g] = 0 → s.bank.drive[g] = .red →
          inSet g levels.redSense = false → (s.bank.lampFilter[g]).faulted = false →
          s.cfg.lampCount ≤ (s.bank.lampFilter[g]).count + 1 →
          (t.faults.record .lampOut).count = min 255 ((s.faults.record .lampOut).count + 1)
            ∧ (t.faults.record .lampOut).state ≠ .active

/-- R170, R171, R175, R111: what a raising and a withdrawal do to a record, and the cases of ACK_FAULT in RUNNING. A HELD
record acknowledged is CLEAR, DONE carries the effective action that then stands, and an action that leaves FLASH starts
startup red. -/
def Obligations.RecordsAreRaisedWithdrawnAndAcknowledged : Prop :=
  ∀ (c : FaultClass) (s : State),
    let r := s.faults.record c
    let others := fun t : State => ∀ x, x ≠ c → t.faults.record x = s.faults.record x
    (∀ detail, s.port.part = .running →
      others (raiseRecord c detail s)
      ∧ (r.state = .active → (raiseRecord c detail s).faults.record c = { r with detail := detail })
      ∧ (r.state ≠ .active →
        (raiseRecord c detail s).faults.record c =
          { state := .active, count := min 255 (r.count + 1)
            firstRaised := some (r.firstRaised.getD s.clock.reading), detail := detail }))
    ∧ (others (withdrawRecord c s)
      ∧ (r.state ≠ .active → withdrawRecord c s = s)
      ∧ (r.state = .active →
        (withdrawRecord c s).faults.record c =
          { r with
            state :=
              if actionOf s.port.config c = some .fallback ∨ actionOf s.port.config c = some .flash then .held
              else .clear }))
    ∧ ∀ seq n : Byte, s.port.part = .running →
      (n.toNat = 0 ∨ 8 < n.toNat → exec (.ackFault seq [n]) s = .next (s.answered 0x39 seq .range []))
      ∧ (n.toNat = c.place.val + 1 →
        (r.state = .clear → exec (.ackFault seq [n]) s = .next (s.answered 0x39 seq .state [0]))
        ∧ (r.state = .active → exec (.ackFault seq [n]) s = .next (s.answered 0x39 seq .state [1]))
        ∧ (r.state = .held → Inv s → s.coord.overrunRaised = false →
          ∃ t, exec (.ackFault seq [n]) s = .next t
            ∧ t.faults.record c = { r with state := .clear } ∧ others t
            ∧ t.faults.effective = mostSevere t.port.config t.faults
            ∧ t.port.held =
              some { request := 0x39, seq := seq, code := .done, body := [BitVec.ofNat 8 t.faults.effective.code] }
            ∧ (t.faults.effective = s.faults.effective → t.seq = s.seq ∧ t.coord = s.coord ∧ t.bank = s.bank)
            ∧ (s.seq.state = .flash → s.faults.effective = .flash → t.faults.effective ≠ .flash →
              t.seq.state = .startupRed ∧ t.seq.startupCount = s.cfg.startupRed ∧ t.bank.flash = false
                ∧ ∀ g : Group, t.bank.drive[g] = .red)
            ∧ t.clock = s.clock ∧ t.orders.entries = s.orders.entries ∧ t.line = s.line))

/-! ### Preemption -/

/-- R125, R146, R148 to R152, R155, R157, R158: the activation of an input whose run count is reached. In IDLE the claimant, PE1
where both call, takes the junction in RUN, with the hand-over taken, the save record written and the green hold served, PE2
waiting where both call; the take is held in FLASH and STARTUP_RED. PE1 takes over a run of PE2 in ENTERING or DWELL, PE2
waiting if its level is still ACTIVE; a green hold still running is kept, but with nothing to clear DWELL begins at once. PE2
waits for a run of PE1; in LEAVING a new run begins. The suspension withdraws
TRANSITION_OVERRUN (R95). That the Coordinator holds no figures in SUSPENDED is the model's reading (log 32). The hand-over
carries the stage, its interval and the ds run in it, to C_cur where a cycle end is due and not taken (log 16), the following
set and the trailing record; of it clear the trailing groups and in a YELLOW the stage's groups outside the following set,
each with the yellow left, and an ALL_RED leaves what is left of it. The order of the clearing groups is the model's choice
(log 53). -/
def Obligations.ActivationsTakeHoldOrWait : Prop :=
  (∀ (s : State) (r : RunState) (f : Figures) (p : StoredPlan) (st : StageRecord), s.seq.run = some r →
    s.seq.figures = some f → s.storedPlan f.plan = some p → p.plan.stage r.stage = some st →
    let reached := s.coord.position + if s.instants.cycleEnd = true then 1 else 0
    let holder : Holder := { holder := .stage r.stage, yellow := st.yellow, allRed := st.allRed }
    let trailing : List Clearing :=
      s.seq.trailing.map fun x => { group := x.group, holder := holder, yellow := x.yellow }
    ∃ h, s.handOver = some h
      ∧ h.plan = f.plan ∧ h.stage = r.stage ∧ h.interval = r.interval ∧ h.record = st
      ∧ h.following = r.following.getD 0 ∧ h.trailing = s.seq.trailing
      ∧ (r.interval = .green →
        h.elapsed = reached - r.greenStart ∧ h.clearing = trailing ∧ h.allRed = none)
      ∧ (r.interval = .yellow →
        h.elapsed = reached - (r.finish - st.yellow) ∧ h.allRed = none
          ∧ h.clearing = trailing
            ++ (groupList.filter fun g => inSet g st.green && !inSet g (r.following.getD 0)).map fun g =>
              { group := g, holder := holder, yellow := st.yellow - h.elapsed })
      ∧ (r.interval = .allRed →
        h.elapsed = reached - (r.finish - st.allRed) ∧ h.clearing = trailing
          ∧ h.allRed = some (st.allRed - h.elapsed)))
  ∧ ∀ (i : PreemptInput) (s : State), Inv s → s.port.part = .running → s.cfg.filterCount ≤ (s.preempt.input i).count →
    (s.preempt.input i).active = false → (s.preempt.input i).ignored = false →
    (s.coord.overrunRaised = true → actionOf s.port.config .transitionOverrun = some .report) →
    let called : State := { s with preempt := s.preempt.setInput i ⟨true, 0, false⟩ }
    let j : PreemptInput := if i = .pe1 ∨ s.preempt.calls .pe1 = true then .pe1 else .pe2
    let both := j = .pe1 ∧ (i = .pe2 ∨ s.preempt.calls .pe2 = true)
    ∃ t, exec (.preemptActivation i) s = .next t
      ∧ t.preempt.input i = ⟨true, 0, false⟩ ∧ t.preempt.input (otherInput i) = s.preempt.input (otherInput i)
      ∧ t.clock = s.clock ∧ t.timetable = s.timetable ∧ t.orders = s.orders ∧ t.line = s.line
      ∧ (s.coord.overrunRaised = false ∨ s.preempt.state ≠ .idle → t.faults = s.faults)
      ∧ (∀ n, t.storedPlan n = s.storedPlan n) ∧ t.seq.latches = s.seq.latches
      ∧ (s.preempt.state = .idle →
        (s.seq.state = .flash ∨ s.seq.state = .startupRed →
          t = { called with preempt := { called.preempt with heldTake := true }, seq.heldTake := true })
        ∧ (s.seq.state = .run → ∀ h, s.handOver = some h →
          t.seq.state = .yielded ∧ t.seq.run = none ∧ t.seq.figures = none ∧ t.seq.trailing = []
            ∧ t.coord.state = .suspended ∧ t.coord.cause = some .preemption ∧ t.coord.position = s.coord.position
            ∧ t.coord.figures = none ∧ t.coord.transition = none ∧ t.coord.finalMark = false
            ∧ t.coord.overrunRaised = false
            ∧ (s.coord.overrunRaised = true → (t.faults.record .transitionOverrun).state ≠ .active)
            ∧ t.coord.active = s.coord.active ∧ t.coord.staged = s.coord.staged
            ∧ t.preempt.running = some j ∧ t.preempt.waiting = (if both then some .pe2 else none)
            ∧ t.preempt.save =
              some
                { source := j, entry := s.clock.reading, plan := h.plan, position := s.coord.position
                  stage := h.stage, interval := h.interval, resumeStage := (s.route j).exitStage, override := none }
            ∧ (let hold :=
                if h.interval = .green ∧ h.record.green &&& ~~~(s.route j).track ≠ 0 then h.record.gmin - h.elapsed
                else 0
              let stage : Holder := { holder := .stage h.stage, yellow := h.record.yellow, allRed := h.record.allRed }
              (0 < hold → t.preempt.state = .entering ∧ t.preempt.greenHold = some hold ∧ t.bank = s.bank)
              ∧ (hold = 0 →
                EnteringCleared s.bank (s.route j).track
                  (h.clearing
                    ++ (groupList.filter fun g =>
                        decide (s.bank.drive[g] = .green) && !inSet g (s.route j).track).map fun g =>
                      { group := g, holder := stage, yellow := h.record.yellow })
                  h.allRed t))))
      ∧ (s.preempt.state = .entering ∨ s.preempt.state = .dwell →
        (s.preempt.running = some i → t = called)
        ∧ (i = .pe2 → s.preempt.running = some .pe1 →
          t = { called with preempt := { called.preempt with waiting := some .pe2 } })
        ∧ (i = .pe1 → s.preempt.running = some .pe2 →
          t.preempt.running = some .pe1 ∧ t.preempt.save = s.preempt.save
            ∧ t.preempt.waiting = (if s.preempt.pe2.active = true then some .pe2 else none)
            ∧ t.coord = s.coord ∧ t.seq = s.seq
            ∧ (let nothing := s.preempt.clearing = [] ∧ s.preempt.allRed = none
                ∧ ∀ g : Group, s.bank.drive[g] = .green → inSet g (s.route .pe1).track = true
            (∀ n, 0 < n → s.preempt.greenHold = some n → ¬ nothing →
              t.preempt.state = .entering ∧ t.preempt.greenHold = some n ∧ t.preempt.clearing = s.preempt.clearing
                ∧ t.bank = s.bank)
            ∧ (s.preempt.greenHold.getD 0 = 0 ∨ nothing →
              EnteringCleared s.bank (s.route .pe1).track
                (s.preempt.clearing ++ newClearing s (s.route .pe1).track) s.preempt.allRed t))))
      ∧ (s.preempt.state = .leaving →
        t.preempt.running = some i ∧ t.preempt.save = s.preempt.save ∧ t.coord = s.coord ∧ t.seq = s.seq
          ∧ t.preempt.waiting = (if s.preempt.waiting = some i then none else s.preempt.waiting)
          ∧ t.preempt.expected = none
          ∧ EnteringCleared s.bank (s.route i).track
            (s.preempt.clearing ++ newClearing s (s.route i).track) s.preempt.allRed t)

/-- R146, R148, R153 to R155, R158, R159: a release clears the input's level and ignore mark, withdraws a held take that no
input calls for, an ignored one counted as not calling (log 19), ends a wait, and ends the DWELL of its own run once the
minimum dwell has passed. The minimum dwell ends a DWELL whose input is INACTIVE; the maximum hold ends one whose input is
ACTIVE, sets its ignore mark and raises PREEMPT_STUCK, here configured REPORT. Where nothing has to clear the junction is handed
back at once (R160), with what R101 and R104 say of the requested record and the slots (the duration reported: log 46). The order
of the clearing groups is the model's choice (log 53). -/
def Obligations.ReleasesAndDwellLimitsEndTheRun : Prop :=
  ∀ (i : PreemptInput) (s : State), Inv s → s.port.part = .running → s.coord.overrunRaised = false →
    s.preempt.clearing = [] ∨ s.preempt.state ≠ .dwell → s.preempt.allRed = none ∨ s.preempt.state ≠ .dwell →
    (s.cfg.filterCount ≤ (s.preempt.input i).count → (s.preempt.input i).active = true →
      (s.preempt.input i).ignored = false →
      let quiet : State := { s with preempt := s.preempt.setInput i ⟨false, 0, false⟩ }
      let left : State := if s.preempt.waiting = some i then { quiet with preempt.waiting := none } else quiet
      ∃ t, exec (.preemptRelease i) s = .next t
        ∧ t.preempt.input i = ⟨false, 0, false⟩ ∧ t.preempt.input (otherInput i) = s.preempt.input (otherInput i)
        ∧ (s.preempt.state = .idle →
          (s.preempt.heldTake = true → s.preempt.calls (otherInput i) = false →
            t = { left with preempt.heldTake := false, seq.heldTake := false })
          ∧ (s.preempt.heldTake = false ∨ s.preempt.calls (otherInput i) = true → t = left))
        ∧ (s.preempt.state = .entering ∨ s.preempt.state = .leaving → t = left)
        ∧ (s.preempt.state = .dwell →
          (s.preempt.running = some i → (s.route i).minDwell ≤ s.preempt.dwell → DwellEnded left t i)
          ∧ (s.preempt.running ≠ some i ∨ s.preempt.dwell < s.runningRoute.minDwell → t = left)))
    ∧ (s.cfg.filterCount ≤ (s.preempt.input i).count → (s.preempt.input i).active = true →
      (s.preempt.input i).ignored = true →
      ¬ (s.preempt.state = .dwell ∧ s.preempt.running = some i ∧ s.runningRoute.minDwell ≤ s.preempt.dwell) →
      actionOf s.port.config .preemptStuck = some .report →
      let lapses := s.preempt.state = .idle ∧ s.preempt.heldTake = true ∧ s.preempt.calls (otherInput i) = false
      ∃ t, exec (.preemptRelease i) s = .next t
        ∧ t.preempt =
          { s.preempt.setInput i ⟨false, 0, false⟩ with
            waiting := if s.preempt.waiting = some i then none else s.preempt.waiting
            heldTake := if lapses then false else s.preempt.heldTake, stuckRaised := t.preempt.stuckRaised }
        ∧ t = { s with preempt := t.preempt, seq := t.seq, faults := t.faults, port := t.port }
        ∧ t.seq = { s.seq with heldTake := if lapses then false else s.seq.heldTake }
        ∧ (s.preempt.stuckRaised = true → (s.preempt.input (otherInput i)).ignored = false →
          t.preempt.stuckRaised = false ∧ (t.faults.record .preemptStuck).state ≠ .active)
        ∧ ((s.preempt.input (otherInput i)).ignored = true → t.faults = s.faults))
    ∧ (s.preempt.state = .dwell → s.preempt.running = some i →
      ((s.route i).minDwell ≤ s.preempt.dwell → (s.preempt.input i).active = false →
        ∃ t, exec .minimumDwellReached s = .next t ∧ DwellEnded s t i ∧ t.faults = s.faults
          ∧ t.preempt.stuckRaised = s.preempt.stuckRaised)
      ∧ ((s.route i).maxHold ≠ 0 → (s.route i).maxHold ≤ s.preempt.dwell → (s.preempt.input i).active = true →
        (s.preempt.input i).ignored = false → actionOf s.port.config .preemptStuck = some .report →
        ∃ t, exec .maximumHold s = .next t ∧ DwellEnded s t i
          ∧ (t.preempt.input i).ignored = true ∧ (t.preempt.input i).active = true ∧ t.preempt.stuckRaised = true
          ∧ (s.preempt.stuckRaised = false →
            (t.faults.record .preemptStuck).state = .active
              ∧ (t.faults.record .preemptStuck).detail = some (if i = .pe1 then 1 else 2))))

/-- R151, R152, R153, R159, R160: when the green hold has run the groups outside the track set clear; a clearing group whose
yellow has run is RED, and after the last one the all-red of the groups cleared begins, the greatest over all of them (log 18);
when it has run, at once where it is 0, DWELL begins, or in LEAVING the junction is handed back, the requested record and the
slots being as R101 and R104 say and PREEMPT_ENDED posted (its duration: log 46). The order of the clearing and trailing groups
is the model's choice (log 53). -/
def Obligations.ClearingRunsToDwellOrHandBack : Prop :=
  ∀ (i : PreemptInput) (s : State), Inv s → s.preempt.running = some i → s.coord.overrunRaised = false →
    let dwells := fun t : State =>
      t.preempt.state = .dwell ∧ t.preempt.running = some i ∧ t.preempt.dwell = 0 ∧ t.preempt.clearing = []
        ∧ t.preempt.waiting = s.preempt.waiting ∧ t.preempt.save = s.preempt.save
        ∧ (∀ g : Group, inSet g (s.route i).track = true →
          t.preempt.holders[g] =
            some { holder := .route i, yellow := (s.route i).yellow, allRed := (s.route i).allRed })
    (s.preempt.state = .entering → s.preempt.greenHold = some 0 →
      ∃ t, exec .greenHoldEnd s = .next t
        ∧ EnteringCleared s.bank (s.route i).track (s.preempt.clearing ++ newClearing s (s.route i).track)
          s.preempt.allRed t
        ∧ t.coord = s.coord ∧ t.seq = s.seq ∧ t.preempt.save = s.preempt.save ∧ t.clock = s.clock)
    ∧ (∀ g : Group, s.preempt.greenHold = none → (∃ c ∈ s.preempt.clearing, c.group = g ∧ c.yellow = 0) →
      let rest := s.preempt.clearing.filter fun c => decide (c.group ≠ g)
      let red := fun h : Group => if h = g then Aspect.red else s.bank.drive[h]
      ∃ n, s.preempt.clearedAllRed ≤ n ∧ (∀ c ∈ s.preempt.clearing, c.group = g → c.holder.allRed ≤ n)
        ∧ (n = s.preempt.clearedAllRed ∨ ∃ c ∈ s.preempt.clearing, c.group = g ∧ c.holder.allRed = n)
        ∧ ∃ t, exec (.clearingYellowEnd g) s = .next t
          ∧ (rest ≠ [] →
            t = { s with bank := t.bank, preempt.clearing := rest, preempt.clearedAllRed := n }
              ∧ Redriven s.bank t.bank red)
          ∧ (rest = [] → 0 < n →
            t =
              { s with
                bank := t.bank, preempt.clearing := [], preempt.clearedAllRed := 0, preempt.allRed := some n }
              ∧ Redriven s.bank t.bank red)
          ∧ (rest = [] → n = 0 → s.preempt.state = .entering → dwells t)
          ∧ (rest = [] → n = 0 → s.preempt.state = .leaving →
            ∃ bank, Redriven s.bank bank red ∧ HandedBack { s with bank := bank } t (s.route i).yellow))
    ∧ (s.preempt.clearing = [] → s.preempt.allRed = some 0 →
      ∃ t, exec .preemptAllRedEnd s = .next t
        ∧ (s.preempt.state = .entering →
          dwells t ∧ Redriven s.bank t.bank (fun g => if inSet g (s.route i).track = true then .green else .red)
            ∧ t.coord = s.coord ∧ t.seq = s.seq)
        ∧ (s.preempt.state = .leaving → HandedBack s t (s.route i).yellow))

/-- R161: the cases of REWRITE_SAVE in RUNNING. An accepted one writes the override, stages its slot and empties the
Coordinator's staged adoption. -/
def Obligations.RewriteSaveFollowsItsCases : Prop :=
  ∀ (seq : Byte) (body : List Byte) (s : State), Inv s → s.port.part = .running → body.length = 9 →
    let plan := field body 0 1
    let kind := field body 1 1
    let stage := field body 8 1
    let ok := 1 ≤ plan ∧ plan ≤ 32 ∧ kind ≤ 1 ∧ 1 ≤ stage ∧ stage ≤ 8
      ∧ (kind = 1 → (timeField body 2).ms < 604800000)
    let o : Override :=
      { adoption := { plan := plan, reference := if kind = 0 then .daily else .fixed (timeField body 2) }
        stage := stage }
    let answers := fun (code : ResponseCode) (answer : List Byte) =>
      exec (.rewriteSave seq body) s = .next (s.answered 0x31 seq code answer)
    (¬ ok → answers .range [])
    ∧ (ok → s.preempt.state = .idle → answers .state [])
    ∧ (ok → s.preempt.state ≠ .idle → ∀ r, s.preempt.save = some r →
      ((s.slot plan).state = .empty → answers .invalid [7, BitVec.ofNat 8 plan])
      ∧ ∀ p, s.storedPlan plan = some p →
        (p.plan.stageCount < stage → answers .invalid [8, 0])
        ∧ (stage ≤ p.plan.stageCount →
          ∃ t, exec (.rewriteSave seq body) s = .next t
            ∧ t =
              { s with
                preempt.save := some { r with override := some o }, coord.staged := none, store := t.store
                port := t.port }
            ∧ t.port.held = some { request := 0x31, seq := seq, code := .done, body := [] }
            ∧ (t.slot plan).state = (if (s.slot plan).state = .active then .active else .staged)
            ∧ ∀ n, t.storedPlan n = s.storedPlan n ∧ (t.slot n).pinned = (s.slot n).pinned
              ∧ (n ≠ plan →
                (t.slot n).state = if (s.slot n).state = .staged then .stored else (s.slot n).state)))

/-! ### Events that are not due -/

/-- The model's choice of log 3: an event of the clock that is not due and does not fall due on the way to the next decisecond
boundary, an event of the timing blocks that neither is due nor falls due at that boundary, and an event of the samples that
is not due change nothing. -/
def Obligations.EventsThatAreNotDueChangeNothing : Prop :=
  ∀ (c : Instr) (due : State → Bool) (s : State),
    (clockDue c = some due → due (runUntil due runFuel s) = false → exec c s = .next s)
    ∧ (boundaryDue c = some due → due s = false → due (timed (toBoundary s)) = false → exec c s = .next s)
    ∧ (sampleDue c = some due → due s = false → exec c s = .next s)
end

