-- ==== Sys2Proof/Laws/Bytes.lean ====
section
/-! SUPPORT. Bytes written and read back (R213): the length and the value of a written number, and the fields of a run of
bytes. -/

namespace Sys2Proof.Machine

set_option Elab.async false

@[simp] theorem be_length (n v : Nat) : (be n v).length = n := by
  induction n generalizing v with
  | zero => rfl
  | succ n ih => simp [be, ih]

@[simp] theorem beInt_length (n : Nat) (v : Int) : (beInt n v).length = n := be_length _ _

@[simp] theorem timeBytes_length (t : NetTime) : (timeBytes t).length = 6 := by simp [timeBytes]

theorem readBe_snoc (l : List Byte) (b : Byte) : readBe (l ++ [b]) = readBe l * 256 + b.toNat := by
  simp [readBe]

/-- A number written in `n` bytes reads back modulo 256^n. -/
theorem readBe_be (n v : Nat) : readBe (be n v) = v % 256 ^ n := by
  induction n generalizing v with
  | zero => simp [be, readBe, Nat.mod_one]
  | succ n ih =>
    rw [be, readBe_snoc, ih]
    have h : 256 ^ (n + 1) = 256 * 256 ^ n := by rw [Nat.pow_succ, Nat.mul_comm]
    rw [h, Nat.mod_mul, BitVec.toNat_ofNat]
    omega

theorem readBe_be_of_lt {n v : Nat} (h : v < 256 ^ n) : readBe (be n v) = v := by
  rw [readBe_be, Nat.mod_eq_of_lt h]

theorem readBe_lt (l : List Byte) : readBe l < 256 ^ l.length := by
  induction l using List.reverseRecOn with
  | nil => simp [readBe]
  | append_singleton l b ih =>
    rw [readBe_snoc, List.length_append, List.length_singleton, Nat.pow_succ]
    have := b.isLt
    omega

/-- A run of `n` bytes is what its number is written as. -/
theorem be_readBe (l : List Byte) : be l.length (readBe l) = l := by
  induction l using List.reverseRecOn with
  | nil => rfl
  | append_singleton l b ih =>
    have hb := b.isLt
    rw [List.length_append, List.length_singleton, be, readBe_snoc,
      show (readBe l * 256 + b.toNat) / 256 = readBe l by omega, ih]
    congr 2
    apply BitVec.eq_of_toNat_eq
    simp only [BitVec.toNat_ofNat]
    omega

/-- A field that lies within the first part of a run. -/
theorem field_left (a b : List Byte) (o n : Nat) (h : o + n ≤ a.length) : field (a ++ b) o n = field a o n := by
  unfold field
  rw [List.drop_append_of_le_length (by omega), List.take_append_of_le_length (by simp; omega)]

/-- A field that lies within the rest of a run. -/
theorem field_right (a b : List Byte) (o n : Nat) (h : a.length ≤ o) : field (a ++ b) o n = field b (o - a.length) n := by
  unfold field
  rw [List.drop_append, List.drop_eq_nil_of_le h, List.nil_append]

/-- The field a run of bytes begins with. -/
theorem field_be (n v : Nat) (rest : List Byte) : field (be n v ++ rest) 0 n = v % 256 ^ n := by
  rw [field_left _ _ _ _ (by simp)]
  have h : List.take n (be n v) = be n v := List.take_of_length_le (by simp)
  rw [field, List.drop_zero, h, readBe_be]

theorem field_lt (body : List Byte) (o n : Nat) : field body o n < 256 ^ n := by
  unfold field
  refine Nat.lt_of_lt_of_le (readBe_lt _) (Nat.pow_le_pow_right (by omega) ?_)
  simp

/-- A field that lies within a run, written again. -/
theorem be_field (body : List Byte) (o n : Nat) (h : o + n ≤ body.length) :
    be n (field body o n) = (body.drop o).take n := by
  unfold field
  have hl : ((body.drop o).take n).length = n := by simp; omega
  have := be_readBe ((body.drop o).take n)
  rw [hl] at this
  exact this

end Sys2Proof.Machine
end

