-- ==== Sys2Proof/Laws/Kept.lean ====
section
/-! SUPPORT. Raising and withdrawing faults, delivering an effective action, adopting a plan: each leaves what `Kept` lists
and keeps the invariant. -/

namespace Sys2Proof.Machine

set_option Elab.async false

theorem Kept.refl (s : State) : Kept s s := by
  constructor <;> first | rfl | (intro n; rfl) | exact ⟨rfl, rfl⟩

theorem Kept.trans {s t u : State} (h : Kept s t) (k : Kept t u) : Kept s u where
  clock := k.clock.trans h.clock
  entries := k.entries.trans h.entries
  specials := k.specials.trans h.specials
  editCount := k.editCount.trans h.editCount
  orders := k.orders.trans h.orders
  issued := k.issued.trans h.issued
  line := k.line.trans h.line
  part := k.part.trans h.part
  config := k.config.trans h.config
  held := k.held.trans h.held
  refusedPackets := ⟨k.refusedPackets.1.trans h.refusedPackets.1, k.refusedPackets.2.trans h.refusedPackets.2⟩
  plans := fun n => (k.plans n).trans (h.plans n)
  pinned := fun n => (k.pinned n).trans (h.pinned n)
  latches := k.latches.trans h.latches
  inputs := ⟨k.inputs.1.trans h.inputs.1, k.inputs.2.trans h.inputs.2⟩
  pins := k.pins.trans h.pins
  draws := k.draws.trans h.draws
  pending := k.pending.trans h.pending

/-- What a delivery does: it leaves what `Kept` lists, and keeps the invariant. -/
structure Delivers (s t : State) : Prop where
  kept : Kept s t
  inv : Rooms s → Rooms t

theorem Delivers.refl (s : State) : Delivers s s := ⟨Kept.refl s, id⟩

theorem Delivers.trans {s t u : State} (h : Delivers s t) (k : Delivers t u) : Delivers s u :=
  ⟨h.kept.trans k.kept, fun i => k.inv (h.inv i)⟩

/-- A change of nothing but what `Kept` does not list and the invariant does not speak of. -/
theorem Delivers.plain {s t : State} (clock : t.clock = s.clock := by rfl) (store : t.store = s.store := by rfl)
    (entries : t.timetable.entries = s.timetable.entries := by rfl)
    (specials : t.timetable.specials = s.timetable.specials := by rfl)
    (edits : t.timetable.editCount = s.timetable.editCount := by rfl)
    (orders : t.orders.entries = s.orders.entries := by rfl) (issued : t.orders.issued = s.orders.issued := by rfl)
    (coord : s.coord.Sound → t.coord.Sound := by exact id)
    (bank : s.bank.Sound → t.bank.Sound := by exact id) (line : t.line = s.line := by rfl)
    (port : t.port = s.port := by rfl) (latches : t.seq.latches = s.seq.latches := by rfl)
    (pe1 : t.preempt.pe1 = s.preempt.pe1 := by rfl) (pe2 : t.preempt.pe2 = s.preempt.pe2 := by rfl)
    (pins : t.pins = s.pins := by rfl) (draws : t.draws = s.draws := by rfl)
    (pending : t.pending = s.pending := by rfl)
    (faults : (∀ c, (s.faults.record c).state = .clear) → ∀ c, (t.faults.record c).state = .clear := by exact id) :
    Delivers s t where
  kept :=
    { clock := clock, entries := entries, specials := specials, editCount := edits, orders := orders, issued := issued,
      line := line, part := by rw [port], config := by rw [port], held := by rw [port],
      refusedPackets := by rw [port]; exact ⟨rfl, rfl⟩,
      plans := fun n => by unfold State.storedPlan State.slot; rw [store],
      pinned := fun n => by unfold State.slot; rw [store], latches := latches, inputs := ⟨pe1, pe2⟩, pins := pins,
      draws := draws, pending := pending }
  inv := fun h =>
    ⟨clock ▸ h.clock, store ▸ h.store, ⟨entries ▸ h.timetable.entries, specials ▸ h.timetable.specials,
      edits ▸ h.timetable.editCount, entries ▸ h.timetable.inOrder, entries ▸ h.timetable.apart,
      specials ▸ h.timetable.daysInOrder⟩, ⟨orders ▸ h.orders.entries, issued ▸ h.orders.issued, orders ▸ h.orders.keys,
      orders ▸ h.orders.placeholders, issued ▸ h.orders.stamps, orders ▸ h.orders.oneInForce⟩, coord h.coord, bank h.bank, line ▸ h.line, port ▸ h.port,
      fun hp => faults (h.quiet (by rw [← port]; exact hp))⟩

/-- A change of the slots' states that keeps plans, pins and soundness, and of nothing else `Kept` lists. -/
theorem Delivers.slots {s t : State} {u : PlanStore} (h : Delivers s { t with store := s.store }) (e : t.store = u)
    (hp : ∀ n, (u.slot n).plan = (s.store.slot n).plan) (hq : ∀ n, (u.slot n).pinned = (s.store.slot n).pinned)
    (hs : s.store.Sound → u.Sound) : Delivers s t where
  kept :=
    { h.kept with
      plans := fun n => by unfold State.storedPlan State.slot; rw [e]; exact hp n
      pinned := fun n => by unfold State.slot; rw [e]; exact hq n }
  inv := fun i =>
    ⟨(h.inv i).clock, e ▸ hs i.store, (h.inv i).timetable, (h.inv i).orders, (h.inv i).coord, (h.inv i).bank, (h.inv i).line,
      (h.inv i).port, (h.inv i).quiet⟩

/-! ### Reports -/

theorem countUp_le (bound n : Nat) : countUp bound n ≤ bound := Nat.min_le_left _ _

theorem post_sound (body : ReportBody) (s : State) (h : s.port.Sound) : (post body s).port.Sound := by
  unfold post
  split
  · refine ⟨?_, h.dropped, h.configured⟩
    simp only [List.length_append, List.length_singleton]
    omega
  · exact ⟨h.reports, countUp_le _ _, h.configured⟩

/-- A report changes the report queue, the overflow mark and the dropped count alone. -/
theorem post_eq (body : ReportBody) (s : State) :
    post body s =
      { s with
        port.reports := (post body s).port.reports, port.overflow := (post body s).port.overflow
        port.dropped := (post body s).port.dropped } := by
  unfold post; split <;> rfl

theorem delivers_post (body : ReportBody) (s : State) : Delivers s (post body s) := by
  constructor
  · rw [post_eq]; constructor <;> first | rfl | (intro n; rfl) | exact ⟨rfl, rfl⟩
  · intro h
    have hp := post_sound body s h.port
    rw [post_eq] at hp ⊢
    exact ⟨h.clock, h.store, h.timetable, h.orders, h.coord, h.bank, h.line, hp, h.quiet⟩

end Sys2Proof.Machine
end

