-- ==== Sys2Proof/Laws/Store.lean ====
section
/-! SUPPORT. The slots: what each request to the Plan Store does to every slot, and that each keeps the store sound. -/

namespace Sys2Proof.Machine

set_option Elab.async false

theorem slot_eq_get (store : PlanStore) (n : Nat) :
    store.slot n = if h : 1 ≤ n ∧ n ≤ 32 then store.slots[n - 1]'(by omega) else Slot.empty := by
  unfold PlanStore.slot
  by_cases h0 : n = 0
  · subst h0; simp
  · by_cases h1 : n ≤ 32
    · have h2 : n - 1 < 32 := by omega
      have h3 : 1 ≤ n ∧ n ≤ 32 := by omega
      simp [h0, h2, h3, Vector.getD]
    · have h2 : ¬ n - 1 < 32 := by omega
      have h3 : ¬ (1 ≤ n ∧ n ≤ 32) := by omega
      simp [h0, h2, h3, Vector.getD]

theorem get_eq_slot (store : PlanStore) (i : Fin 32) : store.slots[i] = store.slot (i.val + 1) := by
  rw [slot_eq_get]
  have : 1 ≤ i.val + 1 ∧ i.val + 1 ≤ 32 := by omega
  simp [this]

theorem slot_outside (store : PlanStore) (n : Nat) (h : ¬ (1 ≤ n ∧ n ≤ 32)) : store.slot n = Slot.empty := by
  rw [slot_eq_get]; simp [h]

/-- A slot replaced: the other slots stay as they were (R21). -/
theorem slot_put (store : PlanStore) (n m : Nat) (x : Slot) :
    (store.put n x).slot m = if m = n ∧ 1 ≤ n ∧ n ≤ 32 then x else store.slot m := by
  simp only [slot_eq_get, PlanStore.put]
  by_cases h0 : n = 0
  · subst h0; simp
  · by_cases hm : 1 ≤ m ∧ m ≤ 32
    · by_cases hmn : m = n
      · subst hmn; simp [h0, hm]
      · have : m - 1 ≠ n - 1 := by omega
        have h' : n - 1 ≠ m - 1 := fun h => this h.symm
        simp [h0, hm, hmn, h']
    · by_cases hmn : m = n
      · subst hmn; simp [hm]
      · simp [hm, hmn]

/-- Every slot through a map that keeps an EMPTY one. -/
theorem slot_map (store : PlanStore) (f : Slot → Slot) (hf : f Slot.empty = Slot.empty) (n : Nat) :
    ({ store with slots := store.slots.map f } : PlanStore).slot n = f (store.slot n) := by
  simp only [slot_eq_get]
  by_cases hn : 1 ≤ n ∧ n ≤ 32 <;> simp [hn, hf]

/-- R35. -/
theorem slot_clearStaged (store : PlanStore) (n : Nat) :
    store.clearStaged.slot n =
      if (store.slot n).state = .staged then { store.slot n with state := .stored } else store.slot n :=
  slot_map store _ (by simp [Slot.empty]) n

/-- R34. -/
theorem slot_clearActive (store : PlanStore) (n : Nat) :
    store.clearActive.slot n =
      if (store.slot n).state = .active then { store.slot n with state := .stored } else store.slot n :=
  slot_map store _ (by simp [Slot.empty]) n

theorem slot_setState (store : PlanStore) (n m : Nat) (st : SlotState) :
    (store.setState n st).slot m =
      if m = n ∧ 1 ≤ n ∧ n ≤ 32 then { store.slot n with state := st } else store.slot m :=
  slot_put store n m _

/-- The soundness of the store, slot by slot. -/
theorem store_sound_iff (store : PlanStore) :
    store.Sound ↔
      (∀ m n, (store.slot m).state = .active → (store.slot n).state = .active → m = n)
        ∧ (∀ m n, (store.slot m).state = .staged → (store.slot n).state = .staged → m = n)
        ∧ (∀ n, (store.slot n).state = .empty ↔ (store.slot n).plan = none)
        ∧ ∀ n p, (store.slot n).plan = some p → p.Sound n := by
  constructor
  · intro h
    have inside : ∀ n, (store.slot n).state ≠ .empty → 1 ≤ n ∧ n ≤ 32 := by
      intro n hn
      by_contra hc
      exact hn (by rw [slot_outside store n hc]; rfl)
    have get : ∀ n (hn : 1 ≤ n ∧ n ≤ 32), store.slot n = store.slots[(⟨n - 1, by omega⟩ : Fin 32)] := by
      intro n hn
      rw [get_eq_slot]
      congr 1
      show n = n - 1 + 1
      omega
    refine ⟨fun m n hm hn => ?_, fun m n hm hn => ?_, fun n => ?_, fun n p hp => ?_⟩
    · have im := inside m (by rw [hm]; decide)
      have jn := inside n (by rw [hn]; decide)
      have := h.oneActive ⟨m - 1, by omega⟩ ⟨n - 1, by omega⟩ (by rw [← get m im]; exact hm) (by rw [← get n jn]; exact hn)
      have := congrArg Fin.val this
      simp only at this
      omega
    · have im := inside m (by rw [hm]; decide)
      have jn := inside n (by rw [hn]; decide)
      have := h.oneStaged ⟨m - 1, by omega⟩ ⟨n - 1, by omega⟩ (by rw [← get m im]; exact hm) (by rw [← get n jn]; exact hn)
      have := congrArg Fin.val this
      simp only at this
      omega
    · by_cases hn : 1 ≤ n ∧ n ≤ 32
      · rw [get n hn]; exact h.emptyHoldsNone _
      · rw [slot_outside store n hn]; simp [Slot.empty]
    · by_cases hn : 1 ≤ n ∧ n ≤ 32
      · have := h.plans ⟨n - 1, by omega⟩ p (by rw [← get n hn]; exact hp)
        simpa only [Nat.sub_add_cancel hn.1] using this
      · rw [slot_outside store n hn] at hp; cases hp
  · rintro ⟨h1, h2, h3, h4⟩
    refine ⟨fun i j hi hj => ?_, fun i j hi hj => ?_, fun i => ?_, fun i p hp => ?_⟩
    · rw [get_eq_slot] at hi hj
      have := h1 _ _ hi hj
      exact Fin.ext (by omega)
    · rw [get_eq_slot] at hi hj
      have := h2 _ _ hi hj
      exact Fin.ext (by omega)
    · rw [get_eq_slot]; exact h3 _
    · rw [get_eq_slot] at hp; exact h4 _ p hp

theorem clearStaged_plan (store : PlanStore) (n : Nat) : (store.clearStaged.slot n).plan = (store.slot n).plan := by
  rw [slot_clearStaged]; split <;> rfl

theorem clearActive_plan (store : PlanStore) (n : Nat) : (store.clearActive.slot n).plan = (store.slot n).plan := by
  rw [slot_clearActive]; split <;> rfl

theorem clearStaged_sound (store : PlanStore) (h : store.Sound) : store.clearStaged.Sound := by
  rw [store_sound_iff] at *
  obtain ⟨h1, h2, h3, h4⟩ := h
  refine ⟨fun m n => ?_, fun m n => ?_, fun n => ?_, fun n p hp => h4 n p (clearStaged_plan store n ▸ hp)⟩
  · simp only [slot_clearStaged]
    have := h1 m n
    split <;> split <;> simp_all
  · simp only [slot_clearStaged]
    split <;> split <;> simp_all
  · have := h3 n
    simp only [slot_clearStaged]
    split <;> simp_all

theorem clearActive_sound (store : PlanStore) (h : store.Sound) : store.clearActive.Sound := by
  rw [store_sound_iff] at *
  obtain ⟨h1, h2, h3, h4⟩ := h
  refine ⟨fun m n => ?_, fun m n => ?_, fun n => ?_, fun n p hp => h4 n p (clearActive_plan store n ▸ hp)⟩
  · simp only [slot_clearActive]
    split <;> split <;> simp_all
  · simp only [slot_clearActive]
    have := h2 m n
    split <;> split <;> simp_all
  · have := h3 n
    simp only [slot_clearActive]
    split <;> simp_all

/-- What a stage request that is not refused does to every slot (R33). -/
theorem slot_stage {store store' : PlanStore} {n : Nat} (h : store.stage n = some store') (m : Nat) :
    store'.slot m =
      if (store.slot n).state = .staged then store.slot m
      else if m = n ∧ (store.slot n).state = .stored then { store.slot m with state := .staged }
      else if (store.slot m).state = .staged then { store.slot m with state := .stored }
      else store.slot m := by
  unfold PlanStore.stage at h
  have inside : (store.slot n).state ≠ .empty → 1 ≤ n ∧ n ≤ 32 := by
    intro hn
    by_contra hc
    exact hn (by rw [slot_outside store n hc]; rfl)
  split at h <;> rename_i hs <;> simp only [Option.some.injEq, reduceCtorEq] at h <;> subst h
  · have := inside (by rw [hs]; decide)
    simp only [slot_setState, slot_clearStaged, this, and_true, hs]
    by_cases hm : m = n
    · subst hm; simp
    · simp [hm]
  · simp [hs]
  · simp [hs, slot_clearStaged]

/-- What an activate request that is not refused does to every slot (R34). -/
theorem slot_activate {store store' : PlanStore} {n : Nat} (h : store.activate n = some store') (m : Nat) :
    store'.slot m =
      if (store.slot n).state = .active then store.slot m
      else if m = n then { store.slot m with state := .active }
      else if (store.slot m).state = .active then { store.slot m with state := .stored }
      else store.slot m := by
  unfold PlanStore.activate at h
  have inside : (store.slot n).state ≠ .empty → 1 ≤ n ∧ n ≤ 32 := by
    intro hn
    by_contra hc
    exact hn (by rw [slot_outside store n hc]; rfl)
  split at h <;> rename_i hs <;> simp only [Option.some.injEq, reduceCtorEq] at h <;> subst h
  · have := inside (by rw [hs]; decide)
    simp only [slot_setState, slot_clearActive, this, and_true, hs]
    by_cases hm : m = n
    · subst hm; simp
    · simp [hm]
  · have := inside (by rw [hs]; decide)
    simp only [slot_setState, slot_clearActive, this, and_true, hs]
    by_cases hm : m = n
    · subst hm; simp
    · simp [hm]
  · simp [hs]

theorem slot_stage_empty {store store' : PlanStore} {n : Nat} (h : store.stage n = some store') :
    (store.slot n).state ≠ .empty := by
  unfold PlanStore.stage at h
  split at h <;> simp_all

theorem slot_activate_empty {store store' : PlanStore} {n : Nat} (h : store.activate n = some store') :
    (store.slot n).state ≠ .empty := by
  unfold PlanStore.activate at h
  split at h <;> simp_all

theorem stage_plan {store store' : PlanStore} {n : Nat} (h : store.stage n = some store') (m : Nat) :
    (store'.slot m).plan = (store.slot m).plan := by
  rw [slot_stage h]; split_ifs <;> rfl

theorem stage_pinned {store store' : PlanStore} {n : Nat} (h : store.stage n = some store') (m : Nat) :
    (store'.slot m).pinned = (store.slot m).pinned := by
  rw [slot_stage h]; split_ifs <;> rfl

theorem activate_plan {store store' : PlanStore} {n : Nat} (h : store.activate n = some store') (m : Nat) :
    (store'.slot m).plan = (store.slot m).plan := by
  rw [slot_activate h]; split_ifs <;> rfl

theorem activate_pinned {store store' : PlanStore} {n : Nat} (h : store.activate n = some store') (m : Nat) :
    (store'.slot m).pinned = (store.slot m).pinned := by
  rw [slot_activate h]; split_ifs <;> rfl

theorem stage_sound {store store' : PlanStore} {n : Nat} (h : store.stage n = some store') (hs : store.Sound) :
    store'.Sound := by
  have hne := slot_stage_empty h
  rw [store_sound_iff] at *
  obtain ⟨h1, h2, h3, h4⟩ := hs
  refine ⟨fun a b => ?_, fun a b => ?_, fun a => ?_, fun a p hp => h4 a p (stage_plan h a ▸ hp)⟩
  · have := h1 a b
    simp only [slot_stage h]
    split_ifs <;> simp_all
  · have := h2 a b
    simp only [slot_stage h]
    split_ifs <;> simp_all
  · have := h3 a
    simp only [slot_stage h]
    split_ifs <;> simp_all

theorem activate_sound {store store' : PlanStore} {n : Nat} (h : store.activate n = some store') (hs : store.Sound) :
    store'.Sound := by
  have hne := slot_activate_empty h
  rw [store_sound_iff] at *
  obtain ⟨h1, h2, h3, h4⟩ := hs
  refine ⟨fun a b => ?_, fun a b => ?_, fun a => ?_, fun a p hp => h4 a p (activate_plan h a ▸ hp)⟩
  · have := h1 a b
    simp only [slot_activate h]
    split_ifs <;> simp_all
  · have := h2 a b
    simp only [slot_activate h]
    split_ifs <;> simp_all
  · have := h3 a
    simp only [slot_activate h]
    split_ifs <;> simp_all

theorem clearStaged_pinned (store : PlanStore) (n : Nat) :
    (store.clearStaged.slot n).pinned = (store.slot n).pinned := by
  rw [slot_clearStaged]; split <;> rfl

/-- A change of the part whose slots are the old ones after a clear-staged request (R35). -/
theorem Delivers.unstaged {s t : State} (h : Delivers s { t with store := s.store })
    (e : t.store = s.store.clearStaged := by rfl) : Delivers s t :=
  h.slots e (clearStaged_plan _) (clearStaged_pinned _) (clearStaged_sound _)

/-- A change of the part whose slots are the old ones after a stage request (R33). -/
theorem Delivers.staged {s t : State} {store : PlanStore} {n : Nat} (k : s.store.stage n = some store)
    (h : Delivers s { t with store := s.store }) (e : t.store = store := by rfl) : Delivers s t :=
  h.slots e (stage_plan k) (stage_pinned k) (stage_sound k)

/-- A change of the part whose slots are the old ones after an activate request (R34). -/
theorem Delivers.activated {s t : State} {store : PlanStore} {n : Nat} (k : s.store.activate n = some store)
    (h : Delivers s { t with store := s.store }) (e : t.store = store := by rfl) : Delivers s t :=
  h.slots e (activate_plan k) (activate_pinned k) (activate_sound k)

end Sys2Proof.Machine
end

