-- ==== Sys2Proof/Laws/Delivery.lean ====
section
/-! SUPPORT. What raising, withdrawing, delivering and adopting leave (`Delivers`), one lemma for each operation. -/

namespace Sys2Proof.Machine

set_option Elab.async false

/-! ### The Output Bank -/

theorem redrive_drive (bank : OutputBank) (new : Vector Aspect 16) : (bank.redrive new).drive = new := rfl

theorem redrive_settle (bank : OutputBank) (new : Vector Aspect 16) (h : ∀ g : Group, bank.settle[g] ≤ 3) (g : Group) :
    (bank.redrive new).settle[g] ≤ 3 := by
  simp only [OutputBank.redrive, Fin.getElem_fin, Vector.getElem_ofFn]
  split
  · exact h g
  · omega

/-- A bank whose groups drive what never is GREEN. -/
theorem redrive_sound (bank : OutputBank) (new : Vector Aspect 16) (h : bank.Sound)
    (hn : bank.flash = true → ∀ g : Group, new[g] ≠ .green) : (bank.redrive new).Sound :=
  ⟨hn, h.half, redrive_settle bank new h.settle⟩

theorem flashColour_ne_green (yellow : GroupSet) (g : Group) : flashColour yellow g ≠ .green := by
  unfold flashColour; split <;> decide

theorem flashColours_ne_green (yellow : GroupSet) (g : Group) :
    (Vector.ofFn fun g : Group => flashColour yellow g)[g] ≠ .green := by
  simp only [Fin.getElem_fin, Vector.getElem_ofFn]; exact flashColour_ne_green _ _

theorem command_sound (bank : OutputBank) (set : GroupSet) (aspect : Aspect) (h : bank.Sound) :
    (bank.command set aspect).Sound := by
  unfold OutputBank.command
  split
  · exact h
  · rename_i hf
    have k := redrive_sound bank (Vector.ofFn fun g : Group => if inSet g set then aspect else bank.drive[g]) h
      (fun hb => absurd hb hf)
    exact ⟨k.noGreenInFlash, k.half, k.settle⟩

theorem five : 1 ≤ 5 ∧ 5 ≤ 5 := by decide

theorem enterFlash_sound (bank : OutputBank) (yellow : GroupSet) (h : bank.Sound) : (bank.enterFlash yellow).Sound :=
  ⟨fun _ g => flashColours_ne_green yellow g, five, redrive_settle bank _ h.settle⟩

theorem toggle_sound (bank : OutputBank) (yellow : GroupSet) (h : bank.Sound) : (bank.toggle yellow).Sound := by
  unfold OutputBank.toggle
  split
  · refine ⟨fun _ g => ?_, five, redrive_settle bank _ h.settle⟩
    show (Vector.replicate 16 Aspect.dark)[g] ≠ .green
    simp
  · exact ⟨fun _ g => flashColours_ne_green yellow g, five, redrive_settle bank _ h.settle⟩

theorem stopFlash_sound (bank : OutputBank) (h : bank.Sound) : bank.stopFlash.Sound :=
  ⟨fun hb => (by cases hb), h.half, redrive_settle bank _ h.settle⟩

theorem takeColours_sound (bank : OutputBank) (yellow : GroupSet) (h : bank.Sound) : (bank.takeColours yellow).Sound := by
  unfold OutputBank.takeColours
  split
  · exact redrive_sound bank _ h fun _ g => flashColours_ne_green yellow g
  · exact h

theorem compare_sound (bank : OutputBank) (mask : GroupSet) (h : bank.Sound) : (bank.compare mask).Sound := by
  unfold OutputBank.compare
  exact ⟨h.noGreenInFlash, h.half, h.settle⟩

theorem stepFilters_sound (bank : OutputBank) (mask : GroupSet) (h : bank.Sound) : (bank.stepFilters mask).Sound := by
  unfold OutputBank.stepFilters
  exact ⟨h.noGreenInFlash, h.half, h.settle⟩

theorem sample_sound (bank : OutputBank) (monitored : GroupSet) (levels : Levels) (h : bank.Sound) :
    (bank.sample monitored levels).Sound := by
  have hs : ∀ g : Group, (Vector.ofFn fun g : Group => bank.settle[g] - 1)[g] ≤ 3 := by
    intro g
    simp only [Fin.getElem_fin, Vector.getElem_ofFn]
    have := h.settle g
    simp only [Fin.getElem_fin] at this
    omega
  unfold OutputBank.sample
  dsimp only
  split
  · exact ⟨h.noGreenInFlash, h.half, hs⟩
  · exact stepFilters_sound _ _ (compare_sound _ _ ⟨h.noGreenInFlash, h.half, hs⟩)

theorem delivers_command (set : GroupSet) (aspect : Aspect) (s : State) : Delivers s (command set aspect s) :=
  Delivers.plain (t := { s with bank := s.bank.command set aspect }) (bank := command_sound s.bank set aspect)

/-! ### Fault records -/

/-- The record of a class after one is replaced. -/
theorem record_setRecord (f : FaultUnit) (c d : FaultClass) (r : FaultRecord) :
    (f.setRecord c r).record d = if d = c then r else f.record d := by
  unfold FaultUnit.setRecord FaultUnit.record
  cases c <;> cases d <;> simp [FaultClass.place]

theorem delivers_raiseRecord (c : FaultClass) (detail : Option Nat) (s : State) :
    Delivers s (raiseRecord c detail s) := by
  have one : ∀ (r : FaultRecord), s.port.part = .running → Delivers s { s with faults := s.faults.setRecord c r } := by
    intro r h
    refine ⟨?_, fun i => ⟨i.clock, i.store, i.timetable, i.orders, i.coord, i.bank, i.line, i.port, fun k => ?_⟩⟩
    · constructor <;> first | rfl | (intro n; rfl) | exact ⟨rfl, rfl⟩
    · rw [show s.port.part = .configuring from k] at h; cases h
  unfold raiseRecord
  dsimp only
  split
  · rename_i h
    have h : s.port.part = .running := by simpa [State.running] using h
    split
    · exact one _ h
    all_goals exact (one _ h).trans (delivers_post _ _)
  · exact Delivers.refl s

theorem delivers_withdrawRecord (c : FaultClass) (s : State) : Delivers s (withdrawRecord c s) := by
  unfold withdrawRecord
  dsimp only
  split
  · exact Delivers.refl s
  · exact Delivers.refl s
  · rename_i ha
    refine Delivers.trans ?_ (delivers_post _ _)
    refine Delivers.plain (faults := fun h => ?_)
    rw [h c] at ha; cases ha

/-! ### The Coordinator -/

/-- A coordination state in which a cycle runs (R80). -/
def CoordState.runs (state : CoordState) : Prop :=
  state = .isolated ∨ state = .correcting ∨ state = .coordinated

/-- A state in which a cycle runs is set where P lies below the length, or where a cycle ran already. -/
theorem delivers_setCoord (state : CoordState) (cause : Option SuspensionCause) (s : State)
    (h : state.runs → s.coord.state.runs ∨ s.coord.position < s.coord.length) :
    Delivers s (setCoord state cause s) := by
  unfold setCoord
  split
  · exact Delivers.refl s
  · refine Delivers.trans (Delivers.plain (coord := fun k r => ?_)) (delivers_post _ _)
    rcases h r with m | m
    · exact k m
    · exact m

/-- The states of no cycle. -/
theorem not_runs_suspended : ¬ CoordState.runs .suspended := by rintro (h | h | h) <;> cases h

theorem delivers_emptyTransition (s : State) : Delivers s (emptyTransition s) := by
  unfold emptyTransition
  dsimp only
  split
  · exact Delivers.trans Delivers.plain (delivers_withdrawRecord _ _)
  · exact Delivers.plain

theorem delivers_isolationChange (s : State) : Delivers s (isolationChange s) := by
  unfold isolationChange
  split
  · rename_i h
    split
    · exact Delivers.trans (delivers_setCoord _ _ _ fun _ => .inl (.inr (.inl h))) (delivers_emptyTransition _)
    · exact Delivers.refl s
  · rename_i h
    split
    · exact Delivers.trans (delivers_setCoord _ _ _ fun _ => .inl (.inr (.inr h))) (delivers_emptyTransition _)
    · exact Delivers.refl s
  · rename_i h
    split
    · exact Delivers.refl s
    · exact Delivers.trans (delivers_setCoord .correcting none s fun _ => .inl (.inl h)) Delivers.plain
  · exact Delivers.refl s
  · exact Delivers.refl s

theorem delivers_putForward (a : Adoption) (s : State) : Delivers s (putForward a s) := by
  unfold putForward
  split
  · split
    · exact Delivers.unstaged Delivers.plain
    · exact Delivers.refl s
  · split
    · exact Delivers.refl s
    · split
      · rename_i h
        exact Delivers.staged h Delivers.plain
      · exact Delivers.trans Delivers.plain (delivers_post _ _)

theorem delivers_setFallback (s : State) : Delivers s (setFallback s) := by
  unfold setFallback
  exact Delivers.trans Delivers.plain (delivers_putForward _ _)

theorem delivers_clearFallback (s : State) : Delivers s (clearFallback s) := by
  unfold clearFallback
  split
  · dsimp only
    split
    · exact Delivers.trans Delivers.plain (delivers_putForward _ _)
    · split
      · exact Delivers.unstaged Delivers.plain
      · exact Delivers.plain
  · exact Delivers.refl s

theorem delivers_deliverCoordinator (action : FaultAction) (s : State) : Delivers s (deliverCoordinator action s) := by
  unfold deliverCoordinator
  dsimp only
  refine (delivers_isolationChange s).trans ?_
  split
  · exact delivers_setFallback _
  · exact delivers_clearFallback _
  · exact delivers_clearFallback _
  · exact Delivers.refl _

theorem delivers_suspend (cause : SuspensionCause) (s : State) : Delivers s (suspend cause s) := by
  unfold suspend
  refine Delivers.trans ?_ (delivers_setCoord _ _ _ fun h => absurd h not_runs_suspended)
  exact Delivers.trans Delivers.plain (delivers_emptyTransition _)

/-! ### Flash -/

/-- A change of the bank's filters and raised marks alone. -/
theorem delivers_filters (s : State) (green lamp : Vector Filter 16) (greenRaised lampRaised : Bool) :
    Delivers s
      { s with
        bank.greenFilter := green, bank.lampFilter := lamp, bank.greenSenseRaised := greenRaised
        bank.lampOutRaised := lampRaised } :=
  Delivers.plain (bank := fun hb => ⟨hb.noGreenInFlash, hb.half, hb.settle⟩)

theorem delivers_raiseGroup (c : FaultClass) (g : Group) (already : Bool) (s : State) :
    Delivers s (raiseGroup c g already s) := by
  unfold raiseGroup
  split
  · exact Delivers.refl s
  · exact delivers_raiseRecord _ _ _

theorem delivers_markGreenFaulted (g : Group) (s : State) : Delivers s (markGreenFaulted g s) := by
  unfold markGreenFaulted
  refine Delivers.trans ?_ (delivers_raiseGroup _ _ _ _)
  exact (delivers_filters s _ s.bank.lampFilter true s.bank.lampOutRaised).trans (delivers_post _ _)

theorem delivers_markGreenClean (g : Group) (s : State) : Delivers s (markGreenClean g s) := by
  have h : Delivers s (post (.readbackGroup g .greenSense false)
      { s with bank.greenFilter := s.bank.greenFilter.set g ⟨false, 0⟩ }) :=
    (delivers_filters s _ s.bank.lampFilter s.bank.greenSenseRaised s.bank.lampOutRaised).trans (delivers_post _ _)
  unfold markGreenClean
  refine h.trans ?_
  dsimp only
  split
  · exact (delivers_filters _ _ _ false _).trans (delivers_withdrawRecord _ _)
  · exact Delivers.refl _

theorem delivers_markLampFaulted (g : Group) (s : State) : Delivers s (markLampFaulted g s) := by
  unfold markLampFaulted
  refine Delivers.trans ?_ (delivers_raiseGroup _ _ _ _)
  exact (delivers_filters s s.bank.greenFilter _ s.bank.greenSenseRaised true).trans (delivers_post _ _)

theorem delivers_markLampClean (g : Group) (s : State) : Delivers s (markLampClean g s) := by
  have h : Delivers s (post (.readbackGroup g .lampOut false)
      { s with bank.lampFilter := s.bank.lampFilter.set g ⟨false, 0⟩ }) :=
    (delivers_filters s s.bank.greenFilter _ s.bank.greenSenseRaised s.bank.lampOutRaised).trans (delivers_post _ _)
  unfold markLampClean
  refine h.trans ?_
  dsimp only
  split
  · exact (delivers_filters _ _ _ _ false).trans (delivers_withdrawRecord _ _)
  · exact Delivers.refl _

theorem delivers_finishGroup (s : State) (g : Group) : Delivers s (finishGroup s g) := by
  unfold finishGroup
  dsimp only
  refine Delivers.trans (t := if s.greenFaultedDue g then markGreenFaulted g s
    else if s.greenCleanDue g then markGreenClean g s else s) ?_ ?_
  · split
    · exact delivers_markGreenFaulted g s
    · split
      · exact delivers_markGreenClean g s
      · exact Delivers.refl s
  · generalize (if s.greenFaultedDue g then markGreenFaulted g s
      else if s.greenCleanDue g then markGreenClean g s else s) = t
    split
    · exact delivers_markLampFaulted g t
    · split
      · exact delivers_markLampClean g t
      · exact Delivers.refl t

/-- A fold of operations that each deliver. -/
theorem delivers_foldl {α : Type} (f : State → α → State) (h : ∀ s a, Delivers s (f s a)) (l : List α) (s : State) :
    Delivers s (l.foldl f s) := by
  induction l generalizing s with
  | nil => exact Delivers.refl s
  | cons a l ih => exact (h s a).trans (ih _)

theorem delivers_finishFilters (s : State) : Delivers s (finishFilters s) :=
  delivers_foldl finishGroup delivers_finishGroup _ s

theorem delivers_beginFlash (s : State) : Delivers s (beginFlash s) := by
  unfold beginFlash
  have h : Delivers s
      { s with
        bank := { s.bank.enterFlash s.cfg.flashYellow with greenSenseRaised := false, lampOutRaised := false }
        instants.toggle := false } :=
    Delivers.plain (bank := fun hb =>
      let k := enterFlash_sound s.bank s.cfg.flashYellow hb
      ⟨k.noGreenInFlash, k.half, k.settle⟩)
  refine h.trans ?_
  dsimp only
  split <;> split
  · exact (delivers_withdrawRecord _ _).trans (delivers_withdrawRecord _ _)
  · exact delivers_withdrawRecord _ _
  · exact delivers_withdrawRecord _ _
  · exact Delivers.refl _

theorem delivers_bankFlash (s : State) : Delivers s (bankFlash s) := by
  unfold bankFlash
  split
  · exact Delivers.refl s
  · exact (delivers_finishFilters s).trans (delivers_beginFlash _)

theorem delivers_setPreempt (state : PreemptState) (input : Option PreemptInput) (s : State) :
    Delivers s (setPreempt state input s) := by
  unfold setPreempt
  exact Delivers.trans Delivers.plain (delivers_post _ _)

theorem delivers_unstageOrphan (plan : Nat) (s : State) : Delivers s (unstageOrphan plan s) := by
  unfold unstageOrphan
  split
  · exact Delivers.unstaged Delivers.plain
  · exact Delivers.refl s

theorem delivers_unstageOverride (o : Option Override) (s : State) : Delivers s (unstageOverride o s) := by
  unfold unstageOverride
  split
  · exact delivers_unstageOrphan _ _
  · exact Delivers.refl s

theorem delivers_abandonRun (i : PreemptInput) (s : State) : Delivers s (abandonRun i s) := by
  unfold abandonRun
  dsimp only
  refine Delivers.trans ?_ (delivers_post _ _)
  have h := (delivers_unstageOverride (s.preempt.save.bind SaveRecord.override) s).trans
    (delivers_setPreempt .idle (some i) _)
  exact h.trans Delivers.plain

theorem delivers_holdClaim (s : State) : Delivers s (holdClaim s) := Delivers.plain

theorem delivers_preemptFlash (s : State) : Delivers s (preemptFlash s) := by
  unfold preemptFlash
  split
  · split
    · exact delivers_holdClaim _
    · exact (delivers_abandonRun _ _).trans (delivers_holdClaim _)
  · exact delivers_holdClaim _

theorem delivers_setSeq (state : SeqState) (s : State) : Delivers s (setSeq state s) := by
  unfold setSeq
  split
  · exact Delivers.refl s
  · exact Delivers.trans Delivers.plain (delivers_post _ _)

theorem delivers_flashEntry (s : State) : Delivers s (flashEntry s) := by
  unfold flashEntry
  split
  · exact Delivers.refl s
  · refine Delivers.trans ?_ (delivers_preemptFlash _)
    refine Delivers.trans ?_ (delivers_suspend _ _)
    refine Delivers.trans ?_ (delivers_bankFlash _)
    exact Delivers.trans (delivers_setSeq .flash s) Delivers.plain

theorem delivers_flashExit (s : State) : Delivers s (flashExit s) := by
  unfold flashExit
  split
  · exact Delivers.trans (delivers_setSeq .startupRed s) (Delivers.plain (bank := stopFlash_sound _))
  · exact Delivers.refl s

theorem delivers_deliverSequencer (action : FaultAction) (s : State) : Delivers s (deliverSequencer action s) := by
  unfold deliverSequencer
  split
  · exact delivers_flashEntry s
  all_goals
    split
    · exact delivers_flashExit s
    · exact Delivers.refl s

/-! ### The effective action -/

theorem delivers_settleAction (n : Nat) (cause : FaultClass) (s : State) : Delivers s (settleAction n cause s) := by
  induction n generalizing cause s with
  | zero =>
    unfold settleAction
    dsimp only
    split
    · exact Delivers.refl s
    · exact Delivers.trans Delivers.plain (delivers_post _ _)
  | succ n ih =>
    unfold settleAction
    dsimp only
    split
    · exact Delivers.refl s
    · refine Delivers.trans ?_ (ih _ _)
      refine Delivers.trans ?_ (delivers_deliverSequencer _ _)
      refine Delivers.trans ?_ (delivers_deliverCoordinator _ _)
      exact Delivers.trans Delivers.plain (delivers_post _ _)

theorem delivers_raise (c : FaultClass) (detail : Option Nat) (s : State) : Delivers s (raise c detail s) :=
  (delivers_raiseRecord c detail s).trans (delivers_settleAction _ _ _)

theorem delivers_withdraw (c : FaultClass) (s : State) : Delivers s (withdraw c s) :=
  (delivers_withdrawRecord c s).trans (delivers_settleAction _ _ _)

theorem delivers_abandonTransition (s : State) : Delivers s (abandonTransition s) :=
  (delivers_emptyTransition s).trans (delivers_settleAction _ _ _)

/-- After a settling the effective action is the most severe among the ACTIVE and HELD records (R172). -/
theorem settleAction_effective (n : Nat) (cause : FaultClass) (s : State) :
    (settleAction n cause s).faults.effective =
      mostSevere (settleAction n cause s).port.config (settleAction n cause s).faults := by
  have same : ∀ (config : Option ConfigRecord) (f : FaultUnit) (a : FaultAction),
      mostSevere config { f with effective := a } = mostSevere config f := fun _ _ _ => rfl
  induction n generalizing cause s with
  | zero =>
    unfold settleAction
    dsimp only
    split
    · rename_i h; exact h.symm
    · rw [post_eq]; exact (same _ _ _).symm
  | succ n ih =>
    unfold settleAction
    dsimp only
    split
    · rename_i h; exact h.symm
    · exact ih _ _

/-! ### Adoptions and the governing plan -/

theorem delivers_clearOverride (s : State) : Delivers s (clearOverride s) := by
  unfold clearOverride
  split
  · exact Delivers.refl s
  · split
    · exact Delivers.refl s
    · refine Delivers.trans ?_ (delivers_unstageOrphan _ _)
      exact Delivers.trans Delivers.plain (delivers_post _ _)

theorem delivers_adoptionRequest (a : Adoption) (s : State) : Delivers s (adoptionRequest a s) := by
  unfold adoptionRequest
  dsimp only
  have h : Delivers s { s with coord.requested := some a } := Delivers.plain
  refine h.trans ?_
  split <;> split
  · exact delivers_clearOverride _
  · exact Delivers.refl _
  · exact (delivers_putForward _ _).trans (delivers_clearOverride _)
  · exact delivers_putForward _ _

theorem delivers_checkMissing (changed : Bool) (g : Adoption) (s : State) : Delivers s (checkMissing changed g s) := by
  unfold checkMissing
  split
  · split
    · exact Delivers.refl s
    · exact Delivers.trans Delivers.plain (delivers_raise _ _ _)
  · split
    · refine Delivers.trans ?_ (delivers_adoptionRequest _ _)
      exact Delivers.trans Delivers.plain (delivers_withdraw _ _)
    · split
      · exact delivers_adoptionRequest _ _
      · exact Delivers.refl s

theorem delivers_decideGoverning (s : State) : Delivers s (decideGoverning s) := by
  unfold decideGoverning
  split
  · exact Delivers.plain
  · split
    · exact Delivers.trans Delivers.plain (delivers_checkMissing _ _ _)
    · refine Delivers.trans ?_ (delivers_checkMissing _ _ _)
      exact Delivers.trans Delivers.plain (delivers_post _ _)

/-- The schedule's evaluation changes its own plan and source beside what a delivery does (R42, R46). -/
theorem delivers_evaluateSchedule (s : State) : Delivers s (evaluateSchedule s) := by
  unfold evaluateSchedule
  split
  · dsimp only
    split
    · exact Delivers.plain
    · refine Delivers.trans ?_ (delivers_decideGoverning _)
      exact Delivers.trans Delivers.plain (delivers_post _ _)
  · exact Delivers.refl s

end Sys2Proof.Machine
end

