-- ==== Sys2Proof/Laws/Moves.lean ====
section
/-! SUPPORT. What every operation keeps: the queue of commands, and the invariant. The Order Handler's operations and the
Line Interface's. -/

namespace Sys2Proof.Machine

set_option Elab.async false

/-- The queue of commands stays, and so does the invariant. -/
structure Moves (s t : State) : Prop where
  pending : t.pending = s.pending
  inv : Rooms s → Rooms t

theorem Moves.refl (s : State) : Moves s s := ⟨rfl, id⟩

theorem Moves.trans {s t u : State} (h : Moves s t) (k : Moves t u) : Moves s u :=
  ⟨k.pending.trans h.pending, fun i => k.inv (h.inv i)⟩

theorem Delivers.moves {s t : State} (h : Delivers s t) : Moves s t := ⟨h.kept.pending, h.inv⟩

/-- A change block by block. -/
theorem Moves.blocks {s t : State} (clock : s.clock.Sound → t.clock.Sound := by exact id)
    (store : s.store.Sound → t.store.Sound := by exact id)
    (timetable : s.timetable.Sound → t.timetable.Sound := by exact id)
    (orders : s.orders.Sound → t.orders.Sound := by exact id)
    (coord : s.coord.Sound → t.coord.Sound := by exact id) (bank : s.bank.Sound → t.bank.Sound := by exact id)
    (line : s.line.Sound → t.line.Sound := by exact id) (port : s.port.Sound → t.port.Sound := by exact id)
    (pending : t.pending = s.pending := by rfl)
    (quiet : (s.port.part = .configuring → ∀ c, (s.faults.record c).state = .clear) →
      t.port.part = .configuring → ∀ c, (t.faults.record c).state = .clear := by exact id) : Moves s t :=
  ⟨pending, fun h => ⟨clock h.clock, store h.store, timetable h.timetable, orders h.orders, coord h.coord, bank h.bank,
    line h.line, port h.port, quiet h.quiet⟩⟩

/-! ### The Line Interface -/

theorem placeTime_length (f : Frame) (p : Frame → Bool) (queue : List Frame) :
    (replaceFirst p f queue).length = queue.length := by
  induction queue with
  | nil => rfl
  | cons x rest ih => unfold replaceFirst; split <;> simp [ih]

/-- A TIME frame in the place of the first one queued leaves as many queued (R183). -/
theorem replaceFirst_count (f : Frame) (hf : f.isTime = true) (queue : List Frame) :
    ((replaceFirst Frame.isTime f queue).filter Frame.isTime).length = (queue.filter Frame.isTime).length := by
  induction queue with
  | nil => rfl
  | cons x rest ih =>
    unfold replaceFirst
    split
    · rename_i hx
      simp [hf, hx]
    · rename_i hx
      simp [hx, ih]

/-- No TIME frame is queued. -/
theorem noTime {queue : List Frame} (h : ¬ queue.any Frame.isTime = true) : queue.filter Frame.isTime = [] := by
  rw [List.filter_eq_nil_iff]
  intro f hf ht
  exact h (List.any_eq_true.mpr ⟨f, hf, ht⟩)

theorem moves_deferOnHead (s : State) : Moves s (deferOnHead s) := by
  unfold deferOnHead
  split
  · exact Moves.blocks (line := fun h => ⟨h.queue, h.dedup, h.noRepeats, h.oneTime⟩)
  · split <;> exact Moves.blocks (line := fun h => ⟨h.queue, h.dedup, h.noRepeats, h.oneTime⟩)

theorem moves_placeTail (f : Frame) (s : State) (room : s.line.queue.length < 8)
    (one : f.isTime = false ∨ s.line.queue.filter Frame.isTime = []) : Moves s (placeTail f s) := by
  have h : Moves s { s with line.queue := s.line.queue ++ [f] } :=
    Moves.blocks (line := fun h => ⟨by
      simp only [List.length_append, List.length_singleton]; omega, h.dedup, h.noRepeats, by
      have := h.oneTime
      rcases one with k | k
      · simpa [k] using this
      · simp only [List.filter_append, k, List.nil_append]
        exact List.length_filter_le _ _⟩)
  unfold placeTail
  dsimp only
  split
  · exact h.trans (moves_deferOnHead _)
  · exact h

theorem moves_placeTime (c : TimeContent) (s : State) : Moves s (placeTime c s) := by
  unfold placeTime
  dsimp only
  split
  · have h : Moves s
        { s with line.queue := replaceFirst Frame.isTime { body := .time c, attempts := 0, relay := false } s.line.queue } :=
      Moves.blocks (line := fun h =>
        ⟨by simp only [placeTime_length]; exact h.queue, h.dedup, h.noRepeats, by
          show ((replaceFirst Frame.isTime _ s.line.queue).filter Frame.isTime).length ≤ 1
          rw [replaceFirst_count _ rfl]; exact h.oneTime⟩)
    split
    · exact h.trans (moves_deferOnHead _)
    · exact h
  · rename_i none
    have none := noTime none
    split
    · rename_i hr
      exact moves_placeTail _ _ (by simpa [LineInterface.hasRoom] using hr) (.inr none)
    · split
      · rename_i hr
        have h : Moves s
            { s with
              line.queue := s.line.queue.eraseP Frame.relay ++ [{ body := .time c, attempts := 0, relay := false }]
              line.counts.relayDropped := countUp 65535 s.line.counts.relayDropped } :=
          Moves.blocks (line := fun h => ⟨by
            obtain ⟨f, hf, hp⟩ := List.any_eq_true.mp hr
            have := List.length_eraseP_of_mem hf hp
            have hq := h.queue
            have := List.length_pos_of_mem hf
            simp only [List.length_append, List.length_singleton]
            omega, h.dedup, h.noRepeats, by
            have e : (s.line.queue.eraseP Frame.relay).filter Frame.isTime = [] :=
              List.filter_eq_nil_iff.mpr fun f hf => List.filter_eq_nil_iff.mp none f (List.mem_of_mem_eraseP hf)
            simp only [List.filter_append, e, List.nil_append]
            exact List.length_filter_le _ _⟩)
        split
        · exact h.trans (moves_deferOnHead _)
        · exact h
      · exact Moves.blocks (line := fun h => ⟨h.queue, h.dedup, h.noRepeats, h.oneTime⟩)

theorem moves_placeRelay (body : FrameBody) (s : State)
    (h : Frame.isTime { body := body, attempts := 0, relay := true } = false) : Moves s (placeRelay body s) := by
  unfold placeRelay
  split
  · rename_i hr
    exact moves_placeTail _ _ (by simpa [LineInterface.hasRoom] using hr) (.inl h)
  · exact Moves.blocks (line := fun h => ⟨h.queue, h.dedup, h.noRepeats, h.oneTime⟩)

theorem enterKey_length (k : DedupKey) (cache : List DedupKey) (h : cache.length ≤ 32) :
    (enterKey k cache).length ≤ 32 := by
  unfold enterKey
  split
  · exact h
  · split <;> simp only [List.length_append, List.length_drop, List.length_singleton] <;> omega

theorem enterKey_nodup (k : DedupKey) (cache : List DedupKey) (h : cache.Nodup) : (enterKey k cache).Nodup := by
  unfold enterKey
  split
  · exact h
  · rename_i hk
    have one : ∀ l : List DedupKey, l.Nodup → k ∉ l → (l ++ [k]).Nodup := by
      intro l hl hn
      rw [List.nodup_append]
      refine ⟨hl, List.nodup_singleton k, fun a ha b hb hab => ?_⟩
      rw [List.mem_singleton.mp hb] at hab
      exact hn (hab ▸ ha)
    split
    · exact one _ h hk
    · exact one _ (h.sublist (List.drop_sublist 1 cache)) fun hm => hk (List.mem_of_mem_drop hm)

theorem moves_enterKey (k : DedupKey) (s : State) : Moves s { s with line.dedup := enterKey k s.line.dedup } :=
  Moves.blocks (line := fun h => ⟨h.queue, enterKey_length k _ h.dedup, enterKey_nodup k _ h.noRepeats, h.oneTime⟩)

theorem moves_placeOwnOrder (o : OrderContent) (s : State) (room : s.line.queue.length < 8) :
    Moves s (placeOwnOrder o s) :=
  (moves_enterKey o.dedupKey s).trans (moves_placeTail _ _ room (.inl rfl))

theorem moves_placeOwnCancel (c : CancelContent) (s : State) (room : s.line.queue.length < 8) :
    Moves s (placeOwnCancel c s) :=
  (moves_enterKey c.dedupKey s).trans (moves_placeTail _ _ room (.inl rfl))

theorem moves_relayOrder (o : OrderContent) (s : State) : Moves s (relayOrder o s) := by
  unfold relayOrder
  split
  · exact moves_placeRelay _ _ rfl
  · exact Moves.refl s

theorem moves_relayCancel (c : CancelContent) (s : State) : Moves s (relayCancel c s) := by
  unfold relayCancel
  split
  · exact moves_placeRelay _ _ rfl
  · exact Moves.refl s

theorem moves_beginAttempt (f : Frame) (s : State) : Moves s (beginAttempt f s) :=
  Moves.blocks (t := beginAttempt f s) (line := fun h => ⟨h.queue, h.dedup, h.noRepeats, h.oneTime⟩)

theorem moves_reportGivenUp (f : Frame) (s : State) : Moves s (reportGivenUp f s) := by
  unfold reportGivenUp
  split
  · exact Moves.refl s
  · split
    · exact Moves.refl s
    · exact (delivers_post _ _).moves
    · exact (delivers_post _ _).moves

theorem moves_giveUp (f : Frame) (s : State) : Moves s (giveUp f s) := by
  unfold giveUp
  dsimp only
  have h : Moves s
      (deferOnHead
        (reportGivenUp f
          { s with
            line.inHand := none
            line.counts.giveUp := countUp 65535 s.line.counts.giveUp
            line.giveUpRun := countUp 255 s.line.giveUpRun })) := by
    refine Moves.trans ?_ (moves_deferOnHead _)
    refine Moves.trans ?_ (moves_reportGivenUp _ _)
    exact Moves.blocks (line := fun h => ⟨h.queue, h.dedup, h.noRepeats, h.oneTime⟩)
  split
  · refine h.trans ?_
    refine Moves.trans ?_ (delivers_raise _ _ _).moves
    exact Moves.blocks (line := fun h => ⟨h.queue, h.dedup, h.noRepeats, h.oneTime⟩)
  · exact h

theorem moves_attemptFailed (f : Frame) (s : State) : Moves s (attemptFailed f s) := by
  unfold attemptFailed
  dsimp only
  split
  · refine Moves.trans ?_ (moves_giveUp _ _)
    exact Moves.blocks (line := fun h => ⟨h.queue, h.dedup, h.noRepeats, h.oneTime⟩)
  · exact Moves.blocks (line := fun h => ⟨h.queue, h.dedup, h.noRepeats, h.oneTime⟩)

/-! ### The Order Handler -/

theorem delivers_reportState (was : Option OldState) (old new : OrderEntry) (s : State) :
    Delivers s (reportState was old new s) := by
  unfold reportState
  split
  · split
    · exact delivers_post _ _
    · exact Delivers.refl s
  · split
    · exact delivers_post _ _
    · exact Delivers.refl s

theorem delivers_reportEnded (e : OrderEntry) (s : State) : Delivers s (reportEnded e s) := by
  unfold reportEnded
  split
  · exact delivers_post _ _
  · exact Delivers.refl s

/-- A choice kept by a fold is one of the list's. -/
theorem foldl_choice {α : Type} (f : Option α → α → Option α) (hf : ∀ b a, f b a = b ∨ f b a = some a) (l : List α)
    (b : Option α) {x : α} (h : l.foldl f b = some x) : b = some x ∨ x ∈ l := by
  induction l generalizing b with
  | nil => exact .inl h
  | cons a l ih =>
    rcases ih (f b a) h with k | k
    · rcases hf b a with m | m
      · exact .inl (m ▸ k)
      · rw [m] at k
        exact .inr (by simp [Option.some.inj k])
    · exact .inr (List.mem_cons_of_mem _ k)

/-- The judgement changes states alone (R64). -/
theorem judgeEntry_eq (store : PlanStore) (now : NetTime) (e : OrderEntry) :
    judgeEntry store now e = { e with state := (judgeEntry store now e).state } := by
  unfold judgeEntry
  split
  · rfl
  · split
    · rfl
    · split
      · rfl
      · split <;> rfl

theorem judgeEntry_placeholder (store : PlanStore) (now : NetTime) (e : OrderEntry) (h : e.detail = none) :
    judgeEntry store now e = e := by
  unfold judgeEntry
  rw [h]
  split <;> rfl

/-- What is true of a choice that a fold keeps. -/
theorem foldl_choice_prop {α : Type} (p : α → Prop) (f : Option α → α → Option α)
    (hf : ∀ b a, f b a = b ∨ (f b a = some a ∧ p a)) (l : List α) (b : Option α) (hb : ∀ x, b = some x → p x) {x : α}
    (h : l.foldl f b = some x) : p x := by
  induction l generalizing b with
  | nil => exact hb x h
  | cons a l ih =>
    refine ih (f b a) (fun y hy => ?_) h
    rcases hf b a with m | ⟨m, hp⟩
    · exact hb y (m ▸ hy)
    · rw [m] at hy
      exact Option.some.inj hy ▸ hp

theorem bestCandidate_eclipsed {l : List OrderEntry} {b : OrderEntry} (h : bestCandidate l = some b) :
    b.state = .eclipsed := by
  unfold bestCandidate at h
  refine foldl_choice_prop (fun e : OrderEntry => e.state = .eclipsed) _ (fun b a => ?_) l none (fun x hx => by cases hx) h
  split
  · rename_i ha
    split
    · exact .inr ⟨rfl, ha⟩
    · split
      · exact .inr ⟨rfl, ha⟩
      · exact .inl rfl
  · exact .inl rfl

/-- The entries the judgement leaves, but for their states, and which of them are IN_FORCE (R64). -/
theorem mem_judgeEntries {store : PlanStore} {now : NetTime} {l : List OrderEntry} {e : OrderEntry}
    (h : e ∈ judgeEntries store now l) :
    ∃ x ∈ l, e = judgeEntry store now x
      ∨ ∃ b ∈ l.map (judgeEntry store now), bestCandidate (l.map (judgeEntry store now)) = some b ∧ x.key = b.key
        ∧ e = { judgeEntry store now x with state := .inForce } := by
  unfold judgeEntries at h
  dsimp only at h
  split at h
  · obtain ⟨x, hx, he⟩ := List.mem_map.mp h
    exact ⟨x, hx, .inl he.symm⟩
  · rename_i b hb
    obtain ⟨y, hy, he⟩ := List.mem_map.mp h
    obtain ⟨x, hx, hxy⟩ := List.mem_map.mp hy
    have hk : y.key = x.key := by rw [← hxy, judgeEntry_eq]
    refine ⟨x, hx, ?_⟩
    split at he
    · rename_i hkb
      refine .inr ⟨b, ?_, hb, by rw [← hk, hkb], by rw [hxy, he]⟩
      unfold bestCandidate at hb
      rcases foldl_choice _ (fun b a => by
        cases b <;> dsimp only <;> split_ifs <;> first | exact .inl rfl | exact .inr rfl) _ none hb with k | k
      · cases k
      · exact k
    · exact .inl (by rw [hxy, he])

theorem judgeEntries_keys (store : PlanStore) (now : NetTime) (l : List OrderEntry) :
    (judgeEntries store now l).map OrderEntry.key = l.map OrderEntry.key := by
  have one : ∀ e, (judgeEntry store now e).key = e.key := fun e => by rw [judgeEntry_eq]
  unfold judgeEntries
  dsimp only
  split
  · rw [List.map_map]
    exact List.map_congr_left fun e _ => one e
  · rw [List.map_map, List.map_map]
    refine List.map_congr_left fun e _ => ?_
    simp only [Function.comp_apply]
    split <;> exact one e

/-- Two entries of one key are one entry. -/
theorem eq_of_key {l : List OrderEntry} (h : (l.map OrderEntry.key).Nodup) {a b : OrderEntry} (ha : a ∈ l) (hb : b ∈ l)
    (hk : a.key = b.key) : a = b :=
  List.inj_on_of_nodup_map h ha hb hk

/-- The judgement keeps a cancel placeholder CANCELLED (R63, R64). -/
theorem judgeEntries_placeholders {store : PlanStore} {now : NetTime} {l : List OrderEntry}
    (h : ∀ e ∈ l, e.detail = none → e.state = .cancelled) (hk : (l.map OrderEntry.key).Nodup) :
    ∀ e ∈ judgeEntries store now l, e.detail = none → e.state = .cancelled := by
  intro e he hd
  obtain ⟨x, hx, k | ⟨b, hb, hbest, hkey, k⟩⟩ := mem_judgeEntries he
  · have hxd : x.detail = none := by rw [k, judgeEntry_eq] at hd; exact hd
    rw [k, judgeEntry_placeholder _ _ _ hxd]
    exact h x hx hxd
  · exfalso
    have hxd : x.detail = none := by rw [k, judgeEntry_eq] at hd; exact hd
    obtain ⟨y, hy, hyb⟩ := List.mem_map.mp hb
    have : x = y := eq_of_key hk hx hy (by rw [hkey, ← hyb, judgeEntry_eq])
    have hj := judgeEntry_placeholder store now x hxd
    have he := bestCandidate_eclipsed hbest
    rw [← hyb, ← this, hj, h x hx hxd] at he
    cases he

/-- The judgement alone leaves none IN_FORCE but a placeholder that was. -/
theorem judgeEntry_inForce {store : PlanStore} {now : NetTime} {e : OrderEntry} (h : e.detail = none → e.state = .cancelled) :
    (judgeEntry store now e).state ≠ .inForce := by
  unfold judgeEntry
  split
  · rename_i hc; rw [hc]; decide
  · rename_i hc
    split
    · rename_i hd; exact absurd (h hd) hc
    · split
      · simp
      · split <;> simp

/-- The judgement leaves at most one entry IN_FORCE (R58, R64). -/
theorem judgeEntries_oneInForce {store : PlanStore} {now : NetTime} {l : List OrderEntry}
    (h : ∀ e ∈ l, e.detail = none → e.state = .cancelled) (hk : (l.map OrderEntry.key).Nodup) :
    ∀ e ∈ judgeEntries store now l, ∀ x ∈ judgeEntries store now l, e.state = .inForce → x.state = .inForce → e = x := by
  have chosen : ∀ e ∈ judgeEntries store now l, e.state = .inForce →
      ∃ b, bestCandidate (l.map (judgeEntry store now)) = some b ∧ e.key = b.key := by
    intro e he hs
    obtain ⟨x, hx, k | ⟨b, -, hbest, hkey, k⟩⟩ := mem_judgeEntries he
    · rw [k] at hs
      exact absurd hs (judgeEntry_inForce (h x hx))
    · refine ⟨b, hbest, ?_⟩
      rw [k, ← hkey, judgeEntry_eq]
  intro e he x hx hs ht
  obtain ⟨b, hb, kb⟩ := chosen e he hs
  obtain ⟨c, hc, kc⟩ := chosen x hx ht
  rw [hb] at hc
  have := Option.some.inj hc
  refine eq_of_key (l := judgeEntries store now l) ?_ he hx (by rw [kb, kc, this])
  rw [judgeEntries_keys]
  exact hk

theorem judgeEntries_length (store : PlanStore) (now : NetTime) (entries : List OrderEntry) :
    (judgeEntries store now entries).length = entries.length := by
  unfold judgeEntries
  dsimp only
  split <;> simp

theorem moves_evaluateOrders (was : Option OldState) (s : State) : Moves s (evaluateOrders was s) := by
  unfold evaluateOrders
  split
  · dsimp only
    refine Moves.trans ?_ (delivers_decideGoverning _).moves
    refine Moves.trans ?_ (delivers_foldl (fun s (p : OrderEntry × OrderEntry) => reportState was p.1 p.2 s)
      (fun s p => delivers_reportState was p.1 p.2 s) _ _).moves
    have h := delivers_foldl (fun s e => reportEnded e s) (fun s e => delivers_reportEnded e s)
      (s.orders.entries.filter fun e => e.finish.atOrBefore s.clock.reading) s
    have k := h.kept
    refine ⟨k.pending, fun i => ?_⟩
    have j := h.inv i
    have keys : ((s.orders.entries.filter fun e => !e.finish.atOrBefore s.clock.reading).map OrderEntry.key).Nodup :=
      i.orders.keys.sublist (List.Sublist.map _ List.filter_sublist)
    refine ⟨j.clock, j.store, j.timetable, ⟨?_, j.orders.issued, ?_, ?_, j.orders.stamps, ?_⟩, j.coord, j.bank, j.line,
      j.port, j.quiet⟩
    · show (judgeEntries _ _ _).length ≤ 12
      rw [judgeEntries_length]
      exact Nat.le_trans (List.length_filter_le _ _) i.orders.entries
    · show ((judgeEntries _ _ _).map OrderEntry.key).Nodup
      rw [judgeEntries_keys]
      exact keys
    · exact judgeEntries_placeholders (fun e he => i.orders.placeholders e (List.mem_of_mem_filter he)) keys
    · exact judgeEntries_oneInForce (fun e he => i.orders.placeholders e (List.mem_of_mem_filter he)) keys
  · exact Moves.refl s

theorem insertEntry_perm (e : OrderEntry) (l : List OrderEntry) : (insertEntry e l).Perm (e :: l) := by
  induction l with
  | nil => exact List.Perm.refl _
  | cons x rest ih =>
    unfold insertEntry
    split
    · exact List.Perm.refl _
    · exact (List.Perm.cons x ih).trans (List.Perm.swap e x rest)

theorem insertEntry_length (e : OrderEntry) (l : List OrderEntry) : (insertEntry e l).length = l.length + 1 :=
  (insertEntry_perm e l).length_eq

theorem mem_insertEntry {e x : OrderEntry} {l : List OrderEntry} : x ∈ insertEntry e l ↔ x = e ∨ x ∈ l := by
  rw [(insertEntry_perm e l).mem_iff, List.mem_cons]

theorem mem_removeEntry {k : OrderKey} {x : OrderEntry} {l : List OrderEntry} :
    x ∈ removeEntry k l ↔ x ∈ l ∧ x.key ≠ k := by
  unfold removeEntry
  rw [List.mem_filter]
  simp

theorem removeEntry_length (k : OrderKey) (l : List OrderEntry) : (removeEntry k l).length ≤ l.length :=
  List.length_filter_le _ _

theorem removeEntry_lt {k : OrderKey} {l : List OrderEntry} {e : OrderEntry} (h : e ∈ l) (hk : e.key = k) :
    (removeEntry k l).length < l.length :=
  List.length_filter_lt_length_iff_exists.mpr ⟨e, h, by simp [hk]⟩

theorem removeEntry_keys {k : OrderKey} {l : List OrderEntry} (h : (l.map OrderEntry.key).Nodup) :
    ((removeEntry k l).map OrderEntry.key).Nodup :=
  h.sublist (List.Sublist.map _ List.filter_sublist)

/-- An entry of a key not in the list may be inserted. -/
theorem insertEntry_keys {e : OrderEntry} {l : List OrderEntry} (h : (l.map OrderEntry.key).Nodup)
    (hn : ∀ x ∈ l, x.key ≠ e.key) : ((insertEntry e l).map OrderEntry.key).Nodup := by
  rw [((insertEntry_perm e l).map OrderEntry.key).nodup_iff, List.map_cons, List.nodup_cons]
  refine ⟨fun hm => ?_, h⟩
  obtain ⟨x, hx, hk⟩ := List.mem_map.mp hm
  exact hn x hx hk

/-- At most one entry of the list is IN_FORCE (R58). -/
def OneInForce (l : List OrderEntry) : Prop :=
  ∀ e ∈ l, ∀ x ∈ l, e.state = .inForce → x.state = .inForce → e = x

/-- A change of the order list that keeps it within its room, its keys apart, its placeholders CANCELLED and at most one
entry IN_FORCE. -/
theorem moves_entries (s : State) (l : List OrderEntry)
    (h : s.orders.Sound → l.length ≤ 12 ∧ (l.map OrderEntry.key).Nodup
      ∧ (∀ e ∈ l, e.detail = none → e.state = .cancelled) ∧ OneInForce l) :
    Moves s { s with orders.entries := l } :=
  Moves.blocks (orders := fun k => ⟨(h k).1, k.issued, (h k).2.1, (h k).2.2.1, k.stamps, (h k).2.2.2⟩)

/-- A new entry of a key the list does not hold. -/
theorem moves_newEntry (s : State) (new : OrderEntry) (room : s.orders.entries.length < 12)
    (fresh : ∀ x ∈ s.orders.entries, x.key ≠ new.key) (place : new.detail = none → new.state = .cancelled)
    (out : new.state ≠ .inForce) :
    Moves s { s with orders.entries := insertEntry new s.orders.entries } :=
  moves_entries s _ fun i =>
    ⟨by rw [insertEntry_length]; omega, insertEntry_keys i.keys fresh, fun e he hd => by
      rcases mem_insertEntry.mp he with rfl | hm
      · exact place hd
      · exact i.placeholders e hm hd, fun e he x hx hs ht => by
      rcases mem_insertEntry.mp he with rfl | hm
      · exact absurd hs out
      · rcases mem_insertEntry.mp hx with rfl | hn
        · exact absurd ht out
        · exact i.oneInForce e hm x hn hs ht⟩

theorem entry_mem {o : OrderHandler} {k : OrderKey} {e : OrderEntry} (h : o.entry k = some e) :
    e ∈ o.entries ∧ e.key = k := by
  unfold OrderHandler.entry at h
  exact ⟨List.mem_of_find?_eq_some h, by simpa using List.find?_some h⟩

theorem entry_none {o : OrderHandler} {k : OrderKey} (h : o.entry k = none) : ∀ x ∈ o.entries, x.key ≠ k := by
  intro x hx
  have := List.find?_eq_none.mp h x hx
  simpa using this

theorem moves_replaceEntry (s : State) (new : OrderEntry) {k : OrderKey} {e : OrderEntry} (h : e ∈ s.orders.entries)
    (hk : e.key = k) (hn : new.key = k) (place : new.detail = none → new.state = .cancelled)
    (as : new.state = .inForce → e.state = .inForce) :
    Moves s { s with orders.entries := insertEntry new (removeEntry k s.orders.entries) } :=
  moves_entries s _ fun i => by
    refine ⟨?_, insertEntry_keys (removeEntry_keys i.keys) fun x hx => ?_, fun x hx hd => ?_, fun y hy x hx hs ht => ?_⟩
    · have := removeEntry_lt h hk
      have := i.entries
      rw [insertEntry_length]
      omega
    · rw [hn]; exact (mem_removeEntry.mp hx).2
    · rcases mem_insertEntry.mp hx with rfl | hm
      · exact place hd
      · exact i.placeholders x (mem_removeEntry.mp hm).1 hd
    · have apart : ∀ z ∈ removeEntry k s.orders.entries, new.state = .inForce → z.state ≠ .inForce := by
        intro z hz hw hi
        have := mem_removeEntry.mp hz
        exact this.2 (i.oneInForce z this.1 e h hi (as hw) ▸ hk)
      rcases mem_insertEntry.mp hy with rfl | hm
      · rcases mem_insertEntry.mp hx with rfl | hn
        · rfl
        · exact absurd ht (apart x hn hs)
      · rcases mem_insertEntry.mp hx with rfl | hn
        · exact absurd hs (apart y hm ht)
        · exact i.oneInForce y (mem_removeEntry.mp hm).1 x (mem_removeEntry.mp hn).1 hs ht

theorem moves_cancelEntry (e : OrderEntry) (revision : Nat) (finish : NetTime) (s : State)
    (h : e ∈ s.orders.entries) : Moves s (cancelEntry e revision finish s) := by
  unfold cancelEntry
  dsimp only
  refine Moves.trans ?_ (delivers_reportState _ _ _ _).moves
  refine Moves.trans ?_ (delivers_post _ _).moves
  exact moves_replaceEntry s { e with state := .cancelled, revision := revision, finish := finish } h rfl rfl (fun _ => rfl)
    fun h => by cases h

theorem cancelledVictim_mem {l : List OrderEntry} {v : OrderEntry} (h : cancelledVictim l = some v) : v ∈ l := by
  unfold cancelledVictim at h
  rcases foldl_choice _ (fun b a => by
    cases b <;> dsimp only <;> split_ifs <;> first | exact .inl rfl | exact .inr rfl) l none h with k | k
  · cases k
  · exact k

theorem lowestRanked_mem {l : List OrderEntry} {v : OrderEntry} (h : lowestRanked l = some v) : v ∈ l := by
  unfold lowestRanked at h
  rcases foldl_choice _ (fun b a => by
    cases b <;> dsimp only <;> split_ifs <;> first | exact .inl rfl | exact .inr rfl) l none h with k | k
  · cases k
  · exact k

/-- After a victim is removed a full list has room for one more (R61). -/
theorem evict_room {s : State} {v : OrderEntry} (h : v ∈ s.orders.entries) :
    (evict v s).orders.entries.length < s.orders.entries.length := by
  unfold evict
  rw [post_eq]
  exact removeEntry_lt h rfl

theorem moves_evict (v : OrderEntry) (s : State) : Moves s (evict v s) := by
  unfold evict
  refine Moves.trans ?_ (delivers_post _ _).moves
  exact moves_entries s _ fun i =>
    ⟨Nat.le_trans (removeEntry_length _ _) i.entries, removeEntry_keys i.keys,
      fun e he => i.placeholders e (mem_removeEntry.mp he).1, fun e he x hx =>
      i.oneInForce e (mem_removeEntry.mp he).1 x (mem_removeEntry.mp hx).1⟩

theorem evict_fresh {v : OrderEntry} {k : OrderKey} {s : State} (h : ∀ x ∈ s.orders.entries, x.key ≠ k) :
    ∀ x ∈ (evict v s).orders.entries, x.key ≠ k := by
  unfold evict
  rw [post_eq]
  exact fun x hx => h x (mem_removeEntry.mp hx).1

theorem moves_storeOrder (o : OrderContent) (s : State) (room : s.orders.entries.length < 12)
    (fresh : ∀ x ∈ s.orders.entries, x.key ≠ o.key) : Moves s (storeOrder o s) := by
  unfold storeOrder
  dsimp only
  refine Moves.trans ?_ (moves_evaluateOrders _ _)
  refine Moves.trans ?_ (delivers_post _ _).moves
  exact moves_newEntry s (o.toEntry s.clock.reading .pending) room fresh (fun h => by cases h) fun h => by cases h

theorem moves_refuseRoom (o : OrderContent) (s : State) : Moves s (refuseRoom o s) := by
  unfold refuseRoom
  refine Moves.trans ?_ (delivers_post _ _).moves
  exact Moves.blocks (orders := fun k => ⟨k.entries, k.issued, k.keys, k.placeholders, k.stamps, k.oneInForce⟩)

/-- An operation that needs a full list of at most 12. -/
theorem Moves.of_sound {s t : State} (h : s.orders.Sound → Moves s t) (p : t.pending = s.pending) : Moves s t :=
  ⟨p, fun i => (h i.orders).inv i⟩

theorem pending_storeOrder (o : OrderContent) (s : State) : (storeOrder o s).pending = s.pending := by
  unfold storeOrder
  dsimp only
  rw [(moves_evaluateOrders _ _).pending, (delivers_post _ _).kept.pending]

theorem moves_admitOrder (o : OrderContent) (s : State) (fresh : ∀ x ∈ s.orders.entries, x.key ≠ o.key) :
    Moves s (admitOrder o s) := by
  unfold admitOrder
  split
  · rename_i h
    exact moves_storeOrder o s h fresh
  · split
    · rename_i v hv
      refine Moves.of_sound (fun hs => (moves_evict v s).trans (moves_storeOrder o _ ?_ (evict_fresh fresh))) ?_
      · have := evict_room (cancelledVictim_mem hv)
        have := hs.entries
        omega
      · rw [pending_storeOrder, (moves_evict v s).pending]
    · split
      · exact moves_refuseRoom o s
      · rename_i v hv
        dsimp only
        split
        · exact moves_refuseRoom o s
        · have k : Moves (evict v s)
              { evict v s with orders.evicted := countUp 65535 (evict v s).orders.evicted } :=
            Moves.blocks (orders := fun k => ⟨k.entries, k.issued, k.keys, k.placeholders, k.stamps, k.oneInForce⟩)
          refine Moves.of_sound (fun hs => ((moves_evict v s).trans k).trans (moves_storeOrder o _ ?_ (evict_fresh fresh))) ?_
          · have := evict_room (lowestRanked_mem hv)
            have := hs.entries
            show (evict v s).orders.entries.length < 12
            omega
          · rw [pending_storeOrder]; exact (moves_evict v s).pending

theorem moves_processOrder (o : OrderContent) (s : State) : Moves s (processOrder o s) := by
  unfold processOrder
  split
  · rename_i e he
    have hm := entry_mem he
    split
    · exact Moves.refl s
    · split
      · dsimp only
        refine Moves.trans ?_ (moves_evaluateOrders _ _)
        refine Moves.trans ?_ (delivers_post _ _).moves
        refine moves_replaceEntry s _ hm.1 rfl hm.2.symm (fun h => by cases h) fun h => ?_
        revert h
        dsimp only
        split
        · intro h; cases h
        · exact id
      · refine Moves.trans ?_ (moves_evaluateOrders _ _)
        exact moves_cancelEntry e _ _ s hm.1
  · rename_i he
    split
    · exact moves_admitOrder o s (entry_none he)
    · exact Moves.blocks (orders := fun k => ⟨k.entries, k.issued, k.keys, k.placeholders, k.stamps, k.oneInForce⟩)

theorem moves_arriveOrder (o : OrderContent) (s : State) : Moves s (arriveOrder o s) := by
  unfold arriveOrder
  split
  · exact moves_processOrder o s
  · exact Moves.blocks (orders := fun k => ⟨k.entries, k.issued, k.keys, k.placeholders, k.stamps, k.oneInForce⟩)

theorem moves_insertPlaceholder (c : CancelContent) (s : State) (room : s.orders.entries.length < 12)
    (fresh : ∀ x ∈ s.orders.entries, x.key ≠ c.key) : Moves s (insertPlaceholder c s) :=
  moves_newEntry s (c.toPlaceholder s.clock.reading) room fresh (fun _ => rfl) fun h => by cases h

theorem moves_storePlaceholder (c : CancelContent) (s : State) (fresh : ∀ x ∈ s.orders.entries, x.key ≠ c.key) :
    Moves s (storePlaceholder c s) := by
  have dropped : Moves s { s with orders.droppedCancel := countUp 65535 s.orders.droppedCancel } :=
    Moves.blocks (orders := fun k => ⟨k.entries, k.issued, k.keys, k.placeholders, k.stamps, k.oneInForce⟩)
  unfold storePlaceholder
  dsimp only
  split
  · rename_i h
    exact (moves_insertPlaceholder c s h fresh).trans (moves_evaluateOrders _ _)
  · split
    · rename_i v hv
      split
      · refine Moves.of_sound
          (fun hs => ((moves_evict v s).trans (moves_insertPlaceholder c _ ?_ (evict_fresh fresh))).trans
            (moves_evaluateOrders _ _)) ?_
        · have := evict_room (cancelledVictim_mem hv)
          have := hs.entries
          omega
        · rw [(moves_evaluateOrders _ _).pending]
          exact (moves_evict v s).pending
      · exact dropped
    · exact dropped

theorem moves_cancelInList (c : CancelContent) (s : State) : Moves s (cancelInList c s) := by
  unfold cancelInList
  split
  · rename_i e he
    have hm := entry_mem he
    split
    · dsimp only
      refine Moves.trans ?_ (moves_evaluateOrders _ _)
      refine moves_entries s _ fun i =>
        ⟨by rw [List.length_map]; exact i.entries, ?_, fun x hx hd => ?_, fun x hx y hy hs ht => ?_⟩
      · rw [List.map_map]
        refine (List.map_congr_left (f := OrderEntry.key ∘ _) (g := OrderEntry.key) fun x _ => ?_) ▸ i.keys
        simp only [Function.comp_apply]
        split <;> rfl
      · obtain ⟨y, hy, rfl⟩ := List.mem_map.mp hx
        revert hd
        split <;> exact i.placeholders y hy
      · obtain ⟨a, ha, rfl⟩ := List.mem_map.mp hx
        obtain ⟨b, hb, rfl⟩ := List.mem_map.mp hy
        have hs : a.state = .inForce := by revert hs; split <;> exact id
        have ht : b.state = .inForce := by revert ht; split <;> exact id
        rw [i.oneInForce a ha b hb hs ht]
    · split
      · refine Moves.trans ?_ (moves_evaluateOrders _ _)
        exact moves_cancelEntry e _ _ s hm.1
      · exact Moves.refl s
  · rename_i he
    split
    · exact moves_storePlaceholder c s (entry_none he)
    · exact Moves.refl s

theorem moves_cancelIssued (c : CancelContent) (s : State) : Moves s (cancelIssued c s) := by
  unfold cancelIssued
  split
  · exact Moves.blocks (orders := fun k =>
      ⟨k.entries, Nat.le_trans (List.length_filter_le _ _) k.issued, k.keys, k.placeholders,
        k.stamps.sublist (List.Sublist.map _ List.filter_sublist), k.oneInForce⟩)
  · exact Moves.refl s

theorem moves_arriveCancel (c : CancelContent) (s : State) : Moves s (arriveCancel c s) := by
  unfold arriveCancel
  split
  · exact (moves_cancelInList c s).trans (moves_cancelIssued c _)
  · exact Moves.blocks (orders := fun k => ⟨k.entries, k.issued, k.keys, k.placeholders, k.stamps, k.oneInForce⟩)

/-- A change of issued entries that leaves their stamps. -/
theorem mapIssued_stamps (stamp : NetTime) (f : IssuedEntry → IssuedEntry) (hf : ∀ i, (f i).key.stamp = i.key.stamp ∨ (f i).key.stamp = stamp)
    (l : List IssuedEntry) : (mapIssued stamp f l).map (fun i => i.key.stamp) = l.map fun i => i.key.stamp := by
  unfold mapIssued
  rw [List.map_map]
  refine List.map_congr_left fun i _ => ?_
  simp only [Function.comp_apply]
  split
  · rename_i h
    rcases hf i with k | k
    · exact k
    · rw [k, h]
  · rfl

theorem moves_mapIssued (s : State) (stamp : NetTime) (f : IssuedEntry → IssuedEntry)
    (hf : ∀ i, (f i).key.stamp = i.key.stamp ∨ (f i).key.stamp = stamp) :
    Moves s { s with orders.issued := mapIssued stamp f s.orders.issued } :=
  Moves.blocks (orders := fun k =>
    ⟨k.entries, by simp only [mapIssued, List.length_map]; exact k.issued, k.keys, k.placeholders, by
      show ((mapIssued stamp f s.orders.issued).map fun i => i.key.stamp).Nodup
      rw [mapIssued_stamps stamp f hf]; exact k.stamps, k.oneInForce⟩)

theorem moves_repeatIssued (i : IssuedEntry) (s : State) : Moves s (repeatIssued i s) := by
  unfold repeatIssued
  dsimp only
  split
  · rename_i hr
    refine Moves.trans ?_ (moves_placeOwnOrder _ _ (by simpa [LineInterface.hasRoom] using hr))
    exact moves_mapIssued s _ _ fun _ => .inl rfl
  · exact moves_mapIssued s _ _ fun _ => .inl rfl

theorem moves_stepIssued (s : State) : Moves s (stepIssued s) :=
  Moves.blocks (t := stepIssued s) (orders := fun k => ⟨k.entries, by
    unfold stepIssued
    simp only [List.length_map]
    exact Nat.le_trans (List.length_filter_le _ _) k.issued, k.keys, k.placeholders, by
    unfold stepIssued
    rw [List.map_map]
    exact k.stamps.sublist (List.Sublist.map _ List.filter_sublist), k.oneInForce⟩)

theorem insertIssued_perm (e : IssuedEntry) (l : List IssuedEntry) : (insertIssued e l).Perm (e :: l) := by
  induction l with
  | nil => exact List.Perm.refl _
  | cons x rest ih =>
    unfold insertIssued
    split
    · exact List.Perm.refl _
    · exact (List.Perm.cons x ih).trans (List.Perm.swap e x rest)

theorem insertIssued_length (e : IssuedEntry) (l : List IssuedEntry) : (insertIssued e l).length = l.length + 1 :=
  (insertIssued_perm e l).length_eq

/-! ### The transmitter's DEFER -/

/-- DEFER on the head of the queue, or IDLE (R184). -/
theorem deferOnHead_defers (s : State) :
    DefersOnHead (deferOnHead s).line ∧ (deferOnHead s).line.queue = s.line.queue
      ∧ (deferOnHead s).line.inHand = s.line.inHand := by
  unfold deferOnHead
  split
  · rename_i h
    exact ⟨⟨fun _ => rfl, fun n => absurd h n, fun f k => by simp [h] at k, fun f k => by simp [h] at k, rfl⟩, rfl, rfl⟩
  · rename_i f rest h
    split
    · rename_i relay
      refine ⟨⟨fun n => by simp [h] at n, fun _ => rfl, fun x k r => ?_, fun x _ _ => ⟨_, ?_, rfl⟩, rfl⟩, rfl, rfl⟩
      · simp only [h, List.head?_cons, Option.some.injEq] at k
        subst k
        rw [relay] at r
        cases r
      · have := (Config.relayWaitDraw s.draws).isLt
        omega
    · rename_i relay
      refine ⟨⟨fun n => by simp [h] at n, fun _ => rfl, fun x _ _ => rfl, fun x k r => ?_, rfl⟩, rfl, rfl⟩
      simp only [h, List.head?_cons, Option.some.injEq] at k
      subst k
      exact absurd r relay

/-- A frame placed at the tail (R183, R184). -/
theorem placeTail_placed (f : Frame) (s : State) : PlacedAtTail s.line (placeTail f s).line f := by
  unfold placeTail
  dsimp only
  split
  · rename_i idle
    simp only [Bool.and_eq_true, decide_eq_true_eq, Option.isNone_iff_eq_none] at idle
    obtain ⟨d, q, h⟩ := deferOnHead_defers { s with line.queue := s.line.queue ++ [f] }
    refine ⟨q, fun _ _ => ⟨d, h.trans idle.2⟩, fun no => ?_⟩
    rcases no with no | no
    · exact absurd idle.1 no
    · exact absurd idle.2 no
  · rename_i idle
    simp only [Bool.and_eq_true, decide_eq_true_eq, Option.isNone_iff_eq_none] at idle
    exact ⟨rfl, fun a b => absurd ⟨a, b⟩ idle, fun _ => ⟨rfl, rfl, rfl, rfl⟩⟩

end Sys2Proof.Machine
end

