-- ==== Sys2Proof/Laws/Timetable.lean ====
section
/-! SUPPORT. The order of the timetable's entries and of the special days, and that an insertion keeps it (R39, R40). -/

namespace Sys2Proof.Machine

set_option Elab.async false

/-! ### The order of the entries -/

theorem firstDay_le (days : BitVec 16) : firstDay days ≤ 9 := by
  unfold firstDay
  cases h : (List.range 9).find? fun i => days.getLsbD i with
  | none => simp
  | some i =>
    have := List.mem_range.mp (List.mem_of_find?_eq_some h)
    simp; omega

theorem firstDay_bit (days : BitVec 16) (h : firstDay days < 9) : days.getLsbD (firstDay days) = true := by
  unfold firstDay at *
  cases k : (List.range 9).find? fun i => days.getLsbD i with
  | none => rw [k] at h; simp at h
  | some i => simpa using List.find?_some k

theorem firstDay_below (days : BitVec 16) (j : Nat) (h : j < firstDay days) : days.getLsbD j = false := by
  have j9 : j < 9 := Nat.lt_of_lt_of_le h (firstDay_le days)
  unfold firstDay at h
  cases k : (List.range 9).find? fun i => days.getLsbD i with
  | none =>
    have := List.find?_eq_none.mp k j (List.mem_range.mpr j9)
    simpa using this
  | some i =>
    rw [k] at h
    have := (List.find?_range_eq_some.mp k).2.2 j h
    simpa using this

theorem entryBefore_iff (a b : Entry) : EntryBefore a b ↔ a.before b = true := by
  have key : (∃ i, i < 9 ∧ a.days.getLsbD i = true ∧ ∀ j, j ≤ i → b.days.getLsbD j = false)
      ↔ firstDay a.days < firstDay b.days := by
    constructor
    · rintro ⟨i, hi, ha, hb⟩
      by_contra n
      have l := firstDay_le b.days
      have : ¬ i < firstDay a.days := fun h => by simp [firstDay_below _ _ h] at ha
      have hb9 : firstDay b.days < 9 := by omega
      have := firstDay_bit _ hb9
      rw [hb _ (by omega)] at this
      cases this
    · intro h
      have l := firstDay_le b.days
      exact ⟨firstDay a.days, by omega, firstDay_bit _ (by omega), fun j hj => firstDay_below _ _ (by omega)⟩
  simp [EntryBefore, Entry.before, key]

theorem specialBefore_iff (a b : SpecialDay) : SpecialBefore a b ↔ a.before b = true := by
  simp [SpecialBefore, SpecialDay.before]

theorem entryBefore_trans {a b c : Entry} (h : EntryBefore a b) (k : EntryBefore b c) : EntryBefore a c := by
  rw [entryBefore_iff] at *
  simp only [Entry.before, Bool.or_eq_true, Bool.and_eq_true, decide_eq_true_eq] at *
  omega

theorem specialBefore_trans {a b c : SpecialDay} (h : SpecialBefore a b) (k : SpecialBefore b c) : SpecialBefore a c := by
  unfold SpecialBefore at *
  omega

/-! ### An insertion -/

theorem insertTimetable_length (e : Entry) (l : List Entry) : (insertTimetable e l).length = l.length + 1 := by
  induction l with
  | nil => rfl
  | cons x rest ih => unfold insertTimetable; split <;> simp [ih]

theorem insertSpecial_length (d : SpecialDay) (l : List SpecialDay) : (insertSpecial d l).length = l.length + 1 := by
  induction l with
  | nil => rfl
  | cons x rest ih => unfold insertSpecial; split <;> simp [ih]

theorem mem_insertTimetable {e x : Entry} {l : List Entry} : x ∈ insertTimetable e l ↔ x = e ∨ x ∈ l := by
  induction l with
  | nil => simp [insertTimetable]
  | cons y rest ih => unfold insertTimetable; split <;> simp [ih]; tauto

theorem mem_insertSpecial {d x : SpecialDay} {l : List SpecialDay} : x ∈ insertSpecial d l ↔ x = d ∨ x ∈ l := by
  induction l with
  | nil => simp [insertSpecial]
  | cons y rest ih => unfold insertSpecial; split <;> simp [ih]; tauto

/-- Of two entries of one start with no day type in common, one with a set of day types stands before the other or after it. -/
theorem entryBefore_total {a b : Entry} (set : daySetOk a.days = true)
    (apart : a.start = b.start → a.days &&& b.days = 0) (h : ¬ EntryBefore a b) : EntryBefore b a := by
  rw [entryBefore_iff] at *
  simp only [Entry.before, Bool.or_eq_true, Bool.and_eq_true, decide_eq_true_eq] at *
  rcases Nat.lt_trichotomy a.start b.start with l | e | g
  · omega
  · refine .inr ⟨e.symm, ?_⟩
    have ne : firstDay a.days ≠ firstDay b.days := by
      intro q
      have la : firstDay a.days < 9 := by
        by_contra n
        simp only [daySetOk, Bool.and_eq_true, decide_eq_true_eq] at set
        apply set.1
        apply BitVec.eq_of_getLsbD_eq
        intro i hi
        by_cases i9 : i < 9
        · simpa using firstDay_below a.days i (by omega)
        · have : a.days.toNat < 2 ^ i := lt_of_lt_of_le set.2 (by
            calc 512 = 2 ^ 9 := rfl
              _ ≤ 2 ^ i := Nat.pow_le_pow_right (by decide) (by omega))
          simp [BitVec.getLsbD, Nat.testBit_lt_two_pow this]
      have := congrArg (fun v : BitVec 16 => v.getLsbD (firstDay a.days)) (apart e)
      simp [firstDay_bit _ la] at this
      rw [q, firstDay_bit _ (by omega)] at this
      cases this
    omega
  · exact .inl g

theorem insertTimetable_inOrder {e : Entry} {l : List Entry} (set : daySetOk e.days = true)
    (apart : ∀ x ∈ l, e.start = x.start → e.days &&& x.days = 0) (h : l.Pairwise EntryBefore) :
    (insertTimetable e l).Pairwise EntryBefore := by
  induction l with
  | nil => simp [insertTimetable]
  | cons y rest ih =>
    have hy := List.pairwise_cons.mp h
    unfold insertTimetable
    split
    · next b =>
      have b := (entryBefore_iff e y).mpr b
      refine List.pairwise_cons.mpr ⟨fun x m => ?_, h⟩
      rcases List.mem_cons.mp m with rfl | m
      · exact b
      · exact entryBefore_trans b (hy.1 x m)
    · next b =>
      have b : EntryBefore y e :=
        entryBefore_total set (apart y (List.mem_cons_self ..)) (fun q => b ((entryBefore_iff e y).mp q))
      refine List.pairwise_cons.mpr ⟨fun x m => ?_, ih (fun x m => apart x (List.mem_cons_of_mem _ m)) hy.2⟩
      rcases mem_insertTimetable.mp m with rfl | m
      · exact b
      · exact hy.1 x m

theorem insertTimetable_apart {e : Entry} {l : List Entry} (apart : ∀ x ∈ l, e.start = x.start → e.days &&& x.days = 0)
    (h : l.Pairwise fun a b => a.start = b.start → a.days &&& b.days = 0) :
    (insertTimetable e l).Pairwise fun a b => a.start = b.start → a.days &&& b.days = 0 := by
  induction l with
  | nil => simp [insertTimetable]
  | cons y rest ih =>
    have hy := List.pairwise_cons.mp h
    unfold insertTimetable
    split
    · exact List.pairwise_cons.mpr ⟨apart, h⟩
    · refine List.pairwise_cons.mpr ⟨fun x m => ?_, ih (fun x m => apart x (List.mem_cons_of_mem _ m)) hy.2⟩
      rcases mem_insertTimetable.mp m with rfl | m
      · intro q
        rw [BitVec.and_comm]
        exact apart y (List.mem_cons_self ..) q.symm
      · exact hy.1 x m

theorem insertSpecial_inOrder {d : SpecialDay} {l : List SpecialDay} (new : ∀ x ∈ l, ¬ (x.week = d.week ∧ x.day = d.day))
    (h : l.Pairwise SpecialBefore) : (insertSpecial d l).Pairwise SpecialBefore := by
  induction l with
  | nil => simp [insertSpecial]
  | cons y rest ih =>
    have hy := List.pairwise_cons.mp h
    unfold insertSpecial
    split
    · next b =>
      have b := (specialBefore_iff d y).mpr b
      refine List.pairwise_cons.mpr ⟨fun x m => ?_, h⟩
      rcases List.mem_cons.mp m with rfl | m
      · exact b
      · exact specialBefore_trans b (hy.1 x m)
    · next b =>
      have b : SpecialBefore y d := by
        have q : ¬ SpecialBefore d y := fun q => b ((specialBefore_iff d y).mp q)
        have n := new y (List.mem_cons_self ..)
        unfold SpecialBefore at *
        omega
      refine List.pairwise_cons.mpr ⟨fun x m => ?_, ih (fun x m => new x (List.mem_cons_of_mem _ m)) hy.2⟩
      rcases mem_insertSpecial.mp m with rfl | m
      · exact b
      · exact hy.1 x m

end Sys2Proof.Machine
end

