-- ==== Sys2Proof/Laws/ClockMoves.lean ====
section
/-! SUPPORT. What the Station Clock's and the Timetable's operations keep. -/

namespace Sys2Proof.Machine

set_option Elab.async false

/-- A moved time is a network time (Conventions, Network time). -/
theorem plus_week (t : NetTime) (d : Int) : (t.plus d).week < 65536 := by
  unfold NetTime.plus
  dsimp only
  have h := Int.emod_nonneg ((t.week : Int) + ((t.ms : Int) + d) / (weekMs : Int)) (show (65536 : Int) ≠ 0 by decide)
  have k := Int.emod_lt_of_pos ((t.week : Int) + ((t.ms : Int) + d) / (weekMs : Int)) (show (0 : Int) < 65536 by decide)
  omega

theorem plus_ms (t : NetTime) (d : Int) : (t.plus d).ms < weekMs := by
  unfold NetTime.plus weekMs
  dsimp only
  omega

/-! ### The Timetable -/

theorem moves_prune (s : State) : Moves s (prune s) := by
  unfold prune
  dsimp only
  split
  · exact Moves.refl s
  · refine Moves.trans ?_ (delivers_post _ _).moves
    exact Moves.blocks (timetable := fun h =>
      ⟨h.entries, Nat.le_trans (List.length_filter_le _ _) h.specials, Nat.mod_lt _ (by decide), h.inOrder, h.apart,
        h.daysInOrder.filter _⟩)

theorem moves_evaluateSchedule (s : State) : Moves s (evaluateSchedule s) := (delivers_evaluateSchedule s).moves

theorem moves_takeCalendar (s : State) : Moves s (takeCalendar s) := by
  unfold takeCalendar
  dsimp only
  refine Moves.trans ?_ (moves_evaluateSchedule _)
  have h : Moves s { s with instants.calendar := false } := Moves.blocks
  split
  · exact h.trans (moves_prune _)
  · exact h

/-! ### The Station Clock -/

theorem lowerDifferences_stations (d : Int) (l : List Neighbour) :
    (lowerDifferences d l).map Neighbour.station = l.map Neighbour.station := by
  unfold lowerDifferences
  rw [List.map_map]
  rfl

theorem lowerDifferences_length (d : Int) (l : List Neighbour) : (lowerDifferences d l).length = l.length :=
  List.length_map _

theorem moves_stepClock (d : Int) (s : State) : Moves s (stepClock d s) := by
  unfold stepClock
  dsimp only
  have h : Moves s
      { s with
        clock.reading := s.clock.reading.plus d
        clock.slew := 0
        clock.backlog := 0
        clock.neighbours := lowerDifferences d s.clock.neighbours
        instants.holding := false } :=
    Moves.blocks (clock := fun k =>
      ⟨plus_week _ _, plus_ms _ _, by simp only [lowerDifferences_length]; exact k.neighbours,
        by simp only [lowerDifferences_stations]; exact k.stations⟩)
  split
  · refine Moves.trans ?_ (moves_evaluateOrders _ _)
    refine Moves.trans ?_ (moves_stepIssued _)
    refine Moves.trans ?_ (moves_evaluateSchedule _)
    refine Moves.trans ?_ (moves_prune _)
    exact h.trans (delivers_post _ _).moves
  · exact h

theorem moves_slewMillisecond (s : State) : Moves s (slewMillisecond s) := by
  unfold slewMillisecond
  split
  · exact Moves.blocks (clock := fun k =>
      ⟨plus_week _ _, plus_ms _ _, by simp only [lowerDifferences_length]; exact k.neighbours,
        by simp only [lowerDifferences_stations]; exact k.stations⟩)
  · split
    · exact Moves.blocks (clock := fun k =>
        ⟨k.week, k.ms, by simp only [lowerDifferences_length]; exact k.neighbours,
        by simp only [lowerDifferences_stations]; exact k.stations⟩)
    · exact Moves.refl s

theorem insertNeighbour_perm (n : Neighbour) (l : List Neighbour) : (insertNeighbour n l).Perm (n :: l) := by
  induction l with
  | nil => exact List.Perm.refl _
  | cons x rest ih =>
    unfold insertNeighbour
    split
    · exact List.Perm.refl _
    · exact (List.Perm.cons x ih).trans (List.Perm.swap n x rest)

theorem insertNeighbour_length (n : Neighbour) (l : List Neighbour) :
    (insertNeighbour n l).length = l.length + 1 :=
  (insertNeighbour_perm n l).length_eq

/-- An entry of a station the table does not hold is inserted between those of lower and those of higher number (R5). -/
theorem insertNeighbour_place {n : Neighbour} {l : List Neighbour}
    (h : (l.map Neighbour.station).Pairwise (· < ·)) (hn : ∀ x ∈ l, x.station ≠ n.station) :
    insertNeighbour n l =
      (l.filter fun x => decide (x.station < n.station)) ++ n :: l.filter fun x => decide (n.station < x.station) := by
  induction l with
  | nil => rfl
  | cons x rest ih =>
    rw [List.map_cons, List.pairwise_cons] at h
    have hx := hn x List.mem_cons_self
    unfold insertNeighbour
    split
    · rename_i lt
      have all : ∀ y ∈ x :: rest, n.station < y.station := by
        intro y hy
        rcases List.mem_cons.mp hy with rfl | hm
        · exact lt
        · exact Nat.lt_trans lt (h.1 y.station (List.mem_map_of_mem hm))
      rw [List.filter_eq_nil_iff.mpr fun y hy => by have := all y hy; simp; omega,
        List.filter_eq_self.mpr fun y hy => by simpa using all y hy]
      rfl
    · rename_i ge
      rw [ih h.2 fun y hy => hn y (List.mem_cons_of_mem _ hy), List.filter_cons_of_pos (by simp; omega),
        List.filter_cons_of_neg (by simp; omega)]
      rfl

/-- The table stays in station-number order (R5). -/
theorem insertNeighbour_stations {n : Neighbour} {l : List Neighbour}
    (h : (l.map Neighbour.station).Pairwise (· < ·)) (hn : ∀ x ∈ l, x.station ≠ n.station) :
    ((insertNeighbour n l).map Neighbour.station).Pairwise (· < ·) := by
  rw [insertNeighbour_place h hn, List.map_append, List.map_cons, List.pairwise_append, List.pairwise_cons]
  refine ⟨h.sublist (List.Sublist.map _ List.filter_sublist),
    ⟨fun a ha => ?_, h.sublist (List.Sublist.map _ List.filter_sublist)⟩, fun a ha b hb => ?_⟩
  · obtain ⟨x, hx, rfl⟩ := List.mem_map.mp ha
    simpa using (List.mem_filter.mp hx).2
  · obtain ⟨x, hx, rfl⟩ := List.mem_map.mp ha
    have hxn : x.station < n.station := by simpa using (List.mem_filter.mp hx).2
    rcases List.mem_cons.mp hb with rfl | hm
    · exact hxn
    · obtain ⟨y, hy, rfl⟩ := List.mem_map.mp hm
      have hyn : n.station < y.station := by simpa using (List.mem_filter.mp hy).2
      exact Nat.lt_trans hxn hyn

theorem oldestNeighbour_mem {l : List Neighbour} {n : Neighbour} (h : oldestNeighbour l = some n) : n ∈ l := by
  unfold oldestNeighbour at h
  rcases foldl_choice _ (fun b a => by
    cases b <;> dsimp only <;> first | exact .inr rfl | (split_ifs <;> first | exact .inl rfl | exact .inr rfl)) l none h
    with k | k
  · cases k
  · exact k

theorem moves_createNeighbour (n : Neighbour) (s : State) (fresh : ∀ x ∈ s.clock.neighbours, x.station ≠ n.station) :
    Moves s (createNeighbour n s) := by
  unfold createNeighbour
  split
  · rename_i h
    exact Moves.blocks (clock := fun k =>
      ⟨k.week, k.ms, by simp only [insertNeighbour_length]; omega, insertNeighbour_stations k.stations fresh⟩)
  · split
    · rename_i old ho
      split
      · exact Moves.blocks (clock := fun k => ⟨k.week, k.ms, by
          have : (s.clock.neighbours.filter fun x => decide (x.station ≠ old.station)).length
              < s.clock.neighbours.length :=
            List.length_filter_lt_length_iff_exists.mpr ⟨old, oldestNeighbour_mem ho, by simp⟩
          have := k.neighbours
          simp only [insertNeighbour_length]
          omega, insertNeighbour_stations (k.stations.sublist (List.Sublist.map _ List.filter_sublist))
            fun x hx => fresh x (List.mem_of_mem_filter hx)⟩)
      · exact Moves.blocks (clock := fun k => ⟨k.week, k.ms, k.neighbours, k.stations⟩)
    · exact Moves.refl s

theorem moves_takeTimeFrame (sender : Nat) (body : List Byte) (captured : NetTime) (s : State) :
    Moves s (takeTimeFrame sender body captured s) := by
  unfold takeTimeFrame
  split
  · split
    · exact Moves.blocks (clock := fun k => ⟨k.week, k.ms, k.neighbours, k.stations⟩)
    · split
      · exact Moves.blocks (clock := fun k => ⟨k.week, k.ms, k.neighbours, k.stations⟩)
      · dsimp only
        split
        · refine Moves.blocks (clock := fun k =>
            ⟨k.week, k.ms, by simp only [List.length_map]; exact k.neighbours, ?_⟩)
          rw [List.map_map]
          refine (List.map_congr_left (f := Neighbour.station ∘ _) (g := Neighbour.station) fun n _ => ?_) ▸ k.stations
          simp only [Function.comp_apply]
          split
          · rename_i h; exact h.symm
          · rfl
        · rename_i h
          exact moves_createNeighbour _ s fun x hx hs => h (List.any_eq_true.mpr ⟨x, hx, by simpa using hs⟩)
  · exact Moves.blocks (clock := fun k => ⟨k.week, k.ms, k.neighbours, k.stations⟩)

theorem moves_classify (s : State) : Moves s (classify s) := by
  unfold classify
  exact Moves.blocks (clock := fun k => ⟨k.week, k.ms, by simp only [List.length_map]; exact k.neighbours, by
    rw [List.map_map]; exact k.stations⟩)

theorem moves_setClockState (state : ClockState) (s : State) : Moves s (setClockState state s) := by
  unfold setClockState
  split
  · exact Moves.refl s
  · refine Moves.trans ?_ (delivers_settleAction _ _ _).moves
    refine Moves.trans ?_ (delivers_isolationChange _).moves
    refine Moves.trans ?_ (delivers_post _ _).moves
    exact Moves.blocks (clock := fun k => ⟨k.week, k.ms, k.neighbours, k.stations⟩)

theorem moves_holdoverRound (s : State) : Moves s (holdoverRound s) := by
  unfold holdoverRound
  refine (moves_setClockState .holdover s).trans ?_
  generalize setClockState .holdover s = t
  dsimp only
  split
  · refine Moves.trans ?_ (delivers_raise _ _ _).moves
    exact Moves.blocks (clock := fun k => ⟨k.week, k.ms, k.neighbours, k.stations⟩)
  · exact Moves.blocks (clock := fun k => ⟨k.week, k.ms, k.neighbours, k.stations⟩)

theorem moves_leaveHoldover (state : ClockState) (s : State) : Moves s (leaveHoldover state s) := by
  unfold leaveHoldover
  have h : Moves s { s with clock.holdover := 0 } := Moves.blocks (clock := fun k => ⟨k.week, k.ms, k.neighbours, k.stations⟩)
  refine (h.trans (moves_setClockState state _)).trans ?_
  generalize setClockState state _ = t
  dsimp only
  split
  · refine Moves.trans ?_ (delivers_withdraw _ _).moves
    exact Moves.blocks (clock := fun k => ⟨k.week, k.ms, k.neighbours, k.stations⟩)
  · exact Moves.refl t

theorem moves_slewRound (s : State) : Moves s (slewRound s) := by
  unfold slewRound
  dsimp only
  split
  · exact moves_holdoverRound s
  · refine Moves.trans ?_ (moves_leaveHoldover _ _)
    exact Moves.blocks (clock := fun k => ⟨k.week, k.ms, k.neighbours, k.stations⟩)

theorem moves_aloneRound (s : State) : Moves s (aloneRound s) := by
  unfold aloneRound
  dsimp only
  split
  · split
    · exact Moves.refl s
    · split
      · exact moves_setClockState _ s
      · exact Moves.refl s
  · exact (moves_stepClock _ s).trans (moves_setClockState _ _)

theorem moves_anchoredRound (s : State) : Moves s (anchoredRound s) := by
  unfold anchoredRound
  have h : ∀ a b : Int, Moves s { s with clock.slew := a, clock.backlog := b } := fun _ _ =>
    Moves.blocks (clock := fun k => ⟨k.week, k.ms, k.neighbours, k.stations⟩)
  refine (h (clampTo s.cfg.slewLimit (s.clock.slew + s.clock.backlog))
    (s.clock.slew + s.clock.backlog - clampTo s.cfg.slewLimit (s.clock.slew + s.clock.backlog))).trans ?_
  dsimp only
  split
  · exact Moves.refl _
  · exact Moves.refl _
  · split
    · exact moves_leaveHoldover _ _
    · exact moves_holdoverRound _
  · split
    · exact moves_leaveHoldover _ _
    · exact moves_holdoverRound _

theorem moves_roundCounts (s : State) : Moves s (roundCounts s) :=
  Moves.blocks (t := roundCounts s) (line := fun h => ⟨h.queue, h.dedup, h.noRepeats, h.oneTime⟩)

theorem ageNeighbours_length (l : List Neighbour) : (ageNeighbours l).length ≤ l.length := by
  unfold ageNeighbours
  exact Nat.le_trans (List.length_filter_le _ _) (by rw [List.length_map])

theorem ageNeighbours_stations (l : List Neighbour) (h : (l.map Neighbour.station).Pairwise (· < ·)) :
    ((ageNeighbours l).map Neighbour.station).Pairwise (· < ·) := by
  unfold ageNeighbours
  refine List.Pairwise.sublist (List.Sublist.map _ List.filter_sublist) ?_
  rw [List.map_map]
  exact h

theorem moves_clockRound (s : State) : Moves s (clockRound s) := by
  unfold clockRound
  split
  · exact moves_anchoredRound s
  · split
    · exact moves_aloneRound s
    · exact moves_slewRound s

theorem moves_clearTimeMark (s : State) : Moves s (clearTimeMark s) :=
  Moves.blocks (t := clearTimeMark s) (clock := fun k => ⟨k.week, k.ms, k.neighbours, k.stations⟩)

theorem moves_takeRound (s : State) : Moves s (takeRound s) := by
  unfold takeRound
  refine Moves.trans ?_ (moves_clearTimeMark _)
  refine Moves.trans ?_ (moves_clockRound _)
  refine Moves.trans ?_ (moves_classify _)
  refine Moves.trans ?_ (moves_roundCounts _)
  exact Moves.blocks (clock := fun k => ⟨k.week, k.ms, Nat.le_trans (ageNeighbours_length _) k.neighbours,
    ageNeighbours_stations _ k.stations⟩)

theorem moves_takeTimeBuild (s : State) : Moves s (takeTimeBuild s) :=
  Moves.trans (t := { s with instants.frame := false }) Moves.blocks (moves_placeTime _ _)

theorem moves_roundFirst (s : State) : Moves s (roundFirst s) := by
  unfold roundFirst
  split
  · exact moves_takeRound s
  · exact Moves.refl s

/-- Line time that passes changes waits and counts alone. -/
theorem lineAfter_sound (n : Nat) (s : State) (h : s.line.Sound) : (s.lineAfter n).Sound := by
  unfold State.lineAfter
  split
  · exact ⟨h.queue, h.dedup, h.noRepeats, h.oneTime⟩
  · exact h

theorem moves_runClock (n : Nat) (s : State) : Moves s (runClock n s) :=
  Moves.blocks (t := runClock n s) (clock := fun k => ⟨plus_week _ _, plus_ms _ _, k.neighbours, k.stations⟩)
    (line := lineAfter_sound n s)

end Sys2Proof.Machine
end

