-- ==== Sys2Proof/Laws/CycleMoves.lean ====
section
/-! SUPPORT. What the cycle, the stages and the preemption runs do to everything they do not own: each delivers. -/

namespace Sys2Proof.Machine

set_option Elab.async false

/-! ### A plan that passed its checks -/

theorem firstFailing_none {test : StageRecord → Bool} {stages : List StageRecord} :
    firstFailing test stages = none ↔ ∀ st ∈ stages, test st = true := by
  unfold firstFailing
  rw [Option.map_eq_none_iff, List.findIdx?_eq_none_iff]
  simp

/-- What the figures of a plan rest on (R23 to R25). -/
theorem planRefusal_passed {store : PlanStore} {p : PlanRecord} (h : planRefusal store p = none) :
    300 ≤ p.cycle ∧ p.shorten ≤ 33 ∧ p.splits.sum = p.cycle ∧ ∀ x ∈ p.splits, 1 ≤ x := by
  unfold planRefusal at h
  by_cases h1 : (!planNumber p.number) = true
  · simp [h1] at h
  by_cases h2 : (store.slot p.number).inUse = true
  · simp [h1, h2] at h
  by_cases h3 : (!within 2 8 p.stageCount) = true
  · simp [h1, h2, h3] at h
  by_cases h4 : (!(p.headerInRange && p.stages.all StageRecord.inRange)) = true
  · rw [if_neg h1, if_neg h2, if_neg h3, if_pos h4] at h; cases h
  rw [if_neg h1, if_neg h2, if_neg h3, if_neg h4] at h
  split at h
  · cases h
  · by_cases h5 : (p.stages.headD (readStage [] 0)).onCall = true
    · rw [if_pos h5] at h; cases h
    by_cases h6 : p.splits.sum ≠ p.cycle
    · rw [if_neg h5, if_pos h6] at h; cases h
    simp only [Bool.not_eq_true', Bool.and_eq_false_iff, not_or, Bool.not_eq_false] at h4
    have hh := h4.1
    simp only [PlanRecord.headerInRange, within, Bool.and_eq_true, decide_eq_true_eq] at hh
    refine ⟨hh.1.1.1.1.1.1, hh.1.2.2, by simpa using h6, fun x hx => ?_⟩
    obtain ⟨st, hst, rfl⟩ := List.mem_map.mp hx
    have := List.all_eq_true.mp h4.2 st hst
    simp only [StageRecord.inRange, within, Bool.and_eq_true, decide_eq_true_eq] at this
    exact this.1.1.1.1.1.1

theorem shortenLimit_lt {p : StoredPlan} {slot : Nat} (h : p.Sound slot) : p.shortenLimit < p.plan.cycle := by
  obtain ⟨h1, h2, -, -⟩ := planRefusal_passed h.passes
  have : p.plan.cycle * p.plan.shorten ≤ p.plan.cycle * 33 := Nat.mul_le_mul_left _ h2
  unfold StoredPlan.shortenLimit
  omega

/-- A coming cycle has a length (R90, R92, R96, R97). -/
theorem applyAmount_length {p : StoredPlan} {slot : Nat} (h : p.Sound slot) (m : Measure) (s : State) :
    0 < (applyAmount p m s).2.length := by
  have hc := (planRefusal_passed h.passes).1
  have hl := shortenLimit_lt h
  unfold applyAmount
  split
  · rename_i t _
    dsimp only
    cases t.direction
    · show 0 < p.plan.cycle
      omega
    · show 0 < p.plan.cycle - min _ p.shortenLimit
      omega
    · show 0 < p.plan.cycle + _
      omega
  · show 0 < p.plan.cycle
    omega

theorem comingCycle_length {p : StoredPlan} {slot : Nat} (h : p.Sound slot) (a : Adoption) (s : State) :
    0 < (comingCycle a p s).2.1.length := by
  have hc : 0 < (nominalFigures p.plan).length := by
    have := (planRefusal_passed h.passes).1
    show 0 < p.plan.cycle
    omega
  have one : ∀ r u, 0 < (judge p r u).2.1.length := by
    intro r u
    unfold judge
    dsimp only
    split_ifs
    · exact hc
    · exact applyAmount_length h _ _
    · exact applyAmount_length h _ _
  unfold comingCycle
  split
  · exact hc
  · exact one _ _
  · exact one _ _
  · exact hc
  · exact hc

/-- A stage's boundary lies below the sum of the splits, each of which is 1 at least (R80). -/
theorem boundsFrom_lt (k b : Nat) (splits : List Nat) (h : ∀ x ∈ splits, 1 ≤ x) (hs : 0 < b + splits.sum) :
    (boundsFrom b splits).getD k 0 < b + splits.sum := by
  induction splits generalizing k b with
  | nil => exact hs
  | cons x rest ih =>
    have hx := h x List.mem_cons_self
    rw [List.sum_cons] at *
    cases k with
    | zero =>
      show b < _
      omega
    | succ k =>
      have := ih k (b + x) (fun y hy => h y (List.mem_cons_of_mem _ hy)) (by omega)
      rw [Nat.add_assoc] at this
      exact this

theorem nominal_bound_lt {p : StoredPlan} {slot : Nat} (h : p.Sound slot) (k : Nat) :
    (nominalFigures p.plan).bound k < (nominalFigures p.plan).length := by
  obtain ⟨h1, -, h3, h4⟩ := planRefusal_passed h.passes
  have := boundsFrom_lt (k - 1) 0 p.plan.splits h4 (by omega)
  rw [Nat.zero_add, h3] at this
  exact this

/-- The plan found for a number is sound in that slot. -/
theorem storedPlan_sound {s : State} (h : Rooms s) {n : Nat} {p : StoredPlan} (hp : s.storedPlan n = some p) : p.Sound n :=
  ((store_sound_iff s.store).mp h.store).2.2.2 n p hp

/-! ### The cycle -/

theorem delivers_countCycle (s : State) : Delivers s (countCycle s) := by
  unfold countCycle
  split
  · split
    · exact Delivers.refl s
    · exact Delivers.plain
  · exact Delivers.refl s

theorem delivers_beginTransition (p : StoredPlan) (m : Measure) (s : State) (run : s.coord.state.runs) :
    Delivers s (beginTransition p m s) := by
  unfold beginTransition
  refine Delivers.trans ?_ (delivers_post _ _)
  exact Delivers.trans Delivers.plain (delivers_setCoord _ _ _ fun _ => .inl run)

theorem delivers_applyAmount (p : StoredPlan) (m : Measure) (s : State) : Delivers s (applyAmount p m s).1 := by
  unfold applyAmount
  split
  · exact Delivers.plain
  · exact Delivers.refl s

theorem countCycle_state (s : State) : (countCycle s).coord.state = s.coord.state := by
  unfold countCycle
  split
  · split <;> rfl
  · rfl

theorem delivers_judge (p : StoredPlan) (r : Reference) (s : State) (run : s.coord.state.runs) :
    Delivers s (judge p r s).1 := by
  have run : (countCycle { s with coord.measure := some (measureOf p.plan r s.clock.reading) }).coord.state.runs := by
    rw [countCycle_state]; exact run
  unfold judge
  have h : Delivers s (countCycle { s with coord.measure := some (measureOf p.plan r s.clock.reading) }) :=
    Delivers.trans Delivers.plain (delivers_countCycle _)
  refine h.trans ?_
  dsimp only
  split
  · exact (delivers_setCoord _ _ _ fun _ => .inl run).trans (delivers_abandonTransition _)
  · split
    · exact delivers_applyAmount _ _ _
    · exact (delivers_beginTransition _ _ _ run).trans (delivers_applyAmount _ _ _)

theorem delivers_trail (occasion : TrailOccasion) (yellow : Nat) (groups : GroupSet) (s : State) :
    Delivers s (trail occasion yellow groups s) := by
  unfold trail
  split
  · exact Delivers.refl s
  · refine Delivers.trans ?_ (delivers_post _ _)
    exact Delivers.trans Delivers.plain (delivers_command _ _ _)

theorem moves_seq (s : State) (q : Sequencer) : Moves s { s with seq := q } := Moves.blocks

theorem moves_beginGreen (k : Nat) (left : Option (TrailOccasion × Nat)) (s : State) :
    Moves s (beginGreen k left s) := by
  unfold beginGreen
  split
  · exact Moves.refl s
  · split
    · exact Moves.refl s
    · dsimp only
      refine Moves.trans ?_ (delivers_command _ _ _).moves
      refine Moves.trans ?_ (delivers_command _ _ _).moves
      split
      · exact (moves_seq s _).trans (delivers_trail _ _ _ _).moves
      · exact moves_seq s _

theorem delivers_handFigures (f : Figures) (position : Nat) (s : State) (h : position < f.length) :
    Delivers s (handFigures f position s) :=
  Delivers.plain (t := handFigures f position s) (coord := fun _ _ => h)

/-- Figures handed after an operation, where the soundness it leaves bounds P. -/
theorem Moves.handed {s t : State} (h : Moves s t) (f : Figures) (position : Nat) (k : Rooms t → position < f.length) :
    Moves s (handFigures f position t) :=
  ⟨h.pending, fun i => (delivers_handFigures f position t (k (h.inv i))).inv (h.inv i)⟩

theorem delivers_putInService (a : Adoption) (s : State) : Delivers s (putInService a s) := by
  unfold putInService
  cases h : s.store.activate a.plan with
  | none => exact Delivers.plain
  | some store => exact Delivers.activated h Delivers.plain

theorem delivers_takeStaged (s : State) : Delivers s (takeStaged s) := by
  unfold takeStaged
  split
  · exact Delivers.refl s
  · rename_i x _
    split
    · exact Delivers.plain
    · refine Delivers.trans ?_ (delivers_post _ _)
      refine Delivers.trans ?_ (delivers_abandonTransition _)
      exact (delivers_putInService x.adoption s).trans Delivers.plain

theorem delivers_comingCycle (a : Adoption) (p : StoredPlan) (s : State) : Delivers s (comingCycle a p s).1 := by
  unfold comingCycle
  split
  · exact Delivers.refl s
  · rename_i h; exact delivers_judge _ _ _ (.inr (.inl h))
  · rename_i h; exact delivers_judge _ _ _ (.inr (.inr h))
  · exact Delivers.refl s
  · exact Delivers.refl s

theorem delivers_raiseOverrun (raised : Bool) (s : State) : Delivers s (raiseOverrun raised s) := by
  unfold raiseOverrun
  split
  · exact Delivers.trans Delivers.plain (delivers_raise _ _ _)
  · exact Delivers.refl s

theorem moves_takeCycleEnd (s : State) : Moves s (takeCycleEnd s) := by
  unfold takeCycleEnd
  dsimp only
  have h : Delivers s (takeStaged { s with coord.finalMark := false, instants.cycleEnd := false }) :=
    Delivers.trans Delivers.plain (delivers_takeStaged _)
  split
  · exact h.moves
  · split
    · exact h.moves
    · rename_i a _ _ p hp
      refine Moves.trans ?_ (delivers_raiseOverrun _ _).moves
      refine Moves.trans ?_ (moves_beginGreen _ _ _)
      have k := delivers_comingCycle a p (takeStaged { s with coord.finalMark := false, instants.cycleEnd := false })
      exact (h.trans k).moves.handed _ _ fun i =>
        comingCycle_length (storedPlan_sound i ((k.kept.plans a.plan).trans hp)) a _

theorem delivers_beginClearance (r : RunState) (f : Figures) (st : StageRecord) (next : NextServed) (s : State) :
    Delivers s (beginClearance r f st next s) := by
  unfold beginClearance
  dsimp only
  exact Delivers.trans Delivers.plain (delivers_command _ _ _)

theorem delivers_takeGreenEnd (s : State) : Delivers s (takeGreenEnd s) := by
  unfold takeGreenEnd
  split
  · split
    · split
      · exact delivers_beginClearance _ _ _ _ s
      · dsimp only
        split
        · exact delivers_beginClearance _ _ _ _ s
        · exact Delivers.plain
    · exact Delivers.refl s
  · exact Delivers.refl s

theorem delivers_takeYellowEnd (s : State) : Delivers s (takeYellowEnd s) := by
  unfold takeYellowEnd
  split
  · split
    · exact Delivers.trans Delivers.plain (delivers_command _ _ _)
    · exact Delivers.refl s
  · exact Delivers.refl s

theorem moves_takeStageGreen (s : State) : Moves s (takeStageGreen s) := by
  unfold takeStageGreen
  split
  · split
    · exact moves_beginGreen _ _ s
    · exact Moves.refl s
    · exact Moves.refl s
  · exact Moves.refl s

theorem delivers_takeTrailingEnd (g : Group) (s : State) : Delivers s (takeTrailingEnd g s) := by
  unfold takeTrailingEnd
  exact Delivers.trans Delivers.plain (delivers_command _ _ _)

/-- Figures handed and a coordination state set come to the same in either order. -/
theorem handFigures_setCoord (f : Figures) (position : Nat) (state : CoordState) (cause : Option SuspensionCause) (s : State) :
    handFigures f position (setCoord state cause s) = setCoord state cause (handFigures f position s) := by
  have apart : ∀ (b : ReportBody) (u : State), handFigures f position (post b u) = post b (handFigures f position u) := by
    intro b u
    unfold post
    split_ifs <;> first | rfl | contradiction
  unfold setCoord
  by_cases h : s.coord.state = state ∧ s.coord.cause = cause
  · have k : (handFigures f position s).coord.state = state ∧ (handFigures f position s).coord.cause = cause := h
    rw [if_pos h, if_pos k]
  · have k : ¬ ((handFigures f position s).coord.state = state ∧ (handFigures f position s).coord.cause = cause) := h
    rw [if_neg h, if_neg k, apart]
    rfl

theorem pending_setCoord (state : CoordState) (cause : Option SuspensionCause) (s : State) :
    (setCoord state cause s).pending = s.pending := by
  unfold setCoord
  split
  · rfl
  · exact (delivers_post _ _).kept.pending

theorem pending_leaveSuspended (s : State) : (leaveSuspended s).pending = s.pending := by
  have k := (delivers_abandonTransition s).kept.pending
  unfold leaveSuspended
  dsimp only
  split
  · exact (pending_setCoord _ _ _).trans k
  · exact (pending_setCoord .correcting none _).trans k

/-- SUSPENDED left with the figures of the cycle that begins (R101, R102). -/
theorem delivers_leaveWith (f : Figures) (position : Nat) (s : State) (h : position < f.length) :
    Delivers s (handFigures f position (leaveSuspended s)) := by
  unfold leaveSuspended
  refine (delivers_abandonTransition s).trans ?_
  generalize abandonTransition s = u
  dsimp only
  split
  · rw [handFigures_setCoord]
    exact (delivers_handFigures f position u h).trans (delivers_setCoord _ _ _ fun _ => .inr h)
  · have e : handFigures f position { setCoord .correcting none u with coord.transition := some pendingTransition } =
        { setCoord .correcting none (handFigures f position u) with coord.transition := some pendingTransition } := by
      rw [← handFigures_setCoord]; rfl
    rw [e]
    exact ((delivers_handFigures f position u h).trans (delivers_setCoord .correcting none _ fun _ => .inr h)).trans
      Delivers.plain

theorem delivers_chooseFirstPlan (s : State) : Delivers s (chooseFirstPlan s) := by
  unfold chooseFirstPlan
  split
  · rename_i x _
    refine Delivers.trans ?_ (delivers_post _ _)
    exact (delivers_putInService x.adoption s).trans Delivers.plain
  · split
    · exact Delivers.refl s
    · exact (delivers_putInService _ s).trans (delivers_post _ _)

theorem moves_leaveWith (f : Figures) (position : Nat) (s : State) (h : Rooms s → position < f.length) :
    Moves s (handFigures f position (leaveSuspended s)) := by
  refine ⟨?_, fun i => (delivers_leaveWith f position s (h i)).inv i⟩
  have k := pending_leaveSuspended s
  generalize leaveSuspended s = u at *
  exact k

theorem moves_beginNominal (k : Nat) (left : Option (TrailOccasion × Nat)) (s : State) :
    Moves s (beginNominal k left s) := by
  unfold beginNominal
  split
  · exact Moves.refl s
  · rename_i p hp
    obtain ⟨a, -, hp⟩ := Option.bind_eq_some_iff.mp hp
    dsimp only
    refine Moves.trans ?_ (moves_beginGreen _ _ _)
    refine Moves.trans ?_ (delivers_setSeq _ _).moves
    exact moves_leaveWith _ _ s fun i => nominal_bound_lt (storedPlan_sound i hp) k

theorem moves_endStartupRed (s : State) : Moves s (endStartupRed s) := by
  unfold endStartupRed
  refine Moves.trans ?_ (moves_beginNominal _ _ _)
  refine Moves.trans ?_ (delivers_chooseFirstPlan _).moves
  exact moves_seq s _

theorem delivers_emptyStaged (s : State) : Delivers s (emptyStaged s) := by
  unfold emptyStaged
  split
  · exact Delivers.unstaged Delivers.plain
  · exact Delivers.refl s

theorem delivers_chooseResume (o : Option Override) (s : State) : Delivers s (chooseResume o s) := by
  unfold chooseResume
  split
  · dsimp only
    have h : ∀ t : State, Delivers s t →
        Delivers s
          (if t.coord.active = some s.fallbackAdoption then emptyStaged t
          else post (.planAdopted s.fallbackAdoption .resume) (emptyStaged (putInService s.fallbackAdoption t))) := by
      intro t ht
      split
      · exact ht.trans (delivers_emptyStaged t)
      · exact ((ht.trans (delivers_putInService _ _)).trans (delivers_emptyStaged _)).trans (delivers_post _ _)
    split
    · exact h _ Delivers.plain
    · exact h _ (Delivers.refl s)
  · rename_i o _
    refine Delivers.trans ?_ (delivers_post _ _)
    refine Delivers.trans ?_ (delivers_emptyStaged _)
    exact (delivers_putInService o.adoption s).trans Delivers.plain
  · rename_i a _
    dsimp only
    refine Delivers.trans ?_ (delivers_post _ _)
    split
    · exact (((delivers_post _ s).trans (delivers_putInService a _))).trans Delivers.plain
    · exact (delivers_putInService a s).trans Delivers.plain
  · split
    · exact delivers_post _ _
    · exact Delivers.refl s

theorem moves_resume (exit : Nat) (o : Option Override) (yellow : Nat) (s : State) :
    Moves s (resume exit o yellow s) :=
  (delivers_chooseResume o s).moves.trans (moves_beginNominal _ _ _)

/-! ### Preemption -/

theorem delivers_beginDwell (s : State) : Delivers s (beginDwell s) := by
  unfold beginDwell
  split
  · exact Delivers.refl s
  · rename_i i _
    dsimp only
    refine Delivers.trans ?_ (delivers_command _ _ _)
    refine Delivers.trans ?_ (delivers_command _ _ _)
    exact (delivers_setPreempt .dwell (some i) s).trans Delivers.plain

theorem delivers_clearOutside (s : State) : Delivers s (clearOutside s) := by
  unfold clearOutside
  have h : Delivers s
      (command (s.leftGreen s.runningRoute.track) .yellow
        { s with
          preempt := { s.preempt.startClearing (s.leftGreen s.runningRoute.track) with greenHold := none } }) :=
    Delivers.trans Delivers.plain (delivers_command _ _ _)
  refine h.trans ?_
  dsimp only
  split
  · split
    · exact Delivers.refl _
    · exact delivers_beginDwell _
  · exact Delivers.plain

theorem delivers_enterWith (hold : Nat) (s : State) : Delivers s (enterWith hold s) := by
  unfold enterWith
  split
  · exact Delivers.plain
  · exact delivers_clearOutside s

theorem delivers_yieldJunction (s : State) : Delivers s (yieldJunction s) := by
  unfold yieldJunction
  exact (delivers_setSeq .yielded s).trans Delivers.plain

theorem delivers_grantTo (i : PreemptInput) (h : HandOver) (s : State) : Delivers s (grantTo i h s) := by
  unfold grantTo
  dsimp only
  refine Delivers.trans ?_ (delivers_enterWith _ _)
  refine Delivers.trans ?_ (delivers_setPreempt _ _ _)
  refine Delivers.trans ?_ (delivers_settleAction _ _ _)
  refine Delivers.trans ?_ (delivers_suspend _ _)
  exact Delivers.trans Delivers.plain (delivers_yieldJunction _)

theorem delivers_grantTake (s : State) : Delivers s (grantTake s) := by
  unfold grantTake
  split
  · exact delivers_grantTo _ _ s
  · exact Delivers.refl s

theorem delivers_requestTake (s : State) : Delivers s (requestTake s) := by
  unfold requestTake
  split
  · exact delivers_grantTake s
  · exact Delivers.plain
  · exact Delivers.plain
  · exact Delivers.refl s

theorem delivers_directRun (i : PreemptInput) (s : State) : Delivers s (directRun i s) := by
  unfold directRun
  dsimp only
  refine Delivers.trans ?_ (delivers_clearOutside _)
  exact Delivers.trans Delivers.plain (delivers_setPreempt _ _ _)

theorem delivers_takeOver (s : State) : Delivers s (takeOver s) := by
  unfold takeOver
  dsimp only
  refine Delivers.trans ?_ (delivers_enterWith _ _)
  refine Delivers.trans ?_ (delivers_setPreempt _ _ _)
  exact Delivers.trans Delivers.plain (delivers_post _ _)

theorem moves_handBack (s : State) : Moves s (handBack s) := by
  unfold handBack
  split
  · rename_i r i _ _
    dsimp only
    refine Moves.trans ?_ (delivers_post _ _).moves
    have h := ((moves_resume r.resumeStage r.override (s.route i).yellow s).trans
      (delivers_unstageOverride r.override _).moves).trans (delivers_setPreempt .idle (some i) _).moves
    exact h.trans Moves.blocks
  · exact Moves.refl s

theorem moves_enterLeaving (s : State) : Moves s (enterLeaving s) := by
  unfold enterLeaving
  split
  · exact Moves.refl s
  · rename_i r _
    dsimp only
    have h : Moves s
        (setPreempt .leaving s.preempt.running
          { s with preempt.expected := some (s.expectedSet r.resumeStage r.override) }) :=
      Moves.trans Moves.blocks (delivers_setPreempt _ _ _).moves
    have k := (h.trans (Moves.blocks (t := { setPreempt .leaving s.preempt.running
          { s with preempt.expected := some (s.expectedSet r.resumeStage r.override) } with
        preempt := (setPreempt .leaving s.preempt.running
          { s with preempt.expected := some (s.expectedSet r.resumeStage r.override) }).preempt.startClearing
            (s.leftGreen (s.expectedSet r.resumeStage r.override)) }))).trans
      (delivers_command (s.leftGreen (s.expectedSet r.resumeStage r.override)) .yellow _).moves
    split
    · exact k.trans (moves_handBack _)
    · exact k

theorem moves_endDwell (s : State) : Moves s (endDwell s) := by
  unfold endDwell
  split
  · split
    · exact (delivers_directRun _ s).moves
    · exact moves_enterLeaving s
  · exact moves_enterLeaving s

theorem moves_endAllRed (s : State) : Moves s (endAllRed s) := by
  unfold endAllRed
  split
  · exact Moves.trans Moves.blocks (delivers_beginDwell _).moves
  · exact Moves.trans Moves.blocks (moves_handBack _)
  · exact Moves.refl s
  · exact Moves.refl s

theorem moves_takeClearingEnd (g : Group) (s : State) : Moves s (takeClearingEnd g s) := by
  unfold takeClearingEnd
  have h : Moves s
      (command (1#16 <<< g.val) .red
        { s with
          preempt.clearing := s.preempt.clearing.filter fun c => decide (c.group ≠ g)
          preempt.clearedAllRed := clearedAllRedWith s.preempt.clearedAllRed g s.preempt.clearing }) :=
    Moves.trans Moves.blocks (delivers_command _ _ _).moves
  refine h.trans ?_
  dsimp only
  split
  · split
    · exact moves_endAllRed _
    · exact Moves.blocks
  · exact Moves.refl _

theorem moves_preempt (s : State) (p : Preemption) : Moves s { s with preempt := p } := Moves.blocks

theorem moves_takeActivation (i : PreemptInput) (s : State) : Moves s (takeActivation i s) := by
  unfold takeActivation
  have h := moves_preempt s (s.preempt.setInput i { s.preempt.input i with active := true, count := 0 })
  refine h.trans ?_
  dsimp only
  split
  · exact Moves.refl _
  · split
    · exact (delivers_requestTake _).moves
    · split
      · exact (delivers_takeOver _).moves
      · exact Moves.blocks
      · exact Moves.refl _
    · split
      · exact (delivers_takeOver _).moves
      · exact Moves.blocks
      · exact Moves.refl _
    · exact (delivers_directRun _ _).moves

theorem delivers_withdrawStuck (i : PreemptInput) (s : State) : Delivers s (withdrawStuck i s) := by
  unfold withdrawStuck
  split
  · exact Delivers.trans Delivers.plain (delivers_withdraw _ _)
  · exact Delivers.refl s

theorem moves_takeRelease (i : PreemptInput) (s : State) : Moves s (takeRelease i s) := by
  have tail : ∀ u : State, Moves u
      (match u.preempt.state with
      | .idle =>
        if u.preempt.heldTake && u.preempt.claimant.isNone then
          { u with preempt.heldTake := false, seq.heldTake := false }
        else u
      | .dwell => if u.preempt.running = some i ∧ u.runningRoute.minDwell ≤ u.preempt.dwell then endDwell u else u
      | .entering | .leaving => u) := by
    intro u
    split
    · split
      · exact Moves.blocks
      · exact Moves.refl u
    · split
      · exact moves_endDwell u
      · exact Moves.refl u
    · exact Moves.refl u
    · exact Moves.refl u
  have wait : ∀ u : State, Moves u (if u.preempt.waiting = some i then { u with preempt.waiting := none } else u) := by
    intro u
    split
    · exact Moves.blocks
    · exact Moves.refl u
  have start := moves_preempt s (s.preempt.setInput i { active := false, count := 0, ignored := false })
  have stuck : ∀ (b : Bool) (u : State), Moves u (if b = true then withdrawStuck i u else u) := by
    intro b u
    split
    · exact (delivers_withdrawStuck i u).moves
    · exact Moves.refl u
  unfold takeRelease
  exact ((start.trans (stuck (s.preempt.input i).ignored _)).trans (wait _)).trans (tail _)

theorem moves_takeMaximumHold (i : PreemptInput) (s : State) : Moves s (takeMaximumHold i s) := by
  have start := moves_preempt s (s.preempt.setInput i { s.preempt.input i with ignored := true })
  have stuck : ∀ (n : Nat) (u : State), Moves u
      (if u.preempt.stuckRaised then u else raise .preemptStuck (some n) { u with preempt.stuckRaised := true }) := by
    intro n u
    split
    · exact Moves.refl u
    · exact Moves.trans Moves.blocks (delivers_raise _ _ _).moves
  have tail : ∀ u : State, Moves u (if u.preempt.state = .dwell ∧ u.preempt.running = some i then endDwell u else u) := by
    intro u
    split
    · exact moves_endDwell u
    · exact Moves.refl u
  unfold takeMaximumHold
  exact (start.trans (stuck _ _)).trans (tail _)

end Sys2Proof.Machine
end

