-- ==== Sys2Proof/Laws/InstantMoves.lean ====
section
/-! SUPPORT. What the events, the running of the clock and the boundary keep, and which event is taken first. -/

namespace Sys2Proof.Machine

set_option Elab.async false

theorem moves_takeIssuedEnd (stamp : NetTime) (s : State) : Moves s (takeIssuedEnd stamp s) :=
  Moves.blocks (t := takeIssuedEnd stamp s)
    (orders := fun k => ⟨k.entries, Nat.le_trans (List.length_filter_le _ _) k.issued, k.keys, k.placeholders,
      k.stamps.sublist (List.Sublist.map _ List.filter_sublist), k.oneInForce⟩)

theorem moves_takeRepeat (stamp : NetTime) (s : State) : Moves s (takeRepeat stamp s) := by
  unfold takeRepeat
  split
  · exact moves_repeatIssued _ s
  · exact Moves.refl s

theorem moves_takeStartupEnd (s : State) : Moves s (takeStartupEnd s) := by
  unfold takeStartupEnd
  refine (moves_endStartupRed s).trans ?_
  dsimp only
  split
  · exact (delivers_grantTake _).moves
  · exact Moves.refl _

theorem moves_takeToggle (s : State) : Moves s (takeToggle s) :=
  Moves.blocks (t := takeToggle s) (bank := toggle_sound s.bank s.cfg.flashYellow)

theorem delivers_takeGreenFaulted (g : Group) (s : State) : Delivers s (takeGreenFaulted g s) :=
  (delivers_markGreenFaulted g s).trans (delivers_settleAction _ _ _)

theorem delivers_takeLampFaulted (g : Group) (s : State) : Delivers s (takeLampFaulted g s) :=
  (delivers_markLampFaulted g s).trans (delivers_settleAction _ _ _)

theorem delivers_takeGreenClean (g : Group) (s : State) : Delivers s (takeGreenClean g s) :=
  (delivers_markGreenClean g s).trans (delivers_settleAction _ _ _)

theorem delivers_takeLampClean (g : Group) (s : State) : Delivers s (takeLampClean g s) :=
  (delivers_markLampClean g s).trans (delivers_settleAction _ _ _)

theorem moves_takeGreenHoldEnd (s : State) : Moves s (takeGreenHoldEnd s) :=
  (moves_preempt s _).trans (delivers_clearOutside _).moves

theorem moves_takeMaximum (s : State) : Moves s (takeMaximum s) := by
  unfold takeMaximum
  split
  · exact moves_takeMaximumHold _ s
  · exact Moves.refl s

theorem moves_takeRelayWait (s : State) : Moves s (takeRelayWait s) :=
  Moves.blocks (t := takeRelayWait s) (line := fun h => ⟨h.queue, h.dedup, h.noRepeats, h.oneTime⟩)

theorem moves_takeBackoff (s : State) : Moves s (takeBackoff s) :=
  Moves.blocks (t := takeBackoff s) (line := fun h => ⟨h.queue, h.dedup, h.noRepeats, h.oneTime⟩)

theorem moves_takeFrameInstant (s : State) : Moves s (takeFrameInstant s) :=
  (moves_roundFirst s).trans (moves_takeTimeBuild _)

/-! ### The end of DEFER -/

/-- A change of the line that keeps its two bounded lists within their room. -/
theorem moves_line (s : State) (l : LineInterface) (h : s.line.Sound → l.Sound) : Moves s { s with line := l } :=
  Moves.blocks (line := h)

theorem rest_length (l : LineInterface) : l.rest.length ≤ l.queue.length := by
  unfold LineInterface.rest
  split
  · exact Nat.le_refl _
  · simp

theorem rest_oneTime {l : LineInterface} (h : (l.queue.filter Frame.isTime).length ≤ 1) :
    (l.rest.filter Frame.isTime).length ≤ 1 := by
  unfold LineInterface.rest
  split
  · exact h
  · exact Nat.le_trans (List.Sublist.length_le ((List.drop_sublist 1 l.queue).filter _)) h

theorem moves_meetGap (s : State) : Moves s (meetGap s) := by
  unfold meetGap
  split
  · refine Moves.trans ?_ (moves_beginAttempt _ _)
    exact moves_line s _ fun h => ⟨Nat.le_trans (rest_length _) h.queue, h.dedup, h.noRepeats, rest_oneTime h.oneTime⟩
  · exact Moves.refl s

theorem moves_reachDeferLimit (s : State) : Moves s (reachDeferLimit s) := by
  unfold reachDeferLimit
  split
  · refine Moves.trans ?_ (moves_attemptFailed _ _)
    exact moves_line s _ fun h => ⟨Nat.le_trans (rest_length _) h.queue, h.dedup, h.noRepeats, rest_oneTime h.oneTime⟩
  · exact Moves.refl s

/-! ### The first event that is due -/

theorem moves_takeClockDue {s t : State} (h : takeClockDue s = some t) : Moves s t := by
  unfold takeClockDue at h
  split at h
  · exact Option.some.inj h ▸ moves_takeRound s
  · split at h
    · exact Option.some.inj h ▸ moves_takeTimeBuild s
    · split at h
      · exact Option.some.inj h ▸ moves_evaluateOrders none s
      · split at h
        · exact Option.some.inj h ▸ moves_evaluateOrders none s
        · split at h
          · exact Option.some.inj h ▸ moves_takeIssuedEnd _ s
          · split at h
            · exact Option.some.inj h ▸ moves_takeRepeat _ s
            · split at h
              · exact Option.some.inj h ▸ moves_takeCalendar s
              · cases h

theorem moves_takeCycleDue {s t : State} (h : takeCycleDue s = some t) : Moves s t := by
  unfold takeCycleDue at h
  split at h
  · exact Option.some.inj h ▸ moves_takeRelease _ s
  · split at h
    · exact Option.some.inj h ▸ moves_takeRelease _ s
    · split at h
      · exact Option.some.inj h ▸ moves_takeActivation _ s
      · split at h
        · exact Option.some.inj h ▸ moves_takeActivation _ s
        · split at h
          · exact Option.some.inj h ▸ moves_takeCycleEnd s
          · split at h
            · exact Option.some.inj h ▸ (delivers_takeGreenEnd s).moves
            · split at h
              · exact Option.some.inj h ▸ (delivers_takeYellowEnd s).moves
              · split at h
                · exact Option.some.inj h ▸ moves_takeStageGreen s
                · split at h
                  · exact Option.some.inj h ▸ (delivers_takeTrailingEnd _ s).moves
                  · split at h
                    · exact Option.some.inj h ▸ moves_takeStartupEnd s
                    · cases h

theorem moves_takeOutputDue {s t : State} (h : takeOutputDue s = some t) : Moves s t := by
  unfold takeOutputDue at h
  split at h
  · exact Option.some.inj h ▸ moves_takeToggle s
  · split at h
    · exact Option.some.inj h ▸ (delivers_takeGreenFaulted _ s).moves
    · exact Option.some.inj h ▸ (delivers_takeGreenClean _ s).moves
    · exact Option.some.inj h ▸ (delivers_takeLampFaulted _ s).moves
    · exact Option.some.inj h ▸ (delivers_takeLampClean _ s).moves
    · split at h
      · exact Option.some.inj h ▸ moves_takeGreenHoldEnd s
      · split at h
        · exact Option.some.inj h ▸ moves_takeClearingEnd _ s
        · split at h
          · exact Option.some.inj h ▸ moves_endAllRed s
          · split at h
            · exact Option.some.inj h ▸ moves_takeMaximum s
            · split at h
              · exact Option.some.inj h ▸ moves_endDwell s
              · split at h
                · exact Option.some.inj h ▸ moves_takeBackoff s
                · split at h
                  · exact Option.some.inj h ▸ moves_reachDeferLimit s
                  · cases h

theorem moves_takeFirstDue {s t : State} (h : takeFirstDue s = some t) : Moves s t := by
  unfold takeFirstDue at h
  split at h
  · rename_i k
    exact Option.some.inj h ▸ moves_takeClockDue k
  · split at h
    · rename_i k
      exact Option.some.inj h ▸ moves_takeCycleDue k
    · exact moves_takeOutputDue h

/-! ### Running to an instant -/

theorem moves_passHeld (s : State) : Moves s (passHeld s) := by
  unfold passHeld
  split
  · exact Moves.blocks (line := lineAfter_sound 1 s)
  · exact Moves.refl s

theorem moves_nextInstant (s : State) : Moves s (nextInstant s) := by
  unfold nextInstant
  split
  · rename_i h
    exact moves_takeFirstDue h
  · split
    · exact moves_passHeld s
    · exact moves_runClock _ s

theorem moves_runUntil (due : State → Bool) (n : Nat) (s : State) : Moves s (runUntil due n s) := by
  induction n generalizing s with
  | zero => exact Moves.refl s
  | succ n ih =>
    unfold runUntil
    split
    · exact Moves.refl s
    · exact (moves_nextInstant s).trans (ih _)

/-- A clock event that is due is taken at once. -/
theorem whenReached_of_due {due : State → Bool} {s : State} (take : State → State) (h : due s = true) :
    whenReached due take s = take s := by
  have reached : runUntil due runFuel s = s := by simp [runFuel, runUntil, h]
  simp [whenReached, reached, h]

/-- With no round reached and no slew left the clock only passes the boundary it stands at. -/
theorem settleClock_plain {s : State} (hround : (s.running && s.instants.round) = false) (hslew : s.clock.slew = 0) :
    settleClock s = { s with instants.boundary := false } := by
  have first : roundFirst s = s := by simp [roundFirst, hround]
  unfold settleClock
  simp only [first]
  split
  · simp [slewMillisecond, hslew]
  · rename_i h
    simp only [Bool.not_eq_true] at h
    rw [← h]

theorem moves_whenReached (due : State → Bool) (take : State → State) (h : ∀ s, Moves s (take s)) (s : State) :
    Moves s (whenReached due take s) := by
  unfold whenReached
  dsimp only
  split
  · exact (moves_runUntil due _ s).trans (h _)
  · exact Moves.refl s

/-! ### The boundary -/

theorem moves_stepPosition (s : State) : Moves s (stepPosition s) := by
  unfold stepPosition
  split
  all_goals first
    | exact Moves.refl s
    | (split
       · exact Moves.blocks
       · refine Moves.blocks (coord := fun _ _ => ?_)
         dsimp only
         omega)

theorem moves_stepSequencer (s : State) : Moves s (stepSequencer s) := by
  unfold stepSequencer
  split <;> first | exact Moves.refl s | exact Moves.blocks

theorem moves_stepFlash (s : State) : Moves s (stepFlash s) := by
  unfold stepFlash
  split
  · split
    · exact Moves.blocks
    · exact Moves.blocks (bank := fun h => ⟨h.noGreenInFlash, ⟨by dsimp only; omega, by
        have := h.half.2
        dsimp only
        omega⟩, h.settle⟩)
  · exact Moves.refl s

theorem moves_stepClearing (s : State) : Moves s (stepClearing s) := by
  unfold stepClearing
  split <;> exact Moves.blocks

theorem moves_stepPreemption (s : State) : Moves s (stepPreemption s) := by
  unfold stepPreemption
  split
  · exact Moves.refl s
  · split
    · exact Moves.blocks
    · exact moves_stepClearing s
  · exact Moves.blocks
  · exact moves_stepClearing s

theorem moves_stepTiming (s : State) : Moves s (stepTiming s) := by
  have last : ∀ u : State, Moves u { u with instants.timing := true } := fun _ => Moves.blocks
  unfold stepTiming
  exact ((((moves_stepPosition s).trans (moves_stepSequencer _)).trans (moves_stepFlash _)).trans
    (moves_stepPreemption _)).trans (last _)

theorem moves_timed (s : State) : Moves s (timed s) := by
  unfold timed
  split
  · exact Moves.refl s
  · exact moves_stepTiming s

theorem moves_sampleCabinet (level : Bool) (s : State) : Moves s (sampleCabinet level s) := by
  have start : Moves s { s with bank.cabinetSampled := level } :=
    Moves.blocks (bank := fun h => ⟨h.noGreenInFlash, h.half, h.settle⟩)
  have tail : ∀ u : State, Moves u
      (if level && !u.bank.cabinetRaised then raise .cabinetFlash none { u with bank.cabinetRaised := true }
      else if !level && u.bank.cabinetRaised then withdraw .cabinetFlash { u with bank.cabinetRaised := false }
      else u) := by
    intro u
    split
    · refine Moves.trans ?_ (delivers_raise _ _ _).moves
      exact Moves.blocks (bank := fun h => ⟨h.noGreenInFlash, h.half, h.settle⟩)
    · split
      · refine Moves.trans ?_ (delivers_withdraw _ _).moves
        exact Moves.blocks (bank := fun h => ⟨h.noGreenInFlash, h.half, h.settle⟩)
      · exact Moves.refl u
  unfold sampleCabinet
  exact start.trans (tail _)

theorem moves_takeSamples (levels : Levels) (s : State) : Moves s (takeSamples levels s) := by
  have last : ∀ u : State, Moves u (samplePreempt levels u) := fun u => moves_preempt u _
  unfold takeSamples
  split
  · dsimp only
    refine Moves.trans ?_ (last _)
    refine Moves.trans ?_ (moves_sampleCabinet _ _)
    exact Moves.blocks (bank := sample_sound s.bank s.cfg.monitored levels)
  · exact Moves.refl s

theorem moves_boundaryWork (levels : Levels) (s : State) : Moves s (boundaryWork levels s) := by
  have start : Moves s { s with pins := levels } := Moves.blocks
  have last : ∀ u : State, Moves u { u with instants.boundary := false, instants.timing := false } :=
    fun _ => Moves.blocks
  unfold boundaryWork
  exact ((((start.trans (moves_roundFirst _)).trans (moves_timed _)).trans (moves_takeSamples levels _)).trans
    (moves_slewMillisecond _)).trans (last _)

theorem moves_toBoundary (s : State) : Moves s (toBoundary s) := moves_runUntil _ _ s

theorem moves_takeBoundary (levels : Levels) (s : State) : Moves s (takeBoundary levels s) :=
  (moves_toBoundary s).trans (moves_boundaryWork levels _)

theorem moves_whenDue (due : State → Bool) (take : State → State) (h : ∀ s, Moves s (take s)) (s : State) :
    Moves s (whenDue due take s) := by
  unfold whenDue
  dsimp only
  split
  · exact h s
  · split
    · exact ((moves_toBoundary s).trans (moves_timed _)).trans (h _)
    · exact Moves.refl s

theorem moves_whenSampled (due : State → Bool) (take : State → State) (h : ∀ s, Moves s (take s)) (s : State) :
    Moves s (whenSampled due take s) := by
  unfold whenSampled
  split
  · exact h s
  · exact Moves.refl s

theorem moves_tick (s : State) : Moves s (tick s) := by
  unfold tick
  split
  · rename_i k
    exact moves_takeFirstDue k
  · split
    · exact moves_boundaryWork _ s
    · split
      · exact moves_passHeld s
      · exact moves_runClock _ s

/-! ### Events that are due -/

theorem due_now_clock {c : Instr} {due : State → Bool} {take : State → State} {s : State} (hc : clockDue c = some due)
    (relay : c ≠ .relayWaitExpiry) (gap : c ≠ .idleGapMet) (he : exec c s = .next (whenReached due take s))
    (h : due s = true) : DueNow c s ∧ exec c s = .next (take s) :=
  ⟨⟨relay, gap, due, .inl hc, h⟩, by rw [he, whenReached_of_due take h]⟩

theorem due_now_boundary {c : Instr} {due : State → Bool} {take : State → State} {s : State}
    (hc : boundaryDue c = some due) (relay : c ≠ .relayWaitExpiry) (gap : c ≠ .idleGapMet)
    (he : exec c s = .next (whenDue due take s)) (h : due s = true) : DueNow c s ∧ exec c s = .next (take s) :=
  ⟨⟨relay, gap, due, .inr (.inl hc), h⟩, by rw [he]; simp [whenDue, h]⟩

theorem due_now_sample {c : Instr} {due : State → Bool} {take : State → State} {s : State}
    (hc : sampleDue c = some due) (relay : c ≠ .relayWaitExpiry) (gap : c ≠ .idleGapMet)
    (he : exec c s = .next (whenSampled due take s)) (h : due s = true) : DueNow c s ∧ exec c s = .next (take s) :=
  ⟨⟨relay, gap, due, .inr (.inr hc), h⟩, by rw [he]; simp [whenSampled, h]⟩

theorem takeClockDue_due {s t : State} (h : takeClockDue s = some t) : ∃ c, DueNow c s ∧ exec c s = .next t := by
  unfold takeClockDue at h
  split at h
  · rename_i k
    cases h
    exact ⟨.round, due_now_clock rfl nofun nofun rfl k⟩
  rename_i round
  split at h
  · rename_i k
    cases h
    have q := due_now_clock (c := .timeFrameBuild) rfl nofun nofun rfl k
    refine ⟨.timeFrameBuild, q.1, ?_⟩
    rw [q.2]
    simp only [takeFrameInstant, roundFirst]
    rw [if_neg]
    exact round
  split at h
  · rename_i k
    cases h
    exact ⟨.orderEndInstant, due_now_clock rfl nofun nofun rfl k⟩
  split at h
  · rename_i k
    cases h
    exact ⟨.orderStartInstant, due_now_clock rfl nofun nofun rfl k⟩
  split at h
  · rename_i i k
    cases h
    exact ⟨.issuedEndInstant i.key.stamp,
      due_now_clock (take := takeIssuedEnd i.key.stamp) rfl nofun nofun rfl
        (List.find?_some (p := fun i : IssuedEntry => s.issuedEndDue i.key.stamp) k)⟩
  split at h
  · rename_i i k
    cases h
    exact ⟨.repeatInstant i.key.stamp,
      due_now_clock (take := takeRepeat i.key.stamp) rfl nofun nofun rfl 
        (List.find?_some (p := fun i : IssuedEntry => s.repeatDue i.key.stamp) k)⟩
  split at h
  · rename_i k
    cases h
    exact ⟨.calendarInstant, due_now_clock rfl nofun nofun rfl k⟩
  · cases h

theorem takeCycleDue_due {s t : State} (h : takeCycleDue s = some t) : ∃ c, DueNow c s ∧ exec c s = .next t := by
  unfold takeCycleDue at h
  split at h
  · rename_i k
    cases h
    exact ⟨.preemptRelease .pe1, due_now_sample (take := takeRelease .pe1) rfl nofun nofun rfl k⟩
  split at h
  · rename_i k
    cases h
    exact ⟨.preemptRelease .pe2, due_now_sample (take := takeRelease .pe2) rfl nofun nofun rfl k⟩
  split at h
  · rename_i k
    cases h
    exact ⟨.preemptActivation .pe1, due_now_sample (take := takeActivation .pe1) rfl nofun nofun rfl k⟩
  split at h
  · rename_i k
    cases h
    exact ⟨.preemptActivation .pe2, due_now_sample (take := takeActivation .pe2) rfl nofun nofun rfl k⟩
  split at h
  · rename_i k
    cases h
    exact ⟨.cycleEnd, due_now_boundary rfl nofun nofun rfl k⟩
  split at h
  · rename_i k
    cases h
    exact ⟨.greenEnd, due_now_boundary rfl nofun nofun rfl k⟩
  split at h
  · rename_i k
    cases h
    exact ⟨.yellowEnd, due_now_boundary rfl nofun nofun rfl k⟩
  split at h
  · rename_i k
    cases h
    exact ⟨.stageGreenBegin, due_now_boundary rfl nofun nofun rfl k⟩
  split at h
  · rename_i g k
    cases h
    exact ⟨.trailingYellowEnd g, due_now_boundary (take := takeTrailingEnd g) rfl nofun nofun rfl (List.find?_some k)⟩
  split at h
  · rename_i k
    cases h
    exact ⟨.startupRedEnd, due_now_boundary rfl nofun nofun rfl k⟩
  · cases h

theorem takeOutputDue_due {s t : State} (h : takeOutputDue s = some t) : ∃ c, DueNow c s ∧ exec c s = .next t := by
  unfold takeOutputDue at h
  split at h
  · rename_i k
    cases h
    exact ⟨.flashToggle, due_now_boundary rfl nofun nofun rfl k⟩
  split at h
  · rename_i g k
    cases h
    exact ⟨.greenSenseFaulted g, due_now_sample (take := takeGreenFaulted g) rfl nofun nofun rfl (List.find?_some k)⟩
  · rename_i g _ k
    cases h
    exact ⟨.greenSenseClean g, due_now_sample (take := takeGreenClean g) rfl nofun nofun rfl (List.find?_some k)⟩
  · rename_i g _ _ k
    cases h
    exact ⟨.lampOutFaulted g, due_now_sample (take := takeLampFaulted g) rfl nofun nofun rfl (List.find?_some k)⟩
  · rename_i g _ _ _ k
    cases h
    exact ⟨.lampOutClean g, due_now_sample (take := takeLampClean g) rfl nofun nofun rfl (List.find?_some k)⟩
  split at h
  · rename_i k
    cases h
    exact ⟨.greenHoldEnd, due_now_boundary rfl nofun nofun rfl k⟩
  split at h
  · rename_i g k
    cases h
    exact ⟨.clearingYellowEnd g, due_now_boundary (take := takeClearingEnd g) rfl nofun nofun rfl (List.find?_some k)⟩
  split at h
  · rename_i k
    cases h
    exact ⟨.preemptAllRedEnd, due_now_boundary rfl nofun nofun rfl k⟩
  split at h
  · rename_i k
    cases h
    exact ⟨.maximumHold, due_now_boundary rfl nofun nofun rfl k⟩
  split at h
  · rename_i k
    cases h
    exact ⟨.minimumDwellReached, due_now_boundary rfl nofun nofun rfl k⟩
  split at h
  · rename_i k
    cases h
    exact ⟨.backoffExpiry, due_now_clock rfl nofun nofun rfl k⟩
  split at h
  · rename_i k
    cases h
    exact ⟨.deferTimeout, due_now_clock rfl nofun nofun rfl k⟩
  · cases h

/-- The event taken first is one that is due. -/
theorem takeFirstDue_due {s t : State} (h : takeFirstDue s = some t) : ∃ c, DueNow c s ∧ exec c s = .next t := by
  unfold takeFirstDue at h
  split at h
  · rename_i k
    cases h
    exact takeClockDue_due k
  · split at h
    · rename_i k
      cases h
      exact takeCycleDue_due k
    · exact takeOutputDue_due h

theorem find_none_group {due : Group → Bool} (h : groupList.find? due = none) (g : Group) : due g = false := by
  have := List.find?_eq_none.mp h g (by unfold groupList; simp)
  simpa using this

/-- Where none is taken first, none is due. -/
theorem takeFirstDue_none {s : State} (h : takeFirstDue s = none) (c : Instr) : ¬ DueNow c s := by
  unfold takeFirstDue at h
  split at h
  · cases h
  rename_i clock
  split at h
  · cases h
  rename_i cycle
  rintro ⟨relay, gap, due, hd, ht⟩
  unfold takeClockDue at clock
  unfold takeCycleDue at cycle
  unfold takeOutputDue at h
  split at clock <;> first | contradiction | skip
  split at clock <;> first | contradiction | skip
  split at clock <;> first | contradiction | skip
  split at clock <;> first | contradiction | skip
  split at clock <;> first | contradiction | skip
  split at clock <;> first | contradiction | skip
  split at clock <;> first | contradiction | skip
  split at cycle <;> first | contradiction | skip
  split at cycle <;> first | contradiction | skip
  split at cycle <;> first | contradiction | skip
  split at cycle <;> first | contradiction | skip
  split at cycle <;> first | contradiction | skip
  split at cycle <;> first | contradiction | skip
  split at cycle <;> first | contradiction | skip
  split at cycle <;> first | contradiction | skip
  split at cycle <;> first | contradiction | skip
  split at cycle <;> first | contradiction | skip
  split at h <;> first | contradiction | skip
  split at h <;> first | contradiction | skip
  split at h <;> first | contradiction | skip
  split at h <;> first | contradiction | skip
  split at h <;> first | contradiction | skip
  split at h <;> first | contradiction | skip
  split at h <;> first | contradiction | skip
  split at h <;> first | contradiction | skip
  split at h <;> first | contradiction | skip
  rename_i round frame orderEnd orderStart _ ended _ repeats calendar release1 release2 activation1 activation2 cycleEnd greenEnd
    yellowEnd stageGreen _ trailing startup toggle _ _ _ _ greenFaulted greenClean lampFaulted lampClean greenHold _ clearing
    allRed maximum minimum backoff defer
  have of : ∀ {due : Group → Bool}, groupList.find? due = none → ∀ g, ¬ due g = true :=
    fun h g => by rw [find_none_group h g]; exact Bool.false_ne_true
  have stampEnd : ∀ stamp, ¬ s.issuedEndDue stamp = true := by
    intro stamp k
    have := k
    simp only [State.issuedEndDue, Bool.and_eq_true, List.any_eq_true, decide_eq_true_eq] at this
    obtain ⟨-, i, hi, rfl, -⟩ := this
    exact List.find?_eq_none.mp ended i hi k
  have stampRepeat : ∀ stamp, ¬ s.repeatDue stamp = true := by
    intro stamp k
    have := k
    simp only [State.repeatDue, Bool.and_eq_true, List.any_eq_true, decide_eq_true_eq] at this
    obtain ⟨-, i, hi, rfl, -⟩ := this
    exact List.find?_eq_none.mp repeats i hi k
  cases c
  case relayWaitExpiry => exact relay rfl
  case idleGapMet => exact gap rfl
  case round => obtain e | e | e := hd <;> cases e; exact round ht
  case timeFrameBuild => obtain e | e | e := hd <;> cases e; exact frame ht
  case calendarInstant => obtain e | e | e := hd <;> cases e; exact calendar ht
  case orderStartInstant => obtain e | e | e := hd <;> cases e; exact orderStart ht
  case orderEndInstant => obtain e | e | e := hd <;> cases e; exact orderEnd ht
  case repeatInstant => obtain e | e | e := hd <;> cases e; exact stampRepeat _ ht
  case issuedEndInstant => obtain e | e | e := hd <;> cases e; exact stampEnd _ ht
  case deferTimeout => obtain e | e | e := hd <;> cases e; exact defer ht
  case backoffExpiry => obtain e | e | e := hd <;> cases e; exact backoff ht
  case cycleEnd => obtain e | e | e := hd <;> cases e; exact cycleEnd ht
  case stageGreenBegin => obtain e | e | e := hd <;> cases e; exact stageGreen ht
  case greenEnd => obtain e | e | e := hd <;> cases e; exact greenEnd ht
  case yellowEnd => obtain e | e | e := hd <;> cases e; exact yellowEnd ht
  case trailingYellowEnd => obtain e | e | e := hd <;> cases e; exact of trailing _ ht
  case startupRedEnd => obtain e | e | e := hd <;> cases e; exact startup ht
  case flashToggle => obtain e | e | e := hd <;> cases e; exact toggle ht
  case greenHoldEnd => obtain e | e | e := hd <;> cases e; exact greenHold ht
  case clearingYellowEnd => obtain e | e | e := hd <;> cases e; exact of clearing _ ht
  case preemptAllRedEnd => obtain e | e | e := hd <;> cases e; exact allRed ht
  case minimumDwellReached => obtain e | e | e := hd <;> cases e; exact minimum ht
  case maximumHold => obtain e | e | e := hd <;> cases e; exact maximum ht
  case greenSenseFaulted => obtain e | e | e := hd <;> cases e; exact of greenFaulted _ ht
  case greenSenseClean => obtain e | e | e := hd <;> cases e; exact of greenClean _ ht
  case lampOutFaulted => obtain e | e | e := hd <;> cases e; exact of lampFaulted _ ht
  case lampOutClean => obtain e | e | e := hd <;> cases e; exact of lampClean _ ht
  case preemptActivation i =>
    obtain e | e | e := hd <;> cases e
    cases i
    · exact activation1 ht
    · exact activation2 ht
  case preemptRelease i =>
    obtain e | e | e := hd <;> cases e
    cases i
    · exact release1 ht
    · exact release2 ht
  all_goals obtain e | e | e := hd <;> cases e
end Sys2Proof.Machine
end

