-- ==== Sys2Proof/Laws/HostMoves.lean ====
section
/-! SUPPORT. What the work of a request and the line's events keep. -/

namespace Sys2Proof.Machine

set_option Elab.async false

/-! ### The exchange -/

theorem moves_discardHeld (s : State) : Moves s (discardHeld s) := by
  unfold discardHeld
  split
  · exact Moves.blocks (port := fun h => ⟨h.reports, h.dropped, h.configured⟩)
  · exact Moves.refl s

theorem moves_hold (request seq : Byte) (a : Answer) (s : State) : Moves s (hold request seq a s) :=
  Moves.blocks (t := hold request seq a s) (port := fun h => ⟨h.reports, h.dropped, h.configured⟩)

theorem moves_refuseMalformed (request seq : Byte) (s : State) : Moves s (refuseMalformed request seq s) :=
  Moves.blocks (t := refuseMalformed request seq s) (port := fun h => ⟨h.reports, h.dropped, h.configured⟩)

theorem moves_serve (request seq : Byte) (fits : Bool) (admission : Admission) (work : State → State × Answer)
    (h : ∀ s, Moves s (work s).1) (s : State) : Moves s (serve request seq fits admission work s) := by
  unfold serve
  dsimp only
  split
  · split
    · exact ((moves_discardHeld s).trans (h _)).trans (moves_hold _ _ _ _)
    · exact (moves_discardHeld s).trans (moves_hold _ _ _ _)
  · exact (moves_discardHeld s).trans (moves_refuseMalformed _ _ _)

theorem moves_answering (body : State → List Byte) (s : State) : Moves s (answering body s).1 := Moves.refl s

/-! ### START and RESTART -/

/-- Pinning leaves every plan. -/
theorem pin_plan (store : PlanStore) (n m : Nat) : ((store.pin n).slot m).plan = (store.slot m).plan := by
  unfold PlanStore.pin
  rw [slot_put]
  split
  · rename_i h; rw [h.1]
  · rfl

theorem pin_sound (store : PlanStore) (n : Nat) (h : store.Sound) : (store.pin n).Sound := by
  rw [store_sound_iff] at *
  obtain ⟨h1, h2, h3, h4⟩ := h
  unfold PlanStore.pin
  refine ⟨fun a b => ?_, fun a b => ?_, fun a => ?_, fun a p hp => h4 a p ?_⟩
  · have := h1 a b
    simp only [slot_put]
    split_ifs <;> simp_all
  · have := h2 a b
    simp only [slot_put]
    split_ifs <;> simp_all
  · have := h3 a
    simp only [slot_put]
    split_ifs <;> simp_all
  · rw [← pin_plan store n a]; exact hp

theorem delivers_startCoordinator (s : State) : Delivers s (startCoordinator s) := by
  unfold startCoordinator
  refine Delivers.trans (Delivers.plain (coord := fun h r => ?_))
    (delivers_setCoord _ _ _ fun h => absurd h not_runs_suspended)
  exact Nat.lt_of_le_of_lt (Nat.zero_le _) (h r)

theorem moves_beginRunning (c : ConfigRecord) (s : State) : Moves s (beginRunning c s) := by
  have start : Moves s
      { s with
        port.config := some c
        port.part := .running
        store := (s.store.pin c.defaultPlan).pin c.fallbackPlan
        bank := s.bank.takeColours c.flashYellow } :=
    Moves.blocks (store := fun h => pin_sound _ _ (pin_sound _ _ h)) (bank := takeColours_sound _ _)
      (port := fun h => ⟨h.reports, h.dropped, fun _ h => by cases h⟩) (quiet := fun _ h => by cases h)
  have last : ∀ u : State, Moves u (if u.faults.effective = .flash then u else flashExit u) := by
    intro u
    split
    · exact Moves.refl u
    · exact (delivers_flashExit u).moves
  unfold beginRunning
  exact ((start.trans (delivers_startCoordinator _).moves).trans (moves_evaluateSchedule _)).trans (last _)

theorem moves_startWork (body : List Byte) (s : State) : Moves s (startWork body s).1 := by
  unfold startWork
  split
  · exact Moves.refl s
  · exact moves_beginRunning _ s

/-- Every slot after RESTART (R38). -/
theorem slot_afterRestart (store : PlanStore) (n : Nat) :
    store.afterRestart.slot n =
      { store.slot n with state := if (store.slot n).state = .empty then .empty else .stored, pinned := false } :=
  slot_map store _ (by simp [Slot.empty]) n

theorem afterRestart_sound (store : PlanStore) (h : store.Sound) : store.afterRestart.Sound := by
  rw [store_sound_iff] at *
  obtain ⟨_, _, h3, h4⟩ := h
  refine ⟨fun a b => ?_, fun a b => ?_, fun a => ?_, fun a p hp => h4 a p (by rw [slot_afterRestart] at hp; exact hp)⟩
  · simp only [slot_afterRestart]
    split <;> simp
  · simp only [slot_afterRestart]
    split <;> simp
  · have := h3 a
    simp only [slot_afterRestart]
    split <;> simp_all

theorem reset_bank_sound : OutputBank.reset.Sound where
  noGreenInFlash := fun _ => by decide
  half := by decide
  settle := by decide

theorem reset_store_sound : PlanStore.reset.Sound where
  oneActive := by decide
  oneStaged := by decide
  emptyHoldsNone := by decide
  plans := fun i p h => by
    rw [get_eq_slot] at h
    unfold PlanStore.reset PlanStore.slot at h
    simp [Slot.empty, Vector.getD] at h

theorem reset_records (c : FaultClass) : (FaultUnit.reset.record c).state = .clear := by cases c <;> rfl

theorem moves_restartWork (s : State) : Moves s (restartWork s).1 := by
  refine Moves.blocks (t := restarted s) (clock := fun h => ⟨h.week, h.ms, Nat.zero_le _, List.Pairwise.nil⟩)
    (store := afterRestart_sound _) (timetable := fun h => ⟨h.entries, h.specials, h.editCount, h.inOrder, h.apart, h.daysInOrder⟩)
    (orders := fun _ => ⟨Nat.zero_le _, Nat.zero_le _, List.nodup_nil, fun _ h => (List.not_mem_nil h).elim, List.nodup_nil,
      fun _ h => (List.not_mem_nil h).elim⟩)
    (coord := fun _ h => by rcases h with h | h | h <;> cases h) (bank := fun _ => ?_)
    (line := fun _ => ⟨Nat.zero_le _, Nat.zero_le _, List.nodup_nil, Nat.zero_le _⟩)
    (port := fun _ => ⟨Nat.zero_le _, Nat.zero_le _, fun h => by cases h⟩)
    (quiet := fun _ _ => reset_records)
  refine ⟨reset_bank_sound.noGreenInFlash, reset_bank_sound.half, fun g => ?_⟩
  show (Vector.ofFn fun g : Group => if s.bank.drive[g] = .red then 0 else 3)[g] ≤ 3
  simp only [Fin.getElem_fin, Vector.getElem_ofFn]
  split <;> omega

/-! ### SET_TIME -/

theorem moves_admitDifference (d : Int) (s : State) : Moves s (admitDifference d s) := by
  unfold admitDifference
  dsimp only
  refine Moves.trans ?_ (moves_leaveHoldover _ _)
  exact Moves.blocks (clock := fun k => ⟨k.week, k.ms, k.neighbours, k.stations⟩)

theorem moves_setTimeAnchored (t : NetTime) (s : State) : Moves s (setTimeAnchored t s).1 := by
  have late : ∀ d : Int, Moves s
      (if d.natAbs ≤ 1000 then (admitDifference d s, done []) else (s, plain .range) : State × Answer).1 := by
    intro d
    split
    · exact moves_admitDifference d s
    · exact Moves.refl s
  have last : ∀ u : State, Moves u { u with clock.setTimeMark := true } := fun _ =>
    Moves.blocks (clock := fun k => ⟨k.week, k.ms, k.neighbours, k.stations⟩)
  unfold setTimeAnchored
  split
  · exact ((moves_stepClock _ s).trans (moves_setClockState _ _)).trans (last _)
  · exact late _
  · exact late _
  · exact late _

theorem moves_setTimeWork (body : List Byte) (s : State) : Moves s (setTimeWork body s).1 := by
  unfold setTimeWork
  dsimp only
  split
  · exact Moves.refl s
  · split
    · exact moves_stepClock _ s
    · split
      · exact moves_setTimeAnchored _ s
      · exact Moves.refl s

theorem moves_readReportsWork (s : State) : Moves s (readReportsWork s).1 :=
  Moves.blocks (t := (readReportsWork s).1) (port := fun h =>
    ⟨Nat.le_trans (by show (s.port.reports.drop 8).length ≤ s.port.reports.length; simp) h.reports, Nat.zero_le _,
      h.configured⟩)

/-! ### Plans -/

/-- A plan that passes over any store passes over an empty one: its slot is in use in neither (R25). -/
theorem planRefusal_empty {store : PlanStore} {p : PlanRecord} (h : planRefusal store p = none) :
    planRefusal PlanStore.reset p = none := by
  have free : (PlanStore.reset.slot p.number).inUse = false := by
    rw [slot_eq_get]
    split <;> simp [PlanStore.reset, Slot.inUse, Slot.empty]
  unfold planRefusal at *
  rw [free]
  by_cases h1 : (!planNumber p.number) = true
  · rw [if_pos h1] at h; cases h
  by_cases h2 : (store.slot p.number).inUse = true
  · rw [if_neg h1, if_pos h2] at h; cases h
  rw [if_neg h1, if_neg h2] at h
  rw [if_neg h1, if_neg (by decide)]
  exact h

/-- What a LOAD_PLAN that passes stores (R26 to R28). -/
theorem storedFrom_sound {store : PlanStore} {p : PlanRecord} (h : planRefusal store p = none)
    (hl : p.stages.length = p.stageCount) : (storedFrom p).Sound p.number :=
  have spare : StageRecord.spare = fun st : StageRecord => st.split - st.yellow - st.allRed - max st.gmin st.ped := by
    funext st
    unfold StageRecord.spare StageRecord.need
    rfl
  { number := rfl, stages := hl, passes := planRefusal_empty h
    spares := by simp only [storedFrom]; rw [spare]
    spareSum := by simp only [storedFrom]
    signature := by simp only [storedFrom] }

theorem readPlan_stages (body : List Byte) : (readPlan body).stages.length = (readPlan body).stageCount := by
  simp [readPlan]

theorem load_sound (store : PlanStore) (p : PlanRecord) (hp : planRefusal store p = none)
    (hl : p.stages.length = p.stageCount) (h : store.Sound) : (store.load p).Sound := by
  rw [store_sound_iff] at *
  obtain ⟨h1, h2, h3, h4⟩ := h
  unfold PlanStore.load
  refine ⟨fun a b => ?_, fun a b => ?_, fun a => ?_, fun a q hq => ?_⟩
  · have := h1 a b
    simp only [slot_put]
    split_ifs <;> simp_all
  · have := h2 a b
    simp only [slot_put]
    split_ifs <;> simp_all
  · have := h3 a
    simp only [slot_put]
    split_ifs <;> simp_all
  · rw [slot_put] at hq
    split at hq
    · rename_i ha
      rw [← Option.some.inj hq, ha.1]
      exact storedFrom_sound hp hl
    · exact h4 a q hq

theorem erase_sound (store : PlanStore) (n : Nat) (h : store.Sound) :
    (store.put n { store.slot n with state := .empty, plan := none }).Sound := by
  rw [store_sound_iff] at *
  obtain ⟨h1, h2, h3, h4⟩ := h
  refine ⟨fun a b => ?_, fun a b => ?_, fun a => ?_, fun a q hq => ?_⟩
  · have := h1 a b
    simp only [slot_put]
    split_ifs <;> simp_all
  · have := h2 a b
    simp only [slot_put]
    split_ifs <;> simp_all
  · have := h3 a
    simp only [slot_put]
    split_ifs <;> simp_all
  · rw [slot_put] at hq
    split at hq
    · cases hq
    · exact h4 a q hq

theorem moves_loadPlanWork (body : List Byte) (s : State) : Moves s (loadPlanWork body s).1 := by
  unfold loadPlanWork
  dsimp only
  split
  · exact Moves.refl s
  · refine Moves.trans ?_ (moves_evaluateOrders none _)
    rename_i hp
    exact Moves.blocks (store := load_sound _ _ hp (readPlan_stages body))

theorem moves_erasePlanWork (body : List Byte) (s : State) : Moves s (erasePlanWork body s).1 := by
  unfold erasePlanWork
  dsimp only
  split
  · exact Moves.refl s
  · split
    · exact Moves.refl s
    · split
      · exact Moves.refl s
      · refine Moves.trans ?_ (moves_evaluateOrders none _)
        exact Moves.blocks (store := erase_sound _ _)

theorem moves_readPlanWork (body : List Byte) (s : State) : Moves s (readPlanWork body s).1 := by
  unfold readPlanWork
  dsimp only
  split <;> exact Moves.refl s

/-! ### The calendar -/

/-- No entry that shares the start of one without conflict shares a day type with it (R47). -/
theorem conflict_none {t : Timetable} {e : Entry} (h : t.conflict e = none) :
    ∀ x ∈ t.entries, e.start = x.start → e.days &&& x.days = 0 := by
  intro x m q
  have := List.find?_eq_none.mp h x m
  simp only [Bool.and_eq_true, decide_eq_true_eq, not_and, not_not] at this
  rw [BitVec.and_comm]
  exact this q.symm

/-- A day without a special day is that of none in the list (R49). -/
theorem special_none {t : Timetable} {week day : Nat} (h : t.special week day = none) :
    ∀ x ∈ t.specials, ¬ (x.week = week ∧ x.day = day) := by
  intro x m q
  have := List.find?_eq_none.mp h x m
  simp [q.1, q.2] at this

theorem moves_addEntryWork (body : List Byte) (s : State) : Moves s (addEntryWork body s).1 := by
  unfold addEntryWork
  dsimp only
  split
  · exact Moves.refl s
  · next ok =>
    split
    · exact Moves.refl s
    · next free =>
      split
      · exact Moves.refl s
      · refine Moves.trans ?_ (moves_evaluateSchedule _)
        have set : daySetOk (readEntry body).days = true := by
          by_contra n
          exact ok (by simp [n])
        exact Moves.blocks (timetable := fun h =>
          ⟨by simp only [insertTimetable_length]; omega, h.specials, Nat.mod_lt _ (by decide),
            insertTimetable_inOrder set (conflict_none free) h.inOrder, insertTimetable_apart (conflict_none free) h.apart,
            h.daysInOrder⟩)

theorem moves_dropEntryWork (body : List Byte) (s : State) : Moves s (dropEntryWork body s).1 := by
  unfold dropEntryWork
  dsimp only
  split
  · exact Moves.refl s
  · split
    · refine Moves.trans ?_ (moves_evaluateSchedule _)
      exact Moves.blocks (timetable := fun h =>
        ⟨Nat.le_trans (List.length_filter_le _ _) h.entries, h.specials, Nat.mod_lt _ (by decide), h.inOrder.filter _,
          h.apart.filter _, h.daysInOrder⟩)
    · exact Moves.refl s

theorem moves_addSpecialWork (body : List Byte) (s : State) : Moves s (addSpecialWork body s).1 := by
  unfold addSpecialWork
  dsimp only
  split
  · exact Moves.refl s
  · split
    · exact Moves.refl s
    · split
      · exact Moves.refl s
      · next free =>
        split
        · exact Moves.refl s
        · refine Moves.trans ?_ (moves_evaluateSchedule _)
          exact Moves.blocks (timetable := fun h =>
            ⟨h.entries, by simp only [insertSpecial_length]; omega, Nat.mod_lt _ (by decide), h.inOrder, h.apart,
              insertSpecial_inOrder (special_none free) h.daysInOrder⟩)

theorem moves_dropSpecialWork (body : List Byte) (s : State) : Moves s (dropSpecialWork body s).1 := by
  unfold dropSpecialWork
  dsimp only
  split
  · exact Moves.refl s
  · split
    · refine Moves.trans ?_ (moves_evaluateSchedule _)
      exact Moves.blocks (timetable := fun h =>
        ⟨h.entries, Nat.le_trans (List.length_filter_le _ _) h.specials, Nat.mod_lt _ (by decide), h.inOrder, h.apart,
          h.daysInOrder.filter _⟩)
    · exact Moves.refl s

theorem moves_readTimetableWork (body : List Byte) (s : State) : Moves s (readTimetableWork body s).1 := by
  unfold readTimetableWork
  dsimp only
  split
  · split <;> exact Moves.refl s
  · split <;> exact Moves.refl s
  · exact Moves.refl s

/-! ### Orders -/

/-- An ISSUE_ORDER that is accepted has room in the issued list, when it is new, and in the send queue (R67). -/
theorem issueRefusal_none {r : IssueRequest} {s : State} (h : issueRefusal r s = none) :
    s.line.queue.length < 8 ∧ (s.revised r = none → s.orders.issued.length < 4) := by
  have room : issueRoom r s = none → s.line.queue.length < 8 ∧ ¬ (r.presence = 0 ∧ 4 ≤ s.orders.issued.length) := by
    intro k
    unfold issueRoom at k
    split at k
    · cases k
    · split at k
      · cases k
      · split at k
        · rename_i h1 h2
          exact ⟨by simpa [LineInterface.hasRoom] using h2, h1⟩
        · cases k
  unfold issueRefusal at h
  split at h
  · cases h
  · rename_i hr
    split at h
    · cases h
    · split at h
      · rename_i hp
        split at h
        · cases h
        · rename_i i hi
          split at h
          · cases h
          · refine ⟨(room h).1, fun hn => ?_⟩
            simp [State.revised, hp, hi] at hn
      · rename_i hp
        refine ⟨(room h).1, fun _ => ?_⟩
        have h1 := (room h).2
        have h0 : r.presence = 0 := by
          simp only [IssueRequest.inRange, within, Bool.not_eq_true', Bool.not_eq_false, Bool.and_eq_true,
            decide_eq_true_eq] at hr
          omega
        have := fun k => h1 ⟨h0, k⟩
        omega

/-- The place of a network time among all of them. -/
def ordinal (t : NetTime) : Nat := t.week * weekMs + t.ms

theorem ordinal_plus_one {t : NetTime} (hm : t.ms < weekMs) :
    ordinal (t.plus 1) = (ordinal t + 1) % (65536 * weekMs) := by
  unfold ordinal NetTime.plus weekMs at *
  dsimp only
  omega

/-- Raised stamps are all apart (R68). -/
theorem stamps_apart (t : NetTime) (hw : t.week < 65536) (hm : t.ms < weekMs) (n : Nat) :
    ((fun x : NetTime => x.plus 1)^[n] t).week < 65536 ∧ ((fun x : NetTime => x.plus 1)^[n] t).ms < weekMs
      ∧ ordinal ((fun x : NetTime => x.plus 1)^[n] t) = (ordinal t + n) % (65536 * weekMs) := by
  induction n with
  | zero =>
    refine ⟨hw, hm, ?_⟩
    simp only [Function.iterate_zero, id, Nat.add_zero]
    unfold ordinal weekMs at *
    omega
  | succ n ih =>
    rw [Function.iterate_succ_apply']
    refine ⟨plus_week _ _, plus_ms _ _, ?_⟩
    rw [ordinal_plus_one ih.2.1, ih.2.2]
    unfold weekMs
    omega

/-- The stamp found is the first free one, or every stamp tried is taken (R68). -/
theorem freeStamp_first (s : State) (n : Nat) (t : NetTime) :
    ∃ k ≤ n, freeStamp s n t = (fun x : NetTime => x.plus 1)^[k] t
      ∧ (∀ j < k, s.stampTaken ((fun x : NetTime => x.plus 1)^[j] t) = true)
      ∧ (k < n → s.stampTaken (freeStamp s n t) = false) := by
  induction n generalizing t with
  | zero => exact ⟨0, Nat.le_refl _, rfl, fun j h => by omega, fun h => by omega⟩
  | succ n ih =>
    unfold freeStamp
    split
    · rename_i ht
      obtain ⟨k, hk, he, hj, hf⟩ := ih (t.plus 1)
      refine ⟨k + 1, by omega, ?_, fun j h => ?_, fun h => hf (by omega)⟩
      · rw [he, Function.iterate_succ_apply]
      · rcases j with - | j
        · exact ht
        · rw [Function.iterate_succ_apply]; exact hj j (by omega)
    · rename_i ht
      exact ⟨0, Nat.zero_le _, rfl, fun j h => by omega, fun _ => by simpa using ht⟩

/-- A new order finds a free stamp (R68): the two lists hold at most 16. -/
theorem freeStamp_free (s : State) (h : s.orders.Sound) (c : s.clock.Sound) :
    s.stampTaken (freeStamp s 17 s.clock.reading) = false := by
  obtain ⟨k, hk, he, hj, hf⟩ := freeStamp_first s 17 s.clock.reading
  by_cases hlt : k < 17
  · exact hf hlt
  · exfalso
    have h17 : k = 17 := by omega
    let stamp : Nat → NetTime := fun j => (fun x : NetTime => x.plus 1)^[j] s.clock.reading
    let taken := s.orders.issued.map (fun i => i.key.stamp) ++ s.orders.entries.map fun e => e.key.stamp
    have sub : (List.range 17).map stamp ⊆ taken := by
      intro x hx
      obtain ⟨j, hj', rfl⟩ := List.mem_map.mp hx
      have := hj j (by rw [h17]; exact List.mem_range.mp hj')
      unfold State.stampTaken at this
      rcases Bool.or_eq_true_iff.mp this with a | a
      · obtain ⟨i, hi, e⟩ := List.any_eq_true.mp a
        exact List.mem_append_left _ (List.mem_map.mpr ⟨i, hi, by simpa using e⟩)
      · obtain ⟨i, hi, e⟩ := List.any_eq_true.mp a
        simp only [Bool.and_eq_true, decide_eq_true_eq] at e
        exact List.mem_append_right _ (List.mem_map.mpr ⟨i, hi, e.2⟩)
    have apart : ((List.range 17).map stamp).Nodup := by
      refine List.Nodup.map_on (fun a ha b hb hab => ?_) List.nodup_range
      have ha := List.mem_range.mp ha
      have hb := List.mem_range.mp hb
      have h1 := (stamps_apart s.clock.reading c.week c.ms a).2.2
      have h2 := (stamps_apart s.clock.reading c.week c.ms b).2.2
      have h3 : (ordinal s.clock.reading + a) % (65536 * weekMs) = (ordinal s.clock.reading + b) % (65536 * weekMs) := by
        rw [← h1, ← h2]; exact congrArg ordinal hab
      unfold weekMs at h3
      omega
    have := (apart.subperm sub).length_le
    have h1 := h.entries
    have h2 := h.issued
    simp only [taken, List.length_map, List.length_range, List.length_append] at this
    omega

theorem issuedEntry_stamp {o : OrderHandler} {stamp : NetTime} {i : IssuedEntry} (h : o.issuedEntry stamp = some i) :
    i.key.stamp = stamp := by
  unfold OrderHandler.issuedEntry at h
  simpa using List.find?_some h

theorem moves_storeIssued (r : IssueRequest) (i : IssuedEntry) (s : State)
    (h : s.revised r = none → s.orders.issued.length < 4)
    (hn : s.revised r = none → s.orders.Sound → s.clock.Sound → ∀ x ∈ s.orders.issued, x.key.stamp ≠ i.key.stamp) :
    Moves s (storeIssued r i s) := by
  unfold storeIssued
  split
  · exact moves_mapIssued s _ _ fun _ => .inr rfl
  · rename_i hr
    have := h hr
    refine ⟨rfl, fun k => ⟨k.clock, k.store, k.timetable, ?_, k.coord, k.bank, k.line, k.port, k.quiet⟩⟩
    refine ⟨k.orders.entries, by simp only [insertIssued_length]; omega, k.orders.keys, k.orders.placeholders, ?_,
      k.orders.oneInForce⟩
    show ((insertIssued i s.orders.issued).map fun i => i.key.stamp).Nodup
    rw [((insertIssued_perm i s.orders.issued).map _).nodup_iff, List.map_cons, List.nodup_cons]
    refine ⟨fun hm => ?_, k.orders.stamps⟩
    obtain ⟨x, hx, he⟩ := List.mem_map.mp hm
    exact hn hr k.orders k.clock x hx he

theorem moves_formIssued (r : IssueRequest) (s : State) (h : s.revised r = none → s.orders.issued.length < 4) :
    Moves s (storeIssued r (formIssued r s) s) := by
  refine moves_storeIssued r _ s h fun hn hs hc x hx hk => ?_
  have := freeStamp_free s hs hc
  unfold State.stampTaken at this
  simp only [Bool.or_eq_false_iff, List.any_eq_false, decide_eq_true_eq] at this
  refine this.1 x hx ?_
  rw [hk]
  simp [formIssued, hn]

theorem storeIssued_line (r : IssueRequest) (i : IssuedEntry) (s : State) : (storeIssued r i s).line = s.line := by
  unfold storeIssued; split <;> rfl

theorem moves_issueWork (body : List Byte) (s : State) : Moves s (issueWork body s).1 := by
  unfold issueWork
  dsimp only
  split
  · exact Moves.refl s
  · rename_i hn
    have k := issueRefusal_none hn
    refine Moves.trans ?_ (delivers_post _ _).moves
    refine Moves.trans ?_ (moves_processOrder _ _)
    refine Moves.trans ?_ (moves_placeOwnOrder _ _ (by rw [storeIssued_line]; exact k.1))
    exact moves_formIssued _ s k.2

theorem moves_cancelWork (body : List Byte) (s : State) : Moves s (cancelWork body s).1 := by
  unfold cancelWork
  dsimp only
  split
  · exact Moves.refl s
  · split
    · exact Moves.refl s
    · split
      · rename_i hr
        refine Moves.trans ?_ (moves_arriveCancel _ _)
        exact moves_placeOwnCancel _ s (by simpa [LineInterface.hasRoom] using hr)
      · exact Moves.refl s

theorem moves_readOrdersWork (body : List Byte) (s : State) : Moves s (readOrdersWork body s).1 := by
  unfold readOrdersWork
  split <;> exact Moves.refl s

/-! ### The junction -/

theorem moves_placeCallWork (body : List Byte) (s : State) : Moves s (placeCallWork body s).1 := by
  unfold placeCallWork
  dsimp only
  split
  · exact moves_seq s _
  · exact Moves.refl s

theorem moves_readSaveWork (s : State) : Moves s (readSaveWork s).1 := by
  unfold readSaveWork
  split <;> exact Moves.refl s

theorem moves_writeOverride (o : Override) (r : SaveRecord) (s : State) : Moves s (writeOverride o r s) := by
  unfold writeOverride
  refine Moves.trans ?_ (delivers_post _ _).moves
  refine Moves.blocks (store := fun h => ?_)
  show ((s.store.stage o.adoption.plan).getD s.store).Sound
  cases hs : s.store.stage o.adoption.plan with
  | none => exact h
  | some store => exact stage_sound hs h

theorem moves_rewriteSaveWork (body : List Byte) (s : State) : Moves s (rewriteSaveWork body s).1 := by
  unfold rewriteSaveWork
  dsimp only
  split
  · exact Moves.refl s
  · split
    · exact Moves.refl s
    · exact Moves.refl s
    · split
      · exact Moves.refl s
      · split
        · exact Moves.refl s
        · exact moves_writeOverride _ _ s

theorem delivers_acknowledge (c : FaultClass) (s : State) : Delivers s (acknowledge c s) := by
  unfold acknowledge
  refine Delivers.trans ?_ (delivers_settleAction _ _ _)
  refine Delivers.trans (Delivers.plain (faults := fun h d => ?_)) (delivers_post _ _)
  rw [record_setRecord]
  split
  · rfl
  · exact h d

theorem moves_ackFaultWork (body : List Byte) (s : State) : Moves s (ackFaultWork body s).1 := by
  unfold ackFaultWork
  split
  · exact Moves.refl s
  · split
    · exact (delivers_acknowledge _ s).moves
    · exact Moves.refl s
    · exact Moves.refl s

/-! ### The line -/

theorem moves_countReceived (s : State) : Moves s (countReceived s) :=
  Moves.blocks (t := countReceived s) (line := fun h => ⟨h.queue, h.dedup, h.noRepeats, h.oneTime⟩)

theorem moves_receiveTime (sender : Byte) (body : List Byte) (s : State) : Moves s (receiveTime sender body s) :=
  (moves_countReceived s).trans (moves_takeTimeFrame _ _ _ _)

theorem moves_countDuplicate (s : State) : Moves s (countDuplicate s) :=
  Moves.blocks (t := countDuplicate s) (line := fun h => ⟨h.queue, h.dedup, h.noRepeats, h.oneTime⟩)

theorem moves_receiveOrder (body : List Byte) (s : State) : Moves s (receiveOrder body s) := by
  unfold receiveOrder
  refine (moves_countReceived s).trans ?_
  dsimp only
  split
  · exact moves_countDuplicate _
  · refine Moves.trans ?_ (moves_relayOrder _ _)
    refine Moves.trans ?_ (moves_arriveOrder _ _)
    exact moves_enterKey _ _

theorem moves_receiveCancel (body : List Byte) (s : State) : Moves s (receiveCancel body s) := by
  unfold receiveCancel
  refine (moves_countReceived s).trans ?_
  dsimp only
  split
  · exact moves_countDuplicate _
  · refine Moves.trans ?_ (moves_relayCancel _ _)
    refine Moves.trans ?_ (moves_arriveCancel _ _)
    exact moves_enterKey _ _

theorem moves_rejectFrame (own : Bool) (kind sender : Byte) (body : List Byte) (crc : BitVec 16) (s : State) :
    Moves s (rejectFrame own kind sender body crc s) := by
  unfold rejectFrame
  dsimp only
  split_ifs <;> exact moves_line s _ fun h => ⟨h.queue, h.dedup, h.noRepeats, h.oneTime⟩

theorem moves_dropLength (idle : Nat) (s : State) : Moves s (dropLength idle s) := moves_line s _ fun h => ⟨h.queue, h.dedup, h.noRepeats, h.oneTime⟩

theorem moves_captureDelimiter (s : State) : Moves s (captureDelimiter s) := moves_line s _ fun h => ⟨h.queue, h.dedup, h.noRepeats, h.oneTime⟩

theorem moves_completeFrame (s : State) : Moves s (completeFrame s) := by
  have tail : ∀ u : State, Moves u
      (if u.line.jamRaised then withdraw .lineJam { u with line.jamRaised := false } else u) := by
    intro u
    split
    · refine Moves.trans ?_ (delivers_withdraw _ _).moves
      exact moves_line u _ fun h => ⟨h.queue, h.dedup, h.noRepeats, h.oneTime⟩
    · exact Moves.refl u
  unfold completeFrame
  refine Moves.trans ?_ (tail _)
  refine Moves.trans ?_ (moves_deferOnHead _)
  exact moves_line s _ fun h => ⟨h.queue, h.dedup, h.noRepeats, h.oneTime⟩

theorem moves_collide (s : State) : Moves s (collide s) := by
  unfold collide
  split
  · refine Moves.trans ?_ (moves_attemptFailed _ _)
    exact moves_line s _ fun h => ⟨h.queue, h.dedup, h.noRepeats, h.oneTime⟩
  · exact Moves.refl s

end Sys2Proof.Machine
end

