-- ==== Sys2Proof/Laws/State.lean ====
section
/-! SUPPORT. One lemma for each field an operation of the exchange, of the reports, of the drive or of the queue leaves, and
what the exchange answers: later proofs cite these and unfold no record. -/

namespace Sys2Proof.Machine

set_option Elab.async false

/-! ### A report -/

@[simp] theorem post_clock (r : ReportBody) (s : State) : (post r s).clock = s.clock := by
  rw [post_eq]

@[simp] theorem post_store (r : ReportBody) (s : State) : (post r s).store = s.store := by
  rw [post_eq]

@[simp] theorem post_timetable (r : ReportBody) (s : State) : (post r s).timetable = s.timetable := by
  rw [post_eq]

@[simp] theorem post_orders (r : ReportBody) (s : State) : (post r s).orders = s.orders := by
  rw [post_eq]

@[simp] theorem post_coord (r : ReportBody) (s : State) : (post r s).coord = s.coord := by
  rw [post_eq]

@[simp] theorem post_seq (r : ReportBody) (s : State) : (post r s).seq = s.seq := by
  rw [post_eq]

@[simp] theorem post_bank (r : ReportBody) (s : State) : (post r s).bank = s.bank := by
  rw [post_eq]

@[simp] theorem post_preempt (r : ReportBody) (s : State) : (post r s).preempt = s.preempt := by
  rw [post_eq]

@[simp] theorem post_faults (r : ReportBody) (s : State) : (post r s).faults = s.faults := by
  rw [post_eq]

@[simp] theorem post_line (r : ReportBody) (s : State) : (post r s).line = s.line := by
  rw [post_eq]

@[simp] theorem post_pins (r : ReportBody) (s : State) : (post r s).pins = s.pins := by
  rw [post_eq]

@[simp] theorem post_instants (r : ReportBody) (s : State) : (post r s).instants = s.instants := by
  rw [post_eq]

@[simp] theorem post_draws (r : ReportBody) (s : State) : (post r s).draws = s.draws := by
  rw [post_eq]

@[simp] theorem post_pending (r : ReportBody) (s : State) : (post r s).pending = s.pending := by
  rw [post_eq]

@[simp] theorem post_port_part (r : ReportBody) (s : State) : (post r s).port.part = s.port.part := by
  rw [post_eq]

@[simp] theorem post_port_config (r : ReportBody) (s : State) : (post r s).port.config = s.port.config := by
  rw [post_eq]

@[simp] theorem post_port_held (r : ReportBody) (s : State) : (post r s).port.held = s.port.held := by
  rw [post_eq]

@[simp] theorem post_port_malformed (r : ReportBody) (s : State) : (post r s).port.malformed = s.port.malformed := by
  rw [post_eq]

@[simp] theorem post_port_discarded (r : ReportBody) (s : State) : (post r s).port.discarded = s.port.discarded := by
  rw [post_eq]

@[simp] theorem post_port_dataOut (r : ReportBody) (s : State) : (post r s).port.dataOut = s.port.dataOut := by
  rw [post_eq]

/-- With room the report stands at the tail, with the present reading (R208). -/
theorem post_room (r : ReportBody) (s : State) (h : s.port.reports.length < 32) :
    (post r s).port.reports = s.port.reports ++ [{ time := s.clock.reading, body := r }] := by
  unfold post; simp [h]

/-- With 32 held the report is dropped, marked and counted (R208). -/
theorem post_full (r : ReportBody) (s : State) (h : 32 ≤ s.port.reports.length) :
    (post r s).port.reports = s.port.reports ∧ (post r s).port.overflow = true
      ∧ (post r s).port.dropped = min 255 (s.port.dropped + 1) := by
  have : ¬ s.port.reports.length < 32 := by omega
  unfold post; simp [this, countUp]

/-! ### An aspect command -/

@[simp] theorem command_clock (set : GroupSet) (a : Aspect) (s : State) : (command set a s).clock = s.clock := rfl

@[simp] theorem command_store (set : GroupSet) (a : Aspect) (s : State) : (command set a s).store = s.store := rfl

@[simp] theorem command_timetable (set : GroupSet) (a : Aspect) (s : State) : (command set a s).timetable = s.timetable := rfl

@[simp] theorem command_orders (set : GroupSet) (a : Aspect) (s : State) : (command set a s).orders = s.orders := rfl

@[simp] theorem command_coord (set : GroupSet) (a : Aspect) (s : State) : (command set a s).coord = s.coord := rfl

@[simp] theorem command_seq (set : GroupSet) (a : Aspect) (s : State) : (command set a s).seq = s.seq := rfl

@[simp] theorem command_preempt (set : GroupSet) (a : Aspect) (s : State) : (command set a s).preempt = s.preempt := rfl

@[simp] theorem command_faults (set : GroupSet) (a : Aspect) (s : State) : (command set a s).faults = s.faults := rfl

@[simp] theorem command_line (set : GroupSet) (a : Aspect) (s : State) : (command set a s).line = s.line := rfl

@[simp] theorem command_pins (set : GroupSet) (a : Aspect) (s : State) : (command set a s).pins = s.pins := rfl

@[simp] theorem command_instants (set : GroupSet) (a : Aspect) (s : State) : (command set a s).instants = s.instants := rfl

@[simp] theorem command_draws (set : GroupSet) (a : Aspect) (s : State) : (command set a s).draws = s.draws := rfl

@[simp] theorem command_pending (set : GroupSet) (a : Aspect) (s : State) : (command set a s).pending = s.pending := rfl

@[simp] theorem command_port (set : GroupSet) (a : Aspect) (s : State) : (command set a s).port = s.port := rfl

/-- What each group drives after an aspect command (R132). -/
theorem command_drive (set : GroupSet) (a : Aspect) (s : State) (g : Group) :
    (command set a s).bank.drive[g] =
      if inSet g set = true ∧ s.bank.flash = false then a else s.bank.drive[g] := by
  unfold command OutputBank.command
  cases h : s.bank.flash
  · simp only [Bool.false_eq_true, if_false, OutputBank.redrive, Fin.getElem_fin, Vector.getElem_ofFn, and_true]
  · simp

/-- What each group is commanded after an aspect command (R132). -/
theorem command_commanded (set : GroupSet) (a : Aspect) (s : State) (g : Group) :
    (command set a s).bank.commanded[g] =
      if inSet g set = true ∧ s.bank.flash = false then a else s.bank.commanded[g] := by
  unfold command OutputBank.command
  cases h : s.bank.flash
  · simp only [Bool.false_eq_true, if_false, Fin.getElem_fin, Vector.getElem_ofFn, and_true]
  · simp

@[simp] theorem command_flash (set : GroupSet) (a : Aspect) (s : State) :
    (command set a s).bank.flash = s.bank.flash := by
  unfold command OutputBank.command
  split <;> simp [OutputBank.redrive, *]

/-! ### A response still held -/

@[simp] theorem discardHeld_clock (s : State) : (discardHeld s).clock = s.clock := by
  unfold discardHeld; split <;> rfl

@[simp] theorem discardHeld_store (s : State) : (discardHeld s).store = s.store := by
  unfold discardHeld; split <;> rfl

@[simp] theorem discardHeld_timetable (s : State) : (discardHeld s).timetable = s.timetable := by
  unfold discardHeld; split <;> rfl

@[simp] theorem discardHeld_orders (s : State) : (discardHeld s).orders = s.orders := by
  unfold discardHeld; split <;> rfl

@[simp] theorem discardHeld_coord (s : State) : (discardHeld s).coord = s.coord := by
  unfold discardHeld; split <;> rfl

@[simp] theorem discardHeld_seq (s : State) : (discardHeld s).seq = s.seq := by
  unfold discardHeld; split <;> rfl

@[simp] theorem discardHeld_bank (s : State) : (discardHeld s).bank = s.bank := by
  unfold discardHeld; split <;> rfl

@[simp] theorem discardHeld_preempt (s : State) : (discardHeld s).preempt = s.preempt := by
  unfold discardHeld; split <;> rfl

@[simp] theorem discardHeld_faults (s : State) : (discardHeld s).faults = s.faults := by
  unfold discardHeld; split <;> rfl

@[simp] theorem discardHeld_line (s : State) : (discardHeld s).line = s.line := by
  unfold discardHeld; split <;> rfl

@[simp] theorem discardHeld_pins (s : State) : (discardHeld s).pins = s.pins := by
  unfold discardHeld; split <;> rfl

@[simp] theorem discardHeld_instants (s : State) : (discardHeld s).instants = s.instants := by
  unfold discardHeld; split <;> rfl

@[simp] theorem discardHeld_draws (s : State) : (discardHeld s).draws = s.draws := by
  unfold discardHeld; split <;> rfl

@[simp] theorem discardHeld_pending (s : State) : (discardHeld s).pending = s.pending := by
  unfold discardHeld; split <;> rfl

@[simp] theorem discardHeld_port_part (s : State) : (discardHeld s).port.part = s.port.part := by
  unfold discardHeld; split <;> rfl

@[simp] theorem discardHeld_port_config (s : State) : (discardHeld s).port.config = s.port.config := by
  unfold discardHeld; split <;> rfl

@[simp] theorem discardHeld_port_reports (s : State) : (discardHeld s).port.reports = s.port.reports := by
  unfold discardHeld; split <;> rfl

@[simp] theorem discardHeld_port_overflow (s : State) : (discardHeld s).port.overflow = s.port.overflow := by
  unfold discardHeld; split <;> rfl

@[simp] theorem discardHeld_port_dropped (s : State) : (discardHeld s).port.dropped = s.port.dropped := by
  unfold discardHeld; split <;> rfl

@[simp] theorem discardHeld_port_malformed (s : State) : (discardHeld s).port.malformed = s.port.malformed := by
  unfold discardHeld; split <;> rfl

@[simp] theorem discardHeld_port_dataOut (s : State) : (discardHeld s).port.dataOut = s.port.dataOut := by
  unfold discardHeld; split <;> rfl

@[simp] theorem discardHeld_running (s : State) : (discardHeld s).running = s.running := by
  unfold discardHeld; split <;> rfl

@[simp] theorem discardHeld_cfg (s : State) : (discardHeld s).cfg = s.cfg := by
  unfold discardHeld; split <;> rfl

@[simp] theorem discardHeld_slot (s : State) : (discardHeld s).slot = s.slot := by
  unfold discardHeld; split <;> rfl

@[simp] theorem discardHeld_storedPlan (s : State) : (discardHeld s).storedPlan = s.storedPlan := by
  unfold discardHeld; split <;> rfl

@[simp] theorem discardHeld_slotEmpty (s : State) : (discardHeld s).slotEmpty = s.slotEmpty := by
  unfold discardHeld; split <;> rfl

@[simp] theorem discardHeld_route (s : State) : (discardHeld s).route = s.route := by
  unfold discardHeld; split <;> rfl

@[simp] theorem discardHeld_held (s : State) : (discardHeld s).port.held = none := by
  unfold discardHeld
  split
  · rfl
  · rename_i h
    cases k : s.port.held
    · rfl
    · simp [k] at h

theorem discardHeld_discarded (s : State) :
    (discardHeld s).port.discarded =
      if s.port.held.isSome then min 65535 (s.port.discarded + 1) else s.port.discarded := by
  unfold discardHeld countUp; split <;> rfl

/-- A part of the state that a response does not touch, changed before or after an old response is discarded. -/
theorem answered_eq (s : State) (request seq : Byte) (code : ResponseCode) (body : List Byte) :
    s.answered request seq code body =
      { s with
        port.held := some { request := request, seq := seq, code := code, body := body }
        port.discarded := (discardHeld s).port.discarded } := by
  rw [discardHeld_discarded]; rfl

/-- A request that answers without doing anything (R200). -/
theorem hold_discardHeld (request seq : Byte) (a : Answer) (s : State) :
    hold request seq a (discardHeld s) = s.answered request seq a.code a.body := by
  unfold hold discardHeld State.answered countUp
  cases s.port.held <;> rfl

theorem refuseMalformed_discardHeld (request seq : Byte) (s : State) :
    refuseMalformed request seq (discardHeld s) =
      ({ s with port.malformed := min 65535 (s.port.malformed + 1) } : State).answered request seq .malformed [] := by
  unfold refuseMalformed hold discardHeld State.answered countUp plain
  cases s.port.held <;> rfl

/-! ### A request served -/

/-- Check 3 of R201 fails. -/
theorem serve_unfit (request seq : Byte) (admission : Admission) (work : State → State × Answer) (s : State) :
    serve request seq false admission work s =
      ({ s with port.malformed := min 65535 (s.port.malformed + 1) } : State).answered request seq .malformed [] :=
  refuseMalformed_discardHeld request seq s

/-- Check 4 of R201 fails. -/
theorem serve_barred (request seq : Byte) (admission : Admission) (work : State → State × Answer) (s : State)
    (h : admission.admits s.port.part = false) :
    serve request seq true admission work s = s.answered request seq .state [] := by
  unfold serve
  simp only [if_true, discardHeld_port_part, h, Bool.false_eq_true, if_false]
  exact hold_discardHeld request seq (plain .state) s

/-- The owner's work is done on the state without the old response (R200). -/
theorem serve_done (request seq : Byte) (admission : Admission) (work : State → State × Answer) (s : State)
    (h : admission.admits s.port.part = true) :
    serve request seq true admission work s =
      hold request seq (work (discardHeld s)).2 (work (discardHeld s)).1 := by
  unfold serve
  simp only [if_true, discardHeld_port_part, h]

/-- The owner's work changes nothing. -/
theorem serve_unchanged (request seq : Byte) (admission : Admission) (work : State → State × Answer) (s : State)
    (h : admission.admits s.port.part = true) (k : (work (discardHeld s)).1 = discardHeld s) :
    serve request seq true admission work s =
      s.answered request seq (work (discardHeld s)).2.code (work (discardHeld s)).2.body := by
  rw [serve_done _ _ _ _ _ h, k]
  exact hold_discardHeld request seq _ s

/-! ### The transmitter -/

@[simp] theorem deferOnHead_clock (s : State) : (deferOnHead s).clock = s.clock := by
  unfold deferOnHead; split <;> [rfl; (split <;> rfl)]

@[simp] theorem deferOnHead_store (s : State) : (deferOnHead s).store = s.store := by
  unfold deferOnHead; split <;> [rfl; (split <;> rfl)]

@[simp] theorem deferOnHead_timetable (s : State) : (deferOnHead s).timetable = s.timetable := by
  unfold deferOnHead; split <;> [rfl; (split <;> rfl)]

@[simp] theorem deferOnHead_orders (s : State) : (deferOnHead s).orders = s.orders := by
  unfold deferOnHead; split <;> [rfl; (split <;> rfl)]

@[simp] theorem deferOnHead_coord (s : State) : (deferOnHead s).coord = s.coord := by
  unfold deferOnHead; split <;> [rfl; (split <;> rfl)]

@[simp] theorem deferOnHead_seq (s : State) : (deferOnHead s).seq = s.seq := by
  unfold deferOnHead; split <;> [rfl; (split <;> rfl)]

@[simp] theorem deferOnHead_bank (s : State) : (deferOnHead s).bank = s.bank := by
  unfold deferOnHead; split <;> [rfl; (split <;> rfl)]

@[simp] theorem deferOnHead_preempt (s : State) : (deferOnHead s).preempt = s.preempt := by
  unfold deferOnHead; split <;> [rfl; (split <;> rfl)]

@[simp] theorem deferOnHead_faults (s : State) : (deferOnHead s).faults = s.faults := by
  unfold deferOnHead; split <;> [rfl; (split <;> rfl)]

@[simp] theorem deferOnHead_pins (s : State) : (deferOnHead s).pins = s.pins := by
  unfold deferOnHead; split <;> [rfl; (split <;> rfl)]

@[simp] theorem deferOnHead_instants (s : State) : (deferOnHead s).instants = s.instants := by
  unfold deferOnHead; split <;> [rfl; (split <;> rfl)]

@[simp] theorem deferOnHead_pending (s : State) : (deferOnHead s).pending = s.pending := by
  unfold deferOnHead; split <;> [rfl; (split <;> rfl)]

@[simp] theorem deferOnHead_port (s : State) : (deferOnHead s).port = s.port := by
  unfold deferOnHead; split <;> [rfl; (split <;> rfl)]

@[simp] theorem deferOnHead_line_queue (s : State) : (deferOnHead s).line.queue = s.line.queue := by
  unfold deferOnHead; split <;> [rfl; (split <;> rfl)]

@[simp] theorem deferOnHead_line_inHand (s : State) : (deferOnHead s).line.inHand = s.line.inHand := by
  unfold deferOnHead; split <;> [rfl; (split <;> rfl)]

@[simp] theorem deferOnHead_line_dedup (s : State) : (deferOnHead s).line.dedup = s.line.dedup := by
  unfold deferOnHead; split <;> [rfl; (split <;> rfl)]

@[simp] theorem deferOnHead_line_counts (s : State) : (deferOnHead s).line.counts = s.line.counts := by
  unfold deferOnHead; split <;> [rfl; (split <;> rfl)]

@[simp] theorem deferOnHead_line_receiving (s : State) : (deferOnHead s).line.receiving = s.line.receiving := by
  unfold deferOnHead; split <;> [rfl; (split <;> rfl)]

@[simp] theorem deferOnHead_line_giveUpRun (s : State) : (deferOnHead s).line.giveUpRun = s.line.giveUpRun := by
  unfold deferOnHead; split <;> [rfl; (split <;> rfl)]

@[simp] theorem deferOnHead_line_present (s : State) : (deferOnHead s).line.present = s.line.present := by
  unfold deferOnHead; split <;> [rfl; (split <;> rfl)]

@[simp] theorem deferOnHead_line_last (s : State) : (deferOnHead s).line.last = s.line.last := by
  unfold deferOnHead; split <;> [rfl; (split <;> rfl)]

@[simp] theorem deferOnHead_line_lineOut (s : State) : (deferOnHead s).line.lineOut = s.line.lineOut := by
  unfold deferOnHead; split <;> [rfl; (split <;> rfl)]

@[simp] theorem deferOnHead_line_jamRaised (s : State) : (deferOnHead s).line.jamRaised = s.line.jamRaised := by
  unfold deferOnHead; split <;> [rfl; (split <;> rfl)]

end Sys2Proof.Machine
end

