-- ==== Sys2Proof/Laws/Calm.lean ====
section
/-! SUPPORT. The effective action stays the most severe among the ACTIVE and HELD records (R172): operations that leave the
fault records alone, and those that end in working the action out. -/

namespace Sys2Proof.Machine

set_option Elab.async false

/-- The fault records, the effective action and the configuration stay. -/
structure Calm (s t : State) : Prop where
  faults : t.faults = s.faults
  config : t.port.config = s.port.config

theorem Calm.refl (s : State) : Calm s s := ⟨rfl, rfl⟩

theorem Calm.trans {s t u : State} (h : Calm s t) (k : Calm t u) : Calm s u :=
  ⟨k.faults.trans h.faults, k.config.trans h.config⟩

/-- The effective action stays the one R172 calls for. -/
def Steady (s t : State) : Prop := s.Settled → t.Settled

theorem Steady.refl (s : State) : Steady s s := id

theorem Steady.trans {s t u : State} (h : Steady s t) (k : Steady t u) : Steady s u := fun i => k (h i)

theorem Calm.steady {s t : State} (h : Calm s t) : Steady s t := by
  intro i
  unfold State.Settled at *
  rw [h.faults, h.config]
  exact i

/-- A calm change before a steady one. -/
theorem Steady.after {s t u : State} (k : Steady t u) (h : Calm s t) : Steady s u := h.steady.trans k

theorem steady_settleAction (n : Nat) (cause : FaultClass) (r s : State) : Steady r (settleAction n cause s) :=
  fun _ => settleAction_effective n cause s

theorem steady_raise (c : FaultClass) (detail : Option Nat) (r s : State) : Steady r (raise c detail s) :=
  fun _ => settleAction_effective _ _ _

theorem steady_withdraw (c : FaultClass) (r s : State) : Steady r (withdraw c s) :=
  fun _ => settleAction_effective _ _ _

theorem steady_abandonTransition (r s : State) : Steady r (abandonTransition s) :=
  fun _ => settleAction_effective _ _ _

theorem calm_post (body : ReportBody) (s : State) : Calm s (post body s) := by
  rw [post_eq]
  exact ⟨rfl, rfl⟩

theorem calm_setCoord (state : CoordState) (cause : Option SuspensionCause) (s : State) :
    Calm s (setCoord state cause s) := by
  unfold setCoord
  split <;> first | exact Calm.refl _ | (constructor <;> simp)

@[simp] theorem setCoord_faults (state : CoordState) (cause : Option SuspensionCause) (s : State) : (setCoord state cause s).faults = s.faults :=
  (calm_setCoord state cause s).faults

@[simp] theorem setCoord_config (state : CoordState) (cause : Option SuspensionCause) (s : State) :
    (setCoord state cause s).port.config = s.port.config :=
  (calm_setCoord state cause s).config

theorem calm_putForward (a : Adoption) (s : State) : Calm s (putForward a s) := by
  unfold putForward
  repeat' split
  all_goals first | exact Calm.refl _ | exact ⟨rfl, rfl⟩ | (constructor <;> simp)

@[simp] theorem putForward_faults (a : Adoption) (s : State) : (putForward a s).faults = s.faults :=
  (calm_putForward a s).faults

@[simp] theorem putForward_config (a : Adoption) (s : State) :
    (putForward a s).port.config = s.port.config :=
  (calm_putForward a s).config

theorem calm_setFallback (s : State) : Calm s (setFallback s) := by
  unfold setFallback
  constructor <;> simp

@[simp] theorem setFallback_faults (s : State) : (setFallback s).faults = s.faults :=
  (calm_setFallback s).faults

@[simp] theorem setFallback_config (s : State) :
    (setFallback s).port.config = s.port.config :=
  (calm_setFallback s).config

theorem calm_clearFallback (s : State) : Calm s (clearFallback s) := by
  unfold clearFallback
  dsimp only
  repeat' split
  all_goals first | exact Calm.refl _ | exact ⟨rfl, rfl⟩ | (constructor <;> simp)

@[simp] theorem clearFallback_faults (s : State) : (clearFallback s).faults = s.faults :=
  (calm_clearFallback s).faults

@[simp] theorem clearFallback_config (s : State) :
    (clearFallback s).port.config = s.port.config :=
  (calm_clearFallback s).config

theorem calm_setPreempt (state : PreemptState) (input : Option PreemptInput) (s : State) :
    Calm s (setPreempt state input s) := by
  unfold setPreempt
  constructor <;> simp

@[simp] theorem setPreempt_faults (state : PreemptState) (input : Option PreemptInput) (s : State) : (setPreempt state input s).faults = s.faults :=
  (calm_setPreempt state input s).faults

@[simp] theorem setPreempt_config (state : PreemptState) (input : Option PreemptInput) (s : State) :
    (setPreempt state input s).port.config = s.port.config :=
  (calm_setPreempt state input s).config

theorem calm_unstageOrphan (plan : Nat) (s : State) : Calm s (unstageOrphan plan s) := by
  unfold unstageOrphan
  split <;> first | exact Calm.refl _ | (constructor <;> simp)

@[simp] theorem unstageOrphan_faults (plan : Nat) (s : State) : (unstageOrphan plan s).faults = s.faults :=
  (calm_unstageOrphan plan s).faults

@[simp] theorem unstageOrphan_config (plan : Nat) (s : State) :
    (unstageOrphan plan s).port.config = s.port.config :=
  (calm_unstageOrphan plan s).config

theorem calm_unstageOverride (o : Option Override) (s : State) : Calm s (unstageOverride o s) := by
  unfold unstageOverride
  split <;> first | exact Calm.refl _ | (constructor <;> simp)

@[simp] theorem unstageOverride_faults (o : Option Override) (s : State) : (unstageOverride o s).faults = s.faults :=
  (calm_unstageOverride o s).faults

@[simp] theorem unstageOverride_config (o : Option Override) (s : State) :
    (unstageOverride o s).port.config = s.port.config :=
  (calm_unstageOverride o s).config

theorem calm_abandonRun (i : PreemptInput) (s : State) : Calm s (abandonRun i s) := by
  unfold abandonRun
  constructor <;> simp

@[simp] theorem abandonRun_faults (i : PreemptInput) (s : State) : (abandonRun i s).faults = s.faults :=
  (calm_abandonRun i s).faults

@[simp] theorem abandonRun_config (i : PreemptInput) (s : State) :
    (abandonRun i s).port.config = s.port.config :=
  (calm_abandonRun i s).config

theorem calm_holdClaim (s : State) : Calm s (holdClaim s) :=
  ⟨rfl, rfl⟩

@[simp] theorem holdClaim_faults (s : State) : (holdClaim s).faults = s.faults :=
  (calm_holdClaim s).faults

@[simp] theorem holdClaim_config (s : State) :
    (holdClaim s).port.config = s.port.config :=
  (calm_holdClaim s).config

theorem calm_preemptFlash (s : State) : Calm s (preemptFlash s) := by
  unfold preemptFlash
  repeat' split
  all_goals first | exact Calm.refl _ | exact ⟨rfl, rfl⟩ | (constructor <;> simp)

@[simp] theorem preemptFlash_faults (s : State) : (preemptFlash s).faults = s.faults :=
  (calm_preemptFlash s).faults

@[simp] theorem preemptFlash_config (s : State) :
    (preemptFlash s).port.config = s.port.config :=
  (calm_preemptFlash s).config

theorem calm_setSeq (state : SeqState) (s : State) : Calm s (setSeq state s) := by
  unfold setSeq
  split <;> first | exact Calm.refl _ | (constructor <;> simp)

@[simp] theorem setSeq_faults (state : SeqState) (s : State) : (setSeq state s).faults = s.faults :=
  (calm_setSeq state s).faults

@[simp] theorem setSeq_config (state : SeqState) (s : State) :
    (setSeq state s).port.config = s.port.config :=
  (calm_setSeq state s).config

theorem calm_flashExit (s : State) : Calm s (flashExit s) := by
  unfold flashExit
  split <;> first | exact Calm.refl _ | (constructor <;> simp)

@[simp] theorem flashExit_faults (s : State) : (flashExit s).faults = s.faults :=
  (calm_flashExit s).faults

@[simp] theorem flashExit_config (s : State) :
    (flashExit s).port.config = s.port.config :=
  (calm_flashExit s).config

theorem calm_clearOverride (s : State) : Calm s (clearOverride s) := by
  unfold clearOverride
  repeat' split
  all_goals first | exact Calm.refl _ | exact ⟨rfl, rfl⟩ | (constructor <;> simp)

@[simp] theorem clearOverride_faults (s : State) : (clearOverride s).faults = s.faults :=
  (calm_clearOverride s).faults

@[simp] theorem clearOverride_config (s : State) :
    (clearOverride s).port.config = s.port.config :=
  (calm_clearOverride s).config

theorem calm_adoptionRequest (a : Adoption) (s : State) : Calm s (adoptionRequest a s) := by
  unfold adoptionRequest
  dsimp only
  repeat' split
  all_goals first | exact Calm.refl _ | exact ⟨rfl, rfl⟩ | (constructor <;> simp)

@[simp] theorem adoptionRequest_faults (a : Adoption) (s : State) : (adoptionRequest a s).faults = s.faults :=
  (calm_adoptionRequest a s).faults

@[simp] theorem adoptionRequest_config (a : Adoption) (s : State) :
    (adoptionRequest a s).port.config = s.port.config :=
  (calm_adoptionRequest a s).config

theorem calm_deferOnHead (s : State) : Calm s (deferOnHead s) := by
  unfold deferOnHead
  repeat' split
  all_goals first | exact Calm.refl _ | exact ⟨rfl, rfl⟩

@[simp] theorem deferOnHead_config (s : State) :
    (deferOnHead s).port.config = s.port.config :=
  (calm_deferOnHead s).config

theorem calm_placeTail (f : Frame) (s : State) : Calm s (placeTail f s) := by
  unfold placeTail
  dsimp only
  repeat' split
  all_goals first | exact Calm.refl _ | exact ⟨rfl, rfl⟩ | (constructor <;> simp)

@[simp] theorem placeTail_faults (f : Frame) (s : State) : (placeTail f s).faults = s.faults :=
  (calm_placeTail f s).faults

@[simp] theorem placeTail_config (f : Frame) (s : State) :
    (placeTail f s).port.config = s.port.config :=
  (calm_placeTail f s).config

theorem calm_placeTime (c : TimeContent) (s : State) : Calm s (placeTime c s) := by
  unfold placeTime
  dsimp only
  repeat' split
  all_goals first | exact Calm.refl _ | exact ⟨rfl, rfl⟩ | (constructor <;> simp)

@[simp] theorem placeTime_faults (c : TimeContent) (s : State) : (placeTime c s).faults = s.faults :=
  (calm_placeTime c s).faults

@[simp] theorem placeTime_config (c : TimeContent) (s : State) :
    (placeTime c s).port.config = s.port.config :=
  (calm_placeTime c s).config

theorem calm_placeRelay (body : FrameBody) (s : State) : Calm s (placeRelay body s) := by
  unfold placeRelay
  split <;> first | exact Calm.refl _ | (constructor <;> simp)

@[simp] theorem placeRelay_faults (body : FrameBody) (s : State) : (placeRelay body s).faults = s.faults :=
  (calm_placeRelay body s).faults

@[simp] theorem placeRelay_config (body : FrameBody) (s : State) :
    (placeRelay body s).port.config = s.port.config :=
  (calm_placeRelay body s).config

theorem calm_placeOwnOrder (o : OrderContent) (s : State) : Calm s (placeOwnOrder o s) := by
  unfold placeOwnOrder
  constructor <;> simp

@[simp] theorem placeOwnOrder_faults (o : OrderContent) (s : State) : (placeOwnOrder o s).faults = s.faults :=
  (calm_placeOwnOrder o s).faults

@[simp] theorem placeOwnOrder_config (o : OrderContent) (s : State) :
    (placeOwnOrder o s).port.config = s.port.config :=
  (calm_placeOwnOrder o s).config

theorem calm_placeOwnCancel (c : CancelContent) (s : State) : Calm s (placeOwnCancel c s) := by
  unfold placeOwnCancel
  constructor <;> simp

@[simp] theorem placeOwnCancel_faults (c : CancelContent) (s : State) : (placeOwnCancel c s).faults = s.faults :=
  (calm_placeOwnCancel c s).faults

@[simp] theorem placeOwnCancel_config (c : CancelContent) (s : State) :
    (placeOwnCancel c s).port.config = s.port.config :=
  (calm_placeOwnCancel c s).config

theorem calm_relayOrder (o : OrderContent) (s : State) : Calm s (relayOrder o s) := by
  unfold relayOrder
  split <;> first | exact Calm.refl _ | (constructor <;> simp)

@[simp] theorem relayOrder_faults (o : OrderContent) (s : State) : (relayOrder o s).faults = s.faults :=
  (calm_relayOrder o s).faults

@[simp] theorem relayOrder_config (o : OrderContent) (s : State) :
    (relayOrder o s).port.config = s.port.config :=
  (calm_relayOrder o s).config

theorem calm_relayCancel (c : CancelContent) (s : State) : Calm s (relayCancel c s) := by
  unfold relayCancel
  split <;> first | exact Calm.refl _ | (constructor <;> simp)

@[simp] theorem relayCancel_faults (c : CancelContent) (s : State) : (relayCancel c s).faults = s.faults :=
  (calm_relayCancel c s).faults

@[simp] theorem relayCancel_config (c : CancelContent) (s : State) :
    (relayCancel c s).port.config = s.port.config :=
  (calm_relayCancel c s).config

theorem calm_beginAttempt (f : Frame) (s : State) : Calm s (beginAttempt f s) :=
  ⟨rfl, rfl⟩

@[simp] theorem beginAttempt_faults (f : Frame) (s : State) : (beginAttempt f s).faults = s.faults :=
  (calm_beginAttempt f s).faults

@[simp] theorem beginAttempt_config (f : Frame) (s : State) :
    (beginAttempt f s).port.config = s.port.config :=
  (calm_beginAttempt f s).config

theorem calm_reportGivenUp (f : Frame) (s : State) : Calm s (reportGivenUp f s) := by
  unfold reportGivenUp
  repeat' split
  all_goals first | exact Calm.refl _ | exact ⟨rfl, rfl⟩ | (constructor <;> simp)

@[simp] theorem reportGivenUp_faults (f : Frame) (s : State) : (reportGivenUp f s).faults = s.faults :=
  (calm_reportGivenUp f s).faults

@[simp] theorem reportGivenUp_config (f : Frame) (s : State) :
    (reportGivenUp f s).port.config = s.port.config :=
  (calm_reportGivenUp f s).config

theorem calm_reportState (was : Option OldState) (old new : OrderEntry) (s : State) :
    Calm s (reportState was old new s) := by
  unfold reportState
  repeat' split
  all_goals first | exact Calm.refl _ | exact ⟨rfl, rfl⟩ | (constructor <;> simp)

@[simp] theorem reportState_faults (was : Option OldState) (old new : OrderEntry) (s : State) : (reportState was old new s).faults = s.faults :=
  (calm_reportState was old new s).faults

@[simp] theorem reportState_config (was : Option OldState) (old new : OrderEntry) (s : State) :
    (reportState was old new s).port.config = s.port.config :=
  (calm_reportState was old new s).config

theorem calm_reportEnded (e : OrderEntry) (s : State) : Calm s (reportEnded e s) := by
  unfold reportEnded
  split <;> first | exact Calm.refl _ | (constructor <;> simp)

@[simp] theorem reportEnded_faults (e : OrderEntry) (s : State) : (reportEnded e s).faults = s.faults :=
  (calm_reportEnded e s).faults

@[simp] theorem reportEnded_config (e : OrderEntry) (s : State) :
    (reportEnded e s).port.config = s.port.config :=
  (calm_reportEnded e s).config

theorem calm_refuseRoom (o : OrderContent) (s : State) : Calm s (refuseRoom o s) := by
  unfold refuseRoom
  constructor <;> simp

@[simp] theorem refuseRoom_faults (o : OrderContent) (s : State) : (refuseRoom o s).faults = s.faults :=
  (calm_refuseRoom o s).faults

@[simp] theorem refuseRoom_config (o : OrderContent) (s : State) :
    (refuseRoom o s).port.config = s.port.config :=
  (calm_refuseRoom o s).config

theorem calm_cancelEntry (e : OrderEntry) (revision : Nat) (finish : NetTime) (s : State) :
    Calm s (cancelEntry e revision finish s) := by
  unfold cancelEntry
  constructor <;> simp

@[simp] theorem cancelEntry_faults (e : OrderEntry) (revision : Nat) (finish : NetTime) (s : State) : (cancelEntry e revision finish s).faults = s.faults :=
  (calm_cancelEntry e revision finish s).faults

@[simp] theorem cancelEntry_config (e : OrderEntry) (revision : Nat) (finish : NetTime) (s : State) :
    (cancelEntry e revision finish s).port.config = s.port.config :=
  (calm_cancelEntry e revision finish s).config

theorem calm_evict (v : OrderEntry) (s : State) : Calm s (evict v s) := by
  unfold evict
  constructor <;> simp

@[simp] theorem evict_faults (v : OrderEntry) (s : State) : (evict v s).faults = s.faults :=
  (calm_evict v s).faults

@[simp] theorem evict_config (v : OrderEntry) (s : State) :
    (evict v s).port.config = s.port.config :=
  (calm_evict v s).config

theorem calm_insertPlaceholder (c : CancelContent) (s : State) : Calm s (insertPlaceholder c s) :=
  ⟨rfl, rfl⟩

@[simp] theorem insertPlaceholder_faults (c : CancelContent) (s : State) : (insertPlaceholder c s).faults = s.faults :=
  (calm_insertPlaceholder c s).faults

@[simp] theorem insertPlaceholder_config (c : CancelContent) (s : State) :
    (insertPlaceholder c s).port.config = s.port.config :=
  (calm_insertPlaceholder c s).config

theorem calm_cancelIssued (c : CancelContent) (s : State) : Calm s (cancelIssued c s) := by
  unfold cancelIssued
  split <;> first | exact Calm.refl _ | (constructor <;> simp)

@[simp] theorem cancelIssued_faults (c : CancelContent) (s : State) : (cancelIssued c s).faults = s.faults :=
  (calm_cancelIssued c s).faults

@[simp] theorem cancelIssued_config (c : CancelContent) (s : State) :
    (cancelIssued c s).port.config = s.port.config :=
  (calm_cancelIssued c s).config

theorem calm_repeatIssued (i : IssuedEntry) (s : State) : Calm s (repeatIssued i s) := by
  unfold repeatIssued
  split <;> first | exact Calm.refl _ | (constructor <;> simp)

@[simp] theorem repeatIssued_faults (i : IssuedEntry) (s : State) : (repeatIssued i s).faults = s.faults :=
  (calm_repeatIssued i s).faults

@[simp] theorem repeatIssued_config (i : IssuedEntry) (s : State) :
    (repeatIssued i s).port.config = s.port.config :=
  (calm_repeatIssued i s).config

theorem calm_stepIssued (s : State) : Calm s (stepIssued s) :=
  ⟨rfl, rfl⟩

@[simp] theorem stepIssued_faults (s : State) : (stepIssued s).faults = s.faults :=
  (calm_stepIssued s).faults

@[simp] theorem stepIssued_config (s : State) :
    (stepIssued s).port.config = s.port.config :=
  (calm_stepIssued s).config

theorem calm_prune (s : State) : Calm s (prune s) := by
  unfold prune
  dsimp only
  repeat' split
  all_goals first | exact Calm.refl _ | exact ⟨rfl, rfl⟩ | (constructor <;> simp)

@[simp] theorem prune_faults (s : State) : (prune s).faults = s.faults := (calm_prune s).faults

@[simp] theorem prune_config (s : State) :
    (prune s).port.config = s.port.config :=
  (calm_prune s).config

theorem calm_slewMillisecond (s : State) : Calm s (slewMillisecond s) := by
  unfold slewMillisecond
  repeat' split
  all_goals first | exact Calm.refl _ | exact ⟨rfl, rfl⟩

@[simp] theorem slewMillisecond_faults (s : State) : (slewMillisecond s).faults = s.faults :=
  (calm_slewMillisecond s).faults

@[simp] theorem slewMillisecond_config (s : State) :
    (slewMillisecond s).port.config = s.port.config :=
  (calm_slewMillisecond s).config

theorem calm_createNeighbour (n : Neighbour) (s : State) : Calm s (createNeighbour n s) := by
  unfold createNeighbour
  repeat' split
  all_goals first | exact Calm.refl _ | exact ⟨rfl, rfl⟩

@[simp] theorem createNeighbour_faults (n : Neighbour) (s : State) : (createNeighbour n s).faults = s.faults :=
  (calm_createNeighbour n s).faults

@[simp] theorem createNeighbour_config (n : Neighbour) (s : State) :
    (createNeighbour n s).port.config = s.port.config :=
  (calm_createNeighbour n s).config

theorem calm_takeTimeFrame (sender : Nat) (body : List Byte) (captured : NetTime) (s : State) :
    Calm s (takeTimeFrame sender body captured s) := by
  unfold takeTimeFrame
  repeat' split
  all_goals first | exact Calm.refl _ | exact ⟨rfl, rfl⟩ | (constructor <;> simp)

@[simp] theorem takeTimeFrame_faults (sender : Nat) (body : List Byte) (captured : NetTime) (s : State) : (takeTimeFrame sender body captured s).faults = s.faults :=
  (calm_takeTimeFrame sender body captured s).faults

@[simp] theorem takeTimeFrame_config (sender : Nat) (body : List Byte) (captured : NetTime) (s : State) :
    (takeTimeFrame sender body captured s).port.config = s.port.config :=
  (calm_takeTimeFrame sender body captured s).config

theorem calm_classify (s : State) : Calm s (classify s) :=
  ⟨rfl, rfl⟩

@[simp] theorem classify_faults (s : State) : (classify s).faults = s.faults := (calm_classify s).faults

@[simp] theorem classify_config (s : State) :
    (classify s).port.config = s.port.config :=
  (calm_classify s).config

theorem calm_roundCounts (s : State) : Calm s (roundCounts s) :=
  ⟨rfl, rfl⟩

@[simp] theorem roundCounts_faults (s : State) : (roundCounts s).faults = s.faults :=
  (calm_roundCounts s).faults

@[simp] theorem roundCounts_config (s : State) :
    (roundCounts s).port.config = s.port.config :=
  (calm_roundCounts s).config

theorem calm_clearTimeMark (s : State) : Calm s (clearTimeMark s) :=
  ⟨rfl, rfl⟩

@[simp] theorem clearTimeMark_faults (s : State) : (clearTimeMark s).faults = s.faults :=
  (calm_clearTimeMark s).faults

@[simp] theorem clearTimeMark_config (s : State) :
    (clearTimeMark s).port.config = s.port.config :=
  (calm_clearTimeMark s).config

theorem calm_takeTimeBuild (s : State) : Calm s (takeTimeBuild s) := by
  unfold takeTimeBuild
  constructor <;> simp

@[simp] theorem takeTimeBuild_faults (s : State) : (takeTimeBuild s).faults = s.faults :=
  (calm_takeTimeBuild s).faults

@[simp] theorem takeTimeBuild_config (s : State) :
    (takeTimeBuild s).port.config = s.port.config :=
  (calm_takeTimeBuild s).config

theorem calm_runClock (n : Nat) (s : State) : Calm s (runClock n s) :=
  ⟨rfl, rfl⟩

@[simp] theorem runClock_faults (n : Nat) (s : State) : (runClock n s).faults = s.faults :=
  (calm_runClock n s).faults

@[simp] theorem runClock_config (n : Nat) (s : State) :
    (runClock n s).port.config = s.port.config :=
  (calm_runClock n s).config

theorem calm_countCycle (s : State) : Calm s (countCycle s) := by
  unfold countCycle
  repeat' split
  all_goals first | exact Calm.refl _ | exact ⟨rfl, rfl⟩

@[simp] theorem countCycle_faults (s : State) : (countCycle s).faults = s.faults :=
  (calm_countCycle s).faults

@[simp] theorem countCycle_config (s : State) :
    (countCycle s).port.config = s.port.config :=
  (calm_countCycle s).config

theorem calm_beginTransition (p : StoredPlan) (m : Measure) (s : State) : Calm s (beginTransition p m s) := by
  unfold beginTransition
  constructor <;> simp

@[simp] theorem beginTransition_faults (p : StoredPlan) (m : Measure) (s : State) : (beginTransition p m s).faults = s.faults :=
  (calm_beginTransition p m s).faults

@[simp] theorem beginTransition_config (p : StoredPlan) (m : Measure) (s : State) :
    (beginTransition p m s).port.config = s.port.config :=
  (calm_beginTransition p m s).config

theorem calm_trail (occasion : TrailOccasion) (yellow : Nat) (groups : GroupSet) (s : State) :
    Calm s (trail occasion yellow groups s) := by
  unfold trail
  split <;> first | exact Calm.refl _ | (constructor <;> simp)

@[simp] theorem trail_faults (occasion : TrailOccasion) (yellow : Nat) (groups : GroupSet) (s : State) : (trail occasion yellow groups s).faults = s.faults :=
  (calm_trail occasion yellow groups s).faults

@[simp] theorem trail_config (occasion : TrailOccasion) (yellow : Nat) (groups : GroupSet) (s : State) :
    (trail occasion yellow groups s).port.config = s.port.config :=
  (calm_trail occasion yellow groups s).config

theorem calm_beginGreen (k : Nat) (left : Option (TrailOccasion × Nat)) (s : State) :
    Calm s (beginGreen k left s) := by
  unfold beginGreen
  repeat' split
  all_goals first | exact Calm.refl _ | exact ⟨rfl, rfl⟩ | (constructor <;> simp)

@[simp] theorem beginGreen_faults (k : Nat) (left : Option (TrailOccasion × Nat)) (s : State) : (beginGreen k left s).faults = s.faults :=
  (calm_beginGreen k left s).faults

@[simp] theorem beginGreen_config (k : Nat) (left : Option (TrailOccasion × Nat)) (s : State) :
    (beginGreen k left s).port.config = s.port.config :=
  (calm_beginGreen k left s).config

theorem calm_handFigures (f : Figures) (position : Nat) (s : State) : Calm s (handFigures f position s) :=
  ⟨rfl, rfl⟩

@[simp] theorem handFigures_faults (f : Figures) (position : Nat) (s : State) : (handFigures f position s).faults = s.faults :=
  (calm_handFigures f position s).faults

@[simp] theorem handFigures_config (f : Figures) (position : Nat) (s : State) :
    (handFigures f position s).port.config = s.port.config :=
  (calm_handFigures f position s).config

theorem calm_putInService (a : Adoption) (s : State) : Calm s (putInService a s) :=
  ⟨rfl, rfl⟩

@[simp] theorem putInService_faults (a : Adoption) (s : State) : (putInService a s).faults = s.faults :=
  (calm_putInService a s).faults

@[simp] theorem putInService_config (a : Adoption) (s : State) :
    (putInService a s).port.config = s.port.config :=
  (calm_putInService a s).config

theorem calm_beginClearance (r : RunState) (f : Figures) (st : StageRecord) (next : NextServed) (s : State) :
    Calm s (beginClearance r f st next s) :=
  ⟨rfl, rfl⟩

@[simp] theorem beginClearance_faults (r : RunState) (f : Figures) (st : StageRecord) (next : NextServed) (s : State) : (beginClearance r f st next s).faults = s.faults :=
  (calm_beginClearance r f st next s).faults

@[simp] theorem beginClearance_config (r : RunState) (f : Figures) (st : StageRecord) (next : NextServed) (s : State) :
    (beginClearance r f st next s).port.config = s.port.config :=
  (calm_beginClearance r f st next s).config

theorem calm_takeGreenEnd (s : State) : Calm s (takeGreenEnd s) := by
  unfold takeGreenEnd
  dsimp only
  repeat' split
  all_goals first | exact Calm.refl _ | exact ⟨rfl, rfl⟩

@[simp] theorem takeGreenEnd_faults (s : State) : (takeGreenEnd s).faults = s.faults :=
  (calm_takeGreenEnd s).faults

@[simp] theorem takeGreenEnd_config (s : State) :
    (takeGreenEnd s).port.config = s.port.config :=
  (calm_takeGreenEnd s).config

theorem calm_takeYellowEnd (s : State) : Calm s (takeYellowEnd s) := by
  unfold takeYellowEnd
  repeat' split
  all_goals first | exact Calm.refl _ | exact ⟨rfl, rfl⟩

@[simp] theorem takeYellowEnd_faults (s : State) : (takeYellowEnd s).faults = s.faults :=
  (calm_takeYellowEnd s).faults

@[simp] theorem takeYellowEnd_config (s : State) :
    (takeYellowEnd s).port.config = s.port.config :=
  (calm_takeYellowEnd s).config

theorem calm_takeStageGreen (s : State) : Calm s (takeStageGreen s) := by
  unfold takeStageGreen
  repeat' split
  all_goals first | exact Calm.refl _ | exact ⟨rfl, rfl⟩ | (constructor <;> simp)

@[simp] theorem takeStageGreen_faults (s : State) : (takeStageGreen s).faults = s.faults :=
  (calm_takeStageGreen s).faults

@[simp] theorem takeStageGreen_config (s : State) :
    (takeStageGreen s).port.config = s.port.config :=
  (calm_takeStageGreen s).config

theorem calm_takeTrailingEnd (g : Group) (s : State) : Calm s (takeTrailingEnd g s) :=
  ⟨rfl, rfl⟩

@[simp] theorem takeTrailingEnd_faults (g : Group) (s : State) : (takeTrailingEnd g s).faults = s.faults :=
  (calm_takeTrailingEnd g s).faults

@[simp] theorem takeTrailingEnd_config (g : Group) (s : State) :
    (takeTrailingEnd g s).port.config = s.port.config :=
  (calm_takeTrailingEnd g s).config

theorem calm_chooseFirstPlan (s : State) : Calm s (chooseFirstPlan s) := by
  unfold chooseFirstPlan
  repeat' split
  all_goals first | exact Calm.refl _ | exact ⟨rfl, rfl⟩ | (constructor <;> simp)

@[simp] theorem chooseFirstPlan_faults (s : State) : (chooseFirstPlan s).faults = s.faults :=
  (calm_chooseFirstPlan s).faults

@[simp] theorem chooseFirstPlan_config (s : State) :
    (chooseFirstPlan s).port.config = s.port.config :=
  (calm_chooseFirstPlan s).config

theorem calm_emptyStaged (s : State) : Calm s (emptyStaged s) := by
  unfold emptyStaged
  split <;> first | exact Calm.refl _ | (constructor <;> simp)

@[simp] theorem emptyStaged_faults (s : State) : (emptyStaged s).faults = s.faults :=
  (calm_emptyStaged s).faults

@[simp] theorem emptyStaged_config (s : State) :
    (emptyStaged s).port.config = s.port.config :=
  (calm_emptyStaged s).config

theorem calm_chooseResume (o : Option Override) (s : State) : Calm s (chooseResume o s) := by
  unfold chooseResume
  dsimp only
  repeat' split
  all_goals first | exact Calm.refl _ | exact ⟨rfl, rfl⟩ | (constructor <;> simp)

@[simp] theorem chooseResume_faults (o : Option Override) (s : State) : (chooseResume o s).faults = s.faults :=
  (calm_chooseResume o s).faults

@[simp] theorem chooseResume_config (o : Option Override) (s : State) :
    (chooseResume o s).port.config = s.port.config :=
  (calm_chooseResume o s).config

theorem calm_beginDwell (s : State) : Calm s (beginDwell s) := by
  unfold beginDwell
  split <;> first | exact Calm.refl _ | (constructor <;> simp)

@[simp] theorem beginDwell_faults (s : State) : (beginDwell s).faults = s.faults :=
  (calm_beginDwell s).faults

@[simp] theorem beginDwell_config (s : State) :
    (beginDwell s).port.config = s.port.config :=
  (calm_beginDwell s).config

theorem calm_clearOutside (s : State) : Calm s (clearOutside s) := by
  unfold clearOutside
  dsimp only
  repeat' split
  all_goals first | exact Calm.refl _ | exact ⟨rfl, rfl⟩ | (constructor <;> simp)

@[simp] theorem clearOutside_faults (s : State) : (clearOutside s).faults = s.faults :=
  (calm_clearOutside s).faults

@[simp] theorem clearOutside_config (s : State) :
    (clearOutside s).port.config = s.port.config :=
  (calm_clearOutside s).config

theorem calm_enterWith (hold : Nat) (s : State) : Calm s (enterWith hold s) := by
  unfold enterWith
  split <;> first | exact Calm.refl _ | (constructor <;> simp)

@[simp] theorem enterWith_faults (hold : Nat) (s : State) : (enterWith hold s).faults = s.faults :=
  (calm_enterWith hold s).faults

@[simp] theorem enterWith_config (hold : Nat) (s : State) :
    (enterWith hold s).port.config = s.port.config :=
  (calm_enterWith hold s).config

theorem calm_yieldJunction (s : State) : Calm s (yieldJunction s) := by
  unfold yieldJunction
  constructor <;> simp

@[simp] theorem yieldJunction_faults (s : State) : (yieldJunction s).faults = s.faults :=
  (calm_yieldJunction s).faults

@[simp] theorem yieldJunction_config (s : State) :
    (yieldJunction s).port.config = s.port.config :=
  (calm_yieldJunction s).config

theorem calm_directRun (i : PreemptInput) (s : State) : Calm s (directRun i s) := by
  unfold directRun
  constructor <;> simp

@[simp] theorem directRun_faults (i : PreemptInput) (s : State) : (directRun i s).faults = s.faults :=
  (calm_directRun i s).faults

@[simp] theorem directRun_config (i : PreemptInput) (s : State) :
    (directRun i s).port.config = s.port.config :=
  (calm_directRun i s).config

theorem calm_takeOver (s : State) : Calm s (takeOver s) := by
  unfold takeOver
  constructor <;> simp

@[simp] theorem takeOver_faults (s : State) : (takeOver s).faults = s.faults := (calm_takeOver s).faults

@[simp] theorem takeOver_config (s : State) :
    (takeOver s).port.config = s.port.config :=
  (calm_takeOver s).config

theorem calm_takeIssuedEnd (stamp : NetTime) (s : State) : Calm s (takeIssuedEnd stamp s) :=
  ⟨rfl, rfl⟩

@[simp] theorem takeIssuedEnd_faults (stamp : NetTime) (s : State) : (takeIssuedEnd stamp s).faults = s.faults :=
  (calm_takeIssuedEnd stamp s).faults

@[simp] theorem takeIssuedEnd_config (stamp : NetTime) (s : State) :
    (takeIssuedEnd stamp s).port.config = s.port.config :=
  (calm_takeIssuedEnd stamp s).config

theorem calm_takeRepeat (stamp : NetTime) (s : State) : Calm s (takeRepeat stamp s) := by
  unfold takeRepeat
  split <;> first | exact Calm.refl _ | (constructor <;> simp)

@[simp] theorem takeRepeat_faults (stamp : NetTime) (s : State) : (takeRepeat stamp s).faults = s.faults :=
  (calm_takeRepeat stamp s).faults

@[simp] theorem takeRepeat_config (stamp : NetTime) (s : State) :
    (takeRepeat stamp s).port.config = s.port.config :=
  (calm_takeRepeat stamp s).config

theorem calm_takeToggle (s : State) : Calm s (takeToggle s) :=
  ⟨rfl, rfl⟩

@[simp] theorem takeToggle_faults (s : State) : (takeToggle s).faults = s.faults :=
  (calm_takeToggle s).faults

@[simp] theorem takeToggle_config (s : State) :
    (takeToggle s).port.config = s.port.config :=
  (calm_takeToggle s).config

theorem calm_takeRelayWait (s : State) : Calm s (takeRelayWait s) :=
  ⟨rfl, rfl⟩

@[simp] theorem takeRelayWait_faults (s : State) : (takeRelayWait s).faults = s.faults :=
  (calm_takeRelayWait s).faults

@[simp] theorem takeRelayWait_config (s : State) :
    (takeRelayWait s).port.config = s.port.config :=
  (calm_takeRelayWait s).config

theorem calm_takeBackoff (s : State) : Calm s (takeBackoff s) :=
  ⟨rfl, rfl⟩

@[simp] theorem takeBackoff_faults (s : State) : (takeBackoff s).faults = s.faults :=
  (calm_takeBackoff s).faults

@[simp] theorem takeBackoff_config (s : State) :
    (takeBackoff s).port.config = s.port.config :=
  (calm_takeBackoff s).config

theorem calm_takeGreenHoldEnd (s : State) : Calm s (takeGreenHoldEnd s) := by
  unfold takeGreenHoldEnd
  constructor <;> simp

@[simp] theorem takeGreenHoldEnd_faults (s : State) : (takeGreenHoldEnd s).faults = s.faults :=
  (calm_takeGreenHoldEnd s).faults

@[simp] theorem takeGreenHoldEnd_config (s : State) :
    (takeGreenHoldEnd s).port.config = s.port.config :=
  (calm_takeGreenHoldEnd s).config

theorem calm_passHeld (s : State) : Calm s (passHeld s) := by
  unfold passHeld
  split <;> first | exact Calm.refl _ | (constructor <;> simp)

@[simp] theorem passHeld_faults (s : State) : (passHeld s).faults = s.faults := (calm_passHeld s).faults

@[simp] theorem passHeld_config (s : State) :
    (passHeld s).port.config = s.port.config :=
  (calm_passHeld s).config

theorem calm_stepPosition (s : State) : Calm s (stepPosition s) := by
  unfold stepPosition
  repeat' split
  all_goals first | exact Calm.refl _ | exact ⟨rfl, rfl⟩

@[simp] theorem stepPosition_faults (s : State) : (stepPosition s).faults = s.faults :=
  (calm_stepPosition s).faults

@[simp] theorem stepPosition_config (s : State) :
    (stepPosition s).port.config = s.port.config :=
  (calm_stepPosition s).config

theorem calm_stepSequencer (s : State) : Calm s (stepSequencer s) := by
  unfold stepSequencer
  split <;> first | exact Calm.refl _ | (constructor <;> simp)

@[simp] theorem stepSequencer_faults (s : State) : (stepSequencer s).faults = s.faults :=
  (calm_stepSequencer s).faults

@[simp] theorem stepSequencer_config (s : State) :
    (stepSequencer s).port.config = s.port.config :=
  (calm_stepSequencer s).config

theorem calm_stepFlash (s : State) : Calm s (stepFlash s) := by
  unfold stepFlash
  repeat' split
  all_goals first | exact Calm.refl _ | exact ⟨rfl, rfl⟩

@[simp] theorem stepFlash_faults (s : State) : (stepFlash s).faults = s.faults :=
  (calm_stepFlash s).faults

@[simp] theorem stepFlash_config (s : State) :
    (stepFlash s).port.config = s.port.config :=
  (calm_stepFlash s).config

theorem calm_stepClearing (s : State) : Calm s (stepClearing s) := by
  unfold stepClearing
  split <;> first | exact Calm.refl _ | (constructor <;> simp)

@[simp] theorem stepClearing_faults (s : State) : (stepClearing s).faults = s.faults :=
  (calm_stepClearing s).faults

@[simp] theorem stepClearing_config (s : State) :
    (stepClearing s).port.config = s.port.config :=
  (calm_stepClearing s).config

theorem calm_stepPreemption (s : State) : Calm s (stepPreemption s) := by
  unfold stepPreemption
  repeat' split
  all_goals first | exact Calm.refl _ | exact ⟨rfl, rfl⟩ | (constructor <;> simp)

@[simp] theorem stepPreemption_faults (s : State) : (stepPreemption s).faults = s.faults :=
  (calm_stepPreemption s).faults

@[simp] theorem stepPreemption_config (s : State) :
    (stepPreemption s).port.config = s.port.config :=
  (calm_stepPreemption s).config

theorem calm_stepTiming (s : State) : Calm s (stepTiming s) := by
  unfold stepTiming
  constructor <;> simp

@[simp] theorem stepTiming_faults (s : State) : (stepTiming s).faults = s.faults :=
  (calm_stepTiming s).faults

@[simp] theorem stepTiming_config (s : State) :
    (stepTiming s).port.config = s.port.config :=
  (calm_stepTiming s).config

theorem calm_timed (s : State) : Calm s (timed s) := by
  unfold timed
  split <;> first | exact Calm.refl _ | (constructor <;> simp)

@[simp] theorem timed_faults (s : State) : (timed s).faults = s.faults := (calm_timed s).faults

@[simp] theorem timed_config (s : State) :
    (timed s).port.config = s.port.config :=
  (calm_timed s).config

theorem calm_sampleDemand (levels : Levels) (s : State) : Calm s (sampleDemand levels s) :=
  ⟨rfl, rfl⟩

@[simp] theorem sampleDemand_faults (levels : Levels) (s : State) : (sampleDemand levels s).faults = s.faults :=
  (calm_sampleDemand levels s).faults

@[simp] theorem sampleDemand_config (levels : Levels) (s : State) :
    (sampleDemand levels s).port.config = s.port.config :=
  (calm_sampleDemand levels s).config

theorem calm_samplePreempt (levels : Levels) (s : State) : Calm s (samplePreempt levels s) :=
  ⟨rfl, rfl⟩

@[simp] theorem samplePreempt_faults (levels : Levels) (s : State) : (samplePreempt levels s).faults = s.faults :=
  (calm_samplePreempt levels s).faults

@[simp] theorem samplePreempt_config (levels : Levels) (s : State) :
    (samplePreempt levels s).port.config = s.port.config :=
  (calm_samplePreempt levels s).config

theorem calm_hold (request seq : Byte) (a : Answer) (s : State) : Calm s (hold request seq a s) :=
  ⟨rfl, rfl⟩

@[simp] theorem hold_faults (request seq : Byte) (a : Answer) (s : State) : (hold request seq a s).faults = s.faults :=
  (calm_hold request seq a s).faults

@[simp] theorem hold_config (request seq : Byte) (a : Answer) (s : State) :
    (hold request seq a s).port.config = s.port.config :=
  (calm_hold request seq a s).config

theorem calm_refuseMalformed (request seq : Byte) (s : State) : Calm s (refuseMalformed request seq s) :=
  ⟨rfl, rfl⟩

@[simp] theorem refuseMalformed_faults (request seq : Byte) (s : State) : (refuseMalformed request seq s).faults = s.faults :=
  (calm_refuseMalformed request seq s).faults

@[simp] theorem refuseMalformed_config (request seq : Byte) (s : State) :
    (refuseMalformed request seq s).port.config = s.port.config :=
  (calm_refuseMalformed request seq s).config

theorem calm_startCoordinator (s : State) : Calm s (startCoordinator s) := by
  unfold startCoordinator
  constructor <;> simp

@[simp] theorem startCoordinator_faults (s : State) : (startCoordinator s).faults = s.faults :=
  (calm_startCoordinator s).faults

@[simp] theorem startCoordinator_config (s : State) :
    (startCoordinator s).port.config = s.port.config :=
  (calm_startCoordinator s).config

theorem calm_storeIssued (r : IssueRequest) (i : IssuedEntry) (s : State) : Calm s (storeIssued r i s) := by
  unfold storeIssued
  split <;> first | exact Calm.refl _ | (constructor <;> simp)

@[simp] theorem storeIssued_faults (r : IssueRequest) (i : IssuedEntry) (s : State) : (storeIssued r i s).faults = s.faults :=
  (calm_storeIssued r i s).faults

@[simp] theorem storeIssued_config (r : IssueRequest) (i : IssuedEntry) (s : State) :
    (storeIssued r i s).port.config = s.port.config :=
  (calm_storeIssued r i s).config

theorem calm_writeOverride (o : Override) (r : SaveRecord) (s : State) : Calm s (writeOverride o r s) := by
  unfold writeOverride
  constructor <;> simp

@[simp] theorem writeOverride_faults (o : Override) (r : SaveRecord) (s : State) : (writeOverride o r s).faults = s.faults :=
  (calm_writeOverride o r s).faults

@[simp] theorem writeOverride_config (o : Override) (r : SaveRecord) (s : State) :
    (writeOverride o r s).port.config = s.port.config :=
  (calm_writeOverride o r s).config

theorem calm_countReceived (s : State) : Calm s (countReceived s) :=
  ⟨rfl, rfl⟩

@[simp] theorem countReceived_faults (s : State) : (countReceived s).faults = s.faults :=
  (calm_countReceived s).faults

@[simp] theorem countReceived_config (s : State) :
    (countReceived s).port.config = s.port.config :=
  (calm_countReceived s).config

theorem calm_receiveTime (sender : Byte) (body : List Byte) (s : State) : Calm s (receiveTime sender body s) := by
  unfold receiveTime
  constructor <;> simp

@[simp] theorem receiveTime_faults (sender : Byte) (body : List Byte) (s : State) : (receiveTime sender body s).faults = s.faults :=
  (calm_receiveTime sender body s).faults

@[simp] theorem receiveTime_config (sender : Byte) (body : List Byte) (s : State) :
    (receiveTime sender body s).port.config = s.port.config :=
  (calm_receiveTime sender body s).config

theorem calm_countDuplicate (s : State) : Calm s (countDuplicate s) :=
  ⟨rfl, rfl⟩

@[simp] theorem countDuplicate_faults (s : State) : (countDuplicate s).faults = s.faults :=
  (calm_countDuplicate s).faults

@[simp] theorem countDuplicate_config (s : State) :
    (countDuplicate s).port.config = s.port.config :=
  (calm_countDuplicate s).config

theorem calm_rejectFrame (own : Bool) (kind sender : Byte) (body : List Byte) (crc : BitVec 16) (s : State) :
    Calm s (rejectFrame own kind sender body crc s) := by
  unfold rejectFrame
  repeat' split
  all_goals first | exact Calm.refl _ | exact ⟨rfl, rfl⟩

@[simp] theorem rejectFrame_faults (own : Bool) (kind sender : Byte) (body : List Byte) (crc : BitVec 16) (s : State) : (rejectFrame own kind sender body crc s).faults = s.faults :=
  (calm_rejectFrame own kind sender body crc s).faults

@[simp] theorem rejectFrame_config (own : Bool) (kind sender : Byte) (body : List Byte) (crc : BitVec 16) (s : State) :
    (rejectFrame own kind sender body crc s).port.config = s.port.config :=
  (calm_rejectFrame own kind sender body crc s).config

theorem calm_dropLength (idle : Nat) (s : State) : Calm s (dropLength idle s) :=
  ⟨rfl, rfl⟩

@[simp] theorem dropLength_faults (idle : Nat) (s : State) : (dropLength idle s).faults = s.faults :=
  (calm_dropLength idle s).faults

@[simp] theorem dropLength_config (idle : Nat) (s : State) :
    (dropLength idle s).port.config = s.port.config :=
  (calm_dropLength idle s).config

theorem calm_captureDelimiter (s : State) : Calm s (captureDelimiter s) :=
  ⟨rfl, rfl⟩

@[simp] theorem captureDelimiter_faults (s : State) : (captureDelimiter s).faults = s.faults :=
  (calm_captureDelimiter s).faults

@[simp] theorem captureDelimiter_config (s : State) :
    (captureDelimiter s).port.config = s.port.config :=
  (calm_captureDelimiter s).config

theorem calm_meetGap (s : State) : Calm s (meetGap s) := by
  unfold meetGap
  split <;> first | exact Calm.refl _ | (constructor <;> simp)

@[simp] theorem meetGap_faults (s : State) : (meetGap s).faults = s.faults := (calm_meetGap s).faults

@[simp] theorem meetGap_config (s : State) :
    (meetGap s).port.config = s.port.config :=
  (calm_meetGap s).config

end Sys2Proof.Machine
end

