-- ==== Sys2Proof/Laws/Settled.lean ====
section
/-! SUPPORT. Every operation that may change a fault record ends in working the effective action out (R172). -/

namespace Sys2Proof.Machine

set_option Elab.async false

/-! ### The governing plan, the schedule, the orders -/

theorem steady_checkMissing (changed : Bool) (g : Adoption) (s : State) : Steady s (checkMissing changed g s) := by
  unfold checkMissing
  split
  · split
    · exact Steady.refl s
    · exact steady_raise _ _ _ _
  · split
    · exact (steady_withdraw .planMissing s _).trans (calm_adoptionRequest _ _).steady
    · split
      · exact (calm_adoptionRequest _ _).steady
      · exact Steady.refl s

theorem steady_decideGoverning (s : State) : Steady s (decideGoverning s) := by
  unfold decideGoverning
  split
  · exact Calm.steady ⟨rfl, rfl⟩
  · split
    · exact Steady.after (steady_checkMissing _ _ _) ⟨rfl, rfl⟩
    · refine Steady.trans ?_ (steady_checkMissing _ _ _)
      exact Calm.steady ⟨by simp, by simp⟩

theorem steady_evaluateSchedule (s : State) : Steady s (evaluateSchedule s) := by
  unfold evaluateSchedule
  split
  · dsimp only
    split
    · exact Calm.steady ⟨rfl, rfl⟩
    · refine Steady.trans ?_ (steady_decideGoverning _)
      exact Calm.steady ⟨by simp, by simp⟩
  · exact Steady.refl s

/-- A fold of operations that each leave the fault records. -/
theorem calm_foldl {α : Type} (f : State → α → State) (h : ∀ s a, Calm s (f s a)) (l : List α) (s : State) :
    Calm s (l.foldl f s) := by
  induction l generalizing s with
  | nil => exact Calm.refl s
  | cons a l ih => exact (h s a).trans (ih _)

theorem steady_evaluateOrders (was : Option OldState) (s : State) : Steady s (evaluateOrders was s) := by
  unfold evaluateOrders
  split
  · dsimp only
    refine Steady.trans ?_ (steady_decideGoverning _)
    refine Steady.trans ?_ (calm_foldl (fun s (p : OrderEntry × OrderEntry) => reportState was p.1 p.2 s)
      (fun s p => calm_reportState was p.1 p.2 s) _ _).steady
    have h := calm_foldl (fun s e => reportEnded e s) (fun s e => calm_reportEnded e s)
      (s.orders.entries.filter fun e => e.finish.atOrBefore s.clock.reading) s
    exact Calm.steady ⟨h.faults, h.config⟩
  · exact Steady.refl s

theorem steady_storeOrder (o : OrderContent) (s : State) : Steady s (storeOrder o s) := by
  unfold storeOrder
  refine Steady.trans ?_ (steady_evaluateOrders _ _)
  exact Calm.steady ⟨by simp, by simp⟩

theorem steady_admitOrder (o : OrderContent) (s : State) : Steady s (admitOrder o s) := by
  unfold admitOrder
  split
  · exact steady_storeOrder o s
  · split
    · exact (calm_evict _ s).steady.trans (steady_storeOrder o _)
    · split
      · exact (calm_refuseRoom o s).steady
      · split
        · exact (calm_refuseRoom o s).steady
        · refine Steady.trans ?_ (steady_storeOrder o _)
          exact Calm.steady ⟨by simp, by simp⟩

theorem steady_processOrder (o : OrderContent) (s : State) : Steady s (processOrder o s) := by
  unfold processOrder
  split
  · split
    · exact Steady.refl s
    · split
      · refine Steady.trans ?_ (steady_evaluateOrders _ _)
        exact Calm.steady ⟨by simp, by simp⟩
      · exact (calm_cancelEntry _ _ _ s).steady.trans (steady_evaluateOrders _ _)
  · split
    · exact steady_admitOrder o s
    · exact Calm.steady ⟨rfl, rfl⟩

theorem steady_arriveOrder (o : OrderContent) (s : State) : Steady s (arriveOrder o s) := by
  unfold arriveOrder
  split
  · exact steady_processOrder o s
  · exact Calm.steady ⟨rfl, rfl⟩

theorem steady_storePlaceholder (c : CancelContent) (s : State) : Steady s (storePlaceholder c s) := by
  unfold storePlaceholder
  dsimp only
  split
  · exact (calm_insertPlaceholder c s).steady.trans (steady_evaluateOrders _ _)
  · split
    · split
      · exact ((calm_evict _ s).steady.trans (calm_insertPlaceholder c _).steady).trans (steady_evaluateOrders _ _)
      · exact Calm.steady ⟨rfl, rfl⟩
    · exact Calm.steady ⟨rfl, rfl⟩

theorem steady_cancelInList (c : CancelContent) (s : State) : Steady s (cancelInList c s) := by
  unfold cancelInList
  split
  · split
    · exact Steady.after (steady_evaluateOrders _ _) ⟨rfl, rfl⟩
    · split
      · exact (calm_cancelEntry _ _ _ s).steady.trans (steady_evaluateOrders _ _)
      · exact Steady.refl s
  · split
    · exact steady_storePlaceholder c s
    · exact Steady.refl s

theorem steady_arriveCancel (c : CancelContent) (s : State) : Steady s (arriveCancel c s) := by
  unfold arriveCancel
  split
  · exact (steady_cancelInList c s).trans (calm_cancelIssued c _).steady
  · exact Calm.steady ⟨rfl, rfl⟩

theorem steady_takeCalendar (s : State) : Steady s (takeCalendar s) := by
  unfold takeCalendar
  refine Steady.trans ?_ (steady_evaluateSchedule _)
  split
  · exact Steady.after (calm_prune _).steady ⟨rfl, rfl⟩
  · exact Calm.steady ⟨rfl, rfl⟩

/-! ### The clock -/

theorem steady_stepClock (d : Int) (s : State) : Steady s (stepClock d s) := by
  unfold stepClock
  dsimp only
  split
  · refine Steady.trans ?_ (steady_evaluateOrders _ _)
    refine Steady.trans ?_ (calm_stepIssued _).steady
    refine Steady.trans ?_ (steady_evaluateSchedule _)
    refine Steady.trans ?_ (calm_prune _).steady
    exact Calm.steady ⟨by simp, by simp⟩
  · exact Calm.steady ⟨rfl, rfl⟩

theorem steady_setClockState (state : ClockState) (s : State) : Steady s (setClockState state s) := by
  unfold setClockState
  split
  · exact Steady.refl s
  · exact steady_settleAction _ _ _ _

theorem steady_holdoverRound (s : State) : Steady s (holdoverRound s) := by
  unfold holdoverRound
  refine (steady_setClockState .holdover s).trans ?_
  generalize setClockState .holdover s = t
  dsimp only
  split
  · exact steady_raise _ _ _ _
  · exact Calm.steady ⟨rfl, rfl⟩

theorem steady_leaveHoldover (state : ClockState) (s : State) : Steady s (leaveHoldover state s) := by
  unfold leaveHoldover
  have h : Steady s { s with clock.holdover := 0 } := Calm.steady ⟨rfl, rfl⟩
  refine (h.trans (steady_setClockState state _)).trans ?_
  generalize setClockState state _ = t
  dsimp only
  split
  · exact steady_withdraw _ _ _
  · exact Steady.refl t

theorem steady_slewRound (s : State) : Steady s (slewRound s) := by
  unfold slewRound
  dsimp only
  split
  · exact steady_holdoverRound s
  · exact Steady.after (steady_leaveHoldover _ _) ⟨rfl, rfl⟩

theorem steady_aloneRound (s : State) : Steady s (aloneRound s) := by
  unfold aloneRound
  dsimp only
  split
  · split
    · exact Steady.refl s
    · split
      · exact steady_setClockState _ s
      · exact Steady.refl s
  · exact (steady_stepClock _ s).trans (steady_setClockState _ _)

theorem steady_anchoredRound (s : State) : Steady s (anchoredRound s) := by
  unfold anchoredRound
  dsimp only
  split
  · exact Calm.steady ⟨rfl, rfl⟩
  · exact Calm.steady ⟨rfl, rfl⟩
  all_goals
    split
    · exact Steady.after (steady_leaveHoldover _ _) ⟨rfl, rfl⟩
    · exact Steady.after (steady_holdoverRound _) ⟨rfl, rfl⟩

theorem steady_clockRound (s : State) : Steady s (clockRound s) := by
  unfold clockRound
  split
  · exact steady_anchoredRound s
  · split
    · exact steady_aloneRound s
    · exact steady_slewRound s

theorem steady_takeRound (s : State) : Steady s (takeRound s) := by
  unfold takeRound
  refine Steady.trans ?_ (calm_clearTimeMark _).steady
  refine Steady.trans ?_ (steady_clockRound _)
  refine Steady.trans ?_ (calm_classify _).steady
  exact Steady.after (calm_roundCounts _).steady ⟨rfl, rfl⟩

/-! ### The cycle -/

theorem steady_judge (p : StoredPlan) (r : Reference) (s : State) : Steady s (judge p r s).1 := by
  have applied : ∀ (m : Measure) (u : State), Calm u (applyAmount p m u).1 := by
    intro m u
    unfold applyAmount
    split
    · exact ⟨rfl, rfl⟩
    · exact Calm.refl u
  unfold judge
  have h : Steady s (countCycle { s with coord.measure := some (measureOf p.plan r s.clock.reading) }) :=
    Steady.after (calm_countCycle _).steady ⟨rfl, rfl⟩
  refine h.trans ?_
  dsimp only
  split
  · exact steady_abandonTransition _ _
  · split
    · exact (applied _ _).steady
    · exact ((calm_beginTransition _ _ _).trans (applied _ _)).steady

theorem steady_roundFirst (s : State) : Steady s (roundFirst s) := by
  unfold roundFirst
  split
  · exact steady_takeRound s
  · exact Steady.refl s

theorem steady_takeFrameInstant (s : State) : Steady s (takeFrameInstant s) :=
  (steady_roundFirst s).trans (calm_takeTimeBuild _).steady

theorem steady_takeStaged (s : State) : Steady s (takeStaged s) := by
  unfold takeStaged
  split
  · exact Steady.refl s
  · split
    · exact Calm.steady ⟨rfl, rfl⟩
    · exact (steady_abandonTransition s _).trans (calm_post _ _).steady

theorem steady_comingCycle (a : Adoption) (p : StoredPlan) (s : State) : Steady s (comingCycle a p s).1 := by
  unfold comingCycle
  split
  · exact Steady.refl s
  · exact steady_judge _ _ _
  · exact steady_judge _ _ _
  · exact Steady.refl s
  · exact Steady.refl s

theorem steady_raiseOverrun (raised : Bool) (s : State) : Steady s (raiseOverrun raised s) := by
  unfold raiseOverrun
  split
  · exact steady_raise _ _ _ _
  · exact Steady.refl s

theorem steady_takeCycleEnd (s : State) : Steady s (takeCycleEnd s) := by
  unfold takeCycleEnd
  dsimp only
  have h : Steady s (takeStaged { s with coord.finalMark := false, instants.cycleEnd := false }) :=
    Steady.after (steady_takeStaged _) ⟨rfl, rfl⟩
  split
  · exact h
  · split
    · exact h
    · refine Steady.trans ?_ (steady_raiseOverrun _ _)
      refine Steady.trans ?_ (calm_beginGreen _ _ _).steady
      exact (h.trans (steady_comingCycle _ _ _)).trans (calm_handFigures _ _ _).steady

theorem steady_leaveSuspended (s : State) : Steady s (leaveSuspended s) := by
  unfold leaveSuspended
  refine (steady_abandonTransition s s).trans ?_
  dsimp only
  split
  · exact (calm_setCoord _ _ _).steady
  · exact Calm.steady ⟨by simp, by simp⟩

theorem steady_beginNominal (k : Nat) (left : Option (TrailOccasion × Nat)) (s : State) :
    Steady s (beginNominal k left s) := by
  unfold beginNominal
  split
  · exact Steady.refl s
  · dsimp only
    refine Steady.trans ?_ (calm_beginGreen _ _ _).steady
    exact ((steady_leaveSuspended s).trans (calm_handFigures _ _ _).steady).trans (calm_setSeq _ _).steady

theorem steady_endStartupRed (s : State) : Steady s (endStartupRed s) := by
  unfold endStartupRed
  refine Steady.trans ?_ (steady_beginNominal _ _ _)
  exact Steady.after (calm_chooseFirstPlan _).steady ⟨rfl, rfl⟩

theorem steady_resume (exit : Nat) (o : Option Override) (yellow : Nat) (s : State) :
    Steady s (resume exit o yellow s) :=
  (calm_chooseResume o s).steady.trans (steady_beginNominal _ _ _)

/-! ### Preemption -/

theorem steady_grantTake (s : State) : Steady s (grantTake s) := by
  unfold grantTake
  split
  · unfold grantTo
    dsimp only
    refine Steady.trans ?_ (calm_enterWith _ _).steady
    exact (steady_settleAction _ _ s _).trans (calm_setPreempt _ _ _).steady
  · exact Steady.refl s

theorem steady_requestTake (s : State) : Steady s (requestTake s) := by
  unfold requestTake
  split
  · exact steady_grantTake s
  · exact Calm.steady ⟨rfl, rfl⟩
  · exact Calm.steady ⟨rfl, rfl⟩
  · exact Steady.refl s

theorem steady_takeStartupEnd (s : State) : Steady s (takeStartupEnd s) := by
  unfold takeStartupEnd
  refine (steady_endStartupRed s).trans ?_
  dsimp only
  split
  · exact steady_grantTake _
  · exact Steady.refl _

theorem steady_handBack (s : State) : Steady s (handBack s) := by
  unfold handBack
  split
  · rename_i r i _ _
    refine Steady.trans ?_ (calm_post _ _).steady
    have h := ((steady_resume r.resumeStage r.override (s.route i).yellow s).trans
      (calm_unstageOverride r.override _).steady).trans (calm_setPreempt .idle (some i) _).steady
    exact h.trans (Calm.steady ⟨rfl, rfl⟩)
  · exact Steady.refl s

theorem steady_enterLeaving (s : State) : Steady s (enterLeaving s) := by
  unfold enterLeaving
  split
  · exact Steady.refl s
  · dsimp only
    split
    · refine Steady.trans ?_ (steady_handBack _)
      exact Calm.steady ⟨by simp, by simp [command]⟩
    · exact Calm.steady ⟨by simp, by simp [command]⟩

theorem steady_endDwell (s : State) : Steady s (endDwell s) := by
  unfold endDwell
  split
  · split
    · exact (calm_directRun _ s).steady
    · exact steady_enterLeaving s
  · exact steady_enterLeaving s

theorem steady_endAllRed (s : State) : Steady s (endAllRed s) := by
  unfold endAllRed
  split
  · exact Steady.after (calm_beginDwell _).steady ⟨rfl, rfl⟩
  · exact Steady.after (steady_handBack _) ⟨rfl, rfl⟩
  · exact Steady.refl s
  · exact Steady.refl s

theorem steady_takeClearingEnd (g : Group) (s : State) : Steady s (takeClearingEnd g s) := by
  unfold takeClearingEnd
  dsimp only
  split
  · split
    · exact Steady.after (steady_endAllRed _) ⟨rfl, rfl⟩
    · exact Calm.steady ⟨rfl, rfl⟩
  · exact Calm.steady ⟨rfl, rfl⟩

theorem steady_takeActivation (i : PreemptInput) (s : State) : Steady s (takeActivation i s) := by
  unfold takeActivation
  have h : Steady s { s with preempt := s.preempt.setInput i { s.preempt.input i with active := true, count := 0 } } :=
    Calm.steady ⟨rfl, rfl⟩
  refine h.trans ?_
  dsimp only
  split
  · exact Steady.refl _
  · split
    · exact steady_requestTake _
    · split
      · exact (calm_takeOver _).steady
      · exact Calm.steady ⟨rfl, rfl⟩
      · exact Steady.refl _
    · split
      · exact (calm_takeOver _).steady
      · exact Calm.steady ⟨rfl, rfl⟩
      · exact Steady.refl _
    · exact (calm_directRun _ _).steady

theorem steady_withdrawStuck (i : PreemptInput) (s : State) : Steady s (withdrawStuck i s) := by
  unfold withdrawStuck
  split
  · exact steady_withdraw _ _ _
  · exact Steady.refl s

theorem steady_takeRelease (i : PreemptInput) (s : State) : Steady s (takeRelease i s) := by
  have tail : ∀ u : State, Steady u
      (match u.preempt.state with
      | .idle =>
        if u.preempt.heldTake && u.preempt.claimant.isNone then
          { u with preempt.heldTake := false, seq.heldTake := false }
        else u
      | .dwell => if u.preempt.running = some i ∧ u.runningRoute.minDwell ≤ u.preempt.dwell then endDwell u else u
      | .entering | .leaving => u) := by
    intro u
    split
    · split
      · exact Calm.steady ⟨rfl, rfl⟩
      · exact Steady.refl u
    · split
      · exact steady_endDwell u
      · exact Steady.refl u
    · exact Steady.refl u
    · exact Steady.refl u
  have wait : ∀ u : State, Steady u (if u.preempt.waiting = some i then { u with preempt.waiting := none } else u) := by
    intro u
    split
    · exact Calm.steady ⟨rfl, rfl⟩
    · exact Steady.refl u
  have start : Steady s
      { s with preempt := s.preempt.setInput i { active := false, count := 0, ignored := false } } :=
    Calm.steady ⟨rfl, rfl⟩
  have stuck : ∀ (b : Bool) (u : State), Steady u (if b = true then withdrawStuck i u else u) := by
    intro b u
    split
    · exact steady_withdrawStuck i u
    · exact Steady.refl u
  unfold takeRelease
  exact ((start.trans (stuck (s.preempt.input i).ignored _)).trans (wait _)).trans (tail _)

theorem steady_takeMaximum (s : State) : Steady s (takeMaximum s) := by
  have start : ∀ i, Steady s { s with preempt := s.preempt.setInput i { s.preempt.input i with ignored := true } } :=
    fun _ => Calm.steady ⟨rfl, rfl⟩
  have stuck : ∀ (n : Nat) (u : State), Steady u
      (if u.preempt.stuckRaised then u else raise .preemptStuck (some n) { u with preempt.stuckRaised := true }) := by
    intro n u
    split
    · exact Steady.refl u
    · exact steady_raise _ _ _ _
  have tail : ∀ (i : PreemptInput) (u : State), Steady u
      (if u.preempt.state = .dwell ∧ u.preempt.running = some i then endDwell u else u) := by
    intro i u
    split
    · exact steady_endDwell u
    · exact Steady.refl u
  unfold takeMaximum
  split
  · unfold takeMaximumHold
    exact ((start _).trans (stuck _ _)).trans (tail _ _)
  · exact Steady.refl s

/-! ### The outputs -/

theorem steady_takeGreenFaulted (g : Group) (s : State) : Steady s (takeGreenFaulted g s) := by
  unfold takeGreenFaulted
  exact steady_settleAction _ _ _ _

theorem steady_takeLampFaulted (g : Group) (s : State) : Steady s (takeLampFaulted g s) := by
  unfold takeLampFaulted
  exact steady_settleAction _ _ _ _

theorem steady_takeGreenClean (g : Group) (s : State) : Steady s (takeGreenClean g s) := by
  unfold takeGreenClean
  exact steady_settleAction _ _ _ _

theorem steady_takeLampClean (g : Group) (s : State) : Steady s (takeLampClean g s) := by
  unfold takeLampClean
  exact steady_settleAction _ _ _ _

/-! ### The line's own limits -/

theorem steady_giveUp (f : Frame) (s : State) : Steady s (giveUp f s) := by
  unfold giveUp
  dsimp only
  split
  · exact steady_raise _ _ _ _
  · exact Calm.steady ⟨by simp, by simp⟩

theorem steady_attemptFailed (f : Frame) (s : State) : Steady s (attemptFailed f s) := by
  unfold attemptFailed
  dsimp only
  split
  · exact Steady.after (steady_giveUp _ _) ⟨rfl, rfl⟩
  · exact Calm.steady ⟨rfl, rfl⟩

theorem steady_reachDeferLimit (s : State) : Steady s (reachDeferLimit s) := by
  unfold reachDeferLimit
  split
  · exact Steady.after (steady_attemptFailed _ _) ⟨rfl, rfl⟩
  · exact Steady.refl s

/-! ### Events and boundaries -/

theorem steady_takeClockDue {s t : State} (h : takeClockDue s = some t) : Steady s t := by
  unfold takeClockDue at h
  split at h
  · exact Option.some.inj h ▸ steady_takeRound s
  · split at h
    · exact Option.some.inj h ▸ (calm_takeTimeBuild s).steady
    · split at h
      · exact Option.some.inj h ▸ steady_evaluateOrders none s
      · split at h
        · exact Option.some.inj h ▸ steady_evaluateOrders none s
        · split at h
          · exact Option.some.inj h ▸ (calm_takeIssuedEnd _ s).steady
          · split at h
            · exact Option.some.inj h ▸ (calm_takeRepeat _ s).steady
            · split at h
              · exact Option.some.inj h ▸ steady_takeCalendar s
              · cases h

theorem steady_takeCycleDue {s t : State} (h : takeCycleDue s = some t) : Steady s t := by
  unfold takeCycleDue at h
  split at h
  · exact Option.some.inj h ▸ steady_takeRelease _ s
  · split at h
    · exact Option.some.inj h ▸ steady_takeRelease _ s
    · split at h
      · exact Option.some.inj h ▸ steady_takeActivation _ s
      · split at h
        · exact Option.some.inj h ▸ steady_takeActivation _ s
        · split at h
          · exact Option.some.inj h ▸ steady_takeCycleEnd s
          · split at h
            · exact Option.some.inj h ▸ (calm_takeGreenEnd s).steady
            · split at h
              · exact Option.some.inj h ▸ (calm_takeYellowEnd s).steady
              · split at h
                · exact Option.some.inj h ▸ (calm_takeStageGreen s).steady
                · split at h
                  · exact Option.some.inj h ▸ (calm_takeTrailingEnd _ s).steady
                  · split at h
                    · exact Option.some.inj h ▸ steady_takeStartupEnd s
                    · cases h

theorem steady_takeOutputDue {s t : State} (h : takeOutputDue s = some t) : Steady s t := by
  unfold takeOutputDue at h
  split at h
  · exact Option.some.inj h ▸ (calm_takeToggle s).steady
  · split at h
    · exact Option.some.inj h ▸ steady_takeGreenFaulted _ s
    · exact Option.some.inj h ▸ steady_takeGreenClean _ s
    · exact Option.some.inj h ▸ steady_takeLampFaulted _ s
    · exact Option.some.inj h ▸ steady_takeLampClean _ s
    · split at h
      · exact Option.some.inj h ▸ (calm_takeGreenHoldEnd s).steady
      · split at h
        · exact Option.some.inj h ▸ steady_takeClearingEnd _ s
        · split at h
          · exact Option.some.inj h ▸ steady_endAllRed s
          · split at h
            · exact Option.some.inj h ▸ steady_takeMaximum s
            · split at h
              · exact Option.some.inj h ▸ steady_endDwell s
              · split at h
                · exact Option.some.inj h ▸ (calm_takeBackoff s).steady
                · split at h
                  · exact Option.some.inj h ▸ steady_reachDeferLimit s
                  · cases h

theorem steady_takeFirstDue {s t : State} (h : takeFirstDue s = some t) : Steady s t := by
  unfold takeFirstDue at h
  split at h
  · rename_i k
    exact Option.some.inj h ▸ steady_takeClockDue k
  · split at h
    · rename_i k
      exact Option.some.inj h ▸ steady_takeCycleDue k
    · exact steady_takeOutputDue h

theorem steady_nextInstant (s : State) : Steady s (nextInstant s) := by
  unfold nextInstant
  split
  · rename_i h
    exact steady_takeFirstDue h
  · split
    · exact (calm_passHeld s).steady
    · exact (calm_runClock _ s).steady

theorem steady_runUntil (due : State → Bool) (n : Nat) (s : State) : Steady s (runUntil due n s) := by
  induction n generalizing s with
  | zero => exact Steady.refl s
  | succ n ih =>
    unfold runUntil
    split
    · exact Steady.refl s
    · exact (steady_nextInstant s).trans (ih _)

theorem steady_whenReached (due : State → Bool) (take : State → State) (h : ∀ s, Steady s (take s)) (s : State) :
    Steady s (whenReached due take s) := by
  unfold whenReached
  dsimp only
  split
  · exact (steady_runUntil due _ s).trans (h _)
  · exact Steady.refl s

theorem steady_sampleCabinet (level : Bool) (s : State) : Steady s (sampleCabinet level s) := by
  unfold sampleCabinet
  dsimp only
  split
  · exact steady_raise _ _ _ _
  · split
    · exact steady_withdraw _ _ _
    · exact Calm.steady ⟨rfl, rfl⟩

theorem steady_takeSamples (levels : Levels) (s : State) : Steady s (takeSamples levels s) := by
  unfold takeSamples
  split
  · dsimp only
    refine Steady.trans ?_ (calm_samplePreempt _ _).steady
    exact Steady.after (steady_sampleCabinet _ _) ⟨rfl, rfl⟩
  · exact Steady.refl s

theorem steady_boundaryWork (levels : Levels) (s : State) : Steady s (boundaryWork levels s) := by
  have start : Steady s { s with pins := levels } := Calm.steady ⟨rfl, rfl⟩
  have last : ∀ u : State, Steady u { u with instants.boundary := false, instants.timing := false } :=
    fun _ => Calm.steady ⟨rfl, rfl⟩
  unfold boundaryWork
  exact ((((start.trans (steady_roundFirst _)).trans (calm_timed _).steady).trans (steady_takeSamples levels _)).trans
    (calm_slewMillisecond _).steady).trans (last _)

theorem steady_takeBoundary (levels : Levels) (s : State) : Steady s (takeBoundary levels s) :=
  (steady_runUntil _ _ s).trans (steady_boundaryWork levels _)

theorem steady_whenDue (due : State → Bool) (take : State → State) (h : ∀ s, Steady s (take s)) (s : State) :
    Steady s (whenDue due take s) := by
  unfold whenDue
  dsimp only
  split
  · exact h s
  · split
    · exact ((steady_runUntil _ _ s).trans (calm_timed _).steady).trans (h _)
    · exact Steady.refl s

theorem steady_whenSampled (due : State → Bool) (take : State → State) (h : ∀ s, Steady s (take s)) (s : State) :
    Steady s (whenSampled due take s) := by
  unfold whenSampled
  split
  · exact h s
  · exact Steady.refl s

theorem steady_tick (s : State) : Steady s (tick s) := by
  unfold tick
  split
  · rename_i k
    exact steady_takeFirstDue k
  · split
    · exact steady_boundaryWork _ s
    · split
      · exact (calm_passHeld s).steady
      · exact (calm_runClock _ s).steady

/-! ### Requests -/

theorem steady_serve (request seq : Byte) (fits : Bool) (admission : Admission) (work : State → State × Answer)
    (s : State) (h : Rooms s → Steady (discardHeld s) (work (discardHeld s)).1) (i : Rooms s) :
    Steady s (serve request seq fits admission work s) := by
  have first : Steady s (discardHeld s) := Calm.steady ⟨by simp, by simp⟩
  unfold serve
  dsimp only
  split
  · split
    · exact (first.trans (h i)).trans (calm_hold _ _ _ _).steady
    · exact first.trans (calm_hold _ _ _ _).steady
  · exact first.trans (calm_refuseMalformed _ _ _).steady

/-- With every record CLEAR the action is REPORT under any configuration (R172). -/
theorem mostSevere_clear (config : Option ConfigRecord) (f : FaultUnit) (h : ∀ c, (f.record c).state = .clear) :
    mostSevere config f = .report := by
  have one : ∀ c, contribution config f c = .report := fun c => by simp [contribution, h c]
  simp [mostSevere, allClasses, one, FaultAction.worse]

/-- START keeps the effective action right: every record is CLEAR (R173). -/
theorem steady_startWork (body : List Byte) (s : State) (i : Rooms s) (hp : s.port.part = .configuring) :
    Steady s (startWork body s).1 := by
  unfold startWork
  split
  · exact Steady.refl s
  · have clear := i.quiet hp
    unfold beginRunning
    have last : ∀ u : State, Steady u (if u.faults.effective = .flash then u else flashExit u) := by
      intro u
      split
      · exact Steady.refl u
      · exact (calm_flashExit u).steady
    refine Steady.trans (Steady.trans ?_ (steady_evaluateSchedule _)) (last _)
    refine Steady.trans (t :=
      { s with
        port.config := some (readConfig body)
        port.part := .running
        store := (s.store.pin (readConfig body).defaultPlan).pin (readConfig body).fallbackPlan
        bank := s.bank.takeColours (readConfig body).flashYellow }) ?_ (calm_startCoordinator _).steady
    intro h
    unfold State.Settled at *
    show s.faults.effective = mostSevere (some (readConfig body)) s.faults
    rw [h, mostSevere_clear _ _ clear, mostSevere_clear _ _ clear]

theorem settled_restarted (s : State) : (restarted s).Settled :=
  (mostSevere_clear none FaultUnit.reset reset_records).symm

theorem steady_setTimeWork (body : List Byte) (s : State) : Steady s (setTimeWork body s).1 := by
  have late : ∀ d : Int, Steady s
      (if d.natAbs ≤ 1000 then (admitDifference d s, done []) else (s, plain .range) : State × Answer).1 := by
    intro d
    split
    · unfold admitDifference
      exact Steady.after (steady_leaveHoldover _ _) ⟨rfl, rfl⟩
    · exact Steady.refl s
  unfold setTimeWork
  dsimp only
  split
  · exact Steady.refl s
  · split
    · exact steady_stepClock _ s
    · split
      · unfold setTimeAnchored
        split
        · have last : ∀ u : State, Steady u { u with clock.setTimeMark := true } := fun _ => Calm.steady ⟨rfl, rfl⟩
          exact ((steady_stepClock _ s).trans (steady_setClockState _ _)).trans (last _)
        · exact late _
        · exact late _
        · exact late _
      · exact Steady.refl s

theorem steady_loadPlanWork (body : List Byte) (s : State) : Steady s (loadPlanWork body s).1 := by
  unfold loadPlanWork
  dsimp only
  split
  · exact Steady.refl s
  · exact Steady.after (steady_evaluateOrders none _) ⟨rfl, rfl⟩

theorem steady_erasePlanWork (body : List Byte) (s : State) : Steady s (erasePlanWork body s).1 := by
  unfold erasePlanWork
  dsimp only
  split
  · exact Steady.refl s
  · split
    · exact Steady.refl s
    · split
      · exact Steady.refl s
      · exact Steady.after (steady_evaluateOrders none _) ⟨rfl, rfl⟩

theorem steady_addEntryWork (body : List Byte) (s : State) : Steady s (addEntryWork body s).1 := by
  unfold addEntryWork
  dsimp only
  split
  · exact Steady.refl s
  · split
    · exact Steady.refl s
    · split
      · exact Steady.refl s
      · exact Steady.after (steady_evaluateSchedule _) ⟨rfl, rfl⟩

theorem steady_dropEntryWork (body : List Byte) (s : State) : Steady s (dropEntryWork body s).1 := by
  unfold dropEntryWork
  dsimp only
  split
  · exact Steady.refl s
  · split
    · exact Steady.after (steady_evaluateSchedule _) ⟨rfl, rfl⟩
    · exact Steady.refl s

theorem steady_addSpecialWork (body : List Byte) (s : State) : Steady s (addSpecialWork body s).1 := by
  unfold addSpecialWork
  dsimp only
  split
  · exact Steady.refl s
  · split
    · exact Steady.refl s
    · split
      · exact Steady.refl s
      · split
        · exact Steady.refl s
        · exact Steady.after (steady_evaluateSchedule _) ⟨rfl, rfl⟩

theorem steady_dropSpecialWork (body : List Byte) (s : State) : Steady s (dropSpecialWork body s).1 := by
  unfold dropSpecialWork
  dsimp only
  split
  · exact Steady.refl s
  · split
    · exact Steady.after (steady_evaluateSchedule _) ⟨rfl, rfl⟩
    · exact Steady.refl s

theorem steady_issueWork (body : List Byte) (s : State) : Steady s (issueWork body s).1 := by
  unfold issueWork
  dsimp only
  split
  · exact Steady.refl s
  · refine Steady.trans ?_ (calm_post _ _).steady
    refine Steady.trans ?_ (steady_processOrder _ _)
    exact ((calm_storeIssued _ _ s).trans (calm_placeOwnOrder _ _)).steady

theorem steady_cancelWork (body : List Byte) (s : State) : Steady s (cancelWork body s).1 := by
  unfold cancelWork
  dsimp only
  split
  · exact Steady.refl s
  · split
    · exact Steady.refl s
    · split
      · exact (calm_placeOwnCancel _ s).steady.trans (steady_arriveCancel _ _)
      · exact Steady.refl s

theorem steady_rewriteSaveWork (body : List Byte) (s : State) : Steady s (rewriteSaveWork body s).1 := by
  unfold rewriteSaveWork
  dsimp only
  split
  · exact Steady.refl s
  · split
    · exact Steady.refl s
    · exact Steady.refl s
    · split
      · exact Steady.refl s
      · split
        · exact Steady.refl s
        · exact (calm_writeOverride _ _ s).steady

theorem steady_ackFaultWork (body : List Byte) (s : State) : Steady s (ackFaultWork body s).1 := by
  unfold ackFaultWork
  split
  · exact Steady.refl s
  · split
    · exact steady_settleAction _ _ _ _
    · exact Steady.refl s
    · exact Steady.refl s

/-! ### The line -/

theorem steady_receiveOrder (body : List Byte) (s : State) : Steady s (receiveOrder body s) := by
  unfold receiveOrder
  refine (calm_countReceived s).steady.trans ?_
  dsimp only
  split
  · exact (calm_countDuplicate _).steady
  · refine Steady.trans ?_ (calm_relayOrder _ _).steady
    exact Steady.after (steady_arriveOrder _ _) ⟨rfl, rfl⟩

theorem steady_receiveCancel (body : List Byte) (s : State) : Steady s (receiveCancel body s) := by
  unfold receiveCancel
  refine (calm_countReceived s).steady.trans ?_
  dsimp only
  split
  · exact (calm_countDuplicate _).steady
  · refine Steady.trans ?_ (calm_relayCancel _ _).steady
    exact Steady.after (steady_arriveCancel _ _) ⟨rfl, rfl⟩

theorem steady_completeFrame (s : State) : Steady s (completeFrame s) := by
  unfold completeFrame
  dsimp only
  split
  · exact steady_withdraw _ _ _
  · exact Calm.steady ⟨by simp, by simp⟩

theorem steady_collide (s : State) : Steady s (collide s) := by
  unfold collide
  split
  · exact Steady.after (steady_attemptFailed _ _) ⟨rfl, rfl⟩
  · exact Steady.refl s

end Sys2Proof.Machine
end

