-- ==== Sys2Proof/Laws/Junction.lean ====
section
/-! SUPPORT. The junction: what commands leave in the Output Bank, what a beginning green leaves, and what the small
operations of the cycle and the preemption leave in each field. -/

namespace Sys2Proof.Machine

set_option Elab.async false

/-! ### A settled state -/

/-- In a settled state there is nothing to deliver. -/
theorem settleAction_settled (n : Nat) (cause : FaultClass) (s : State) (h : s.Settled) : settleAction n cause s = s := by
  cases n <;> simp [settleAction, h.symm]

/-- With TRANSITION_OVERRUN not raised an abandoned transition leaves its record empty and nothing else. -/
theorem abandonTransition_quiet (s : State) (h : s.Settled) (o : s.coord.overrunRaised = false) :
    abandonTransition s = { s with coord.transition := none } := by
  unfold abandonTransition emptyTransition
  simp only [o]
  exact settleAction_settled _ _ _ h

/-! ### Reports -/

@[simp] theorem post_running (r : ReportBody) (s : State) : (post r s).running = s.running := by
  unfold State.running; simp

@[simp] theorem post_cfg (r : ReportBody) (s : State) : (post r s).cfg = s.cfg := by
  unfold State.cfg; simp

@[simp] theorem post_slot (r : ReportBody) (s : State) : (post r s).slot = s.slot := by
  unfold State.slot; funext n; simp

@[simp] theorem post_storedPlan (r : ReportBody) (s : State) : (post r s).storedPlan = s.storedPlan := by
  unfold State.storedPlan; funext n; simp

@[simp] theorem post_slotEmpty (r : ReportBody) (s : State) : (post r s).slotEmpty = s.slotEmpty := by
  unfold State.slotEmpty; funext n; simp

@[simp] theorem post_stageOf (r : ReportBody) (s : State) : (post r s).stageOf = s.stageOf := by
  unfold State.stageOf; funext n k; simp

@[simp] theorem post_route (r : ReportBody) (s : State) : (post r s).route = s.route := by
  funext i; cases i <;> simp [State.route]

@[simp] theorem post_isolating (r : ReportBody) (s : State) : (post r s).isolating = s.isolating := by
  unfold State.isolating; simp

/-! ### States of the blocks -/

@[simp] theorem setCoord_clock (state : CoordState) (cause : Option SuspensionCause) (s : State) :
    (setCoord state cause s).clock = s.clock := by
  unfold setCoord; split <;> simp

@[simp] theorem setCoord_store (state : CoordState) (cause : Option SuspensionCause) (s : State) :
    (setCoord state cause s).store = s.store := by
  unfold setCoord; split <;> simp

@[simp] theorem setCoord_timetable (state : CoordState) (cause : Option SuspensionCause) (s : State) :
    (setCoord state cause s).timetable = s.timetable := by
  unfold setCoord; split <;> simp

@[simp] theorem setCoord_orders (state : CoordState) (cause : Option SuspensionCause) (s : State) :
    (setCoord state cause s).orders = s.orders := by
  unfold setCoord; split <;> simp

@[simp] theorem setCoord_coord (state : CoordState) (cause : Option SuspensionCause) (s : State) :
    (setCoord state cause s).coord = { s.coord with state := state, cause := cause } := by
  unfold setCoord
  split
  · rename_i h; rw [← h.1, ← h.2]
  · simp

@[simp] theorem setCoord_seq (state : CoordState) (cause : Option SuspensionCause) (s : State) :
    (setCoord state cause s).seq = s.seq := by
  unfold setCoord; split <;> simp

@[simp] theorem setCoord_bank (state : CoordState) (cause : Option SuspensionCause) (s : State) :
    (setCoord state cause s).bank = s.bank := by
  unfold setCoord; split <;> simp

@[simp] theorem setCoord_preempt (state : CoordState) (cause : Option SuspensionCause) (s : State) :
    (setCoord state cause s).preempt = s.preempt := by
  unfold setCoord; split <;> simp

@[simp] theorem setCoord_line (state : CoordState) (cause : Option SuspensionCause) (s : State) :
    (setCoord state cause s).line = s.line := by
  unfold setCoord; split <;> simp

@[simp] theorem setCoord_pins (state : CoordState) (cause : Option SuspensionCause) (s : State) :
    (setCoord state cause s).pins = s.pins := by
  unfold setCoord; split <;> simp

@[simp] theorem setCoord_instants (state : CoordState) (cause : Option SuspensionCause) (s : State) :
    (setCoord state cause s).instants = s.instants := by
  unfold setCoord; split <;> simp

@[simp] theorem setCoord_draws (state : CoordState) (cause : Option SuspensionCause) (s : State) :
    (setCoord state cause s).draws = s.draws := by
  unfold setCoord; split <;> simp

@[simp] theorem setCoord_pending (state : CoordState) (cause : Option SuspensionCause) (s : State) :
    (setCoord state cause s).pending = s.pending := by
  unfold setCoord; split <;> simp

@[simp] theorem setCoord_part (state : CoordState) (cause : Option SuspensionCause) (s : State) :
    (setCoord state cause s).port.part = s.port.part := by
  unfold setCoord; split <;> simp

@[simp] theorem setCoord_held (state : CoordState) (cause : Option SuspensionCause) (s : State) :
    (setCoord state cause s).port.held = s.port.held := by
  unfold setCoord; split <;> simp

@[simp] theorem setCoord_running (state : CoordState) (cause : Option SuspensionCause) (s : State) :
    (setCoord state cause s).running = s.running := by
  unfold State.running; simp

@[simp] theorem setCoord_cfg (state : CoordState) (cause : Option SuspensionCause) (s : State) :
    (setCoord state cause s).cfg = s.cfg := by
  unfold State.cfg; simp

@[simp] theorem setCoord_slot (state : CoordState) (cause : Option SuspensionCause) (s : State) :
    (setCoord state cause s).slot = s.slot := by
  unfold State.slot; funext n; simp

@[simp] theorem setCoord_storedPlan (state : CoordState) (cause : Option SuspensionCause) (s : State) :
    (setCoord state cause s).storedPlan = s.storedPlan := by
  unfold State.storedPlan; funext n; simp

@[simp] theorem setCoord_slotEmpty (state : CoordState) (cause : Option SuspensionCause) (s : State) :
    (setCoord state cause s).slotEmpty = s.slotEmpty := by
  unfold State.slotEmpty; funext n; simp

@[simp] theorem setCoord_stageOf (state : CoordState) (cause : Option SuspensionCause) (s : State) :
    (setCoord state cause s).stageOf = s.stageOf := by
  unfold State.stageOf; funext n k; simp

@[simp] theorem setCoord_route (state : CoordState) (cause : Option SuspensionCause) (s : State) :
    (setCoord state cause s).route = s.route := by
  funext i; cases i <;> simp [State.route]

@[simp] theorem setCoord_isolating (state : CoordState) (cause : Option SuspensionCause) (s : State) :
    (setCoord state cause s).isolating = s.isolating := by
  unfold State.isolating; simp

@[simp] theorem setSeq_clock (state : SeqState) (s : State) :
    (setSeq state s).clock = s.clock := by
  unfold setSeq; split <;> simp

@[simp] theorem setSeq_store (state : SeqState) (s : State) :
    (setSeq state s).store = s.store := by
  unfold setSeq; split <;> simp

@[simp] theorem setSeq_timetable (state : SeqState) (s : State) :
    (setSeq state s).timetable = s.timetable := by
  unfold setSeq; split <;> simp

@[simp] theorem setSeq_orders (state : SeqState) (s : State) :
    (setSeq state s).orders = s.orders := by
  unfold setSeq; split <;> simp

@[simp] theorem setSeq_coord (state : SeqState) (s : State) :
    (setSeq state s).coord = s.coord := by
  unfold setSeq; split <;> simp

@[simp] theorem setSeq_seq (state : SeqState) (s : State) :
    (setSeq state s).seq = { s.seq with state := state } := by
  unfold setSeq
  split
  · rename_i h; rw [← h]
  · simp

@[simp] theorem setSeq_bank (state : SeqState) (s : State) :
    (setSeq state s).bank = s.bank := by
  unfold setSeq; split <;> simp

@[simp] theorem setSeq_preempt (state : SeqState) (s : State) :
    (setSeq state s).preempt = s.preempt := by
  unfold setSeq; split <;> simp

@[simp] theorem setSeq_line (state : SeqState) (s : State) :
    (setSeq state s).line = s.line := by
  unfold setSeq; split <;> simp

@[simp] theorem setSeq_pins (state : SeqState) (s : State) :
    (setSeq state s).pins = s.pins := by
  unfold setSeq; split <;> simp

@[simp] theorem setSeq_instants (state : SeqState) (s : State) :
    (setSeq state s).instants = s.instants := by
  unfold setSeq; split <;> simp

@[simp] theorem setSeq_draws (state : SeqState) (s : State) :
    (setSeq state s).draws = s.draws := by
  unfold setSeq; split <;> simp

@[simp] theorem setSeq_pending (state : SeqState) (s : State) :
    (setSeq state s).pending = s.pending := by
  unfold setSeq; split <;> simp

@[simp] theorem setSeq_part (state : SeqState) (s : State) :
    (setSeq state s).port.part = s.port.part := by
  unfold setSeq; split <;> simp

@[simp] theorem setSeq_held (state : SeqState) (s : State) :
    (setSeq state s).port.held = s.port.held := by
  unfold setSeq; split <;> simp

@[simp] theorem setSeq_running (state : SeqState) (s : State) :
    (setSeq state s).running = s.running := by
  unfold State.running; simp

@[simp] theorem setSeq_cfg (state : SeqState) (s : State) :
    (setSeq state s).cfg = s.cfg := by
  unfold State.cfg; simp

@[simp] theorem setSeq_slot (state : SeqState) (s : State) :
    (setSeq state s).slot = s.slot := by
  unfold State.slot; funext n; simp

@[simp] theorem setSeq_storedPlan (state : SeqState) (s : State) :
    (setSeq state s).storedPlan = s.storedPlan := by
  unfold State.storedPlan; funext n; simp

@[simp] theorem setSeq_slotEmpty (state : SeqState) (s : State) :
    (setSeq state s).slotEmpty = s.slotEmpty := by
  unfold State.slotEmpty; funext n; simp

@[simp] theorem setSeq_stageOf (state : SeqState) (s : State) :
    (setSeq state s).stageOf = s.stageOf := by
  unfold State.stageOf; funext n k; simp

@[simp] theorem setSeq_route (state : SeqState) (s : State) :
    (setSeq state s).route = s.route := by
  funext i; cases i <;> simp [State.route]

@[simp] theorem setSeq_isolating (state : SeqState) (s : State) :
    (setSeq state s).isolating = s.isolating := by
  unfold State.isolating; simp

@[simp] theorem setPreempt_clock (state : PreemptState) (input : Option PreemptInput) (s : State) :
    (setPreempt state input s).clock = s.clock := by
  unfold setPreempt; simp

@[simp] theorem setPreempt_store (state : PreemptState) (input : Option PreemptInput) (s : State) :
    (setPreempt state input s).store = s.store := by
  unfold setPreempt; simp

@[simp] theorem setPreempt_timetable (state : PreemptState) (input : Option PreemptInput) (s : State) :
    (setPreempt state input s).timetable = s.timetable := by
  unfold setPreempt; simp

@[simp] theorem setPreempt_orders (state : PreemptState) (input : Option PreemptInput) (s : State) :
    (setPreempt state input s).orders = s.orders := by
  unfold setPreempt; simp

@[simp] theorem setPreempt_coord (state : PreemptState) (input : Option PreemptInput) (s : State) :
    (setPreempt state input s).coord = s.coord := by
  unfold setPreempt; simp

@[simp] theorem setPreempt_seq (state : PreemptState) (input : Option PreemptInput) (s : State) :
    (setPreempt state input s).seq = s.seq := by
  unfold setPreempt; simp

@[simp] theorem setPreempt_bank (state : PreemptState) (input : Option PreemptInput) (s : State) :
    (setPreempt state input s).bank = s.bank := by
  unfold setPreempt; simp

@[simp] theorem setPreempt_preempt (state : PreemptState) (input : Option PreemptInput) (s : State) :
    (setPreempt state input s).preempt = { s.preempt with state := state } := by
  simp [setPreempt]

@[simp] theorem setPreempt_line (state : PreemptState) (input : Option PreemptInput) (s : State) :
    (setPreempt state input s).line = s.line := by
  unfold setPreempt; simp

@[simp] theorem setPreempt_pins (state : PreemptState) (input : Option PreemptInput) (s : State) :
    (setPreempt state input s).pins = s.pins := by
  unfold setPreempt; simp

@[simp] theorem setPreempt_instants (state : PreemptState) (input : Option PreemptInput) (s : State) :
    (setPreempt state input s).instants = s.instants := by
  unfold setPreempt; simp

@[simp] theorem setPreempt_draws (state : PreemptState) (input : Option PreemptInput) (s : State) :
    (setPreempt state input s).draws = s.draws := by
  unfold setPreempt; simp

@[simp] theorem setPreempt_pending (state : PreemptState) (input : Option PreemptInput) (s : State) :
    (setPreempt state input s).pending = s.pending := by
  unfold setPreempt; simp

@[simp] theorem setPreempt_part (state : PreemptState) (input : Option PreemptInput) (s : State) :
    (setPreempt state input s).port.part = s.port.part := by
  unfold setPreempt; simp

@[simp] theorem setPreempt_held (state : PreemptState) (input : Option PreemptInput) (s : State) :
    (setPreempt state input s).port.held = s.port.held := by
  unfold setPreempt; simp

@[simp] theorem setPreempt_running (state : PreemptState) (input : Option PreemptInput) (s : State) :
    (setPreempt state input s).running = s.running := by
  unfold State.running; simp

@[simp] theorem setPreempt_cfg (state : PreemptState) (input : Option PreemptInput) (s : State) :
    (setPreempt state input s).cfg = s.cfg := by
  unfold State.cfg; simp

@[simp] theorem setPreempt_slot (state : PreemptState) (input : Option PreemptInput) (s : State) :
    (setPreempt state input s).slot = s.slot := by
  unfold State.slot; funext n; simp

@[simp] theorem setPreempt_storedPlan (state : PreemptState) (input : Option PreemptInput) (s : State) :
    (setPreempt state input s).storedPlan = s.storedPlan := by
  unfold State.storedPlan; funext n; simp

@[simp] theorem setPreempt_slotEmpty (state : PreemptState) (input : Option PreemptInput) (s : State) :
    (setPreempt state input s).slotEmpty = s.slotEmpty := by
  unfold State.slotEmpty; funext n; simp

@[simp] theorem setPreempt_stageOf (state : PreemptState) (input : Option PreemptInput) (s : State) :
    (setPreempt state input s).stageOf = s.stageOf := by
  unfold State.stageOf; funext n k; simp

@[simp] theorem setPreempt_route (state : PreemptState) (input : Option PreemptInput) (s : State) :
    (setPreempt state input s).route = s.route := by
  funext i; cases i <;> simp [State.route]

@[simp] theorem setPreempt_isolating (state : PreemptState) (input : Option PreemptInput) (s : State) :
    (setPreempt state input s).isolating = s.isolating := by
  unfold State.isolating; simp

/-! ### Sets of groups -/

theorem getLsbD_setOf_from (p : Group → Bool) (l : List Group) (acc : GroupSet) (g : Group) :
    (l.foldl (fun acc g => if p g then acc ||| (1#16 <<< g.val) else acc) acc).getLsbD g.val =
      (acc.getLsbD g.val || (decide (g ∈ l) && p g)) := by
  induction l generalizing acc with
  | nil => simp
  | cons h l ih =>
    rw [List.foldl_cons, ih]
    have bit : (1#16 <<< h.val).getLsbD g.val = decide (g = h) := by
      rw [BitVec.getLsbD_shiftLeft]
      have := g.isLt
      have := h.isLt
      by_cases k : g = h
      · subst k; simp
      · have : g.val ≠ h.val := fun e => k (Fin.ext e)
        by_cases q : g.val < h.val
        · simp [q, k]
        · have : g.val - h.val ≠ 0 := by omega
          simp [q, k, this, BitVec.getLsbD_one]
    by_cases k : g = h
    · subst k
      by_cases ph : p g
      · rw [if_pos ph, BitVec.getLsbD_or, bit]; simp [ph]
      · rw [if_neg ph]; simp [ph]
    · by_cases ph : p h
      · rw [if_pos ph, BitVec.getLsbD_or, bit]; simp [k]
      · rw [if_neg ph]; simp [k]

/-- A group belongs to the set of the groups that satisfy a test exactly when it satisfies it. -/
@[simp] theorem inSet_setOf (p : Group → Bool) (g : Group) : inSet g (setOf p) = p g := by
  unfold inSet setOf
  rw [getLsbD_setOf_from]
  simp

@[simp] theorem inSet_and (a b : GroupSet) (g : Group) : inSet g (a &&& b) = (inSet g a && inSet g b) := by
  simp [inSet]

@[simp] theorem inSet_or (a b : GroupSet) (g : Group) : inSet g (a ||| b) = (inSet g a || inSet g b) := by
  simp [inSet]

@[simp] theorem inSet_not (a : GroupSet) (g : Group) : inSet g (~~~a) = !inSet g a := by
  have := g.isLt
  simp [inSet]

@[simp] theorem inSet_single (g h : Group) : inSet g (1#16 <<< h.val) = decide (g = h) := by
  have := getLsbD_setOf_from (fun _ => true) [h] 0#16 g
  simpa [inSet] using this

theorem inSet_ext {a b : GroupSet} (h : ∀ g, inSet g a = inSet g b) : a = b := by
  apply BitVec.eq_of_getLsbD_eq
  intro i hi
  exact h ⟨i, hi⟩

@[simp] theorem inSet_zero (g : Group) : inSet g 0#16 = false := by simp [inSet]

@[simp] theorem inSet_driving (bank : OutputBank) (aspect : Aspect) (g : Group) :
    inSet g (bank.driving aspect) = decide (bank.drive[g] = aspect) := by
  simp [OutputBank.driving]

@[simp] theorem inSet_trailingSet (l : List Trailing) (g : Group) :
    inSet g (trailingSet l) = l.any fun t => decide (t.group = g) := by
  simp [trailingSet]

/-! ### Commands -/

theorem bankCommand_flash (bank : OutputBank) (set : GroupSet) (aspect : Aspect) :
    (bank.command set aspect).flash = bank.flash := by
  unfold OutputBank.command
  split <;> rfl

theorem bankCommand_drive (bank : OutputBank) (set : GroupSet) (aspect : Aspect) (h : bank.flash = false) (g : Group) :
    (bank.command set aspect).drive[g] = if inSet g set then aspect else bank.drive[g] := by
  unfold OutputBank.command
  simp [h, OutputBank.redrive]

theorem bankCommand_settle (bank : OutputBank) (set : GroupSet) (aspect : Aspect) (h : bank.flash = false) (g : Group) :
    (bank.command set aspect).settle[g] =
      if (if inSet g set then aspect else bank.drive[g]) = bank.drive[g] then bank.settle[g] else 3 := by
  unfold OutputBank.command
  simp [h, OutputBank.redrive]

/-- One command. -/
theorem redriven_command (bank : OutputBank) (set : GroupSet) (aspect : Aspect) :
    Redriven bank (bank.command set aspect) fun g => if inSet g set then aspect else bank.drive[g] := by
  refine ⟨?_, fun h => ?_, fun h g => ⟨bankCommand_drive _ _ _ h g, bankCommand_settle _ _ _ h g⟩⟩
  · unfold OutputBank.command; split <;> rfl
  · unfold OutputBank.command; simp [h]

theorem Redriven.refl (bank : OutputBank) : Redriven bank bank fun g => bank.drive[g] :=
  ⟨rfl, fun _ => rfl, fun _ g => ⟨rfl, by simp⟩⟩

/-- Commands one after another, where none of them brings back an aspect that an earlier one took away. -/
theorem Redriven.trans {a b c : OutputBank} {f k : Group → Aspect} (h : Redriven a b f) (q : Redriven b c k)
    (back : a.flash = false → ∀ g, k g = a.drive[g] → f g = a.drive[g]) : Redriven a c k := by
  have flash : b.flash = a.flash := by rw [h.1]
  refine ⟨?_, fun e => ?_, fun e g => ?_⟩
  · rw [q.1, h.1]
  · rw [q.2.1 (flash.trans e), h.2.1 e]
  · have hb := h.2.2 e g
    have hc := q.2.2 (flash.trans e) g
    refine ⟨hc.1, ?_⟩
    rw [hc.2, hb.1, hb.2]
    by_cases h1 : k g = a.drive[g]
    · have := back e g h1
      simp [h1, this]
    · simp only [h1, if_false]
      by_cases h2 : f g = a.drive[g]
      · rw [h2, if_neg h1]
      · simp only [h2, if_false]
        split <;> rfl

theorem Redriven.congr {a b : OutputBank} {f k : Group → Aspect} (h : Redriven a b f)
    (e : a.flash = false → ∀ g, f g = k g) : Redriven a b k :=
  ⟨h.1, h.2.1, fun hf g => e hf g ▸ h.2.2 hf g⟩

/-! ### A green begins -/

theorem trail_fields (occasion : TrailOccasion) (yellow : Nat) (groups : GroupSet) (s : State) :
    trail occasion yellow groups s =
      { s with
        port := (trail occasion yellow groups s).port
        bank := s.bank.command groups .yellow
        seq.trailing :=
          s.seq.trailing
            ++ (groupList.filter fun g => inSet g groups).map fun g => { group := g, yellow := yellow } } := by
  unfold trail
  split
  · rename_i h
    subst h
    have bank : s.bank.command 0 .yellow = s.bank := by
      unfold OutputBank.command
      split
      · rfl
      · have e : (Vector.ofFn fun g : Group => if inSet g 0 then Aspect.yellow else s.bank.drive[g]) = s.bank.drive := by
          ext i hi; simp
        have e' : (Vector.ofFn fun g : Group => if inSet g 0 then Aspect.yellow else s.bank.commanded[g]) = s.bank.commanded := by
          ext i hi; simp
        have e2 : (s.bank.redrive s.bank.drive) = s.bank := by
          unfold OutputBank.redrive
          have : (Vector.ofFn fun g : Group => if s.bank.drive[g] = s.bank.drive[g] then s.bank.settle[g] else 3) = s.bank.settle := by
            ext i hi; simp
          rw [this]
        rw [e, e', e2]
    have list : (groupList.filter fun g => inSet g 0) = [] := by simp
    rw [bank, list]
    simp
  · simp only [command]
    rw [post_eq]

/-- What a beginning green leaves (R115, R120). -/
theorem beginGreen_begun (s : State) (f : Figures) (k : Nat) (st : StageRecord) (left : Option (TrailOccasion × Nat))
    (hf : s.seq.figures = some f) (hk : s.stageOf f.plan k = some st) :
    GreenBegun s (beginGreen k left s) f k st (left.map Prod.snd)
      ∧ beginGreen k left s =
        { s with
          seq := (beginGreen k left s).seq, bank := (beginGreen k left s).bank, port := (beginGreen k left s).port }
      ∧ (left = none → (beginGreen k left s).port = s.port)
      ∧ (beginGreen k left s).port.part = s.port.part ∧ (beginGreen k left s).port.config = s.port.config
      ∧ (beginGreen k left s).seq.served = s.seq.served.set (k - 1) .served
      ∧ (beginGreen k left s).seq.figures = some f ∧ (beginGreen k left s).seq.state = s.seq.state
      ∧ (beginGreen k left s).seq.heldTake = s.seq.heldTake
      ∧ (beginGreen k left s).seq.startupCount = s.seq.startupCount := by
  have latch : (if st.onCall then clearNumber s.seq.latches st.demandInput else s.seq.latches) =
      if st.demandClass = 1 then clearNumber s.seq.latches st.demandInput else s.seq.latches := by
    simp [StageRecord.onCall]
  cases left with
  | none =>
    have e : beginGreen k none s =
        { s with
          seq := s.seq.begin f k st
          bank :=
            (s.bank.command st.green .green).command
              (~~~(st.green ||| trailingSet (s.seq.begin f k st).trailing)) .red } := by
      unfold beginGreen
      simp only [hf, hk, command]
    rw [e]
    refine ⟨⟨rfl, latch, by simp [Sequencer.begin], ?_⟩, rfl, fun _ => rfl, rfl, rfl, rfl, by simp [Sequencer.begin, hf],
      rfl, rfl, rfl⟩
    have one := redriven_command s.bank st.green .green
    have two := redriven_command (s.bank.command st.green .green)
      (~~~(st.green ||| trailingSet (s.seq.begin f k st).trailing)) .red
    refine (one.trans two ?_).congr ?_
    · intro fl g
      rw [bankCommand_drive _ _ _ fl]
      by_cases a : inSet g st.green <;> simp [a]
    · intro fl g
      rw [bankCommand_drive _ _ _ fl]
      by_cases a : inSet g st.green
      · simp [a]
      · by_cases b : ∃ x ∈ s.seq.trailing, x.group = g
        · obtain ⟨x, hx, rfl⟩ := b
          have : ∃ y ∈ s.seq.trailing, y.group = x.group := ⟨x, hx, rfl⟩
          have t : (s.seq.begin f k st).trailing.any (fun t => decide (t.group = x.group)) = true := by
            simp only [List.any_eq_true, decide_eq_true_eq, Sequencer.begin, List.mem_filter]
            exact ⟨x, ⟨hx, by simpa using a⟩, rfl⟩
          simp [a, this, t]
        · have t : (s.seq.begin f k st).trailing.any (fun t => decide (t.group = g)) = false := by
            simp only [List.any_eq_false, decide_eq_true_eq, Sequencer.begin, List.mem_filter]
            rintro x ⟨hx, -⟩ rfl
            exact b ⟨x, hx, rfl⟩
          simp only [inSet_not, inSet_or, inSet_trailingSet, t, a, b]
          simp
  | some o =>
    obtain ⟨occasion, yellow⟩ := o
    have tf := trail_fields occasion yellow (s.leftGreen st.green) { s with seq := s.seq.begin f k st }
    generalize hp : (trail occasion yellow (s.leftGreen st.green) { s with seq := s.seq.begin f k st }).port = p at tf
    have pp : p.part = s.port.part ∧ p.config = s.port.config := by
      subst hp
      unfold trail
      split
      · exact ⟨rfl, rfl⟩
      · simp [command]
    have e : beginGreen k (some (occasion, yellow)) s =
        { s with
          port := p
          seq :=
            { s.seq.begin f k st with
              trailing :=
                (s.seq.begin f k st).trailing
                  ++ (groupList.filter fun g => inSet g (s.leftGreen st.green)).map fun g =>
                    { group := g, yellow := yellow } }
          bank :=
            ((s.bank.command (s.leftGreen st.green) .yellow).command st.green .green).command
              (~~~(st.green
                ||| trailingSet
                  ((s.seq.begin f k st).trailing
                    ++ (groupList.filter fun g => inSet g (s.leftGreen st.green)).map fun g =>
                      { group := g, yellow := yellow }))) .red } := by
      unfold beginGreen
      simp only [hf, hk]
      have : (({ s with seq := s.seq.begin f k st } : State).leftGreen st.green) = s.leftGreen st.green := rfl
      rw [this, tf]
      rfl
    rw [e]
    have lg : ∀ g, inSet g (s.leftGreen st.green) = (decide (s.bank.drive[g] = .green) && !inSet g st.green) := by
      intro g; simp [State.leftGreen]
    refine ⟨⟨rfl, latch, ?_, ?_⟩, rfl, fun h => (by cases h), pp.1, pp.2, rfl, by simp [Sequencer.begin, hf], rfl, rfl, rfl⟩
    · simp only [lg, Option.map_some]; rfl
    have one := redriven_command s.bank (s.leftGreen st.green) .yellow
    have two := redriven_command (s.bank.command (s.leftGreen st.green) .yellow) st.green .green
    have three := redriven_command ((s.bank.command (s.leftGreen st.green) .yellow).command st.green .green)
      (~~~(st.green
        ||| trailingSet
          ((s.seq.begin f k st).trailing
            ++ (groupList.filter fun g => inSet g (s.leftGreen st.green)).map fun g =>
              { group := g, yellow := yellow }))) .red
    have fl1 : s.bank.flash = false → (s.bank.command (s.leftGreen st.green) .yellow).flash = false := fun h => by
      rw [bankCommand_flash]; exact h
    have inTrail : ∀ g, ((s.seq.begin f k st).trailing
            ++ (groupList.filter fun g => inSet g (s.leftGreen st.green)).map fun g =>
              ({ group := g, yellow := yellow } : Trailing)).any (fun t => decide (t.group = g)) =
          (!inSet g st.green
            && (decide (∃ x ∈ s.seq.trailing, x.group = g) || decide (s.bank.drive[g] = .green))) := by
      intro g
      rw [Bool.eq_iff_iff]
      simp only [List.any_eq_true, List.mem_append, Sequencer.begin, List.mem_filter, List.mem_map, decide_eq_true_eq,
        Bool.and_eq_true, Bool.or_eq_true, Bool.not_eq_true', lg]
      constructor
      · rintro ⟨x, ⟨hx, hn⟩ | ⟨g', ⟨-, hd, hn⟩, rfl⟩, rfl⟩
        · exact ⟨hn, .inl ⟨x, hx, rfl⟩⟩
        · exact ⟨hn, .inr hd⟩
      · rintro ⟨hn, ⟨x, hx, rfl⟩ | hd⟩
        · exact ⟨x, .inl ⟨hx, hn⟩, rfl⟩
        · exact ⟨_, .inr ⟨g, ⟨by simp [groupList], hd, hn⟩, rfl⟩, rfl⟩
    refine ((one.trans two ?_).trans three ?_).congr ?_
    · intro fl g
      rw [bankCommand_drive _ _ _ fl, lg]
      by_cases a : inSet g st.green <;> by_cases b : s.bank.drive[g.val] = .green <;> simp [a, b]
    · intro fl g
      rw [bankCommand_drive _ _ _ (fl1 fl), bankCommand_drive _ _ _ fl, lg]
      simp only [inSet_not, inSet_or, inSet_trailingSet, inTrail]
      by_cases a : inSet g st.green <;> by_cases b : s.bank.drive[g.val] = .green <;>
        by_cases c : ∃ x ∈ s.seq.trailing, x.group = g <;> simp [a, b, c]
    · intro fl g
      rw [bankCommand_drive _ _ _ (fl1 fl), bankCommand_drive _ _ _ fl, lg]
      simp only [inSet_not, inSet_or, inSet_trailingSet, inTrail]
      by_cases a : inSet g st.green <;> by_cases b : s.bank.drive[g.val] = .green <;>
        by_cases c : ∃ x ∈ s.seq.trailing, x.group = g <;> simp [a, b, c]

/-! ### Plans put into service -/

/-- A slot that holds a plan is not EMPTY. -/
theorem slot_nonempty {s : State} (i : s.store.Sound) {n : Nat} {p : StoredPlan} (h : s.storedPlan n = some p) :
    (s.slot n).state ≠ .empty := by
  intro e
  by_cases k : 1 ≤ n ∧ n ≤ 32
  · have q := i.emptyHoldsNone ⟨n - 1, by omega⟩
    rw [get_eq_slot] at q
    have e2 : (⟨n - 1, by omega⟩ : Fin 32).val + 1 = n := by simp; omega
    rw [e2] at q
    have := q.mp e
    simp [State.storedPlan, State.slot, this] at h
  · simp [State.storedPlan, State.slot, slot_outside _ _ k, Slot.empty] at h

/-- An activate request for a slot that holds a plan is granted. -/
theorem activate_granted {s : State} (i : s.store.Sound) {n : Nat} {p : StoredPlan} (h : s.storedPlan n = some p) :
    ∃ u, s.store.activate n = some u ∧ (∀ m, (u.slot m).plan = (s.store.slot m).plan) ∧ (u.slot n).state = .active := by
  have ne := slot_nonempty i h
  have : ∃ u, s.store.activate n = some u := by
    unfold PlanStore.activate
    unfold State.slot at ne
    cases hs : (s.store.slot n).state <;> simp_all
  obtain ⟨u, hu⟩ := this
  refine ⟨u, hu, fun m => activate_plan hu m, ?_⟩
  have := slot_activate hu n
  simp only [if_true] at this
  rw [this]
  split <;> simp_all

/-! ### A nominal cycle begins -/

theorem bound_eq (splits : List Nat) (k : Nat) (hk : k < splits.length) (b : Nat) :
    (boundsFrom b splits)[k]? = some (b + (splits.take k).sum) := by
  induction splits generalizing k b with
  | nil => simp at hk
  | cons x rest ih =>
    cases k with
    | zero => simp [boundsFrom]
    | succ k =>
      simp only [boundsFrom, List.getElem?_cons_succ, List.take_succ_cons, List.sum_cons]
      rw [ih k (by simpa using hk)]
      simp; omega

theorem nominal_bound (p : PlanRecord) (e : Nat) (st : StageRecord) (h : p.stage e = some st) :
    (nominalFigures p).bound e = (p.splits.take (e - 1)).sum := by
  unfold PlanRecord.stage at h
  split at h
  · cases h
  · have hk : e - 1 < p.splits.length := by
      have := (List.getElem?_eq_some_iff.mp h).1
      simpa [PlanRecord.splits] using this
    unfold Figures.bound nominalFigures figuresOf
    simp [bound_eq p.splits (e - 1) hk 0]

/-- A coordination state set changes that block and the reports alone. -/
theorem setCoord_eq (state : CoordState) (cause : Option SuspensionCause) (s : State) :
    setCoord state cause s =
      { s with coord := { s.coord with state := state, cause := cause }, port := (setCoord state cause s).port } := by
  unfold setCoord
  split
  · rename_i h; rw [← h.1, ← h.2]
  · rw [post_eq]

theorem leaveSuspended_eq (u : State) (hs : u.Settled) (ho : u.coord.overrunRaised = false) :
    leaveSuspended u =
      if u.isolating then setCoord .isolated none { u with coord.transition := none }
      else
        { setCoord .correcting none { u with coord.transition := none } with coord.transition := some pendingTransition } := by
  unfold leaveSuspended
  rw [abandonTransition_quiet u hs ho]
  rfl

/-- Leaving SUSPENDED with TRANSITION_OVERRUN not raised (R101, R102). -/
theorem leaveSuspended_coord (u : State) (hs : u.Settled) (ho : u.coord.overrunRaised = false) :
    (leaveSuspended u).coord =
        { u.coord with
          state := if u.isolating then .isolated else .correcting, cause := none
          transition := if u.isolating then none else some pendingTransition }
      ∧ leaveSuspended u = { u with coord := (leaveSuspended u).coord, port := (leaveSuspended u).port }
      ∧ (leaveSuspended u).port.part = u.port.part ∧ (leaveSuspended u).port.config = u.port.config := by
  rw [leaveSuspended_eq u hs ho]
  cases u.isolating
  · simp only [Bool.false_eq_true, if_false]
    refine ⟨by simp, ?_, by simp, by simp⟩
    rw [setCoord_eq]
  · simp only [if_true]
    refine ⟨by simp, ?_, by simp, by simp⟩
    rw [setCoord_eq]

/-- A nominal cycle begins out of SUSPENDED (R101, R102, R113). -/
theorem beginNominal_begun (u : State) (a : Adoption) (p : StoredPlan) (e : Nat) (st : StageRecord)
    (left : Option (TrailOccasion × Nat)) (hs : u.Settled) (ho : u.coord.overrunRaised = false)
    (ha : u.coord.active = some a) (hg : u.coord.staged = none) (hp : u.storedPlan a.plan = some p)
    (hn : p.plan.number = a.plan) (hst : p.plan.stage e = some st) :
    NominalBegun u (beginNominal e left u) a p e st (left.map Prod.snd)
      ∧ beginNominal e left u =
        { u with
          coord := (beginNominal e left u).coord, seq := (beginNominal e left u).seq
          bank := (beginNominal e left u).bank, port := (beginNominal e left u).port }
      ∧ (beginNominal e left u).coord =
        { u.coord with
          state := if u.isolating then .isolated else .correcting, cause := none
          transition := if u.isolating then none else some pendingTransition
          figures := some (nominalFigures p.plan), length := p.plan.cycle
          position := (p.plan.splits.take (e - 1)).sum }
      ∧ (beginNominal e left u).port.part = u.port.part ∧ (beginNominal e left u).port.config = u.port.config
      ∧ (beginNominal e left u).seq.heldTake = u.seq.heldTake
      ∧ (beginNominal e left u).seq.startupCount = u.seq.startupCount := by
  obtain ⟨c1, c2, c3, c4⟩ := leaveSuspended_coord u hs ho
  have eq : beginNominal e left u =
      beginGreen e left
        (setSeq .run (handFigures (nominalFigures p.plan) ((nominalFigures p.plan).bound e) (leaveSuspended u))) := by
    unfold beginNominal
    rw [ha]
    simp [hp]
  generalize hv : leaveSuspended u = v at *
  generalize hw : setSeq .run (handFigures (nominalFigures p.plan) ((nominalFigures p.plan).bound e) v) = w at eq
  have wc : w.coord =
      { v.coord with
        figures := some (nominalFigures p.plan), length := p.plan.cycle, position := (nominalFigures p.plan).bound e } := by
    rw [← hw]; simp [handFigures, nominalFigures, figuresOf]
  have wq : w.seq =
      { v.seq with
        state := .run, figures := some (nominalFigures p.plan)
        served := p.plan.stages.map fun _ => ServedMark.notReached } := by
    rw [← hw]; simp [handFigures, nominalFigures, figuresOf, PlanRecord.splits, Function.comp_def]
  have vs : v.seq = u.seq ∧ v.bank = u.bank ∧ v.store = u.store := by rw [c2]; exact ⟨rfl, rfl, rfl⟩
  have wb : w.bank = u.bank := by rw [← hw, ← vs.2.1]; simp [handFigures]
  have ws : w.storedPlan a.plan = some p := by
    rw [← hp, ← hw]
    simp only [setSeq_storedPlan]
    show v.storedPlan a.plan = _
    simp [State.storedPlan, State.slot, vs.2.2]
  have wst : w.stageOf (nominalFigures p.plan).plan e = some st := by
    have : (nominalFigures p.plan).plan = a.plan := hn
    rw [this]
    simp [State.stageOf, ws, hst]
  have wrest : w = { u with coord := w.coord, seq := w.seq, port := w.port } := by
    rw [← hw]
    unfold setSeq
    split
    · unfold handFigures; rw [c2]
    · rw [post_eq]; unfold handFigures; rw [c2]
  have wp : w.port.part = u.port.part ∧ w.port.config = u.port.config := by
    rw [← c3, ← c4, ← hw]; simp [handFigures]
  obtain ⟨b1, b2, b3, b4, b5, b6, b7, b8, b9, b10⟩ :=
    beginGreen_begun w (nominalFigures p.plan) e st left (by rw [wq]) wst
  rw [← eq] at b1 b2 b3 b4 b5 b6 b7 b8 b9 b10
  have tc : (beginNominal e left u).coord =
        { u.coord with
          state := if u.isolating then .isolated else .correcting, cause := none
          transition := if u.isolating then none else some pendingTransition
          figures := some (nominalFigures p.plan), length := p.plan.cycle
          position := (p.plan.splits.take (e - 1)).sum } := by
    rw [b2]; simp only; rw [wc, c1, nominal_bound p.plan e st hst]
  have green : GreenBegun u (beginNominal e left u) (nominalFigures p.plan) e st (left.map Prod.snd) := by
    have l : w.seq.latches = u.seq.latches ∧ w.seq.trailing = u.seq.trailing := by rw [wq, vs.1]; exact ⟨rfl, rfl⟩
    refine ⟨b1.run, ?_, ?_, ?_⟩
    · rw [b1.latches, l.1]
    · rw [b1.trailing, l.2, wb]
    · have := b1.bank; rw [l.2, wb] at this; exact this
  refine ⟨⟨by rw [tc]; exact ha, by rw [tc]; exact hg, ⟨by rw [tc], b7⟩, by rw [tc]; exact ⟨rfl, rfl⟩, by rw [tc], by rw [tc]; rfl,
    by rw [b8, wq], by rw [b6, wq], green⟩, ?_, tc, b4.trans wp.1, b5.trans wp.2, ?_, ?_⟩
  · rw [b2]; rw [wrest]
  · rw [b9, wq, vs.1]
  · rw [b10, wq, vs.1]

/-! ### ENTERING and DWELL -/

theorem setPreempt_eq (state : PreemptState) (input : Option PreemptInput) (s : State) :
    setPreempt state input s = { s with preempt.state := state, port := (setPreempt state input s).port } := by
  unfold setPreempt
  rw [post_eq]

/-- What one part of a run keeps of the Preemption Controller: the inputs, who runs and waits, the save record. -/
structure RunKept (s t : State) : Prop where
  eq : t = { s with bank := t.bank, preempt := t.preempt, port := t.port }
  inputs : t.preempt.pe1 = s.preempt.pe1 ∧ t.preempt.pe2 = s.preempt.pe2
  running : t.preempt.running = s.preempt.running
  waiting : t.preempt.waiting = s.preempt.waiting
  save : t.preempt.save = s.preempt.save
  heldTake : t.preempt.heldTake = s.preempt.heldTake
  stuck : t.preempt.stuckRaised = s.preempt.stuckRaised
  expected : t.preempt.expected = s.preempt.expected
  part : t.port.part = s.port.part
  config : t.port.config = s.port.config

/-- DWELL begins (R153). -/
theorem beginDwell_begun (u : State) (i : PreemptInput) (hr : u.preempt.running = some i) :
    RunKept u (beginDwell u) ∧ (beginDwell u).preempt.state = .dwell ∧ (beginDwell u).preempt.dwell = 0
      ∧ (beginDwell u).preempt.clearing = [] ∧ (beginDwell u).preempt.allRed = none
      ∧ (beginDwell u).preempt.greenHold = none
      ∧ (∀ g : Group, inSet g (u.route i).track = true →
        (beginDwell u).preempt.holders[g] = some (routeHolder i (u.route i)))
      ∧ Redriven u.bank (beginDwell u).bank fun g => if inSet g (u.route i).track = true then .green else .red := by
  unfold beginDwell
  simp only [hr]
  refine ⟨⟨?_, ?_, ?_, ?_, ?_, ?_, ?_, ?_, ?_, ?_⟩, ?_, ?_, ?_, ?_, ?_, ?_, ?_⟩
  · rw [setPreempt_eq]; rfl
  · simp [command, Preemption.giveHolder]
  · simp [command, Preemption.giveHolder, hr]
  · simp [command, Preemption.giveHolder]
  · simp [command, Preemption.giveHolder]
  · simp [command, Preemption.giveHolder]
  · simp [command, Preemption.giveHolder]
  · simp [command, Preemption.giveHolder]
  · simp [command, Preemption.giveHolder]
  · simp [command, Preemption.giveHolder]
  · simp [command, Preemption.giveHolder]
  · simp [command, Preemption.giveHolder]
  · simp [command, Preemption.giveHolder]
  · simp [command, Preemption.giveHolder]
  · simp [command, Preemption.giveHolder]
  · intro g hg
    simp [command, Preemption.giveHolder, hg]
  · simp only [command, setPreempt_bank]
    refine ((redriven_command u.bank (u.route i).track .green).trans
      (redriven_command (u.bank.command (u.route i).track .green) (~~~(u.route i).track) .red) ?_).congr ?_
    · intro fl g
      rw [bankCommand_drive _ _ _ fl]
      by_cases a : inSet g (u.route i).track <;> simp [a]
    · intro fl g
      rw [bankCommand_drive _ _ _ fl]
      by_cases a : inSet g (u.route i).track <;> simp [a]

theorem members_eq (s : State) (track : GroupSet) :
    members (s.leftGreen track) =
      groupList.filter fun g => decide (s.bank.drive[g] = .green) && !inSet g track := by
  unfold members State.leftGreen
  congr 1
  funext g
  simp

/-- The groups outside the track set clear once no green hold stands in the way (R151, R152). -/
theorem clearOutside_cleared (u : State) (i : PreemptInput) (hr : u.preempt.running = some i)
    (he : u.preempt.state = .entering) :
    RunKept u (clearOutside u)
      ∧ EnteringCleared u.bank (u.route i).track (u.preempt.clearing ++ newClearing u (u.route i).track) u.preempt.allRed
        (clearOutside u) := by
  have track : u.runningRoute.track = (u.route i).track := by simp [State.runningRoute, hr]
  have cl : (u.preempt.startClearing (u.leftGreen (u.route i).track)).clearing =
      u.preempt.clearing ++ newClearing u (u.route i).track := by
    unfold Preemption.startClearing newClearing
    rw [members_eq]
  have cleared := (redriven_command u.bank (u.leftGreen (u.route i).track) .yellow).congr
    (k := fun g => if u.bank.drive[g] = .green ∧ inSet g (u.route i).track = false then .yellow else u.bank.drive[g])
    (fun _ g => by simp [State.leftGreen])
  let v : State := command (u.leftGreen (u.route i).track) .yellow
    { u with preempt := { u.preempt.startClearing (u.leftGreen (u.route i).track) with greenHold := none } }
  have eq : clearOutside u =
      if (u.preempt.clearing ++ newClearing u (u.route i).track).isEmpty then
        if u.preempt.allRed.isSome then v else beginDwell v
      else { v with preempt.allRed := none } := by
    unfold clearOutside
    rw [track, ← cl]
    rfl
  have vk : RunKept u v := ⟨rfl, ⟨rfl, rfl⟩, rfl, rfl, rfl, rfl, rfl, rfl, rfl, rfl⟩
  have vr : v.preempt.running = some i := hr
  have vroute : v.route i = u.route i := by cases i <;> rfl
  rw [eq]
  by_cases hc : u.preempt.clearing ++ newClearing u (u.route i).track = []
  · simp only [hc, List.isEmpty_nil, if_true]
    cases ha : u.preempt.allRed with
    | some n =>
      refine ⟨vk, fun h => absurd rfl h, fun _ m hm => ?_, fun _ h => by cases h⟩
      cases hm
      exact ⟨he, by show (u.preempt.startClearing _).clearing = []; rw [cl, hc], ha, rfl, cleared⟩
    | none =>
      obtain ⟨k, d1, d2, d3, d4, d5, d6, d7⟩ := beginDwell_begun v i vr
      rw [vroute] at d7
      refine ⟨⟨by simp only [Option.isSome_none, Bool.false_eq_true, if_false]; rw [k.eq]; rfl, ⟨k.inputs.1, k.inputs.2⟩, k.running, k.waiting, k.save, k.heldTake, k.stuck, k.expected, k.part, k.config⟩, fun h => absurd rfl h, fun _ m hm => (by cases hm), fun _ _ => ⟨d1, d2, ?_⟩⟩
      refine (cleared.trans d7 ?_).congr ?_
      · intro fl g h
        by_cases a : inSet g (u.route i).track
        · simp [a]
        · simp only [a] at h
          simp [← h]
      · intro fl g; rfl
  · have : (u.preempt.clearing ++ newClearing u (u.route i).track).isEmpty = false := by simpa using hc
    simp only [this]
    refine ⟨⟨rfl, ⟨rfl, rfl⟩, rfl, rfl, rfl, rfl, rfl, rfl, rfl, rfl⟩, fun _ => ⟨he, cl, rfl, rfl, cleared⟩, fun h => absurd h hc,
      fun h => absurd h hc⟩

/-! ### The take -/

theorem setSeq_eq (state : SeqState) (s : State) :
    setSeq state s = { s with seq.state := state, port := (setSeq state s).port } := by
  unfold setSeq
  split
  · rename_i h; rw [← h]
  · rw [post_eq]

/-- SUSPENDED is entered with TRANSITION_OVERRUN not raised (R99, R100). -/
theorem suspend_quiet (cause : SuspensionCause) (s : State) (ho : s.coord.overrunRaised = false) :
    (suspend cause s).coord =
        { s.coord with
          state := .suspended, cause := some cause, finalMark := false, figures := none, transition := none }
      ∧ suspend cause s = { s with coord := (suspend cause s).coord, port := (suspend cause s).port }
      ∧ (suspend cause s).port.part = s.port.part ∧ (suspend cause s).port.config = s.port.config := by
  have eq : suspend cause s =
      setCoord .suspended (some cause)
        { s with coord.finalMark := false, coord.figures := none, coord.transition := none } := by
    unfold suspend emptyTransition
    simp [ho]
  rw [eq]
  refine ⟨by simp, ?_, by simp, by simp⟩
  rw [setCoord_eq]

/-- The hold that a hand-over calls for. -/
theorem greenHold_eq (h : HandOver) (track : GroupSet) :
    h.greenHold track = if h.interval = .green ∧ h.record.green &&& ~~~track ≠ 0 then h.record.gmin - h.elapsed else 0 := rfl

/-- A take granted to an input with a hand-over, TRANSITION_OVERRUN not raised (R99, R125, R149 to R152). -/
theorem grantTo_granted (i : PreemptInput) (h : HandOver) (u : State) (hs : u.Settled)
    (ho : u.coord.overrunRaised = false) :
    grantTo i h u =
        { u with
          coord :=
            { u.coord with
              state := .suspended, cause := some .preemption, finalMark := false, figures := none, transition := none }
          seq :=
            { u.seq with
              state := .yielded, run := none, figures := none, served := [], trailing := [], heldTake := false }
          instants.cycleEnd := false
          bank := (grantTo i h u).bank, preempt := (grantTo i h u).preempt, port := (grantTo i h u).port }
      ∧ (grantTo i h u).preempt.pe1 = u.preempt.pe1 ∧ (grantTo i h u).preempt.pe2 = u.preempt.pe2
      ∧ (grantTo i h u).preempt.running = some i
      ∧ (grantTo i h u).preempt.waiting = (if i = .pe1 ∧ u.preempt.calls .pe2 then some .pe2 else none)
      ∧ (grantTo i h u).preempt.save =
        some
          { source := i, entry := u.clock.reading, plan := h.plan, position := u.coord.position, stage := h.stage
            interval := h.interval, resumeStage := (u.route i).exitStage, override := none }
      ∧ (grantTo i h u).preempt.heldTake = false
      ∧ (grantTo i h u).preempt.stuckRaised = u.preempt.stuckRaised
      ∧ (grantTo i h u).port.part = u.port.part ∧ (grantTo i h u).port.config = u.port.config
      ∧ (0 < h.greenHold (u.route i).track →
        (grantTo i h u).preempt.state = .entering
          ∧ (grantTo i h u).preempt.greenHold = some (h.greenHold (u.route i).track)
          ∧ (grantTo i h u).bank = u.bank)
      ∧ (h.greenHold (u.route i).track = 0 →
        EnteringCleared u.bank (u.route i).track
          (h.clearing
            ++ (groupList.filter fun g => decide (u.bank.drive[g] = .green) && !inSet g (u.route i).track).map fun g =>
              { group := g, holder := stageHolder h.stage h.record, yellow := h.record.yellow })
          h.allRed (grantTo i h u)) := by
  obtain ⟨taken, ht⟩ : ∃ taken : Preemption, taken =
      ({ u.preempt with
        running := some i
        waiting := if i = .pe1 ∧ u.preempt.calls .pe2 then some PreemptInput.pe2 else none
        heldTake := false
        save := some (h.save i (u.route i) u.clock.reading u.coord.position)
        clearing := h.clearing
        clearedAllRed := 0
        allRed := h.allRed
        dwell := 0
        expected := none
        greenHold := none } : Preemption).giveHolder (u.bank.driving .green) (stageHolder h.stage h.record) := ⟨_, rfl⟩
  have eq : grantTo i h u =
      enterWith (h.greenHold (u.route i).track)
        (setPreempt .entering (some i)
          (settleAction actionFuel .transitionOverrun (suspend .preemption (yieldJunction { u with preempt := taken })))) := by
    rw [ht]; unfold grantTo; rfl
  have y1 : yieldJunction { u with preempt := taken } =
      { u with
        seq :=
          { u.seq with
            state := .yielded, run := none, figures := none, served := [], trailing := [], heldTake := false }
        instants.cycleEnd := false, preempt := taken, port := (yieldJunction { u with preempt := taken }).port } := by
    unfold yieldJunction
    rw [setSeq_eq]
  have y2 : (yieldJunction { u with preempt := taken }).port.part = u.port.part
      ∧ (yieldJunction { u with preempt := taken }).port.config = u.port.config := by
    unfold yieldJunction
    simp
  generalize yieldJunction { u with preempt := taken } = y at eq y1 y2
  obtain ⟨q1, q2, q3, q4⟩ := suspend_quiet .preemption y (by rw [y1]; exact ho)
  have qs : (suspend .preemption y).Settled := by
    unfold State.Settled at hs ⊢
    rw [q4, y2.2, q2, y1]
    exact hs
  rw [settleAction_settled _ _ _ qs] at eq
  have z1 : setPreempt .entering (some i) (suspend .preemption y) =
      { u with
        coord :=
          { u.coord with
            state := .suspended, cause := some .preemption, finalMark := false, figures := none, transition := none }
        seq :=
          { u.seq with
            state := .yielded, run := none, figures := none, served := [], trailing := [], heldTake := false }
        instants.cycleEnd := false, preempt := { taken with state := .entering }
        port := (setPreempt .entering (some i) (suspend .preemption y)).port } := by
    rw [setPreempt_eq, q2, q1, y1]
  have zp : (setPreempt .entering (some i) (suspend .preemption y)).port.part = u.port.part
      ∧ (setPreempt .entering (some i) (suspend .preemption y)).port.config = u.port.config := by
    simp [q3, q4, y2]
  generalize setPreempt .entering (some i) (suspend .preemption y) = z at eq z1 zp
  have fields : taken.running = some i
      ∧ taken.waiting = (if i = .pe1 ∧ u.preempt.calls .pe2 then some PreemptInput.pe2 else none)
      ∧ taken.heldTake = false ∧ taken.save = some (h.save i (u.route i) u.clock.reading u.coord.position)
      ∧ taken.clearing = h.clearing ∧ taken.allRed = h.allRed ∧ taken.pe1 = u.preempt.pe1 ∧ taken.pe2 = u.preempt.pe2
      ∧ taken.stuckRaised = u.preempt.stuckRaised
      ∧ taken.holders =
        Vector.ofFn fun g : Group =>
          if inSet g (u.bank.driving .green) then some (stageHolder h.stage h.record) else u.preempt.holders[g] := by
    rw [ht]; exact ⟨rfl, rfl, rfl, rfl, rfl, rfl, rfl, rfl, rfl, rfl⟩
  clear ht
  obtain ⟨f1, f2, f3, f4, f5, f6, f7, f8, f9, f10⟩ := fields
  have zr : z.preempt.running = some i := by rw [z1]; exact f1
  have ze : z.preempt.state = .entering := by rw [z1]
  have zroute : z.route i = u.route i := by
    cases i <;> simp only [State.route, State.cfg, zp.2]
  have zb : z.bank = u.bank := by rw [z1]
  have save : z.preempt.save =
      some
        { source := i, entry := u.clock.reading, plan := h.plan, position := u.coord.position, stage := h.stage
          interval := h.interval, resumeStage := (u.route i).exitStage, override := none } := by rw [z1]; exact f4
  rw [eq]
  unfold enterWith
  by_cases hold : 0 < h.greenHold (u.route i).track
  · rw [if_pos hold]
    refine ⟨?_, ?_, ?_, zr, ?_, save, ?_, ?_, zp.1, zp.2, fun _ => ⟨ze, rfl, zb⟩, fun h0 => by omega⟩
    · rw [z1]
    · rw [z1]; exact f7
    · rw [z1]; exact f8
    · rw [z1]; exact f2
    · rw [z1]; exact f3
    · rw [z1]; exact f9
  · rw [if_neg hold]
    obtain ⟨k, e⟩ := clearOutside_cleared z i zr ze
    rw [zb, zroute] at e
    have new : newClearing z (u.route i).track =
        (groupList.filter fun g => decide (u.bank.drive[g] = .green) && !inSet g (u.route i).track).map fun g =>
          { group := g, holder := stageHolder h.stage h.record, yellow := h.record.yellow } := by
      unfold newClearing
      rw [zb]
      have holders : ∀ g : Group, u.bank.drive[g] = .green →
          z.preempt.holders[g] = some (stageHolder h.stage h.record) := by
        intro g hg
        rw [z1]
        simp only [f10, Fin.getElem_fin, Vector.getElem_ofFn]
        have : inSet ⟨g.val, g.isLt⟩ (u.bank.driving .green) = true := by
          have := inSet_driving u.bank .green g
          simp only [Fin.eta]
          rw [this]; simpa using hg
        rw [if_pos this]
      rw [← List.filterMap_eq_map]
      apply List.filterMap_congr
      intro g hg
      have : u.bank.drive[g] = .green := by
        have := (List.mem_filter.mp hg).2
        simp at this
        simpa using this.1
      simp [holders g this, stageHolder]
    have clr : z.preempt.clearing = h.clearing ∧ z.preempt.allRed = h.allRed := by rw [z1]; exact ⟨f5, f6⟩
    rw [new, clr.1, clr.2] at e
    refine ⟨?_, ?_, ?_, k.running.trans zr, ?_, k.save.trans save, ?_, ?_, k.part.trans zp.1, k.config.trans zp.2,
      fun h0 => absurd h0 hold, fun _ => e⟩
    · rw [k.eq, z1]
    · rw [k.inputs.1, z1]; exact f7
    · rw [k.inputs.2, z1]; exact f8
    · rw [k.waiting, z1]; exact f2
    · rw [k.heldTake, z1]; exact f3
    · rw [k.stuck, z1]; exact f9

/-! ### PE1 takes over -/

/-- What "nothing to clear" is (R152). -/
theorem nothingToClear_iff (u : State) :
    u.nothingToClear = true ↔
      u.preempt.clearing = [] ∧ u.preempt.allRed = none
        ∧ ∀ g : Group, u.bank.drive[g] = .green → inSet g u.runningRoute.track = true := by
  have left : u.leftGreen u.runningRoute.track = 0 ↔
      ∀ g : Group, u.bank.drive[g] = .green → inSet g u.runningRoute.track = true := by
    have bit : ∀ g : Group, inSet g (u.leftGreen u.runningRoute.track) =
        (decide (u.bank.drive[g] = .green) && !inSet g u.runningRoute.track) := fun g => by simp [State.leftGreen]
    constructor
    · intro h g hg
      have := bit g
      rw [h] at this
      simpa [hg, inSet] using this
    · intro h
      apply BitVec.eq_of_getLsbD_eq
      intro k hk
      show inSet ⟨k, hk⟩ (u.leftGreen u.runningRoute.track) = _
      rw [bit ⟨k, hk⟩]
      by_cases hg : u.bank.drive[(⟨k, hk⟩ : Group)] = .green
      · rw [h ⟨k, hk⟩ hg, Bool.not_true, Bool.and_false]; simp
      · rw [decide_eq_false hg, Bool.false_and]; simp
  unfold State.nothingToClear
  rw [Bool.and_eq_true, Bool.and_eq_true, decide_eq_true_iff, left, List.isEmpty_iff, Option.isNone_iff_eq_none]
  constructor
  · rintro ⟨⟨a, b⟩, c⟩; exact ⟨a, c, b⟩
  · rintro ⟨a, c, b⟩; exact ⟨⟨a, b⟩, c⟩

/-- PE1 takes over a run of PE2 (R157): with something to clear a green hold still running is kept; with nothing to clear, or
no hold, ENTERING does its work at once (R151, R152). -/
theorem takeOver_taken (u : State) :
    let nothing := u.preempt.clearing = [] ∧ u.preempt.allRed = none
      ∧ ∀ g : Group, u.bank.drive[g] = .green → inSet g (u.route .pe1).track = true
    takeOver u = { u with bank := (takeOver u).bank, preempt := (takeOver u).preempt, port := (takeOver u).port }
      ∧ ((takeOver u).preempt.pe1 = u.preempt.pe1 ∧ (takeOver u).preempt.pe2 = u.preempt.pe2)
      ∧ (takeOver u).preempt.running = some .pe1
      ∧ (takeOver u).preempt.waiting = (if u.preempt.pe2.active then some .pe2 else none)
      ∧ (takeOver u).preempt.save = u.preempt.save ∧ (takeOver u).preempt.heldTake = u.preempt.heldTake
      ∧ (takeOver u).preempt.stuckRaised = u.preempt.stuckRaised
      ∧ (takeOver u).port.part = u.port.part ∧ (takeOver u).port.config = u.port.config
      ∧ (∀ n, 0 < n → u.preempt.greenHold = some n → ¬ nothing →
        (takeOver u).preempt.state = .entering ∧ (takeOver u).preempt.greenHold = some n
          ∧ (takeOver u).preempt.clearing = u.preempt.clearing ∧ (takeOver u).bank = u.bank)
      ∧ (u.preempt.greenHold.getD 0 = 0 ∨ nothing →
        EnteringCleared u.bank (u.route .pe1).track (u.preempt.clearing ++ newClearing u (u.route .pe1).track)
          u.preempt.allRed (takeOver u)) := by
  intro nothing
  obtain ⟨v, hv⟩ : ∃ v : State, v =
      setPreempt .entering (some .pe1)
        (post (.preemptAbandoned .pe2 .higherInput)
          { u with
            preempt.running := some .pe1
            preempt.waiting := if u.preempt.pe2.active then some PreemptInput.pe2 else none, preempt.dwell := 0 }) := ⟨_, rfl⟩
  have eq : takeOver u = enterWith v.keptHold v := by rw [hv]; rfl
  have vp : v.port.part = u.port.part ∧ v.port.config = u.port.config := by rw [hv]; simp
  have v1 : v =
      { u with
        preempt :=
          { u.preempt with
            state := .entering, running := some .pe1
            waiting := if u.preempt.pe2.active then some PreemptInput.pe2 else none, dwell := 0 }
        port := v.port } := by
    rw [hv, setPreempt_eq, post_eq]
  clear hv
  have vroute : v.route .pe1 = u.route .pe1 := by simp only [State.route, State.cfg, vp.2]
  have vn : v.nothingToClear = true ↔ nothing := by
    rw [nothingToClear_iff]
    have : v.runningRoute = u.route .pe1 := by
      rw [← vroute]; unfold State.runningRoute; rw [v1]
    rw [this, v1]
  have vnew : newClearing v (u.route .pe1).track = newClearing u (u.route .pe1).track := by unfold newClearing; rw [v1]
  rw [eq]
  by_cases hold : 0 < v.keptHold
  · have kept : ¬ nothing ∧ v.keptHold = u.preempt.greenHold.getD 0 := by
      unfold State.keptHold at hold ⊢
      split at hold
      · omega
      · rename_i h
        exact ⟨fun h' => h (vn.mpr h'), by rw [if_neg h, v1]⟩
    unfold enterWith
    rw [if_pos hold]
    refine ⟨?_, ?_, ?_, ?_, ?_, ?_, ?_, vp.1, vp.2, fun n _ hn _ => ⟨?_, ?_, ?_, ?_⟩, fun h => ?_⟩
    · rw [v1]
    · rw [v1]; exact ⟨rfl, rfl⟩
    · rw [v1]
    · rw [v1]
    · rw [v1]
    · rw [v1]
    · rw [v1]
    · rw [v1]
    · show some v.keptHold = some n
      rw [kept.2, hn]; rfl
    · rw [v1]
    · rw [v1]
    · rcases h with h | h
      · omega
      · exact absurd h kept.1
  · unfold enterWith
    rw [if_neg hold]
    obtain ⟨k, e⟩ := clearOutside_cleared v .pe1 (by rw [v1]) (by rw [v1])
    rw [vroute, vnew] at e
    refine ⟨?_, ?_, ?_, ?_, ?_, ?_, ?_, k.part.trans vp.1, k.config.trans vp.2, fun n hn h hne => ?_, fun _ => ?_⟩
    · rw [k.eq, v1]
    · rw [k.inputs.1, k.inputs.2, v1]; exact ⟨rfl, rfl⟩
    · rw [k.running, v1]
    · rw [k.waiting, v1]
    · rw [k.save, v1]
    · rw [k.heldTake, v1]
    · rw [k.stuck, v1]
    · unfold State.keptHold at hold
      rw [if_neg fun h' => hne (vn.mp h'), v1] at hold
      rw [show ({ u with preempt := _, port := _ } : State).preempt.greenHold = some n from h] at hold
      exact absurd hn hold
    · rw [v1] at e; rw [v1]; exact e

/-! ### The hand-back -/

theorem post_port_eq (body : ReportBody) (u : State) : post body u = { u with port := (post body u).port } := by
  unfold post; split <;> rfl

theorem emptyStaged_eq (u : State) :
    emptyStaged u = { u with coord.staged := none, store := (emptyStaged u).store }
      ∧ ∀ n, (emptyStaged u).storedPlan n = u.storedPlan n := by
  unfold emptyStaged
  split
  · exact ⟨rfl, fun n => clearStaged_plan u.store n⟩
  · rename_i h
    have : u.coord.staged = none := by simpa using h
    refine ⟨?_, fun _ => rfl⟩
    rw [← this]

theorem putInService_eq (a : Adoption) (u : State) (hu : u.store.Sound) {p : StoredPlan} (hp : u.storedPlan a.plan = some p) :
    putInService a u = { u with coord.active := some a, store := (putInService a u).store }
      ∧ (∀ n, (putInService a u).storedPlan n = u.storedPlan n)
      ∧ ((putInService a u).slot a.plan).state = .active := by
  obtain ⟨w, hw, h1, h2⟩ := activate_granted hu hp
  have e : putInService a u = { u with store := w, coord.active := some a } := by
    unfold putInService; rw [hw]; rfl
  rw [e]
  exact ⟨rfl, h1, h2⟩

/-- The choice at a hand-back put into service (R101, R104). -/
theorem chooseResume_chosen (u : State) (hu : u.store.Sound) (r : SaveRecord) (a : Adoption) (k : Nat) (p : StoredPlan)
    (c : ResumeChoice u r a k) (hp : u.storedPlan a.plan = some p) :
    u.resumePlan (u.resumeCase r.override) = a.plan
      ∧ u.resumeStage (u.resumeCase r.override) r.resumeStage = (if p.plan.stageCount < k then 1 else k)
      ∧ chooseResume r.override u =
        { u with
          coord :=
            { u.coord with
              active := some a, staged := none, requested := (chooseResume r.override u).coord.requested }
          store := (chooseResume r.override u).store, port := (chooseResume r.override u).port }
      ∧ (∀ n, (chooseResume r.override u).storedPlan n = u.storedPlan n)
      ∧ (chooseResume r.override u).port.part = u.port.part
      ∧ (chooseResume r.override u).port.config = u.port.config := by
  have stage : ∀ x : ResumeCase, u.resumePlan x = a.plan →
      (match x with
        | .override o => o.stage
        | .fallback | .staged _ | .active => r.resumeStage) = k →
      u.resumeStage x r.resumeStage = if p.plan.stageCount < k then 1 else k := by
    intro x h1 h2
    unfold State.resumeStage
    rw [h1, hp]
    simp only [Option.map_some, Option.getD_some]
    cases x <;> simp only at h2 <;> subst h2 <;> rfl
  rcases c with ⟨c1, c2, c3⟩ | ⟨c1, o, c2, c3, c4, c5⟩ | ⟨c1, c2, c3, c4⟩
  · have case : u.resumeCase r.override = .fallback := by simp [State.resumeCase, c1]
    have plan : u.resumePlan .fallback = a.plan := by rw [c2]; rfl
    refine ⟨by rw [case]; exact plan, by rw [case]; exact stage _ plan c3.symm, ?_⟩
    have fa : u.fallbackAdoption = a := c2.symm
    unfold chooseResume
    rw [case]
    simp only [fa]
    have inner : ∀ v : State, v = { u with coord := { u.coord with requested := v.coord.requested } } →
        let t := if v.coord.active = some a then emptyStaged v else post (.planAdopted a .resume) (emptyStaged (putInService a v))
        t = { u with
          coord := { u.coord with active := some a, staged := none, requested := t.coord.requested }
          store := t.store, port := t.port }
        ∧ (∀ n, t.storedPlan n = u.storedPlan n) ∧ t.port.part = u.port.part ∧ t.port.config = u.port.config := by
      intro v hv
      have vstore : v.store = u.store := by rw [hv]
      have vs : ∀ n, v.storedPlan n = u.storedPlan n := fun n => by simp [State.storedPlan, State.slot, vstore]
      have vp : v.port = u.port := by rw [hv]
      dsimp only
      split
      · rename_i ha
        obtain ⟨e1, e2⟩ := emptyStaged_eq v
        refine ⟨?_, fun n => (e2 n).trans (vs n), by rw [e1]; exact congrArg _ vp, by rw [e1]; exact congrArg _ vp⟩
        have ua : u.coord.active = some a := by rw [hv] at ha; exact ha
        rw [e1, hv, ← ua]
      · obtain ⟨q1, q2, q3⟩ := putInService_eq a v (by rw [vstore]; exact hu) ((vs a.plan).trans hp)
        obtain ⟨e1, e2⟩ := emptyStaged_eq (putInService a v)
        refine ⟨?_, fun n => ?_, ?_, ?_⟩
        · rw [post_eq, e1, q1, hv]
        · rw [post_storedPlan, e2 n, q2 n, vs n]
        · rw [post_port_part, e1, q1, vp]
        · rw [post_port_config, e1, q1, vp]
    cases r.override with
    | none => exact inner u rfl
    | some o => exact inner { u with coord.requested := some o.adoption } rfl
  · have full : u.slotEmpty o.adoption.plan = false := by simpa [State.slotEmpty] using c3
    have case : u.resumeCase r.override = .override o := by simp [State.resumeCase, c1, c2, full]
    have plan : u.resumePlan (.override o) = a.plan := by rw [c4]; rfl
    refine ⟨by rw [case]; exact plan, by rw [case]; exact stage _ plan c5.symm, ?_⟩
    unfold chooseResume
    rw [case]
    simp only [← c4]
    obtain ⟨q1, q2, q3⟩ := putInService_eq a u hu hp
    obtain ⟨e1, e2⟩ := emptyStaged_eq { putInService a u with coord.requested := some a }
    refine ⟨?_, fun n => ?_, ?_, ?_⟩
    · rw [post_eq, e1, q1]
    · rw [post_storedPlan, e2 n, ← q2 n]; rfl
    · rw [post_port_part, e1, q1]
    · rw [post_port_config, e1, q1]
  · have empty : ∀ o, r.override = some o → u.slotEmpty o.adoption.plan = true := fun o h => by
      simpa [State.slotEmpty] using c2 o h
    have case : u.resumeCase r.override = u.plainCase := by
      unfold State.resumeCase
      rw [c1]
      cases ho : r.override with
      | none => rfl
      | some o => simp [empty o ho]
    rcases c4 with ⟨x, c4, c5⟩ | ⟨c4, c5⟩
    · have pc : u.plainCase = .staged a := by simp [State.plainCase, c4, c5]
      have plan : u.resumePlan (.staged a) = a.plan := rfl
      refine ⟨by rw [case, pc]; exact plan, by rw [case, pc]; exact stage _ plan c3.symm, ?_⟩
      unfold chooseResume
      rw [case, pc]
      simp only
      have inner : ∀ v : State, v = { u with port := v.port } → v.port.part = u.port.part → v.port.config = u.port.config →
          let t := post (.planAdopted a .resume) { putInService a v with coord.staged := none }
          t = { u with
            coord := { u.coord with active := some a, staged := none, requested := t.coord.requested }
            store := t.store, port := t.port }
          ∧ (∀ n, t.storedPlan n = u.storedPlan n) ∧ t.port.part = u.port.part ∧ t.port.config = u.port.config := by
        intro v hv v1 v2
        have vstore : v.store = u.store := by rw [hv]
        have vs : ∀ n, v.storedPlan n = u.storedPlan n := fun n => by simp [State.storedPlan, State.slot, vstore]
        obtain ⟨q1, q2, q3⟩ := putInService_eq a v (by rw [vstore]; exact hu) ((vs a.plan).trans hp)
        refine ⟨?_, fun n => ?_, ?_, ?_⟩
        · rw [post_eq, q1, hv]
        · rw [post_storedPlan, ← vs n, ← q2 n]; rfl
        · rw [post_port_part, q1]; exact v1
        · rw [post_port_config, q1]; exact v2
      cases r.override with
      | none => exact inner u rfl rfl rfl
      | some o => exact inner (post (.adoptionFailed o.adoption.plan .activate) u) (post_port_eq _ _) (by simp) (by simp)
    · have pc : u.plainCase = .active := by simp [State.plainCase, c4]
      have plan : u.resumePlan .active = a.plan := by simp [State.resumePlan, c5]
      refine ⟨by rw [case, pc]; exact plan, by rw [case, pc]; exact stage _ plan c3.symm, ?_⟩
      unfold chooseResume
      rw [case, pc]
      simp only
      cases r.override with
      | none =>
        refine ⟨?_, fun _ => rfl, rfl, rfl⟩
        rw [← c4, ← c5]
      | some o =>
        refine ⟨?_, fun n => by simp, by simp, by simp⟩
        simp only
        rw [post_eq, ← c4, ← c5]

/-- What the choice at a hand-back leaves of the requested record and the chosen plan's slot (R101, R104). -/
theorem chooseResume_chosen_slots (u : State) (hu : u.store.Sound) (r : SaveRecord) (a : Adoption) (k : Nat) (p : StoredPlan)
    (c : ResumeChoice u r a k) (hp : u.storedPlan a.plan = some p) :
    (∀ o, r.override = some o → u.coord.fallbackMark = true ∨ (u.slot o.adoption.plan).state ≠ .empty →
        (chooseResume r.override u).coord.requested = some o.adoption)
      ∧ ((∀ o, r.override = some o → u.coord.fallbackMark = false ∧ (u.slot o.adoption.plan).state = .empty) →
        (chooseResume r.override u).coord.requested = u.coord.requested)
      ∧ (u.coord.active ≠ some a → ((chooseResume r.override u).slot a.plan).state = .active) := by
  have clear : ∀ v : State, (v.slot a.plan).state = .active → ((emptyStaged v).slot a.plan).state = .active := by
    intro v h
    unfold emptyStaged
    split
    · show (v.store.clearStaged.slot a.plan).state = _
      rw [slot_clearStaged]
      have : (v.store.slot a.plan).state = .active := h
      simp [this]
    · exact h
  have keep : ∀ v : State, (emptyStaged v).coord.requested = v.coord.requested := by
    intro v; unfold emptyStaged; split <;> rfl
  have slotPost : ∀ b (v : State) n, (post b v).slot n = v.slot n := by
    intro b v n; unfold State.slot; rw [post_store]
  rcases c with ⟨c1, c2, c3⟩ | ⟨c1, o, c2, c3, c4, c5⟩ | ⟨c1, c2, c3, c4⟩
  · have case : u.resumeCase r.override = .fallback := by simp [State.resumeCase, c1]
    have fa : u.fallbackAdoption = a := c2.symm
    unfold chooseResume
    rw [case]
    simp only [fa]
    have inner : ∀ v : State, v.store = u.store → v.coord.active = u.coord.active →
        let t := if v.coord.active = some a then emptyStaged v else post (.planAdopted a .resume) (emptyStaged (putInService a v))
        t.coord.requested = v.coord.requested ∧ (u.coord.active ≠ some a → (t.slot a.plan).state = .active) := by
      intro v v1 v2
      dsimp only
      split
      · rename_i h
        exact ⟨keep v, fun n => absurd (v2 ▸ h) n⟩
      · refine ⟨by rw [post_coord, keep]; rfl, fun _ => ?_⟩
        rw [slotPost]
        have sp : v.storedPlan a.plan = some p := by simpa [State.storedPlan, State.slot, v1] using hp
        exact clear _ (putInService_eq a v (by rw [v1]; exact hu) sp).2.2
    cases ho : r.override with
    | none =>
      have := inner u rfl rfl
      exact ⟨fun o h => (by cases h), fun _ => this.1, this.2⟩
    | some o =>
      have := inner { u with coord.requested := some o.adoption } rfl rfl
      refine ⟨fun o' h _ => ?_, fun h => absurd (h o rfl).1 (by rw [c1]; decide), this.2⟩
      cases h
      exact this.1
  · have full : u.slotEmpty o.adoption.plan = false := by simpa [State.slotEmpty] using c3
    have case : u.resumeCase r.override = .override o := by simp [State.resumeCase, c1, c2, full]
    unfold chooseResume
    rw [case]
    simp only [← c4]
    refine ⟨fun o' h _ => ?_, fun h => absurd (h o c2).2 c3, fun _ => ?_⟩
    · rw [c2] at h
      cases h
      rw [post_coord, keep, c4]
    · rw [slotPost]
      exact clear _ (putInService_eq a u hu hp).2.2
  · have empty : ∀ o, r.override = some o → u.slotEmpty o.adoption.plan = true := fun o h => by
      simpa [State.slotEmpty] using c2 o h
    have case : u.resumeCase r.override = u.plainCase := by
      unfold State.resumeCase
      rw [c1]
      cases ho : r.override with
      | none => rfl
      | some o => simp [empty o ho]
    have no : ∀ o, r.override = some o →
        ¬ (u.coord.fallbackMark = true ∨ (u.slot o.adoption.plan).state ≠ .empty) := by
      intro o h
      rw [c1, c2 o h]
      simp
    rcases c4 with ⟨x, c4, c5⟩ | ⟨c4, c5⟩
    · have pc : u.plainCase = .staged a := by simp [State.plainCase, c4, c5]
      unfold chooseResume
      rw [case, pc]
      simp only
      have inner : ∀ v : State, v.store = u.store → v.coord.requested = u.coord.requested →
          (post (.planAdopted a .resume) { putInService a v with coord.staged := none }).coord.requested = u.coord.requested
          ∧ ((post (.planAdopted a .resume) { putInService a v with coord.staged := none }).slot a.plan).state = .active := by
        intro v v1 v2
        refine ⟨by rw [post_coord]; exact v2, ?_⟩
        rw [slotPost]
        have sp : v.storedPlan a.plan = some p := by simpa [State.storedPlan, State.slot, v1] using hp
        exact (putInService_eq a v (by rw [v1]; exact hu) sp).2.2
      cases ho : r.override with
      | none =>
        have := inner u rfl rfl
        exact ⟨fun o h => (by cases h), fun _ => this.1, fun _ => this.2⟩
      | some o =>
        have := inner (post (.adoptionFailed o.adoption.plan .activate) u) (post_store _ _) (by rw [post_coord])
        exact ⟨fun o' h c => absurd c (no o' (ho.trans h)), fun _ => this.1, fun _ => this.2⟩
    · have pc : u.plainCase = .active := by simp [State.plainCase, c4]
      unfold chooseResume
      rw [case, pc]
      simp only
      refine ⟨fun o h c => absurd c (no o h), fun _ => ?_, fun n => absurd c5 n⟩
      cases r.override with
      | none => rfl
      | some o => simp

theorem unstageOverride_eq (o : Option Override) (u : State) :
    unstageOverride o u = { u with store := (unstageOverride o u).store }
      ∧ ∀ n, (unstageOverride o u).storedPlan n = u.storedPlan n := by
  cases o with
  | none => exact ⟨rfl, fun _ => rfl⟩
  | some o =>
    show unstageOrphan o.adoption.plan u = _ ∧ ∀ n, (unstageOrphan o.adoption.plan u).storedPlan n = _
    have : ∀ n, (unstageOrphan o.adoption.plan u).storedPlan n = u.storedPlan n := by
      intro n
      unfold unstageOrphan
      split
      · exact clearStaged_plan u.store n
      · rfl
    refine ⟨?_, this⟩
    show unstageOrphan o.adoption.plan u = { u with store := (unstageOrphan o.adoption.plan u).store }
    unfold unstageOrphan
    split <;> rfl

/-! ### The reports of a hand-back -/

/-- A report adds one to the queue at the most (R208). -/
theorem post_length (b : ReportBody) (u : State) : (post b u).port.reports.length ≤ u.port.reports.length + 1 := by
  by_cases h : u.port.reports.length < 32
  · rw [post_room b u h]; simp
  · rw [(post_full b u (by omega)).1]; omega

theorem emptyStaged_port (u : State) : (emptyStaged u).port = u.port := by
  unfold emptyStaged; split <;> rfl

theorem setSeq_length (state : SeqState) (u : State) :
    (setSeq state u).port.reports.length ≤ u.port.reports.length + 1 := by
  unfold setSeq
  split
  · omega
  · exact post_length _ _

theorem setCoord_length (state : CoordState) (cause : Option SuspensionCause) (u : State) :
    (setCoord state cause u).port.reports.length ≤ u.port.reports.length + 1 := by
  unfold setCoord
  split
  · omega
  · exact post_length _ _

theorem chooseResume_length (o : Option Override) (u : State) :
    (chooseResume o u).port.reports.length ≤ u.port.reports.length + 2 := by
  unfold chooseResume
  split
  · dsimp only
    have inner : ∀ v : State, v.port = u.port → ∀ a : Adoption,
        (if v.coord.active = some a then emptyStaged v
          else post (.planAdopted a .resume) (emptyStaged (putInService a v))).port.reports.length
          ≤ u.port.reports.length + 2 := by
      intro v hv a
      split
      · rw [emptyStaged_port, hv]; omega
      · have := post_length (.planAdopted a .resume) (emptyStaged (putInService a v))
        rw [emptyStaged_port] at this
        have e : (putInService a v).port = u.port := hv
        rw [e] at this
        omega
    cases o with
    | none => exact inner _ rfl _
    | some o => exact inner { u with coord.requested := some o.adoption } rfl _
  · rename_i o' _
    have := post_length (.planAdopted o'.adoption .resume)
      (emptyStaged { putInService o'.adoption u with coord.requested := some o'.adoption })
    rw [emptyStaged_port] at this
    exact Nat.le_trans this (Nat.add_le_add_left (by decide) _)
  · rename_i a _
    dsimp only
    cases o with
    | none => exact Nat.le_trans (post_length _ _) (Nat.add_le_add_left (by decide) _)
    | some o =>
      refine Nat.le_trans (post_length _ _) ?_
      have := post_length (.adoptionFailed o.adoption.plan .activate) u
      show (post (.adoptionFailed o.adoption.plan .activate) u).port.reports.length + 1 ≤ _
      omega
  · cases o with
    | none => exact Nat.le_add_right _ _
    | some o => exact Nat.le_trans (post_length _ _) (Nat.add_le_add_left (by decide) _)

theorem beginNominal_length (e : Nat) (left : Option (TrailOccasion × Nat)) (u : State) (hs : u.Settled)
    (ho : u.coord.overrunRaised = false) :
    (beginNominal e left u).port.reports.length ≤ u.port.reports.length + 3 := by
  have leave : (leaveSuspended u).port.reports.length ≤ u.port.reports.length + 1 := by
    rw [leaveSuspended_eq u hs ho]
    split
    · exact setCoord_length _ _ _
    · exact setCoord_length .correcting none { u with coord.transition := none }
  have green : ∀ v : State, (beginGreen e left v).port.reports.length ≤ v.port.reports.length + 1 := by
    intro v
    unfold beginGreen
    split
    · omega
    · split
      · omega
      · dsimp only
        rw [command_port, command_port]
        split
        · unfold trail
          split
          · exact Nat.le_succ _
          · exact post_length _ _
        · exact Nat.le_succ _
  unfold beginNominal
  split
  · omega
  · rename_i p _
    dsimp only
    have := green (setSeq .run (handFigures (nominalFigures p.plan) ((nominalFigures p.plan).bound e) (leaveSuspended u)))
    have := setSeq_length .run (handFigures (nominalFigures p.plan) ((nominalFigures p.plan).bound e) (leaveSuspended u))
    have q : (handFigures (nominalFigures p.plan) ((nominalFigures p.plan).bound e) (leaveSuspended u)).port =
      (leaveSuspended u).port := by
      unfold handFigures
      rfl
    rw [q] at this
    omega

/-- The junction handed back (R160): the cycle that begins and the controller at rest. -/
theorem handBack_back (u : State) (i : PreemptInput) (hu : u.store.Sound) (hs : u.Settled)
    (ho : u.coord.overrunRaised = false) (hr : u.preempt.running = some i) :
    ∀ (r : SaveRecord) (a : Adoption) (k : Nat) (p : StoredPlan) (st : StageRecord), u.preempt.save = some r →
      ResumeChoice u r a k → u.storedPlan a.plan = some p → p.plan.number = a.plan →
      let e := if p.plan.stageCount < k then 1 else k
      let t := handBack u
      p.plan.stage e = some st →
      NominalBegun u t a p e st (some (u.route i).yellow) ∧ t.preempt.state = .idle ∧ t.preempt.running = none
        ∧ t.preempt.waiting = none ∧ t.preempt.save = none ∧ t.preempt.clearing = [] := by
  intro r a k p st hsave hc hp hn e t hst
  obtain ⟨c1, c2, c3, c4, c5, c6⟩ := chooseResume_chosen u hu r a k p hc hp
  have eq : handBack u =
      post (.preemptEnded r.source (u.resumePlan (u.resumeCase r.override))
          (u.resumeStage (u.resumeCase r.override) r.resumeStage) (r.duration u.clock.reading))
        { setPreempt .idle (some i) (unstageOverride r.override (resume r.resumeStage r.override (u.route i).yellow u)) with
          preempt :=
            (setPreempt .idle (some i)
              (unstageOverride r.override (resume r.resumeStage r.override (u.route i).yellow u))).preempt.atRest } := by
    unfold handBack
    rw [hsave, hr]
  have res : resume r.resumeStage r.override (u.route i).yellow u =
      beginNominal e (some (.resume, (u.route i).yellow)) (chooseResume r.override u) := by
    unfold resume
    rw [c2]
  generalize chooseResume r.override u = v at c3 c4 c5 c6 res
  have vs : v.Settled := by unfold State.Settled at hs ⊢; rw [c6, c3]; exact hs
  have vcoord : v.coord = { u.coord with active := some a, staged := none, requested := v.coord.requested } := by
    rw [c3]
  obtain ⟨n1, n2, n3, n4, n5, n6, n7⟩ :=
    beginNominal_begun v a p e st (some (.resume, (u.route i).yellow)) vs (by rw [vcoord]; exact ho) (by rw [vcoord])
      (by rw [vcoord]) ((c4 _).trans hp) hn hst
  rw [← res] at n1 n2 n3 n4 n5 n6 n7
  obtain ⟨o1, o2⟩ := unstageOverride_eq r.override (resume r.resumeStage r.override (u.route i).yellow u)
  have tc : (handBack u).coord = (resume r.resumeStage r.override (u.route i).yellow u).coord
      ∧ (handBack u).seq = (resume r.resumeStage r.override (u.route i).yellow u).seq
      ∧ (handBack u).bank = (resume r.resumeStage r.override (u.route i).yellow u).bank := by
    rw [eq, post_coord, post_seq, post_bank]
    simp only [setPreempt_coord, setPreempt_seq, setPreempt_bank]
    rw [o1]
    exact ⟨rfl, rfl, rfl⟩
  have us : v.isolating = u.isolating ∧ v.seq = u.seq ∧ v.bank = u.bank := by
    rw [c3]; exact ⟨rfl, rfl, rfl⟩
  refine ⟨⟨?_, ?_, ?_, ?_, ?_, ?_, ?_, ?_, ?_⟩, ?_, ?_, ?_, ?_, ?_⟩
  · rw [tc.1]; exact n1.active
  · rw [tc.1]; exact n1.staged
  · rw [tc.1, tc.2.1]; exact n1.figures
  · rw [tc.1]; exact n1.position
  · rw [tc.1, ← us.1]; exact n1.state
  · rw [tc.1, ← us.1]; exact n1.transition
  · rw [tc.2.1]; exact n1.sequencer
  · rw [tc.2.1]; exact n1.served
  · have g := n1.green
    refine ⟨?_, ?_, ?_, ?_⟩
    · rw [tc.2.1]; exact g.run
    · rw [tc.2.1, ← us.2.1]; exact g.latches
    · rw [tc.2.1, ← us.2.1, ← us.2.2]; exact g.trailing
    · rw [tc.2.2, ← us.2.1, ← us.2.2]; exact g.bank
  all_goals
    simp only [t]
    rw [eq, post_preempt]
    simp [Preemption.atRest]

/-- The requested record, the slots and the report at a hand-back (R101, R104, R160). -/
theorem handBack_resumed (u : State) (i : PreemptInput) (hu : u.store.Sound) (hs : u.Settled)
    (ho : u.coord.overrunRaised = false) (hr : u.preempt.running = some i) (r : SaveRecord) (a : Adoption) (k : Nat)
    (p : StoredPlan) (st : StageRecord) (hsave : u.preempt.save = some r) (hc : ResumeChoice u r a k)
    (hp : u.storedPlan a.plan = some p) (hn : p.plan.number = a.plan) :
    let e := if p.plan.stageCount < k then 1 else k
    p.plan.stage e = some st →
    Resumed u (handBack u) r a e
      ∧ (u.port.reports.length ≤ 24 →
        { time := u.clock.reading
          body := .preemptEnded r.source a.plan e ((u.clock.reading.diff r.entry / 100).toNat) } ∈
            (handBack u).port.reports) := by
  intro e hst
  obtain ⟨c1, c2, c3, c4, c5, c6⟩ := chooseResume_chosen u hu r a k p hc hp
  have chosen := chooseResume_chosen_slots u hu r a k p hc hp
  have clen := chooseResume_length r.override u
  let x := resume r.resumeStage r.override (u.route i).yellow u
  let y := setPreempt .idle (some i) (unstageOverride r.override x)
  have eq : handBack u =
      post (.preemptEnded r.source a.plan e (r.duration u.clock.reading)) { y with preempt := y.preempt.atRest } := by
    unfold handBack
    rw [hsave, hr]
    dsimp only
    rw [c1, c2]
  have res : x = beginNominal e (some (.resume, (u.route i).yellow)) (chooseResume r.override u) := by
    show resume _ _ _ _ = _
    unfold resume
    rw [c2]
  generalize chooseResume r.override u = v at c3 c4 c5 c6 res chosen clen
  have vs : v.Settled := by unfold State.Settled at hs ⊢; rw [c6, c3]; exact hs
  have vcoord : v.coord = { u.coord with active := some a, staged := none, requested := v.coord.requested } := by
    rw [c3]
  have vo : v.coord.overrunRaised = false := by rw [vcoord]; exact ho
  obtain ⟨-, n2, n3, -⟩ :=
    beginNominal_begun v a p e st (some (.resume, (u.route i).yellow)) vs vo (by rw [vcoord])
      (by rw [vcoord]) ((c4 _).trans hp) hn hst
  have nlen := beginNominal_length e (some (.resume, (u.route i).yellow)) v vs vo
  rw [← res] at n2 n3 nlen
  obtain ⟨o1, -⟩ := unstageOverride_eq r.override x
  have coord : (handBack u).coord = x.coord := by
    rw [eq, post_coord]
    show y.coord = _
    rw [setPreempt_coord, o1]
  have slot : ∀ n, (handBack u).slot n = (unstageOverride r.override x).slot n := by
    intro n
    rw [eq]
    unfold State.slot
    rw [post_store]
    show y.store.slot n = _
    rw [setPreempt_store]
  have xslot : ∀ n, x.slot n = v.slot n := by
    intro n
    unfold State.slot
    rw [n2]
  have xstaged : x.coord.staged = none := by rw [n3, vcoord]
  have requested : (handBack u).coord.requested = v.coord.requested := by rw [coord, n3]
  have report : u.port.reports.length ≤ 24 →
      { time := u.clock.reading
        body := .preemptEnded r.source a.plan e ((u.clock.reading.diff r.entry / 100).toNat) } ∈
          (handBack u).port.reports := by
    intro h
    have clock : y.clock.reading = u.clock.reading := by
      show (setPreempt _ _ _).clock.reading = _
      rw [setPreempt_clock, o1]
      show x.clock.reading = _
      rw [n2, c3]
    have len : y.port.reports.length < 32 := by
      have l := post_length (.preemptState (unstageOverride r.override x).preempt.state .idle (some i))
        { unstageOverride r.override x with preempt.state := .idle }
      have q : y = post (.preemptState (unstageOverride r.override x).preempt.state .idle (some i))
        { unstageOverride r.override x with preempt.state := .idle } := rfl
      rw [← q] at l
      have m : ({ unstageOverride r.override x with preempt.state := .idle } : State).port = x.port := by
        show (unstageOverride r.override x).port = _
        rw [o1]
      rw [m] at l
      omega
    rw [eq, post_room _ { y with preempt := y.preempt.atRest } len]
    refine List.mem_append_right _ ?_
    rw [List.mem_singleton]
    show Report.mk u.clock.reading _ = Report.mk y.clock.reading _
    rw [clock]
    rfl
  refine ⟨⟨fun o h c => ?_, fun h => ?_, fun h => ?_, fun o h => ?_, fun h => report (by omega)⟩, report⟩
  · rw [requested]; exact chosen.1 o h c
  · rw [requested]; exact chosen.2.1 h
  · have act : (x.slot a.plan).state = .active := by rw [xslot]; exact chosen.2.2 h
    rw [slot]
    unfold unstageOverride
    split
    · unfold unstageOrphan
      split
      · show (x.store.clearStaged.slot a.plan).state = _
        rw [slot_clearStaged]
        have : (x.store.slot a.plan).state = .active := act
        simp [this]
      · exact act
    · exact act
  · rw [slot, h]
    show ((unstageOrphan o.adoption.plan x).slot o.adoption.plan).state ≠ _
    unfold unstageOrphan
    rw [xstaged]
    split
    · show (x.store.clearStaged.slot o.adoption.plan).state ≠ _
      rw [slot_clearStaged]
      by_cases q : (x.store.slot o.adoption.plan).state = .staged
      · rw [if_pos q]
        exact fun z => SlotState.noConfusion z
      · rw [if_neg q]
        exact q
    · rename_i n
      intro q
      exact n ⟨q, by simp⟩

/-- A run that begins directly from the aspects as they stand (R158). -/
theorem directRun_begun (w : PreemptInput) (u : State) :
    directRun w u =
        { u with
          bank := (directRun w u).bank, preempt := (directRun w u).preempt, port := (directRun w u).port }
      ∧ (directRun w u).preempt.running = some w
      ∧ (directRun w u).preempt.waiting = (if u.preempt.waiting = some w then none else u.preempt.waiting)
      ∧ (directRun w u).preempt.save = u.preempt.save ∧ (directRun w u).preempt.expected = none
      ∧ (directRun w u).preempt.pe1 = u.preempt.pe1 ∧ (directRun w u).preempt.pe2 = u.preempt.pe2
      ∧ (directRun w u).preempt.stuckRaised = u.preempt.stuckRaised
      ∧ (directRun w u).port.part = u.port.part ∧ (directRun w u).port.config = u.port.config
      ∧ EnteringCleared u.bank (u.route w).track (u.preempt.clearing ++ newClearing u (u.route w).track) u.preempt.allRed
        (directRun w u) := by
  obtain ⟨z, hz⟩ : ∃ z, z = setPreempt .entering (some w)
      { u with
        preempt.running := some w
        preempt.waiting := if u.preempt.waiting = some w then none else u.preempt.waiting
        preempt.expected := none, preempt.dwell := 0 } := ⟨_, rfl⟩
  have eq : directRun w u = clearOutside z := by rw [hz]; rfl
  have z1 : z =
      { u with
        preempt :=
          { u.preempt with
            state := .entering, running := some w
            waiting := if u.preempt.waiting = some w then none else u.preempt.waiting
            expected := none, dwell := 0 }
        port := z.port } := by
    rw [hz, setPreempt_eq]
  have zp : z.port.part = u.port.part ∧ z.port.config = u.port.config := by rw [hz]; simp
  clear hz
  have zroute : z.route w = u.route w := by cases w <;> simp only [State.route, State.cfg, zp.2]
  obtain ⟨k, e⟩ := clearOutside_cleared z w (by rw [z1]) (by rw [z1])
  have nc : newClearing z (u.route w).track = newClearing u (u.route w).track := by
    unfold newClearing; rw [z1]
  rw [zroute, nc] at e
  rw [eq]
  refine ⟨?_, ?_, ?_, ?_, ?_, ?_, ?_, ?_, k.part.trans zp.1, k.config.trans zp.2, ?_⟩
  · rw [k.eq, z1]
  · rw [k.running, z1]
  · rw [k.waiting, z1]
  · rw [k.save, z1]
  · rw [k.expected, z1]
  · rw [k.inputs.1, z1]
  · rw [k.inputs.2, z1]
  · rw [k.stuck, z1]
  · have : z.bank = u.bank ∧ z.preempt.clearing = u.preempt.clearing ∧ z.preempt.allRed = u.preempt.allRed := by
      rw [z1]; exact ⟨rfl, rfl, rfl⟩
    rw [this.1, this.2.1, this.2.2] at e
    exact e

/-- The junction handed back (R160), with what becomes of the requested record, the slots and the reports. -/
theorem handBack_handedBack (u : State) (i : PreemptInput) (hu : u.store.Sound) (hs : u.Settled)
    (ho : u.coord.overrunRaised = false) (hr : u.preempt.running = some i) : HandedBack u (handBack u) (u.route i).yellow := by
  intro r a k p st h1 h2 h3 h4 e h5
  obtain ⟨n, rest⟩ := handBack_back u i hu hs ho hr r a k p st h1 h2 h3 h4 h5
  exact ⟨n, (handBack_resumed u i hu hs ho hr r a k p st h1 h2 h3 h4 h5).1, rest⟩

/-- LEAVING entered, or the junction handed back where nothing has to clear (R159). -/
theorem endDwell_ended (u : State) (i : PreemptInput) (hu : u.store.Sound) (hs : u.Settled)
    (ho : u.coord.overrunRaised = false) (hr : u.preempt.running = some i) (hc : u.preempt.clearing = [])
    (ha : u.preempt.allRed = none) : DwellEnded u (endDwell u) i := by
  refine ⟨fun w hw hact => ?_, fun hno r a k p st hsave hch hp hst => ?_⟩
  · have eq : endDwell u = directRun w u := by
      unfold endDwell
      simp [hw, hact]
    obtain ⟨-, d2, d3, -, -, -, -, -, -, -, d4⟩ := directRun_begun w u
    rw [hc, ha, List.nil_append] at d4
    rw [eq]
    exact ⟨d2, by rw [d3, if_pos hw], d4⟩
  · have eq : endDwell u = enterLeaving u := by
      unfold endDwell
      cases hw : u.preempt.waiting with
      | none => rfl
      | some w => simp [hno w hw]
    obtain ⟨c1, c2, -⟩ := chooseResume_chosen u hu r a k p hch hp
    have exp : u.expectedSet r.resumeStage r.override = st.green := by
      unfold State.expectedSet State.greenSet State.stageOf
      dsimp only
      rw [c1, c2, hp]
      simp [hst]
    let v : State := setPreempt .leaving u.preempt.running { u with preempt.expected := some st.green }
    have vb : v.bank = u.bank := by simp [v]
    let w : State := command (u.leftGreen st.green) .yellow { v with preempt := v.preempt.startClearing (u.leftGreen st.green) }
    have cl : w.preempt.clearing = newClearing u st.green := by
      show (v.preempt.startClearing (u.leftGreen st.green)).clearing = _
      unfold Preemption.startClearing newClearing
      rw [members_eq]
      simp [v, hc]
    have eqL : enterLeaving u = if w.preempt.clearing.isEmpty then handBack w else w := by
      unfold enterLeaving
      rw [hsave]
      simp only [exp]
      rfl
    have cleared := (redriven_command u.bank (u.leftGreen st.green) .yellow).congr
      (k := fun g => if u.bank.drive[g] = .green ∧ inSet g st.green = false then .yellow else u.bank.drive[g])
      (fun _ g => by simp [State.leftGreen])
    have wb : w.bank = u.bank.command (u.leftGreen st.green) .yellow := by
      show v.bank.command _ _ = _; rw [vb]
    rw [eq, eqL, cl]
    refine ⟨fun hne => ?_, fun hall => ?_⟩
    · have : (newClearing u st.green).isEmpty = false := by simpa using hne
      simp only [this]
      refine ⟨by simp [w, command, v, Preemption.startClearing], by simp [w, command, v, Preemption.startClearing, hr],
        by simp [w, command, v, Preemption.startClearing], cl, ?_⟩
      simp only [Bool.false_eq_true, if_false]
      rw [wb]; exact cleared
    · have nil : newClearing u st.green = [] := by
        unfold newClearing
        rw [List.filter_eq_nil_iff.mpr, List.filterMap_nil]
        intro g _
        simp only [Bool.and_eq_true, decide_eq_true_eq, Bool.not_eq_true', not_and, Bool.not_eq_false]
        exact hall g
      simp only [nil, List.isEmpty_nil, if_true]
      have wstore : w.store = u.store := by simp [w, command, v]
      have wcoord : w.coord = u.coord := by simp [w, command, v]
      have wset : w.Settled := by
        unfold State.Settled at hs ⊢
        simpa [w, command, v] using hs
      have wr : w.preempt.running = some i := by simp [w, command, v, Preemption.startClearing, hr]
      have hb := handBack_back w i (by rw [wstore]; exact hu) wset (by rw [wcoord]; exact ho) wr
      have wcfg : w.cfg = u.cfg := by unfold State.cfg; simp [w, command, v]
      have wroute : w.route i = u.route i := by cases i <;> simp [State.route, wcfg]
      have wsp : ∀ n, w.storedPlan n = u.storedPlan n := fun n => by simp [State.storedPlan, State.slot, wstore]
      intro r' a' k' p' st' h1 h2 h3 h4 e' h5
      have choice : ResumeChoice w r' a' k' := by
        unfold ResumeChoice State.slot at *
        rw [wcoord, wcfg, wstore]
        exact h2
      have got := hb r' a' k' p' st' (by simpa [w, command, v, Preemption.startClearing] using h1) choice ((wsp _).trans h3) h4 h5
      rw [wroute] at got
      have wbank : Redriven u.bank w.bank fun g => u.bank.drive[g] := by
        rw [wb]
        refine cleared.congr fun _ g => ?_
        by_cases hg : u.bank.drive[g] = .green
        · simp [hall g hg]
        · rw [if_neg]; rintro ⟨h, -⟩; exact hg h
      have wseq : w.seq = u.seq := by simp [w, command, v]
      have wiso : w.isolating = u.isolating := by unfold State.isolating; simp [w, command, v]
      have drives : ∀ g : Group, w.bank.drive[g] = u.bank.drive[g] := by
        intro g
        cases hf : u.bank.flash with
        | false => exact (wbank.2.2 hf g).1
        | true => rw [wbank.2.1 hf]
      obtain ⟨n, rest⟩ := got
      obtain ⟨q, posted⟩ := handBack_resumed w i (by rw [wstore]; exact hu) wset (by rw [wcoord]; exact ho) wr r' a' k' p' st'
        (by simpa [w, command, v, Preemption.startClearing] using h1) choice ((wsp _).trans h3) h4 h5
      have resumed : Resumed u (handBack w) r' a' e' := by
        have slots : ∀ n, w.slot n = u.slot n := fun n => by simp [State.slot, wstore]
        have clock : w.clock.reading = u.clock.reading := by simp [w, command, v]
        have len : w.port.reports.length ≤ u.port.reports.length + 1 := by
          show v.port.reports.length ≤ _
          exact post_length _ { u with preempt.expected := some st.green, preempt.state := .leaving }
        have q1 := q.overridden
        have q2 := q.requested
        have q3 := q.activated
        simp only [wcoord, slots] at q1 q2 q3
        rw [clock] at posted
        exact ⟨q1, q2, q3, q.unstaged, fun h => posted (by omega)⟩
      refine ⟨⟨n.active, n.staged, n.figures, n.position, wiso ▸ n.state, wiso ▸ n.transition, n.sequencer, n.served, ?_⟩,
        resumed, rest⟩
      have g := n.green
      refine ⟨g.run, wseq ▸ g.latches, ?_, ?_⟩
      · have := g.trailing
        rw [wseq] at this
        rw [this]
        simp only [drives]
      · have q := g.bank
        simp only [drives, wseq] at q
        refine (wbank.trans q ?_)
        intro _ _ _
        rfl

end Sys2Proof.Machine
end

