-- ==== Sys2Proof/Laws/Cycle.lean ====
section
/-! SUPPORT. The cycle end: what a staged adoption, a raising configured REPORT and the measure leave (R86, R89 to R93). -/

namespace Sys2Proof.Machine

set_option Elab.async false

/-- A record of a class configured REPORT leaves the effective action as it is (R172). -/
theorem mostSevere_report (s : State) (c : FaultClass) (r : FaultRecord) (h : s.Settled) (hc : actionOf s.port.config c = some .report) :
    mostSevere s.port.config (s.faults.setRecord c r) = s.faults.effective := by
  rw [h]
  unfold mostSevere
  congr 1
  funext a d
  congr 1
  unfold contribution
  rw [record_setRecord]
  by_cases k : d = c
  · subst k; simp [hc]
  · simp [k]

/-- A staged adoption whose wait is over becomes the active plan, and its slot ACTIVE (R86). -/
theorem takeStaged_activates (v : State) (x : StagedAdoption) (p : StoredPlan) (hv : v.Settled) (hst : v.store.Sound)
    (ho : v.coord.overrunRaised = false) (hx : v.coord.staged = some x) (hw : ¬ 2 ≤ x.wait) (hp : v.storedPlan x.adoption.plan = some p) :
    takeStaged v = { v with
        coord := { v.coord with active := some x.adoption, staged := none, transition := none }
        store := (takeStaged v).store, port := (takeStaged v).port }
      ∧ (∀ n, (takeStaged v).storedPlan n = v.storedPlan n)
      ∧ (takeStaged v).port.part = v.port.part ∧ (takeStaged v).port.config = v.port.config
      ∧ ((takeStaged v).slot x.adoption.plan).state = .active := by
  obtain ⟨q1, q2, q3⟩ := putInService_eq x.adoption v hst hp
  have e : takeStaged v = post (.planAdopted x.adoption .cycleEnd) (abandonTransition { putInService x.adoption v with coord.staged := none }) := by
    unfold takeStaged; rw [hx]; simp only [hw, if_false]
  have e2 : abandonTransition { putInService x.adoption v with coord.staged := none } =
      { putInService x.adoption v with coord.staged := none, coord.transition := none } := by
    rw [abandonTransition_quiet]
    · unfold State.Settled at *; simp only; rw [q1]; exact hv
    · simp only; rw [q1]; exact ho
  rw [e2] at e
  rw [e]
  refine ⟨?_, fun n => ?_, ?_, ?_, ?_⟩
  · rw [post_port_eq, q1]
  · rw [post_storedPlan]; exact q2 n
  · rw [post_port_part, q1]
  · rw [post_port_config, q1]
  · rw [post_slot]; exact q3

/-- A raising of a class configured REPORT changes its record and the reports alone (R170). -/
theorem raise_report (c : FaultClass) (d : Option Nat) (s : State) (h : s.Settled) (hr : s.port.part = .running) (hc : actionOf s.port.config c = some .report) :
    raise c d s = { s with faults := (raise c d s).faults, port := (raise c d s).port }
    ∧ ((raise c d s).faults.record c).state = .active ∧ ((raise c d s).faults.record c).detail = d
    ∧ (raise c d s).port.part = s.port.part ∧ (raise c d s).port.config = s.port.config := by
  have run : s.running = true := by simp [State.running, hr]
  have key : raise c d s = raiseRecord c d s := by
    unfold raise
    apply settleAction_settled
    unfold State.Settled raiseRecord
    simp only [run, if_true]
    split
    · exact (mostSevere_report s c _ h hc).symm
    · simp only [post_faults, post_port_config]; exact (mostSevere_report s c _ h hc).symm
    · simp only [post_faults, post_port_config]; exact (mostSevere_report s c _ h hc).symm
  rw [key]
  unfold raiseRecord
  simp only [run, if_true]
  split
  · rename_i ha; refine ⟨rfl, ?_, ?_, rfl, rfl⟩ <;> simp [record_setRecord, ha]
  · exact ⟨by rw [post_faults]; exact post_port_eq _ _, by simp [record_setRecord], by simp [record_setRecord], by simp, by simp⟩
  · exact ⟨by rw [post_faults]; exact post_port_eq _ _, by simp [record_setRecord], by simp [record_setRecord], by simp, by simp⟩

/-- Nothing but the Coordinator and the reports has changed. -/
structure CoordOnly (s t : State) : Prop where
  eq : t = { s with coord := t.coord, port := t.port }
  part : t.port.part = s.port.part
  config : t.port.config = s.port.config

theorem CoordOnly.settled {s t : State} (h : CoordOnly s t) (k : s.Settled) : t.Settled := by
  unfold State.Settled at *; rw [h.config, h.eq]; exact k

/-- The counter goes down with a corrected cycle (R93). -/
theorem countCycle_coordOnly (s : State) : CoordOnly s (countCycle s) ∧ (countCycle s).coord = { s.coord with transition := (countCycle s).coord.transition }
   ∧ (countCycle s).coord.transition = s.coord.transition.map (fun t => if t.direction = .pending then t else { t with counter := t.counter - 1 }) := by
  unfold countCycle
  cases h : s.coord.transition with
  | none => exact ⟨⟨rfl, rfl, rfl⟩, by simp [h]; rw [← h], by simp [h]⟩
  | some t =>
    by_cases k : t.direction = .pending
    · simp only [k, if_true]; exact ⟨⟨rfl, rfl, rfl⟩, trivial, by simp [h, k]⟩
    · simp only [k, if_false]; exact ⟨⟨rfl, rfl, rfl⟩, by first | rfl | simp, by simp [k]⟩

/-- What the measure makes of the coming cycle (R89 to R93). -/
theorem comingCycle_coordOnly (a : Adoption) (p : StoredPlan) (u : State) (hs : u.Settled) (ho : u.coord.overrunRaised = false) (hst : u.coord.state = .isolated ∨ u.coord.state = .correcting ∨ u.coord.state = .coordinated) :
   let c := comingCycle a p u
   let m := measureOf p.plan a.reference u.clock.reading
   let near := m.toShorten ≤ p.plan.tolerance ∨ m.toLengthen ≤ p.plan.tolerance
   let going := u.coord.transition.filter fun x => decide (x.direction ≠ .pending)
   CoordOnly u c.1 ∧ c.1.coord = { u.coord with state := c.1.coord.state, cause := c.1.coord.cause, transition := c.1.coord.transition, measure := c.1.coord.measure }
   ∧ (u.coord.state = .isolated → c.1 = u ∧ c.2.1 = nominalFigures p.plan ∧ c.2.2 = false)
   ∧ (u.coord.state ≠ .isolated → c.1.coord.measure = some m
        ∧ (near → c.1.coord.state = .coordinated ∧ c.1.coord.transition = none ∧ c.2.1 = nominalFigures p.plan ∧ c.2.2 = false)
        ∧ (¬ near → going = none →
          let d := chooseDirection p m
          let k := min (m.remaining d) (p.limit d)
          c.1.coord.state = .correcting ∧ c.2.1 = correctedFigures p d k
            ∧ c.1.coord.transition = some { direction := d, counter := p.plan.transitions, amount := k }
            ∧ c.2.2 = false)
        ∧ (¬ near → ∀ x, going = some x →
          let k := min (m.remaining x.direction) (p.limit x.direction)
          c.1.coord.state = u.coord.state ∧ c.2.1 = correctedFigures p x.direction k
            ∧ c.1.coord.transition = some { x with counter := x.counter - 1, amount := k }
            ∧ c.2.2 = decide (x.counter ≤ 1))) := by
  intro c m near going
  by_cases hi : u.coord.state = .isolated
  · have : c = (u, nominalFigures p.plan, false) := by show comingCycle a p u = _; unfold comingCycle; rw [hi]
    rw [this]
    exact ⟨⟨rfl, rfl, rfl⟩, rfl, fun _ => ⟨rfl, rfl, rfl⟩, fun h => absurd hi h⟩
  have : c = judge p a.reference u := by
    show comingCycle a p u = _; unfold comingCycle
    rcases hst with h | h | h
    · exact absurd h hi
    · rw [h]
    · rw [h]
  rw [this]
  clear this c
  obtain ⟨r1, r2, r3⟩ := countCycle_coordOnly { u with coord.measure := some m }
  have rs : (countCycle { u with coord.measure := some m }).Settled := r1.settled hs
  have jd : judge p a.reference u = (if m.within p.plan.tolerance then (abandonTransition (setCoord .coordinated none (countCycle { u with coord.measure := some m })), nominalFigures p.plan, false)
     else if (countCycle { u with coord.measure := some m }).coord.correctingNow then
       ((applyAmount p m (countCycle { u with coord.measure := some m })).1, (applyAmount p m (countCycle { u with coord.measure := some m })).2, (countCycle { u with coord.measure := some m }).coord.overruns)
     else ((applyAmount p m (beginTransition p m (countCycle { u with coord.measure := some m }))).1, (applyAmount p m (beginTransition p m (countCycle { u with coord.measure := some m }))).2, false)) := rfl
  generalize countCycle { u with coord.measure := some m } = v at *
  have hv : v.coord.overrunRaised = false := by rw [r2]; exact ho
  have hwi : m.within p.plan.tolerance = decide near := by simp [Measure.within, near]
  rw [jd, hwi]
  have r3' : v.coord.transition = u.coord.transition.map (fun t => if t.direction = .pending then t else { t with counter := t.counter - 1 }) := r3
  by_cases hn : near
  · rw [decide_eq_true hn, if_pos rfl]
    have e : abandonTransition (setCoord .coordinated none v) = { setCoord .coordinated none v with coord.transition := none } := by
      rw [abandonTransition_quiet]
      · unfold State.Settled; simp; exact rs
      · simp [hv]
    rw [e]
    refine ⟨⟨?_, ?_, ?_⟩, ?_, fun h => absurd h hi, fun _ => ⟨?_, fun _ => ⟨?_, rfl, rfl, rfl⟩, fun h => absurd hn h, fun h => absurd hn h⟩⟩
    · rw [setCoord_eq]; simp only; rw [r1.eq]
    · simp only [setCoord_part]; exact r1.part
    · simp only [setCoord_config]; exact r1.config
    · simp only [setCoord_coord]; rw [r2]
    · simp only [setCoord_coord]; rw [r2]
    · simp only [setCoord_coord]
  · rw [decide_eq_false hn, if_neg Bool.false_ne_true]
    cases ht : u.coord.transition.filter fun x => decide (x.direction ≠ .pending) with
    | none =>
      have cn : v.coord.correctingNow = false := by
        unfold Coordinator.correctingNow
        rw [r3']
        cases hu : u.coord.transition with
        | none => simp
        | some t =>
          rw [hu] at ht
          simp [Option.filter] at ht
          simp [ht]
      rw [cn, if_neg Bool.false_ne_true]
      have bt : (beginTransition p m v).coord = { v.coord with state := .correcting, cause := none, transition := some { direction := chooseDirection p m, counter := p.plan.transitions, amount := 0 } } := by
        unfold beginTransition; simp
      have br : CoordOnly v (beginTransition p m v) := by
        unfold beginTransition
        refine ⟨?_, by simp, by simp⟩
        simp only
        rw [post_port_eq, setCoord_eq]
      have ap : applyAmount p m (beginTransition p m v) = ({ beginTransition p m v with coord.transition := some { direction := chooseDirection p m, counter := p.plan.transitions, amount := min (m.remaining (chooseDirection p m)) (p.limit (chooseDirection p m)) } }, correctedFigures p (chooseDirection p m) (min (m.remaining (chooseDirection p m)) (p.limit (chooseDirection p m)))) := by
        have bx : (beginTransition p m v).coord.transition = _ := congrArg Coordinator.transition bt
        unfold applyAmount
        rw [bx]
      rw [ap]
      refine ⟨⟨?_, br.part.trans r1.part, br.config.trans r1.config⟩, ?_, fun h => absurd h hi, fun _ => ⟨?_, fun h => absurd h hn, fun _ _ => ⟨?_, rfl, rfl, rfl⟩, fun _ x h => (by simp [going, ht] at h)⟩⟩
      · simp only; rw [br.eq, r1.eq]
      · simp only; rw [bt, r2]
      · simp only; rw [bt, r2]
      · simp only; rw [bt]
    | some x =>
      obtain ⟨hu, hd⟩ : u.coord.transition = some x ∧ x.direction ≠ .pending := by
        cases h : u.coord.transition with
        | none => rw [h] at ht; simp at ht
        | some t =>
          rw [h] at ht; simp [Option.filter] at ht
          obtain ⟨a, b⟩ := ht
          subst b; exact ⟨rfl, a⟩
      have vt : v.coord.transition = some { x with counter := x.counter - 1 } := by rw [r3', hu]; simp [hd]
      have cn : v.coord.correctingNow = true := by unfold Coordinator.correctingNow; rw [vt]; simp [hd]
      rw [cn, if_pos rfl]
      have ap : applyAmount p m v = ({ v with coord.transition := some { x with counter := x.counter - 1, amount := min (m.remaining x.direction) (p.limit x.direction) } }, correctedFigures p x.direction (min (m.remaining x.direction) (p.limit x.direction))) := by
        unfold applyAmount; rw [vt]
      rw [ap]
      refine ⟨⟨?_, r1.part, r1.config⟩, ?_, fun h => absurd h hi, fun _ => ⟨?_, fun h => absurd h hn, fun _ h => (by simp [going, ht] at h), fun _ y h => ?_⟩⟩
      · simp only; rw [r1.eq]
      · simp only; rw [r2]
      · simp only; rw [r2]
      · have : y = x := by simp [going, ht] at h; exact h.symm
        subst this
        refine ⟨by simp only; rw [r2], rfl, rfl, ?_⟩
        simp [Coordinator.overruns, hv, vt]
        omega

end Sys2Proof.Machine
end

