-- ==== Sys2Proof/Tests/Slice0.lean ====
section
/-! SUPPORT. Tests: ill-formed commands, the spec's worked figures, and for every statement of the certificates that has
hypotheses a state and operands that meet them (`witness_<statement>`). -/

open Sys2Proof Sys2Proof.Machine

namespace Sys2Proof.Tests

set_option Elab.async false

set_option maxRecDepth 20000

/-! ### Ill-formed commands -/

theorem test_body_of_256_bytes_is_ill_formed : wellFormed (.identify 0 (List.replicate 256 0)) = false := by decide
theorem test_known_code_is_no_unknown_request : wellFormed (.unknownRequest 0x41 0 []) = false := by decide
theorem test_unknown_request_body_limit : wellFormed (.unknownRequest 0x42 0 (List.replicate 256 0)) = false := by decide
theorem test_sound_packet_is_not_malformed : wellFormed (.malformedRequest (requestPacket 0x01 7 [])) = false := by decide
theorem test_time_frame_of_10_bytes_is_ill_formed : wellFormed (.timeFrameReceived 3 (List.replicate 10 0)) = false := by
  decide
theorem test_order_frame_of_27_bytes_is_ill_formed : wellFormed (.orderFrameReceived 3 (List.replicate 27 0)) = false := by
  decide
theorem test_cancel_frame_of_19_bytes_is_ill_formed : wellFormed (.cancelFrameReceived 3 (List.replicate 19 0)) = false := by
  decide
theorem test_valid_frame_is_not_rejected :
    wellFormed (.frameRejected false 3 9 (List.replicate 18 0) (frameCrc 3 9 (List.replicate 18 0))) = false := by decide
theorem test_rejected_body_limit : wellFormed (.frameRejected true 3 9 (List.replicate 29 0) 0) = false := by decide
theorem test_length_28_does_not_exceed : wellFormed (.bodyLengthExceeded 28) = false := by decide
theorem test_repeat_stamp_in_the_week : wellFormed (.repeatInstant ⟨0, 604800000⟩) = false := by decide
theorem test_end_stamp_in_the_weeks : wellFormed (.issuedEndInstant ⟨65536, 0⟩) = false := by decide

/-! ### The spec's worked figures -/

/-- 02, "an integrator who checks a host's CRC routine". -/
theorem test_crc_of_the_nine_digits :
    crc16 [0x31, 0x32, 0x33, 0x34, 0x35, 0x36, 0x37, 0x38, 0x39] = 0x29B1#16 := by decide

/-- An IDENTIFY packet is read as IDENTIFY (R215: code 01, sequence number 7, length 0, CRC). -/
theorem test_packet_of_identify :
    commandOfPacket ([0x01#8, 7, 0] ++ be 2 (crc16 [0x01#8, 7, 0]).toNat) = .identify 7 [] := by decide

/-- Plan 7 of the worked sequences (02, "validating plan 7"). -/
def planSeven : PlanRecord :=
  { number := 7, cycle := 1000, offset := 250, tolerance := 10, lengthen := 20, shorten := 15, transitions := 4
    stageCount := 4
    stages :=
      [{ green := 0x0303, split := 450, gmin := 100, ped := 200, yellow := 40, allRed := 20, demandClass := 0
         demandInput := 0 },
       { green := 0x000C, split := 200, gmin := 80, ped := 0, yellow := 40, allRed := 20, demandClass := 1
         demandInput := 3 },
       { green := 0x0430, split := 200, gmin := 80, ped := 120, yellow := 40, allRed := 20, demandClass := 0
         demandInput := 0 },
       { green := 0x00C0, split := 150, gmin := 60, ped := 0, yellow := 40, allRed := 20, demandClass := 1
         demandInput := 7 }] }

/-- 02, "validating plan 7": spares 190, 60, 20 and 30, 300 together. -/
theorem test_spares_of_plan_seven :
    (storedFrom planSeven).spares = [190, 60, 20, 30] ∧ (storedFrom planSeven).spareSum = 300 := by decide

/-- 02: stage 1 ON_CALL fails before the split of stage 3 does; then SPLIT_SHORT with stage 3. -/
theorem test_stage_one_on_call_is_found_first :
    planRefusal PlanStore.reset
        { planSeven with
          stages := planSeven.stages.mapIdx fun k st =>
            if k = 0 then { st with demandClass := 1, demandInput := 1 } else if k = 2 then { st with ped := 150 } else st } =
      some (invalid .stage1OnCall 1)
    ∧ planRefusal PlanStore.reset
        { planSeven with stages := planSeven.stages.mapIdx fun k st => if k = 2 then { st with ped := 150 } else st } =
      some (invalid .splitShort 3) := by decide

/-- 05, "plan 7 joins an event": at E = 5,320 the ideal position is 70 and 930 are left to lengthen. -/
theorem test_measure_of_plan_seven :
    (measureOf planSeven (.fixed ⟨1203, 482400000⟩) ⟨1203, 482932000⟩).toShorten = 70
    ∧ (measureOf planSeven (.fixed ⟨1203, 482400000⟩) ⟨1203, 482932000⟩).toLengthen = 930 := by decide

/-- Plan 7 as stored. -/
def storedSeven : StoredPlan := { plan := planSeven, signature := 0x568A, spares := [190, 60, 20, 30], spareSum := 300 }

theorem storedSeven_sound : storedSeven.Sound 7 :=
  ⟨by decide, by decide, by decide, by decide, by decide, by decide +kernel⟩

/-- 05, "plan 7 joins an event": the shortening by 70. -/
theorem test_shortening_of_plan_seven :
    correctedFigures storedSeven .shorten 70 =
      { plan := 7, length := 930, splits := [405, 186, 196, 143], bounds := [0, 405, 591, 787] } := by decide

/-- 05, "choosing the direction": 70 shortens; 570 and the tie at 450 lengthen. -/
theorem test_directions_of_plan_seven :
    chooseDirection storedSeven ⟨70, 70, 930, ⟨0, 0⟩⟩ = .shorten
    ∧ chooseDirection storedSeven ⟨570, 570, 430, ⟨0, 0⟩⟩ = .lengthen
    ∧ chooseDirection storedSeven ⟨450, 450, 550, ⟨0, 0⟩⟩ = .lengthen := by decide

/-- 01, "one round of convergence": the correction is +14. -/
theorem test_correction_of_the_worked_round : trimmedMean 1 [0, 35, -12, 8, 140] = 14 := by decide

/-! ### A junction that runs plan 7 -/

/-- Plan 7's stages under number 9. -/
def storedNine : StoredPlan := { storedSeven with plan := { planSeven with number := 9 }, signature := 0xEF29 }

theorem storedNine_sound : storedNine.Sound 9 :=
  ⟨by decide, by decide, by decide, by decide, by decide, by decide +kernel⟩

/-- Plan 7's stages under number 3. -/
def storedThree : StoredPlan := { storedSeven with plan := { planSeven with number := 3 }, signature := 0x2B90 }

theorem storedThree_sound : storedThree.Sound 3 :=
  ⟨by decide, by decide, by decide, by decide, by decide, by decide +kernel⟩

/-- A store that holds these plans alone, each in its slot, holds sound plans. -/
theorem plans_sound (store : PlanStore)
    (h : ∀ i : Fin 32, store.slots[i].plan = none ∨ (i = 2 ∧ store.slots[i].plan = some storedThree)
      ∨ (i = 6 ∧ store.slots[i].plan = some storedSeven) ∨ (i = 8 ∧ store.slots[i].plan = some storedNine)) :
    ∀ (i : Fin 32) (p : StoredPlan), store.slots[i].plan = some p → p.Sound (i.val + 1) := by
  intro i p hp
  rcases h i with h | ⟨hi, h⟩ | ⟨hi, h⟩ | ⟨hi, h⟩ <;> rw [h] at hp <;> cases hp
  · exact hi ▸ storedThree_sound
  · exact hi ▸ storedSeven_sound
  · exact hi ▸ storedNine_sound

/-- The configuration of the worked sequences: station 12, zone 5, default plan 7, fallback plan 9, PE1 and PE2 as in 08. -/
def record : ConfigRecord :=
  { station := 12, zone := 5, bitRate := 1, delay := 5, anchored := false, syncWindow := 50, slewLimit := 20
    acceptWindow := 5000, holdoverLimit := 30, defaultPlan := 7, fallbackPlan := 9
    actions := #v[.isolate, .report, .fallback, .report, .report, .report], filterCount := 3
    route1 := ⟨0x000C, 300, 3000, 40, 30, 3⟩, route2 := ⟨0x0003, 100, 1200, 40, 20, 1⟩
    flashYellow := 0x0001, monitored := 0xFFFF, greenCount := 3, lampCount := 20, startupRed := 50 }

/-- Slot 7 ACTIVE, slot 9 STORED, both pinned; slot 3 STORED. -/
def slots : PlanStore :=
  ((PlanStore.reset.put 7 ⟨.active, some storedSeven, true⟩).put 9 ⟨.stored, some storedNine, true⟩).put 3
    ⟨.stored, some storedThree, false⟩

/-- The aspects of stage 1 of plan 7. -/
def stageOneAspects : Vector Aspect 16 := Vector.ofFn fun g : Group => if inSet g 0x0303 then .green else .red

/-- The junction at P = 300 of a nominal cycle of plan 7, Saturday 14:08:52.000. -/
def base : State :=
  { State.reset with
    clock.reading := ⟨1203, 482932000⟩, clock.state := .synced
    store := slots
    port.part := .running, port.config := some record
    coord.state := .coordinated, coord.active := some ⟨7, .daily⟩, coord.position := 300, coord.length := 1000
    coord.figures := some (nominalFigures planSeven), seq.figures := some (nominalFigures planSeven)
    seq.state := .run, seq.run := some ⟨1, .green, 0, 390, none, none⟩
    seq.served := [.served, .notReached, .notReached, .notReached]
    bank.flash := false, bank.drive := stageOneAspects, bank.commanded := stageOneAspects }

theorem base_inv : Inv base where
  clock := ⟨by decide, by decide, by decide, by decide⟩
  store := ⟨by decide, by decide, by decide, plans_sound _ (by decide)⟩
  timetable := ⟨by decide, by decide, by decide, .nil, .nil, .nil⟩
  orders := ⟨by decide, by decide, by decide, by decide, by decide, by decide⟩
  coord := fun _ => by decide
  bank := ⟨by decide, by decide, by decide⟩
  line := ⟨by decide, by decide, by decide, by decide⟩
  port := ⟨by decide, by decide, by decide⟩
  quiet := fun h => absurd h (by decide)
  settled := by unfold State.Settled; decide

/-- The same part before START. -/
def before : State :=
  { State.reset with
    clock.reading := ⟨1203, 482932000⟩
    store :=
      (PlanStore.reset.put 7 ⟨.stored, some storedSeven, false⟩).put 9 ⟨.stored, some storedNine, false⟩ }

theorem before_inv : Inv before where
  clock := ⟨by decide, by decide, by decide, by decide⟩
  store := ⟨by decide, by decide, by decide, plans_sound _ (by decide)⟩
  timetable := ⟨by decide, by decide, by decide, .nil, .nil, .nil⟩
  orders := ⟨by decide, by decide, by decide, by decide, by decide, by decide⟩
  coord := fun h => by revert h; decide
  bank := ⟨by decide, by decide, by decide⟩
  line := ⟨by decide, by decide, by decide, by decide⟩
  port := ⟨by decide, by decide, by decide⟩
  quiet := fun _ c => by cases c <;> decide
  settled := by unfold State.Settled; decide

/-! ### Witnesses: the whole part and the exchange -/

theorem witness_StepRunsFrontCommand : ({ base with pending := [.round] } : State).pending = .round :: [] := rfl

/-- A round due; a boundary with nothing due, and a millisecond held back; a reading in the week and the last millisecond of the
last week; the millisecond before a round, the station's offset (480 ms), midnight and the start of an entry. -/
theorem witness_IdleStepLetsOneMillisecondPass :
    (({ base with instants.round := true } : State).pending = [] ∧ DueNow .round { base with instants.round := true })
    ∧ (let s := { base with instants.boundary := true }
      s.pending = [] ∧ (∀ c, ¬ DueNow c s) ∧ s.instants.boundary = true)
    ∧ (let s := { base with instants.holding := true }
      (∀ c, ¬ DueNow c s) ∧ s.instants.boundary = false ∧ s.instants.holding = true)
    ∧ ((∀ c, ¬ DueNow c base) ∧ base.instants.boundary = false ∧ base.instants.holding = false ∧ base.clock.Sound)
    ∧ (let s := { before with clock.reading := ⟨65535, 604799999⟩ }
      (∀ c, ¬ DueNow c s) ∧ s.instants.boundary = false ∧ s.instants.holding = false ∧ s.clock.Sound
        ∧ s.clock.reading.ms = 604799999)
    ∧ (∀ ms ∈ [482939999, 482930479, 431999999, 482399999],
      let s := { base with clock.reading := ⟨1203, ms⟩, timetable.entries := [⟨0x20, 504000, 9⟩] }
      takeFirstDue s = none ∧ s.port.part = .running)
    ∧ (482940000 % 10000 = 0 ∧ 482930480 % 10000 = 40 * base.cfg.station % 10000 ∧ 432000000 % 86400000 / 100 = 0
      ∧ 482400000 % 86400000 / 100 = 504000) := by
  refine ⟨⟨rfl, nofun, nofun, State.roundDue, .inl rfl, by decide⟩, ⟨rfl, takeFirstDue_none (by decide), rfl⟩,
    ⟨takeFirstDue_none (by decide), rfl, rfl⟩, ⟨takeFirstDue_none (by decide), rfl, rfl, base_inv.clock⟩,
    ⟨takeFirstDue_none (by decide), rfl, rfl, ⟨by decide, by decide, by decide, by decide⟩, rfl⟩, ?_, by decide⟩
  decide

/-- An ORDER content for plan 7 in zone 5. -/
def orderSeven : OrderContent :=
  { key := ⟨31, ⟨1203, 478800000⟩⟩, revision := 1
    detail := { plan := 7, signature := 0x568A, start := ⟨1203, 482400000⟩, priority := 4 }
    finish := ⟨1203, 496800000⟩, zones := 0x0010, hop := 15, announce := 0 }

/-- The CANCEL content that withdraws it. -/
def cancelSeven : CancelContent :=
  { key := orderSeven.key, revision := 1, finish := orderSeven.finish, zones := 0x0010, hop := 1, announce := 0 }

theorem witness_PacketsAndBodiesReadBack :
    ((wellFormed (.identify 7 []) = true ∧ packetOfCommand (.identify 7 []) = some (requestPacket 0x01 7 []))
      ∧ (let c : Instr := .status 0 (List.replicate 255 0)
        wellFormed c = true ∧ packetOfCommand c = some (requestPacket 0x02 0 (List.replicate 255 0)))
      ∧ (wellFormed (.unknownRequest 0 0 []) = true ∧ packetOfCommand (.unknownRequest 0 0 []) = some (requestPacket 0 0 []))
      ∧ wellFormed (.malformedRequest []) = true ∧ packetOfCommand (.malformedRequest []) = some [])
    ∧ planSeven.fits = true ∧ planLengthIs (List.replicate 10 0) = true ∧ planLengthIs (planBytes planSeven) = true
    ∧ orderSeven.fits = true ∧ cancelSeven.fits = true :=
  ⟨⟨⟨by decide, rfl⟩, ⟨by decide, rfl⟩, ⟨by decide, rfl⟩, by decide, rfl⟩, by decide⟩

theorem witness_PacketsAndRequestsAreChecked :
    (requestShape (.identify 1 [0]) = some ⟨0x01, 1, false, .both⟩)
    ∧ (let c : Instr := .start 1 (List.replicate 46 0)
      requestShape c = some ⟨0x03, 1, true, .configuringOnly⟩
        ∧ Admission.configuringOnly.admits base.port.part = false)
    ∧ (requestShape (.placeCall 1 [1]) = some ⟨0x28, 1, true, .runningOnly⟩
      ∧ Admission.runningOnly.admits State.reset.port.part = false)
    ∧ (0x00 : Byte) ∉ requestCodes ∧ (0xFF : Byte) ∉ requestCodes
    ∧ packetSound [] = false ∧ packetSound [0x01, 7, 0, 0, 0] = false := by decide

theorem witness_RefusedRequestsChangeNothing :
    (requestShape (.identify 1 []) = some ⟨0x01, 1, true, .both⟩ ∧ ∃ t, exec (.identify 1 []) base = .next t)
    ∧ ∃ t, exec (.placeCall 1 [17]) base = .next t ∧ (t.port.held.map Response.code) = some .range :=
  ⟨⟨rfl, _, rfl⟩, _, rfl, by decide⟩

/-- With a response of 7 bytes held (6 or 7 bytes read), and with none held. -/
theorem witness_ReadTransferSendsTheHeldResponse :
    (let r : Response := { request := 0x03, seq := 1, code := .done, body := [] }
    (withItsCrc ([r.request, r.seq, BitVec.ofNat 8 r.code.code] ++ be 2 r.body.length ++ r.body)).length = 7 ∧ ({ base with port.held := some r } : State).port.held = some r)
    ∧ base.port.held = none := by decide

/-- A save record of PE1 in DWELL. -/
def saved : SaveRecord :=
  { source := .pe1, entry := ⟨1203, 482900000⟩, plan := 7, position := 60, stage := 1, interval := .green, resumeStage := 3
    override := none }

/-- The junction with PE1 in DWELL at its minimum dwell. -/
def dwelling : State :=
  { base with
    seq := { base.seq with state := .yielded, run := none, figures := none, served := [] }
    coord := { base.coord with state := .suspended, cause := some .preemption, figures := none }
    preempt.state := .dwell, preempt.running := some .pe1, preempt.save := some saved, preempt.dwell := 300
    preempt.pe1 := ⟨true, 0, false⟩
    preempt.holders := Vector.ofFn fun g : Group => if inSet g 0x000C then some ⟨.route .pe1, 40, 30⟩ else none
    bank.drive := Vector.ofFn fun g : Group => if inSet g 0x000C then .green else .red }

theorem dwelling_inv : Inv dwelling :=
  { base_inv with coord := fun _ => by decide, bank := ⟨by decide, by decide, by decide⟩ }

theorem witness_ReadingRequestsShowTheState :
    dwelling.preempt.state ≠ .idle ∧ dwelling.preempt.save = some saved ∧ base.preempt.state = .idle
    ∧ (base.port.part = .running ∧ 1 ≤ (1 : Byte).toNat ∧ (16 : Byte).toNat ≤ 16) := by decide

/-- Plan numbers 1 and 32 against 0 and 33; positions 1, 64 and 32 against 0, 65 and 33; selector 2. -/
theorem witness_IdentifyPlanAndTimetableReadsShowThem :
    (1 ≤ (1 : Byte).toNat ∧ (32 : Byte).toNat ≤ 32 ∧ ¬ 1 ≤ (0 : Byte).toNat ∧ ¬ (33 : Byte).toNat ≤ 32)
    ∧ (64 : Byte).toNat ≤ 64 ∧ 64 < (65 : Byte).toNat ∧ 32 < (33 : Byte).toNat ∧ 1 < (2 : Byte).toNat := by decide

/-- An empty report queue and a full one. -/
theorem witness_ReportsArePostedAndRead :
    base.port.reports.length < 32
    ∧ 32 ≤ ({ base with port.reports := List.replicate 32 ⟨⟨0, 0⟩, .overrideCleared 7⟩ } : State).port.reports.length := by
  decide

/-- The body of START with the configuration of the worked sequences. -/
def startBody (anchored default fallback : Byte) : List Byte :=
  [12, 5, 1, 5, anchored, 0xFF, 0xFF, 0xFF, 0xFF, 0xFF, 0xFF, 0xFF, default, fallback, 0xFF, 0xFF, 0xFF, 0xFF, 0xFF, 0xFF, 3]
    ++ [0, 0x0C, 0x01, 0x2C, 0x0B, 0xB8, 40, 30, 3] ++ [0, 0x03, 0, 100, 0x04, 0xB0, 40, 20, 1]
    ++ [0, 1, 0xFF, 0xFF, 3, 20, 50]

theorem startBody_fits :
    ConfigFits (startBody 0 7 9) ∧ ConfigFits (startBody 0 8 9) ∧ ConfigFits (startBody 1 7 32) := by
  unfold ConfigFits RouteFits DefaultFits
  refine ⟨?_, ?_, ?_⟩ <;>
    refine ⟨?_, ?_, ?_, ?_, ?_, ?_, ?_, ?_, ?_, ?_, ?_, ?_, ?_, ?_, ?_, ?_, ?_, ?_⟩ <;> decide

/-- Accepted, from blocks as a reset leaves them, the scheduled plan's slot loaded and EMPTY; a flag of 2; an EMPTY default slot;
an EMPTY fallback slot. -/
theorem witness_StartChecksItsRecordAndBeginsRunning :
    (before.port.part = .configuring ∧ (startBody 0 7 9).length = 46)
    ∧ (ConfigFits (startBody 0 7 9) ∧ (before.slot (field (startBody 0 7 9) 12 1)).state ≠ .empty
      ∧ (before.slot (field (startBody 0 7 9) 13 1)).state ≠ .empty)
    ∧ ¬ ConfigFits (startBody 2 7 9)
    ∧ (ConfigFits (startBody 0 8 9) ∧ (before.slot (field (startBody 0 8 9) 12 1)).state = .empty)
    ∧ (ConfigFits (startBody 1 7 32) ∧ (before.slot (field (startBody 1 7 32) 12 1)).state ≠ .empty
      ∧ (before.slot (field (startBody 1 7 32) 13 1)).state = .empty)
    ∧ (Inv before ∧ before.orders = OrderHandler.reset ∧ before.coord = Coordinator.reset ∧ before.timetable.scheduled = none
      ∧ before.seq.state = .flash ∧ (before.slot (before.timetable.find before.clock.reading 7).1).state ≠ .empty)
    ∧ (let s := { before with timetable.entries := [⟨0x1FF, 0, 8⟩] }
      Inv s ∧ (s.slot (s.timetable.find s.clock.reading 7).1).state = .empty
        ∧ actionOf (some record) .planMissing ≠ some .flash) :=
  ⟨by decide, ⟨startBody_fits.1, by decide⟩, fun h => absurd h.2.2.2.2.1 (by decide), ⟨startBody_fits.2.1, by decide⟩,
    ⟨startBody_fits.2.2, by decide⟩, ⟨before_inv, rfl, rfl, rfl, rfl, by decide⟩,
    { before_inv with
      timetable :=
        ⟨by decide, by decide, by decide, List.pairwise_singleton _ _, List.pairwise_singleton _ _, .nil⟩ }, by decide⟩

/-- The junction as an anchored station. -/
def anchored : State := { base with port.config := some { record with anchored := true } }

theorem anchored_inv : Inv anchored :=
  { base_inv with
    port := ⟨by decide, by decide, by decide⟩, settled := by unfold State.Settled; decide }

/-- The last millisecond of the week and the first beyond it, in CONFIGURING and RUNNING alike; refused outside anchored stations;
differences of 1,000 and 1,001 ms in SYNCED and HOLDOVER, CLOCK_ISOLATED raised; ALONE. -/
theorem witness_SetTimeSetsOrCorrectsTheClock :
    (before.port.part = .configuring ∧ before.clock.Sound
      ∧ (timeField (timeBytes ⟨0, 604799999⟩) 0).ms < 604800000 ∧ 604800000 ≤ (timeField (timeBytes ⟨0, 604800000⟩) 0).ms
      ∧ (timeBytes ⟨0, 604799999⟩).length = 6)
    ∧ (base.port.part = .running ∧ base.cfg.anchored = false ∧ base.clock.Sound)
    ∧ (anchored.cfg.anchored = true ∧ anchored.clock.state = .synced
      ∧ ((timeField (timeBytes ⟨1203, 482933000⟩) 0).diff
          (anchored.clock.reading.plus (anchored.clock.slew + anchored.clock.backlog))).natAbs = 1000
      ∧ ((timeField (timeBytes ⟨1203, 482933001⟩) 0).diff
          (anchored.clock.reading.plus (anchored.clock.slew + anchored.clock.backlog))).natAbs = 1001)
    ∧ ({ anchored with clock.state := .holdover, clock.isolatedRaised := true } : State).clock.isolatedRaised = true
    ∧ ({ anchored with clock.state := .holdover } : State).clock.state = .holdover
    ∧ ({ anchored with clock.state := .alone } : State).clock.state = .alone := by
  refine ⟨⟨rfl, ⟨by decide, by decide, by decide, by decide⟩, by decide⟩, ⟨rfl, rfl, base_inv.clock⟩, by decide⟩

/-! ### Witnesses: plans and the calendar -/

/-- The clauses of R25 in their order, as the statement names them. -/
abbrev numberOk (p : PlanRecord) : Prop := 1 ≤ p.number ∧ p.number ≤ 32
abbrev freeOk (store : PlanStore) (p : PlanRecord) : Prop :=
  (store.slot p.number).state ≠ .active ∧ (store.slot p.number).state ≠ .staged ∧ (store.slot p.number).pinned = false
abbrev countOk (p : PlanRecord) : Prop := 2 ≤ p.stageCount ∧ p.stageCount ≤ 8
abbrev rangesOk (p : PlanRecord) : Prop :=
  ((300 ≤ p.cycle ∧ p.cycle ≤ 2400) ∧ p.offset < p.cycle ∧ p.tolerance ≤ 50 ∧ (5 ≤ p.lengthen ∧ p.lengthen ≤ 50)
      ∧ p.shorten ≤ 33 ∧ (1 ≤ p.transitions ∧ p.transitions ≤ 8))
    ∧ ∀ st ∈ p.stages, (1 ≤ st.split ∧ st.split ≤ 2400) ∧ (40 ≤ st.gmin ∧ st.gmin ≤ 600) ∧ st.ped ≤ 900
      ∧ (30 ≤ st.yellow ∧ st.yellow ≤ 60) ∧ st.allRed ≤ 60
      ∧ ((st.demandClass = 0 ∧ st.demandInput = 0)
        ∨ (st.demandClass = 1 ∧ 1 ≤ st.demandInput ∧ st.demandInput ≤ 16))
abbrev setsOk (p : PlanRecord) : Prop := ∀ st ∈ p.stages, st.green ≠ 0
abbrev fixedOk (p : PlanRecord) : Prop := (p.stages.head?.map StageRecord.demandClass) ≠ some 1
abbrev sumOk (p : PlanRecord) : Prop := (p.stages.map StageRecord.split).sum = p.cycle
abbrev longOk (p : PlanRecord) : Prop := ∀ st ∈ p.stages, max st.gmin st.ped + st.yellow + st.allRed ≤ st.split

/-- Plan 7 with stage `k` changed. -/
def withStage (k : Nat) (f : StageRecord → StageRecord) : PlanRecord :=
  { planSeven with stages := planSeven.stages.mapIdx fun j st => if j + 1 = k then f st else st }

/-- Each refusal of R25 is met by a plan that passes the checks before it: numbers 0 and 33, a slot in use, stage counts 1
and 9, a tolerance of 51, an empty set, stage 1 ON_CALL, a sum short by one, a split short by one. LOAD_PLAN of the ACTIVE
plan 7 is one refused. -/
theorem witness_PlansAreCheckedInOrder :
    (planLengthIs (planBytes planSeven) = true
      ∧ planRefusal base.store (readPlan (planBytes planSeven)) = some (plain .inUse))
    ∧ (let p := planSeven
    numberOk p ∧ freeOk before.store p ∧ countOk p ∧ rangesOk p ∧ setsOk p ∧ fixedOk p ∧ sumOk p ∧ longOk p)
    ∧ ¬ numberOk { planSeven with number := 0 } ∧ ¬ numberOk { planSeven with number := 33 }
    ∧ (numberOk planSeven ∧ ¬ freeOk slots planSeven)
    ∧ (freeOk before.store planSeven ∧ ¬ countOk { planSeven with stageCount := 1 }
      ∧ ¬ countOk { planSeven with stageCount := 9 })
    ∧ (countOk { planSeven with tolerance := 51 } ∧ ¬ rangesOk { planSeven with tolerance := 51 })
    ∧ (let p := withStage 2 fun st => { st with green := 0 }
      rangesOk p ∧ ¬ setsOk p)
    ∧ (let p := withStage 1 fun st => { st with demandClass := 1, demandInput := 16 }
      rangesOk p ∧ setsOk p ∧ ¬ fixedOk p)
    ∧ (let p := withStage 4 fun st => { st with split := 149 }
      rangesOk p ∧ setsOk p ∧ fixedOk p ∧ ¬ sumOk p)
    ∧ (let p := withStage 3 fun st => { st with ped := 141 }
      rangesOk p ∧ setsOk p ∧ fixedOk p ∧ sumOk p ∧ ¬ longOk p) := by
  refine ⟨?_, ?_, ?_, ?_, ?_, ?_, ?_, ?_, ?_, ?_, ?_⟩ <;> decide

/-- Accepted in CONFIGURING, and in RUNNING for a slot that is free. -/
theorem witness_LoadPlanStoresThePlanThatReadPlanReturns :
    (planLengthIs (planBytes planSeven) = true ∧ planRefusal before.store (readPlan (planBytes planSeven)) = none
      ∧ before.port.part = .configuring)
    ∧ (let body := planBytes { planSeven with number := 32 }
      planLengthIs body = true ∧ planRefusal base.store (readPlan body) = none ∧ base.port.part = .running ∧ Inv base) :=
  ⟨by decide, by decide, by decide, rfl, base_inv⟩

/-- Numbers 0 and 33; the ACTIVE slot 7 and the pinned slot 9; EMPTY slots 1 and 32; the STORED slot 3. -/
theorem witness_ErasePlanEmptiesTheSlot :
    (¬ 1 ≤ (0 : Byte).toNat ∧ ¬ (33 : Byte).toNat ≤ 32)
    ∧ ((base.slot 7).state = .active ∧ (base.slot 9).pinned = true)
    ∧ ((base.slot 1).state = .empty ∧ (base.slot 1).pinned = false ∧ (base.slot 32).state = .empty
      ∧ (base.slot 32).pinned = false)
    ∧ ((base.slot 3).state = .stored ∧ (base.slot 3).pinned = false)
    ∧ (before.port.part = .configuring ∧ (before.slot 7).state = .stored ∧ (before.slot 7).pinned = false) := by decide

/-- A sound store with slots EMPTY, STORED, STAGED and ACTIVE. -/
theorem witness_SlotRequestsFollowTheirTables :
    (slots.setState 3 .staged).Sound ∧ ((slots.setState 3 .staged).slot 1).state = .empty
    ∧ ((slots.setState 3 .staged).slot 9).state = .stored ∧ ((slots.setState 3 .staged).slot 3).state = .staged
    ∧ ((slots.setState 3 .staged).slot 7).state = .active :=
  ⟨⟨by decide, by decide, by decide, plans_sound _ (by decide)⟩, by decide⟩

/-- A body of ADD_ENTRY. -/
def entryBody (days : Nat) (start plan : Nat) : List Byte := be 2 days ++ be 4 start ++ be 1 plan

/-- ADD_ENTRY: starts 863,999 and 864,000, sets 511, 512 and 0; a clash; 64 and 63 entries. DROP_ENTRY: held and not held.
The special days: days 6 and 7, types 1 and 2, the eighth day back in RUNNING and the seventh; held; 32 and 31 of them. -/
theorem witness_CalendarEditsFollowTheirCases :
    (let ok := fun b => (readEntry b).days ≠ 0 ∧ (readEntry b).days.toNat < 512 ∧ (readEntry b).start ≤ 863999
        ∧ 1 ≤ (readEntry b).plan ∧ (readEntry b).plan ≤ 32
    (entryBody 511 863999 32).length = 7 ∧ ok (entryBody 511 863999 32) ∧ ok (entryBody 1 0 1)
        ∧ ¬ ok (entryBody 1 864000 1) ∧ ¬ ok (entryBody 512 0 1) ∧ ¬ ok (entryBody 0 0 1) ∧ ¬ ok (entryBody 1 0 33))
    ∧ (let x : Entry := { days := 3, start := 100, plan := 7 }
      x.start = (readEntry (entryBody 1 100 9)).start ∧ x.days &&& (readEntry (entryBody 1 100 9)).days ≠ 0
        ∧ x.days &&& (readEntry (entryBody 4 100 9)).days = 0 ∧ 64 ≤ (List.replicate 64 x).length
        ∧ (List.replicate 63 x).length < 64)
    ∧ (let b := be 4 863999 ++ be 2 511
      b.length = 6 ∧ field b 0 4 = 863999 ∧ (BitVec.ofNat 16 (field b 4 2)).toNat = 511)
    ∧ (let b := be 2 1202 ++ be 1 4 ++ be 1 1
      b.length = 4 ∧ field b 2 1 ≤ 6 ∧ field b 3 1 ≤ 1
        ∧ (base.port.part = .running ∧ base.clock.state ≠ .alone
          ∧ signedWeeks ((field b 0 2 : Int) - base.clock.reading.week) * 7 + (field b 2 1 : Int)
              - (base.clock.reading.ms / 86400000 : Nat) < -7))
    ∧ (let b := be 2 1202 ++ be 1 5 ++ be 1 0
      ¬ signedWeeks ((field b 0 2 : Int) - base.clock.reading.week) * 7 + (field b 2 1 : Int)
              - (base.clock.reading.ms / 86400000 : Nat) < -7)
    ∧ (let d : SpecialDay := { week := 1203, day := 6, type := .b }
      d.week = field (be 2 1203 ++ be 1 6 ++ be 1 0) 0 2 ∧ d.day = field (be 2 1203 ++ be 1 6 ++ be 1 0) 2 1
        ∧ 32 ≤ (List.replicate 32 d).length ∧ (List.replicate 31 d).length < 32)
    ∧ (be 2 1203 ++ be 1 6).length = 3 ∧ 6 < field (be 2 1203 ++ be 1 7) 2 1 := by decide

/-- Saturday 14:08:52.000 with an entry of Saturday 14:00:00.0, one of Saturday 20:00:00.0 alone, and one of Sunday alone,
seven days back at the most. -/
theorem witness_TheScheduleLooksBackSevenDays :
    (let t := { Timetable.reset with entries := [{ days := 0x20, start := 504000, plan := 9 }] }
    (⟨0x20, 504000, 9⟩ : Entry) ∈ t.entries ∧ (⟨0x20, 504000, 9⟩ : Entry).days.getLsbD (t.dayType 1203 5) = true
        ∧ 504000 ≤ base.clock.reading.timeOfDay ∧ base.clock.reading.day = 5)
    ∧ (let t := { Timetable.reset with entries := [{ days := 0x20, start := 720000, plan := 9 }] }
      (∀ e ∈ t.entries, ¬ e.start ≤ base.clock.reading.timeOfDay)
        ∧ (let d := (fun d : Nat × Nat => dayBefore d.1 d.2)^[7] (base.clock.reading.week, base.clock.reading.day)
          (⟨0x20, 720000, 9⟩ : Entry).days.getLsbD (t.dayType d.1 d.2) = true))
    ∧ Timetable.reset.entries = []
    ∧ (let t := { Timetable.reset with specials := [⟨0, 0, .a⟩, ⟨65535, 6, .b⟩] }
      (⟨0, 0, .a⟩ ∈ t.specials ∧ ∀ x ∈ t.specials, x.week = 0 → x.day = 0 → x = ⟨0, 0, .a⟩)
        ∧ (⟨65535, 6, .b⟩ ∈ t.specials ∧ ∀ x ∈ t.specials, x.week = 65535 → x.day = 6 → x = ⟨65535, 6, .b⟩)
        ∧ ∀ x ∈ t.specials, x.week = 65534 → x.day ≠ 6) := by decide

/-- A special day eight days back and one seven days back at midnight; an instant that is no midnight. -/
theorem witness_CalendarInstantsEvaluateTheSchedule :
    (let s := { base with
        clock.reading := ⟨1203, 432000000⟩, instants.calendar := true
        timetable.specials := [⟨1202, 4, .a⟩, ⟨1202, 5, .b⟩] }
    s.port.part = .running ∧ s.instants.calendar = true ∧ s.clock.reading.timeOfDay = 0 ∧ s.clock.state ≠ .alone
        ∧ (∃ d ∈ s.timetable.specials,
          signedWeeks ((d.week : Int) - s.clock.reading.week) * 7 + (d.day : Int) - (s.clock.reading.day : Int) < -7)
        ∧ ¬ signedWeeks ((1202 : Int) - s.clock.reading.week) * 7 + 5 - (s.clock.reading.day : Int) < -7)
    ∧ (let s := { base with clock.reading := ⟨1203, 432000000⟩, instants.calendar := true }
      s.port.part = .running ∧ s.instants.calendar = true ∧ s.clock.reading.timeOfDay = 0 ∧ s.timetable.specials = [])
    ∧ (let s := { base with instants.calendar := true }
      s.port.part = .running ∧ s.instants.calendar = true ∧ ¬ s.clock.reading.timeOfDay = 0) := by decide

/-! ### Witnesses: orders -/

/-- A body of ISSUE_ORDER: plan, end in ms after Saturday 14:00:00.000, priority, presence; its start, zones and hop limit are
fixed. -/
def issueBody (plan finish priority presence : Nat) : List Byte :=
  be 1 plan ++ timeBytes ⟨1203, 482400000⟩ ++ timeBytes ⟨1203, 482400000 + finish⟩ ++ be 1 priority ++ be 2 0x0010 ++ be 1 15
    ++ be 1 presence ++ timeBytes ⟨1203, 482000000⟩

/-- An issued entry with a revision. -/
def issuedEntry (revision : Nat) : IssuedEntry :=
  { key := ⟨12, ⟨1203, 482000000⟩⟩, revision := revision
    detail := { plan := 7, signature := 0x568A, start := ⟨1203, 482400000⟩, priority := 4 }
    finish := ⟨1203, 482932000⟩, zones := 0x0010, hop := 15, announce := 255, nextRepeat := ⟨1203, 482932000⟩ }

/-- The junction with one issued order. -/
def issuing (revision : Nat) : State := { base with orders.issued := [issuedEntry revision] }

theorem issuing_inv : Inv (issuing 254) :=
  { base_inv with
    orders := ⟨by decide, by decide, by decide, by decide, by decide, by decide⟩ }

/-- A frame of the send queue. -/
def someFrame : Frame := { body := .cancel cancelSeven, attempts := 0, relay := false }

/-- Each check of R67 failed by a request that passes those before it: priority 8; an end at the reading; no entry to
revise; revision 255; an EMPTY slot; four issued orders; eight frames. -/
theorem witness_IssueOrderIsCheckedInOrder :
    (issueBody 7 532001 7 1).length = 24
    ∧ (let r := readIssue (issueBody 7 532001 7 1)
      1 ≤ r.plan ∧ r.plan ≤ 32 ∧ r.priority ≤ 7 ∧ r.zones ≠ 0 ∧ r.hop ≤ 15 ∧ r.start.ms < 604800000
        ∧ r.finish.ms < 604800000 ∧ 0 < r.finish.diff r.start ∧ r.finish.diff r.start ≤ 604800000 ∧ r.presence ≤ 1
        ∧ 0 < r.finish.diff base.clock.reading)
    ∧ ¬ (readIssue (issueBody 7 532001 8 0)).priority ≤ 7
    ∧ ¬ 0 < (readIssue (issueBody 7 532000 7 0)).finish.diff base.clock.reading
    ∧ (∀ i ∈ base.orders.issued, i.key.stamp ≠ (readIssue (issueBody 7 532001 7 1)).revises)
    ∧ ((issuing 255).orders.issued.find?
        fun x => decide (x.key.stamp = (readIssue (issueBody 7 532001 7 1)).revises)) = some (issuedEntry 255)
    ∧ ((issuing 254).orders.issued.find?
        fun x => decide (x.key.stamp = (readIssue (issueBody 7 532001 7 1)).revises)) = some (issuedEntry 254)
    ∧ (base.slot (readIssue (issueBody 8 532001 7 0)).plan).state = .empty
    ∧ (base.slot (readIssue (issueBody 7 532001 7 0)).plan).state ≠ .empty
    ∧ ¬ (List.replicate 4 (issuedEntry 0)).length < 4 ∧ 8 ≤ (List.replicate 8 someFrame).length := by
  refine ⟨?_, ?_, ?_, ?_, ?_, ?_, ?_, ?_, ?_, ?_, ?_⟩ <;> decide

/-- An order of this station for its own zone, on the issued list and IN_FORCE in the order list. -/
def ownIssued : IssuedEntry := { issuedEntry 3 with finish := ⟨1203, 496800000⟩ }
def own : State :=
  { base with
    orders.issued := [ownIssued], orders.entries := [(ownIssued.content 0).toEntry ⟨1203, 482900000⟩ .inForce] }

theorem own_inv : Inv own :=
  { base_inv with
    orders := ⟨by decide, by decide, by decide, by decide, by decide, by decide⟩ }

/-- The transmitter IDLE with no frame in hand, and one that sends. -/
abbrev quietLine (l : LineInterface) : Prop := l.tx = .idle ∧ l.inHand = none ∧ l.queue.length < 8
def sendingLine : LineInterface := { base.line with tx := .sending, inHand := some someFrame }

/-- A new order, and one that revises to revision 255, both for the station's zone; one that revises an order held in the order
list. -/
theorem witness_IssuedOrdersAreAnnounced :
    (base.port.part = .running ∧ Inv base ∧ issueRefusal (readIssue (issueBody 7 532001 7 0)) base = none)
    ∧ ((issuing 254).port.part = .running ∧ Inv (issuing 254)
      ∧ issueRefusal (readIssue (issueBody 7 532001 7 1)) (issuing 254) = none)
    ∧ (hasNumber (readIssue (issueBody 7 532001 7 0)).zones base.cfg.zone = true ∧ base.orders.entries = [])
    ∧ (quietLine base.line ∧ sendingLine.tx ≠ .idle)
    ∧ (own.port.part = .running ∧ Inv own ∧ issueRefusal (readIssue (issueBody 7 532001 7 1)) own = none
      ∧ ∀ e ∈ own.orders.entries, e.key = ⟨12, (readIssue (issueBody 7 532001 7 1)).revises⟩ ∧ e.revision < 4) :=
  ⟨⟨rfl, base_inv, by decide⟩, ⟨rfl, issuing_inv, by decide⟩, by decide, by decide, rfl, own_inv, by decide⟩

/-- An order of each list, with times of the first half of the weeks. -/
theorem witness_EveryStepKeepsTheInvariant :
    Inv own ∧ step own = .next (tick own) ∧ own.orders.PlainTimes ∧ (tick own).orders.PlainTimes ∧ own.orders.InOrder := by
  have starts : (∀ e ∈ own.orders.entries, ∀ d ∈ e.detail, Plain d.start)
      ∧ ∀ e ∈ (tick own).orders.entries, ∀ d ∈ e.detail, Plain d.start := by
    unfold Plain
    decide
  have times : ((∀ e ∈ own.orders.entries, Plain e.key.stamp ∧ Plain e.finish) ∧ ∀ i ∈ own.orders.issued, Plain i.key.stamp)
      ∧ (∀ e ∈ (tick own).orders.entries, Plain e.key.stamp ∧ Plain e.finish)
      ∧ ∀ i ∈ (tick own).orders.issued, Plain i.key.stamp := by
    unfold Plain
    decide
  exact ⟨own_inv, rfl, ⟨times.1.1, fun e d he hd => starts.1 e he d hd, times.1.2⟩,
    ⟨times.2.1, fun e d he hd => starts.2 e he d hd, times.2.2⟩, List.pairwise_singleton _ _, List.pairwise_singleton _ _⟩

/-- The entry of `orderSeven` in a state. -/
def entrySeven (state : OrderState) : OrderEntry := orderSeven.toEntry ⟨1203, 482900000⟩ state

/-- The junction with that entry in its list. -/
def holding (state : OrderState) : State := { base with orders.entries := [entrySeven state] }

theorem holding_inv : Inv (holding .inForce) :=
  { base_inv with
    orders := ⟨by decide, by decide, by decide, by decide, by decide, by decide⟩ }

/-- Origins 0 and 251; a key nobody holds; a held entry; an issued one; a full send queue; an own order on both lists, and on the
issued list alone. -/
theorem witness_CancelOrderFollowsItsCases :
    (¬ 1 ≤ (readKey (be 1 0 ++ timeBytes ⟨0, 0⟩)).origin ∧ ¬ (readKey (be 1 251 ++ timeBytes ⟨0, 0⟩)).origin ≤ 250)
    ∧ (let k := readKey (be 1 250 ++ timeBytes ⟨0, 604799999⟩)
      k.origin = 250 ∧ k.stamp.ms = 604799999 ∧ base.orders.entries = [] ∧ base.orders.issued = [])
    ∧ (Inv (holding .inForce) ∧ entrySeven .inForce ∈ (holding .inForce).orders.entries
      ∧ (entrySeven .inForce).key = readKey (be 1 31 ++ timeBytes ⟨1203, 478800000⟩)
      ∧ 0 < (entrySeven .inForce).finish.diff base.clock.reading)
    ∧ (Inv (issuing 254) ∧ (issuedEntry 254).key = readKey (be 1 12 ++ timeBytes ⟨1203, 482000000⟩))
    ∧ (quietLine (holding .inForce).line ∧ quietLine (issuing 254).line ∧ sendingLine.tx ≠ .idle)
    ∧ 8 ≤ (List.replicate 8 someFrame).length
    ∧ (Inv own ∧ (∀ e ∈ own.orders.entries, e.key = readKey (be 1 12 ++ timeBytes ⟨1203, 482000000⟩) ∧ e.zones ≠ 0
        ∧ e.finish.ms < 604800000 ∧ 0 < e.finish.diff own.clock.reading ∧ e.key.origin = own.cfg.station)
      ∧ ownIssued ∈ own.orders.issued)
    ∧ (let s := { own with orders.entries := [] }
      Inv s ∧ ownIssued ∈ s.orders.issued ∧ ownIssued.zones ≠ 0 ∧ 0 < ownIssued.finish.diff s.clock.reading) :=
  ⟨by decide, by decide, ⟨holding_inv, by decide, by decide, by decide⟩, ⟨issuing_inv, by decide⟩, by decide, by decide,
    ⟨own_inv, by decide, by decide⟩,
    { own_inv with orders := ⟨by decide, own_inv.orders.issued, by decide, by decide, own_inv.orders.stamps, by decide⟩ },
    by decide⟩

/-- The junction with its receiver in FRAME. -/
def receiving (s : State) : State :=
  { s with line.receiving := true, line.captured := some ⟨1203, 482931950⟩ }

theorem receiving_inv {s : State} (h : Inv s) : Inv (receiving s) := { h with line := ⟨h.line.1, h.line.2, h.line.3, h.line.4⟩ }

/-- Hop limits 15, 16, 1 and 0; a key in the cache and one that is not; a full send queue. -/
theorem witness_OrderFramesAreTakenOnceAndRelayed :
    (receiving base).port.part = .running ∧ (receiving base).line.receiving = true
    ∧ (orderBodyBytes orderSeven).length = 28 ∧ (cancelBodyBytes cancelSeven).length = 18
    ∧ (readOrderBody (orderBodyBytes orderSeven)).dedupKey ∉ (receiving base).line.dedup
    ∧ (readCancelBody (cancelBodyBytes cancelSeven)).dedupKey ∉ (receiving base).line.dedup
    ∧ (readOrderBody (orderBodyBytes orderSeven)).dedupKey ∈ [orderSeven.dedupKey]
    ∧ (readCancelBody (cancelBodyBytes cancelSeven)).dedupKey ∈ [cancelSeven.dedupKey]
    ∧ (readOrderBody (orderBodyBytes orderSeven)).hop = 15
    ∧ (readOrderBody (orderBodyBytes { orderSeven with hop := 16 })).hop = 16
    ∧ (readCancelBody (cancelBodyBytes cancelSeven)).hop = 1
    ∧ (readCancelBody (cancelBodyBytes { cancelSeven with hop := 0 })).hop = 0
    ∧ (quietLine (receiving base).line ∧ sendingLine.tx ≠ .idle)
    ∧ 8 ≤ (List.replicate 8 someFrame).length := by
  refine ⟨?_, ?_, ?_, ?_, ?_, ?_, ?_, ?_, ?_, ?_, ?_, ?_, ?_, ?_⟩ <;> decide

/-- Twelve entries of distinct keys in a state, all of a priority. -/
def fullList (state : OrderState) : List OrderEntry :=
  (List.range 12).map fun n =>
    { entrySeven state with
      key := ⟨100 + n, ⟨1203, 478800000⟩⟩, detail := some { orderSeven.detail with priority := 5 } }

theorem fullList_inv (state : OrderState) (h : state ≠ .inForce) : Inv { base with orders.entries := fullList state } :=
  { base_inv with
    orders :=
      ⟨by cases state <;> decide, base_inv.orders.issued, by cases state <;> decide, by cases state <;> decide,
        base_inv.orders.stamps, by cases state <;> first | exact absurd rfl h | decide⟩ }

/-- An ORDER that is new; one that revises an entry, in the zone and out of it; one of the same revision; one whose end is
the reading; a full list with CANCELLED entries, and one whose entries all outrank it and do not outrank one of priority 6. -/
theorem witness_ArrivingOrdersAreStoredRevisedOrRefused :
    (Inv (receiving base) ∧ (readOrderBody (orderBodyBytes orderSeven)) = orderSeven
      ∧ 0 < orderSeven.finish.diff base.clock.reading ∧ hasNumber orderSeven.zones base.cfg.zone = true
      ∧ hasNumber (0x0008 : GroupSet) base.cfg.zone = false)
    ∧ ¬ 0 < (readOrderBody (orderBodyBytes { orderSeven with finish := ⟨1203, 482932000⟩ })).finish.diff base.clock.reading
    ∧ (Inv (receiving (holding .inForce)) ∧ (entrySeven .inForce).key = orderSeven.key
      ∧ (entrySeven .inForce).revision < (readOrderBody (orderBodyBytes { orderSeven with revision := 2 })).revision
      ∧ orderSeven.revision ≤ (entrySeven .inForce).revision)
    ∧ (Inv (receiving { base with orders.entries := fullList .cancelled }) ∧ (fullList .cancelled).length = 12
      ∧ (∃ e ∈ fullList .cancelled, e.state = .cancelled)
      ∧ ∀ e ∈ fullList .cancelled, Plain e.finish ∧ Plain e.key.stamp)
    ∧ (Inv (receiving { base with orders.entries := fullList .eclipsed }) ∧ (fullList .eclipsed).length = 12
      ∧ (∀ e ∈ fullList .eclipsed, e.key ≠ orderSeven.key) ∧ (∀ e ∈ fullList .eclipsed, e.state ≠ .cancelled)
      ∧ (∀ e ∈ fullList .eclipsed, ∀ d ∈ e.detail, Plain d.start ∧ Plain e.key.stamp)
      ∧ (∀ e ∈ fullList .eclipsed, ∀ d ∈ e.detail, Outranks d e.key orderSeven.detail orderSeven.key)
      ∧ ∀ e ∈ fullList .eclipsed, ∀ d ∈ e.detail,
        ¬ Outranks d e.key { orderSeven.detail with priority := 6 } orderSeven.key) :=
  ⟨⟨receiving_inv base_inv, by decide, by decide, by decide, by decide⟩, by decide,
    ⟨receiving_inv holding_inv, by decide, by decide, by decide⟩,
    ⟨receiving_inv (fullList_inv _ (by decide)), by decide, by decide, by unfold Plain; decide⟩,
    receiving_inv (fullList_inv _ (by decide)), by decide, by decide, by decide, by unfold Plain; decide,
    by unfold Outranks; decide, by unfold Outranks; decide⟩

/-- A CANCEL that fits the held entry, one of a lower revision; one for an order never heard; one of zone mask 0; a full list of
CANCELLED entries that end with the placeholder, and before it. -/
theorem witness_ArrivingCancelsWithdrawOrders :
    (Inv (receiving (holding .inForce)) ∧ readCancelBody (cancelBodyBytes cancelSeven) = cancelSeven
      ∧ (entrySeven .inForce).key = cancelSeven.key ∧ (entrySeven .inForce).revision ≤ cancelSeven.revision
      ∧ 0 < (entrySeven .inForce).finish.diff base.clock.reading
      ∧ (readCancelBody (cancelBodyBytes { cancelSeven with revision := 0 })).revision < (entrySeven .inForce).revision
      ∧ 0 < cancelSeven.finish.diff base.clock.reading ∧ hasNumber cancelSeven.zones base.cfg.zone = true)
    ∧ (Inv (receiving base) ∧ base.orders.entries = [] ∧ hasNumber (0x8000 : GroupSet) base.cfg.zone = false)
    ∧ (readCancelBody (cancelBodyBytes { cancelSeven with zones := 0 })).zones = 0
    ∧ (readCancelBody (cancelBodyBytes { cancelSeven with key := ⟨12, ⟨0, 0⟩⟩ })).key.origin = base.cfg.station
    ∧ (Inv (receiving { base with orders.entries := fullList .cancelled }) ∧ (fullList .cancelled).length = 12
      ∧ (∀ e ∈ fullList .cancelled, e.key ≠ cancelSeven.key ∧ Plain e.finish)
      ∧ (∀ e ∈ fullList .cancelled, ¬ 0 < cancelSeven.finish.diff e.finish)
      ∧ ∀ e ∈ fullList .cancelled, 0 < (cancelSeven.finish.plus 1).diff e.finish) :=
  ⟨⟨receiving_inv holding_inv, by decide, by decide, by decide, by decide, by decide, by decide, by decide⟩,
    ⟨receiving_inv base_inv, by decide, by decide⟩, by decide, by decide,
    receiving_inv (fullList_inv _ (by decide)), by decide, by unfold Plain; decide, by decide, by decide⟩

/-- An entry whose end is the reading, and a PENDING one whose start is the reading. -/
theorem witness_EvaluationSettlesTheOrderList :
    (let e := { entrySeven .inForce with finish := ⟨1203, 482932000⟩ }
    Inv { base with orders.entries := [e] } ∧ e.finish.diff base.clock.reading ≤ 0)
    ∧ (let d := { orderSeven.detail with start := ⟨1203, 482932000⟩ }
      Inv { base with orders.entries := [{ entrySeven .pending with detail := some d }] }
        ∧ d.start.diff base.clock.reading ≤ 0) := by
  refine ⟨⟨?_, by decide⟩, ?_, by decide⟩
  all_goals
    exact { base_inv with
            orders := ⟨by decide, by decide, by decide, by decide, by decide, by decide⟩ }

/-- The issued entry's repeat and end are the reading; its announce count wraps. -/
theorem witness_IssuedOrdersRepeatAndEnd :
    (issuing 254).port.part = .running ∧ Inv (issuing 254) ∧ issuedEntry 254 ∈ (issuing 254).orders.issued
    ∧ (issuedEntry 254).nextRepeat.diff (issuing 254).clock.reading ≤ 0
    ∧ (issuedEntry 254).finish.diff (issuing 254).clock.reading ≤ 0 ∧ (issuing 254).line.queue.length < 8
    ∧ 8 ≤ (List.replicate 8 someFrame).length ∧ quietLine (issuing 254).line ∧ sendingLine.tx ≠ .idle :=
  ⟨rfl, issuing_inv, by decide, by decide, by decide, by decide, by decide, by decide, by decide⟩

/-! ### Witnesses: the governing plan, adoption requests, isolation and fallback -/

/-- An order IN_FORCE for the held plan 7; a scheduled plan whose slot is EMPTY, held already and not, PLAN_MISSING raised and
not; PLAN_MISSING raised with the slot loaded; nothing scheduled; an entry at its end, and one at its start. -/
theorem witness_TheGoverningPlanIsDecided :
    (Inv (holding .inForce) ∧ (holding .inForce).port.part = .running
      ∧ (decideGoverning (holding .inForce)).orders.governing = some ⟨7, .fixed ⟨1203, 482400000⟩⟩
      ∧ ((holding .inForce).slot 7).state ≠ .empty ∧ (holding .inForce).orders.planMissing = false)
    ∧ (let s := { base with timetable.scheduled := some 8 }
      Inv s ∧ (s.slot 8).state = .empty ∧ s.orders.planMissing = false
        ∧ (decideGoverning s).orders.governing = some ⟨8, .daily⟩)
    ∧ (let s := { base with timetable.scheduled := some 8, orders.planMissing := true, orders.governing := some ⟨8, .daily⟩ }
      Inv s ∧ (decideGoverning s).orders.governing = s.orders.governing)
    ∧ (let s := { base with timetable.scheduled := some 3, orders.planMissing := true, orders.governing := some ⟨3, .daily⟩ }
      Inv s ∧ (s.slot 3).state ≠ .empty ∧ (decideGoverning s).orders.governing = some ⟨3, .daily⟩)
    ∧ (decideGoverning base).orders.governing = none
    ∧ (let e := { entrySeven .inForce with finish := ⟨1203, 482932000⟩ }
      e.finish.diff base.clock.reading ≤ 0)
    ∧ (let d := { orderSeven.detail with start := ⟨1203, 482932000⟩ }
      d.start.diff base.clock.reading ≤ 0) :=
  ⟨⟨holding_inv, by decide⟩, ⟨{ base_inv with timetable := ⟨by decide, by decide, by decide, .nil, .nil, .nil⟩ }, by decide⟩,
    ⟨{ base_inv with
       timetable := ⟨by decide, by decide, by decide, .nil, .nil, .nil⟩
       orders := ⟨by decide, by decide, by decide, by decide, by decide, by decide⟩ }, by decide⟩,
    ⟨{ base_inv with
       timetable := ⟨by decide, by decide, by decide, .nil, .nil, .nil⟩
       orders := ⟨by decide, by decide, by decide, by decide, by decide, by decide⟩ }, by decide⟩,
    by decide, by decide, by decide⟩

/-- The active plan; the plan that stands staged; a STORED one, with the final-clearance mark; an EMPTY one; the fallback mark
set; a preemption with an override and without. -/
theorem witness_AdoptionRequestsAreStaged :
    (Inv base ∧ base.coord.fallbackMark = false ∧ base.coord.active = some ⟨7, .daily⟩
      ∧ (base.slot 3).state ≠ .empty ∧ (base.slot 8).state = .empty)
    ∧ (let s := { base with
        coord := { base.coord with staged := some ⟨⟨3, .daily⟩, 1⟩, finalMark := true }, store := slots.setState 3 .staged }
      Inv s ∧ s.coord.staged.map StagedAdoption.adoption = some ⟨3, .daily⟩ ∧ (s.slot 9).state ≠ .empty)
    ∧ (let s := { base with coord := { base.coord with fallbackMark := true } }
      Inv s ∧ s.coord.fallbackMark = true)
    ∧ (let r := { saved with override := some ⟨⟨9, .daily⟩, 2⟩ }
      let s := { dwelling with preempt := { dwelling.preempt with save := some r }, store := slots.setState 9 .staged }
      Inv s ∧ s.coord.state = .suspended ∧ s.coord.cause = some .preemption ∧ s.preempt.save = some r
        ∧ r.override = some ⟨⟨9, .daily⟩, 2⟩ ∧ s.port.reports.length + 2 < 32)
    ∧ dwelling.preempt.save.bind SaveRecord.override = none :=
  ⟨⟨base_inv, by decide⟩,
    ⟨{ base_inv with
       coord := fun _ => by decide, store := ⟨by decide, by decide, by decide, plans_sound _ (by decide)⟩ }, by decide⟩,
    ⟨{ base_inv with coord := fun _ => by decide }, by decide⟩,
    ⟨{ dwelling_inv with store := ⟨by decide, by decide, by decide, plans_sound _ (by decide)⟩ }, by decide⟩, by decide⟩

/-! ### Witnesses: the station clock -/

/-- A neighbour. -/
def neighbour (station : Nat) (d : Int) (age : Nat) (state : ClockState) : Neighbour :=
  { station := station, lastD := d, age := age, clockState := state, anchored := false, coordState := .coordinated
    governing := none, disputed := false }

/-- The table of the worked round, before its ageing (01). -/
def table : List Neighbour :=
  [neighbour 3 35 0 .synced, neighbour 7 (-12) 0 .tracking, neighbour 15 8 1 .synced, neighbour 21 140 0 .holdover,
    neighbour 40 7900 0 .tracking, neighbour 55 20 2 .synced, neighbour 60 (-5) 0 .alone]

/-- A round due, in a clock state, with a neighbour table. -/
def atRound (s : State) (state : ClockState) (neighbours : List Neighbour) : State :=
  { s with clock.state := state, clock.neighbours := neighbours, instants.round := true }

/-- The worked round; an anchored station that is ALONE; an entry that reaches 30 rounds. -/
theorem witness_RoundsAgeAndClassifyNeighbours :
    (let s := atRound base .tracking (neighbour 90 0 29 .synced :: table)
    s.port.part = .running ∧ s.instants.round = true ∧ s.clock.state ≠ .alone)
    ∧ (let s := atRound anchored .alone table
      s.port.part = .running ∧ s.instants.round = true ∧ s.cfg.anchored = true) := by decide

/-- The worked round, with CLOCK_ISOLATED raised too; a round with no usable neighbour; rounds of HOLDOVER that come to the limit
and stay one below it. -/
theorem witness_RoundsCorrectAStationThatHasTheTime :
    (let s := atRound base .tracking table
    s.port.part = .running ∧ s.instants.round = true ∧ s.cfg.anchored = false ∧ s.clock.state ≠ .alone
        ∧ (takeRound s).clock.neighbours.filter (Neighbour.usable s.cfg.acceptWindow) ≠ [])
    ∧ (let s := atRound base .synced []
      s.port.part = .running ∧ s.instants.round = true ∧ s.cfg.anchored = false ∧ s.clock.state ≠ .alone
        ∧ (takeRound s).clock.neighbours = [])
    ∧ (let s := { atRound base .holdover table with clock.isolatedRaised := true }
      s.clock.state ≠ .alone ∧ s.clock.isolatedRaised = true
        ∧ (takeRound s).clock.neighbours.filter (Neighbour.usable s.cfg.acceptWindow) ≠ [])
    ∧ (let s := { atRound base .holdover [] with clock.holdover := 29 }
      s.clock.isolatedRaised = false ∧ s.cfg.holdoverLimit ≤ (takeRound s).clock.holdover)
    ∧ (let s := { atRound base .holdover [] with clock.holdover := 28 }
      s.clock.isolatedRaised = false ∧ (takeRound s).clock.holdover < s.cfg.holdoverLimit)
    ∧ (2 * 0 < [(-7 : Int)].length ∧ 2 * 1 < [(3 : Int), -40, 3].length) := by decide

/-- A fresh neighbour that is not ALONE (age 2 after ageing); only ALONE ones; none. -/
theorem witness_RoundsBringAnAloneStationIntoTime :
    (let s := atRound base .alone [neighbour 3 35 1 .tracking]
    s.port.part = .running ∧ s.instants.round = true ∧ s.cfg.anchored = false ∧ s.clock.state = .alone
        ∧ (ageNeighbours s.clock.neighbours).filter (fun n => decide (n.age ≤ 2) && decide (n.clockState ≠ .alone)) ≠ [])
    ∧ (let s := atRound base .alone [neighbour 60 (-5) 0 .alone, neighbour 61 0 2 .synced]
      s.port.part = .running ∧ s.instants.round = true ∧ s.cfg.anchored = false ∧ s.clock.state = .alone
        ∧ (ageNeighbours s.clock.neighbours).filter (fun n => decide (n.age ≤ 2) && decide (n.clockState ≠ .alone)) = []
        ∧ (ageNeighbours s.clock.neighbours).filter Neighbour.fresh ≠ []) := by decide

/-- COORDINATED with the clock ALONE, TRANSITION_OVERRUN raised; ISOLATED with the clock SYNCED; IDLE; the fallback mark clear and
set, with a plan requested and without; a raising of CLOCK_ISOLATED, which is configured ISOLATE; an ALONE station that
is the lowest among ALONE neighbours. -/
theorem witness_IsolationAndFallbackFollowTheAction :
    (let s := { base with clock.state := .alone, coord.overrunRaised := true }
    s.coord.state = .coordinated ∧ s.clock.state = .alone ∧ s.coord.overrunRaised = true)
    ∧ (let s := { base with coord.state := .isolated }
      s.coord.state = .isolated
        ∧ ¬ (s.clock.state = .alone ∨ s.faults.effective = .isolate ∨ s.faults.effective = .fallback))
    ∧ State.reset.coord.state = .idle
    ∧ (Inv base ∧ base.coord.fallbackMark = false ∧ FaultAction.report ≠ .fallback ∧ FaultAction.isolate ≠ .fallback)
    ∧ (let s := { base with coord.fallbackMark := true, coord.requested := some ⟨7, .daily⟩ }
      Inv s ∧ s.coord.fallbackMark = true ∧ s.coord.requested = some ⟨7, .daily⟩)
    ∧ (let s := { base with coord.fallbackMark := true }
      Inv s ∧ s.coord.fallbackMark = true ∧ s.coord.requested = none)
    ∧ (Inv base ∧ base.port.part = .running ∧ base.faults.effective = .report ∧ base.coord.state = .coordinated
      ∧ actionOf base.port.config .clockIsolated = some .isolate)
    ∧ (let s := atRound { base with coord.state := .isolated } .alone [neighbour 60 (-5) 0 .alone]
      Inv s ∧ s.port.part = .running ∧ s.instants.round = true ∧ s.cfg.anchored = false ∧ s.clock.state = .alone
        ∧ (∀ n ∈ s.clock.neighbours, n.clockState = .alone) ∧ s.coord.state = .isolated ∧ s.faults.effective ≠ .isolate
        ∧ s.faults.effective ≠ .fallback ∧ (takeRound s).clock.state = .tracking) :=
  ⟨by decide, by decide, by decide, ⟨base_inv, by decide⟩, ⟨{ base_inv with coord := fun _ => by decide }, by decide⟩,
    ⟨{ base_inv with coord := fun _ => by decide }, by decide⟩, ⟨base_inv, by decide⟩,
    { base_inv with
      clock := ⟨by decide, by decide, by decide, by decide⟩, coord := fun _ => by decide }, by decide⟩

theorem witness_RoundsOfAnAnchoredStation :
    (let s := atRound anchored .synced table
    s.port.part = .running ∧ s.instants.round = true ∧ s.cfg.anchored = true ∧ s.clock.state = .synced
        ∧ s.clock.setTimeMark = false)
    ∧ (let s := { atRound anchored .holdover table with clock.setTimeMark := true }
      s.port.part = .running ∧ s.instants.round = true ∧ s.cfg.anchored = true ∧ s.clock.state = .holdover
        ∧ s.clock.setTimeMark = true)
    ∧ (let s := { atRound anchored .holdover table with clock.setTimeMark := true, clock.isolatedRaised := true }
      s.clock.state = .holdover ∧ s.clock.setTimeMark = true ∧ s.clock.isolatedRaised = true)
    ∧ (let s := { atRound anchored .holdover table with clock.holdover := 29 }
      s.clock.setTimeMark = false ∧ s.clock.isolatedRaised = false
        ∧ s.cfg.holdoverLimit ≤ (takeRound s).clock.holdover)
    ∧ (let s := { atRound anchored .holdover table with clock.holdover := 28 }
      (takeRound s).clock.holdover < s.cfg.holdoverLimit)
    ∧ (atRound anchored .alone table).clock.state = .alone := by decide

/-- A TIME frame of the queue and a relay copy. -/
def timeFrame : Frame := { body := .time base.timeContent, attempts := 0, relay := false }
def relayCopy : Frame := { someFrame with relay := true }

/-- With a round of the same instant and without; a TIME frame queued; room for one more; eight frames with a relay copy among
them; eight without; the transmitter IDLE, sending, and deferring on the frame that is replaced or makes room. -/
theorem witness_TimeFramesAreBuiltAndQueued :
    ({ base with instants.frame := true } : State).port.part = .running
    ∧ ({ base with instants.frame := true } : State).instants.frame = true
    ∧ ({ base with instants.frame := true, instants.round := true } : State).instants.round = true
    ∧ ([someFrame, timeFrame] = [someFrame] ++ timeFrame :: [] ∧ timeFrame.isTime = true ∧ someFrame.isTime = false)
    ∧ (List.replicate 7 someFrame).length < 8
    ∧ (relayCopy :: List.replicate 7 someFrame = [] ++ relayCopy :: List.replicate 7 someFrame ∧ relayCopy.relay = true
      ∧ 8 ≤ (relayCopy :: List.replicate 7 someFrame).length)
    ∧ ((∀ x ∈ List.replicate 8 someFrame, x.relay = false) ∧ 8 ≤ (List.replicate 8 someFrame).length)
    ∧ (quietLine base.line ∧ sendingLine.tx ≠ .idle)
    ∧ (let l := { base.line with tx := .defer, queue := timeFrame :: List.replicate 7 relayCopy }
      l.tx = .defer ∧ l.inHand = none ∧ l.queue = [] ++ timeFrame :: List.replicate 7 relayCopy)
    ∧ (let l := { base.line with tx := .defer, queue := relayCopy :: relayCopy :: List.replicate 6 someFrame }
      l.tx = .defer ∧ l.inHand = none ∧ l.queue = [] ++ relayCopy :: relayCopy :: List.replicate 6 someFrame
        ∧ ∀ x ∈ l.queue, x.isTime = false) := by decide

/-- A body of a TIME frame: clock state, coordination state, and a governing plan. -/
def timeFrameBody (clockState coordState : Byte) (governing : List Byte) : List Byte :=
  [clockState, 1, coordState] ++ timeBytes ⟨1203, 482931980⟩ ++ governing

/-- Sixteen neighbours 20..35, of age 3 or 2. -/
def fullTable (old : Bool) : List Neighbour :=
  (List.range 16).map fun n => neighbour (20 + n) 0 (if old then 3 else 2) .synced

theorem fullTable_inv (old : Bool) : Inv (receiving { base with clock.neighbours := fullTable old }) :=
  { receiving_inv base_inv with
    clock := ⟨base_inv.clock.week, base_inv.clock.ms, by cases old <;> decide, by cases old <;> decide⟩ }

/-- Both lengths; senders 0, 250, 251 and the station's own; clock states 3 and 4; coordination states 4 and 5; a sender in the
table; a full table whose ages are 2, and one whose ages are 3. -/
theorem witness_TimeFramesUpdateTheNeighbourTable :
    ((receiving base).port.part = .running ∧ (receiving base).line.receiving = true
      ∧ (receiving base).line.captured = some ⟨1203, 482931950⟩ ∧ Inv (receiving base)
      ∧ (timeFrameBody 3 4 []).length = 9 ∧ (timeFrameBody 3 4 [7, 0x12, 0x34]).length = 12)
    ∧ ((0 : Byte).toNat = 0 ∧ 250 < (251 : Byte).toNat ∧ (250 : Byte).toNat = 250
      ∧ 3 < field (timeFrameBody 4 0 []) 0 1 ∧ 4 < field (timeFrameBody 0 5 []) 2 1 ∧ field (timeFrameBody 3 4 []) 0 1 = 3
      ∧ field (timeFrameBody 3 4 []) 2 1 = 4)
    ∧ (12 : Byte).toNat = base.cfg.station
    ∧ (Inv (receiving { base with clock.neighbours := fullTable false })
      ∧ (∀ x ∈ fullTable false, x.station ≠ 3) ∧ (fullTable false).length = 16 ∧ ∀ x ∈ fullTable false, x.age ≤ 2)
    ∧ (Inv (receiving { base with clock.neighbours := fullTable true })
      ∧ (∃ x ∈ fullTable true, 3 ≤ x.age) ∧ ∃ x ∈ fullTable true, x.station = 20) :=
  ⟨⟨rfl, rfl, rfl, receiving_inv base_inv, by decide, by decide⟩, by decide, by decide,
    ⟨fullTable_inv false, by decide, by decide, by decide⟩, fullTable_inv true, by decide, by decide⟩

/-- A boundary reached: in a running cycle, at its last decisecond, and in the flash mode before the toggle. -/
def atBoundary (s : State) : State := { s with instants.boundary := true }

theorem witness_BoundariesMoveEveryTimer :
    (let s := atBoundary { base with coord.position := 998 }
    s.instants.boundary = true ∧ s.instants.timing = false ∧ s.instants.round = false
        ∧ noLevels.cabinetFlash = s.bank.cabinetRaised ∧ s.coord.position + 1 < s.coord.length)
    ∧ (let s := atBoundary { base with coord.position := 999 }
      s.instants.boundary = true ∧ s.instants.timing = false ∧ s.instants.round = false
        ∧ noLevels.cabinetFlash = s.bank.cabinetRaised ∧ s.coord.length ≤ s.coord.position + 1)
    ∧ (let s := atBoundary { before with bank.half := 1 }
      s.instants.boundary = true ∧ s.instants.timing = false ∧ s.instants.round = false
        ∧ noLevels.cabinetFlash = s.bank.cabinetRaised ∧ s.bank.flash = true ∧ s.bank.half ≤ 1) := by decide

/-- In RUNNING with slews of 0, 1 and −1 ms; in CONFIGURING; with the flash mode off and on; CABINET_FLASH raised. -/
theorem witness_BoundariesSampleAndSlew :
    ((atBoundary base).instants.boundary = true ∧ (atBoundary base).instants.round = false
      ∧ (atBoundary base).port.part = .running ∧ (atBoundary base).clock.slew = 0)
    ∧ 0 < (atBoundary { base with clock.slew := 1 }).clock.slew
    ∧ (atBoundary { base with clock.slew := -1 }).clock.slew < 0
    ∧ ((atBoundary before).instants.boundary = true ∧ (atBoundary before).instants.round = false
      ∧ ¬ (atBoundary before).port.part = .running)
    ∧ (noLevels.cabinetFlash = (atBoundary base).bank.cabinetRaised ∧ (atBoundary base).bank.flash = false)
    ∧ noLevels.cabinetFlash = (atBoundary { base with bank.flash := true }).bank.cabinetRaised
    ∧ (noLevels.cabinetFlash = false ∧ (atBoundary { base with bank.cabinetRaised := true }).bank.cabinetRaised = true) := by
  decide

/-! ### Witnesses: the line -/

/-- The part with its transmitter waiting for some line time, the line idle, at a reading. -/
def waiting (tx : TxState) (wait ms : Nat) : State :=
  { base with clock.reading := ⟨1203, ms⟩, line.tx := tx, line.wait := wait, line.idleTime := 24000 }

/-- A BACKOFF that has run, the line idle for the gap. -/
def backoffOver : State := { waiting .backoff 0 482932000 with line.inHand := some relayCopy }

theorem backoffOver_taken : takeFirstDue backoffOver = some (takeBackoff backoffOver) := rfl

/-- The worked round, due at a boundary not yet taken, with a slew of −3 left from the round before. -/
def roundAtBoundary : State := atRound { base with clock.slew := -3, instants.boundary := true } .tracking table

theorem roundAtBoundary_taken : exec .round roundAtBoundary = .next (takeRound roundAtBoundary) := by
  have due : State.roundDue roundAtBoundary = true := by decide
  exact congrArg Host.Outcome.next (whenReached_of_due takeRound due)

/-- The receiver in HUNT and in FRAME; length 29; own readback; a wrong CRC; kind 4; a TIME frame of 10 bytes; the transmitter
in DEFER with and without a frame in hand, and in BACKOFF; a wait that ends within the decisecond, at its end, and one that
outlasts it; a round and a boundary the clock stands at (`roundAtBoundary_taken`), with a slew either way; a BACKOFF that is
over (`backoffOver_taken`). -/
theorem witness_LineEventsMoveReceiverAndTransmitter :
    (base.port.part = .running ∧ base.line.receiving = false)
    ∧ ((receiving base).port.part = .running ∧ (receiving base).line.receiving = true)
    ∧ 28 < (29 : Byte).toNat
    ∧ (let crc := fun (kind : Byte) (body : List Byte) => crc16 (kind :: 3 :: BitVec.ofNat 8 body.length :: body)
      crc 1 [0] ≠ 0 ∧ ¬ ((4 : Byte) = 1 ∨ (4 : Byte) = 2 ∨ (4 : Byte) = 3)
        ∧ (List.replicate 10 (0 : Byte)).length ∉ frameLengths 1)
    ∧ (let s := { base with line.tx := .defer, line.queue := [timeFrame], line.idleTime := 24000 }
      s.line.tx = .defer ∧ s.line.wait = 0 ∧ 24000 ≤ s.line.idleTime ∧ s.line.inHand = none
        ∧ s.line.queue = timeFrame :: [] ∧ timeFrame.body = .time base.timeContent ∧ s.clock.slew = 0
        ∧ s.instants.holding = false ∧ s.instants.boundary = false)
    ∧ (let s := { base with line.tx := .defer, line.inHand := some relayCopy, line.idleTime := 24000 }
      s.line.tx = .defer ∧ s.line.wait = 0 ∧ 24000 ≤ s.line.idleTime ∧ s.line.inHand = some relayCopy ∧ s.line.queue = [])
    ∧ (let s := { base with line.tx := .backoff }
      s.line.tx = .backoff ∧ s.line.wait = 0)
    ∧ (let s := waiting .defer 240000 482932000
      s.port.part = .running ∧ s.instants.holding = false ∧ s.instants.boundary = false ∧ takeFirstDue s = none
        ∧ s.line.wait ≠ 0 ∧ s.line.tx = .defer ∧ s.msToEvent s.msToMultiple = (240000 + 19200 - 1) / bitRateOf s.cfg.bitRate)
    ∧ (let s := waiting .backoff 19200 482932099
      takeFirstDue s = none ∧ s.line.tx = .backoff ∧ s.msToEvent s.msToMultiple = 1 ∧ s.msToMultiple = 1
        ∧ (19200 + 19200 - 1) / bitRateOf s.cfg.bitRate = 1)
    ∧ (let s := waiting .backoff 19201 482932099
      takeFirstDue s = none ∧ s.line.tx = .backoff ∧ s.msToEvent s.msToMultiple = s.msToMultiple
        ∧ s.msToMultiple < (19201 + 19200 - 1) / bitRateOf s.cfg.bitRate)
    ∧ (let s := roundAtBoundary
      s.port.part = .running ∧ s.instants.round = true ∧ (takeRound s).instants.holding = false ∧ (takeRound s).instants.boundary = true
        ∧ 0 < (takeRound s).clock.slew ∧ (takeRound s).clock.reading = ⟨1203, 482932000⟩)
    ∧ (let s := { base with clock.slew := -3, instants.boundary := true }
      ¬ (s.port.part = .running ∧ s.instants.round = true) ∧ s.instants.holding = false ∧ s.clock.slew < 0)
    ∧ (let s := backoffOver
      s.instants.boundary = false ∧ s.line.tx ≠ .defer
        ∧ (takeBackoff s).line.tx = .defer ∧ (takeBackoff s).line.wait = 0 ∧ 24000 ≤ (takeBackoff s).line.idleTime
        ∧ (takeBackoff s).line.inHand ≠ none) := by decide

/-- Seven attempts made and eight; in SENDING and in DEFER; behind the frame nothing, a relay copy and another frame. -/
theorem witness_AttemptsEndAsSentOrCollided :
    (let s := { base with line.tx := .sending, line.inHand := some { someFrame with attempts := 7 } }
    Inv s ∧ s.line.tx = .sending ∧ s.line.inHand = some { someFrame with attempts := 7 })
    ∧ (let s := { base with line.tx := .sending, line.inHand := some { someFrame with attempts := 8 }, line.giveUpRun := 15 }
      Inv s ∧ s.line.tx = .sending ∧ s.line.inHand = some { someFrame with attempts := 8 })
    ∧ (let s := { base with line.tx := .defer, line.queue := [someFrame], line.deferred := 8192000 }
      Inv s ∧ s.line.tx = .defer ∧ s.line.wait = 0 ∧ 8192000 ≤ s.line.deferred ∧ s.line.inHand = none ∧ s.line.queue = someFrame :: [])
    ∧ (let s := { base with line.tx := .sending, line.inHand := some someFrame, line.queue := [relayCopy] }
      Inv s ∧ s.line.tx = .sending ∧ s.line.queue.head? = some relayCopy ∧ relayCopy.relay = true)
    ∧ (let s := { base with line.tx := .sending, line.inHand := some relayCopy, line.queue := [someFrame] }
      Inv s ∧ s.line.tx = .sending ∧ s.line.queue.head? = some someFrame ∧ someFrame.relay = false) := by
  refine ⟨⟨?_, rfl, rfl⟩, ⟨?_, rfl, rfl⟩, ⟨?_, rfl, rfl, by decide, rfl, rfl⟩, ⟨?_, rfl, rfl, rfl⟩, ?_, rfl, rfl, rfl⟩
  all_goals exact { base_inv with line := ⟨by decide, by decide, by decide, by decide⟩ }

/-! ### Witnesses: the cycle -/

/-- Plan 7's limits; a place from which shortening takes fewer cycles, and one from which it does not. -/
theorem witness_TheMeasureFindsBothWays :
    0 < planSeven.cycle ∧ 0 < storedSeven.plan.cycle * storedSeven.plan.lengthen / 100
    ∧ (150 ≠ 0 ∧ ∃ n, 70 ≤ n * 150 ∧ n * 200 < 930) ∧ ¬ ∃ n, 570 ≤ n * 150 ∧ n * 200 < 430 :=
  ⟨by decide, by decide, ⟨by decide, 1, by decide⟩, by omega⟩

/-- Plan 7 lengthened and shortened by its whole limits. -/
theorem witness_CorrectedCyclesKeepEveryNeed :
    planSeven.stages.length = planSeven.stageCount ∧ planRefusal before.store planSeven = none
    ∧ 150 ≤ (storedFrom planSeven).limit .shorten ∧ 200 ≤ (storedFrom planSeven).limit .lengthen
    ∧ 0 ≤ (storedFrom planSeven).limit .pending := by decide

/-- The cycle end due: the junction at P = 999 of the cycle. -/
def ending : State := { base with coord.position := 999, instants.cycleEnd := true }

theorem ending_inv : Inv ending := { base_inv with coord := fun _ => by decide }

/-- In ISOLATED; at a reading within tolerance and at one out of it; with a transition that goes on, its counter 1; with a
staged adoption of wait count 1 and one of 2; with TRANSITION_OVERRUN raised, which is configured REPORT. -/
theorem witness_CycleEndsMeasureAndJudge :
    (let m := measureOf planSeven .daily ending.clock.reading
    Inv ending ∧ ending.port.part = .running ∧ ending.instants.cycleEnd = true ∧ ending.coord.overrunRaised = false
        ∧ actionOf ending.port.config .transitionOverrun = some .report ∧ ending.coord.active = some ⟨7, .daily⟩
        ∧ ending.storedPlan 7 = some storedSeven ∧ storedSeven.plan.number = 7 ∧ (storedSeven.plan.stage 1).isSome = true
        ∧ ¬ (m.toShorten ≤ 10 ∨ m.toLengthen ≤ 10))
    ∧ (measureOf planSeven (.fixed ⟨1203, 482932000⟩) ⟨1203, 482957000⟩).toShorten ≤ 10
    ∧ ({ ending with coord.state := .isolated } : State).coord.state = .isolated
    ∧ (({ direction := .shorten, counter := 1, amount := 70 } : Transition).direction ≠ .pending)
    ∧ (let s := { ending with
        coord.staged := some ⟨⟨9, .daily⟩, 1⟩, store := slots.setState 9 .staged }
      Inv s ∧ s.coord.staged.filter (fun x => decide (x.wait < 2)) = some ⟨⟨9, .daily⟩, 1⟩
        ∧ s.storedPlan 9 = some storedNine)
    ∧ ((some ⟨⟨9, .daily⟩, 2⟩ : Option StagedAdoption).filter fun x => decide (x.wait < 2)) = none
    ∧ (let s := { ending with
        coord := { ending.coord with overrunRaised := true, active := some ⟨7, .fixed ⟨1203, 482907000⟩⟩ } }
      Inv s ∧ s.coord.overrunRaised = true ∧ actionOf s.port.config .transitionOverrun = some .report
        ∧ (measureOf planSeven (.fixed ⟨1203, 482907000⟩) s.clock.reading).toShorten ≤ 10) :=
  ⟨⟨ending_inv, by decide⟩, by decide, rfl, by decide,
    ⟨{ ending_inv with store := ⟨by decide, by decide, by decide, plans_sound _ (by decide)⟩ }, by decide, by decide⟩, by decide,
    { ending_inv with coord := fun _ => by decide }, by decide⟩

/-- At the green end of stage 1 with input 3 called, with it not called, and of the last stage with the decision made. -/
theorem witness_GreenEndsSkipAndClear :
    (let s := { base with coord.position := 390 }
    s.seq.state = .run ∧ s.seq.run = some ⟨1, .green, 0, 390, none, none⟩
        ∧ s.seq.figures = some (nominalFigures planSeven) ∧ s.storedPlan 7 = some storedSeven
        ∧ (planSeven.stage 1).isSome = true ∧ 390 ≤ s.coord.position ∧ hasNumber s.seq.latches 3 = false)
    ∧ hasNumber ({ base with seq.latches := 4 } : State).seq.latches 3 = true
    ∧ (let s := { base with coord.position := 940, seq.run := some ⟨3, .green, 650, 940, some .nextCycle, none⟩ }
      s.seq.run = some ⟨3, .green, 650, 940, some .nextCycle, none⟩ ∧ 940 ≤ s.coord.position) := by decide

/-- Stage 1 at its yellow end; at the end of its all-red with stage 2 next; a trailing yellow at its
end. -/
theorem witness_ClearancesEndAndGreensBegin :
    (let s := { base with coord.position := 430, seq.run := some ⟨1, .yellow, 0, 430, some (.stage 2), some 0x000C⟩ }
    s.seq.state = .run ∧ (s.stageOf 7 1).map StageRecord.allRed = some 20 ∧ 430 ≤ s.coord.position)
    ∧ (let s := { base with coord.position := 450, seq.run := some ⟨1, .allRed, 0, 450, some (.stage 2), some 0x000C⟩ }
      s.seq.state = .run ∧ 450 ≤ s.coord.position ∧ (s.stageOf 7 2).isSome = true)
    ∧ (let s := { base with
        seq.trailing := [⟨4, 0⟩] }
      s.seq.state = .run ∧ ∃ x ∈ s.seq.trailing, x.group = 4 ∧ x.yellow = 0) := by decide

/-- The end of startup red. -/
def starting : State :=
  { base with
    seq := { base.seq with state := .startupRed, run := none, figures := none, served := [] }
    coord := { base.coord with state := .suspended, cause := some .flash, figures := none, active := none }
    bank.drive := Vector.replicate 16 .red, bank.commanded := Vector.replicate 16 .red }

theorem starting_inv : Inv starting := { base_inv with coord := fun _ => by decide, bank := ⟨by decide, by decide, by decide⟩ }

/-- With the default plan, a staged plan, an active plan, and with a take held for PE1, PE2 calling too. -/
theorem witness_StartupRedEndsInTheFirstCycle :
    (Inv starting ∧ starting.seq.state = .startupRed ∧ starting.seq.startupCount = 0
      ∧ starting.coord.overrunRaised = false ∧ starting.instants.cycleEnd = false ∧ starting.coord.staged = none
      ∧ starting.coord.active = none ∧ starting.cfg.defaultPlan = 7 ∧ starting.storedPlan 7 = some storedSeven
      ∧ storedSeven.plan.number = 7 ∧ (storedSeven.plan.stage 1).isSome = true ∧ starting.seq.heldTake = false)
    ∧ (let s := { starting with
        seq.heldTake := true
        preempt := { starting.preempt with heldTake := true, pe1 := ⟨true, 0, false⟩, pe2 := ⟨true, 0, false⟩ } }
      Inv s ∧ s.seq.heldTake = true ∧ s.preempt.claimant = some .pe1 ∧ s.preempt.calls .pe2 = true
        ∧ (planSeven.stage 1).map (fun st => st.green &&& ~~~(s.route .pe1).track) = some 0x0303) :=
  ⟨⟨starting_inv, by decide⟩, { starting_inv with }, by decide⟩

/-! ### Witnesses: demand, outputs, faults -/

/-- Inputs 0, 1, 16 and 17. -/
theorem witness_PlaceCallSetsTheLatch :
    State.reset.port.part = .configuring ∧ base.port.part = .running ∧ (0 : Byte).toNat = 0 ∧ 1 ≤ (1 : Byte).toNat
    ∧ (16 : Byte).toNat ≤ 16 ∧ 16 < (17 : Byte).toNat
    ∧ ((planSeven.stage 2).map fun st => (st.demandClass, st.demandInput)) = some (1, (3 : Byte).toNat) := by decide

/-- A filter in some state for group 11, three samples from its mark. -/
def filters (faulted : Bool) : Vector Filter 16 := (Vector.replicate 16 ⟨false, 0⟩).set 10 ⟨faulted, 3⟩

/-- The flash at its toggle; the filters of group 11 with their counts reached. -/
theorem witness_FlashAndFiltersChange :
    (let s := { before with instants.toggle := true }
    s.bank.flash = true ∧ s.instants.toggle = true)
    ∧ (let s := { base with bank.greenFilter := filters false, bank.greenSenseRaised := true }
      Inv s ∧ s.port.part = .running ∧ s.bank.flash = false ∧ s.cfg.greenCount ≤ (s.bank.greenFilter[(10 : Group)]).count
        ∧ (s.bank.greenFilter[(10 : Group)]).faulted = false ∧ s.bank.greenSenseRaised = true)
    ∧ (let s := { base with bank.greenFilter := filters true, bank.greenSenseRaised := true }
      Inv s ∧ (s.bank.greenFilter[(10 : Group)]).faulted = true
        ∧ ∀ h : Group, h ≠ 10 → (s.bank.greenFilter[h]).faulted = false)
    ∧ (let s := { base with
        bank.lampFilter := (filters false).set 10 ⟨false, 20⟩ }
      Inv s ∧ s.cfg.lampCount ≤ (s.bank.lampFilter[(10 : Group)]).count
        ∧ actionOf s.port.config .lampOut = some .report ∧ (s.bank.lampFilter[(10 : Group)]).faulted = false)
    ∧ (let s := { base with
        bank.lampFilter := (filters true).set 10 ⟨true, 20⟩, bank.lampOutRaised := true }
      Inv s ∧ (s.bank.lampFilter[(10 : Group)]).faulted = true
        ∧ ∀ h : Group, h ≠ 10 → (s.bank.lampFilter[h]).faulted = false) := by
  refine ⟨by decide, ⟨?_, by decide⟩, ⟨?_, by decide⟩, ⟨?_, by decide⟩, ?_, by decide⟩
  all_goals exact { base_inv with bank := ⟨by decide, by decide, by decide⟩ }

/-- GREEN_SENSE about to be raised for group 11 in DWELL, groups 12 and 13 at their counts too; the cabinet-flash input active at
a boundary that ends the lamp-out count of group 3. -/
theorem witness_FlashTakesTheJunction :
    (let s := { dwelling with bank.greenFilter := filters false }
    Inv s ∧ s.port.part = .running ∧ s.faults.effective ≠ .flash ∧ s.seq.state ≠ .flash ∧ s.bank.flash = false
        ∧ (s.preempt.state = .idle ↔ s.preempt.running = none) ∧ ¬ s.preempt.state = .idle
        ∧ actionOf s.port.config .greenSense = some .flash ∧ s.cfg.greenCount ≤ (s.bank.greenFilter[(10 : Group)]).count
        ∧ (s.bank.greenFilter[(10 : Group)]).faulted = false ∧ s.bank.greenSenseRaised = false)
    ∧ (let s := { dwelling with
        bank.greenFilter := (filters false).set 11 ⟨false, 3⟩
        bank.lampFilter := (Vector.replicate 16 ⟨false, 0⟩).set 12 ⟨false, 20⟩ }
      Inv s ∧ s.cfg.greenCount ≤ (s.bank.greenFilter[(11 : Group)]).count ∧ (s.bank.greenFilter[(11 : Group)]).faulted = false
        ∧ s.cfg.lampCount ≤ (s.bank.lampFilter[(12 : Group)]).count ∧ (s.bank.lampFilter[(12 : Group)]).faulted = false)
    ∧ (let s := atBoundary { base with bank.lampFilter := (Vector.replicate 16 ⟨false, 0⟩).set 2 ⟨false, 19⟩ }
      Inv s ∧ (s.preempt.state = .idle ↔ s.preempt.running = none)
        ∧ (s.preempt.state = .idle → s.preempt.waiting = none ∧ s.preempt.save = none)
        ∧ s.instants.boundary = true ∧ s.instants.round = false
        ∧ ({ noLevels with cabinetFlash := true } : Levels).cabinetFlash = true ∧ s.bank.cabinetRaised = false
        ∧ s.bank.lampOutRaised = false ∧ (s.faults.record .lampOut).state ≠ .active ∧ inSet 2 s.cfg.monitored = true
        ∧ s.bank.settle[(2 : Group)] = 0 ∧ s.bank.drive[(2 : Group)] = .red ∧ inSet 2 noLevels.redSense = false
        ∧ (s.bank.lampFilter[(2 : Group)]).faulted = false
        ∧ s.cfg.lampCount ≤ (s.bank.lampFilter[(2 : Group)]).count + 1) :=
  ⟨⟨{ dwelling_inv with bank := ⟨by decide, by decide, by decide⟩ }, by decide⟩,
    ⟨{ dwelling_inv with bank := ⟨by decide, by decide, by decide⟩ }, by decide⟩,
    { base_inv with bank := ⟨by decide, by decide, by decide⟩ }, by decide⟩

/-- The junction with a record HELD and the effective action it asks for. -/
def heldFault (c : FaultClass) (action : FaultAction) : State :=
  { base with faults := { base.faults.setRecord c ⟨.held, 1, some ⟨1203, 0⟩, none⟩ with effective := action } }

/-- A record of each state; places 0, 1, 8 and 9; a HELD fallback that leaves no other, and a HELD flash acknowledged. -/
theorem witness_RecordsAreRaisedWithdrawnAndAcknowledged :
    (base.port.part = .running ∧ (base.faults.record .lampOut).state = .clear)
    ∧ (({ base with faults := base.faults.setRecord .lampOut ⟨.active, 255, none, some 1⟩ } : State).faults.record
        .lampOut).state = .active
    ∧ ((0 : Byte).toNat = 0 ∧ 8 < (9 : Byte).toNat ∧ (1 : Byte).toNat = FaultClass.clockIsolated.place.val + 1
      ∧ (8 : Byte).toNat = FaultClass.cabinetFlash.place.val + 1)
    ∧ (let s := heldFault .planMissing .fallback
      Inv s ∧ (s.faults.record .planMissing).state = .held ∧ s.coord.overrunRaised = false)
    ∧ (let s := { heldFault .greenSense .flash with seq := { base.seq with state := .flash, run := none } }
      Inv s ∧ (s.faults.record .greenSense).state = .held ∧ s.coord.overrunRaised = false ∧ s.seq.state = .flash
        ∧ s.faults.effective = .flash
        ∧ mostSevere s.port.config (s.faults.setRecord .greenSense FaultRecord.reset) ≠ .flash) :=
  ⟨by decide, by decide, by decide,
    ⟨{ base_inv with
       settled := by unfold State.Settled; decide, quiet := fun h => absurd h (by decide) }, by decide⟩,
    { base_inv with
      settled := by unfold State.Settled; decide, quiet := fun h => absurd h (by decide) }, by decide⟩

/-! ### Witnesses: preemption -/

/-- An input about to be activated. -/
def calling : InputFilter := ⟨false, 3, false⟩

/-- The junction in LEAVING, stage 3 expected. -/
def leaving : State :=
  { dwelling with preempt := { dwelling.preempt with state := .leaving, expected := some 0x0430, pe1 := ⟨false, 0, false⟩ } }

/-- Stage 1's YELLOW towards stage 2 in its third second, a cycle end due, group 5 trailing. -/
def clearingOne : State :=
  { base with
    coord.position := 419, instants.cycleEnd := true
    seq.run := some ⟨1, .yellow, 0, 430, some (.stage 2), some 0x000C⟩, seq.trailing := [⟨4, 7⟩] }

/-- PE1 about to be activated in the ENTERING of PE2, 25 ds of its green hold still to run, the groups of a set GREEN. -/
def overtaken (green : GroupSet) : State :=
  { dwelling with
    bank.drive := Vector.ofFn fun g : Group => if inSet g green then .green else .red
    preempt :=
      { dwelling.preempt with
        state := .entering, running := some .pe2, pe1 := calling, pe2 := ⟨true, 0, false⟩, greenHold := some 25, dwell := 0 } }

/-- PE1 in RUN before its green hold has run (P = 60) and after it (P = 300), PE2 calling too, in FLASH, against PE2 in DWELL,
and in ENTERING with a green hold, a group outside PE1's track set GREEN and none; in LEAVING; PE2 against PE1. -/
theorem witness_ActivationsTakeHoldOrWait :
    (let s := { base with preempt.pe1 := calling, coord.position := 60 }
    Inv s ∧ s.port.part = .running ∧ s.cfg.filterCount ≤ (s.preempt.input .pe1).count
        ∧ (s.preempt.input .pe1).active = false ∧ (s.preempt.input .pe1).ignored = false ∧ s.coord.overrunRaised = false
        ∧ actionOf s.port.config .transitionOverrun = some .report
        ∧ s.preempt.state = .idle ∧ s.seq.state = .run ∧ s.preempt.calls .pe2 = false
        ∧ (s.handOver.map fun h => h.greenHold (s.route .pe1).track) = some 40)
    ∧ (let s := { base with preempt.pe1 := calling, preempt.pe2 := ⟨true, 0, false⟩ }
      Inv s ∧ s.preempt.state = .idle ∧ s.seq.state = .run ∧ s.preempt.calls .pe2 = true ∧ s.handOver.isSome = true)
    ∧ (let s := { base with preempt.pe1 := calling }
      Inv s ∧ (s.handOver.map fun h => h.greenHold (s.route .pe1).track) = some 0)
    ∧ (let s := { starting with preempt.pe2 := calling }
      Inv s ∧ s.preempt.state = .idle ∧ s.seq.state = .startupRed)
    ∧ (let s := { dwelling with preempt := { dwelling.preempt with running := some .pe2, pe1 := calling } }
      Inv s ∧ s.preempt.state = .dwell ∧ s.preempt.running = some .pe2 ∧ s.preempt.greenHold = none
        ∧ s.preempt.pe2.active = false)
    ∧ (Inv (overtaken 0x0303) ∧ Inv (overtaken 0x0004)
      ∧ ∀ green, green = 0x0303 ∨ green = 0x0004 →
        let s := overtaken green
        s.preempt.state = .entering ∧ s.preempt.running = some .pe2 ∧ s.preempt.greenHold = some 25
          ∧ s.cfg.filterCount ≤ (s.preempt.input .pe1).count ∧ (s.preempt.input .pe1).active = false
          ∧ s.preempt.clearing = [] ∧ s.preempt.allRed = none
          ∧ ((∀ g : Group, s.bank.drive[g] = .green → inSet g (s.route .pe1).track = true) ↔ green = 0x0004))
    ∧ (let s := { dwelling with preempt.pe2 := calling }
      Inv s ∧ s.preempt.state = .dwell ∧ s.preempt.running = some .pe1)
    ∧ (let s := { leaving with preempt.pe1 := calling }
      Inv s ∧ s.preempt.state = .leaving)
    ∧ (base.seq.figures = some (nominalFigures planSeven) ∧ (nominalFigures planSeven).plan = 7
      ∧ base.storedPlan 7 = some storedSeven ∧ (storedSeven.plan.stage 1).isSome = true
      ∧ base.seq.run = some ⟨1, .green, 0, 390, none, none⟩ ∧ clearingOne.seq.run = some ⟨1, .yellow, 0, 430, some (.stage 2), some 0x000C⟩
      ∧ clearingOne.instants.cycleEnd = true) :=
  ⟨⟨{ base_inv with coord := fun _ => by decide }, by decide⟩, ⟨{ base_inv with }, by decide⟩,
    ⟨{ base_inv with }, by decide⟩, ⟨{ starting_inv with }, by decide⟩, ⟨{ dwelling_inv with }, by decide⟩,
    ⟨{ dwelling_inv with bank := ⟨by decide, by decide, by decide⟩ }, { dwelling_inv with bank := ⟨by decide, by decide, by decide⟩ },
      by rintro green (rfl | rfl) <;> decide⟩,
    ⟨{ dwelling_inv with }, by decide⟩, ⟨{ dwelling_inv with }, by decide⟩, by decide⟩

/-- A resume override at stage 2 in the save record, and the fallback mark. -/
def overriding (plan : Nat) (mark : Bool) (s : State) : State :=
  { s with preempt.save := some { saved with override := some ⟨⟨plan, .daily⟩, 2⟩ }, coord.fallbackMark := mark }

/-- What is resumed: the override of the STORED slot 9, the fallback plan 9 under the mark, and, the override's slot 8 EMPTY, the
active plan. -/
theorem overriding_choices (s : State) (cfg : s.cfg = record) (store : s.store = slots)
    (coord : s.coord.staged = none ∧ s.coord.active = some ⟨7, .daily⟩) :
    ResumeChoice (overriding 9 false s) { saved with override := some ⟨⟨9, .daily⟩, 2⟩ } ⟨9, .daily⟩ 2
    ∧ ResumeChoice (overriding 9 true s) { saved with override := some ⟨⟨9, .daily⟩, 2⟩ } ⟨9, .daily⟩ 3
    ∧ ResumeChoice (overriding 8 false s) { saved with override := some ⟨⟨8, .daily⟩, 2⟩ } ⟨7, .daily⟩ 3 := by
  refine ⟨.inr (.inl ⟨rfl, _, rfl, ?_, rfl, rfl⟩), .inl ⟨rfl, ?_, rfl⟩, .inr (.inr ⟨rfl, fun o h => ?_, rfl, .inr coord⟩)⟩
  · show (s.store.slot 9).state ≠ .empty
    rw [store]
    decide
  · show _ = Adoption.mk s.cfg.fallbackPlan .daily
    rw [cfg]
    rfl
  · cases h
    show (s.store.slot 8).state = .empty
    rw [store]
    decide

/-- An input about to be released. -/
def releasing (ignored : Bool) : InputFilter := ⟨true, 3, ignored⟩

/-- A release in IDLE with a take held, in ENTERING, in DWELL at its minimum and before it; of an ignored input, in IDLE and
in LEAVING; the minimum dwell reached, with a resume override and without, under the fallback mark too; the maximum hold. -/
theorem witness_ReleasesAndDwellLimitsEndTheRun :
    (let s := { starting with preempt.pe1 := releasing false, preempt.heldTake := true, seq.heldTake := true }
    Inv s ∧ s.port.part = .running ∧ s.coord.overrunRaised = false ∧ s.preempt.state ≠ .dwell
        ∧ s.cfg.filterCount ≤ (s.preempt.input .pe1).count ∧ (s.preempt.input .pe1).active = true
        ∧ (s.preempt.input .pe1).ignored = false ∧ s.preempt.state = .idle ∧ s.preempt.calls .pe2 = false)
    ∧ (let s := { dwelling with preempt := { dwelling.preempt with pe1 := releasing false } }
      Inv s ∧ s.preempt.clearing = [] ∧ s.preempt.allRed = none ∧ s.preempt.state = .dwell
        ∧ (s.route .pe1).minDwell ≤ s.preempt.dwell)
    ∧ (let s := { dwelling with preempt := { dwelling.preempt with pe1 := releasing false, dwell := 299 } }
      Inv s ∧ s.preempt.dwell < s.runningRoute.minDwell)
    ∧ (let s := { base with preempt.pe1 := releasing true, preempt.stuckRaised := true }
      Inv s ∧ (s.preempt.input .pe1).ignored = true ∧ ¬ s.preempt.state = .dwell
        ∧ actionOf s.port.config .preemptStuck = some .report ∧ (s.preempt.input .pe2).ignored = false)
    ∧ (let s := { dwelling with
        preempt := { dwelling.preempt with state := .leaving, pe1 := releasing true, waiting := some .pe1 } }
      Inv s ∧ (s.preempt.input .pe1).ignored = true ∧ ¬ s.preempt.state = .dwell)
    ∧ (let s := { dwelling with preempt := { dwelling.preempt with pe1 := ⟨false, 0, false⟩ } }
      Inv s ∧ s.preempt.running = some .pe1 ∧ (s.preempt.input .pe1).active = false
        ∧ s.preempt.save = some saved ∧ ResumeChoice s saved ⟨7, .daily⟩ 3)
    ∧ (∀ mark, let s := overriding 9 mark { dwelling with preempt := { dwelling.preempt with pe1 := ⟨false, 0, false⟩ } }
      Inv s ∧ s.preempt.save = some { saved with override := some ⟨⟨9, .daily⟩, 2⟩ } ∧ s.coord.active ≠ some ⟨9, .daily⟩
        ∧ s.storedPlan 9 = some storedNine ∧ s.port.reports.length ≤ 20
        ∧ ResumeChoice s { saved with override := some ⟨⟨9, .daily⟩, 2⟩ } ⟨9, .daily⟩ (if mark then 3 else 2))
    ∧ (let s := { dwelling with preempt := { dwelling.preempt with dwell := 3000 } }
      Inv s ∧ (s.route .pe1).maxHold ≠ 0 ∧ (s.route .pe1).maxHold ≤ s.preempt.dwell
        ∧ (s.preempt.input .pe1).active = true) := by
  refine ⟨⟨{ starting_inv with }, by decide⟩, ⟨{ dwelling_inv with }, by decide⟩, ⟨{ dwelling_inv with }, by decide⟩,
    ⟨{ base_inv with }, by decide⟩, ⟨{ dwelling_inv with }, by decide⟩, ⟨{ dwelling_inv with }, rfl, rfl, rfl, ?_⟩,
    fun mark => ⟨{ dwelling_inv with coord := fun h => absurd h (by cases mark <;> decide) }, rfl, by cases mark <;> decide, by cases mark <;> decide, by cases mark <;> decide, ?_⟩,
    { dwelling_inv with }, by decide⟩
  · exact Or.inr (Or.inr ⟨rfl, fun o h => by simp [saved] at h, rfl, Or.inr ⟨rfl, rfl⟩⟩)
  · have choices := overriding_choices { dwelling with preempt := { dwelling.preempt with pe1 := ⟨false, 0, false⟩ } }
      rfl rfl ⟨rfl, rfl⟩
    cases mark
    · exact choices.1
    · exact choices.2.1

/-- The junction in ENTERING for PE1. -/
def entering (clearing : List Clearing) (allRed greenHold : Option Nat) : State :=
  { dwelling with
    preempt :=
      { dwelling.preempt with state := .entering, clearing := clearing, allRed := allRed, greenHold := greenHold, dwell := 0 } }

/-- A group of stage 1 whose yellow has run. -/
def cleared (group : Group) (allRed : Nat) : Clearing := ⟨group, ⟨.stage 1, 40, allRed⟩, 0⟩

/-- The green hold at its end; the last of two groups, the last group with an all-red and without, in ENTERING and in LEAVING;
the all-red at its end in both; a hand-back with a resume override, its slot STORED and EMPTY. -/
theorem witness_ClearingRunsToDwellOrHandBack :
    (let s := entering [] none (some 0)
    Inv s ∧ s.preempt.running = some .pe1 ∧ s.coord.overrunRaised = false ∧ s.preempt.state = .entering
        ∧ s.preempt.greenHold = some 0)
    ∧ (let s := entering [cleared 0 20, cleared 1 20] none none
      Inv s ∧ s.preempt.greenHold = none ∧ (∃ c ∈ s.preempt.clearing, c.group = 0 ∧ c.yellow = 0)
        ∧ (s.preempt.clearing.filter fun c => decide (c.group ≠ 0)) ≠ [])
    ∧ (let s := entering [cleared 15 0] none none
      Inv s ∧ (∃ c ∈ s.preempt.clearing, c.group = 15 ∧ c.yellow = 0)
        ∧ (s.preempt.clearing.filter fun c => decide (c.group ≠ 15)) = [])
    ∧ (let s := entering [] (some 0) none
      Inv s ∧ s.preempt.clearing = [] ∧ s.preempt.allRed = some 0 ∧ s.preempt.state = .entering)
    ∧ (let s := { leaving with preempt.clearing := [cleared 2 0] }
      Inv s ∧ s.preempt.running = some .pe1 ∧ s.preempt.greenHold = none ∧ s.preempt.state = .leaving
        ∧ (∃ c ∈ s.preempt.clearing, c.group = 2 ∧ c.yellow = 0) ∧ s.preempt.clearedAllRed = 0
        ∧ (s.preempt.clearing.filter fun c => decide (c.group ≠ 2)) = []
        ∧ (∀ c ∈ s.preempt.clearing, c.holder.allRed = 0) ∧ ResumeChoice s saved ⟨7, .daily⟩ 3)
    ∧ (let s := { leaving with preempt.allRed := some 0 }
      Inv s ∧ s.preempt.clearing = [] ∧ s.preempt.allRed = some 0 ∧ s.preempt.state = .leaving)
    ∧ (let s := overriding 9 false { leaving with preempt.allRed := some 0 }
      Inv s ∧ s.preempt.save = some { saved with override := some ⟨⟨9, .daily⟩, 2⟩ } ∧ s.coord.active ≠ some ⟨9, .daily⟩
        ∧ (s.slot 9).state ≠ .empty ∧ s.storedPlan 9 = some storedNine ∧ s.port.reports.length ≤ 20
        ∧ ResumeChoice s { saved with override := some ⟨⟨9, .daily⟩, 2⟩ } ⟨9, .daily⟩ 2)
    ∧ (let s := overriding 8 false { leaving with preempt.allRed := some 0 }
      Inv s ∧ s.preempt.save = some { saved with override := some ⟨⟨8, .daily⟩, 2⟩ } ∧ s.coord.fallbackMark = false
        ∧ (s.slot 8).state = .empty
        ∧ ResumeChoice s { saved with override := some ⟨⟨8, .daily⟩, 2⟩ } ⟨7, .daily⟩ 3) :=
  ⟨⟨{ dwelling_inv with }, by decide⟩, ⟨{ dwelling_inv with }, by decide⟩, ⟨{ dwelling_inv with }, by decide⟩,
    ⟨{ dwelling_inv with }, by decide⟩,
    ⟨{ dwelling_inv with }, rfl, rfl, rfl, by decide, rfl, rfl, by decide,
      Or.inr (Or.inr ⟨rfl, fun o h => by simp [saved] at h, rfl, Or.inr ⟨rfl, rfl⟩⟩)⟩,
    ⟨{ dwelling_inv with }, by decide⟩,
    ⟨{ dwelling_inv with coord := fun h => absurd h (by decide) }, rfl, by decide, by decide, by decide, by decide,
      (overriding_choices { leaving with preempt.allRed := some 0 } rfl rfl ⟨rfl, rfl⟩).1⟩,
    { dwelling_inv with coord := fun h => absurd h (by decide) }, rfl, rfl, by decide,
    (overriding_choices { leaving with preempt.allRed := some 0 } rfl rfl ⟨rfl, rfl⟩).2.2⟩

/-- A body of REWRITE_SAVE. -/
def rewriteBody (plan kind stage : Nat) : List Byte := be 1 plan ++ be 1 kind ++ timeBytes ⟨1203, 0⟩ ++ be 1 stage

/-- Stage 9 and kind 2; IDLE; an EMPTY slot; a stage beyond the count; accepted at the last stage, for the STORED slot 9 and the
ACTIVE slot 7. -/
theorem witness_RewriteSaveFollowsItsCases :
    (¬ field (rewriteBody 9 0 9) 8 1 ≤ 8 ∧ ¬ field (rewriteBody 9 2 8) 1 1 ≤ 1 ∧ (rewriteBody 9 1 8).length = 9
      ∧ field (rewriteBody 9 1 8) 8 1 ≤ 8 ∧ (timeField (rewriteBody 9 1 8) 2).ms < 604800000)
    ∧ (Inv base ∧ base.port.part = .running ∧ base.preempt.state = .idle)
    ∧ (Inv dwelling ∧ dwelling.port.part = .running ∧ dwelling.preempt.state ≠ .idle
      ∧ dwelling.preempt.save = some saved ∧ (dwelling.slot 8).state = .empty
      ∧ dwelling.storedPlan 9 = some storedNine ∧ dwelling.storedPlan 7 = some storedSeven
      ∧ storedNine.plan.stageCount < field (rewriteBody 9 0 5) 8 1
      ∧ field (rewriteBody 9 0 4) 8 1 ≤ storedNine.plan.stageCount) :=
  ⟨by decide, ⟨base_inv, by decide⟩, dwelling_inv, by decide⟩

/-- Before START no round, cycle end or filter is due; a BACKOFF that outlasts the decisecond by a thousandth of a bit time. -/
theorem witness_EventsThatAreNotDueChangeNothing :
    (clockDue .round = some State.roundDue ∧ State.roundDue (runUntil State.roundDue runFuel before) = false)
    ∧ (clockDue .backoffExpiry = some State.backoffDue
      ∧ State.backoffDue (runUntil State.backoffDue runFuel (waiting .backoff 1920001 482932000)) = false)
    ∧ (boundaryDue .cycleEnd = some State.cycleEndDue ∧ before.cycleEndDue = false
      ∧ (timed (toBoundary before)).cycleEndDue = false)
    ∧ (sampleDue (.preemptActivation .pe1) = some (fun s => s.activationDue .pe1) ∧ before.activationDue .pe1 = false) :=
  ⟨⟨rfl, by decide⟩, ⟨rfl, by decide⟩, ⟨rfl, by decide, by decide⟩, rfl, by decide⟩

/-! ### Single commands -/

/-- 08, "a rail call during stage 1": the take at P = 60 leaves a green hold of 40 and stage 3 to resume at. -/
theorem test_rail_call_during_stage_one :
    (takeActivation .pe1 { base with preempt.pe1 := calling, coord.position := 60 }).preempt.greenHold = some 40
    ∧ (takeActivation .pe1 { base with preempt.pe1 := calling, coord.position := 60 }).preempt.save.map SaveRecord.resumeStage
      = some 3 := by decide

/-- R152, "Nothing to clear": PE1's activation in the ENTERING of PE2 begins DWELL at once where only PE1's track groups are GREEN,
and keeps the green hold where another group is. -/
theorem test_take_over_with_nothing_to_clear :
    (takeActivation .pe1 (overtaken 0x0004)).preempt.state = .dwell
    ∧ (takeActivation .pe1 (overtaken 0x0004)).bank.driving .green = 0x000C
    ∧ (takeActivation .pe1 (overtaken 0x0303)).preempt.greenHold = some 25 := by decide

/-- R173, R174: FLASH left for FALLBACK with the mark set and nothing staged puts the fallback plan forward. -/
theorem test_fallback_after_flash_is_staged :
    (setFallback { base with coord.fallbackMark := true }).coord.staged = some ⟨⟨9, .daily⟩, 1⟩ := by decide

/-- 01, "one round of convergence": the slew is +14, one neighbour is disputed, and the station is SYNCED. -/
theorem test_worked_round :
    (takeRound (atRound base .tracking table)).clock.slew = 14
    ∧ (takeRound (atRound base .tracking table)).clock.disputed = 1
    ∧ (takeRound (atRound base .tracking table)).clock.state = .synced := by decide

/-- 06, "a corrected cycle of plan 7", P = 345: with input 3 latched stage 1's groups clear and stage 2 follows. -/
theorem test_green_end_with_a_call :
    let s := takeGreenEnd { base with coord.position := 390, seq.latches := 4 }
    s.bank.driving .yellow = 0x0303 ∧ s.seq.run = some ⟨1, .yellow, 0, 430, some (.stage 2), some 0x000C⟩ := by decide

/-- 06, the same: with stage 4 uncalled the green of stage 3 runs on to 1,000 − 60 = 940. -/
theorem test_green_end_without_a_call :
    (takeGreenEnd { base with coord.position := 790, seq.run := some ⟨3, .green, 650, 790, none, none⟩ }).seq.run =
      some ⟨3, .green, 650, 940, some .nextCycle, none⟩ := by decide

/-- R17, R10, R3: a TIME stamp two milliseconds on, where the clock of an ALONE station comes to a round in the first of them and
steps by the 35 ms of its one neighbour. -/
theorem test_stamp_through_a_round :
    (clockAhead 2
      { base with
        clock.reading := ⟨1203, 482939999⟩, clock.state := .alone
        clock.neighbours := [neighbour 3 35 0 .synced] }).clock.reading = ⟨1203, 482940036⟩ := by decide

/-- R17, R2: the same span across a boundary with a negative slew, whose second millisecond is held back. -/
theorem test_stamp_through_a_held_millisecond :
    (clockAhead 2 { base with clock.reading := ⟨1203, 482932099⟩, clock.slew := -1 }).clock.reading = ⟨1203, 482932100⟩ := by
  decide

/-- R125: in a YELLOW of 40 ds with 30 run, the cycle end counted (log 16), groups 1, 2, 9 and 10 have 10 left and the trailing
group 5 its own 7. -/
theorem test_hand_over_in_a_yellow :
    clearingOne.handOver.map (fun h => (h.elapsed, h.clearing.map fun c => (c.group.val + 1, c.yellow))) =
      some (30, [(5, 7), (1, 10), (2, 10), (9, 10), (10, 10)]) := by decide

/-- R71, R63: CANCEL_ORDER for an own order in the zone cancels it in the order list and ends its repeats. -/
theorem test_cancel_of_an_own_order :
    let s := (cancelWork (be 1 12 ++ timeBytes ⟨1203, 482000000⟩) own).1
    s.orders.issued = [] ∧ s.orders.entries.map (fun e => e.state) = [.cancelled] := by decide

/-- R185: a TIME frame built while the line has been idle for the gap is sent at once, at the reading of its building. -/
theorem test_gap_met_as_the_frame_is_built :
    let s := whenReached State.gapDue meetGap
      { base with clock.reading := ⟨1203, 482930480⟩, instants.frame := true, line.idleTime := 24000 }
    s.line.tx = .sending ∧ s.clock.reading = ⟨1203, 482930480⟩ := by decide

end Sys2Proof.Tests
end

section
/-! The commands that name an event: each waits for its event in one of the three ways of log 3, and does its work once the
event is due. -/

set_option Elab.async false

namespace Sys2Proof.Machine

/-- The work of an event command once its event is due. -/
def eventTake : Instr → State → State
  | .round => takeRound
  | .timeFrameBuild => takeFrameInstant
  | .calendarInstant => takeCalendar
  | .orderStartInstant | .orderEndInstant => evaluateOrders none
  | .repeatInstant stamp => takeRepeat stamp
  | .issuedEndInstant stamp => takeIssuedEnd stamp
  | .relayWaitExpiry => takeRelayWait
  | .idleGapMet => meetGap
  | .deferTimeout => reachDeferLimit
  | .backoffExpiry => takeBackoff
  | .cycleEnd => takeCycleEnd
  | .stageGreenBegin => takeStageGreen
  | .greenEnd => takeGreenEnd
  | .yellowEnd => takeYellowEnd
  | .trailingYellowEnd g => takeTrailingEnd g
  | .startupRedEnd => takeStartupEnd
  | .flashToggle => takeToggle
  | .greenHoldEnd => takeGreenHoldEnd
  | .clearingYellowEnd g => takeClearingEnd g
  | .preemptAllRedEnd => endAllRed
  | .minimumDwellReached => endDwell
  | .maximumHold => takeMaximum
  | .greenSenseFaulted g => takeGreenFaulted g
  | .greenSenseClean g => takeGreenClean g
  | .lampOutFaulted g => takeLampFaulted g
  | .lampOutClean g => takeLampClean g
  | .preemptActivation i => takeActivation i
  | .preemptRelease i => takeRelease i
  | _ => id

theorem exec_clockEvent {c : Instr} {due : State → Bool} (h : clockDue c = some due) (s : State) :
    exec c s = .next (whenReached due (eventTake c) s) := by
  unfold clockDue at h
  split at h <;> cases h <;> rfl

theorem exec_boundaryEvent {c : Instr} {due : State → Bool} (h : boundaryDue c = some due) (s : State) :
    exec c s = .next (whenDue due (eventTake c) s) := by
  unfold boundaryDue at h
  split at h <;> cases h <;> rfl

theorem exec_sampleEvent {c : Instr} {due : State → Bool} (h : sampleDue c = some due) (s : State) :
    exec c s = .next (whenSampled due (eventTake c) s) := by
  unfold sampleDue at h
  split at h <;> cases h <;> rfl

/-- A clock event that does not fall due before the next decisecond boundary changes nothing (log 3). -/
theorem whenReached_of_never {due : State → Bool} {s : State} (take : State → State)
    (h : due (runUntil due runFuel s) = false) : whenReached due take s = s := by
  simp [whenReached, h]

theorem whenDue_of_due {due : State → Bool} {s : State} (take : State → State) (h : due s = true) :
    whenDue due take s = take s := by
  simp [whenDue, h]

theorem whenDue_of_never {due : State → Bool} {s : State} (take : State → State) (now : due s = false)
    (boundary : due (timed (toBoundary s)) = false) : whenDue due take s = s := by
  simp [whenDue, now, boundary]

theorem whenSampled_of_due {due : State → Bool} {s : State} (take : State → State) (h : due s = true) :
    whenSampled due take s = take s := by
  simp [whenSampled, h]

theorem whenSampled_of_not {due : State → Bool} {s : State} (take : State → State) (h : due s = false) :
    whenSampled due take s = s := by
  simp [whenSampled, h]

/-- An event that is due is taken at once, whichever of the three ways its command waits in. -/
theorem DueNow.exec_eq {c : Instr} {s : State} (h : DueNow c s) : exec c s = .next (eventTake c s) := by
  obtain ⟨-, -, due, clock | boundary | sample, now⟩ := h
  · rw [exec_clockEvent clock, whenReached_of_due _ now]
  · rw [exec_boundaryEvent boundary, whenDue_of_due _ now]
  · rw [exec_sampleEvent sample, whenSampled_of_due _ now]

/-- At a decisecond boundary that has not been taken the clock runs no further. -/
theorem runUntil_at_boundary (due : State → Bool) (n : Nat) {s : State} (h : s.instants.boundary = true) :
    runUntil due n s = s := by
  cases n <;> simp [runUntil, h]

theorem takeBoundary_at_boundary (levels : Levels) {s : State} (h : s.instants.boundary = true) :
    takeBoundary levels s = boundaryWork levels s := by
  rw [takeBoundary, toBoundary, runUntil_at_boundary _ _ h]

end Sys2Proof.Machine

open Sys2Proof Sys2Proof.Machine

/-- Settles O60, by the three ways in which a command waits for its event. -/
theorem eventsThatAreNotDueChangeNothing : Obligations.EventsThatAreNotDueChangeNothing := by
  intro c due s
  refine ⟨fun h never => ?_, fun h now boundary => ?_, fun h now => ?_⟩
  · rw [exec_clockEvent h, whenReached_of_never _ never]
  · rw [exec_boundaryEvent h, whenDue_of_never _ now boundary]
  · rw [exec_sampleEvent h, whenSampled_of_not _ now]

end

section
/-! Power-on reset, and what a step does with no command waiting. -/

set_option Elab.async false

namespace Sys2Proof.Machine

/-! ### The state after reset -/

theorem reset_rooms : Rooms State.reset where
  clock := ⟨by decide, by decide, by decide, List.Pairwise.nil⟩
  store := reset_store_sound
  timetable := ⟨by decide, by decide, by decide, .nil, .nil, .nil⟩
  orders := ⟨by decide, by decide, List.nodup_nil, by simp [State.reset, OrderHandler.reset], List.nodup_nil,
    by simp [State.reset, OrderHandler.reset]⟩
  coord := by simp [Coordinator.Sound, State.reset, Coordinator.reset]
  bank := reset_bank_sound
  line := ⟨by decide, by decide, List.nodup_nil, by decide⟩
  port := ⟨by decide, by decide, by simp [State.reset, CabinetPort.reset]⟩
  quiet := fun _ => reset_records

theorem reset_settled : State.reset.Settled := (mostSevere_clear _ _ reset_records).symm

/-! ### One millisecond of the timebase -/

/-- A sound reading one millisecond on, the carry into the week written out (R1). -/
theorem plus_one_of_sound {t : NetTime} (week : t.week < 65536) (ms : t.ms < weekMs) :
    t.plus 1 =
      if t.ms = 604799999 then { week := (t.week + 1) % 65536, ms := 0 } else { week := t.week, ms := t.ms + 1 } := by
  simp only [weekMs] at ms
  unfold NetTime.plus
  simp only [weekMs]
  split <;> (congr 1 <;> omega)

theorem msToMultiple_le_one {s : State} {t : NetTime} (h : t = s.clock.reading.plus 1) : s.msToMultiple ≤ 1 ↔ t.ms % 100 = 0 := by
  subst h
  simp only [State.msToMultiple, NetTime.plus, weekMs]
  omega

theorem msToOffset_le_one {s : State} {t : NetTime} (h : t = s.clock.reading.plus 1) : s.msToOffset ≤ 1 ↔ t.ms % 10000 = 40 * s.cfg.station % 10000 := by
  subst h
  simp only [State.msToOffset, State.frameOffset, NetTime.plus, weekMs]
  omega

/-- The line after one millisecond, its waits written out (R185, R195). -/
theorem lineAfter_one (s : State) :
    s.lineAfter 1 =
      if s.port.part = .running then
        { s.line with
          wait := s.line.wait - bitRateOf s.cfg.bitRate
          deferred :=
            if s.line.tx = .defer ∨ s.line.tx = .backoff then s.line.deferred + (bitRateOf s.cfg.bitRate - s.line.wait)
            else s.line.deferred
          idleTime := min 24000 (s.line.idleTime + bitRateOf s.cfg.bitRate) }
      else s.line := by
  simp [State.lineAfter, LineInterface.run, State.running, idleGap]

/-- One millisecond of the running clock: what it reaches, told by the reading it comes to (R1, R16, R44). -/
theorem runClock_one {s : State} {t : NetTime} (h : t = s.clock.reading.plus 1) :
    runClock 1 s =
      { s with
        clock.reading := t
        line := s.lineAfter 1
        instants :=
          { s.instants with
            holding := false
            boundary := decide (t.ms % 100 = 0)
            timing := s.instants.timing && !decide (t.ms % 100 = 0)
            round := s.instants.round || decide (s.port.part = .running ∧ t.ms % 10000 = 0)
            frame := s.instants.frame || decide (s.port.part = .running ∧ t.ms % 10000 = 40 * s.cfg.station % 10000)
            calendar := s.instants.calendar ||
              decide (s.port.part = .running ∧ t.ms % 100 = 0
                ∧ (t.ms % 86400000 / 100 = 0 ∨ ∃ e ∈ s.timetable.entries, e.start = t.ms % 86400000 / 100)) } } := by
  have boundary := msToMultiple_le_one h
  have offset := msToOffset_le_one h
  have round : t.ms % 10000 = 0 → t.ms % 100 = 0 := by omega
  subst h
  simp only [runClock, Nat.cast_one, boundary, offset, State.running, NetTime.timeOfDay, dayMs]
  congr 2
  · by_cases r : (s.clock.reading.plus 1).ms % 10000 = 0
    · simp [r, round r]
    · simp [r]
  · simp
  · simp [Bool.decide_or, Bool.decide_and, Bool.and_assoc, List.any_eq]

end Sys2Proof.Machine

open Sys2Proof Sys2Proof.Machine

/-- Settles O4. -/
theorem resetIsSound : Obligations.ResetIsSound :=
  ⟨{ reset_rooms with settled := reset_settled }, .nil, .nil⟩

/-- Settles O11: both sides are one state, written out on the right. -/
theorem powerOnResetSetsEveryBlock : Obligations.PowerOnResetSetsEveryBlock := by
  intro s
  rfl

/-- Settles O2: the cases of `tick`, an event being due exactly where `takeFirstDue` finds one. -/
theorem idleStepLetsOneMillisecondPass : Obligations.IdleStepLetsOneMillisecondPass := by
  intro s empty
  have step_eq : step s = .next (tick s) := by simp [step, empty]
  refine ⟨fun ⟨c, due⟩ => ?_, fun idle => ?_⟩
  · cases first : takeFirstDue s with
    | none => exact absurd due (takeFirstDue_none first c)
    | some t =>
      obtain ⟨d, dueNow, taken⟩ := takeFirstDue_due first
      exact ⟨d, dueNow, by rw [step_eq, taken]; simp [tick, first]⟩
  · have first : takeFirstDue s = none := by
      cases h : takeFirstDue s with
      | none => rfl
      | some t =>
        obtain ⟨d, dueNow, -⟩ := takeFirstDue_due h
        exact absurd dueNow (idle d)
    refine ⟨fun boundary => ?_, fun boundary holding => ?_, fun boundary holding sound => ?_⟩
    · rw [step_eq]
      simp only [tick, first, boundary, if_true, exec, execDecisecondBoundary, takeBoundary_at_boundary _ boundary]
    · rw [step_eq]
      simp only [tick, first, boundary, holding, passHeld, lineAfter_one, Bool.false_eq_true, if_false, if_true]
    · have h := (plus_one_of_sound sound.week sound.ms).symm
      rw [step_eq]
      simp only [tick, first, boundary, holding, Bool.false_eq_true, if_false]
      rw [runClock_one h, lineAfter_one]

end

section
/-! The order of the two order lists (R58, R67): on times that do not lie across the week wrap `OrderBefore` is a strict order,
so that an insertion in place keeps the list in it, and so does whatever only takes entries out. -/

set_option Elab.async false

namespace Sys2Proof.Machine

/-! ### Times that do not lie across the week wrap -/

theorem diff_of_plain {a b : NetTime} (ha : Plain a) (hb : Plain b) :
    a.diff b = (ordinal a : Int) - (ordinal b : Int) := by
  obtain ⟨wa, ma⟩ := ha
  obtain ⟨wb, mb⟩ := hb
  unfold NetTime.diff signedWeeks ordinal weekMs
  push_cast
  split <;> omega

theorem diff_self (t : NetTime) : t.diff t = 0 := by
  simp [NetTime.diff, signedWeeks]

theorem ordinal_injective {a b : NetTime} (ha : Plain a) (hb : Plain b) (h : ordinal a = ordinal b) : a = b := by
  obtain ⟨wa, ma⟩ := a
  obtain ⟨wb, mb⟩ := b
  simp only [Plain] at ha hb
  simp only [ordinal, weekMs] at h
  simp only [NetTime.mk.injEq]
  omega

/-! ### `OrderBefore` as an order -/

theorem before_iff (a b : OrderEntry) : a.before b = true ↔ OrderBefore a b := by
  unfold OrderEntry.before OrderBefore
  cases da : a.detail <;> cases db : b.detail <;> simp only
  case none.none => simp [NetTime.later]
  case none.some => simp
  case some.some d e =>
    by_cases h : d.start = e.start
    · simp only [h, if_true, OrderEntry.outranks, da, db, Machine.outranks, Outranks, diff_self, ne_eq, not_true, if_false,
        true_and, false_or, lt_irrefl, NetTime.later]
      by_cases p : d.priority = e.priority
      · by_cases o : a.key.origin = b.key.origin <;> simp [p, o]
      · simp [p]
    · simp [h, NetTime.later]

/-- The times an entry is placed by do not lie across the week wrap. -/
def OrderEntry.PlainTimes (e : OrderEntry) : Prop :=
  Plain e.key.stamp ∧ Plain e.finish ∧ ∀ d, e.detail = some d → Plain d.start

/-- `OrderBefore` of two orders with plain times, in numbers. -/
theorem orderBefore_orders {a b : OrderEntry} {d e : OrderDetail} (ha : a.PlainTimes) (hb : b.PlainTimes)
    (hd : a.detail = some d) (he : b.detail = some e) :
    OrderBefore a b ↔
      ordinal d.start < ordinal e.start
        ∨ (ordinal d.start = ordinal e.start
          ∧ (e.priority < d.priority
            ∨ (d.priority = e.priority
              ∧ (b.key.origin < a.key.origin
                ∨ (a.key.origin = b.key.origin ∧ ordinal b.key.stamp < ordinal a.key.stamp))))) := by
  have pd := ha.2.2 d hd
  have pe := hb.2.2 e he
  have same : d.start = e.start ↔ ordinal d.start = ordinal e.start :=
    ⟨fun h => h ▸ rfl, ordinal_injective pd pe⟩
  simp only [OrderBefore, hd, he, Outranks, diff_of_plain pe pd, diff_of_plain pd pe, diff_of_plain ha.1 hb.1, same]
  omega

theorem orderBefore_irrefl (a : OrderEntry) : ¬ OrderBefore a a := by
  unfold OrderBefore
  cases a.detail <;> simp [Outranks, diff_self]

theorem orderBefore_trans {a b c : OrderEntry} (ha : a.PlainTimes) (hb : b.PlainTimes) (hc : c.PlainTimes)
    (h : OrderBefore a b) (k : OrderBefore b c) : OrderBefore a c := by
  cases da : a.detail with
  | none =>
    cases db : b.detail with
    | some e => simp [OrderBefore, da, db] at h
    | none =>
      cases dc : c.detail with
      | some f => simp [OrderBefore, db, dc] at k
      | none =>
        simp only [OrderBefore, da, db, dc, diff_of_plain hb.2.1 ha.2.1, diff_of_plain hc.2.1 hb.2.1,
          diff_of_plain hc.2.1 ha.2.1] at h k ⊢
        omega
  | some d =>
    cases dc : c.detail with
    | none => simp [OrderBefore, da, dc]
    | some f =>
      cases db : b.detail with
      | none => simp [OrderBefore, db, dc] at k
      | some e =>
        rw [orderBefore_orders ha hb da db] at h
        rw [orderBefore_orders hb hc db dc] at k
        rw [orderBefore_orders ha hc da dc]
        omega

/-! ### Lists in order -/

/-- A list of entries stands in the order of R58. -/
def InPlace (l : List OrderEntry) : Prop := l.Pairwise fun a b => ¬ OrderBefore b a

theorem insertEntry_inPlace {e : OrderEntry} {l : List OrderEntry} (he : e.PlainTimes) (hl : ∀ x ∈ l, x.PlainTimes)
    (h : InPlace l) : InPlace (insertEntry e l) := by
  induction l with
  | nil => exact List.pairwise_singleton _ _
  | cons x rest ih =>
    obtain ⟨first, others⟩ := List.pairwise_cons.mp h
    have plain : ∀ y ∈ rest, y.PlainTimes := fun y hy => hl y (List.mem_cons_of_mem x hy)
    have px := hl x List.mem_cons_self
    unfold insertEntry
    split
    · rename_i before
      have ex : OrderBefore e x := (before_iff e x).mp before
      refine List.pairwise_cons.mpr ⟨fun y hy ye => ?_, h⟩
      rcases List.mem_cons.mp hy with rfl | hy
      · exact orderBefore_irrefl e (orderBefore_trans he px he ex ye)
      · exact first y hy (orderBefore_trans (plain y hy) he px ye ex)
    · rename_i before
      refine List.pairwise_cons.mpr ⟨fun y hy => ?_, ih plain others⟩
      rcases mem_insertEntry.mp hy with rfl | hy
      · exact fun yx => before ((before_iff y x).mpr yx)
      · exact first y hy

/-- An entry with nothing but what it is placed by: key, detail and end. -/
def OrderEntry.bare (e : OrderEntry) : OrderEntry :=
  { key := e.key, revision := 0, detail := e.detail, finish := e.finish, zones := 0, hop := 0, state := .pending
    storedAt := ⟨0, 0⟩ }

theorem inPlace_bare (l : List OrderEntry) : InPlace (l.map OrderEntry.bare) ↔ InPlace l := List.pairwise_map

theorem insertEntry_bare (e : OrderEntry) (l : List OrderEntry) :
    (insertEntry e l).map OrderEntry.bare = insertEntry e.bare (l.map OrderEntry.bare) := by
  induction l with
  | nil => rfl
  | cons x rest ih =>
    have same : e.bare.before x.bare = e.before x := rfl
    simp only [insertEntry, List.map_cons, same]
    split
    · rfl
    · rw [List.map_cons, ih]

/-- A list without an entry that was inserted is a part of what it was inserted in. -/
theorem sublist_of_insertEntry {e : OrderEntry} {l m : List OrderEntry} (h : m.Sublist (insertEntry e l)) (out : e ∉ m) :
    m.Sublist l := by
  have split : ∃ front back, l = front ++ back ∧ insertEntry e l = front ++ e :: back := by
    clear h
    induction l with
    | nil => exact ⟨[], [], rfl, rfl⟩
    | cons x rest ih =>
      unfold insertEntry
      split
      · exact ⟨[], x :: rest, rfl, rfl⟩
      · obtain ⟨front, back, hl, hi⟩ := ih
        exact ⟨x :: front, back, by rw [hl]; rfl, by rw [hi]; rfl⟩
  obtain ⟨front, back, hl, hi⟩ := split
  have all : m.filter (fun x => decide (x ≠ e)) = m :=
    List.filter_eq_self.mpr fun x hx => decide_eq_true fun same => out (same ▸ hx)
  have part := h.filter fun x => decide (x ≠ e)
  rw [all, hi] at part
  refine part.trans ?_
  rw [hl, List.filter_append, List.filter_cons_of_neg (by simp)]
  exact List.filter_sublist.append List.filter_sublist

/-! ### What an operation does to the two lists -/

/-- The issue stamps of the issued list, in its order. -/
def State.stamps (s : State) : List NetTime := s.orders.issued.map fun i => i.key.stamp

/-- The entries of the order list, with what they are placed by. -/
def State.places (s : State) : List OrderEntry := s.orders.entries.map OrderEntry.bare

/-- Entries may leave the two lists; the others stay, in their order. -/
structure Thins (s t : State) : Prop where
  entries : t.places.Sublist s.places
  issued : t.stamps.Sublist s.stamps

theorem Thins.refl (s : State) : Thins s s := ⟨List.Sublist.refl _, List.Sublist.refl _⟩

theorem Thins.trans {s t u : State} (h : Thins s t) (k : Thins t u) : Thins s u :=
  ⟨k.entries.trans h.entries, k.issued.trans h.issued⟩

/-- An operation that leaves both lists as they are. -/
theorem Thins.same {s t : State} (entries : t.orders.entries = s.orders.entries := by rfl)
    (issued : t.orders.issued = s.orders.issued := by rfl) : Thins s t :=
  ⟨by unfold State.places; rw [entries], by unfold State.stamps; rw [issued]⟩

/-- An operation upon a state with the order lists of this one. -/
theorem Thins.upon {s u t : State} (h : Thins u t) (same : u.orders = s.orders := by rfl) : Thins s t :=
  (Thins.same (by rw [same]) (by rw [same])).trans h

theorem Delivers.thins {s t : State} (h : Delivers s t) : Thins s t := Thins.same h.kept.orders h.kept.issued

theorem sublist_insertEntry (e : OrderEntry) (l : List OrderEntry) : l.Sublist (insertEntry e l) := by
  induction l with
  | nil => exact List.nil_sublist _
  | cons x rest ih =>
    unfold insertEntry
    split
    · exact List.sublist_cons_self e _
    · exact ih.cons_cons x

/-- Entries may leave the order list; the issued list stays as it is. -/
structure Prunes (s t : State) : Prop where
  entries : t.places.Sublist s.places
  issued : t.orders.issued = s.orders.issued

theorem Prunes.refl (s : State) : Prunes s s := ⟨List.Sublist.refl _, rfl⟩

theorem Prunes.trans {s t u : State} (h : Prunes s t) (k : Prunes t u) : Prunes s u :=
  ⟨k.entries.trans h.entries, k.issued.trans h.issued⟩

theorem Prunes.same {s t : State} (entries : t.orders.entries = s.orders.entries := by rfl)
    (issued : t.orders.issued = s.orders.issued := by rfl) : Prunes s t :=
  ⟨by unfold State.places; rw [entries], issued⟩

theorem Prunes.thins {s t : State} (h : Prunes s t) : Thins s t :=
  ⟨h.entries, by unfold State.stamps; rw [h.issued]⟩

theorem Delivers.prunes {s t : State} (h : Delivers s t) : Prunes s t := ⟨h.thins.entries, h.kept.issued⟩

/-- One entry may be put into the order list in its place, and others may leave; the issued list stays as it is. -/
structure Places (s t : State) : Prop where
  entries : ∃ e l, l.Sublist s.places ∧ t.places.Sublist (insertEntry e l)
  issued : t.orders.issued = s.orders.issued

theorem Prunes.places {s t : State} (h : Prunes s t) (e : OrderEntry) : Places s t :=
  ⟨⟨e, s.places, List.Sublist.refl _, h.entries.trans (sublist_insertEntry _ _)⟩, h.issued⟩

theorem Places.after {s t u : State} (k : Places t u) (h : Prunes s t) : Places s u := by
  obtain ⟨e, l, hl, hu⟩ := k.entries
  exact ⟨⟨e, l, hl.trans h.entries, hu⟩, k.issued.trans h.issued⟩

theorem Places.trans {s t u : State} (h : Places s t) (k : Prunes t u) : Places s u := by
  obtain ⟨e, l, hl, ht⟩ := h.entries
  exact ⟨⟨e, l, hl, k.entries.trans ht⟩, k.issued.trans h.issued⟩

/-- An entry inserted in what is left of the order list. -/
theorem places_insertEntry (s : State) (e : OrderEntry) {l : List OrderEntry} (h : l.Sublist s.orders.entries) :
    Places s { s with orders.entries := insertEntry e l } :=
  ⟨⟨e.bare, l.map OrderEntry.bare, h.map _, by unfold State.places; rw [insertEntry_bare]⟩, rfl⟩

/-- As `Places`, but entries may leave the issued list too. -/
structure Admits (s t : State) : Prop where
  entries : ∃ e l, l.Sublist s.places ∧ t.places.Sublist (insertEntry e l)
  issued : t.stamps.Sublist s.stamps

theorem Places.admits {s t : State} (h : Places s t) : Admits s t :=
  ⟨h.entries, by unfold State.stamps; rw [h.issued]⟩

theorem Thins.admits {s t : State} (h : Thins s t) (e : OrderEntry) : Admits s t :=
  ⟨⟨e, s.places, List.Sublist.refl _, h.entries.trans (sublist_insertEntry _ _)⟩, h.issued⟩

theorem Admits.after {s t u : State} (k : Admits t u) (h : Thins s t) : Admits s u := by
  obtain ⟨e, l, hl, hu⟩ := k.entries
  exact ⟨⟨e, l, hl.trans h.entries, hu⟩, k.issued.trans h.issued⟩

theorem Admits.trans {s t u : State} (h : Admits s t) (k : Thins t u) : Admits s u := by
  obtain ⟨e, l, hl, ht⟩ := h.entries
  exact ⟨⟨e, l, hl, k.entries.trans ht⟩, k.issued.trans h.issued⟩

/-- One entry may be put into the order list in its place, and one into the issued list; others may leave. -/
structure Takes (s t : State) : Prop where
  entries : ∃ e l, l.Sublist s.places ∧ t.places.Sublist (insertEntry e l)
  issued : t.stamps.Sublist s.stamps ∨ ∃ i, t.orders.issued = insertIssued i s.orders.issued

theorem Admits.takes {s t : State} (h : Admits s t) : Takes s t := ⟨h.entries, .inl h.issued⟩

theorem insertIssued_inOrder {i : IssuedEntry} {l : List IssuedEntry}
    (plain : ∀ x ∈ insertIssued i l, Plain x.key.stamp) (apart : ((insertIssued i l).map fun x => x.key.stamp).Nodup)
    (h : l.Pairwise fun a b => 0 < b.key.stamp.diff a.key.stamp) :
    (insertIssued i l).Pairwise fun a b => 0 < b.key.stamp.diff a.key.stamp := by
  have pi : Plain i.key.stamp := plain i ((insertIssued_perm i l).mem_iff.mpr List.mem_cons_self)
  induction l with
  | nil => exact List.pairwise_singleton _ _
  | cons x rest ih =>
    obtain ⟨first, others⟩ := List.pairwise_cons.mp h
    unfold insertIssued at plain apart ⊢
    split
    · rename_i later
      rw [if_pos later] at plain
      have later : 0 < x.key.stamp.diff i.key.stamp := of_decide_eq_true later
      refine List.pairwise_cons.mpr ⟨fun y hy => ?_, h⟩
      rcases List.mem_cons.mp hy with rfl | inRest
      · exact later
      · have px := plain x (by simp)
        have py := plain y (by simp [inRest])
        have xy := first y inRest
        rw [diff_of_plain px pi] at later
        rw [diff_of_plain py px] at xy
        rw [diff_of_plain py pi]
        omega
    · rename_i later
      rw [if_neg later] at plain apart
      have rest_plain : ∀ y ∈ insertIssued i rest, Plain y.key.stamp := fun y hy => plain y (List.mem_cons_of_mem x hy)
      rw [List.map_cons, List.nodup_cons] at apart
      refine List.pairwise_cons.mpr ⟨fun y hy => ?_, ih rest_plain apart.2 others⟩
      rcases List.mem_cons.mp ((insertIssued_perm i rest).mem_iff.mp hy) with rfl | inRest
      · have px := plain x List.mem_cons_self
        have differ : ordinal x.key.stamp ≠ ordinal y.key.stamp := fun same =>
          apart.1 (List.mem_map.mpr ⟨y, hy, (ordinal_injective px pi same).symm⟩)
        have notLater : ¬ 0 < x.key.stamp.diff y.key.stamp := fun k => later (decide_eq_true k)
        rw [diff_of_plain px pi] at notLater
        rw [diff_of_plain pi px]
        omega
      · exact first y inRest

/-- The two lists stay in order under an operation that takes entries out and puts at most one into each. -/
theorem Takes.inOrder {s t : State} (h : Takes s t) (apart : t.orders.Sound) (plain : s.orders.PlainTimes)
    (after : t.orders.PlainTimes) (order : s.orders.InOrder) : t.orders.InOrder := by
  constructor
  · obtain ⟨e, l, hl, ht⟩ := h.entries
    have old : ∀ x ∈ s.places, x.PlainTimes := by
      intro x hx
      obtain ⟨y, hy, rfl⟩ := List.mem_map.mp hx
      exact ⟨(plain.entries y hy).1, (plain.entries y hy).2, fun d hd => plain.starts y d hy hd⟩
    have lPlain : ∀ x ∈ l, x.PlainTimes := fun x hx => old x (hl.subset hx)
    have lPlace : InPlace l := ((inPlace_bare _).mpr order.entries).sublist hl
    refine (inPlace_bare _).mp ?_
    by_cases taken : e ∈ t.places
    · obtain ⟨y, hy, rfl⟩ := List.mem_map.mp taken
      have new : y.bare.PlainTimes :=
        ⟨(after.entries y hy).1, (after.entries y hy).2, fun d hd => after.starts y d hy hd⟩
      exact (insertEntry_inPlace new lPlain lPlace).sublist ht
    · exact lPlace.sublist (sublist_of_insertEntry ht taken)
  · rcases h.issued with thinner | ⟨i, hi⟩
    · have stamps : s.stamps.Pairwise fun a b => 0 < b.diff a := List.pairwise_map.mpr order.issued
      exact List.pairwise_map.mp (stamps.sublist thinner)
    · rw [hi]
      exact insertIssued_inOrder (fun x hx => after.issued x (hi ▸ hx)) (hi ▸ apart.stamps) order.issued

end Sys2Proof.Machine
end

section
/-! No event brings an entry into the order list or the issued list: each only lets entries go. -/

set_option Elab.async false

namespace Sys2Proof.Machine

/-! ### The line -/

theorem thins_deferOnHead (s : State) : Thins s (deferOnHead s) := Thins.same (by simp) (by simp)

theorem placeTail_orders (f : Frame) (s : State) : (placeTail f s).orders = s.orders := by
  unfold placeTail
  dsimp only
  split <;> simp

theorem thins_placeTail (f : Frame) (s : State) : Thins s (placeTail f s) :=
  Thins.same (by rw [placeTail_orders]) (by rw [placeTail_orders])

theorem thins_placeTime (c : TimeContent) (s : State) : Thins s (placeTime c s) := by
  have onHead : ∀ (b : Bool) (u : State), Thins u (if b = true then deferOnHead u else u) := by
    intro b u
    split
    · exact thins_deferOnHead u
    · exact Thins.refl u
  unfold placeTime
  dsimp only
  split
  · exact Thins.trans Thins.same (onHead _ _)
  · split
    · exact thins_placeTail _ s
    · split
      · exact Thins.trans Thins.same (onHead _ _)
      · exact Thins.same

theorem thins_placeOwnOrder (o : OrderContent) (s : State) : Thins s (placeOwnOrder o s) :=
  Thins.trans Thins.same (thins_placeTail _ _)

theorem thins_placeOwnCancel (c : CancelContent) (s : State) : Thins s (placeOwnCancel c s) :=
  Thins.trans Thins.same (thins_placeTail _ _)

theorem thins_placeRelay (body : FrameBody) (s : State) : Thins s (placeRelay body s) := by
  unfold placeRelay
  split
  · exact thins_placeTail _ s
  · exact Thins.same

theorem thins_relayOrder (o : OrderContent) (s : State) : Thins s (relayOrder o s) := by
  unfold relayOrder
  split
  · exact thins_placeRelay _ s
  · exact Thins.refl s

theorem thins_relayCancel (c : CancelContent) (s : State) : Thins s (relayCancel c s) := by
  unfold relayCancel
  split
  · exact thins_placeRelay _ s
  · exact Thins.refl s

theorem thins_reportGivenUp (f : Frame) (s : State) : Thins s (reportGivenUp f s) := by
  unfold reportGivenUp
  split
  · exact Thins.refl s
  · split
    · exact Thins.refl s
    · exact (delivers_post _ s).thins
    · exact (delivers_post _ s).thins

theorem thins_giveUp (f : Frame) (s : State) : Thins s (giveUp f s) := by
  have tail : ∀ u : State, Thins u
      (if 16 ≤ countUp 255 s.line.giveUpRun ∧ u.line.jamRaised = false then
        raise .lineJam none { u with line.jamRaised := true }
      else u) := by
    intro u
    split
    · exact (delivers_raise _ _ _).thins.upon
    · exact Thins.refl u
  unfold giveUp
  exact ((thins_reportGivenUp f _).upon.trans (thins_deferOnHead _)).trans (tail _)

theorem thins_attemptFailed (f : Frame) (s : State) : Thins s (attemptFailed f s) := by
  unfold attemptFailed
  dsimp only
  split
  · exact Thins.trans Thins.same (thins_giveUp f _)
  · exact Thins.same

theorem thins_reachDeferLimit (s : State) : Thins s (reachDeferLimit s) := by
  unfold reachDeferLimit
  split
  · exact Thins.trans Thins.same (thins_attemptFailed _ _)
  · exact Thins.refl s

theorem thins_meetGap (s : State) : Thins s (meetGap s) := by
  unfold meetGap
  split
  · exact Thins.same
  · exact Thins.refl s

/-! ### The order list and the schedule -/

theorem bare_judgeEntry (store : PlanStore) (now : NetTime) (e : OrderEntry) :
    (judgeEntry store now e).bare = e.bare := by
  rw [judgeEntry_eq]
  rfl

/-- An evaluation decides states alone: no entry is placed anew. -/
theorem bare_judgeEntries (store : PlanStore) (now : NetTime) (l : List OrderEntry) :
    (judgeEntries store now l).map OrderEntry.bare = l.map OrderEntry.bare := by
  unfold judgeEntries
  dsimp only
  split
  · rw [List.map_map]
    exact List.map_congr_left fun e _ => bare_judgeEntry store now e
  · rw [List.map_map, List.map_map]
    refine List.map_congr_left fun e _ => ?_
    simp only [Function.comp_apply]
    split <;> exact bare_judgeEntry store now e

theorem prunes_evaluateOrders (was : Option OldState) (s : State) : Prunes s (evaluateOrders was s) := by
  unfold evaluateOrders
  split
  · dsimp only
    refine Prunes.trans ?_ (delivers_decideGoverning _).prunes
    refine Prunes.trans ?_ (delivers_foldl (fun s (p : OrderEntry × OrderEntry) => reportState was p.1 p.2 s)
      (fun s p => delivers_reportState was p.1 p.2 s) _ _).prunes
    have reported := (delivers_foldl (fun s e => reportEnded e s) (fun s e => delivers_reportEnded e s)
      (s.orders.entries.filter fun e => e.finish.atOrBefore s.clock.reading) s).prunes
    refine ⟨?_, reported.issued⟩
    unfold State.places
    rw [bare_judgeEntries]
    exact List.filter_sublist.map _
  · exact Prunes.refl s

theorem thins_evaluateOrders (was : Option OldState) (s : State) : Thins s (evaluateOrders was s) :=
  (prunes_evaluateOrders was s).thins

theorem thins_prune (s : State) : Thins s (prune s) := by
  unfold prune
  dsimp only
  split
  · exact Thins.refl s
  · exact Thins.trans Thins.same (delivers_post _ _).thins

theorem thins_evaluateSchedule (s : State) : Thins s (evaluateSchedule s) := (delivers_evaluateSchedule s).thins

theorem thins_takeCalendar (s : State) : Thins s (takeCalendar s) := by
  unfold takeCalendar
  dsimp only
  refine Thins.trans ?_ (thins_evaluateSchedule _)
  split
  · exact Thins.trans Thins.same (thins_prune _)
  · exact Thins.same

theorem thins_stepIssued (s : State) : Thins s (stepIssued s) := by
  refine ⟨List.Sublist.refl _, ?_⟩
  have stamps : (stepIssued s).stamps =
      (s.orders.issued.filter fun i => !i.finish.atOrBefore s.clock.reading).map fun i => i.key.stamp := List.map_map
  rw [stamps]
  exact List.filter_sublist.map _

theorem thins_mapIssued (s : State) (stamp : NetTime) (f : IssuedEntry → IssuedEntry)
    (hf : ∀ i, (f i).key.stamp = i.key.stamp ∨ (f i).key.stamp = stamp) :
    Thins s { s with orders.issued := mapIssued stamp f s.orders.issued } :=
  ⟨List.Sublist.refl _, by rw [State.stamps, mapIssued_stamps stamp f hf]; exact List.Sublist.refl _⟩

theorem thins_takeIssuedEnd (stamp : NetTime) (s : State) : Thins s (takeIssuedEnd stamp s) :=
  ⟨List.Sublist.refl _, List.filter_sublist.map _⟩

theorem thins_repeatIssued (i : IssuedEntry) (s : State) : Thins s (repeatIssued i s) := by
  unfold repeatIssued
  dsimp only
  split
  · refine Thins.trans ?_ (thins_placeOwnOrder _ _)
    exact thins_mapIssued s _ _ fun _ => .inl rfl
  · exact thins_mapIssued s _ _ fun _ => .inl rfl

theorem thins_takeRepeat (stamp : NetTime) (s : State) : Thins s (takeRepeat stamp s) := by
  unfold takeRepeat
  split
  · exact thins_repeatIssued _ s
  · exact Thins.refl s

/-! ### The clock -/

theorem thins_stepClock (d : Int) (s : State) : Thins s (stepClock d s) := by
  unfold stepClock
  dsimp only
  split
  · refine Thins.trans ?_ (thins_evaluateOrders _ _)
    refine Thins.trans ?_ (thins_stepIssued _)
    refine Thins.trans ?_ (thins_evaluateSchedule _)
    refine Thins.trans ?_ (thins_prune _)
    exact Thins.trans Thins.same (delivers_post _ _).thins
  · exact Thins.same

theorem thins_slewMillisecond (s : State) : Thins s (slewMillisecond s) := by
  unfold slewMillisecond
  split
  · exact Thins.same
  · split
    · exact Thins.same
    · exact Thins.refl s

theorem thins_setClockState (state : ClockState) (s : State) : Thins s (setClockState state s) := by
  unfold setClockState
  split
  · exact Thins.refl s
  · refine Thins.trans ?_ (delivers_settleAction _ _ _).thins
    refine Thins.trans ?_ (delivers_isolationChange _).thins
    exact Thins.trans Thins.same (delivers_post _ _).thins

theorem thins_holdoverRound (s : State) : Thins s (holdoverRound s) := by
  unfold holdoverRound
  dsimp only
  refine (thins_setClockState .holdover s).trans ?_
  split
  · exact Thins.trans Thins.same (delivers_raise _ _ _).thins
  · exact Thins.same

theorem thins_leaveHoldover (state : ClockState) (s : State) : Thins s (leaveHoldover state s) := by
  have tail : ∀ u : State, Thins u
      (if u.clock.isolatedRaised then withdraw .clockIsolated { u with clock.isolatedRaised := false } else u) := by
    intro u
    split
    · exact (delivers_withdraw _ _).thins.upon
    · exact Thins.refl u
  unfold leaveHoldover
  exact (thins_setClockState state _).upon.trans (tail _)

theorem thins_slewRound (s : State) : Thins s (slewRound s) := by
  unfold slewRound
  dsimp only
  split
  · exact thins_holdoverRound s
  · exact Thins.trans Thins.same (thins_leaveHoldover _ _)

theorem thins_aloneRound (s : State) : Thins s (aloneRound s) := by
  unfold aloneRound
  dsimp only
  split
  · split
    · exact Thins.refl s
    · split
      · exact thins_setClockState _ s
      · exact Thins.refl s
  · exact (thins_stepClock _ s).trans (thins_setClockState _ _)

theorem thins_anchoredRound (s : State) : Thins s (anchoredRound s) := by
  unfold anchoredRound
  dsimp only
  split
  · exact Thins.same
  · exact Thins.same
  all_goals
    split
    · exact Thins.trans Thins.same (thins_leaveHoldover _ _)
    · exact Thins.trans Thins.same (thins_holdoverRound _)

theorem thins_clockRound (s : State) : Thins s (clockRound s) := by
  unfold clockRound
  split
  · exact thins_anchoredRound s
  · split
    · exact thins_aloneRound s
    · exact thins_slewRound s

theorem thins_takeRound (s : State) : Thins s (takeRound s) :=
  (Thins.trans (t := classify (roundCounts
    { s with instants.round := false, clock.neighbours := ageNeighbours s.clock.neighbours })) Thins.same
      (thins_clockRound _)).trans Thins.same

theorem thins_roundFirst (s : State) : Thins s (roundFirst s) := by
  unfold roundFirst
  split
  · exact thins_takeRound s
  · exact Thins.refl s

theorem thins_takeFrameInstant (s : State) : Thins s (takeFrameInstant s) :=
  (thins_roundFirst s).trans (Thins.trans Thins.same (thins_placeTime _ _))

/-! ### The cycle -/

theorem thins_beginGreen (k : Nat) (left : Option (TrailOccasion × Nat)) (s : State) : Thins s (beginGreen k left s) := by
  unfold beginGreen
  split
  · exact Thins.refl s
  · split
    · exact Thins.refl s
    · dsimp only
      refine Thins.trans ?_ (delivers_command _ _ _).thins
      refine Thins.trans ?_ (delivers_command _ _ _).thins
      split
      · exact Thins.trans Thins.same (delivers_trail _ _ _ _).thins
      · exact Thins.same

theorem thins_takeCycleEnd (s : State) : Thins s (takeCycleEnd s) := by
  unfold takeCycleEnd
  dsimp only
  have staged : Thins s (takeStaged { s with coord.finalMark := false, instants.cycleEnd := false }) :=
    Thins.trans Thins.same (delivers_takeStaged _).thins
  split
  · exact staged
  · split
    · exact staged
    · refine Thins.trans ?_ (delivers_raiseOverrun _ _).thins
      refine Thins.trans ?_ (thins_beginGreen _ _ _)
      exact (staged.trans (delivers_comingCycle _ _ _).thins).trans Thins.same

theorem thins_takeStageGreen (s : State) : Thins s (takeStageGreen s) := by
  unfold takeStageGreen
  split
  · split
    · exact thins_beginGreen _ _ s
    all_goals exact Thins.refl s
  · exact Thins.refl s

theorem thins_leaveSuspended (s : State) : Thins s (leaveSuspended s) := by
  unfold leaveSuspended
  dsimp only
  refine (delivers_abandonTransition s).thins.trans ?_
  split
  · exact Thins.same (by simp) (by simp)
  · exact Thins.same (by simp) (by simp)

theorem thins_beginNominal (k : Nat) (left : Option (TrailOccasion × Nat)) (s : State) :
    Thins s (beginNominal k left s) := by
  unfold beginNominal
  split
  · exact Thins.refl s
  · dsimp only
    refine Thins.trans ?_ (thins_beginGreen _ _ _)
    refine Thins.trans ?_ (delivers_setSeq _ _).thins
    exact (thins_leaveSuspended s).trans Thins.same

theorem thins_takeStartupEnd (s : State) : Thins s (takeStartupEnd s) := by
  have tail : ∀ u : State, Thins u (if u.seq.heldTake && decide (u.seq.state = .run) then grantTake u else u) := by
    intro u
    split
    · exact (delivers_grantTake u).thins
    · exact Thins.refl u
  unfold takeStartupEnd endStartupRed
  exact ((delivers_chooseFirstPlan _).thins.upon.trans (thins_beginNominal _ _ _)).trans (tail _)

/-! ### Preemption -/

theorem thins_handBack (s : State) : Thins s (handBack s) := by
  unfold handBack
  split
  · rename_i r i _ _
    dsimp only
    refine Thins.trans ?_ (delivers_post _ _).thins
    have resumed : Thins s (resume r.resumeStage r.override (s.route i).yellow s) :=
      (delivers_chooseResume _ s).thins.trans (thins_beginNominal _ _ _)
    exact ((resumed.trans (delivers_unstageOverride _ _).thins).trans (delivers_setPreempt .idle (some i) _).thins).trans
      Thins.same
  · exact Thins.refl s

theorem thins_enterLeaving (s : State) : Thins s (enterLeaving s) := by
  unfold enterLeaving
  split
  · exact Thins.refl s
  · rename_i r _
    dsimp only
    have left : Thins s
        (setPreempt .leaving s.preempt.running
          { s with preempt.expected := some (s.expectedSet r.resumeStage r.override) }) :=
      Thins.trans Thins.same (delivers_setPreempt _ _ _).thins
    have cleared := (left.trans (Thins.same (t :=
        { setPreempt .leaving s.preempt.running
            { s with preempt.expected := some (s.expectedSet r.resumeStage r.override) } with
          preempt := (setPreempt .leaving s.preempt.running
            { s with preempt.expected := some (s.expectedSet r.resumeStage r.override) }).preempt.startClearing
              (s.leftGreen (s.expectedSet r.resumeStage r.override)) }))).trans
      (delivers_command (s.leftGreen (s.expectedSet r.resumeStage r.override)) .yellow _).thins
    split
    · exact cleared.trans (thins_handBack _)
    · exact cleared

theorem thins_endDwell (s : State) : Thins s (endDwell s) := by
  unfold endDwell
  split
  · split
    · exact (delivers_directRun _ s).thins
    · exact thins_enterLeaving s
  · exact thins_enterLeaving s

theorem thins_endAllRed (s : State) : Thins s (endAllRed s) := by
  unfold endAllRed
  split
  · exact Thins.trans Thins.same (delivers_beginDwell _).thins
  · exact Thins.trans Thins.same (thins_handBack _)
  all_goals exact Thins.refl s

theorem thins_takeClearingEnd (g : Group) (s : State) : Thins s (takeClearingEnd g s) := by
  unfold takeClearingEnd
  have red : Thins s
      (command (1#16 <<< g.val) .red
        { s with
          preempt.clearing := s.preempt.clearing.filter fun c => decide (c.group ≠ g)
          preempt.clearedAllRed := clearedAllRedWith s.preempt.clearedAllRed g s.preempt.clearing }) :=
    (delivers_command _ _ _).thins.upon
  refine red.trans ?_
  dsimp only
  split
  · split
    · exact thins_endAllRed _
    · exact Thins.same
  · exact Thins.refl _

theorem thins_takeActivation (i : PreemptInput) (s : State) : Thins s (takeActivation i s) := by
  unfold takeActivation
  dsimp only
  split
  · exact Thins.same
  · split
    case h_1 => exact Thins.trans Thins.same (delivers_requestTake _).thins
    case h_4 => exact Thins.trans Thins.same (delivers_directRun _ _).thins
    all_goals
      split
      · exact Thins.trans Thins.same (delivers_takeOver _).thins
      · exact Thins.same
      · exact Thins.same

theorem thins_takeRelease (i : PreemptInput) (s : State) : Thins s (takeRelease i s) := by
  have stuck : ∀ (b : Bool) (u : State), Thins u (if b = true then withdrawStuck i u else u) := by
    intro b u
    split
    · exact (delivers_withdrawStuck i u).thins
    · exact Thins.refl u
  have wait : ∀ u : State, Thins u (if u.preempt.waiting = some i then { u with preempt.waiting := none } else u) := by
    intro u
    split
    · exact Thins.same
    · exact Thins.refl u
  have tail : ∀ u : State, Thins u
      (match u.preempt.state with
      | .idle =>
        if u.preempt.heldTake && u.preempt.claimant.isNone then
          { u with preempt.heldTake := false, seq.heldTake := false }
        else u
      | .dwell => if u.preempt.running = some i ∧ u.runningRoute.minDwell ≤ u.preempt.dwell then endDwell u else u
      | .entering | .leaving => u) := by
    intro u
    split
    · split
      · exact Thins.same
      · exact Thins.refl u
    · split
      · exact thins_endDwell u
      · exact Thins.refl u
    · exact Thins.refl u
    · exact Thins.refl u
  unfold takeRelease
  exact ((stuck (s.preempt.input i).ignored _).upon.trans (wait _)).trans (tail _)

theorem thins_takeMaximumHold (i : PreemptInput) (s : State) : Thins s (takeMaximumHold i s) := by
  have stuck : ∀ (n : Nat) (u : State), Thins u
      (if u.preempt.stuckRaised then u else raise .preemptStuck (some n) { u with preempt.stuckRaised := true }) := by
    intro n u
    split
    · exact Thins.refl u
    · exact (delivers_raise _ _ _).thins.upon
  have tail : ∀ u : State, Thins u (if u.preempt.state = .dwell ∧ u.preempt.running = some i then endDwell u else u) := by
    intro u
    split
    · exact thins_endDwell u
    · exact Thins.refl u
  unfold takeMaximumHold
  exact (stuck _ _).upon.trans (tail _)

theorem thins_takeMaximum (s : State) : Thins s (takeMaximum s) := by
  unfold takeMaximum
  split
  · exact thins_takeMaximumHold _ s
  · exact Thins.refl s

/-! ### Events, and the running to an instant -/

theorem thins_eventTake (c : Instr) (s : State) : Thins s (eventTake c s) := by
  unfold eventTake
  split
  · exact thins_takeRound s
  · exact thins_takeFrameInstant s
  · exact thins_takeCalendar s
  · exact thins_evaluateOrders none s
  · exact thins_evaluateOrders none s
  · exact thins_takeRepeat _ s
  · exact thins_takeIssuedEnd _ s
  · exact Thins.same
  · exact thins_meetGap s
  · exact thins_reachDeferLimit s
  · exact Thins.same
  · exact thins_takeCycleEnd s
  · exact thins_takeStageGreen s
  · exact (delivers_takeGreenEnd s).thins
  · exact (delivers_takeYellowEnd s).thins
  · exact (delivers_takeTrailingEnd _ s).thins
  · exact thins_takeStartupEnd s
  · exact Thins.same
  · exact Thins.trans Thins.same (delivers_clearOutside _).thins
  · exact thins_takeClearingEnd _ s
  · exact thins_endAllRed s
  · exact thins_endDwell s
  · exact thins_takeMaximum s
  · exact (delivers_takeGreenFaulted _ s).thins
  · exact (delivers_takeGreenClean _ s).thins
  · exact (delivers_takeLampFaulted _ s).thins
  · exact (delivers_takeLampClean _ s).thins
  · exact thins_takeActivation _ s
  · exact thins_takeRelease _ s
  · exact Thins.refl s

/-- The first due event is one that a command could have named. -/
theorem takeFirstDue_eventTake {s t : State} (h : takeFirstDue s = some t) : ∃ c, t = eventTake c s := by
  obtain ⟨c, due, taken⟩ := takeFirstDue_due h
  rw [due.exec_eq] at taken
  cases taken
  exact ⟨c, rfl⟩

theorem thins_takeFirstDue {s t : State} (h : takeFirstDue s = some t) : Thins s t := by
  obtain ⟨c, rfl⟩ := takeFirstDue_eventTake h
  exact thins_eventTake c s

theorem thins_passHeld (s : State) : Thins s (passHeld s) := by
  unfold passHeld
  split
  · exact Thins.same
  · exact Thins.refl s

theorem thins_nextInstant (s : State) : Thins s (nextInstant s) := by
  unfold nextInstant
  split
  · rename_i h
    exact thins_takeFirstDue h
  · split
    · exact thins_passHeld s
    · exact Thins.same

theorem thins_runUntil (due : State → Bool) (n : Nat) (s : State) : Thins s (runUntil due n s) := by
  induction n generalizing s with
  | zero => exact Thins.refl s
  | succ n ih =>
    unfold runUntil
    split
    · exact Thins.refl s
    · exact (thins_nextInstant s).trans (ih _)

theorem thins_stepPosition (s : State) : Thins s (stepPosition s) := by
  unfold stepPosition
  split
  case h_4 | h_5 => exact Thins.refl s
  all_goals split <;> exact Thins.same

theorem thins_stepSequencer (s : State) : Thins s (stepSequencer s) := by
  unfold stepSequencer
  split <;> exact Thins.same

theorem thins_stepFlash (s : State) : Thins s (stepFlash s) := by
  unfold stepFlash
  split
  · split <;> exact Thins.same
  · exact Thins.refl s

theorem thins_stepClearing (s : State) : Thins s (stepClearing s) := by
  unfold stepClearing
  split <;> exact Thins.same

theorem thins_stepPreemption (s : State) : Thins s (stepPreemption s) := by
  unfold stepPreemption
  split
  · exact Thins.refl s
  · split
    · exact Thins.same
    · exact thins_stepClearing s
  · exact Thins.same
  · exact thins_stepClearing s

theorem thins_stepTiming (s : State) : Thins s (stepTiming s) := by
  have last : ∀ u : State, Thins u { u with instants.timing := true } := fun _ => Thins.same
  unfold stepTiming
  exact ((((thins_stepPosition s).trans (thins_stepSequencer _)).trans (thins_stepFlash _)).trans
    (thins_stepPreemption _)).trans (last _)

theorem thins_timed (s : State) : Thins s (timed s) := by
  unfold timed
  split
  · exact Thins.refl s
  · exact thins_stepTiming s

theorem thins_sampleCabinet (level : Bool) (s : State) : Thins s (sampleCabinet level s) := by
  have tail : ∀ u : State, Thins u
      (if level && !u.bank.cabinetRaised then raise .cabinetFlash none { u with bank.cabinetRaised := true }
      else if !level && u.bank.cabinetRaised then withdraw .cabinetFlash { u with bank.cabinetRaised := false }
      else u) := by
    intro u
    split
    · exact (delivers_raise _ _ _).thins.upon
    · split
      · exact (delivers_withdraw _ _).thins.upon
      · exact Thins.refl u
  unfold sampleCabinet
  exact (tail _).upon

theorem thins_takeSamples (levels : Levels) (s : State) : Thins s (takeSamples levels s) := by
  have last : ∀ u : State, Thins u (samplePreempt levels u) := fun _ => Thins.same
  unfold takeSamples
  split
  · exact (thins_sampleCabinet _ _).upon.trans (last _)
  · exact Thins.refl s

theorem thins_boundaryWork (levels : Levels) (s : State) : Thins s (boundaryWork levels s) :=
  ((((Thins.trans (t := { s with pins := levels }) Thins.same (thins_roundFirst _)).trans (thins_timed _)).trans
    (thins_takeSamples levels _)).trans (thins_slewMillisecond _)).trans Thins.same

theorem thins_takeBoundary (levels : Levels) (s : State) : Thins s (takeBoundary levels s) :=
  (thins_runUntil _ _ s).trans (thins_boundaryWork levels _)

theorem thins_whenReached (due : State → Bool) (c : Instr) (s : State) : Thins s (whenReached due (eventTake c) s) := by
  unfold whenReached
  dsimp only
  split
  · exact (thins_runUntil due _ s).trans (thins_eventTake c _)
  · exact Thins.refl s

theorem thins_whenDue (due : State → Bool) (c : Instr) (s : State) : Thins s (whenDue due (eventTake c) s) := by
  unfold whenDue
  dsimp only
  split
  · exact thins_eventTake c s
  · split
    · exact ((thins_runUntil _ _ s).trans (thins_timed _)).trans (thins_eventTake c _)
    · exact Thins.refl s

theorem thins_whenSampled (due : State → Bool) (c : Instr) (s : State) : Thins s (whenSampled due (eventTake c) s) := by
  unfold whenSampled
  split
  · exact thins_eventTake c s
  · exact Thins.refl s

theorem thins_tick (s : State) : Thins s (tick s) := by
  unfold tick
  split
  · rename_i h
    exact thins_takeFirstDue h
  · split
    · exact thins_boundaryWork _ s
    · split
      · exact thins_passHeld s
      · exact Thins.same

end Sys2Proof.Machine
end

section
/-! Requests and frames: what each does to the order list and the issued list. One operation puts at most one entry into
each, in its place. -/

set_option Elab.async false

namespace Sys2Proof.Machine

/-! ### An ORDER or a CANCEL arrives -/

theorem removeEntry_sublist (k : OrderKey) (l : List OrderEntry) : (removeEntry k l).Sublist l := List.filter_sublist

theorem prunes_evict (v : OrderEntry) (s : State) : Prunes s (evict v s) := by
  have removed : Prunes s { s with orders.entries := removeEntry v.key s.orders.entries } :=
    ⟨(removeEntry_sublist _ _).map _, rfl⟩
  exact removed.trans (delivers_post _ _).prunes

theorem places_cancelEntry (e : OrderEntry) (revision : Nat) (finish : NetTime) (s : State) :
    Places s (cancelEntry e revision finish s) := by
  unfold cancelEntry
  dsimp only
  refine Places.trans ?_ (delivers_reportState _ _ _ _).prunes
  refine Places.trans ?_ (delivers_post _ _).prunes
  exact places_insertEntry s _ (removeEntry_sublist _ _)

theorem places_storeOrder (o : OrderContent) (s : State) : Places s (storeOrder o s) := by
  unfold storeOrder
  dsimp only
  refine Places.trans ?_ (prunes_evaluateOrders _ _)
  refine Places.trans ?_ (delivers_post _ _).prunes
  exact places_insertEntry s _ (List.Sublist.refl _)

theorem prunes_refuseRoom (o : OrderContent) (s : State) : Prunes s (refuseRoom o s) := by
  have counted : Prunes s { s with orders.refusedRoom := countUp 65535 s.orders.refusedRoom } := Prunes.same
  exact counted.trans (delivers_post _ _).prunes

theorem places_admitOrder (o : OrderContent) (s : State) : Places s (admitOrder o s) := by
  have refused := (prunes_refuseRoom o s).places (o.toEntry s.clock.reading .pending)
  have stored : ∀ t u : State, Prunes s t → u.orders.entries = t.orders.entries → u.orders.issued = t.orders.issued →
      Places s (storeOrder o u) := fun t u evicted entries issued =>
    (places_storeOrder o u).after
      (evicted.trans ⟨by unfold State.places; rw [entries], issued⟩)
  unfold admitOrder
  split
  · exact places_storeOrder o s
  · split
    · exact stored _ _ (prunes_evict _ s) rfl rfl
    · split
      · exact refused
      · split
        · exact refused
        · exact stored _ _ (prunes_evict _ s) rfl rfl

theorem places_processOrder (o : OrderContent) (s : State) : Places s (processOrder o s) := by
  unfold processOrder
  split
  · rename_i e _
    split
    · exact (Prunes.refl s).places e
    · split
      · dsimp only
        refine Places.trans ?_ (prunes_evaluateOrders _ _)
        refine Places.trans ?_ (delivers_post _ _).prunes
        exact places_insertEntry s _ (removeEntry_sublist _ _)
      · exact (places_cancelEntry e _ _ s).trans (prunes_evaluateOrders _ _)
  · split
    · exact places_admitOrder o s
    · have counted : Prunes s { s with orders.outOfZone := countUp 65535 s.orders.outOfZone } := Prunes.same
      exact counted.places (o.toEntry s.clock.reading .pending)

theorem places_arriveOrder (o : OrderContent) (s : State) : Places s (arriveOrder o s) := by
  unfold arriveOrder
  split
  · exact places_processOrder o s
  · have counted : Prunes s { s with orders.rejected := countUp 65535 s.orders.rejected } := Prunes.same
    exact counted.places (o.toEntry s.clock.reading .pending)

theorem places_insertPlaceholder (c : CancelContent) (s : State) : Places s (insertPlaceholder c s) :=
  places_insertEntry s _ (List.Sublist.refl _)

theorem places_storePlaceholder (c : CancelContent) (s : State) : Places s (storePlaceholder c s) := by
  have counted : Prunes s { s with orders.droppedCancel := countUp 65535 s.orders.droppedCancel } := Prunes.same
  have dropped := counted.places (c.toPlaceholder s.clock.reading)
  unfold storePlaceholder
  dsimp only
  split
  · exact (places_insertPlaceholder c s).trans (prunes_evaluateOrders _ _)
  · split
    · split
      · exact ((places_insertPlaceholder c _).after (prunes_evict _ s)).trans (prunes_evaluateOrders _ _)
      · exact dropped
    · exact dropped

theorem places_cancelInList (c : CancelContent) (s : State) : Places s (cancelInList c s) := by
  unfold cancelInList
  split
  · rename_i e _
    split
    · refine Prunes.places (Prunes.trans ?_ (prunes_evaluateOrders _ _)) e
      refine ⟨?_, rfl⟩
      unfold State.places
      rw [List.map_map]
      have same : ∀ x : OrderEntry,
          (OrderEntry.bare ∘ fun x => if x.key = c.key then { x with revision := max x.revision c.revision } else x) x
            = x.bare := by
        intro x
        simp only [Function.comp_apply]
        split <;> rfl
      rw [funext same]
    · split
      · exact (places_cancelEntry e _ _ s).trans (prunes_evaluateOrders _ _)
      · exact (Prunes.refl s).places e
  · split
    · exact places_storePlaceholder c s
    · exact (Prunes.refl s).places (c.toPlaceholder s.clock.reading)

theorem thins_cancelIssued (c : CancelContent) (s : State) : Thins s (cancelIssued c s) := by
  unfold cancelIssued
  split
  · exact ⟨List.Sublist.refl _, List.filter_sublist.map _⟩
  · exact Thins.refl s

theorem admits_arriveCancel (c : CancelContent) (s : State) : Admits s (arriveCancel c s) := by
  unfold arriveCancel
  split
  · exact (places_cancelInList c s).admits.trans (thins_cancelIssued c _)
  · exact (Thins.same).admits (c.toPlaceholder s.clock.reading)

/-! ### Frames -/

theorem admits_receiveOrder (body : List Byte) (s : State) : Admits s (receiveOrder body s) := by
  unfold receiveOrder
  dsimp only
  split
  · exact (Thins.same).admits ((readOrderBody body).toEntry s.clock.reading .pending)
  · exact ((places_arriveOrder _ _).admits.trans (thins_relayOrder _ _)).after Thins.same

theorem admits_receiveCancel (body : List Byte) (s : State) : Admits s (receiveCancel body s) := by
  unfold receiveCancel
  dsimp only
  split
  · exact (Thins.same).admits ((readCancelBody body).toPlaceholder s.clock.reading)
  · exact ((admits_arriveCancel _ _).trans (thins_relayCancel _ _)).after Thins.same

theorem thins_createNeighbour (n : Neighbour) (s : State) : Thins s (createNeighbour n s) := by
  unfold createNeighbour
  split
  · exact Thins.same
  · split
    · split <;> exact Thins.same
    · exact Thins.refl s

theorem thins_takeTimeFrame (sender : Nat) (body : List Byte) (captured : NetTime) (s : State) :
    Thins s (takeTimeFrame sender body captured s) := by
  unfold takeTimeFrame
  split
  · split
    · exact Thins.same
    · split
      · exact Thins.same
      · dsimp only
        split
        · exact Thins.same
        · exact thins_createNeighbour _ s
  · exact Thins.same

theorem thins_receiveTime (sender : Byte) (body : List Byte) (s : State) : Thins s (receiveTime sender body s) :=
  (thins_takeTimeFrame _ _ _ _).upon

theorem thins_rejectFrame (own : Bool) (kind sender : Byte) (body : List Byte) (crc : BitVec 16) (s : State) :
    Thins s (rejectFrame own kind sender body crc s) := by
  unfold rejectFrame
  dsimp only
  split_ifs <;> exact Thins.same

theorem thins_completeFrame (s : State) : Thins s (completeFrame s) := by
  have tail : ∀ u : State, Thins u
      (if u.line.jamRaised then withdraw .lineJam { u with line.jamRaised := false } else u) := by
    intro u
    split
    · exact (delivers_withdraw _ _).thins.upon
    · exact Thins.refl u
  unfold completeFrame
  exact (thins_deferOnHead _).upon.trans (tail _)

theorem thins_collide (s : State) : Thins s (collide s) := by
  unfold collide
  split
  · exact (thins_attemptFailed _ _).upon
  · exact Thins.refl s

/-! ### Requests -/

theorem thins_discardHeld (s : State) : Thins s (discardHeld s) := by
  unfold discardHeld
  split <;> exact Thins.same

theorem thins_beginRunning (c : ConfigRecord) (s : State) : Thins s (beginRunning c s) := by
  unfold beginRunning startCoordinator
  dsimp only
  have evaluated : ∀ u : State, Thins u (evaluateSchedule (setCoord .suspended (some .flash) u)) := fun u =>
    (delivers_setCoord .suspended (some .flash) u nofun).thins.trans (thins_evaluateSchedule _)
  split
  · exact (evaluated _).upon
  · exact ((evaluated _).trans (delivers_flashExit _).thins).upon

theorem thins_startWork (body : List Byte) (s : State) : Thins s (startWork body s).1 := by
  unfold startWork
  split
  · exact Thins.refl s
  · exact thins_beginRunning _ s

theorem thins_restartWork (s : State) : Thins s (restartWork s).1 := ⟨List.nil_sublist _, List.nil_sublist _⟩

theorem thins_setTimeAnchored (t : NetTime) (s : State) : Thins s (setTimeAnchored t s).1 := by
  unfold setTimeAnchored
  split
  · exact ((thins_stepClock _ s).trans (thins_setClockState _ _)).trans Thins.same
  all_goals
    dsimp only
    split
    · exact (thins_leaveHoldover _ _).upon
    · exact Thins.refl s

theorem thins_setTimeWork (body : List Byte) (s : State) : Thins s (setTimeWork body s).1 := by
  unfold setTimeWork
  dsimp only
  split
  · exact Thins.refl s
  · split
    · exact thins_stepClock _ s
    · split
      · exact thins_setTimeAnchored _ s
      · exact Thins.refl s

theorem thins_addEntryWork (body : List Byte) (s : State) : Thins s (addEntryWork body s).1 := by
  unfold addEntryWork
  dsimp only
  split
  · exact Thins.refl s
  · split
    · exact Thins.refl s
    · split
      · exact Thins.refl s
      · exact (thins_evaluateSchedule _).upon

theorem thins_dropEntryWork (body : List Byte) (s : State) : Thins s (dropEntryWork body s).1 := by
  unfold dropEntryWork
  dsimp only
  split
  · exact Thins.refl s
  · split
    · exact (thins_evaluateSchedule _).upon
    · exact Thins.refl s

theorem thins_addSpecialWork (body : List Byte) (s : State) : Thins s (addSpecialWork body s).1 := by
  unfold addSpecialWork
  dsimp only
  split
  · exact Thins.refl s
  · split
    · exact Thins.refl s
    · split
      · exact Thins.refl s
      · split
        · exact Thins.refl s
        · exact (thins_evaluateSchedule _).upon

theorem thins_dropSpecialWork (body : List Byte) (s : State) : Thins s (dropSpecialWork body s).1 := by
  unfold dropSpecialWork
  dsimp only
  split
  · exact Thins.refl s
  · split
    · exact (thins_evaluateSchedule _).upon
    · exact Thins.refl s

theorem thins_placeCallWork (body : List Byte) (s : State) : Thins s (placeCallWork body s).1 := by
  unfold placeCallWork
  dsimp only
  split
  · exact Thins.same
  · exact Thins.refl s

theorem thins_rewriteSaveWork (body : List Byte) (s : State) : Thins s (rewriteSaveWork body s).1 := by
  unfold rewriteSaveWork
  dsimp only
  split
  · exact Thins.refl s
  · split
    · exact Thins.refl s
    · exact Thins.refl s
    · split
      · exact Thins.refl s
      · split
        · exact Thins.refl s
        · exact (delivers_post _ _).thins.upon

theorem thins_ackFaultWork (body : List Byte) (s : State) : Thins s (ackFaultWork body s).1 := by
  unfold ackFaultWork
  split
  · exact Thins.refl s
  · split
    · exact (delivers_acknowledge _ s).thins
    · exact Thins.refl s
    · exact Thins.refl s

theorem thins_loadPlanWork (body : List Byte) (s : State) : Thins s (loadPlanWork body s).1 := by
  unfold loadPlanWork
  dsimp only
  split
  · exact Thins.refl s
  · exact (thins_evaluateOrders _ _).upon

theorem thins_erasePlanWork (body : List Byte) (s : State) : Thins s (erasePlanWork body s).1 := by
  unfold erasePlanWork
  dsimp only
  split
  · exact Thins.refl s
  · split
    · exact Thins.refl s
    · split
      · exact Thins.refl s
      · exact (thins_evaluateOrders _ _).upon

theorem admits_cancelWork (body : List Byte) (s : State) : Admits s (cancelWork body s).1 := by
  have none : Admits s s := (Thins.refl s).admits ((readCancelBody body).toPlaceholder s.clock.reading)
  unfold cancelWork
  dsimp only
  split
  · exact none
  · split
    · exact none
    · split
      · exact (admits_arriveCancel _ _).after (thins_placeOwnCancel _ s)
      · exact none

theorem storeIssued_entries (r : IssueRequest) (i : IssuedEntry) (s : State) :
    (storeIssued r i s).orders.entries = s.orders.entries := by
  unfold storeIssued
  split <;> rfl

theorem storeIssued_issued (r : IssueRequest) (i : IssuedEntry) (s : State) :
    (storeIssued r i s).stamps = s.stamps ∨ (storeIssued r i s).orders.issued = insertIssued i s.orders.issued := by
  unfold storeIssued
  split
  · exact .inl (mapIssued_stamps _ _ (fun _ => .inr rfl) _)
  · exact .inr rfl

/-- ISSUE_ORDER puts one entry into the issued list, or changes one there, and may put one into the order list. -/
theorem takes_issueWork (body : List Byte) (s : State) : Takes s (issueWork body s).1 := by
  unfold issueWork
  dsimp only
  split
  · exact ((Thins.refl s).admits ((readOrderBody body).toEntry s.clock.reading .pending)).takes
  · generalize formIssued (readIssue body) s = i
    generalize hu : placeOwnOrder (i.content 0) (storeIssued (readIssue body) i s) = u
    have orders : u.orders = (storeIssued (readIssue body) i s).orders := hu ▸ placeTail_orders _ _
    have placed : Places u _ := (places_processOrder (i.content 0) u).trans
      (delivers_post (.orderIssued i.key.stamp i.revision (readIssue body).plan) _).prunes
    have list : u.places = s.places := by unfold State.places; rw [orders, storeIssued_entries]
    refine ⟨list ▸ placed.entries, ?_⟩
    rw [State.stamps, placed.issued, orders]
    exact (storeIssued_issued (readIssue body) i s).imp (fun same => by rw [← same]; exact List.Sublist.refl _) fun new => ⟨i, new⟩

/-- The work of a request, on the body its packet brings. -/
def requestWork : Instr → State → State × Answer
  | .identify _ _ => answering identifyBody
  | .status _ _ => answering statusBody
  | .start _ body => startWork body
  | .restart _ _ => restartWork
  | .setTime _ body => setTimeWork body
  | .loadPlan _ body => loadPlanWork body
  | .erasePlan _ body => erasePlanWork body
  | .readPlan _ body => readPlanWork body
  | .addEntry _ body => addEntryWork body
  | .dropEntry _ body => dropEntryWork body
  | .readTimetable _ body => readTimetableWork body
  | .addSpecialDay _ body => addSpecialWork body
  | .dropSpecialDay _ body => dropSpecialWork body
  | .issueOrder _ body => issueWork body
  | .cancelOrder _ body => cancelWork body
  | .readOrders _ body => readOrdersWork body
  | .placeCall _ body => placeCallWork body
  | .readSave _ _ => readSaveWork
  | .rewriteSave _ body => rewriteSaveWork body
  | .readFaults _ _ => readFaultsWork
  | .ackFault _ body => ackFaultWork body
  | .readReports _ _ => readReportsWork
  | .readNeighbours _ _ => answering fun s => neighboursAnswer s.clock
  | _ => answering fun _ => []

theorem exec_request {c : Instr} {r : RequestShape} (h : requestShape c = some r) (s : State) :
    exec c s = .next (serve r.code r.seq r.fits r.admission (requestWork c) s) := by
  unfold requestShape at h
  split at h <;> cases h <;> rfl

end Sys2Proof.Machine
end

section
/-! The invariant under every command and under the passing of time. -/

set_option Elab.async false

namespace Sys2Proof.Machine

/-- What an operation keeps: the invariant, and the order lists in a state from which their order follows. -/
structure Keeps (s t : State) : Prop where
  inv : Inv s → Inv t
  takes : Takes s t

theorem Keeps.of {s t : State} (moves : Moves s t) (steady : Rooms s → Steady s t) (takes : Takes s t) : Keeps s t :=
  ⟨fun i => ⟨moves.inv i.toRooms, steady i.toRooms i.settled⟩, takes⟩

theorem Thins.takes {s t : State} (h : Thins s t) : Takes s t :=
  (h.admits { key := { origin := 0, stamp := ⟨0, 0⟩ }, revision := 0, detail := none, finish := ⟨0, 0⟩, zones := 0
              hop := 0, state := .pending, storedAt := ⟨0, 0⟩ }).takes

/-- Operations on either side that leave the order lists as they are. -/
theorem Takes.between {s t u v : State} (k : Takes t u) (before : t.orders = s.orders) (after : v.orders = u.orders) :
    Takes s v := by
  obtain ⟨entries, issued⟩ := k
  unfold State.places at entries
  unfold State.stamps at issued
  rw [before, ← after] at entries issued
  exact ⟨entries, issued⟩

/-! ### Events -/

theorem moves_eventTake (c : Instr) (s : State) : Moves s (eventTake c s) := by
  unfold eventTake
  split
  · exact moves_takeRound s
  · exact moves_takeFrameInstant s
  · exact moves_takeCalendar s
  · exact moves_evaluateOrders none s
  · exact moves_evaluateOrders none s
  · exact moves_takeRepeat _ s
  · exact moves_takeIssuedEnd _ s
  · exact moves_takeRelayWait s
  · exact moves_meetGap s
  · exact moves_reachDeferLimit s
  · exact moves_takeBackoff s
  · exact moves_takeCycleEnd s
  · exact moves_takeStageGreen s
  · exact (delivers_takeGreenEnd s).moves
  · exact (delivers_takeYellowEnd s).moves
  · exact (delivers_takeTrailingEnd _ s).moves
  · exact moves_takeStartupEnd s
  · exact moves_takeToggle s
  · exact moves_takeGreenHoldEnd s
  · exact moves_takeClearingEnd _ s
  · exact moves_endAllRed s
  · exact moves_endDwell s
  · exact moves_takeMaximum s
  · exact (delivers_takeGreenFaulted _ s).moves
  · exact (delivers_takeGreenClean _ s).moves
  · exact (delivers_takeLampFaulted _ s).moves
  · exact (delivers_takeLampClean _ s).moves
  · exact moves_takeActivation _ s
  · exact moves_takeRelease _ s
  · exact Moves.refl s

theorem steady_eventTake (c : Instr) (s : State) : Steady s (eventTake c s) := by
  unfold eventTake
  split
  · exact steady_takeRound s
  · exact steady_takeFrameInstant s
  · exact steady_takeCalendar s
  · exact steady_evaluateOrders none s
  · exact steady_evaluateOrders none s
  · exact (calm_takeRepeat _ s).steady
  · exact (calm_takeIssuedEnd _ s).steady
  · exact (calm_takeRelayWait s).steady
  · exact (calm_meetGap s).steady
  · exact steady_reachDeferLimit s
  · exact (calm_takeBackoff s).steady
  · exact steady_takeCycleEnd s
  · exact (calm_takeStageGreen s).steady
  · exact (calm_takeGreenEnd s).steady
  · exact (calm_takeYellowEnd s).steady
  · exact (calm_takeTrailingEnd _ s).steady
  · exact steady_takeStartupEnd s
  · exact (calm_takeToggle s).steady
  · exact (calm_takeGreenHoldEnd s).steady
  · exact steady_takeClearingEnd _ s
  · exact steady_endAllRed s
  · exact steady_endDwell s
  · exact steady_takeMaximum s
  · exact steady_takeGreenFaulted _ s
  · exact steady_takeGreenClean _ s
  · exact steady_takeLampFaulted _ s
  · exact steady_takeLampClean _ s
  · exact steady_takeActivation _ s
  · exact steady_takeRelease _ s
  · exact Steady.refl s

theorem keeps_clockEvent {c : Instr} {due : State → Bool} (s : State) : Keeps s (whenReached due (eventTake c) s) :=
  .of (moves_whenReached _ _ (moves_eventTake c) s) (fun _ => steady_whenReached _ _ (steady_eventTake c) s)
    (thins_whenReached _ c s).takes

theorem keeps_boundaryEvent {c : Instr} {due : State → Bool} (s : State) : Keeps s (whenDue due (eventTake c) s) :=
  .of (moves_whenDue _ _ (moves_eventTake c) s) (fun _ => steady_whenDue _ _ (steady_eventTake c) s)
    (thins_whenDue _ c s).takes

theorem keeps_sampleEvent {c : Instr} {due : State → Bool} (s : State) : Keeps s (whenSampled due (eventTake c) s) :=
  .of (moves_whenSampled _ _ (moves_eventTake c) s) (fun _ => steady_whenSampled _ _ (steady_eventTake c) s)
    (thins_whenSampled _ c s).takes

/-! ### Requests -/

theorem keeps_serve (request seq : Byte) (fits : Bool) (admission : Admission) (work : State → State × Answer)
    (h : ∀ u : State, admission.admits u.port.part = true → Keeps u (work u).1) (s : State) :
    Keeps s (serve request seq fits admission work s) := by
  have first : Inv s → Inv (discardHeld s) := fun i =>
    ⟨(moves_discardHeld s).inv i.toRooms, Calm.steady (s := s) ⟨by simp, by simp⟩ i.settled⟩
  have held : ∀ (a : Answer) (u : State), Inv u → Inv (hold request seq a u) := fun a u i =>
    ⟨(moves_hold _ _ a u).inv i.toRooms, (calm_hold _ _ a u).steady i.settled⟩
  have lists : (discardHeld s).orders = s.orders := by simp
  have unmoved : ∀ u : State, u.orders = s.orders → Takes s u := fun u same =>
    ((Thins.refl s).takes).between rfl same
  unfold serve
  dsimp only
  split
  · split
    · rename_i admitted
      have worked := h _ admitted
      exact ⟨fun i => held _ _ (worked.inv (first i)), worked.takes.between lists rfl⟩
    · exact ⟨fun i => held _ _ (first i), unmoved _ lists⟩
  · exact ⟨fun i => ⟨(moves_refuseMalformed _ _ _).inv (first i).toRooms,
      (calm_refuseMalformed _ _ _).steady (first i).settled⟩, unmoved _ lists⟩

theorem keeps_requestWork {c : Instr} {r : RequestShape} (h : requestShape c = some r) (s : State)
    (admitted : r.admission.admits s.port.part = true) : Keeps s (requestWork c s).1 := by
  have unchanged : Keeps s s := ⟨id, (Thins.refl s).takes⟩
  unfold requestShape at h
  split at h <;> cases h
  case h_1 => exact unchanged
  case h_2 => exact unchanged
  case h_3 seq body =>
    have configuring : s.port.part = .configuring := by
      cases part : s.port.part
      · rfl
      · rw [part] at admitted
        cases admitted
    exact .of (moves_startWork body s) (fun i => steady_startWork body s i configuring) (thins_startWork body s).takes
  case h_4 => exact .of (moves_restartWork s) (fun _ _ => settled_restarted s) (thins_restartWork s).takes
  case h_5 seq body => exact .of (moves_setTimeWork body s) (fun _ => steady_setTimeWork body s) (thins_setTimeWork body s).takes
  case h_6 seq body =>
    exact .of (moves_loadPlanWork body s) (fun _ => steady_loadPlanWork body s) (thins_loadPlanWork body s).takes
  case h_7 seq body =>
    exact .of (moves_erasePlanWork body s) (fun _ => steady_erasePlanWork body s) (thins_erasePlanWork body s).takes
  case h_8 seq body =>
    unfold requestWork readPlanWork
    dsimp only
    split <;> exact unchanged
  case h_9 seq body =>
    exact .of (moves_addEntryWork body s) (fun _ => steady_addEntryWork body s) (thins_addEntryWork body s).takes
  case h_10 seq body =>
    exact .of (moves_dropEntryWork body s) (fun _ => steady_dropEntryWork body s) (thins_dropEntryWork body s).takes
  case h_11 seq body =>
    unfold requestWork readTimetableWork
    dsimp only
    split
    · split <;> exact unchanged
    · split <;> exact unchanged
    · exact unchanged
  case h_12 seq body =>
    exact .of (moves_addSpecialWork body s) (fun _ => steady_addSpecialWork body s) (thins_addSpecialWork body s).takes
  case h_13 seq body =>
    exact .of (moves_dropSpecialWork body s) (fun _ => steady_dropSpecialWork body s) (thins_dropSpecialWork body s).takes
  case h_14 seq body => exact .of (moves_issueWork body s) (fun _ => steady_issueWork body s) (takes_issueWork body s)
  case h_15 seq body =>
    exact .of (moves_cancelWork body s) (fun _ => steady_cancelWork body s) (admits_cancelWork body s).takes
  case h_16 seq body =>
    unfold requestWork readOrdersWork
    dsimp only
    split <;> exact unchanged
  case h_17 seq body =>
    refine .of (moves_placeCallWork body s) (fun _ => ?_) (thins_placeCallWork body s).takes
    unfold requestWork placeCallWork
    dsimp only
    split <;> exact Steady.refl s
  case h_18 seq body =>
    unfold requestWork readSaveWork
    dsimp only
    split <;> exact unchanged
  case h_19 seq body =>
    exact .of (moves_rewriteSaveWork body s) (fun _ => steady_rewriteSaveWork body s) (thins_rewriteSaveWork body s).takes
  case h_20 => exact unchanged
  case h_21 seq body =>
    exact .of (moves_ackFaultWork body s) (fun _ => steady_ackFaultWork body s) (thins_ackFaultWork body s).takes
  case h_22 => exact .of (moves_readReportsWork s) (fun _ => Steady.refl s) (Thins.same).takes
  case h_23 => exact unchanged

/-! ### Every command, and time -/

theorem keeps_unchanged (s : State) : Keeps s s := ⟨id, (Thins.refl s).takes⟩

theorem Keeps.calm {s t : State} (moves : Moves s t) (calm : Calm s t) (thins : Thins s t) : Keeps s t :=
  .of moves (fun _ => calm.steady) thins.takes

theorem calm_discardHeld (s : State) : Calm s (discardHeld s) := ⟨by simp, by simp⟩

theorem keeps_unknownRequest (code seq : Byte) (s : State) : Keeps s (hold code seq (plain .unknown) (discardHeld s)) :=
  .calm ((moves_discardHeld s).trans (moves_hold _ _ _ _)) ((calm_discardHeld s).trans (calm_hold _ _ _ _))
    ((thins_discardHeld s).trans Thins.same)

theorem keeps_malformedRequest (code seq : Byte) (s : State) : Keeps s (refuseMalformed code seq (discardHeld s)) :=
  .calm ((moves_discardHeld s).trans (moves_refuseMalformed _ _ _)) ((calm_discardHeld s).trans (calm_refuseMalformed _ _ _))
    ((thins_discardHeld s).trans Thins.same)

/-- A read transfer touches the held response and the bytes last read alone. -/
theorem keeps_readTransfer (dataOut : List Byte) (held : Option Response) (s : State) :
    Keeps s { s with port.dataOut := dataOut, port.held := held } :=
  .calm (Moves.blocks (port := fun h => ⟨h.reports, h.dropped, h.configured⟩)) ⟨rfl, rfl⟩ Thins.same

theorem keeps_powerOnReset (s : State) :
    Keeps s { State.reset with pins := s.pins, draws := s.draws, pending := s.pending } :=
  ⟨fun _ => ⟨⟨reset_rooms.clock, reset_rooms.store, reset_rooms.timetable, reset_rooms.orders, reset_rooms.coord,
    reset_rooms.bank, reset_rooms.line, reset_rooms.port, reset_rooms.quiet⟩, reset_settled⟩,
    Thins.takes ⟨List.nil_sublist _, List.nil_sublist _⟩⟩

/-- The host's other commands, power-on reset, the boundary and the events of the line that name no instant. -/
theorem keeps_otherCommand {c : Instr} {s t : State} (h : exec c s = .next t) (request : requestShape c = none)
    (clock : clockDue c = none) (boundary : boundaryDue c = none) (sample : sampleDue c = none) : Keeps s t := by
  have guarded : ∀ {p : Prop} [Decidable p] {u : State},
      (if p then .next u else .next s : Host.Outcome State Fault Refusal) = .next t → Keeps s u → Keeps s t := by
    intro p _ u h k
    split at h <;> cases h
    · exact k
    · exact keeps_unchanged s
  cases c
  case unknownRequest code seq body =>
    refine guarded (p := code ∉ requestCodes) ?_ (keeps_unknownRequest code seq s)
    rw [← h]
    exact ite_not _ _ _
  case malformedRequest packet =>
    refine guarded (p := ¬ packetSound packet = true) ?_
      (keeps_malformedRequest (packet.getD 0 (Config.missingEcho 0)) (packet.getD 1 (Config.missingEcho 1)) s)
    rw [← h]
    exact ite_not _ _ _
  case readTransfer count =>
    change execReadTransfer count s = .next t at h
    unfold execReadTransfer at h
    split at h <;> cases h <;> exact keeps_readTransfer _ _ s
  case powerOnReset =>
    cases h
    exact keeps_powerOnReset s
  case decisecondBoundary levels =>
    cases h
    exact .of (moves_takeBoundary levels s) (fun _ => steady_takeBoundary levels s) (thins_takeBoundary levels s).takes
  case timeFrameReceived sender body =>
    exact guarded h (.calm (moves_receiveTime sender body s) (calm_receiveTime sender body s) (thins_receiveTime sender body s))
  case orderFrameReceived sender body =>
    exact guarded h (.of (moves_receiveOrder body s) (fun _ => steady_receiveOrder body s) (admits_receiveOrder body s).takes)
  case cancelFrameReceived sender body =>
    exact guarded h (.of (moves_receiveCancel body s) (fun _ => steady_receiveCancel body s) (admits_receiveCancel body s).takes)
  case frameRejected own kind sender body crc =>
    exact guarded h (.calm (moves_rejectFrame own kind sender body crc s) (calm_rejectFrame own kind sender body crc s)
      (thins_rejectFrame own kind sender body crc s))
  case bodyLengthExceeded length =>
    exact guarded h (.calm (moves_dropLength 0 s) (calm_dropLength 0 s) Thins.same)
  case frameEndedEarly => exact guarded h (.calm (moves_dropLength _ s) (calm_dropLength _ s) Thins.same)
  case startDelimiterEnd => exact guarded h (.calm (moves_captureDelimiter s) (calm_captureDelimiter s) Thins.same)
  case frameSent =>
    exact guarded h (.of (moves_completeFrame s) (fun _ => steady_completeFrame s) (thins_completeFrame s).takes)
  case collision => exact guarded h (.of (moves_collide s) (fun _ => steady_collide s) (thins_collide s).takes)
  all_goals contradiction

theorem exec_keeps {c : Instr} {s t : State} (h : exec c s = .next t) : Keeps s t := by
  cases request : requestShape c with
  | some r =>
    rw [exec_request request] at h
    cases h
    exact keeps_serve _ _ _ _ _ (fun u admitted => keeps_requestWork request u admitted) s
  | none =>
    cases clock : clockDue c with
    | some due =>
      rw [exec_clockEvent clock] at h
      cases h
      exact keeps_clockEvent s
    | none =>
      cases boundary : boundaryDue c with
      | some due =>
        rw [exec_boundaryEvent boundary] at h
        cases h
        exact keeps_boundaryEvent s
      | none =>
        cases sample : sampleDue c with
        | some due =>
          rw [exec_sampleEvent sample] at h
          cases h
          exact keeps_sampleEvent s
        | none => exact keeps_otherCommand h request clock boundary sample

theorem keeps_tick (s : State) : Keeps s (tick s) :=
  .of (moves_tick s) (fun _ => steady_tick s) (thins_tick s).takes

end Sys2Proof.Machine

open Sys2Proof Sys2Proof.Machine

/-- Settles O5: every command and the passing of time keep the invariant; they take entries out of the two order lists and put
at most one into each, in its place. -/
theorem everyStepKeepsTheInvariant : Obligations.EveryStepKeepsTheInvariant := by
  intro s t i h
  have keeps : Keeps s t := by
    unfold step at h
    split at h
    · cases h
      exact keeps_tick s
    · rename_i c rest _
      have k := exec_keeps h
      exact ⟨fun j => k.inv ⟨⟨j.clock, j.store, j.timetable, j.orders, j.coord, j.bank, j.line, j.port, j.quiet⟩, j.settled⟩,
        k.takes.between rfl rfl⟩
  exact ⟨keeps.inv i, keeps.takes.inOrder (keeps.inv i).orders⟩

end

section
/-! Requests that are refused, and RESTART. -/

set_option Elab.async false

namespace Sys2Proof.Machine

/-- A request's work that is not answered DONE has changed nothing. -/
def RefusesUnchanged (s : State) (r : State × Answer) : Prop := r.2.code ≠ .done → r.1 = s

theorem refusesUnchanged_same (s : State) (a : Answer) : RefusesUnchanged s (s, a) := fun _ => rfl

theorem refusesUnchanged_done (s t : State) (body : List Byte) : RefusesUnchanged s (t, done body) :=
  fun h => (h rfl).elim

theorem refusesUnchanged_ite {p : Prop} [Decidable p] {s : State} {x y : State × Answer} (h : RefusesUnchanged s x)
    (k : RefusesUnchanged s y) : RefusesUnchanged s (if p then x else y) := by
  split
  · exact h
  · exact k

theorem startWork_refused (body : List Byte) (s : State) : RefusesUnchanged s (startWork body s) := by
  unfold startWork
  split
  · exact refusesUnchanged_same s _
  · exact refusesUnchanged_done s _ _

theorem setTimeWork_refused (body : List Byte) (s : State) : RefusesUnchanged s (setTimeWork body s) := by
  have same := refusesUnchanged_same s
  have done := refusesUnchanged_done s
  unfold setTimeWork setTimeAnchored
  refine refusesUnchanged_ite (same _) ?_
  split
  · exact done _ _
  · refine refusesUnchanged_ite ?_ (same _)
    split
    · exact done _ _
    all_goals exact refusesUnchanged_ite (done _ _) (same _)

theorem loadPlanWork_refused (body : List Byte) (s : State) : RefusesUnchanged s (loadPlanWork body s) := by
  unfold loadPlanWork
  dsimp only
  split
  · exact refusesUnchanged_same s _
  · exact refusesUnchanged_done s _ _

theorem erasePlanWork_refused (body : List Byte) (s : State) : RefusesUnchanged s (erasePlanWork body s) := by
  have same := refusesUnchanged_same s
  unfold erasePlanWork
  exact refusesUnchanged_ite (same _)
    (refusesUnchanged_ite (same _) (refusesUnchanged_ite (same _) (refusesUnchanged_done s _ _)))

theorem addEntryWork_refused (body : List Byte) (s : State) : RefusesUnchanged s (addEntryWork body s) := by
  have same := refusesUnchanged_same s
  unfold addEntryWork
  refine refusesUnchanged_ite (same _) ?_
  split
  · exact same _
  · exact refusesUnchanged_ite (same _) (refusesUnchanged_done s _ _)

theorem dropEntryWork_refused (body : List Byte) (s : State) : RefusesUnchanged s (dropEntryWork body s) := by
  have same := refusesUnchanged_same s
  unfold dropEntryWork
  exact refusesUnchanged_ite (same _) (refusesUnchanged_ite (refusesUnchanged_done s _ _) (same _))

theorem addSpecialWork_refused (body : List Byte) (s : State) : RefusesUnchanged s (addSpecialWork body s) := by
  have same := refusesUnchanged_same s
  unfold addSpecialWork
  dsimp only
  split
  · exact same _
  · refine refusesUnchanged_ite (same _) ?_
    split
    · exact same _
    · exact refusesUnchanged_ite (same _) (refusesUnchanged_done s _ _)

theorem dropSpecialWork_refused (body : List Byte) (s : State) : RefusesUnchanged s (dropSpecialWork body s) := by
  have same := refusesUnchanged_same s
  unfold dropSpecialWork
  exact refusesUnchanged_ite (same _) (refusesUnchanged_ite (refusesUnchanged_done s _ _) (same _))

theorem issueWork_refused (body : List Byte) (s : State) : RefusesUnchanged s (issueWork body s) := by
  unfold issueWork
  dsimp only
  split
  · exact refusesUnchanged_same s _
  · exact refusesUnchanged_done s _ _

theorem cancelWork_refused (body : List Byte) (s : State) : RefusesUnchanged s (cancelWork body s) := by
  have same := refusesUnchanged_same s
  unfold cancelWork
  refine refusesUnchanged_ite (same _) ?_
  split
  · exact same _
  · exact refusesUnchanged_ite (refusesUnchanged_done s _ _) (same _)

theorem placeCallWork_refused (body : List Byte) (s : State) : RefusesUnchanged s (placeCallWork body s) :=
  refusesUnchanged_ite (refusesUnchanged_done s _ _) (refusesUnchanged_same s _)

theorem rewriteSaveWork_refused (body : List Byte) (s : State) : RefusesUnchanged s (rewriteSaveWork body s) := by
  have same := refusesUnchanged_same s
  unfold rewriteSaveWork
  refine refusesUnchanged_ite (same _) ?_
  split
  · exact same _
  · exact same _
  · split
    · exact same _
    · exact refusesUnchanged_ite (same _) (refusesUnchanged_done s _ _)

theorem ackFaultWork_refused (body : List Byte) (s : State) : RefusesUnchanged s (ackFaultWork body s) := by
  have same := refusesUnchanged_same s
  unfold ackFaultWork
  split
  · exact same _
  · split
    · exact refusesUnchanged_done s _ _
    · exact same _
    · exact same _

/-- The reading requests that can be refused change nothing at all. -/
theorem readingWork_same (body : List Byte) (s : State) :
    (readPlanWork body s).1 = s ∧ (readTimetableWork body s).1 = s ∧ (readOrdersWork body s).1 = s
      ∧ (readSaveWork s).1 = s := by
  unfold readPlanWork readTimetableWork readOrdersWork readSaveWork
  refine ⟨?_, ?_, ?_, ?_⟩
  · dsimp only
    split <;> rfl
  · dsimp only
    split
    · split <;> rfl
    · split <;> rfl
    · rfl
  · split <;> rfl
  · split <;> rfl

theorem requestWork_refused {c : Instr} {r : RequestShape} (h : requestShape c = some r) (s : State) :
    RefusesUnchanged s (requestWork c s) := by
  unfold requestShape at h
  split at h <;> cases h
  case h_1 | h_2 | h_20 | h_23 => exact refusesUnchanged_same s _
  case h_3 seq body => exact startWork_refused body s
  case h_4 | h_22 => exact refusesUnchanged_done s _ _
  case h_5 seq body => exact setTimeWork_refused body s
  case h_6 seq body => exact loadPlanWork_refused body s
  case h_7 seq body => exact erasePlanWork_refused body s
  case h_8 seq body => exact fun _ => (readingWork_same body s).1
  case h_9 seq body => exact addEntryWork_refused body s
  case h_10 seq body => exact dropEntryWork_refused body s
  case h_11 seq body => exact fun _ => (readingWork_same body s).2.1
  case h_12 seq body => exact addSpecialWork_refused body s
  case h_13 seq body => exact dropSpecialWork_refused body s
  case h_14 seq body => exact issueWork_refused body s
  case h_15 seq body => exact cancelWork_refused body s
  case h_16 seq body => exact fun _ => (readingWork_same body s).2.2.1
  case h_17 seq body => exact placeCallWork_refused body s
  case h_18 seq body => exact fun _ => (readingWork_same body s).2.2.2
  case h_19 seq body => exact rewriteSaveWork_refused body s
  case h_21 seq body => exact ackFaultWork_refused body s

/-- Nothing but the exchange differs: the held response and its two counts. -/
def ExchangeAlone (s t : State) : Prop :=
  t = { s with port.held := t.port.held, port.discarded := t.port.discarded, port.malformed := t.port.malformed }

theorem answered_exchangeAlone (s : State) (request seq : Byte) (code : ResponseCode) (body : List Byte) :
    ExchangeAlone s (s.answered request seq code body) := rfl

theorem answered_malformed_exchangeAlone (s : State) (n : Nat) (request seq : Byte) (code : ResponseCode)
    (body : List Byte) : ExchangeAlone s (({ s with port.malformed := n } : State).answered request seq code body) := rfl

/-- A request served is answered under its own code and number, and what is not DONE leaves all but the exchange (R200). -/
theorem serve_answers (request seq : Byte) (fits : Bool) (admission : Admission) (work : State → State × Answer) (s : State)
    (refused : ∀ u, RefusesUnchanged u (work u)) :
    ∃ h, (serve request seq fits admission work s).port.held = some h ∧ h.request = request ∧ h.seq = seq
      ∧ (h.code ≠ .done → ExchangeAlone s (serve request seq fits admission work s)) := by
  cases fits with
  | false =>
    rw [serve_unfit]
    exact ⟨_, rfl, rfl, rfl, fun _ => answered_malformed_exchangeAlone s _ _ _ _ _⟩
  | true =>
    cases admitted : admission.admits s.port.part with
    | false =>
      rw [serve_barred _ _ _ _ _ admitted]
      exact ⟨_, rfl, rfl, rfl, fun _ => answered_exchangeAlone s _ _ _ _⟩
    | true =>
      by_cases notDone : (work (discardHeld s)).2.code ≠ .done
      · rw [serve_unchanged _ _ _ _ _ admitted (refused _ notDone)]
        exact ⟨_, rfl, rfl, rfl, fun _ => answered_exchangeAlone s _ _ _ _⟩
      · rw [serve_done _ _ _ _ _ admitted]
        exact ⟨_, rfl, rfl, rfl, fun not => (notDone not).elim⟩

end Sys2Proof.Machine

open Sys2Proof Sys2Proof.Machine

/-- Settles O8: each request's work, where it is not answered DONE, has returned the state it was given. -/
theorem refusedRequestsChangeNothing : Obligations.RefusedRequestsChangeNothing := by
  intro c r s t shape h
  rw [exec_request shape] at h
  cases h
  exact serve_answers _ _ _ _ _ s (requestWork_refused shape)

/-- Settles O16: RESTART's work is `restarted`, field by field. -/
theorem restartKeepsPlansAndCalendar : Obligations.RestartKeepsPlansAndCalendar := by
  intro seq s
  have served : exec (.restart seq []) s = .next (hold 0x04 seq (done []) (restarted (discardHeld s))) :=
    congrArg Host.Outcome.next (serve_done 0x04 seq .both restartWork s rfl)
  have slots : ∀ n, (hold 0x04 seq (done []) (restarted (discardHeld s))).slot n =
      { s.slot n with state := if (s.slot n).state = .empty then .empty else .stored, pinned := false } := by
    intro n
    have kept := slot_afterRestart (discardHeld s).store n
    have same : (discardHeld s).store.slot n = s.slot n := congrArg (fun store => store.slot n) (discardHeld_store s)
    rw [same] at kept
    exact kept
  refine ⟨_, served, ?port, ?clock, ?timetable, ?slots, rfl, rfl, rfl, rfl, rfl, rfl, ?bank, ?outputs, ?pins, ?draws,
    ?pending⟩
  case port =>
    rw [← discardHeld_port_dataOut s]
    rfl
  case clock =>
    rw [← discardHeld_clock s]
    rfl
  case timetable =>
    rw [← discardHeld_timetable s]
    rfl
  case slots =>
    intro n
    unfold State.storedPlan
    rw [slots n]
    exact ⟨rfl, rfl, rfl⟩
  case bank =>
    rw [← discardHeld_bank s]
    rfl
  case outputs =>
    intro g
    have reset : ∀ h : Group, OutputBank.reset.drive[h] = .red ∧ OutputBank.reset.commanded[h] = .red
        ∧ OutputBank.reset.greenFilter[h] = ⟨false, 0⟩ ∧ OutputBank.reset.lampFilter[h] = ⟨false, 0⟩ := by decide
    obtain ⟨drive, commanded, green, lamp⟩ := reset g
    refine ⟨drive, commanded, green, lamp, ?_⟩
    rw [← discardHeld_bank s]
    exact Vector.getElem_ofFn _
  case pins => exact discardHeld_pins s
  case draws => exact discardHeld_draws s
  case pending => exact discardHeld_pending s

end

section
/-! The reading requests: each section of an answer is the fields its rule lists, in their order. -/

set_option Elab.async false

namespace Sys2Proof.Machine

/-! ### Single fields -/

theorem flagByte_eq (b : Bool) : flagByte b = flagField b := by cases b <;> rfl

theorem setBytes_eq (set : BitVec 16) : setBytes set = wordField set := rfl

theorem timeBytes_eq (t : NetTime) : timeBytes t = netTimeField t := rfl

theorem beInt_eq (v : Int) : beInt 6 v = signedField v := rfl

theorem optional_eq (n : Nat) (x : Option (List Byte)) : optional n x = absentOr n x := by cases x <;> rfl

theorem optNat_eq (n : Nat) (x : Option Nat) : optNat n x = absentOr n (x.map (be n)) := optional_eq _ _

theorem optTime_eq (t : Option NetTime) : optTime t = absentOr 6 (t.map netTimeField) := optional_eq _ _

/-- A collection of items whose bytes are their fields. -/
theorem collection_eq {α : Type} (l : List α) (bytes : α → List Byte) (fields : α → List (List Byte))
    (h : ∀ x, bytes x = (fields x).flatten) : collection (l.map bytes) = counted (l.map fields) := by
  rw [funext h, collection, counted, List.map_map, List.length_map, List.length_map]
  rfl

theorem fixedInstant_eq (a : Option Adoption) : fixedInstant a = instantOf a := by
  rcases a with - | ⟨plan, - | t⟩ <;> rfl

theorem adoptionBytes_eq (a : Option Adoption) (instant : Option NetTime) :
    adoptionBytes a instant = (planFields a instant).flatten := by
  simp [adoptionBytes, planFields, optNat_eq, optTime_eq, Function.comp_def]

theorem figuresBytes_eq (f : Option Figures) : figuresBytes f = splitFields f := by
  cases f with
  | none => rfl
  | some f =>
    have pair : List.zipWith (fun split bound => be 2 split ++ be 2 bound) f.splits f.bounds
        = (f.splits.zip f.bounds).map fun x => be 2 x.1 ++ be 2 x.2 :=
      (List.map_zip_eq_zipWith (f := fun x : Nat × Nat => be 2 x.1 ++ be 2 x.2)).symm
    change collection _ = counted _
    rw [pair]
    exact collection_eq _ _ _ fun x => by simp

/-- Fields sent for each of the 16 groups. -/
theorem flatMap_perGroup (f : Group → List (List Byte)) :
    (groupList.flatMap f).flatten = perGroup fun g => (f g).flatten := by
  rw [List.flatMap, List.flatten_flatten, List.map_map]
  rfl

/-! ### The sections of STATUS -/

theorem portSection_eq (p : CabinetPort) : portSection p = (portFields p).flatten := by
  simp [portSection, portFields, flagByte_eq]

theorem clockSection_eq (c : StationClock) : clockSection c = (clockFields c).flatten := by
  simp [clockSection, clockFields, timeBytes_eq, beInt_eq]

theorem waitSlots_eq (l : LineInterface) :
    (waitSlots l).map (be 1) =
      if l.tx = .defer ∨ l.tx = .backoff then some (be 1 ((l.wait + 15999) / 16000)) else none := by
  unfold waitSlots
  cases l.tx <;> rfl

theorem lineSection_eq (l : LineInterface) : lineSection l = (lineFields l).flatten := by
  have frame : Frame.summary = fun f => [[f.body.code], be 1 f.attempts, flagField f.relay].flatten := by
    funext f
    simp [Frame.summary, flagByte_eq]
  unfold lineSection lineFields
  rw [optNat_eq, waitSlots_eq, optional_eq, frame, ← List.countP_eq_length_filter]
  simp only [flagByte_eq, List.flatten_cons, List.flatten_nil, List.append_nil, List.append_assoc]

theorem activeInstant_eq (c : Coordinator) :
    activeInstant c = (instantOf c.active
      <|> c.active.bind fun a => if a.reference = .daily then c.measure.map Measure.reference else none) := by
  unfold activeInstant
  rcases c.active with - | ⟨plan, - | t⟩
  · rfl
  · rfl
  · rfl

theorem coordSection_eq (c : Coordinator) : coordSection c = (coordFields c).flatten := by
  simp [coordSection, coordFields, optNat_eq, flagByte_eq, activeInstant_eq, adoptionBytes_eq, fixedInstant_eq,
    figuresBytes_eq, Function.comp_def]

theorem seqSection_eq (q : Sequencer) : seqSection q = (seqFields q).flatten := by
  have served : collection (q.served.map fun m => be 1 m.code) = counted (q.served.map fun m => [be 1 m.code]) :=
    collection_eq _ _ _ fun x => by simp
  have trailing : collection (q.trailing.map fun x => be 1 (groupNumber x.group) ++ be 1 x.yellow)
      = counted (q.trailing.map fun x => [be 1 (groupNumber x.group), be 1 x.yellow]) :=
    collection_eq _ _ _ fun x => by simp
  unfold seqSection
  rw [served, trailing]
  simp [seqFields, optNat_eq, optional_eq, flagByte_eq, setBytes_eq, figuresBytes_eq, Function.comp_def] <;> rfl

theorem bankSection_eq (b : OutputBank) : bankSection b = (bankFields b).flatten := by
  simp [bankSection, bankFields, flatMap_perGroup, flagByte_eq, setBytes_eq] <;> rfl

theorem preemptSection_eq (p : Preemption) : preemptSection p = (preemptFields p).flatten := by
  simp [preemptSection, preemptFields, InputFilter.bytes, optNat_eq, flagByte_eq, Function.comp_def]

theorem faultSection_eq (f : FaultUnit) : faultSection f = (faultFields f).flatten := rfl

theorem statusBody_eq (s : State) :
    statusBody s =
      (portFields s.port ++ clockFields s.clock ++ lineFields s.line ++ coordFields s.coord ++ seqFields s.seq
        ++ bankFields s.bank ++ preemptFields s.preempt ++ faultFields s.faults).flatten := by
  simp only [statusBody, portSection_eq, clockSection_eq, lineSection_eq, coordSection_eq, seqSection_eq, bankSection_eq,
    preemptSection_eq, faultSection_eq, List.flatten_append]

/-! ### The other answers -/

theorem faultsAnswer_eq (s : State) : faultsAnswer s = (faultsFields s).flatten := by
  simp [faultsAnswer, faultsFields, allClasses, classesInOrder, FaultRecord.bytes, optNat_eq, optTime_eq, Function.comp_def]

theorem neighbourBytes_eq (n : Neighbour) : n.bytes = (neighbourFields n).flatten := by
  simp [Neighbour.bytes, neighbourFields, optNat_eq, optional_eq, flagByte_eq, setBytes_eq, beInt_eq, Function.comp_def]

theorem neighboursAnswer_eq (c : StationClock) : neighboursAnswer c = counted (c.neighbours.map neighbourFields) :=
  collection_eq _ _ _ neighbourBytes_eq

theorem orderBytes_eq (e : OrderEntry) : e.bytes = (orderFields e).flatten := by
  simp [OrderEntry.bytes, orderFields, optNat_eq, optional_eq, optTime_eq, timeBytes_eq, setBytes_eq, Function.comp_def]

theorem issuedBytes_eq (i : IssuedEntry) : i.bytes = (issuedFields i).flatten := by
  simp [IssuedEntry.bytes, issuedFields, timeBytes_eq, setBytes_eq]

theorem ordersAnswer_eq {α : Type} (l : List α) (bytes : α → List Byte) (fields : α → List (List Byte))
    (h : ∀ x, bytes x = (fields x).flatten) (o : OrderHandler) :
    ordersAnswer (l.map bytes) o = counted (l.map fields) ++ (governingFields o).flatten := by
  rw [ordersAnswer, collection_eq l bytes fields h]
  cases source : o.govSource <;>
    simp [governingFields, adoptionBytes_eq, fixedInstant_eq, optNat_eq, optTime_eq, flagByte_eq, source, GovSource.key]

theorem clearingBytes_eq (c : Clearing) :
    c.bytes =
      ([be 1 (groupNumber c.group)]
        ++ (match c.holder.holder with
          | .stage k => [be 1 0, be 1 k]
          | .route i => [be 1 1, be 1 (inputCode i)])
        ++ [be 1 c.yellow]).flatten := by
  unfold Clearing.bytes Holder.bytes
  cases c.holder.holder <;> simp

theorem saveAnswer_eq (r : SaveRecord) (s : State) : saveAnswer r s = (saveFields r s).flatten := by
  unfold saveAnswer
  dsimp only
  rw [collection_eq s.preempt.clearing Clearing.bytes _ clearingBytes_eq]
  simp [saveFields, SaveRecord.bytes, adoptionBytes_eq, fixedInstant_eq, optNat_eq, optional_eq, timeBytes_eq,
    Function.comp_def] <;> rfl

/-! ### The requests -/

/-- A request that is taken in both part states and changes nothing is answered at once. -/
theorem serve_reading (request seq : Byte) (work : State → State × Answer) (s : State) (a : Answer)
    (h : work (discardHeld s) = (discardHeld s, a)) :
    (.next (serve request seq true .both work s) : Host.Outcome State Fault Refusal)
      = .next (s.answered request seq a.code a.body) := by
  rw [serve_unchanged _ _ _ _ _ rfl (by rw [h]), h]

theorem statusBody_discardHeld (seq : Byte) (s : State) :
    statusBody (discardHeld s) =
      (portFields (s.answered 0x02 seq .done []).port ++ clockFields s.clock ++ lineFields s.line ++ coordFields s.coord
        ++ seqFields s.seq ++ bankFields s.bank ++ preemptFields s.preempt ++ faultFields s.faults).flatten := by
  have port : portFields (discardHeld s).port = portFields (s.answered 0x02 seq .done []).port := by
    simp [portFields, State.answered, discardHeld_discarded]
  rw [statusBody_eq, port]
  simp only [discardHeld_clock, discardHeld_line, discardHeld_coord, discardHeld_seq, discardHeld_bank,
    discardHeld_preempt, discardHeld_faults]

theorem faultsAnswer_discardHeld (s : State) : faultsAnswer (discardHeld s) = (faultsFields s).flatten := by
  rw [faultsAnswer_eq]
  simp only [faultsFields, discardHeld_faults, discardHeld_port_config]

theorem saveFields_discardHeld (r : SaveRecord) (s : State) : saveFields r (discardHeld s) = saveFields r s := by
  have route : (discardHeld s).runningRoute = s.runningRoute := by
    simp only [State.runningRoute, discardHeld_route, discardHeld_preempt]
  simp only [saveFields, discardHeld_preempt, route]

theorem readSaveWork_idle {s : State} (h : s.preempt.state = .idle) : readSaveWork s = (s, plain .state) := by
  unfold readSaveWork
  rw [h]

theorem readSaveWork_save {s : State} {r : SaveRecord} (h : s.preempt.state ≠ .idle) (save : s.preempt.save = some r) :
    readSaveWork s = (s, done (saveAnswer r s)) := by
  unfold readSaveWork
  rw [save]
  cases state : s.preempt.state
  · exact (h state).elim
  all_goals rfl

theorem hold_latches (request seq : Byte) (a : Answer) (latches : BitVec 16) (s : State) :
    hold request seq a { discardHeld s with seq := { s.seq with latches := latches } } =
      ({ s with seq.latches := latches } : State).answered request seq a.code a.body := by
  unfold hold discardHeld State.answered countUp
  cases s.port.held <;> rfl

/-- PLACE_CALL latches the input it names and shows the latch as it was (R123). -/
theorem placeCallWork_of_input {n : Byte} (low : 1 ≤ n.toNat) (high : n.toNat ≤ 16) (s : State) :
    placeCallWork [n] s =
      ({ s with seq.latches := s.seq.latches ||| 1#16 <<< (n.toNat - 1) },
        done [if s.seq.latches.getLsbD (n.toNat - 1) then 1 else 0]) := by
  have number : field [n] 0 1 = n.toNat := by simp [field, readBe]
  have input : within 1 16 n.toNat = true := by simp [within, low, high]
  have latch : setNumber s.seq.latches n.toNat = s.seq.latches ||| 1#16 <<< (n.toNat - 1) := if_neg (by omega)
  have shown : flagByte (hasNumber s.seq.latches n.toNat) = [if s.seq.latches.getLsbD (n.toNat - 1) then 1 else 0] := by
    rw [flagByte_eq, hasNumber, decide_eq_true low, Bool.true_and, flagField]
    split <;> rfl
  unfold placeCallWork
  rw [number]
  dsimp only
  rw [if_pos input, latch, shown]

end Sys2Proof.Machine

open Sys2Proof Sys2Proof.Machine

/-- Settles O12: each reading request is served unchanged, and its answer is the fields of its rule. -/
theorem readingRequestsShowTheState : Obligations.ReadingRequestsShowTheState := by
  intro seq s
  refine ⟨?status, ?faults, ?neighbours, ?orders, ?issued, ?save, ?idle, ?placeCall⟩
  case status =>
    rw [← statusBody_discardHeld]
    exact serve_reading 0x02 seq (answering statusBody) s (done (statusBody (discardHeld s))) rfl
  case faults =>
    rw [← faultsAnswer_discardHeld]
    exact serve_reading 0x38 seq readFaultsWork s (done (faultsAnswer (discardHeld s))) rfl
  case neighbours =>
    rw [← neighboursAnswer_eq, ← discardHeld_clock]
    exact serve_reading 0x41 seq (answering fun s => neighboursAnswer s.clock) s
      (done (neighboursAnswer (discardHeld s).clock)) rfl
  case orders =>
    rw [← ordersAnswer_eq _ _ _ orderBytes_eq, ← discardHeld_orders]
    exact serve_reading 0x22 seq (readOrdersWork [0]) s
      (done (ordersAnswer ((discardHeld s).orders.entries.map OrderEntry.bytes) (discardHeld s).orders)) rfl
  case issued =>
    rw [← ordersAnswer_eq _ _ _ issuedBytes_eq, ← discardHeld_orders]
    exact serve_reading 0x22 seq (readOrdersWork [1]) s
      (done (ordersAnswer ((discardHeld s).orders.issued.map IssuedEntry.bytes) (discardHeld s).orders)) rfl
  case save =>
    intro r running save
    rw [← saveFields_discardHeld, ← saveAnswer_eq]
    rw [← discardHeld_preempt] at running save
    exact serve_reading 0x30 seq readSaveWork s (done (saveAnswer r (discardHeld s))) (readSaveWork_save running save)
  case idle =>
    intro idle
    rw [← discardHeld_preempt] at idle
    exact serve_reading 0x30 seq readSaveWork s (plain .state) (readSaveWork_idle idle)
  case placeCall =>
    intro n running low high
    have admitted : Admission.runningOnly.admits s.port.part = true := by rw [running]; rfl
    change Host.Outcome.next (serve 0x28 seq true .runningOnly (placeCallWork [n]) s) = _
    rw [serve_done _ _ _ _ _ admitted, placeCallWork_of_input low high, discardHeld_seq, hold_latches]
    rfl

end

section
/-! What a change of the effective action leaves beside what `Kept` names: the fault records of the classes that no delivery
raises or withdraws, the samples last read, and the marks of a round, of a boundary and of a held millisecond. -/

set_option Elab.async false

namespace Sys2Proof.Machine

/-- The classes whose records a delivery can change by itself (R95, R141). -/
def deliveredClasses : List FaultClass := [.transitionOverrun, .greenSense, .lampOut]

/-- The records of the classes outside `cs`, the samples and these marks stay. -/
structure Settles (cs : List FaultClass) (s t : State) : Prop where
  records : ∀ c, c ∉ cs → t.faults.record c = s.faults.record c
  sensed : t.bank.sensedGreen = s.bank.sensedGreen ∧ t.bank.sensedRed = s.bank.sensedRed
  mask : t.bank.mask = s.bank.mask
  cabinet : t.bank.cabinetSampled = s.bank.cabinetSampled ∧ t.bank.cabinetRaised = s.bank.cabinetRaised
  round : t.instants.round = s.instants.round
  holding : t.instants.holding = s.instants.holding
  boundary : t.instants.boundary = s.instants.boundary

section
variable {cs : List FaultClass}

theorem Settles.refl (s : State) : Settles cs s s := ⟨fun _ _ => rfl, ⟨rfl, rfl⟩, rfl, ⟨rfl, rfl⟩, rfl, rfl, rfl⟩

theorem Settles.trans {s t u : State} (h : Settles cs s t) (k : Settles cs t u) : Settles cs s u :=
  ⟨fun c hc => (k.records c hc).trans (h.records c hc),
    ⟨k.sensed.1.trans h.sensed.1, k.sensed.2.trans h.sensed.2⟩, k.mask.trans h.mask,
    ⟨k.cabinet.1.trans h.cabinet.1, k.cabinet.2.trans h.cabinet.2⟩, k.round.trans h.round, k.holding.trans h.holding,
    k.boundary.trans h.boundary⟩

theorem Settles.widen {ds : List FaultClass} {s t : State} (h : Settles cs s t) (sub : cs ⊆ ds) : Settles ds s t :=
  ⟨fun c hc => h.records c fun k => hc (sub k), h.sensed, h.mask, h.cabinet, h.round, h.holding, h.boundary⟩

/-- A change of nothing that `Settles` names. -/
theorem Settles.plain {s t : State} (faults : t.faults.records = s.faults.records := by rfl)
    (green : t.bank.sensedGreen = s.bank.sensedGreen := by rfl) (red : t.bank.sensedRed = s.bank.sensedRed := by rfl)
    (mask : t.bank.mask = s.bank.mask := by rfl) (sampled : t.bank.cabinetSampled = s.bank.cabinetSampled := by rfl)
    (raised : t.bank.cabinetRaised = s.bank.cabinetRaised := by rfl)
    (round : t.instants.round = s.instants.round := by rfl)
    (holding : t.instants.holding = s.instants.holding := by rfl)
    (boundary : t.instants.boundary = s.instants.boundary := by rfl) : Settles cs s t :=
  ⟨fun c _ => by unfold FaultUnit.record; rw [faults], ⟨green, red⟩, mask, ⟨sampled, raised⟩, round, holding, boundary⟩

theorem settles_post (r : ReportBody) (s : State) : Settles cs s (post r s) := by
  unfold post
  split <;> exact Settles.plain

theorem settles_setRecord (c : FaultClass) (r : FaultRecord) (s : State) (h : c ∈ cs) :
    Settles cs s { s with faults := s.faults.setRecord c r } := by
  refine ⟨fun d hd => ?_, ⟨rfl, rfl⟩, rfl, ⟨rfl, rfl⟩, rfl, rfl, rfl⟩
  rw [record_setRecord]
  split
  · rename_i same
    subst same
    exact (hd h).elim
  · rfl

theorem settles_raiseRecord (c : FaultClass) (detail : Option Nat) (s : State) (h : c ∈ cs) :
    Settles cs s (raiseRecord c detail s) := by
  unfold raiseRecord
  dsimp only
  split
  · split
    · exact settles_setRecord c _ s h
    all_goals exact (settles_setRecord c _ s h).trans (settles_post _ _)
  · exact Settles.refl s

theorem settles_withdrawRecord (c : FaultClass) (s : State) (h : c ∈ cs) : Settles cs s (withdrawRecord c s) := by
  unfold withdrawRecord
  dsimp only
  split
  · exact Settles.refl s
  · exact Settles.refl s
  · exact (settles_setRecord c _ s h).trans (settles_post _ _)

/-! ### The Coordinator -/

theorem settles_setCoord (state : CoordState) (cause : Option SuspensionCause) (s : State) :
    Settles cs s (setCoord state cause s) := by
  unfold setCoord
  split
  · exact Settles.refl s
  · exact Settles.trans Settles.plain (settles_post _ _)

theorem settles_emptyTransition (s : State) (h : .transitionOverrun ∈ cs) : Settles cs s (emptyTransition s) := by
  unfold emptyTransition
  dsimp only
  split
  · exact Settles.trans Settles.plain (settles_withdrawRecord _ _ h)
  · exact Settles.plain

theorem settles_isolationChange (s : State) (h : .transitionOverrun ∈ cs) : Settles cs s (isolationChange s) := by
  unfold isolationChange
  split
  · split
    · exact (settles_setCoord _ _ _).trans (settles_emptyTransition _ h)
    · exact Settles.refl s
  · split
    · exact (settles_setCoord _ _ _).trans (settles_emptyTransition _ h)
    · exact Settles.refl s
  · split
    · exact Settles.refl s
    · exact (settles_setCoord .correcting none s).trans Settles.plain
  · exact Settles.refl s
  · exact Settles.refl s

theorem settles_putForward (a : Adoption) (s : State) : Settles cs s (putForward a s) := by
  unfold putForward
  split
  · split
    · exact Settles.plain
    · exact Settles.refl s
  · split
    · exact Settles.refl s
    · split
      · exact Settles.plain
      · exact Settles.trans Settles.plain (settles_post _ _)

theorem settles_setFallback (s : State) : Settles cs s (setFallback s) := Settles.trans Settles.plain (settles_putForward _ _)

theorem settles_clearFallback (s : State) : Settles cs s (clearFallback s) := by
  unfold clearFallback
  split
  · dsimp only
    split
    · exact Settles.trans Settles.plain (settles_putForward _ _)
    · split <;> exact Settles.plain
  · exact Settles.refl s

theorem settles_deliverCoordinator (action : FaultAction) (s : State) (h : .transitionOverrun ∈ cs) :
    Settles cs s (deliverCoordinator action s) := by
  unfold deliverCoordinator
  dsimp only
  refine (settles_isolationChange s h).trans ?_
  split
  · exact settles_setFallback _
  · exact settles_clearFallback _
  · exact settles_clearFallback _
  · exact Settles.refl _

theorem settles_suspend (cause : SuspensionCause) (s : State) (h : .transitionOverrun ∈ cs) :
    Settles cs s (suspend cause s) := by
  unfold suspend
  refine Settles.trans ?_ (settles_setCoord _ _ _)
  exact Settles.trans Settles.plain (settles_emptyTransition _ h)

/-! ### Filters that change their mark -/

theorem settles_raiseGroup (c : FaultClass) (g : Group) (already : Bool) (s : State) (h : c ∈ cs) :
    Settles cs s (raiseGroup c g already s) := by
  unfold raiseGroup
  split
  · exact Settles.refl s
  · exact settles_raiseRecord _ _ _ h

theorem settles_markGreenFaulted (g : Group) (s : State) (h : .greenSense ∈ cs) : Settles cs s (markGreenFaulted g s) := by
  unfold markGreenFaulted
  refine Settles.trans ?_ (settles_raiseGroup _ _ _ _ h)
  exact Settles.trans Settles.plain (settles_post _ _)

theorem settles_markGreenClean (g : Group) (s : State) (h : .greenSense ∈ cs) : Settles cs s (markGreenClean g s) := by
  have tail : ∀ u : State, Settles cs u
      (if u.bank.greenSenseRaised && !anyFaulted u.bank.greenFilter then
        withdrawRecord .greenSense { u with bank.greenSenseRaised := false }
      else u) := by
    intro u
    split
    · exact Settles.trans Settles.plain (settles_withdrawRecord _ _ h)
    · exact Settles.refl u
  unfold markGreenClean
  exact (Settles.trans Settles.plain (settles_post _ _)).trans (tail _)

theorem settles_markLampFaulted (g : Group) (s : State) (h : .lampOut ∈ cs) : Settles cs s (markLampFaulted g s) := by
  unfold markLampFaulted
  refine Settles.trans ?_ (settles_raiseGroup _ _ _ _ h)
  exact Settles.trans Settles.plain (settles_post _ _)

theorem settles_markLampClean (g : Group) (s : State) (h : .lampOut ∈ cs) : Settles cs s (markLampClean g s) := by
  have tail : ∀ u : State, Settles cs u
      (if u.bank.lampOutRaised && !anyFaulted u.bank.lampFilter then
        withdrawRecord .lampOut { u with bank.lampOutRaised := false }
      else u) := by
    intro u
    split
    · exact Settles.trans Settles.plain (settles_withdrawRecord _ _ h)
    · exact Settles.refl u
  unfold markLampClean
  exact (Settles.trans Settles.plain (settles_post _ _)).trans (tail _)

theorem settles_finishGroup (s : State) (g : Group) (green : .greenSense ∈ cs) (lamp : .lampOut ∈ cs) :
    Settles cs s (finishGroup s g) := by
  have first : Settles cs s
      (if s.greenFaultedDue g then markGreenFaulted g s else if s.greenCleanDue g then markGreenClean g s else s) := by
    split
    · exact settles_markGreenFaulted g s green
    · split
      · exact settles_markGreenClean g s green
      · exact Settles.refl s
  have second : ∀ u : State, Settles cs u
      (if u.lampFaultedDue g then markLampFaulted g u else if u.lampCleanDue g then markLampClean g u else u) := by
    intro u
    split
    · exact settles_markLampFaulted g u lamp
    · split
      · exact settles_markLampClean g u lamp
      · exact Settles.refl u
  exact first.trans (second _)

theorem settles_finishFilters (s : State) (green : .greenSense ∈ cs) (lamp : .lampOut ∈ cs) :
    Settles cs s (finishFilters s) := by
  unfold finishFilters
  generalize groupList = l
  induction l generalizing s with
  | nil => exact Settles.refl s
  | cons g l ih => exact (settles_finishGroup s g green lamp).trans (ih _)

/-! ### Flash -/

theorem settles_beginFlash (s : State) (green : .greenSense ∈ cs) (lamp : .lampOut ∈ cs) :
    Settles cs s (beginFlash s) := by
  have withdrawn : ∀ (c : FaultClass) (b : Bool) (u : State), c ∈ cs →
      Settles cs u (if b = true then withdrawRecord c u else u) := by
    intro c b u h
    split
    · exact settles_withdrawRecord c u h
    · exact Settles.refl u
  unfold beginFlash
  exact (Settles.trans Settles.plain (withdrawn .greenSense s.bank.greenSenseRaised _ green)).trans
    (withdrawn .lampOut s.bank.lampOutRaised _ lamp)

theorem settles_bankFlash (s : State) (green : .greenSense ∈ cs) (lamp : .lampOut ∈ cs) : Settles cs s (bankFlash s) := by
  unfold bankFlash
  split
  · exact Settles.refl s
  · exact (settles_finishFilters s green lamp).trans (settles_beginFlash _ green lamp)

theorem settles_setPreempt (state : PreemptState) (input : Option PreemptInput) (s : State) :
    Settles cs s (setPreempt state input s) := Settles.trans Settles.plain (settles_post _ _)

theorem settles_unstageOverride (o : Option Override) (s : State) : Settles cs s (unstageOverride o s) := by
  unfold unstageOverride unstageOrphan
  split
  · split
    · exact Settles.plain
    · exact Settles.refl s
  · exact Settles.refl s

theorem settles_abandonRun (i : PreemptInput) (s : State) : Settles cs s (abandonRun i s) := by
  unfold abandonRun
  dsimp only
  refine Settles.trans ?_ (settles_post _ _)
  exact ((settles_unstageOverride (s.preempt.save.bind SaveRecord.override) s).trans
    (settles_setPreempt .idle (some i) _)).trans Settles.plain

theorem settles_preemptFlash (s : State) : Settles cs s (preemptFlash s) := by
  unfold preemptFlash
  split
  · split
    · exact Settles.plain
    · exact (settles_abandonRun _ _).trans Settles.plain
  · exact Settles.plain

theorem settles_setSeq (state : SeqState) (s : State) : Settles cs s (setSeq state s) := by
  unfold setSeq
  split
  · exact Settles.refl s
  · exact Settles.trans Settles.plain (settles_post _ _)

theorem settles_flashExit (s : State) : Settles cs s (flashExit s) := by
  unfold flashExit
  split
  · exact (settles_setSeq .startupRed s).trans Settles.plain
  · exact Settles.refl s

/-! ### The effective action -/

section
variable (sub : deliveredClasses ⊆ cs)
include sub

theorem settles_flashEntry (s : State) : Settles cs s (flashEntry s) := by
  have overrun : .transitionOverrun ∈ cs := sub (by decide)
  have green : .greenSense ∈ cs := sub (by decide)
  have lamp : .lampOut ∈ cs := sub (by decide)
  unfold flashEntry
  split
  · exact Settles.refl s
  · refine Settles.trans ?_ (settles_preemptFlash _)
    refine Settles.trans ?_ (settles_suspend _ _ overrun)
    refine Settles.trans ?_ (settles_bankFlash _ green lamp)
    exact (settles_setSeq .flash s).trans Settles.plain

theorem settles_deliverSequencer (action : FaultAction) (s : State) : Settles cs s (deliverSequencer action s) := by
  unfold deliverSequencer
  split
  · exact settles_flashEntry sub s
  all_goals
    split
    · exact settles_flashExit s
    · exact Settles.refl s

theorem settles_settleAction (n : Nat) (cause : FaultClass) (s : State) : Settles cs s (settleAction n cause s) := by
  induction n generalizing cause s with
  | zero =>
    unfold settleAction
    dsimp only
    split
    · exact Settles.refl s
    · exact Settles.trans Settles.plain (settles_post _ _)
  | succ n ih =>
    unfold settleAction
    dsimp only
    split
    · exact Settles.refl s
    · refine Settles.trans ?_ (ih _ _)
      refine Settles.trans ?_ (settles_deliverSequencer sub _ _)
      refine Settles.trans ?_ (settles_deliverCoordinator _ _ (sub (by decide)))
      exact Settles.trans Settles.plain (settles_post _ _)

theorem settles_raise (c : FaultClass) (detail : Option Nat) (s : State) (h : c ∈ cs) : Settles cs s (raise c detail s) :=
  (settles_raiseRecord c detail s h).trans (settles_settleAction sub _ _ _)

theorem settles_withdraw (c : FaultClass) (s : State) (h : c ∈ cs) : Settles cs s (withdraw c s) :=
  (settles_withdrawRecord c s h).trans (settles_settleAction sub _ _ _)

end

end

/-- A settling leaves the records of the classes that no delivery touches. -/
theorem record_settleAction {c : FaultClass} (h : c ∉ deliveredClasses) (n : Nat) (cause : FaultClass) (s : State) :
    (settleAction n cause s).faults.record c = s.faults.record c :=
  (settles_settleAction (fun _ k => k) n cause s).records c h

/-- A class raised is ACTIVE in RUNNING (R170). -/
theorem record_raise {c : FaultClass} (h : c ∉ deliveredClasses) (detail : Option Nat) {s : State}
    (running : s.port.part = .running) : ((raise c detail s).faults.record c).state = .active := by
  have run : s.running = true := by simp [State.running, running]
  unfold raise
  rw [record_settleAction h]
  unfold raiseRecord
  dsimp only
  rw [if_pos run]
  split
  · rename_i active
    rw [record_setRecord, if_pos rfl]
    exact active
  all_goals
    rw [post_eq, record_setRecord, if_pos rfl]

/-- A class withdrawn: its ACTIVE record is HELD or CLEAR by its action, any other stays (R171). -/
theorem record_withdraw {c : FaultClass} (h : c ∉ deliveredClasses) (s : State) :
    ((withdraw c s).faults.record c).state =
      if (s.faults.record c).state = .active then
        match actionOf s.port.config c with
        | some .fallback | some .flash => .held
        | _ => .clear
      else (s.faults.record c).state := by
  unfold withdraw
  rw [record_settleAction h]
  unfold withdrawRecord
  dsimp only
  split
  · rename_i state
    rw [state]
    rfl
  · rename_i state
    rw [state]
    rfl
  · rename_i state
    rw [post_eq, record_setRecord, if_pos rfl, if_pos state] <;> rfl

end Sys2Proof.Machine
end

section
/-! The clock's decisions: what a round and a setting of the clock leave, outside the clock and in it. -/

set_option Elab.async false

namespace Sys2Proof.Machine

/-! ### Times -/

/-- A sound reading moved by its difference to a time is that time (R3). -/
theorem plus_diff {r t : NetTime} (readingWeek : r.week < 65536) (readingMs : r.ms < weekMs)
    (week : t.week < 65536) (ms : t.ms < weekMs) :
    r.plus (t.diff r) = t := by
  obtain ⟨w, m⟩ := r
  obtain ⟨v, k⟩ := t
  simp only at readingWeek readingMs week ms
  unfold NetTime.plus NetTime.diff signedWeeks
  unfold weekMs at *
  simp only [NetTime.mk.injEq]
  split <;> omega

theorem timeField_week (body : List Byte) : (timeField body 0).week < 65536 := field_lt body 0 2

/-! ### Decisions of the clock -/

/-- An operation that changes the clock to `c`, and beside it what a delivery and the classes `cs` may. -/
structure Decides (cs : List FaultClass) (s : State) (c : StationClock) (t : State) : Prop where
  kept : Kept { s with clock := c } t
  settles : Settles cs s t

theorem Decides.refl {cs : List FaultClass} (s : State) (c : StationClock) : Decides cs s c { s with clock := c } :=
  ⟨Kept.refl _, Settles.plain⟩

theorem Kept.clockChanged {s t : State} (h : Kept s t) (c : StationClock) :
    Kept { s with clock := c } { t with clock := c } :=
  { h with clock := rfl }

theorem Decides.trans {cs : List FaultClass} {s t u : State} {c d : StationClock} (h : Decides cs s c t)
    (k : Decides cs t d u) : Decides cs s d u :=
  ⟨(h.kept.clockChanged d).trans k.kept, h.settles.trans k.settles⟩

theorem Decides.clock {cs : List FaultClass} {s t : State} {c : StationClock} (h : Decides cs s c t) : t.clock = c :=
  h.kept.clock

theorem Decides.running {cs : List FaultClass} {s t : State} {c : StationClock} (h : Decides cs s c t) :
    t.port.part = s.port.part := h.kept.part

theorem Decides.cfg {cs : List FaultClass} {s t : State} {c : StationClock} (h : Decides cs s c t) : t.cfg = s.cfg := by
  unfold State.cfg
  rw [h.kept.config]

/-- The clock changed first, then a delivery. -/
theorem Delivers.decides {cs : List FaultClass} {s t : State} {c : StationClock} (h : Delivers { s with clock := c } t)
    (k : Settles cs { s with clock := c } t) : Decides cs s c t :=
  ⟨h.kept, Settles.trans Settles.plain k⟩

/-- The classes a round's decision may touch. -/
def roundClasses : List FaultClass := .clockIsolated :: deliveredClasses

theorem decides_setClockState {cs : List FaultClass} (sub : deliveredClasses ⊆ cs) (state : ClockState) (s : State) :
    Decides cs s { s.clock with state := state } (setClockState state s) := by
  unfold setClockState
  split
  · rename_i same
    rw [← same]
    exact Decides.refl s s.clock
  · refine Delivers.decides ?_ ?_
    · exact ((delivers_post _ _).trans (delivers_isolationChange _)).trans (delivers_settleAction _ _ _)
    · exact ((settles_post _ _).trans (settles_isolationChange _ (sub (by decide)))).trans (settles_settleAction sub _ _ _)

/-- The clock of a station at a round in HOLDOVER: its count is one higher, and at the limit it stands isolated (R12). -/
def StationClock.inHoldover (c : StationClock) (limit : Nat) : StationClock :=
  { c with
    state := .holdover, holdover := countUp 65535 c.holdover
    isolatedRaised := c.isolatedRaised || decide (limit ≤ countUp 65535 c.holdover) }

theorem holdoverRound_eq {s u : State} (entered : setClockState .holdover s = u) :
    holdoverRound s =
      if u.cfg.holdoverLimit ≤ countUp 65535 u.clock.holdover ∧ u.clock.isolatedRaised = false then
        raise .clockIsolated none
          { u with clock.holdover := countUp 65535 u.clock.holdover, clock.isolatedRaised := true }
      else { u with clock.holdover := countUp 65535 u.clock.holdover } := by
  subst entered
  rfl

/-- What a round in HOLDOVER leaves of the clock, and CLOCK_ISOLATED's record (R12). -/
theorem holdoverRound_spec {s : State} (running : s.port.part = .running) :
    Decides roundClasses s (s.clock.inHoldover s.cfg.holdoverLimit) (holdoverRound s)
      ∧ ((holdoverRound s).faults.record .clockIsolated).state =
        if s.cfg.holdoverLimit ≤ countUp 65535 s.clock.holdover ∧ s.clock.isolatedRaised = false then .active
        else (s.faults.record .clockIsolated).state := by
  have entered := decides_setClockState (cs := deliveredClasses) (fun _ k => k) .holdover s
  have record := entered.settles.records .clockIsolated (by decide)
  have cfg := entered.cfg
  have part := entered.running
  have counted : (setClockState .holdover s).clock = { s.clock with state := .holdover } := entered.clock
  have widened : Decides roundClasses s _ _ := ⟨entered.kept, entered.settles.widen (by decide)⟩
  rw [holdoverRound_eq rfl]
  generalize setClockState .holdover s = u at *
  have leaves : ∀ b, (s.clock.isolatedRaised || decide (s.cfg.holdoverLimit ≤ countUp 65535 s.clock.holdover)) = b →
      s.clock.inHoldover s.cfg.holdoverLimit =
        { u.clock with holdover := countUp 65535 u.clock.holdover, isolatedRaised := b } := by
    intro b hb
    rw [StationClock.inHoldover, counted, hb]
  have limit : (u.cfg.holdoverLimit ≤ countUp 65535 u.clock.holdover ∧ u.clock.isolatedRaised = false)
      ↔ s.cfg.holdoverLimit ≤ countUp 65535 s.clock.holdover ∧ s.clock.isolatedRaised = false := by
    rw [cfg, counted]
  by_cases reached : s.cfg.holdoverLimit ≤ countUp 65535 s.clock.holdover ∧ s.clock.isolatedRaised = false
  · rw [if_pos (limit.mpr reached), if_pos reached]
    refine ⟨widened.trans ?_, record_raise (by decide) none (part.trans running)⟩
    rw [leaves true (by simp [reached])]
    exact Delivers.decides (delivers_raise _ _ _) (settles_raise (by decide) _ _ _ (by decide))
  · rw [if_neg (fun k => reached (limit.mp k)), if_neg reached]
    refine ⟨widened.trans ?_, congrArg FaultRecord.state record⟩
    rw [leaves u.clock.isolatedRaised]
    · exact Decides.refl u _
    · rw [counted]
      by_cases raised : s.clock.isolatedRaised = true
      · simp [raised]
      · simpa [raised] using reached

theorem isolates_holdoverRound {s : State} (running : s.port.part = .running) :
    IsolatesAtTheLimit s (holdoverRound s) := by
  obtain ⟨decides, record⟩ := holdoverRound_spec running
  have clock := decides.clock
  have count : (holdoverRound s).clock.holdover = countUp 65535 s.clock.holdover := by rw [clock]; rfl
  have raised : (holdoverRound s).clock.isolatedRaised =
      (s.clock.isolatedRaised || decide (s.cfg.holdoverLimit ≤ countUp 65535 s.clock.holdover)) := by rw [clock]; rfl
  unfold IsolatesAtTheLimit
  rw [count, raised, record]
  refine ⟨fun reached => ⟨by simp [reached], fun before => if_pos ⟨reached, before⟩⟩, fun below => ?_, fun h => ?_⟩
  · simp [Nat.not_le.mpr below]
  · refine if_neg fun both => ?_
    rcases h with below | before
    · omega
    · rw [both.2] at before
      cases before

/-- What leaving HOLDOVER leaves of the clock, and CLOCK_ISOLATED's record (R12). -/
theorem leaveHoldover_spec (state : ClockState) (s : State) :
    Decides roundClasses s { s.clock with state := state, holdover := 0, isolatedRaised := false } (leaveHoldover state s)
      ∧ (s.clock.isolatedRaised = true → ((leaveHoldover state s).faults.record .clockIsolated).state ≠ .active) := by
  have first : Decides roundClasses s { s.clock with holdover := 0 } { s with clock.holdover := 0 } := Decides.refl _ _
  have left := first.trans (decides_setClockState (by decide) state { s with clock.holdover := 0 })
  have counted := left.clock
  unfold leaveHoldover
  generalize setClockState state { s with clock.holdover := 0 } = u at *
  dsimp only
  split
  · refine ⟨left.trans ?_, fun _ => ?_⟩
    · have leaves : ({ s.clock with state := state, holdover := 0, isolatedRaised := false } : StationClock) =
          { u.clock with isolatedRaised := false } := by rw [counted]
      rw [leaves]
      exact Delivers.decides (delivers_withdraw _ _) (settles_withdraw (by decide) _ _ (by decide))
    · rw [record_withdraw (by decide)]
      split
      · split <;> decide
      · assumption
  · rename_i notRaised
    rw [counted] at notRaised
    have cleared : s.clock.isolatedRaised = false := by simpa using notRaised
    refine ⟨?_, fun raised => absurd raised notRaised⟩
    rw [← cleared]
    exact left

/-- The schedule's and the orders' evaluation leave the clock, the line and the marks of its instants. -/
structure Evaluates (s t : State) : Prop where
  clock : t.clock = s.clock
  line : t.line = s.line
  part : t.port.part = s.port.part
  config : t.port.config = s.port.config
  round : t.instants.round = s.instants.round
  holding : t.instants.holding = s.instants.holding
  boundary : t.instants.boundary = s.instants.boundary

theorem Evaluates.refl (s : State) : Evaluates s s := ⟨rfl, rfl, rfl, rfl, rfl, rfl, rfl⟩

theorem Evaluates.trans {s t u : State} (h : Evaluates s t) (k : Evaluates t u) : Evaluates s u :=
  ⟨k.clock.trans h.clock, k.line.trans h.line, k.part.trans h.part, k.config.trans h.config, k.round.trans h.round,
    k.holding.trans h.holding, k.boundary.trans h.boundary⟩

theorem Delivers.evaluates {cs : List FaultClass} {s t : State} (h : Delivers s t) (k : Settles cs s t) : Evaluates s t :=
  ⟨h.kept.clock, h.kept.line, h.kept.part, h.kept.config, k.round, k.holding, k.boundary⟩

theorem evaluates_post (r : ReportBody) (s : State) : Evaluates s (post r s) :=
  (delivers_post r s).evaluates (settles_post (cs := []) r s)

/-! ### Evaluations -/

/-- The classes an evaluation may touch (R74). -/
def evaluationClasses : List FaultClass := .planMissing :: deliveredClasses

theorem settles_unstageOrphan {cs : List FaultClass} (plan : Nat) (s : State) : Settles cs s (unstageOrphan plan s) := by
  unfold unstageOrphan
  split
  · exact Settles.plain
  · exact Settles.refl s

theorem settles_clearOverride (s : State) : Settles evaluationClasses s (clearOverride s) := by
  unfold clearOverride
  split
  · exact Settles.refl s
  · split
    · exact Settles.refl s
    · refine Settles.trans ?_ (settles_unstageOrphan _ _)
      exact Settles.trans Settles.plain (settles_post _ _)

theorem settles_adoptionRequest (a : Adoption) (s : State) : Settles evaluationClasses s (adoptionRequest a s) := by
  unfold adoptionRequest
  dsimp only
  split <;> split
  · exact Settles.trans Settles.plain (settles_clearOverride _)
  · exact Settles.plain
  · exact (Settles.trans Settles.plain (settles_putForward _ _)).trans (settles_clearOverride _)
  · exact Settles.trans Settles.plain (settles_putForward _ _)

theorem settles_checkMissing (changed : Bool) (g : Adoption) (s : State) :
    Settles evaluationClasses s (checkMissing changed g s) := by
  unfold checkMissing
  split
  · split
    · exact Settles.refl s
    · exact Settles.trans Settles.plain (settles_raise (by decide) _ _ _ (by decide))
  · split
    · refine Settles.trans ?_ (settles_adoptionRequest _ _)
      exact Settles.trans Settles.plain (settles_withdraw (by decide) _ _ (by decide))
    · split
      · exact settles_adoptionRequest _ _
      · exact Settles.refl s

theorem settles_decideGoverning (s : State) : Settles evaluationClasses s (decideGoverning s) := by
  unfold decideGoverning
  split
  · exact Settles.plain
  · split
    · exact Settles.trans Settles.plain (settles_checkMissing _ _ _)
    · refine Settles.trans ?_ (settles_checkMissing _ _ _)
      exact Settles.trans Settles.plain (settles_post _ _)

theorem settles_evaluateSchedule (s : State) : Settles evaluationClasses s (evaluateSchedule s) := by
  unfold evaluateSchedule
  split
  · dsimp only
    split
    · exact Settles.plain
    · refine Settles.trans ?_ (settles_decideGoverning _)
      exact Settles.trans Settles.plain (settles_post _ _)
  · exact Settles.refl s

theorem evaluates_evaluateSchedule (s : State) : Evaluates s (evaluateSchedule s) :=
  (delivers_evaluateSchedule s).evaluates (settles_evaluateSchedule s)

theorem evaluates_prune (s : State) : Evaluates s (prune s) := by
  unfold prune
  dsimp only
  split
  · exact Evaluates.refl s
  · refine Evaluates.trans ?_ (evaluates_post _ _)
    exact ⟨rfl, rfl, rfl, rfl, rfl, rfl, rfl⟩

theorem evaluates_reportEnded (e : OrderEntry) (s : State) : Evaluates s (reportEnded e s) := by
  unfold reportEnded
  split
  · exact evaluates_post _ s
  · exact Evaluates.refl s

theorem evaluates_reportState (was : Option OldState) (old new : OrderEntry) (s : State) :
    Evaluates s (reportState was old new s) := by
  unfold reportState
  split
  · split
    · exact evaluates_post _ s
    · exact Evaluates.refl s
  · split
    · exact evaluates_post _ s
    · exact Evaluates.refl s

theorem evaluates_foldl {α : Type} (f : State → α → State) (h : ∀ s a, Evaluates s (f s a)) (l : List α) (s : State) :
    Evaluates s (l.foldl f s) := by
  induction l generalizing s with
  | nil => exact Evaluates.refl s
  | cons a l ih => exact (h s a).trans (ih _)

theorem evaluates_evaluateOrders (was : Option OldState) (s : State) : Evaluates s (evaluateOrders was s) := by
  unfold evaluateOrders
  split
  · dsimp only
    refine Evaluates.trans ?_ ((delivers_decideGoverning _).evaluates (settles_decideGoverning _))
    refine Evaluates.trans ?_ (evaluates_foldl (fun s (p : OrderEntry × OrderEntry) => reportState was p.1 p.2 s)
      (fun s p => evaluates_reportState was p.1 p.2 s) _ _)
    exact Evaluates.trans (evaluates_foldl (fun s e => reportEnded e s) (fun s e => evaluates_reportEnded e s) _ _)
      ⟨rfl, rfl, rfl, rfl, rfl, rfl, rfl⟩
  · exact Evaluates.refl s

/-! ### Steps -/

/-- The clock stepped by `d` (R3). -/
def StationClock.stepped (c : StationClock) (d : Int) : StationClock :=
  { c with
    reading := c.reading.plus d, slew := 0, backlog := 0
    neighbours := c.neighbours.map fun n => { n with lastD := n.lastD - d } }

theorem evaluates_stepClock (d : Int) (s : State) :
    Evaluates { s with clock := s.clock.stepped d, instants.holding := false } (stepClock d s) := by
  unfold stepClock
  dsimp only
  split
  · refine Evaluates.trans ?_ (evaluates_evaluateOrders _ _)
    refine Evaluates.trans ?_ (t := evaluateSchedule _) ⟨rfl, rfl, rfl, rfl, rfl, rfl, rfl⟩
    refine Evaluates.trans ?_ (evaluates_evaluateSchedule _)
    refine Evaluates.trans ?_ (evaluates_prune _)
    refine Evaluates.trans ?_ (evaluates_post _ _)
    exact ⟨rfl, rfl, rfl, rfl, rfl, rfl, rfl⟩
  · exact ⟨rfl, rfl, rfl, rfl, rfl, rfl, rfl⟩

/-- In CONFIGURING a step of the clock is its setting alone (R3, log 45). -/
theorem stepClock_configuring (d : Int) {s : State} (h : s.port.part = .configuring) :
    stepClock d s = { s with clock := s.clock.stepped d, instants.holding := false } := by
  have stopped : s.running = false := by simp [State.running, h]
  unfold stepClock
  exact if_neg (by change ¬ s.running = true; rw [stopped]; decide)

end Sys2Proof.Machine
end

section
/-! SET_TIME (R14, R15). -/

set_option Elab.async false

namespace Sys2Proof.Machine

/-- SET_TIME of the right length: its work is done on the state without the old response. -/
theorem exec_setTime (seq : Byte) {body : List Byte} {s : State} {r : State × Answer} (length : body.length = 6)
    (work : setTimeWork body (discardHeld s) = r) : exec (.setTime seq body) s = .next (hold 0x05 seq r.2 r.1) := by
  have fits : lengthIs 6 body = true := decide_eq_true length
  change Host.Outcome.next (serve 0x05 seq (lengthIs 6 body) .both (setTimeWork body) s) = _
  rw [fits, serve_done _ _ _ _ _ rfl, work]

theorem setTimeWork_out_of_week {body : List Byte} (h : 604800000 ≤ (timeField body 0).ms) (s : State) :
    setTimeWork body s = (s, plain .range) := by
  have out : (timeField body 0).inWeek = false := decide_eq_false (Nat.not_lt.mpr h)
  unfold setTimeWork
  simp [out]

theorem setTimeWork_configuring {body : List Byte} {s : State} (h : (timeField body 0).ms < 604800000)
    (part : s.port.part = .configuring) :
    setTimeWork body s = (stepClock ((timeField body 0).diff s.clock.reading) s, done []) := by
  have within : (timeField body 0).inWeek = true := by simp [NetTime.inWeek, weekMs, h]
  unfold setTimeWork
  simp [within, part]

theorem setTimeWork_running {body : List Byte} {s : State} (h : (timeField body 0).ms < 604800000)
    (part : s.port.part = .running) :
    setTimeWork body s = if s.cfg.anchored then setTimeAnchored (timeField body 0) s else (s, plain .state) := by
  have within : (timeField body 0).inWeek = true := by simp [NetTime.inWeek, weekMs, h]
  unfold setTimeWork
  simp [within, part]

/-- The clock changed and a held-back millisecond dropped, on a state without the old response. -/
theorem hold_clock (request seq : Byte) (a : Answer) (c : StationClock) (s : State) :
    hold request seq a { discardHeld s with clock := c, instants.holding := false } =
      ({ s with clock := c, instants.holding := false } : State).answered request seq a.code a.body := by
  unfold hold discardHeld State.answered countUp
  cases s.port.held <;> rfl

/-- In ALONE an anchored station is set to the time and SYNCED (R14). -/
theorem setTimeAnchored_alone {t : NetTime} {s : State} (alone : s.clock.state = .alone) :
    ∃ u, setTimeAnchored t s = (u, done [])
      ∧ u.clock =
        { s.clock.stepped (t.diff s.clock.reading) with state := .synced, setTimeMark := true } := by
  unfold setTimeAnchored
  rw [alone]
  refine ⟨_, rfl, ?_⟩
  have stepped := (evaluates_stepClock (t.diff s.clock.reading) s).clock
  have synced := (decides_setClockState (cs := deliveredClasses) (fun _ k => k) .synced
    (stepClock (t.diff s.clock.reading) s)).clock
  change ({ (setClockState .synced (stepClock (t.diff s.clock.reading) s)).clock with setTimeMark := true } : StationClock) = _
  rw [synced, stepped]

/-- In SYNCED or HOLDOVER a difference beyond 1,000 ms is refused (R14). -/
theorem setTimeAnchored_far {t : NetTime} {s : State} (state : s.clock.state = .synced ∨ s.clock.state = .holdover)
    (far : 1000 < (t.diff (s.clock.reading.plus (s.clock.slew + s.clock.backlog))).natAbs) :
    setTimeAnchored t s = (s, plain .range) := by
  unfold setTimeAnchored
  rcases state with state | state <;> rw [state] <;> exact if_neg (Nat.not_le.mpr far)

/-- In SYNCED or HOLDOVER a difference of up to 1,000 ms joins the correction (R14). -/
theorem setTimeAnchored_near {t : NetTime} {s : State} (state : s.clock.state = .synced ∨ s.clock.state = .holdover)
    (near : (t.diff (s.clock.reading.plus (s.clock.slew + s.clock.backlog))).natAbs ≤ 1000) :
    setTimeAnchored t s =
      (admitDifference (t.diff (s.clock.reading.plus (s.clock.slew + s.clock.backlog))) s, done []) := by
  unfold setTimeAnchored
  rcases state with state | state <;> rw [state] <;> exact if_pos near

/-- A difference admitted: the slew takes what its limit allows, the rest waits; the station is SYNCED (R14). -/
theorem admitDifference_spec (d : Int) (s : State) :
    Decides roundClasses s
        { s.clock with
          slew := clampTo s.cfg.slewLimit (s.clock.slew + s.clock.backlog + d)
          backlog := s.clock.slew + s.clock.backlog + d - clampTo s.cfg.slewLimit (s.clock.slew + s.clock.backlog + d)
          setTimeMark := true, state := .synced, holdover := 0, isolatedRaised := false }
        (admitDifference d s)
      ∧ (s.clock.isolatedRaised = true → ((admitDifference d s).faults.record .clockIsolated).state ≠ .active) := by
  obtain ⟨decides, record⟩ := leaveHoldover_spec .synced
    { s with
      clock.slew := clampTo s.cfg.slewLimit (s.clock.slew + s.clock.backlog + d)
      clock.backlog := s.clock.slew + s.clock.backlog + d - clampTo s.cfg.slewLimit (s.clock.slew + s.clock.backlog + d)
      clock.setTimeMark := true }
  exact ⟨(Decides.refl s _).trans decides, record⟩

end Sys2Proof.Machine

open Sys2Proof Sys2Proof.Machine

/-- Settles O17, by the part state, the anchor and the clock state. -/
theorem setTimeSetsOrCorrectsTheClock : Obligations.SetTimeSetsOrCorrectsTheClock := by
  have refused : ∀ (seq : Byte) (body : List Byte) (s : State) (a : Answer), body.length = 6 →
      setTimeWork body (discardHeld s) = (discardHeld s, a) →
      exec (.setTime seq body) s = .next (s.answered 0x05 seq a.code a.body) := by
    intro seq body s a length work
    rw [exec_setTime seq length work, hold_discardHeld]
  refine ⟨fun seq body s part length sound => ⟨fun week => ?_, fun out => ?_⟩, fun seq body s part length out => ?_,
    fun seq body s part length week sound => ⟨fun free => ?_, fun anchored alone => ?_, fun anchored state => ⟨?_, ?_⟩⟩⟩
  · have there := plus_diff sound.week sound.ms (timeField_week body) week
    rw [exec_setTime seq length (setTimeWork_configuring week (by rwa [discardHeld_port_part])),
      stepClock_configuring _ (by rwa [discardHeld_port_part]), hold_clock, discardHeld_clock, StationClock.stepped, there]
    rfl
  · exact refused seq body s _ length (setTimeWork_out_of_week out _)
  · exact refused seq body s _ length (setTimeWork_out_of_week out _)
  · have work := setTimeWork_running (s := discardHeld s) week (by rwa [discardHeld_port_part])
    rw [discardHeld_cfg, free] at work
    exact refused seq body s _ length work
  · have work := setTimeWork_running (s := discardHeld s) week (by rwa [discardHeld_port_part])
    rw [discardHeld_cfg, anchored, if_pos rfl] at work
    obtain ⟨u, set, clock⟩ := setTimeAnchored_alone (t := timeField body 0) (s := discardHeld s) (by rwa [discardHeld_clock])
    rw [discardHeld_clock] at clock
    have held : (hold 0x05 seq (done []) u).clock = u.clock := rfl
    refine ⟨_, exec_setTime seq length (work.trans set), ?_⟩
    rw [held, clock]
    exact ⟨plus_diff sound.week sound.ms (timeField_week body) week, rfl, rfl, rfl, rfl, rfl⟩
  · intro far
    have work := setTimeWork_running (s := discardHeld s) week (by rwa [discardHeld_port_part])
    rw [discardHeld_cfg, anchored, if_pos rfl,
      setTimeAnchored_far (by rwa [discardHeld_clock]) (by rwa [discardHeld_clock])] at work
    exact refused seq body s _ length work
  · intro near
    have work := setTimeWork_running (s := discardHeld s) week (by rwa [discardHeld_port_part])
    rw [discardHeld_cfg, anchored, if_pos rfl,
      setTimeAnchored_near (by rwa [discardHeld_clock]) (by rwa [discardHeld_clock]), discardHeld_clock] at work
    obtain ⟨decides, record⟩ := admitDifference_spec
      ((timeField body 0).diff (s.clock.reading.plus (s.clock.slew + s.clock.backlog))) (discardHeld s)
    rw [discardHeld_clock, discardHeld_cfg] at decides
    rw [discardHeld_clock] at record
    refine ⟨_, exec_setTime seq length work, ?_⟩
    generalize admitDifference
      ((timeField body 0).diff (s.clock.reading.plus (s.clock.slew + s.clock.backlog))) (discardHeld s) = u at decides record
    have held : (hold 0x05 seq (done []) u).clock = u.clock := rfl
    rw [held, decides.clock]
    have kept := decides.kept
    exact ⟨rfl, rfl, by dsimp only; omega, rfl, rfl, rfl, rfl, record, rfl, kept.line.trans (discardHeld_line s),
      kept.entries.trans (congrArg Timetable.entries (discardHeld_timetable s)),
      kept.orders.trans (congrArg OrderHandler.entries (discardHeld_orders s)),
      kept.issued.trans (congrArg OrderHandler.issued (discardHeld_orders s)),
      fun n => (kept.plans n).trans (congrFun (discardHeld_storedPlan s) n), rfl⟩

end

section
/-! The round of the station clock (R6 to R13). -/

set_option Elab.async false

namespace Sys2Proof.Machine

/-! ### The trimmed mean -/

theorem insertValue_perm (x : Int) (l : List Int) : (insertValue x l).Perm (x :: l) := by
  induction l with
  | nil => exact List.Perm.refl _
  | cons y rest ih =>
    unfold insertValue
    split
    · exact List.Perm.refl _
    · exact (ih.cons y).trans (List.Perm.swap x y rest)

theorem insertValue_sorted (x : Int) {l : List Int} (h : l.Pairwise (· ≤ ·)) : (insertValue x l).Pairwise (· ≤ ·) := by
  induction l with
  | nil => exact List.pairwise_singleton _ _
  | cons y rest ih =>
    obtain ⟨first, others⟩ := List.pairwise_cons.mp h
    unfold insertValue
    split
    · rename_i le
      refine List.pairwise_cons.mpr ⟨fun z hz => ?_, h⟩
      rcases List.mem_cons.mp hz with rfl | hz
      · exact le
      · exact le_trans le (first z hz)
    · rename_i le
      refine List.pairwise_cons.mpr ⟨fun z hz => ?_, ih others⟩
      rcases List.mem_cons.mp ((insertValue_perm x rest).mem_iff.mp hz) with rfl | hz
      · exact le_of_lt (not_le.mp le)
      · exact first z hz

theorem sortValues_perm (l : List Int) : (sortValues l).Perm l := by
  induction l with
  | nil => exact List.Perm.refl _
  | cons x rest ih => exact (insertValue_perm x _).trans (ih.cons x)

theorem sortValues_sorted (l : List Int) : (sortValues l).Pairwise (· ≤ ·) := by
  induction l with
  | nil => exact List.Pairwise.nil
  | cons x rest ih => exact insertValue_sorted x ih

/-- The trimmed mean is the mean of what is left between the two ends of the values in rising order (R8). -/
theorem trimmedMean_parts {k : Nat} {values : List Int} (h : 2 * k < values.length) :
    ∃ low mid high : List Int, (low ++ mid ++ high).Perm values ∧ (low ++ mid ++ high).Pairwise (· ≤ ·)
      ∧ low.length = k ∧ high.length = k ∧ trimmedMean k values = mid.sum.tdiv mid.length := by
  have length : (sortValues values).length = values.length := (sortValues_perm values).length_eq
  let rest := (sortValues values).drop k
  have parts : (sortValues values).take k ++ rest.take (values.length - 2 * k) ++ rest.drop (values.length - 2 * k)
      = sortValues values := by
    rw [List.append_assoc, List.take_append_drop, List.take_append_drop]
  refine ⟨(sortValues values).take k, rest.take (values.length - 2 * k), rest.drop (values.length - 2 * k), ?_, ?_, ?_, ?_,
    rfl⟩
  · rw [parts]
    exact sortValues_perm values
  · rw [parts]
    exact sortValues_sorted values
  · rw [List.length_take]
    omega
  · rw [List.length_drop, List.length_drop]
    omega

/-! ### Before the decision -/

/-- The state a round's decision is taken in (R6, R7, R194). -/
def beforeDecision (s : State) : State :=
  classify (roundCounts { s with instants.round := false, clock.neighbours := ageNeighbours s.clock.neighbours })

theorem takeRound_eq (s : State) : takeRound s = clearTimeMark (clockRound (beforeDecision s)) := rfl

/-- The entry is disputed at a round of `s` (R7). -/
def State.disputes (s : State) (n : Neighbour) : Bool :=
  decide (s.clock.state ≠ .alone ∧ n.age ≤ 2 ∧ n.clockState ≠ .alone ∧ s.cfg.acceptWindow < n.lastD.natAbs)

/-- The table with its disputed flags decided anew (R7). -/
def judged (s : State) (l : List Neighbour) : List Neighbour := l.map fun n => { n with disputed := s.disputes n }

theorem isDisputed_eq (s : State) (n : Neighbour) :
    (decide (s.clock.state ≠ .alone) && n.isDisputed s.cfg.acceptWindow) = s.disputes n := by
  simp [State.disputes, Neighbour.isDisputed, Neighbour.fresh, Bool.decide_and, Bool.and_assoc]

theorem beforeDecision_eq (s : State) :
    beforeDecision s =
      { s with
        clock.neighbours := judged s (ageNeighbours s.clock.neighbours)
        clock.disputed := (ageNeighbours s.clock.neighbours).countP s.disputes
        line.last := s.line.present, line.present := { sent := 0, received := 0, collisions := 0 }
        instants.round := false } := by
  have judge : (fun n : Neighbour => decide (s.clock.state ≠ .alone) && n.isDisputed s.cfg.acceptWindow) = s.disputes :=
    funext (isDisputed_eq s)
  unfold beforeDecision classify roundCounts judged
  rw [List.countP_eq_length_filter, ← judge]
  rfl

theorem exec_round {s : State} (running : s.port.part = .running) (round : s.instants.round = true) :
    exec .round s = .next (takeRound s) := by
  have due : s.roundDue = true := by simp [State.roundDue, State.running, running, round]
  exact congrArg Host.Outcome.next (whenReached_of_due takeRound due)

/-! ### The decision -/

/-- A decision that leaves reading, table and disputed count of the clock. -/
def DecidesTable (s t : State) : Prop :=
  ∃ c, Decides roundClasses s c t ∧ c.neighbours = s.clock.neighbours ∧ c.disputed = s.clock.disputed
    ∧ c.reading = s.clock.reading

/-- The clock of an anchored station once its amounts are joined (R13). -/
def joined (s : State) : State :=
  { s with
    clock.slew := clampTo s.cfg.slewLimit (s.clock.slew + s.clock.backlog)
    clock.backlog := s.clock.slew + s.clock.backlog - clampTo s.cfg.slewLimit (s.clock.slew + s.clock.backlog) }

theorem anchoredRound_eq (s : State) :
    anchoredRound s =
      match s.clock.state with
      | .alone | .tracking => joined s
      | .synced | .holdover =>
        if s.clock.setTimeMark then leaveHoldover .synced (joined s) else holdoverRound (joined s) := rfl

theorem anchoredRound_idle {s : State} (h : s.clock.state = .alone ∨ s.clock.state = .tracking) :
    anchoredRound s = joined s := by
  rcases h with h | h <;> rw [anchoredRound_eq, h]

theorem anchoredRound_set {s : State} (h : s.clock.state = .synced ∨ s.clock.state = .holdover)
    (mark : s.clock.setTimeMark = true) : anchoredRound s = leaveHoldover .synced (joined s) := by
  rcases h with h | h <;> rw [anchoredRound_eq, h] <;> exact if_pos mark

theorem anchoredRound_unset {s : State} (h : s.clock.state = .synced ∨ s.clock.state = .holdover)
    (mark : s.clock.setTimeMark = false) : anchoredRound s = holdoverRound (joined s) := by
  rcases h with h | h <;> rw [anchoredRound_eq, h] <;> exact if_neg (by rw [mark]; decide)

theorem decidesTable_anchoredRound {s : State} (running : s.port.part = .running) : DecidesTable s (anchoredRound s) := by
  have first : Decides roundClasses s (joined s).clock (joined s) := Decides.refl s _
  by_cases idle : s.clock.state = .alone ∨ s.clock.state = .tracking
  · rw [anchoredRound_idle idle]
    exact ⟨_, first, rfl, rfl, rfl⟩
  · have timed : s.clock.state = .synced ∨ s.clock.state = .holdover := by
      cases state : s.clock.state <;> simp_all
    cases mark : s.clock.setTimeMark with
    | true =>
      rw [anchoredRound_set timed mark]
      exact ⟨_, first.trans (leaveHoldover_spec .synced (joined s)).1, rfl, rfl, rfl⟩
    | false =>
      rw [anchoredRound_unset timed mark]
      exact ⟨_, first.trans (holdoverRound_spec (s := joined s) running).1, rfl, rfl, rfl⟩

/-- The neighbours a non-anchored station takes its correction from (R7). -/
def State.usable (s : State) : List Neighbour := s.clock.neighbours.filter (Neighbour.usable s.cfg.acceptWindow)

theorem slewRound_holdover {s : State} (h : s.usable = []) : slewRound s = holdoverRound s :=
  if_pos (List.isEmpty_iff.mpr h)

theorem slewRound_correct {s : State} (h : s.usable ≠ []) :
    slewRound s =
      leaveHoldover (roundState s.clock.state s.cfg.syncWindow (correction [0] s.usable))
        { s with clock.slew := clampTo s.cfg.slewLimit (correction [0] s.usable) } :=
  if_neg fun k => h (List.isEmpty_iff.mp k)

theorem decidesTable_slewRound {s : State} (running : s.port.part = .running) : DecidesTable s (slewRound s) := by
  by_cases none : s.usable = []
  · rw [slewRound_holdover none]
    exact ⟨_, (holdoverRound_spec running).1, rfl, rfl, rfl⟩
  · rw [slewRound_correct none]
    exact ⟨_, (Decides.refl s { s.clock with slew := clampTo s.cfg.slewLimit (correction [0] s.usable) }).trans
      (leaveHoldover_spec _ _).1, rfl, rfl, rfl⟩

theorem decidesTable_clockRound {s : State} (running : s.port.part = .running)
    (h : s.clock.state ≠ .alone ∨ s.cfg.anchored = true) : DecidesTable s (clockRound s) := by
  unfold clockRound
  split
  · exact decidesTable_anchoredRound running
  · rename_i free
    rw [if_neg (h.resolve_right free)]
    exact decidesTable_slewRound running

/-! ### What stays before the decision -/

theorem beforeDecision_neighbours (s : State) :
    (beforeDecision s).clock.neighbours = judged s (ageNeighbours s.clock.neighbours) := by
  rw [beforeDecision_eq]

theorem beforeDecision_disputed (s : State) :
    (beforeDecision s).clock.disputed = (ageNeighbours s.clock.neighbours).countP s.disputes := by
  rw [beforeDecision_eq]

/-! ### A station that has the time -/

theorem usable_eq (s : State) (n : Neighbour) :
    n.usable s.cfg.acceptWindow =
      decide (n.age ≤ 2 ∧ n.clockState ≠ .alone ∧ n.lastD.natAbs ≤ s.cfg.acceptWindow) := by
  simp [Neighbour.usable, Neighbour.fresh, Bool.decide_and, Bool.and_assoc]

/-- The correction over a choice of neighbours, with the station's own value among them where none is anchored (R8). -/
theorem correction_eq (own : List Int) (chosen : List Neighbour) :
    let anchored := chosen.filter Neighbour.anchored
    let values := if anchored = [] then own ++ chosen.map Neighbour.lastD else anchored.map Neighbour.lastD
    correction own chosen =
      trimmedMean
        (if anchored = [] then if 4 ≤ values.length then 1 else 0 else if 3 ≤ values.length then 1 else 0) values := by
  intro anchored values
  unfold correction
  by_cases none : chosen.filter Neighbour.anchored = []
  · simp [anchored, values, none]
  · simp [anchored, values, none]

/-- The table of R11. -/
theorem roundState_cases (old : ClockState) (window : Nat) (c : Int) :
    (c.natAbs ≤ window → roundState old window c = .synced)
      ∧ (window < c.natAbs → c.natAbs ≤ 2 * window → roundState old window c = if old = .synced then .synced else .tracking)
      ∧ (2 * window < c.natAbs → roundState old window c = .tracking) := by
  unfold roundState
  refine ⟨fun near => if_pos near, fun far close => ?_, fun far => ?_⟩
  · rw [if_neg (Nat.not_le.mpr far)]
    simp [close]
  · rw [if_neg (by omega), if_neg (by omega)]

/-! ### A station in ALONE -/

/-- The table with no entry disputed (R7). -/
def undisputed (l : List Neighbour) : List Neighbour := l.map fun n => { n with disputed := false }

/-- In ALONE no entry is disputed (R7). -/
theorem disputes_alone {s : State} (alone : s.clock.state = .alone) (n : Neighbour) : s.disputes n = false := by
  simp [State.disputes, alone]

theorem judged_alone {s : State} (alone : s.clock.state = .alone) (l : List Neighbour) : judged s l = undisputed l := by
  unfold judged undisputed
  exact List.map_congr_left fun n _ => by rw [disputes_alone alone]

theorem filter_undisputed {p : Neighbour → Bool} (h : ∀ n, p { n with disputed := false } = p n) (l : List Neighbour) :
    (undisputed l).filter p = undisputed (l.filter p) := by
  unfold undisputed
  rw [List.filter_map]
  exact congrArg (List.map _) (congrArg (fun q => List.filter q l) (funext h))

/-- A correction does not look at the disputed flags. -/
theorem correction_undisputed (own : List Int) (l : List Neighbour) : correction own (undisputed l) = correction own l := by
  have differences : ∀ l : List Neighbour, (undisputed l).map Neighbour.lastD = l.map Neighbour.lastD := fun l => by
    unfold undisputed
    rw [List.map_map]
    rfl
  have none : ((undisputed l).filter Neighbour.anchored).isEmpty = (l.filter Neighbour.anchored).isEmpty := by
    rw [filter_undisputed fun _ => rfl, undisputed, List.isEmpty_map]
  have length : ((undisputed l).filter Neighbour.anchored).length = (l.filter Neighbour.anchored).length := by
    rw [filter_undisputed fun _ => rfl, undisputed, List.length_map]
  unfold correction
  dsimp only
  rw [none, length, differences, filter_undisputed fun _ => rfl, differences]

/-- The three outcomes of R10 in a state whose table is undisputed. -/
theorem aloneRound_undisputed {s : State} {l : List Neighbour} (table : s.clock.neighbours = undisputed l) :
    let fresh := l.filter fun n => decide (n.age ≤ 2)
    let timed := fresh.filter fun n => decide (n.clockState ≠ .alone)
    aloneRound s =
      if timed = [] then
        if fresh ≠ [] ∧ ∀ n ∈ fresh, s.cfg.station < n.station then setClockState .tracking s else s
      else setClockState .tracking (stepClock (correction [] timed) s) := by
  intro fresh timed
  have sFresh : s.clock.neighbours.filter Neighbour.fresh = undisputed fresh := by
    rw [table]
    exact filter_undisputed (fun _ => rfl) l
  have sTimed : (undisputed fresh).filter (fun n => decide (n.clockState ≠ .alone)) = undisputed timed :=
    filter_undisputed (fun _ => rfl) fresh
  have empty : ∀ k : List Neighbour, (undisputed k).isEmpty = true ↔ k = [] := fun k => by
    rw [undisputed, List.isEmpty_map, List.isEmpty_iff]
  have lowest : ((undisputed fresh).all fun n => decide (s.cfg.station < n.station)) = true
      ↔ ∀ n ∈ fresh, s.cfg.station < n.station := by
    simp [undisputed]
  unfold aloneRound
  rw [sFresh]
  dsimp only
  rw [sTimed, correction_undisputed]
  simp only [empty, lowest]
  by_cases none : timed = []
  · rw [if_pos none, if_pos none]
    by_cases alone : fresh = []
    · simp [alone]
    · simp [alone]
  · rw [if_neg none, if_neg none]

end Sys2Proof.Machine

open Sys2Proof Sys2Proof.Machine

/-- Settles O36: what stands before the decision is `beforeDecision`, and the decision leaves it. -/
theorem roundsAgeAndClassifyNeighbours : Obligations.RoundsAgeAndClassifyNeighbours := by
  intro s running round timed
  obtain ⟨c, decides, neighbours, disputed, reading⟩ := decidesTable_clockRound (s := beforeDecision s) running timed
  have kept := decides.kept
  rw [beforeDecision_neighbours] at neighbours
  rw [beforeDecision_disputed] at disputed
  refine ⟨takeRound s, exec_round running round, ?_⟩
  rw [takeRound_eq]
  generalize clockRound (beforeDecision s) = u at *
  exact ⟨(congrArg StationClock.neighbours decides.clock).trans neighbours,
    (congrArg StationClock.disputed decides.clock).trans disputed, rfl,
    (congrArg StationClock.reading decides.clock).trans reading, decides.settles.round, kept.line, kept.entries,
    kept.orders, kept.issued, kept.latches, kept.held, kept.plans⟩

/-- Settles O37: with no usable neighbour a round in HOLDOVER, otherwise the correction slewed and HOLDOVER left. -/
theorem roundsCorrectAStationThatHasTheTime : Obligations.RoundsCorrectAStationThatHasTheTime := by
  refine ⟨fun k values => trimmedMean_parts, fun s running round free timed => ?_⟩
  intro usable withdrawn
  have decision : clockRound (beforeDecision s) = slewRound (beforeDecision s) :=
    (if_neg (by rw [show (beforeDecision s).cfg = s.cfg from rfl, free]; decide)).trans (if_neg timed)
  obtain ⟨c, table, neighbours, -⟩ := decidesTable_slewRound (s := beforeDecision s) running
  have same : usable (takeRound s) = (beforeDecision s).usable := by
    change List.filter _ (clockRound (beforeDecision s)).clock.neighbours = _
    rw [decision, table.clock, neighbours, State.usable, funext (usable_eq _)]
    rfl
  refine ⟨takeRound s, exec_round running round, fun none => ?_, fun some => ?_⟩
  · have spec := holdoverRound_spec (s := beforeDecision s) running
    have isolates := isolates_holdoverRound (s := beforeDecision s) running
    rw [takeRound_eq, decision, slewRound_holdover (same ▸ none)]
    have clock := spec.1.clock
    generalize holdoverRound (beforeDecision s) = u at clock isolates
    exact ⟨(congrArg StationClock.state clock :), (congrArg StationClock.slew clock :),
      (congrArg StationClock.holdover clock :), isolates⟩
  · rw [same] at some ⊢
    intro anchored values trim c
    have mean : correction [0] (beforeDecision s).usable = c := correction_eq [0] _
    have spec := leaveHoldover_spec (roundState s.clock.state s.cfg.syncWindow c)
      { beforeDecision s with clock.slew := clampTo s.cfg.slewLimit c }
    have left : slewRound (beforeDecision s) = _ := slewRound_correct some
    rw [mean] at left
    change slewRound (beforeDecision s) = leaveHoldover (roundState s.clock.state s.cfg.syncWindow c)
      { beforeDecision s with clock.slew := clampTo s.cfg.slewLimit c } at left
    rw [← left] at spec
    obtain ⟨decides, record⟩ := spec
    obtain ⟨near, close, far⟩ := roundState_cases s.clock.state s.cfg.syncWindow c
    have clock := decides.clock
    rw [takeRound_eq, decision]
    generalize slewRound (beforeDecision s) = u at clock record
    have state := congrArg StationClock.state clock
    exact ⟨congrArg StationClock.slew clock, congrArg StationClock.holdover clock,
      congrArg StationClock.isolatedRaised clock, record, fun h => state.trans (near h),
      fun h k => state.trans (close h k), fun h => state.trans (far h)⟩

/-- Settles O39, by the clock state and the SET_TIME mark. -/
theorem roundsOfAnAnchoredStation : Obligations.RoundsOfAnAnchoredStation := by
  intro s running round anchored
  have decision : clockRound (beforeDecision s) = anchoredRound (beforeDecision s) := if_pos anchored
  refine ⟨takeRound s, exec_round running round, ?_⟩
  have sum : (joined (beforeDecision s)).clock.slew + (joined (beforeDecision s)).clock.backlog
      = s.clock.slew + s.clock.backlog := add_sub_cancel _ _
  rw [takeRound_eq, decision]
  by_cases idle : s.clock.state = .alone ∨ s.clock.state = .tracking
  · rw [anchoredRound_idle (s := beforeDecision s) idle]
    refine ⟨sum, rfl, id, fun timed => ?_⟩
    rcases idle with idle | idle <;> rcases timed with timed | timed <;> rw [idle] at timed <;> cases timed
  · have timed : s.clock.state = .synced ∨ s.clock.state = .holdover := by
      cases state : s.clock.state <;> simp_all
    have awake : ∀ {p : Prop}, s.clock.state = .alone → p := fun alone => (idle (.inl alone)).elim
    cases mark : s.clock.setTimeMark with
    | true =>
      obtain ⟨decides, record⟩ := leaveHoldover_spec .synced (joined (beforeDecision s))
      have clock := decides.clock
      rw [anchoredRound_set (s := beforeDecision s) timed mark]
      generalize leaveHoldover .synced (joined (beforeDecision s)) = u at clock record
      have slew : u.clock.slew = (joined (beforeDecision s)).clock.slew := (congrArg StationClock.slew clock :)
      have backlog : u.clock.backlog = (joined (beforeDecision s)).clock.backlog :=
        (congrArg StationClock.backlog clock :)
      refine ⟨?_, slew, awake, fun _ => ⟨fun _ => ⟨(congrArg StationClock.state clock :),
        (congrArg StationClock.holdover clock :), (congrArg StationClock.isolatedRaised clock :), record⟩, nofun⟩⟩
      rw [← sum, ← slew, ← backlog]
      rfl
    | false =>
      have spec := holdoverRound_spec (s := joined (beforeDecision s)) running
      have isolates := isolates_holdoverRound (s := joined (beforeDecision s)) running
      have clock := spec.1.clock
      rw [anchoredRound_unset (s := beforeDecision s) timed mark]
      generalize holdoverRound (joined (beforeDecision s)) = u at clock isolates
      have slew : u.clock.slew = (joined (beforeDecision s)).clock.slew := (congrArg StationClock.slew clock :)
      have backlog : u.clock.backlog = (joined (beforeDecision s)).clock.backlog :=
        (congrArg StationClock.backlog clock :)
      refine ⟨?_, slew, awake, fun _ => ⟨nofun, fun _ => ⟨(congrArg StationClock.state clock :),
        (congrArg StationClock.holdover clock :), isolates⟩⟩⟩
      rw [← sum, ← slew, ← backlog]
      rfl

/-- Settles O38, by the three outcomes of R10. -/
theorem roundsBringAnAloneStationIntoTime : Obligations.RoundsBringAnAloneStationIntoTime := by
  intro s running round free alone aged fresh timed anchored values trim
  have table : (beforeDecision s).clock.neighbours = undisputed aged :=
    (beforeDecision_neighbours s).trans (judged_alone alone _)
  have decision : clockRound (beforeDecision s) = aloneRound (beforeDecision s) :=
    (if_neg (by rw [show (beforeDecision s).cfg = s.cfg from rfl, free]; decide)).trans (if_pos alone)
  have none : (beforeDecision s).clock.disputed = 0 := by
    rw [beforeDecision_disputed, funext (disputes_alone alone), List.countP_false]
    rfl
  have outcome := aloneRound_undisputed table
  have mean : correction [] timed = trimmedMean trim values := by
    have means := correction_eq [] timed
    by_cases own : timed.filter Neighbour.anchored = []
    · simpa [trim, values, anchored, own] using means
    · simpa [trim, values, anchored, own] using means
  refine ⟨takeRound s, exec_round running round, ?_⟩
  rw [takeRound_eq, decision, outcome]
  by_cases noTime : timed = []
  · rw [if_pos noTime]
    split
    · rename_i seed
      have decides := decides_setClockState (cs := deliveredClasses) (fun _ k => k) .tracking (beforeDecision s)
      have clock := decides.clock
      have line := decides.kept.line
      have mark := decides.settles.round
      generalize setClockState .tracking (beforeDecision s) = u at clock line mark
      exact ⟨(congrArg StationClock.disputed clock).trans none, rfl, mark, line, fun some => (some noTime).elim,
        fun _ => ⟨(congrArg StationClock.reading clock :), (congrArg StationClock.slew clock :),
          (congrArg StationClock.neighbours clock).trans table, (congrArg StationClock.state clock).trans (if_pos seed).symm⟩⟩
    · rename_i seed
      exact ⟨none, rfl, rfl, rfl, fun some => (some noTime).elim,
        fun _ => ⟨rfl, rfl, table, alone.trans (if_neg seed).symm⟩⟩
  · rw [if_neg noTime, mean]
    have stepped := evaluates_stepClock (trimmedMean trim values) (beforeDecision s)
    have decides := decides_setClockState (cs := deliveredClasses) (fun _ k => k) .tracking
      (stepClock (trimmedMean trim values) (beforeDecision s))
    have clock := decides.clock
    rw [stepped.clock] at clock
    have line := decides.kept.line.trans stepped.line
    have mark := decides.settles.round.trans stepped.round
    generalize setClockState .tracking (stepClock (trimmedMean trim values) (beforeDecision s)) = u at clock line mark
    refine ⟨(congrArg StationClock.disputed clock).trans none, rfl, mark, line,
      fun _ => ⟨(congrArg StationClock.state clock :), (congrArg StationClock.reading clock :),
        (congrArg StationClock.slew clock :), (congrArg StationClock.backlog clock :), ?_⟩, fun all => (noTime all).elim⟩
    refine (congrArg StationClock.neighbours clock).trans ?_
    change (beforeDecision s).clock.neighbours.map _ = _
    rw [table, undisputed, List.map_map]
    rfl

end

section
/-! The TIME frame of a round and its place in the send queue (R16, R17, R183). -/

set_option Elab.async false

namespace Sys2Proof.Machine

/-! ### Queues -/

theorem replaceFirst_split {p : Frame → Bool} (f : Frame) {front rest : List Frame} {old : Frame} (hold : p old = true)
    (before : ∀ x ∈ front, p x = false) : replaceFirst p f (front ++ old :: rest) = front ++ f :: rest := by
  induction front with
  | nil => exact if_pos hold
  | cons x front ih =>
    have no : ¬ p x = true := by rw [before x List.mem_cons_self]; decide
    exact (if_neg no).trans (congrArg (List.cons x) (ih fun y hy => before y (List.mem_cons_of_mem x hy)))

theorem eraseP_split {p : Frame → Bool} {front rest : List Frame} {old : Frame} (hold : p old = true)
    (before : ∀ x ∈ front, p x = false) : (front ++ old :: rest).eraseP p = front ++ rest := by
  rw [List.eraseP_append_right _ fun x hx => by rw [before x hx]; decide, List.eraseP_cons_of_pos hold]

/-- The first of a kind is the head of the queue exactly where nothing stands before it. -/
theorem head_split {p : Frame → Bool} {front rest : List Frame} {old : Frame} (hold : p old = true)
    (before : ∀ x ∈ front, p x = false) : (((front ++ old :: rest).head?.map p).getD false = true) ↔ front = [] := by
  cases front with
  | nil => simp [hold]
  | cons x front => simp [before x List.mem_cons_self]

theorem any_split {p : Frame → Bool} {front rest : List Frame} {old : Frame} (hold : p old = true) :
    (front ++ old :: rest).any p = true := by
  simp [hold]

theorem any_none {p : Frame → Bool} {queue : List Frame} (h : ∀ x ∈ queue, p x = false) : queue.any p = false := by
  rw [List.any_eq_false]
  exact fun x hx => by rw [h x hx]; decide

/-! ### What a placing leaves -/

/-- Only the line and the free values change, and of the line neither the dedup cache nor the frame in hand. -/
structure LineOnly (s t : State) : Prop where
  others : t = { s with line := t.line, draws := t.draws }
  dedup : t.line.dedup = s.line.dedup
  inHand : t.line.inHand = s.line.inHand

theorem lineOnly_deferOnHead (s : State) : LineOnly s (deferOnHead s) := by
  unfold deferOnHead
  split
  · exact ⟨rfl, rfl, rfl⟩
  · split <;> exact ⟨rfl, rfl, rfl⟩

/-- A change of the line that leaves cache and hand, before another one. -/
theorem LineOnly.upon {s t : State} {l : LineInterface} (h : LineOnly { s with line := l } t)
    (dedup : l.dedup = s.line.dedup := by rfl) (inHand : l.inHand = s.line.inHand := by rfl) : LineOnly s t :=
  ⟨h.others, h.dedup.trans dedup, h.inHand.trans inHand⟩

theorem lineOnly_deferIf (b : Bool) (s : State) : LineOnly s (if b = true then deferOnHead s else s) := by
  split
  · exact lineOnly_deferOnHead s
  · exact ⟨rfl, rfl, rfl⟩

theorem lineOnly_placeTime (c : TimeContent) (s : State) : LineOnly s (placeTime c s) := by
  unfold placeTime
  dsimp only
  split
  · exact (lineOnly_deferIf _ _).upon
  · split
    · unfold placeTail
      exact (lineOnly_deferIf _ _).upon
    · split
      · exact (lineOnly_deferIf _ _).upon
      · exact ⟨rfl, rfl, rfl⟩

/-- The head of the queue changed, or not: a transmitter that was deferring on it defers anew (R184). -/
theorem deferIf_headChanged (head : Bool) (s : State) (l : LineInterface) (h : GoesOn s.line l) :
    let t := if head && s.line.onHead then deferOnHead { s with line := l } else { s with line := l }
    HeadChanged s.line t.line (head = true) ∧ t.line.queue = l.queue ∧ t.line.counts = l.counts := by
  obtain ⟨tx, wait, deferred, inHand⟩ := h
  have onHead : s.line.onHead = true ↔ s.line.tx = .defer ∧ s.line.inHand = none := by
    simp [LineInterface.onHead]
  intro t
  by_cases anew : head = true ∧ s.line.tx = .defer ∧ s.line.inHand = none
  · have defers : t = deferOnHead { s with line := l } :=
      if_pos (by rw [Bool.and_eq_true, onHead]; exact anew)
    obtain ⟨d, q, hand⟩ := deferOnHead_defers { s with line := l }
    have counts : (deferOnHead { s with line := l }).line.counts = l.counts := by
      unfold deferOnHead
      split
      · rfl
      · split <;> rfl
    rw [defers]
    refine ⟨⟨fun _ _ _ => ⟨d, hand.trans (inHand.trans anew.2.2)⟩, fun no => ?_⟩, q, counts⟩
    rcases no with no | no | no
    · exact (no anew.1).elim
    · exact (no anew.2.1).elim
    · exact (no anew.2.2).elim
  · have stays : t = { s with line := l } := if_neg (by rw [Bool.and_eq_true, onHead]; exact anew)
    rw [stays]
    exact ⟨⟨fun a b c => (anew ⟨a, b, c⟩).elim, fun _ => ⟨tx, wait, deferred, inHand⟩⟩, rfl, rfl⟩

/-- A TIME frame takes the place of a queued one (R183). -/
theorem placeTime_replaces (c : TimeContent) {s : State} {front rest : List Frame} {old : Frame}
    (queue : s.line.queue = front ++ old :: rest) (time : old.isTime = true) (before : ∀ x ∈ front, x.isTime = false) :
    (placeTime c s).line.queue = front ++ { body := .time c, attempts := 0, relay := false } :: rest
      ∧ HeadChanged s.line (placeTime c s).line (front = []) := by
  have replaced := deferIf_headChanged ((s.line.queue.head?.map Frame.isTime).getD false) s
    { s.line with
      queue := replaceFirst Frame.isTime { body := .time c, attempts := 0, relay := false } s.line.queue }
    ⟨rfl, rfl, rfl, rfl⟩
  have head : ((s.line.queue.head?.map Frame.isTime).getD false = true) = (front = []) :=
    propext (by rw [queue]; exact head_split time before)
  have placed : placeTime c s = _ := if_pos (by rw [queue]; exact any_split time)
  rw [placed, ← head]
  exact ⟨replaced.2.1.trans (by rw [queue]; exact replaceFirst_split _ time before), replaced.1⟩

/-- With no TIME frame queued and room it stands at the tail (R183). -/
theorem placeTime_tail (c : TimeContent) {s : State} (none : ∀ x ∈ s.line.queue, x.isTime = false)
    (room : s.line.queue.length < 8) :
    PlacedAtTail s.line (placeTime c s).line { body := .time c, attempts := 0, relay := false } := by
  have placed : placeTime c s = placeTail { body := .time c, attempts := 0, relay := false } s :=
    (if_neg (by rw [any_none none]; decide)).trans (if_pos (decide_eq_true room))
  rw [placed]
  exact placeTail_placed _ s

/-- In a full queue without a TIME frame it takes the room of the oldest relay copy (R183). -/
theorem placeTime_relay (c : TimeContent) {s : State} {front rest : List Frame} {old : Frame}
    (none : ∀ x ∈ s.line.queue, x.isTime = false) (full : 8 ≤ s.line.queue.length)
    (queue : s.line.queue = front ++ old :: rest) (relay : old.relay = true) (before : ∀ x ∈ front, x.relay = false) :
    (placeTime c s).line.queue = front ++ rest ++ [{ body := .time c, attempts := 0, relay := false }]
      ∧ HeadChanged s.line (placeTime c s).line (front = [])
      ∧ (placeTime c s).line.counts.relayDropped = min 65535 (s.line.counts.relayDropped + 1) := by
  have room : s.line.hasRoom = false := decide_eq_false (Nat.not_lt.mpr full)
  have replaced := deferIf_headChanged ((s.line.queue.head?.map Frame.relay).getD false) s
    { s.line with
      queue := s.line.queue.eraseP Frame.relay ++ [{ body := .time c, attempts := 0, relay := false }]
      counts.relayDropped := countUp 65535 s.line.counts.relayDropped }
    ⟨rfl, rfl, rfl, rfl⟩
  have head : ((s.line.queue.head?.map Frame.relay).getD false = true) = (front = []) :=
    propext (by rw [queue]; exact head_split relay before)
  have placed : placeTime c s = _ :=
    ((if_neg (by rw [any_none none]; decide)).trans (if_neg (by rw [room]; decide))).trans
      (if_pos (by rw [queue]; exact any_split relay))
  rw [placed, ← head]
  exact ⟨replaced.2.1.trans (by rw [queue]; exact congrArg (· ++ _) (eraseP_split relay before)), replaced.1,
    congrArg LineCounts.relayDropped replaced.2.2⟩

/-- In a full queue with neither it is skipped and counted (R183). -/
theorem placeTime_skipped (c : TimeContent) {s : State} (none : ∀ x ∈ s.line.queue, x.isTime = false)
    (full : 8 ≤ s.line.queue.length) (own : ∀ x ∈ s.line.queue, x.relay = false) :
    (placeTime c s).line = { s.line with counts.timeSkipped := min 65535 (s.line.counts.timeSkipped + 1) } := by
  have room : s.line.hasRoom = false := decide_eq_false (Nat.not_lt.mpr full)
  have placed : placeTime c s = _ :=
    ((if_neg (by rw [any_none none]; decide)).trans (if_neg (by rw [room]; decide))).trans
      (if_neg (by rw [any_none own]; decide))
  rw [placed]
  rfl

end Sys2Proof.Machine

open Sys2Proof Sys2Proof.Machine

/-- Settles O40: the round first, if one is reached; then the frame's place, by what the queue holds. -/
theorem timeFramesAreBuiltAndQueued : Obligations.TimeFramesAreBuiltAndQueued := by
  intro s running frame
  have due : s.frameDue = true := by simp [State.frameDue, State.running, running, frame]
  have built : exec .timeFrameBuild s = .next (takeFrameInstant s) :=
    congrArg Host.Outcome.next (whenReached_of_due takeFrameInstant due)
  have first : if s.instants.round = true then exec .round s = .next (roundFirst s) else roundFirst s = s := by
    have run : s.running = true := decide_eq_true running
    unfold roundFirst
    split
    · rename_i round
      rw [run, round]
      exact exec_round running round
    · rename_i round
      exact if_neg (by simp [round])
  refine ⟨roundFirst s, _, first, built, ?_⟩
  unfold takeFrameInstant takeTimeBuild
  generalize roundFirst s = u
  intro governing f
  have only := lineOnly_placeTime u.timeContent { u with instants.frame := false }
  refine ⟨only.others, only.dedup, only.inHand, fun front old rest queue time before => ?_, fun none => ⟨fun room => ?_,
    fun full => ⟨fun front old rest queue relay before => ?_, fun own => ?_⟩⟩⟩
  · exact placeTime_replaces u.timeContent (s := { u with instants.frame := false }) queue time before
  · exact placeTime_tail u.timeContent (s := { u with instants.frame := false }) none room
  · exact placeTime_relay u.timeContent (s := { u with instants.frame := false }) none full queue relay before
  · exact placeTime_skipped u.timeContent (s := { u with instants.frame := false }) none full own

end

section
/-! What a TIME frame does to the neighbour table (R4, R5). -/

set_option Elab.async false

namespace Sys2Proof.Machine

/-! ### State codes -/

theorem clockStateOf_defined {k : Nat} (h : k ≤ 3) : ∃ state : ClockState, clockStateOf k = some state ∧ state.code = k := by
  interval_cases k
  · exact ⟨.alone, rfl, rfl⟩
  · exact ⟨.tracking, rfl, rfl⟩
  · exact ⟨.synced, rfl, rfl⟩
  · exact ⟨.holdover, rfl, rfl⟩

theorem clockStateOf_undefined {k : Nat} (h : 3 < k) : clockStateOf k = none := by
  unfold clockStateOf
  split
  case h_5 => rfl
  all_goals omega

theorem coordStateOf_defined {k : Nat} (h : k ≤ 4) : ∃ state : CoordState, coordStateOf k = some state ∧ state.code = k := by
  interval_cases k
  · exact ⟨.idle, rfl, rfl⟩
  · exact ⟨.isolated, rfl, rfl⟩
  · exact ⟨.correcting, rfl, rfl⟩
  · exact ⟨.coordinated, rfl, rfl⟩
  · exact ⟨.suspended, rfl, rfl⟩

theorem coordStateOf_undefined {k : Nat} (h : 4 < k) : coordStateOf k = none := by
  unfold coordStateOf
  split
  case h_6 => rfl
  all_goals omega

/-! ### The oldest entry -/

theorem oldestNeighbour_cons_cons (a b : Neighbour) (l : List Neighbour) :
    oldestNeighbour (a :: b :: l) = if a.age < b.age then oldestNeighbour (b :: l) else oldestNeighbour (a :: l) := by
  unfold oldestNeighbour
  rw [List.foldl_cons, List.foldl_cons]
  dsimp only
  split <;> rfl

/-- In a table in station-number order the oldest entry is of greatest age, with the lowest number among equals (R5). -/
theorem oldestNeighbour_greatest (a : Neighbour) {l : List Neighbour}
    (h : ((a :: l).map Neighbour.station).Pairwise (· < ·)) :
    ∃ old ∈ a :: l, oldestNeighbour (a :: l) = some old ∧ (∀ x ∈ a :: l, x.age ≤ old.age)
      ∧ ∀ x ∈ a :: l, x.age = old.age → old.station ≤ x.station := by
  induction l generalizing a with
  | nil =>
    refine ⟨a, List.mem_cons_self, rfl, fun x hx => ?_, fun x hx _ => ?_⟩ <;> rw [List.mem_singleton.mp hx]
  | cons b l ih =>
    rw [List.map_cons, List.pairwise_cons] at h
    obtain ⟨lowest, others⟩ := h
    rw [oldestNeighbour_cons_cons]
    split
    · rename_i older
      obtain ⟨old, mem, found, greatest, least⟩ := ih b others
      have above := greatest b List.mem_cons_self
      refine ⟨old, List.mem_cons_of_mem a mem, found, fun x hx => ?_, fun x hx same => ?_⟩
      · rcases List.mem_cons.mp hx with rfl | hx
        · omega
        · exact greatest x hx
      · rcases List.mem_cons.mp hx with rfl | hx
        · omega
        · exact least x hx same
    · rename_i older
      have rest : ((a :: l).map Neighbour.station).Pairwise (· < ·) :=
        List.pairwise_cons.mpr ⟨fun n hn => lowest n (List.mem_cons_of_mem _ hn), (List.pairwise_cons.mp others).2⟩
      obtain ⟨old, mem, found, greatest, least⟩ := ih a rest
      have above := greatest a List.mem_cons_self
      have after : a.station < b.station := lowest b.station List.mem_cons_self
      refine ⟨old, ?_, found, fun x hx => ?_, fun x hx same => ?_⟩
      · rcases List.mem_cons.mp mem with rfl | mem
        · exact List.mem_cons_self
        · exact List.mem_cons_of_mem a (List.mem_cons_of_mem b mem)
      · rcases List.mem_cons.mp hx with rfl | hx
        · exact above
        · rcases List.mem_cons.mp hx with rfl | hx
          · omega
          · exact greatest x (List.mem_cons_of_mem a hx)
      · rcases List.mem_cons.mp hx with rfl | hx
        · exact least x List.mem_cons_self same
        · rcases List.mem_cons.mp hx with rfl | hx
          · have := least a List.mem_cons_self (by omega)
            omega
          · exact least x (List.mem_cons_of_mem a hx) same

/-! ### A new entry -/

/-- The table with a new entry between those of lower and those of higher number (R5). -/
def placedAmong (table : List Neighbour) (new : Neighbour) : List Neighbour :=
  (table.filter fun x => decide (x.station < new.station)) ++ new :: table.filter fun x => decide (new.station < x.station)

/-- A new entry where there is room, in the room of an old one, or none (R5). -/
theorem createNeighbour_spec (new : Neighbour) {s : State} (sorted : (s.clock.neighbours.map Neighbour.station).Pairwise (· < ·))
    (absent : ∀ x ∈ s.clock.neighbours, x.station ≠ new.station) :
    (s.clock.neighbours.length < 16 →
      createNeighbour new s = { s with clock.neighbours := placedAmong s.clock.neighbours new })
    ∧ (s.clock.neighbours.length = 16 → (∀ x ∈ s.clock.neighbours, x.age ≤ 2) →
      createNeighbour new s = { s with clock.tableFull := countUp 65535 s.clock.tableFull })
    ∧ (s.clock.neighbours.length = 16 → (∃ x ∈ s.clock.neighbours, 3 ≤ x.age) →
      ∃ old ∈ s.clock.neighbours, 3 ≤ old.age ∧ (∀ x ∈ s.clock.neighbours, x.age ≤ old.age)
        ∧ (∀ x ∈ s.clock.neighbours, x.age = old.age → old.station ≤ x.station)
        ∧ createNeighbour new s =
          { s with
            clock.neighbours :=
              placedAmong (s.clock.neighbours.filter fun x => decide (x.station ≠ old.station)) new }) := by
  have place : ∀ p : Neighbour → Bool, insertNeighbour new (s.clock.neighbours.filter p)
      = placedAmong (s.clock.neighbours.filter p) new := fun p =>
    insertNeighbour_place (sorted.sublist (List.filter_sublist.map _)) fun x hx => absent x (List.mem_filter.mp hx).1
  have whole := insertNeighbour_place sorted absent
  have full : s.clock.neighbours.length = 16 → ∃ old ∈ s.clock.neighbours, oldestNeighbour s.clock.neighbours = some old
      ∧ (∀ x ∈ s.clock.neighbours, x.age ≤ old.age)
      ∧ ∀ x ∈ s.clock.neighbours, x.age = old.age → old.station ≤ x.station := by
    intro length
    cases table : s.clock.neighbours with
    | nil => simp [table] at length
    | cons a l => exact oldestNeighbour_greatest a (table ▸ sorted)
  refine ⟨fun room => ?_, fun length young => ?_, fun length aged => ?_⟩
  · unfold createNeighbour
    rw [if_pos room, whole]
    rfl
  · obtain ⟨old, mem, found, -, -⟩ := full length
    have fresh := young old mem
    unfold createNeighbour
    rw [if_neg (by omega), found]
    exact if_neg (by omega)
  · obtain ⟨old, mem, found, greatest, least⟩ := full length
    obtain ⟨x, hx, three⟩ := aged
    have oldEnough := Nat.le_trans three (greatest x hx)
    refine ⟨old, mem, oldEnough, greatest, least, ?_⟩
    unfold createNeighbour
    rw [if_neg (by omega), found, ← place]
    exact if_pos oldEnough

/-! ### The frame -/

/-- The entry a TIME frame makes for a station the table does not hold (R4). -/
def frameEntry (sender : Nat) (body : List Byte) (captured : NetTime) (delay : Nat) (clockState : ClockState)
    (coordState : CoordState) : Neighbour :=
  { station := sender
    lastD := frameDifference (timeField body 3) delay captured
    age := 0
    clockState := clockState
    anchored := (BitVec.ofNat 8 (field body 1 1)).getLsbD 0
    coordState := coordState
    governing := if body.length = 12 then some (field body 9 1, BitVec.ofNat 16 (field body 10 2)) else none
    disputed := false }

/-- A frame of no station, or with an undefined code, is rejected (R4). -/
theorem takeTimeFrame_bad {sender : Nat} {body : List Byte} (captured : NetTime) (s : State)
    (bad : sender = 0 ∨ 250 < sender ∨ 3 < field body 0 1 ∨ 4 < field body 2 1) :
    takeTimeFrame sender body captured s = { s with clock.rejectedTime := countUp 65535 s.clock.rejectedTime } := by
  unfold takeTimeFrame
  split
  · rename_i clockState coordState clock coord
    refine if_pos ?_
    rcases bad with bad | bad | bad | bad
    · exact .inl bad
    · exact .inr bad
    · rw [clockStateOf_undefined bad] at clock
      cases clock
    · rw [coordStateOf_undefined bad] at coord
      cases coord
  · rfl

/-- A good frame is one of this station's number, renews an entry or makes one (R4). -/
theorem takeTimeFrame_good {sender : Nat} {body : List Byte} (captured : NetTime) (s : State)
    (good : ¬ (sender = 0 ∨ 250 < sender ∨ 3 < field body 0 1 ∨ 4 < field body 2 1)) :
    ∃ (clockState : ClockState) (coordState : CoordState),
      clockState.code = field body 0 1 ∧ coordState.code = field body 2 1
        ∧ takeTimeFrame sender body captured s =
          let new := frameEntry sender body captured s.cfg.delay clockState coordState
          if sender = s.cfg.station then { s with clock.numberConflict := countUp 65535 s.clock.numberConflict }
          else if s.clock.neighbours.any fun n => decide (n.station = sender) then
            { s with
              clock.neighbours := s.clock.neighbours.map fun n =>
                if n.station = sender then { new with disputed := n.disputed } else n }
          else createNeighbour new s := by
  obtain ⟨clockState, clock, clockCode⟩ := clockStateOf_defined (k := field body 0 1) (by omega)
  obtain ⟨coordState, coord, coordCode⟩ := coordStateOf_defined (k := field body 2 1) (by omega)
  refine ⟨clockState, coordState, clockCode, coordCode, ?_⟩
  unfold takeTimeFrame
  rw [clock, coord]
  exact if_neg (by omega)

theorem lowBit_odd (k : Nat) : (BitVec.ofNat 8 k).getLsbD 0 = decide (k % 2 = 1) := by
  rw [BitVec.getLsbD_ofNat]
  simp [Nat.testBit_zero]

/-- A TIME frame touches the clock alone. -/
theorem takeTimeFrame_only (sender : Nat) (body : List Byte) (captured : NetTime) (s : State) :
    takeTimeFrame sender body captured s = { s with clock := (takeTimeFrame sender body captured s).clock } := by
  have created : ∀ n : Neighbour, createNeighbour n s = { s with clock := (createNeighbour n s).clock } := by
    intro n
    unfold createNeighbour
    split
    · rfl
    · split
      · split <;> rfl
      · rfl
  unfold takeTimeFrame
  split
  · split
    · rfl
    · split
      · rfl
      · dsimp only
        split
        · rfl
        · exact created _
  · rfl

/-- In a table in station-number order a renewed entry takes the place of the one it renews (R4). -/
theorem renewed_eq {table : List Neighbour} {new old : Neighbour} (sorted : (table.map Neighbour.station).Pairwise (· < ·))
    (mem : old ∈ table) :
    (table.map fun n => if n.station = old.station then { new with disputed := n.disputed } else n) =
      table.map fun n => if n.station = old.station then { new with disputed := old.disputed } else n := by
  refine List.map_congr_left fun x hx => ?_
  split
  · rename_i same
    have one := List.inj_on_of_nodup_map (sorted.imp Nat.ne_of_lt) hx mem same
    rw [one]
  · rfl

/-- A good frame of another station renews its entry, or makes one (R4, R5). -/
theorem takeTimeFrame_entry {sender : Nat} {body : List Byte} {captured : NetTime} {s : State} (sound : s.clock.Sound)
    (good : ¬ (sender = 0 ∨ 250 < sender ∨ 3 < field body 0 1 ∨ 4 < field body 2 1)) (other : sender ≠ s.cfg.station) :
    ∃ (clockState : ClockState) (coordState : CoordState),
      clockState.code = field body 0 1 ∧ coordState.code = field body 2 1
        ∧ let new := frameEntry sender body captured s.cfg.delay clockState coordState
          (∀ old ∈ s.clock.neighbours, old.station = sender →
            takeTimeFrame sender body captured s =
              { s with
                clock.neighbours := s.clock.neighbours.map fun n =>
                  if n.station = sender then { new with disputed := old.disputed } else n })
          ∧ ((∀ x ∈ s.clock.neighbours, x.station ≠ sender) →
            takeTimeFrame sender body captured s = createNeighbour new s) := by
  obtain ⟨clockState, coordState, clockCode, coordCode, taken⟩ := takeTimeFrame_good captured s good
  refine ⟨clockState, coordState, clockCode, coordCode, fun old mem same => ?_, fun absent => ?_⟩
  · have held : (s.clock.neighbours.any fun n => decide (n.station = sender)) = true :=
      List.any_eq_true.mpr ⟨old, mem, decide_eq_true same⟩
    rw [taken]
    dsimp only
    rw [if_neg other, if_pos held]
    subst same
    rw [renewed_eq sound.stations mem]
  · have none : (s.clock.neighbours.any fun n => decide (n.station = sender)) = false :=
      List.any_eq_false.mpr fun x hx => by simpa using absent x hx
    rw [taken]
    dsimp only
    rw [if_neg other, none]
    rfl

end Sys2Proof.Machine

open Sys2Proof Sys2Proof.Machine

/-- Settles O41: a frame that is rejected, one of this station's own number, an entry renewed and an entry made. -/
theorem timeFramesUpdateTheNeighbourTable : Obligations.TimeFramesUpdateTheNeighbourTable := by
  intro sender body captured s running receiving capture length inv n table placed bad
  have received : exec (.timeFrameReceived sender body) s = .next (takeTimeFrame n body captured (countReceived s)) := by
    have inFrame : (s.inFrame && decide (body.length ∈ frameLengths 1)) = true := by
      have fits : body.length ∈ frameLengths 1 := by
        rcases length with h | h <;> rw [h] <;> decide
      rw [Bool.and_eq_true, decide_eq_true_eq]
      exact ⟨by simp [State.inFrame, State.running, running, receiving], fits⟩
    refine (if_pos inFrame).trans ?_
    rw [receiveTime, capture]
    rfl
  have sound : (countReceived s).clock.Sound := inv.clock
  have only := takeTimeFrame_only n body captured (countReceived s)
  refine ⟨takeTimeFrame n body captured (countReceived s), received, ?_, ?_, fun h => ?_, fun h own => ?_, fun h other => ?_⟩
  · rw [only]
    rfl
  · rw [only]
    rfl
  · rw [takeTimeFrame_bad captured _ h]
    rfl
  · obtain ⟨_, _, -, -, taken⟩ := takeTimeFrame_good captured (countReceived s) h
    rw [taken]
    dsimp only
    rw [if_pos (show n = (countReceived s).cfg.station from own)]
    rfl
  · obtain ⟨clockState, coordState, clockCode, coordCode, renewed, made⟩ :=
      takeTimeFrame_entry (captured := captured) sound h (show n ≠ (countReceived s).cfg.station from other)
    have flag := lowBit_odd (field body 1 1)
    by_cases held : ∃ old ∈ table, old.station = n
    · obtain ⟨old, mem, same⟩ := held
      refine ⟨{ frameEntry n body captured s.cfg.delay clockState coordState with disputed := old.disputed },
        rfl, rfl, rfl, clockCode, coordCode, flag, rfl, fun x hx station => ?_, fun absent => (absent old mem same).elim⟩
      have one : x = old :=
        List.inj_on_of_nodup_map (sound.stations.imp Nat.ne_of_lt) hx mem (station.trans same.symm)
      subst one
      exact ⟨rfl, congrArg State.clock (renewed x mem same)⟩
    · have absent : ∀ x ∈ table, x.station ≠ n := fun x hx same => held ⟨x, hx, same⟩
      obtain ⟨room, young, aged⟩ := createNeighbour_spec
        (frameEntry n body captured (countReceived s).cfg.delay clockState coordState) sound.stations absent
      refine ⟨frameEntry n body captured s.cfg.delay clockState coordState, rfl, rfl, rfl, clockCode, coordCode, flag, rfl,
        fun x hx station => (absent x hx station).elim, fun _ => ⟨rfl, ?_⟩⟩
      rw [made absent]
      refine ⟨fun short => congrArg State.clock (room short), fun full fresh => congrArg State.clock (young full fresh),
        fun full old => ?_⟩
      obtain ⟨old, mem, age, greatest, least, created⟩ := aged full old
      exact ⟨old, mem, age, greatest, least, congrArg State.clock created⟩

end

section
/-! The decisecond boundary: what the timing blocks leave to the samples, the samples themselves, and the slew millisecond
after them. -/

set_option Elab.async false

namespace Sys2Proof.Machine

/-! ### The timing blocks leave what is sampled -/

/-- Everything that the samples read or write, and the clock, stays; of the bank the half-period count alone can change. -/
structure Unsampled (s t : State) : Prop where
  clock : t.clock = s.clock
  port : t.port = s.port
  faults : t.faults = s.faults
  latches : t.seq.latches = s.seq.latches
  inputs : t.preempt.pe1 = s.preempt.pe1 ∧ t.preempt.pe2 = s.preempt.pe2
  bank : t.bank = { s.bank with half := t.bank.half }
  holding : t.instants.holding = s.instants.holding

theorem Unsampled.refl (s : State) : Unsampled s s := ⟨rfl, rfl, rfl, rfl, ⟨rfl, rfl⟩, rfl, rfl⟩

theorem Unsampled.trans {s t u : State} (h : Unsampled s t) (k : Unsampled t u) : Unsampled s u where
  clock := k.clock.trans h.clock
  port := k.port.trans h.port
  faults := k.faults.trans h.faults
  latches := k.latches.trans h.latches
  inputs := ⟨k.inputs.1.trans h.inputs.1, k.inputs.2.trans h.inputs.2⟩
  bank := by rw [k.bank, h.bank]
  holding := k.holding.trans h.holding

/-- A change of nothing that the samples read or write. -/
theorem Unsampled.plain {s t : State} (clock : t.clock = s.clock := by rfl) (port : t.port = s.port := by rfl)
    (faults : t.faults = s.faults := by rfl) (latches : t.seq.latches = s.seq.latches := by rfl)
    (pe1 : t.preempt.pe1 = s.preempt.pe1 := by rfl) (pe2 : t.preempt.pe2 = s.preempt.pe2 := by rfl)
    (bank : t.bank = { s.bank with half := t.bank.half } := by rfl)
    (holding : t.instants.holding = s.instants.holding := by rfl) : Unsampled s t :=
  ⟨clock, port, faults, latches, ⟨pe1, pe2⟩, bank, holding⟩

theorem unsampled_stepPosition (s : State) : Unsampled s (stepPosition s) := by
  unfold stepPosition
  split
  case h_4 | h_5 => exact Unsampled.refl s
  all_goals split <;> exact Unsampled.plain

theorem unsampled_stepSequencer (s : State) : Unsampled s (stepSequencer s) := by
  unfold stepSequencer
  split <;> exact Unsampled.plain

theorem unsampled_stepFlash (s : State) : Unsampled s (stepFlash s) := by
  unfold stepFlash
  split
  · split <;> exact Unsampled.plain
  · exact Unsampled.refl s

theorem unsampled_stepClearing (s : State) : Unsampled s (stepClearing s) := by
  unfold stepClearing
  split <;> exact Unsampled.plain

theorem unsampled_stepPreemption (s : State) : Unsampled s (stepPreemption s) := by
  unfold stepPreemption
  split
  · exact Unsampled.refl s
  · split
    · exact Unsampled.plain
    · exact unsampled_stepClearing s
  · exact Unsampled.plain
  · exact unsampled_stepClearing s

theorem unsampled_timed (s : State) : Unsampled s (timed s) := by
  unfold timed
  split
  · exact Unsampled.refl s
  · unfold stepTiming
    refine Unsampled.trans (t := stepPreemption (stepFlash (stepSequencer (stepPosition s)))) ?_ Unsampled.plain
    exact (((unsampled_stepPosition s).trans (unsampled_stepSequencer _)).trans (unsampled_stepFlash _)).trans
      (unsampled_stepPreemption _)

/-! ### The readback sample -/

/-- A sample before flags and filters follow it: patterns, mask and settle counts (R136, R137). -/
def OutputBank.sensed (bank : OutputBank) (mask : GroupSet) (levels : Levels) : OutputBank :=
  { bank with
    sensedGreen := levels.greenSense, sensedRed := levels.redSense, mask := mask
    settle := Vector.ofFn fun g : Group => bank.settle[g] - 1 }

section
variable (bank : OutputBank) (mask : GroupSet) (levels : Levels)

theorem sensed_green : (bank.sensed mask levels).sensedGreen = levels.greenSense := by simp only [OutputBank.sensed]

theorem sensed_red : (bank.sensed mask levels).sensedRed = levels.redSense := by simp only [OutputBank.sensed]

theorem sensed_drive : (bank.sensed mask levels).drive = bank.drive := by simp only [OutputBank.sensed]

theorem sensed_filters :
    (bank.sensed mask levels).greenFilter = bank.greenFilter ∧ (bank.sensed mask levels).lampFilter = bank.lampFilter := by
  simp only [OutputBank.sensed, and_self]

end

section
variable (bank : OutputBank) (monitored : GroupSet) (levels : Levels)

/-- With the flash mode on flags and filters stay (R141). -/
theorem sample_flash (flash : bank.flash = true) : bank.sample monitored levels = bank.sensed (bank.compareMask monitored) levels :=
  if_pos flash

theorem sample_steady (flash : bank.flash = false) :
    bank.sample monitored levels =
      ((bank.sensed (bank.compareMask monitored) levels).compare (bank.compareMask monitored)).stepFilters
        (bank.compareMask monitored) :=
  if_neg (by simp [flash])

/-- What a readback sample records and leaves in either mode (R136, R137). -/
theorem sample_records :
    (bank.sample monitored levels).sensedGreen = levels.greenSense
      ∧ (bank.sample monitored levels).sensedRed = levels.redSense
      ∧ (bank.sample monitored levels).mask = bank.compareMask monitored
      ∧ (bank.sample monitored levels).cabinetRaised = bank.cabinetRaised
      ∧ (bank.sample monitored levels).settle = Vector.ofFn fun g : Group => bank.settle[g] - 1 := by
  cases flash : bank.flash with
  | true =>
    rw [sample_flash bank monitored levels flash]
    simp only [OutputBank.sensed, and_self]
  | false =>
    rw [sample_steady bank monitored levels flash]
    simp only [OutputBank.stepFilters, OutputBank.compare, OutputBank.sensed, and_self]

end

/-- A "some" flag is set exactly where a group of the mask differs, an "all" flag where every group of a mask that is not empty
does not (R138). -/
theorem compare_flags (mask : GroupSet) (differs : Group → Bool) :
    ((groupList.any fun g => inSet g mask && differs g) = true ↔ ∃ g : Group, inSet g mask = true ∧ differs g = true)
      ∧ ((decide (mask ≠ 0) && !groupList.any fun g => inSet g mask && differs g) = true
          ↔ mask ≠ 0 ∧ ∀ g : Group, inSet g mask = true → ¬ differs g = true) := by
  constructor <;> simp [groupList]

/-- One sample of a readback filter, the run count written out (R139). -/
theorem filter_sample (f : Filter) (faulty : Bool) :
    f.sample faulty = { f with count := if faulty = f.faulted then 0 else f.count + 1 } := by
  unfold Filter.sample
  split <;> rfl

/-- The flags of the patterns a bank holds over a mask, and the filters of the mask stepped (R138 to R140). -/
theorem compare_stepped (bank : OutputBank) (mask : GroupSet) :
    let after := (bank.compare mask).stepFilters mask
    let differs := fun (sense : BitVec 16) (a : Aspect) (g : Group) => inSet g sense ≠ decide (bank.drive[g] = a)
    let flags := fun (all some : Bool) (sense : BitVec 16) (a : Aspect) =>
      (some = true ↔ ∃ g : Group, inSet g mask = true ∧ differs sense a g)
        ∧ (all = true ↔ mask ≠ 0 ∧ ∀ g : Group, inSet g mask = true → ¬ differs sense a g)
    let stepped := fun (f : Filter) (g : Group) (faulty : Bool) =>
      if inSet g mask = true then { f with count := if faulty = f.faulted then 0 else f.count + 1 } else f
    flags after.greenAll after.greenSome bank.sensedGreen .green
      ∧ flags after.redAll after.redSome bank.sensedRed .red
      ∧ ∀ g : Group,
        after.greenFilter[g] =
            stepped bank.greenFilter[g] g (inSet g bank.sensedGreen && decide (bank.drive[g] ≠ .green))
          ∧ after.lampFilter[g] =
            stepped bank.lampFilter[g] g (decide (bank.drive[g] = .red) && !inSet g bank.sensedRed) := by
  intro after differs flags stepped
  have differ : ∀ (sense : BitVec 16) (a : Aspect) (g : Group),
      (inSet g sense != decide (bank.drive[g] = a)) = true ↔ differs sense a g := fun _ _ _ => bne_iff_ne
  have compared : ∀ (sense : BitVec 16) (a : Aspect) (all some : Bool),
      some = (groupList.any fun g => inSet g mask && (inSet g sense != decide (bank.drive[g] = a))) →
      all = (decide (mask ≠ 0) && !some) → flags all some sense a := by
    rintro sense a all some rfl rfl
    have both := compare_flags mask fun g => inSet g sense != decide (bank.drive[g] = a)
    simp only [differ] at both
    exact both
  have step : ∀ (f : Filter) (faulty : Bool) (g : Group),
      (if inSet g mask then f.sample faulty else f) = stepped f g faulty := by
    intro f faulty g
    rw [filter_sample]
  refine ⟨compared _ .green _ _ rfl rfl, compared _ .red _ _ rfl rfl, fun g => ⟨?_, ?_⟩⟩
  · exact (Vector.getElem_ofFn _).trans (step _ _ _)
  · exact (Vector.getElem_ofFn _).trans (step _ _ _)

/-! ### The cabinet-flash sample -/

/-- What every cabinet-flash sample keeps (R142). -/
theorem sampleCabinet_kept (level : Bool) (s : State) :
    Kept s (sampleCabinet level s)
      ∧ ∃ u : State, Settles (.cabinetFlash :: deliveredClasses) u (sampleCabinet level s)
        ∧ u.bank.sensedGreen = s.bank.sensedGreen ∧ u.bank.sensedRed = s.bank.sensedRed ∧ u.bank.mask = s.bank.mask
        ∧ u.bank.cabinetSampled = level ∧ u.instants.holding = s.instants.holding := by
  have sub : deliveredClasses ⊆ .cabinetFlash :: deliveredClasses := List.subset_cons_self _ _
  have raised : ∀ b : Bool, Delivers s { s with bank.cabinetSampled := level, bank.cabinetRaised := b } := fun b =>
    Delivers.plain (bank := fun h => ⟨h.noGreenInFlash, h.half, h.settle⟩)
  unfold sampleCabinet
  dsimp only
  split
  · exact ⟨((raised true).trans (delivers_raise _ _ _)).kept, _, settles_raise sub _ _ _ (List.mem_cons_self ..), rfl, rfl, rfl, rfl, rfl⟩
  · split
    · exact ⟨((raised false).trans (delivers_withdraw _ _)).kept, _, settles_withdraw sub _ _ (List.mem_cons_self ..), rfl, rfl, rfl, rfl, rfl⟩
    · exact ⟨(raised s.bank.cabinetRaised).kept, _, Settles.refl _, rfl, rfl, rfl, rfl, rfl⟩

/-- A sample at the level of the raised mark changes nothing else. -/
theorem sampleCabinet_same {level : Bool} {s : State} (same : level = s.bank.cabinetRaised) :
    sampleCabinet level s = { s with bank.cabinetSampled := level } := by
  unfold sampleCabinet
  dsimp only
  rw [if_neg (by simp [same]), if_neg (by simp [same])]

/-- An inactive sample withdraws CABINET_FLASH, whose ACTIVE record becomes HELD (R142, R171). -/
theorem sampleCabinet_withdraws {s : State} (raised : s.bank.cabinetRaised = true) :
    (sampleCabinet false s).bank.cabinetRaised = false
      ∧ ((sampleCabinet false s).faults.record .cabinetFlash).state =
        if (s.faults.record .cabinetFlash).state = .active then .held else (s.faults.record .cabinetFlash).state := by
  have withdrawn : sampleCabinet false s =
      withdraw .cabinetFlash { s with bank.cabinetSampled := false, bank.cabinetRaised := false } := by
    unfold sampleCabinet
    dsimp only
    rw [if_neg (by simp), if_pos (by simp [raised])]
  rw [withdrawn]
  refine ⟨?_, ?_⟩
  · exact (settles_withdraw (List.subset_cons_self _ _) .cabinetFlash _ (List.mem_cons_self ..)).cabinet.2
  · rw [record_withdraw (by decide)]
    rfl

/-! ### All samples of a boundary -/

theorem input_sample (f : InputFilter) (level : Bool) :
    f.sample level = { f with count := if level = f.active then 0 else f.count + 1 } := by
  unfold InputFilter.sample
  split <;> rfl

/-- The state that the cabinet-flash sample meets: demand latched and the readback taken (R122, R136). -/
def readBack (levels : Levels) (s : State) : State :=
  { sampleDemand levels s with bank := s.bank.sample s.cfg.monitored levels }

theorem takeSamples_running (levels : Levels) {s : State} (running : s.port.part = .running) :
    takeSamples levels s = samplePreempt levels (sampleCabinet levels.cabinetFlash (readBack levels s)) :=
  if_pos (by simp [State.running, running])

theorem takeSamples_stopped (levels : Levels) {s : State} (stopped : ¬ s.port.part = .running) : takeSamples levels s = s :=
  if_neg (by simpa [State.running] using stopped)

/-- The samples leave the clock and a held millisecond. -/
theorem takeSamples_clock (levels : Levels) (s : State) :
    (takeSamples levels s).clock = s.clock ∧ (takeSamples levels s).instants.holding = s.instants.holding := by
  by_cases running : s.port.part = .running
  · obtain ⟨kept, u, settles, -, -, -, -, holding⟩ := sampleCabinet_kept levels.cabinetFlash (readBack levels s)
    rw [takeSamples_running levels running]
    exact ⟨kept.clock, settles.holding.trans holding⟩
  · rw [takeSamples_stopped levels running]
    exact ⟨rfl, rfl⟩

/-! ### The slew millisecond -/

theorem slewMillisecond_zero {s : State} (h : s.clock.slew = 0) : slewMillisecond s = s := by
  unfold slewMillisecond
  rw [if_neg (by omega), if_neg (by omega)]

theorem slewMillisecond_pos {s : State} (h : 0 < s.clock.slew) :
    slewMillisecond s =
      { s with
        clock :=
          { s.clock with
            reading := s.clock.reading.plus 1, slew := s.clock.slew - 1
            neighbours := s.clock.neighbours.map fun n => { n with lastD := n.lastD - 1 } } } := by
  unfold slewMillisecond
  rw [if_pos h]
  rfl

theorem slewMillisecond_neg {s : State} (h : s.clock.slew < 0) :
    slewMillisecond s =
      { s with
        clock :=
          { s.clock with
            slew := s.clock.slew + 1
            neighbours := s.clock.neighbours.map fun n => { n with lastD := n.lastD + 1 } }
        instants.holding := true } := by
  unfold slewMillisecond
  rw [if_neg (by omega), if_pos h]
  simp only [lowerDifferences, sub_neg_eq_add]

/-- The slew changes the clock and the mark of a held millisecond, and none of what the samples leave. -/
theorem slewMillisecond_leaves (s : State) :
    (slewMillisecond s).bank = s.bank ∧ (slewMillisecond s).seq = s.seq ∧ (slewMillisecond s).preempt = s.preempt := by
  unfold slewMillisecond
  split
  · exact ⟨rfl, rfl, rfl⟩
  · split <;> exact ⟨rfl, rfl, rfl⟩

/-! ### The boundary -/

/-- The work of a boundary at which no round is due: the samples of the state the timing blocks leave, then the slew, which
changes the clock and the mark of a held millisecond alone. -/
theorem exec_boundary (levels : Levels) {s : State} (boundary : s.instants.boundary = true)
    (round : s.instants.round = false) :
    ∃ u t, Unsampled s u ∧ exec (.decisecondBoundary levels) s = .next t
      ∧ t.bank = (takeSamples levels u).bank ∧ t.seq = (takeSamples levels u).seq
      ∧ t.preempt = (takeSamples levels u).preempt ∧ t.faults = (takeSamples levels u).faults
      ∧ t.clock = (slewMillisecond (takeSamples levels u)).clock
      ∧ t.instants.holding = (slewMillisecond (takeSamples levels u)).instants.holding := by
  have steps : Unsampled s (timed { s with pins := levels }) :=
    Unsampled.trans (t := { s with pins := levels }) Unsampled.plain (unsampled_timed _)
  have first : roundFirst { s with pins := levels } = { s with pins := levels } := if_neg (by simp [round])
  have work : exec (.decisecondBoundary levels) s = .next (takeBoundary levels s) := rfl
  rw [takeBoundary_at_boundary levels boundary, boundaryWork, first] at work
  obtain ⟨bank, seq, preempt⟩ := slewMillisecond_leaves (takeSamples levels (timed { s with pins := levels }))
  exact ⟨_, _, steps, work, bank, seq, preempt, slewMillisecond_faults _, rfl, rfl⟩

theorem sample_half (bank : OutputBank) (monitored : GroupSet) (levels : Levels) (half : Nat) :
    ({ bank with half := half } : OutputBank).sample monitored levels =
      { bank.sample monitored levels with half := half } := by
  unfold OutputBank.sample
  dsimp only
  split <;> rfl

/-- The readback of a boundary, over the bank the boundary finds. -/
theorem readBack_bank (levels : Levels) {s u : State} (steps : Unsampled s u) :
    (readBack levels u).bank = { s.bank.sample s.cfg.monitored levels with half := u.bank.half } := by
  have cfg : u.cfg = s.cfg := by rw [State.cfg, State.cfg, steps.port]
  have after : (readBack levels u).bank = u.bank.sample u.cfg.monitored levels := rfl
  rw [after, cfg, steps.bank, sample_half]

/-- The bank after the samples of a boundary whose cabinet-flash sample brings no change (R142). -/
theorem sampled_bank {levels : Levels} {s u : State} (steps : Unsampled s u)
    (same : levels.cabinetFlash = s.bank.cabinetRaised) :
    (sampleCabinet levels.cabinetFlash (readBack levels u)).bank =
      { s.bank.sample s.cfg.monitored levels with half := u.bank.half, cabinetSampled := levels.cabinetFlash } := by
  have found := readBack_bank levels steps
  have raised : (readBack levels u).bank.cabinetRaised = s.bank.cabinetRaised := by
    rw [found]
    exact (sample_records _ _ _).2.2.2.1
  rw [sampleCabinet_same (same.trans raised.symm)]
  exact congrArg (fun b : OutputBank => { b with cabinetSampled := levels.cabinetFlash }) found

section
variable {bank after : OutputBank} {monitored : GroupSet} {levels : Levels} {half : Nat} {cabinet : Bool}

/-- With the flash mode off the flags and filters after a boundary are those stepped over the mask. -/
theorem sampled_steady (steady : bank.flash = false)
    (h : after = { bank.sample monitored levels with half := half, cabinetSampled := cabinet }) :
    let mask := bank.compareMask monitored
    let differs := fun (sense : BitVec 16) (a : Aspect) (g : Group) => inSet g sense ≠ decide (bank.drive[g] = a)
    let flags := fun (all some : Bool) (sense : BitVec 16) (a : Aspect) =>
      (some = true ↔ ∃ g : Group, inSet g mask = true ∧ differs sense a g)
        ∧ (all = true ↔ mask ≠ 0 ∧ ∀ g : Group, inSet g mask = true → ¬ differs sense a g)
    let stepped := fun (f : Filter) (g : Group) (faulty : Bool) =>
      if inSet g mask = true then { f with count := if faulty = f.faulted then 0 else f.count + 1 } else f
    flags after.greenAll after.greenSome levels.greenSense .green
      ∧ flags after.redAll after.redSome levels.redSense .red
      ∧ ∀ g : Group,
        after.greenFilter[g] =
            stepped bank.greenFilter[g] g (inSet g levels.greenSense && decide (bank.drive[g] ≠ .green))
          ∧ after.lampFilter[g] =
            stepped bank.lampFilter[g] g (decide (bank.drive[g] = .red) && !inSet g levels.redSense) := by
  have stepped := compare_stepped (bank.sensed (bank.compareMask monitored) levels) (bank.compareMask monitored)
  rw [sample_steady _ _ _ steady] at h
  simp only [sensed_green, sensed_red, sensed_drive, sensed_filters] at stepped
  rw [congrArg OutputBank.greenAll h, congrArg OutputBank.greenSome h, congrArg OutputBank.redAll h,
    congrArg OutputBank.redSome h, congrArg OutputBank.greenFilter h, congrArg OutputBank.lampFilter h]
  exact stepped

/-- With the flash mode on the flags and filters after a boundary are those before it. -/
theorem sampled_flash (flash : bank.flash = true)
    (h : after = { bank.sample monitored levels with half := half, cabinetSampled := cabinet }) :
    after.greenAll = bank.greenAll ∧ after.greenSome = bank.greenSome
      ∧ after.redAll = bank.redAll ∧ after.redSome = bank.redSome
      ∧ after.greenFilter = bank.greenFilter ∧ after.lampFilter = bank.lampFilter := by
  rw [sample_flash _ _ _ flash] at h
  rw [h]
  simp only [OutputBank.sensed, and_self]

end

end Sys2Proof.Machine

open Sys2Proof Sys2Proof.Machine

/-- Settles O43: the samples of the state that the timing blocks leave, each kept by those after it, then the three cases of
the slew. -/
theorem boundariesSampleAndSlew : Obligations.BoundariesSampleAndSlew := by
  intro levels s boundary round running filtered
  obtain ⟨u, t, steps, work, bank, seq, preempt, faults, clockAfter, holdingAfter⟩ := exec_boundary levels boundary round
  obtain ⟨clock, holding⟩ := takeSamples_clock levels u
  refine ⟨t, work, fun run => ?_, fun stopped => ?_, fun zero => ?_, fun pos => ?_, fun neg => ?_⟩
  · have running : u.port.part = .running := by rw [steps.port]; exact run
    rw [takeSamples_running levels running] at bank seq preempt faults
    obtain ⟨kept, v, settles, green, red, mask, sampled, -⟩ := sampleCabinet_kept levels.cabinetFlash (readBack levels u)
    have found := readBack_bank levels steps
    obtain ⟨sampleGreen, sampleRed, sampleMask, sampleRaised, sampleSettle⟩ := sample_records s.bank s.cfg.monitored levels
    have maskAfter : t.bank.mask = s.bank.compareMask s.cfg.monitored := by
      rw [bank]
      refine (settles.mask.trans mask).trans ?_
      rw [found]
      exact sampleMask
    refine ⟨?_, ?_, ?_, ?_, ?_, ?_, fun g => ?_, fun same => ?_, fun low raised => ?_⟩
    · rw [seq]
      exact kept.latches.trans (congrArg (· ||| levels.demand) steps.latches)
    · rw [preempt]
      exact (congrArg (·.sample levels.pe1) (kept.inputs.1.trans steps.inputs.1)).trans (input_sample _ _)
    · rw [preempt]
      exact (congrArg (·.sample levels.pe2) (kept.inputs.2.trans steps.inputs.2)).trans (input_sample _ _)
    · rw [bank]
      exact (settles.sensed.1.trans green).trans ((congrArg OutputBank.sensedGreen found).trans sampleGreen)
    · rw [bank]
      exact (settles.sensed.2.trans red).trans ((congrArg OutputBank.sensedRed found).trans sampleRed)
    · rw [bank]
      exact settles.cabinet.1.trans sampled
    · rw [maskAfter]
      exact inSet_setOf _ g
    · have after := bank.trans (sampled_bank steps same)
      refine ⟨fun g => ?_, fun steady => ?_, fun flash => ?_⟩
      · have settle := (congrArg OutputBank.settle after).trans sampleSettle
        rw [settle]
        exact Vector.getElem_ofFn _
      · rw [maskAfter]
        exact sampled_steady steady after
      · exact sampled_flash flash after
    · have raisedBefore : (readBack levels u).bank.cabinetRaised = true := by
        rw [found]
        exact sampleRaised.trans raised
      have before : (readBack levels u).faults = s.faults := steps.faults
      obtain ⟨lowered, record⟩ := sampleCabinet_withdraws raisedBefore
      rw [low] at bank faults
      rw [before] at record
      exact ⟨(congrArg OutputBank.cabinetRaised bank).trans lowered, by rw [faults]; exact record⟩
  · have stopped : ¬ u.port.part = .running := by rw [steps.port]; exact stopped
    rw [takeSamples_stopped levels stopped] at bank seq preempt
    rw [bank, seq, preempt, steps.bank]
    exact ⟨steps.latches, steps.inputs.1, steps.inputs.2, rfl, rfl, rfl, rfl, rfl⟩
  · rw [slewMillisecond_zero (by rw [clock, steps.clock]; exact zero)] at clockAfter holdingAfter
    exact ⟨clockAfter.trans (clock.trans steps.clock), holdingAfter.trans (holding.trans steps.holding)⟩
  · rw [slewMillisecond_pos (by rw [clock, steps.clock]; exact pos), clock, steps.clock] at clockAfter
    exact clockAfter
  · rw [slewMillisecond_neg (by rw [clock, steps.clock]; exact neg)] at clockAfter holdingAfter
    rw [clock, steps.clock] at clockAfter
    exact ⟨clockAfter, holdingAfter⟩

end

section
/-! The clock run ahead (R17, log 9): it looks at nothing but the clock, the configuration and the marks of its instants. -/

set_option Elab.async false

namespace Sys2Proof.Machine

/-- Two states whose clocks run alike: the same clock, configuration, part state and marks of a held millisecond, a boundary and
a round. -/
structure SameClock (s t : State) : Prop where
  clock : t.clock = s.clock
  part : t.port.part = s.port.part
  config : t.port.config = s.port.config
  round : t.instants.round = s.instants.round
  holding : t.instants.holding = s.instants.holding
  boundary : t.instants.boundary = s.instants.boundary

section
variable {s t : State} (h : SameClock s t)
include h

theorem SameClock.cfg : t.cfg = s.cfg := by
  unfold State.cfg
  rw [h.config]

theorem SameClock.running : t.running = s.running := by
  unfold State.running
  rw [h.part]

theorem SameClock.withClock (c : StationClock) : SameClock { s with clock := c } { t with clock := c } :=
  { h with clock := rfl }

/-- Two decisions that leave one clock keep the states alike. -/
theorem SameClock.decided {cs ds : List FaultClass} {c : StationClock} {s' t' : State} (d : Decides cs s c s')
    (e : Decides ds t c t') : SameClock s' t' where
  clock := e.clock.trans d.clock.symm
  part := by rw [e.running, d.running, h.part]
  config := by rw [e.kept.config, d.kept.config]; exact h.config
  round := by rw [e.settles.round, d.settles.round, h.round]
  holding := by rw [e.settles.holding, d.settles.holding, h.holding]
  boundary := by rw [e.settles.boundary, d.settles.boundary, h.boundary]

theorem SameClock.evaluated {s' t' : State} (d : Evaluates s s') (e : Evaluates t t') : SameClock s' t' where
  clock := by rw [e.clock, d.clock, h.clock]
  part := by rw [e.part, d.part, h.part]
  config := by rw [e.config, d.config, h.config]
  round := by rw [e.round, d.round, h.round]
  holding := by rw [e.holding, d.holding, h.holding]
  boundary := by rw [e.boundary, d.boundary, h.boundary]

/-! ### The round -/

theorem SameClock.setClockState (state : ClockState) : SameClock (setClockState state s) (setClockState state t) := by
  have later := decides_setClockState (cs := deliveredClasses) (fun _ k => k) state t
  rw [h.clock] at later
  exact h.decided (decides_setClockState (cs := deliveredClasses) (fun _ k => k) state s) later

theorem SameClock.holdoverRound (running : s.port.part = .running) : SameClock (holdoverRound s) (holdoverRound t) := by
  have later := (holdoverRound_spec (h.part.trans running)).1
  rw [h.clock, h.cfg] at later
  exact h.decided (holdoverRound_spec running).1 later

theorem SameClock.leaveHoldover (state : ClockState) : SameClock (leaveHoldover state s) (leaveHoldover state t) := by
  have later := (leaveHoldover_spec state t).1
  rw [h.clock] at later
  exact h.decided (leaveHoldover_spec state s).1 later

theorem SameClock.stepClock (d : Int) : SameClock (stepClock d s) (stepClock d t) := by
  have stepped : SameClock { s with clock := s.clock.stepped d, instants.holding := false }
      { t with clock := t.clock.stepped d, instants.holding := false } :=
    ⟨congrArg (StationClock.stepped · d) h.clock, h.part, h.config, h.round, rfl, h.boundary⟩
  exact stepped.evaluated (evaluates_stepClock d s) (evaluates_stepClock d t)

theorem SameClock.beforeDecision : SameClock (beforeDecision s) (beforeDecision t) := by
  have disputes : t.disputes = s.disputes := by
    funext n
    unfold State.disputes
    rw [h.clock, h.cfg]
  rw [beforeDecision_eq, beforeDecision_eq]
  refine ⟨?_, h.part, h.config, rfl, h.holding, h.boundary⟩
  simp only [judged, disputes, h.clock]

theorem SameClock.aloneRound : SameClock (aloneRound s) (aloneRound t) := by
  unfold Machine.aloneRound
  dsimp only
  rw [h.clock, h.cfg]
  split
  · split
    · exact h
    · split
      · exact h.setClockState .tracking
      · exact h
  · exact (h.stepClock _).setClockState .tracking

theorem SameClock.slewRound (running : s.port.part = .running) : SameClock (slewRound s) (slewRound t) := by
  have usable : t.usable = s.usable := by
    unfold State.usable
    rw [h.clock, h.cfg]
  by_cases none : s.usable = []
  · rw [slewRound_holdover none, slewRound_holdover (usable.trans none)]
    exact h.holdoverRound running
  · rw [slewRound_correct none, slewRound_correct (usable ▸ none), usable, h.cfg, h.clock]
    exact (h.withClock _).leaveHoldover _

theorem SameClock.joined : SameClock (joined s) (joined t) := by
  unfold Machine.joined
  rw [h.clock, h.cfg]
  exact h.withClock _

theorem SameClock.anchoredRound (running : s.port.part = .running) : SameClock (anchoredRound s) (anchoredRound t) := by
  rw [anchoredRound_eq, anchoredRound_eq, h.clock]
  cases s.clock.state with
  | alone | tracking => exact h.joined
  | synced | holdover =>
    dsimp only
    split
    · exact h.joined.leaveHoldover .synced
    · exact h.joined.holdoverRound running

theorem SameClock.clockRound (running : s.port.part = .running) : SameClock (clockRound s) (clockRound t) := by
  unfold Machine.clockRound
  rw [h.clock, h.cfg]
  split
  · exact h.anchoredRound running
  · split
    · exact h.aloneRound
    · exact h.slewRound running

theorem SameClock.takeRound (running : s.port.part = .running) : SameClock (takeRound s) (takeRound t) := by
  have decided := h.beforeDecision.clockRound running
  rw [takeRound_eq, takeRound_eq]
  unfold clearTimeMark
  rw [decided.clock]
  exact decided.withClock _

theorem SameClock.roundFirst : SameClock (roundFirst s) (roundFirst t) := by
  unfold Machine.roundFirst
  rw [h.running, h.round]
  split
  · rename_i reached
    have running : s.port.part = .running := by
      simp only [State.running, Bool.and_eq_true, decide_eq_true_eq] at reached
      exact reached.1
    exact h.takeRound running
  · exact h

/-! ### The milliseconds ahead -/

theorem SameClock.slewMillisecond : SameClock (slewMillisecond s) (slewMillisecond t) := by
  unfold Machine.slewMillisecond
  rw [h.clock]
  split
  · exact h.withClock _
  · split
    · exact { h.withClock _ with holding := rfl }
    · exact h

theorem SameClock.settleClock : SameClock (settleClock s) (settleClock t) := by
  have first := h.roundFirst
  unfold Machine.settleClock
  dsimp only
  rw [first.boundary]
  split
  · exact { first.slewMillisecond with boundary := rfl }
  · exact first

theorem SameClock.runClock (n : Nat) : SameClock (runClock n s) (runClock n t) := by
  unfold Machine.runClock State.msToMultiple
  dsimp only
  rw [h.clock, h.running, h.round]
  exact ⟨rfl, h.part, h.config, rfl, rfl, rfl⟩

theorem SameClock.clockMillisecond : SameClock (clockMillisecond s) (clockMillisecond t) := by
  unfold Machine.clockMillisecond
  rw [h.holding]
  split
  · exact { h with holding := rfl }
  · exact (h.runClock 1).settleClock

theorem SameClock.clockAhead (n : Nat) : SameClock (clockAhead n s) (clockAhead n t) := by
  induction n with
  | zero => exact h.settleClock
  | succ n ih => exact ih.clockMillisecond

end

/-! ### The reading some plain milliseconds on -/

theorem plus_zero {t : NetTime} (week : t.week < 65536) (ms : t.ms < weekMs) : t.plus 0 = t := by
  obtain ⟨w, m⟩ := t
  simp only [weekMs] at week ms
  simp only [NetTime.plus, weekMs, NetTime.mk.injEq]
  omega

theorem plus_plus (t : NetTime) (d e : Int) : (t.plus d).plus e = t.plus (d + e) := by
  simp only [NetTime.plus, weekMs, NetTime.mk.injEq]
  omega

/-- Within a unit of time that divides the week a sound reading counts on as it stands. -/
theorem plus_ms_mod {t : NetTime} {n : Nat} {unit : Nat} (unit_of : unit = 100 ∨ unit = 10000)
    (below : t.ms % unit + n < unit) : (t.plus n).ms % unit = t.ms % unit + n := by
  rcases unit_of with rfl | rfl
  · simp only [NetTime.plus, weekMs]
    omega
  · simp only [NetTime.plus, weekMs]
    omega

end Sys2Proof.Machine
end

section
/-! The line: what the receiver drops, a wait that runs to its end, and an attempt that begins (R184 to R190). -/

set_option Elab.async false

namespace Sys2Proof.Machine

/-! ### The receiver -/

section
variable {s : State} (running : s.port.part = .running)
include running

theorem exec_startDelimiterEnd (hunting : s.line.receiving = false) :
    exec .startDelimiterEnd s = .next (captureDelimiter s) :=
  if_pos (by simp [State.running, running, hunting])

variable (receiving : s.line.receiving = true)
include receiving

theorem inFrame_of_receiving : s.inFrame = true := by
  simp [State.inFrame, State.running, running, receiving]

theorem exec_frameEndedEarly : exec .frameEndedEarly s = .next (dropLength earlyEnd s) :=
  if_pos (inFrame_of_receiving running receiving)

theorem exec_bodyLengthExceeded {length : Byte} (long : 28 < length.toNat) :
    exec (.bodyLengthExceeded length) s = .next (dropLength 0 s) :=
  if_pos (by rw [inFrame_of_receiving running receiving]; exact decide_eq_true long)

theorem exec_frameRejected {own : Bool} {kind sender : Byte} {body : List Byte} {crc : BitVec 16}
    (fails : frameValid own kind sender body crc = false) :
    exec (.frameRejected own kind sender body crc) s = .next (rejectFrame own kind sender body crc s) :=
  if_pos (by rw [inFrame_of_receiving running receiving, fails]; rfl)

end

/-- The kinds of R182 are those that have a body length (R215). -/
theorem frameLengths_eq_nil (kind : Byte) : frameLengths kind = [] ↔ ¬ (kind = 1 ∨ kind = 2 ∨ kind = 3) := by
  unfold frameLengths
  split
  · simp [*]
  · split
    · simp [*]
    · split <;> simp [*]

section
variable {kind sender : Byte} {body : List Byte} {crc : BitVec 16} (s : State)

/-- A frame whose CRC does not agree is counted as such (R190). -/
theorem rejectFrame_crc (bad : crc ≠ frameCrc kind sender body) :
    rejectFrame false kind sender body crc s =
      { s with
        line.receiving := false, line.idleTime := 0
        line.counts.crcError := min 65535 (s.line.counts.crcError + 1) } :=
  if_pos bad

/-- A good frame of a kind that is not known is counted as such (R190). -/
theorem rejectFrame_kind (good : crc = frameCrc kind sender body) (unknown : frameLengths kind = []) :
    rejectFrame false kind sender body crc s =
      { s with
        line.receiving := false, line.idleTime := 0
        line.counts.unknownKind := min 65535 (s.line.counts.unknownKind + 1) } :=
  (if_neg (not_not.mpr good)).trans (if_pos unknown)

/-- A good frame of a known kind that fails is counted for its length (R190). -/
theorem rejectFrame_length (good : crc = frameCrc kind sender body) (known : frameLengths kind ≠ []) :
    rejectFrame false kind sender body crc s =
      { s with
        line.receiving := false, line.idleTime := 0
        line.counts.lengthError := min 65535 (s.line.counts.lengthError + 1) } :=
  (if_neg (not_not.mpr good)).trans (if_neg known)

end

/-- What R189 and R190 say of the receiver. -/
theorem receiver_events {s : State} (running : s.port.part = .running) (receiving : s.line.receiving = true) :
    let hunting : State := { s with line.receiving := false, line.idleTime := 0 }
    let short : State := { hunting with line.counts.lengthError := min 65535 (s.line.counts.lengthError + 1) }
    exec .frameEndedEarly s = .next { short with line.idleTime := 16000 }
      ∧ (∀ length : Byte, 28 < length.toNat → exec (.bodyLengthExceeded length) s = .next short)
      ∧ ∀ (kind sender : Byte) (body : List Byte) (crc : BitVec 16),
        let good := crc = crc16 (kind :: sender :: BitVec.ofNat 8 body.length :: body)
        let known := kind = 1 ∨ kind = 2 ∨ kind = 3
        exec (.frameRejected true kind sender body crc) s = .next hunting
        ∧ (¬ good →
          exec (.frameRejected false kind sender body crc) s =
            .next { hunting with line.counts.crcError := min 65535 (s.line.counts.crcError + 1) })
        ∧ (good → ¬ known →
          exec (.frameRejected false kind sender body crc) s =
            .next { hunting with line.counts.unknownKind := min 65535 (s.line.counts.unknownKind + 1) })
        ∧ (good → known → body.length ∉ frameLengths kind →
          exec (.frameRejected false kind sender body crc) s = .next short) := by
  refine ⟨exec_frameEndedEarly running receiving, fun length long => exec_bodyLengthExceeded running receiving long,
    fun kind sender body crc => ⟨?_, fun bad => ?_, fun good unknown => ?_, fun good known length => ?_⟩⟩
  · exact exec_frameRejected running receiving rfl
  · rw [exec_frameRejected running receiving (by simp [frameValid, frameCrc, bad]), rejectFrame_crc s bad]
  · have none := (frameLengths_eq_nil kind).mpr unknown
    rw [exec_frameRejected running receiving (by simp [frameValid, none]), rejectFrame_kind s good none]
  · have some : frameLengths kind ≠ [] := fun none => (frameLengths_eq_nil kind).mp none known
    rw [exec_frameRejected running receiving (by simp [frameValid, length]), rejectFrame_length s good some]

/-! ### A wait that runs -/

theorem bitRateOf_pos (code : Nat) : 0 < bitRateOf code := by
  unfold bitRateOf
  split <;> decide

/-- A number of milliseconds rounded up holds the wait, and one less does not (log 11). -/
theorem ceil_covers {rate : Nat} (pos : 0 < rate) (wait : Nat) :
    wait ≤ (wait + rate - 1) / rate * rate ∧ ∀ m, m < (wait + rate - 1) / rate → m * rate < wait := by
  have whole := Nat.div_add_mod (wait + rate - 1) rate
  have part := Nat.mod_lt (wait + rate - 1) pos
  rw [Nat.mul_comm] at whole
  refine ⟨by omega, fun m below => ?_⟩
  have fits := (Nat.le_div_iff_mul_le pos).mp (Nat.succ_le_of_lt below)
  rw [Nat.succ_mul] at fits
  omega

/-- In RUNNING the line's waits run down with the clock (R185, log 11). -/
theorem runClock_line {s : State} (running : s.port.part = .running) (n : Nat) :
    (runClock n s).line = s.line.run (n * bitRateOf s.cfg.bitRate) :=
  if_pos (by simp [State.running, running])

/-- An event or instant taken on the way to what is not yet due. -/
theorem runUntil_next {due : State → Bool} {s : State} (waits : due s = false) (away : s.instants.boundary = false) :
    runUntil due runFuel s = runUntil due 1023 (nextInstant s) := by
  have fuel : runFuel = 1023 + 1 := rfl
  rw [fuel, runUntil, if_neg (by rw [waits, away]; decide)]

theorem runUntil_stops {due : State → Bool} {s : State} (n : Nat) (stops : (due s || s.instants.boundary) = true) :
    runUntil due n s = s := by
  cases n with
  | zero => rfl
  | succ n => exact if_pos stops

/-- The clock runs once where nothing is due, and stops where the event falls due or a boundary is reached. -/
theorem runUntil_once {due : State → Bool} {s : State} (waits : due s = false) (away : s.instants.boundary = false)
    (holding : s.instants.holding = false) (nothing : takeFirstDue s = none)
    (stops : (due (runClock (s.msToEvent s.msToMultiple) s) || (runClock (s.msToEvent s.msToMultiple) s).instants.boundary) = true) :
    runUntil due runFuel s = runClock (s.msToEvent s.msToMultiple) s := by
  have next : nextInstant s = runClock (s.msToEvent s.msToMultiple) s := by
    simp [nextInstant, nothing, holding]
  rw [runUntil_next waits away, next]
  exact runUntil_stops _ stops

/-- The event `due` is the end of the transmitter's wait in the state `tx`. -/
def EndsWait (tx : TxState) (due : State → Bool) : Prop :=
  ∀ u : State, due u = (decide (u.line.tx = tx) && decide (u.line.wait = 0))

section
variable {s : State} {tx : TxState} {due : State → Bool} (take : State → State) (ends : EndsWait tx due)
  (running : s.port.part = .running) (holding : s.instants.holding = false) (away : s.instants.boundary = false)
  (nothing : takeFirstDue s = none) (waits : s.line.wait ≠ 0) (inState : s.line.tx = tx)
include ends running holding away nothing waits inState

/-- A wait with nothing nearer before its end ends at the millisecond at which it is over (log 11). -/
theorem whenReached_wait
    (nearest : s.msToEvent s.msToMultiple = (s.line.wait + bitRateOf s.cfg.bitRate - 1) / bitRateOf s.cfg.bitRate) :
    whenReached due take s =
      take (runClock ((s.line.wait + bitRateOf s.cfg.bitRate - 1) / bitRateOf s.cfg.bitRate) s) := by
  have covered := (ceil_covers (bitRateOf_pos s.cfg.bitRate) s.line.wait).1
  have now : due s = false := by simp [ends s, waits]
  have then_ : due (runClock ((s.line.wait + bitRateOf s.cfg.bitRate - 1) / bitRateOf s.cfg.bitRate) s) = true := by
    rw [ends, runClock_line running]
    simp [LineInterface.run, inState, covered]
  rw [← nearest] at then_ ⊢
  unfold whenReached
  rw [runUntil_once now away holding nothing (by rw [then_]; rfl)]
  exact if_pos then_

/-- A wait that outlasts the decisecond does not end in it (log 3, log 4). -/
theorem whenReached_outlasts (nearest : s.msToEvent s.msToMultiple = s.msToMultiple)
    (outlasts : s.msToMultiple < (s.line.wait + bitRateOf s.cfg.bitRate - 1) / bitRateOf s.cfg.bitRate) :
    whenReached due take s = s := by
  have short := (ceil_covers (bitRateOf_pos s.cfg.bitRate) s.line.wait).2 _ outlasts
  have now : due s = false := by simp [ends s, waits]
  have still : due (runClock s.msToMultiple s) = false := by
    rw [ends, runClock_line running]
    have left : (s.line.run (s.msToMultiple * bitRateOf s.cfg.bitRate)).wait ≠ 0 := Nat.sub_ne_zero_of_lt short
    rw [decide_eq_false left, Bool.and_false]
  have reached : (runClock s.msToMultiple s).instants.boundary = true := decide_eq_true (le_refl _)
  refine whenReached_of_never take ?_
  rw [runUntil_once now away holding nothing (by rw [nearest, reached, Bool.or_true]), nearest]
  exact still

end

theorem endsWait_relayDue : EndsWait .defer State.relayDue := fun _ => rfl

theorem endsWait_backoffDue : EndsWait .backoff State.backoffDue := fun _ => rfl

/-! ### The idle gap -/

theorem gapDue_of_ready {s : State} (tx : s.line.tx = .defer) (wait : s.line.wait = 0) (idle : 24000 ≤ s.line.idleTime)
    (next : s.line.next.isSome = true) : s.gapDue = true := by
  simp [State.gapDue, LineInterface.ready, tx, wait, next, idleGap, idle]

theorem next_isSome {l : LineInterface} (h : l.inHand ≠ none ∨ l.queue ≠ []) : l.next.isSome = true := by
  unfold LineInterface.next
  cases hand : l.inHand with
  | some f => rfl
  | none =>
    have some : l.queue ≠ [] := h.resolve_left (fun k => k hand)
    exact List.isSome_head?.mpr some

/-- A gap that the next event meets is met at this instant. -/
theorem exec_idleGapMet_after {s u : State} (away : s.instants.boundary = false) (other : s.line.tx ≠ .defer)
    (first : takeFirstDue s = some u) (met : u.gapDue = true) : exec .idleGapMet s = exec .idleGapMet u := by
  have now : s.gapDue = false := by simp [State.gapDue, LineInterface.ready, other]
  have reached : runUntil State.gapDue runFuel s = u := by
    have next : nextInstant s = u := by simp [nextInstant, first]
    rw [runUntil_next now away, next]
    exact runUntil_stops _ (by rw [met]; rfl)
  have taken : whenReached State.gapDue meetGap s = whenReached State.gapDue meetGap u := by
    rw [whenReached_of_due _ met, whenReached, reached]
    exact if_pos met
  exact congrArg Host.Outcome.next taken

/-- The frame the transmitter sends next, and the queue behind it (R184). -/
theorem next_rest {l : LineInterface} {f : Frame} {rest : List Frame}
    (h : (l.inHand = some f ∧ l.queue = rest) ∨ (l.inHand = none ∧ l.queue = f :: rest)) :
    l.next = some f ∧ l.rest = rest := by
  unfold LineInterface.next LineInterface.rest
  rcases h with ⟨hand, queue⟩ | ⟨hand, queue⟩ <;> rw [hand, queue] <;> exact ⟨rfl, rfl⟩

/-! ### The stamp -/

/-- A round takes its mark away (R6). -/
theorem clockRound_round {s : State} (running : s.port.part = .running) :
    (clockRound s).instants.round = s.instants.round := by
  by_cases free : s.clock.state ≠ .alone ∨ s.cfg.anchored = true
  · obtain ⟨_, decides, -⟩ := decidesTable_clockRound running free
    exact decides.settles.round
  · obtain ⟨alone, unanchored⟩ := not_or.mp free
    have tracks : ∀ u : State, (setClockState .tracking u).instants.round = u.instants.round := fun u =>
      (decides_setClockState (cs := deliveredClasses) (fun _ k => k) .tracking u).settles.round
    unfold clockRound
    rw [if_neg unanchored, if_pos (not_not.mp alone)]
    unfold aloneRound
    dsimp only
    split
    · split
      · rfl
      · split
        · exact tracks s
        · rfl
    · exact (tracks _).trans (evaluates_stepClock _ _).round

/-- After the round that was reached none is left. -/
theorem roundFirst_round (s : State) : ((roundFirst s).running && (roundFirst s).instants.round) = false := by
  unfold roundFirst
  split
  · rename_i reached
    have running : s.port.part = .running := by
      simp only [State.running, Bool.and_eq_true, decide_eq_true_eq] at reached
      exact reached.1
    have round : (takeRound s).instants.round = false := clockRound_round (s := beforeDecision s) running
    rw [round, Bool.and_false]
  · rename_i reached
    simpa using reached

/-- The clock runs plainly: nothing is held back, and neither boundary nor round stands. -/
structure RunsPlain (v : State) (reading : NetTime) (slew : Int) : Prop where
  holding : v.instants.holding = false
  boundary : v.instants.boundary = false
  round : (v.running && v.instants.round) = false
  reading_eq : v.clock.reading = reading
  slew_eq : v.clock.slew = slew

/-- A plain millisecond that reaches no round, and no boundary where a slew is left. -/
theorem RunsPlain.next {v : State} {reading : NetTime} {slew : Int} (h : RunsPlain v reading slew)
    (noRound : (reading.plus 1).ms % 10000 ≠ 0) (noSlew : slew = 0 ∨ (reading.plus 1).ms % 100 ≠ 0) :
    RunsPlain (clockMillisecond v) (reading.plus 1) slew := by
  have run := runClock_one (s := v) (t := reading.plus 1) (by rw [h.reading_eq])
  have round : ((runClock 1 v).running && (runClock 1 v).instants.round) = false := by
    have mark : (runClock 1 v).instants.round = v.instants.round := by
      rw [run]
      simp [noRound]
    rw [mark]
    exact h.round
  have clock : (runClock 1 v).clock = { v.clock with reading := reading.plus 1 } := by rw [run]
  have settled : settleClock (runClock 1 v) = { runClock 1 v with instants.boundary := false } := by
    rcases noSlew with zero | noBoundary
    · exact settleClock_plain round (by rw [clock]; exact h.slew_eq.trans zero)
    · have away : (runClock 1 v).instants.boundary = false := by
        rw [run]
        exact decide_eq_false noBoundary
      have first : roundFirst (runClock 1 v) = runClock 1 v := if_neg (by rw [round]; decide)
      unfold settleClock
      dsimp only
      rw [first, if_neg (by rw [away]; decide), ← away]
  have passed : clockMillisecond v = { runClock 1 v with instants.boundary := false } := by
    unfold clockMillisecond
    rw [if_neg (by rw [h.holding]; decide), settled]
  rw [passed]
  exact ⟨rfl, rfl, round, congrArg StationClock.reading clock, (congrArg StationClock.slew clock).trans h.slew_eq⟩

/-- RunsPlain milliseconds ahead are milliseconds of the reading (R1). -/
theorem RunsPlain.ahead {s : State} {m : Nat} {reading : NetTime} {slew : Int} (h : RunsPlain (clockAhead m s) reading slew)
    (week : reading.week < 65536) (ms : reading.ms < weekMs) (n : Nat)
    (plain : slew = 0 ∧ reading.ms % 10000 + n < 10000 ∨ reading.ms % 100 + n < 100) :
    RunsPlain (clockAhead (m + n) s) (reading.plus n) slew := by
  induction n with
  | zero =>
    have same : reading.plus (0 : Nat) = reading := plus_zero week ms
    rw [same]
    exact h
  | succ n ih =>
    have before := ih (by omega)
    have on : (reading.plus n).plus 1 = reading.plus (n + 1 : Nat) := plus_plus reading n 1
    have reached : (reading.plus (n + 1 : Nat)).ms % 10000 ≠ 0
        ∧ (slew = 0 ∨ (reading.plus (n + 1 : Nat)).ms % 100 ≠ 0) := by
      rcases plain with ⟨zero, below⟩ | below
      · rw [plus_ms_mod (.inr rfl) below]
        exact ⟨by omega, .inl zero⟩
      · have counted := plus_ms_mod (.inl rfl) below
        exact ⟨by omega, .inr (by omega)⟩
    have next := before.next (by rw [on]; exact reached.1) (by rw [on]; exact reached.2)
    rw [on] at next
    exact next

/-- The clock settled at the instant it stands at, told by what the round leaves. -/
theorem settleClock_of_round {s u : State} (round : roundFirst s = u) :
    settleClock s = if u.instants.boundary then { slewMillisecond u with instants.boundary := false } else u := by
  subst round
  rfl

theorem round_taken {s u : State} (round : roundFirst s = u) : (u.running && u.instants.round) = false := by
  rw [← round]
  exact roundFirst_round s

section
variable {s u : State} (round : roundFirst s = u) (sound : u.clock.Sound) (holding : u.instants.holding = false)
include round sound holding

/-- With no slew left the reading ahead counts plain milliseconds. -/
theorem ahead_steady (steady : u.clock.slew = 0) {n : Nat} (below : u.clock.reading.ms % 10000 + n < 10000) :
    (clockAhead n s).clock.reading = u.clock.reading.plus n := by
  have taken := round_taken round
  have settled : settleClock s = { u with instants.boundary := false } := by
    rw [settleClock_of_round round]
    split
    · rw [slewMillisecond_zero steady]
    · rename_i away
      have away : u.instants.boundary = false := by simpa using away
      rw [← away]
  have start : RunsPlain (clockAhead 0 s) u.clock.reading 0 := by
    rw [clockAhead, settled]
    exact ⟨holding, rfl, taken, rfl, steady⟩
  have later := start.ahead sound.week sound.ms n (.inl ⟨rfl, below⟩)
  rw [Nat.zero_add] at later
  exact later.reading_eq

variable (boundary : u.instants.boundary = true)
include boundary

/-- A slew millisecond still to be taken at the boundary moves the reading on by one more (R2). -/
theorem ahead_forward (forward : 0 < u.clock.slew) {n : Nat} (below : u.clock.reading.ms % 100 + n < 99) :
    (clockAhead n s).clock.reading = u.clock.reading.plus (n + 1) := by
  have taken := round_taken round
  have start : RunsPlain (clockAhead 0 s) (u.clock.reading.plus 1) (u.clock.slew - 1) := by
    rw [clockAhead, settleClock_of_round round, if_pos boundary, slewMillisecond_pos forward]
    exact ⟨holding, rfl, taken, rfl, rfl⟩
  have counted : (u.clock.reading.plus 1).ms % 100 = u.clock.reading.ms % 100 + 1 :=
    plus_ms_mod (n := 1) (.inl rfl) (by omega)
  have later := start.ahead (plus_week _ _) (plus_ms _ _) n (.inr (by omega))
  rw [Nat.zero_add, plus_plus, Int.add_comm] at later
  exact later.reading_eq

/-- A slew millisecond taken back at the boundary holds the first millisecond after it (R2). -/
theorem ahead_back (back : u.clock.slew < 0) :
    (clockAhead 0 s).clock.reading = u.clock.reading ∧ (clockAhead 1 s).clock.reading = u.clock.reading
      ∧ ∀ n, u.clock.reading.ms % 100 + n < 99 → 1 ≤ n → (clockAhead n s).clock.reading = u.clock.reading.plus (n - 1) := by
  have taken := round_taken round
  have settled : clockAhead 0 s = { slewMillisecond u with instants.boundary := false } := by
    rw [clockAhead, settleClock_of_round round, if_pos boundary]
  rw [slewMillisecond_neg back] at settled
  have held : clockAhead 1 s = { clockAhead 0 s with instants.holding := false } := by
    have mark : (clockAhead 0 s).instants.holding = true := by rw [settled]
    exact if_pos mark
  have start : RunsPlain (clockAhead 1 s) u.clock.reading (u.clock.slew + 1) := by
    rw [held, settled]
    exact ⟨rfl, rfl, taken, rfl, rfl⟩
  refine ⟨by rw [settled], start.reading_eq, fun n below some => ?_⟩
  obtain ⟨m, rfl⟩ := Nat.exists_eq_add_of_le some
  have later := start.ahead sound.week sound.ms m (.inr (by omega))
  have count : ((1 + m : Nat) : Int) - 1 = m := by omega
  rw [count]
  exact later.reading_eq

end

/-- What a stamp taken `n` milliseconds ahead says, over the state `u` that the round leaves (R17). -/
def StampSays (stamp : NetTime) (n : Nat) (u : State) : Prop :=
  (u.clock.slew = 0 → u.clock.reading.ms % 10000 + n < 10000 → stamp = u.clock.reading.plus n)
    ∧ (u.instants.boundary = true → u.clock.reading.ms % 100 + n < 99 →
      (0 < u.clock.slew → stamp = u.clock.reading.plus (n + 1))
        ∧ (u.clock.slew < 0 → stamp = u.clock.reading.plus (n - 1)))

/-- The part of a millisecond left over makes one more or not. Where the stamp is taken at a boundary that holds a millisecond
back, none or one more name the same reading, and the count that includes the held one is the one to say (log 9). -/
theorem stamp_says (s : State) (whole draw : Nat) (bit : draw ≤ 1) :
    ∃ k, k ≤ 1 ∧ (clockAhead (whole + draw) s).clock.reading = (clockAhead (whole + k) s).clock.reading
      ∧ ∀ u, roundFirst s = u → u.clock.Sound → u.instants.holding = false →
        StampSays (clockAhead (whole + draw) s).clock.reading (whole + k) u := by
  by_cases held : whole + draw = 0 ∧ (roundFirst s).clock.Sound ∧ (roundFirst s).instants.holding = false
      ∧ (roundFirst s).instants.boundary = true ∧ (roundFirst s).clock.slew < 0
  · obtain ⟨zero, sound, holding, boundary, back⟩ := held
    obtain ⟨now, next, later⟩ := ahead_back rfl sound holding boundary back
    have one : whole + 1 = 1 := by omega
    refine ⟨1, le_refl _, ?_, ?_⟩
    · rw [zero, one, now, next]
    · rintro u rfl - -
      refine ⟨fun steady => by omega, fun _ below => ⟨fun forward => by omega, fun _ => ?_⟩⟩
      rw [zero, one]
      exact (now.trans next.symm).trans (later 1 (by omega) (le_refl _))
  · refine ⟨draw, bit, rfl, fun u round sound holding => ⟨fun steady below => ahead_steady round sound holding steady below,
      fun boundary below => ⟨fun forward => ahead_forward round sound holding boundary forward below, fun back => ?_⟩⟩⟩
    obtain ⟨-, -, later⟩ := ahead_back round sound holding boundary back
    subst round
    exact later _ below (Nat.one_le_iff_ne_zero.mpr fun zero => held ⟨zero, sound, holding, boundary, back⟩)

/-! ### The attempt -/

/-- The body that an attempt drives: a TIME frame takes its stamp (R17, R186). -/
def FrameBody.stamped (body : FrameBody) (stamp : NetTime) : FrameBody :=
  match body with
  | .time c => .time { c with stamp := some stamp }
  | .order o => .order o
  | .cancel c => .cancel c

theorem stamped_of_not_time {f : Frame} (h : f.isTime = false) (stamp : NetTime) : f.body.stamped stamp = f.body := by
  unfold Frame.isTime at h
  cases body : f.body with
  | time c =>
    rw [body] at h
    cases h
  | order o => rfl
  | cancel c => rfl

/-- The gap met with a frame to send begins its attempt (R186). -/
theorem meetGap_next {s : State} {f : Frame} {rest : List Frame} (next : s.line.next = some f) (behind : s.line.rest = rest) :
    meetGap s =
      { s with
        line :=
          { s.line with
            queue := rest
            inHand :=
              some { f with
                body := f.body.stamped (stampFor { s with line.queue := rest })
                attempts := f.attempts + 1 }
            tx := .sending, wait := 0, deferred := 0
            lineOut := lineBytes s.cfg.station (f.body.stamped (stampFor { s with line.queue := rest })) }
        draws := s.draws + 1 } := by
  subst behind
  unfold meetGap
  rw [next]
  rfl

/-- The bytes of a frame on the line, written out (R182, R215). -/
theorem lineBytes_eq (station : Nat) (b : FrameBody) :
    let header := b.code :: BitVec.ofNat 8 station :: BitVec.ofNat 8 b.bytes.length :: b.bytes
    lineBytes station b = [0xAA#8, 0xAA#8, 0xE5#8] ++ header ++ be 2 (crc16 header).toNat :=
  (List.append_assoc _ _ _).symm

/-- The round that the obligation takes first is the one the clock takes where it stands. -/
theorem roundFirst_of_exec {s u : State}
    (h : if s.port.part = .running ∧ s.instants.round = true then exec .round s = .next u else u = s) :
    roundFirst s = u := by
  by_cases reached : s.port.part = .running ∧ s.instants.round = true
  · rw [if_pos reached, exec_round reached.1 reached.2] at h
    have taken : takeRound s = u := Host.Outcome.next.inj h
    rw [← taken]
    exact if_pos (by simp [State.running, reached.1, reached.2])
  · rw [if_neg reached] at h
    rw [h]
    exact if_neg (by simpa [State.running] using reached)

end Sys2Proof.Machine

open Sys2Proof Sys2Proof.Machine

/-- Settles O44: the receiver's events, the waits, a gap met after an event, and the attempt that begins. -/
theorem lineEventsMoveReceiverAndTransmitter : Obligations.LineEventsMoveReceiverAndTransmitter := by
  refine ⟨fun s running => ⟨exec_startDelimiterEnd running, receiver_events running⟩,
    fun s => ⟨fun wait => ⟨fun defer => ?_, fun backoff => ?_⟩, fun running holding away nothing waits c waiting => ?_,
      fun u away other first defer wait idle next => ?_, fun defer wait idle => ?_⟩⟩
  · have taken : exec .relayWaitExpiry s = .next (takeRelayWait s) :=
      congrArg Host.Outcome.next (whenReached_of_due _ (by simp [State.relayDue, defer, wait]))
    have same : takeRelayWait s = s := by
      unfold takeRelayWait
      rw [← wait]
    rw [taken, same]
  · have taken : exec .backoffExpiry s = .next (takeBackoff s) :=
      congrArg Host.Outcome.next (whenReached_of_due _ (by simp [State.backoffDue, backoff, wait]))
    rw [taken]
    unfold takeBackoff
    rw [← wait]
  · have line := runClock_line running
    rcases waiting with ⟨rfl, defer⟩ | ⟨rfl, backoff⟩
    · refine ⟨fun nearest => ⟨_, congrArg Host.Outcome.next
        (whenReached_wait takeRelayWait endsWait_relayDue running holding away nothing waits defer nearest), ?_⟩,
        fun nearest outlasts => congrArg Host.Outcome.next
          (whenReached_outlasts _ endsWait_relayDue running holding away nothing waits defer nearest outlasts)⟩
      unfold takeRelayWait
      rw [line]
      simp [runClock, LineInterface.run, defer, idleGap]
    · refine ⟨fun nearest => ⟨_, congrArg Host.Outcome.next
        (whenReached_wait takeBackoff endsWait_backoffDue running holding away nothing waits backoff nearest), ?_⟩,
        fun nearest outlasts => congrArg Host.Outcome.next
          (whenReached_outlasts _ endsWait_backoffDue running holding away nothing waits backoff nearest outlasts)⟩
      unfold takeBackoff
      rw [line]
      simp [runClock, LineInterface.run, backoff, idleGap]
  · exact exec_idleGapMet_after away other first (gapDue_of_ready defer wait idle (next_isSome next))
  · intro whole f rest toSend
    obtain ⟨next, behind⟩ := next_rest toSend
    have met := gapDue_of_ready defer wait idle (by rw [next]; rfl)
    have taken : exec .idleGapMet s = .next (meetGap s) := congrArg Host.Outcome.next (whenReached_of_due _ met)
    rw [meetGap_next next behind] at taken
    have alike : SameClock s { s with line.queue := rest } := ⟨rfl, rfl, rfl, rfl, rfl, rfl⟩
    have bit : (Config.stampDraw s.draws).toNat ≤ 1 := Nat.le_of_lt_succ (Config.stampDraw s.draws).isLt
    have ahead : stampFor { s with line.queue := rest } =
        (clockAhead (whole + (Config.stampDraw s.draws).toNat) s).clock.reading :=
      congrArg StationClock.reading (alike.clockAhead _).clock
    obtain ⟨k, one, same, told⟩ := stamp_says s whole _ bit
    rw [ahead] at taken
    refine ⟨_, _, taken, rfl, fun other => stamped_of_not_time other _, fun c time => ?_, lineBytes_eq _ _⟩
    refine ⟨k, _, one, by rw [time]; rfl, same, fun u first sound holding => ?_⟩
    obtain ⟨steady, slewed⟩ := told u (roundFirst_of_exec first) sound holding
    refine ⟨fun zero below => ?_, fun boundary below => ?_⟩
    · exact steady zero (by omega)
    · exact slewed boundary (by omega)

end

section
/-! What the requests to the Plan Store and the slots of a part just reset show (R33 to R35, R37), and the requests that read
the port, a slot and the timetable (R30, R53, R205). -/

set_option Elab.async false

namespace Sys2Proof.Machine

/-! ### The slots -/

/-- Every slot of the store after a power-on reset is EMPTY (R37). -/
theorem reset_slot (n : Nat) : PlanStore.reset.slot n = Slot.empty := by
  rw [slot_eq_get]
  split
  · exact Vector.getElem_replicate _
  · rfl

/-- In a sound store no slot but the STAGED one is STAGED (R22). -/
theorem PlanStore.Sound.not_staged {store : PlanStore} (sound : store.Sound) {n m : Nat} (staged : (store.slot n).state = .staged)
    (other : m ≠ n) : (store.slot m).state ≠ .staged :=
  fun h => other (((store_sound_iff store).mp sound).2.1 m n h staged)

/-- In a sound store no slot but the ACTIVE one is ACTIVE (R22). -/
theorem PlanStore.Sound.not_active {store : PlanStore} (sound : store.Sound) {n m : Nat} (active : (store.slot n).state = .active)
    (other : m ≠ n) : (store.slot m).state ≠ .active :=
  fun h => other (((store_sound_iff store).mp sound).1 m n h active)

theorem stage_none {store : PlanStore} {n : Nat} (h : (store.slot n).state = .empty) : store.stage n = none := by
  simp [PlanStore.stage, h]

theorem activate_none {store : PlanStore} {n : Nat} (h : (store.slot n).state = .empty) : store.activate n = none := by
  simp [PlanStore.activate, h]

/-- A stage request is refused for an EMPTY slot alone (R33). -/
theorem stage_some {store : PlanStore} {n : Nat} (h : (store.slot n).state ≠ .empty) : ∃ u, store.stage n = some u := by
  unfold PlanStore.stage
  split
  · exact ⟨_, rfl⟩
  · exact ⟨_, rfl⟩
  · exact ⟨_, rfl⟩
  · exact absurd ‹_› h

/-- An activate request is refused for an EMPTY slot alone (R34). -/
theorem activate_some {store : PlanStore} {n : Nat} (h : (store.slot n).state ≠ .empty) : ∃ u, store.activate n = some u := by
  unfold PlanStore.activate
  split
  · exact ⟨_, rfl⟩
  · exact ⟨_, rfl⟩
  · exact ⟨_, rfl⟩
  · exact absurd ‹_› h

/-- The slot a stage request names: an ACTIVE one stays so, any other is STAGED (R33). -/
theorem stage_state_same {store u : PlanStore} {n : Nat} (h : store.stage n = some u) :
    (u.slot n).state = if (store.slot n).state = .active then .active else .staged := by
  have filled := slot_stage_empty h
  rw [slot_stage h]
  cases state : (store.slot n).state with
  | empty => exact absurd state filled
  | stored => simp
  | staged => simp [state]
  | active => simp [state]

/-- Of the other slots a stage request changes the STAGED one alone (R33, R35). -/
theorem stage_state_other {store u : PlanStore} {n m : Nat} (sound : store.Sound) (h : store.stage n = some u) (other : m ≠ n) :
    (u.slot m).state = if (store.slot m).state = .staged then .stored else (store.slot m).state := by
  rw [slot_stage h]
  by_cases already : (store.slot n).state = .staged
  · rw [if_pos already, if_neg (sound.not_staged already other)]
  · rw [if_neg already, if_neg fun named => other named.1]
    split <;> rfl

/-- The slot an activate request names is ACTIVE (R34). -/
theorem activate_state_same {store u : PlanStore} {n : Nat} (h : store.activate n = some u) : (u.slot n).state = .active := by
  rw [slot_activate h, if_pos rfl]
  split
  · assumption
  · rfl

/-- Of the other slots an activate request changes the ACTIVE one alone (R34). -/
theorem activate_state_other {store u : PlanStore} {n m : Nat} (sound : store.Sound) (h : store.activate n = some u)
    (other : m ≠ n) : (u.slot m).state = if (store.slot m).state = .active then .stored else (store.slot m).state := by
  rw [slot_activate h]
  by_cases already : (store.slot n).state = .active
  · rw [if_pos already, if_neg (sound.not_active already other)]
  · rw [if_neg already, if_neg other]
    split <;> rfl

theorem clearStaged_state (store : PlanStore) (n : Nat) :
    (store.clearStaged.slot n).state = if (store.slot n).state = .staged then .stored else (store.slot n).state := by
  rw [slot_clearStaged]
  split <;> rfl

/-! ### Fields of short bodies -/

@[simp] theorem field_first (b : Byte) (rest : List Byte) : field (b :: rest) 0 1 = b.toNat := by
  simp [field, readBe]

@[simp] theorem field_second (a b : Byte) (rest : List Byte) : field (a :: b :: rest) 1 1 = b.toNat := by
  simp [field, readBe]

theorem planNumber_iff {n : Nat} : planNumber n = true ↔ 1 ≤ n ∧ n ≤ 32 := by
  simp [planNumber, within]

/-! ### The reads -/

theorem planAnswer_eq (slot : Slot) :
    planAnswer slot =
      [BitVec.ofNat 8 slot.state.code, if slot.pinned then 1 else 0]
        ++ match slot.plan with
          | some p => be 2 p.signature.toNat ++ planBytes p.plan
          | none => [] := by
  obtain ⟨state, plan, pinned⟩ := slot
  cases pinned <;> cases plan <;> rfl

/-- READ_PLAN for a plan number shows its slot (R30). -/
theorem exec_readPlan (seq : Byte) {body : List Byte} (length : body.length = 1) (s : State)
    (number : 1 ≤ field body 0 1 ∧ field body 0 1 ≤ 32) :
    exec (.readPlan seq body) s = .next (s.answered 0x12 seq .done (planAnswer (s.slot (field body 0 1)))) := by
  have fits : lengthIs 1 body = true := decide_eq_true length
  have work : readPlanWork body (discardHeld s) = (discardHeld s, done (planAnswer (s.slot (field body 0 1)))) := by
    rw [← discardHeld_slot s]
    exact if_pos (planNumber_iff.mpr number)
  change Host.Outcome.next (serve 0x12 seq (lengthIs 1 body) .both (readPlanWork body) s) = _
  rw [fits, serve_reading 0x12 seq _ s _ work]
  rfl

theorem exec_readPlan_range (seq : Byte) {body : List Byte} (length : body.length = 1) (s : State)
    (number : ¬ (1 ≤ field body 0 1 ∧ field body 0 1 ≤ 32)) :
    exec (.readPlan seq body) s = .next (s.answered 0x12 seq .range []) := by
  have fits : lengthIs 1 body = true := decide_eq_true length
  change Host.Outcome.next (serve 0x12 seq (lengthIs 1 body) .both (readPlanWork body) s) = _
  rw [fits, serve_reading 0x12 seq _ s (plain .range) (if_neg (by rwa [planNumber_iff]))]
  rfl

theorem entryBytes_eq (e : Entry) : e.bytes = (entryFields e).flatten := by
  simp [Entry.bytes, entryFields, setBytes_eq]

theorem dayBytes_eq (d : SpecialDay) : d.bytes = (dayFields d).flatten := by
  simp [SpecialDay.bytes, dayFields]

theorem sourceBytes_eq (source : Source) :
    source.bytes =
      be 1 source.code ++ absentOr 1 (source.days.map (be 1)) ++ absentOr 4 (source.start.map (be 4)) := by
  rw [Source.bytes, optNat_eq, optNat_eq]

/-- READ_TIMETABLE's answer is the fields of R53, whichever list it shows. -/
theorem timetableAnswer_eq {α : Type} (first : Nat) (l : List α) (bytes : α → List Byte) (fields : α → List (List Byte))
    (h : ∀ x, bytes x = (fields x).flatten) (s : State) :
    timetableAnswer first (l.map bytes) s = (timetableFields first (l.map fields) s).flatten := by
  have page : collection (page first (l.map bytes)) = counted (((l.map fields).drop (first - 1)).take 16) := by
    rw [Machine.page, ← List.map_drop, ← List.map_take, ← List.map_drop, ← List.map_take, collection_eq _ bytes fields h]
  have day : s.clock.reading.day = s.clock.reading.ms / 86400000 := rfl
  unfold timetableAnswer timetableFields
  rw [page, sourceBytes_eq, day]
  cases s.timetable.source <;> simp [Source.days, Source.start]

theorem timetableFields_discardHeld (first : Nat) (items : List (List (List Byte))) (s : State) :
    timetableFields first items (discardHeld s) = timetableFields first items s := by
  simp only [timetableFields, discardHeld_timetable, discardHeld_clock]

/-- A request to read the timetable, by the answer of its work. -/
theorem exec_readTimetable (seq selector first : Byte) (s : State) {a : Answer}
    (work : readTimetableWork [selector, first] (discardHeld s) = (discardHeld s, a)) :
    exec (.readTimetable seq [selector, first]) s = .next (s.answered 0x1A seq a.code a.body) :=
  serve_reading 0x1A seq _ s a work

/-- A page of the entries, for a position of theirs; RANGE for any other (R53). -/
theorem readTimetable_entries (first : Byte) (s : State) :
    readTimetableWork [0, first] s =
      if 1 ≤ first.toNat ∧ first.toNat ≤ 64 then
        (s, done (timetableFields first.toNat (s.timetable.entries.map entryFields) s).flatten)
      else (s, plain .range) := by
  rw [← timetableAnswer_eq _ _ _ _ entryBytes_eq]
  simp [readTimetableWork, within]

/-- A page of the special days, for a position of theirs; RANGE for any other (R53). -/
theorem readTimetable_specials (first : Byte) (s : State) :
    readTimetableWork [1, first] s =
      if 1 ≤ first.toNat ∧ first.toNat ≤ 32 then
        (s, done (timetableFields first.toNat (s.timetable.specials.map dayFields) s).flatten)
      else (s, plain .range) := by
  rw [← timetableAnswer_eq _ _ _ _ dayBytes_eq]
  simp [readTimetableWork, within]

theorem readTimetable_selector {selector : Byte} (h : 1 < selector.toNat) (first : Byte) (s : State) :
    readTimetableWork [selector, first] s = (s, plain .range) := by
  unfold readTimetableWork
  rw [field_first]
  split
  · omega
  · omega
  · rfl

end Sys2Proof.Machine

open Sys2Proof Sys2Proof.Machine

/-- Settles O10. -/
theorem powerOnResetEmptiesEverySlot : Obligations.PowerOnResetEmptiesEverySlot := by
  intro s
  refine ⟨_, rfl, fun n _ _ => ?_⟩
  change (PlanStore.reset.slot n).state = .empty ∧ (PlanStore.reset.slot n).plan = none ∧ (PlanStore.reset.slot n).pinned = false
  rw [reset_slot]
  exact ⟨rfl, rfl, rfl⟩

/-- Settles O21, slot by slot. -/
theorem slotRequestsFollowTheirTables : Obligations.SlotRequestsFollowTheirTables := by
  intro store n sound
  refine ⟨fun empty => ⟨stage_none empty, activate_none empty⟩, fun filled => ?_,
    fun m => ⟨clearStaged_plan store m, clearStaged_state store m⟩⟩
  obtain ⟨u, staged⟩ := stage_some filled
  obtain ⟨v, active⟩ := activate_some filled
  exact ⟨u, v, staged, active, stage_sound staged sound, activate_sound active sound, stage_state_same staged,
    fun m other => stage_state_other sound staged other, activate_state_same active,
    fun m other => activate_state_other sound active other,
    fun m => ⟨stage_plan staged m, stage_pinned staged m, activate_plan active m, activate_pinned active m⟩⟩

/-- Settles O13: each of the three requests is served unchanged, and its answer is the fields of its rule. -/
theorem identifyPlanAndTimetableReadsShowThem : Obligations.IdentifyPlanAndTimetableReadsShowThem := by
  refine ⟨fun seq s => ?identify, fun seq n s => ⟨fun low high => ?plan, fun out => ?noPlan⟩, fun seq first s => ?timetable⟩
  case identify =>
    change Host.Outcome.next (serve 0x01 seq true .both (answering identifyBody) s) = _
    rw [serve_reading 0x01 seq (answering identifyBody) s (done (identifyBody (discardHeld s))) rfl, identifyBody,
      discardHeld_port_part]
    cases s.port.part <;> rfl
  case plan =>
    rw [exec_readPlan seq rfl s (by rw [field_first]; exact ⟨low, high⟩), field_first, planAnswer_eq]
    rfl
  case noPlan => exact exec_readPlan_range seq rfl s (by rwa [field_first])
  case timetable =>
    have entries := readTimetable_entries first (discardHeld s)
    have specials := readTimetable_specials first (discardHeld s)
    rw [timetableFields_discardHeld, discardHeld_timetable] at entries specials
    refine ⟨fun low high => ?_, fun low high => ?_, fun out => ?_, fun out => ?_, fun selector h => ?_⟩
    · exact exec_readTimetable seq 0 first s (entries.trans (if_pos ⟨low, high⟩))
    · exact exec_readTimetable seq 1 first s (specials.trans (if_pos ⟨low, high⟩))
    · exact exec_readTimetable seq 0 first s (entries.trans (if_neg (by omega)))
    · exact exec_readTimetable seq 1 first s (specials.trans (if_neg (by omega)))
    · exact exec_readTimetable seq selector first s (readTimetable_selector h first _)

end

section
/-! The eight checks of a plan (R23 to R25), each as a proposition, and the refusal that the first one not met decides. -/

set_option Elab.async false

namespace Sys2Proof.Machine

/-! ### The checks -/

/-- Check 1 of R25: the plan number. -/
def PlanRecord.Numbered (p : PlanRecord) : Prop := 1 ≤ p.number ∧ p.number ≤ 32

/-- Check 2 of R25: the slot is neither ACTIVE nor STAGED nor pinned. -/
def Slot.Free (slot : Slot) : Prop := slot.state ≠ .active ∧ slot.state ≠ .staged ∧ slot.pinned = false

/-- Check 3 of R25: the stage count. -/
def PlanRecord.Counted (p : PlanRecord) : Prop := 2 ≤ p.stageCount ∧ p.stageCount ≤ 8

/-- The ranges of a stage's fields (R24). -/
def StageRecord.Ranged (st : StageRecord) : Prop :=
  (1 ≤ st.split ∧ st.split ≤ 2400) ∧ (40 ≤ st.gmin ∧ st.gmin ≤ 600) ∧ st.ped ≤ 900 ∧ (30 ≤ st.yellow ∧ st.yellow ≤ 60)
    ∧ st.allRed ≤ 60
    ∧ ((st.demandClass = 0 ∧ st.demandInput = 0) ∨ (st.demandClass = 1 ∧ 1 ≤ st.demandInput ∧ st.demandInput ≤ 16))

/-- Check 4 of R25: the ranges of the header and of every stage (R23, R24). -/
def PlanRecord.Ranged (p : PlanRecord) : Prop :=
  ((300 ≤ p.cycle ∧ p.cycle ≤ 2400) ∧ p.offset < p.cycle ∧ p.tolerance ≤ 50 ∧ (5 ≤ p.lengthen ∧ p.lengthen ≤ 50)
      ∧ p.shorten ≤ 33 ∧ (1 ≤ p.transitions ∧ p.transitions ≤ 8))
    ∧ ∀ st ∈ p.stages, st.Ranged

/-- Check 5 of R25: no stage's green set is empty. -/
def PlanRecord.Shown (p : PlanRecord) : Prop := ∀ st ∈ p.stages, st.green ≠ 0

/-- Check 6 of R25: stage 1 is not ON_CALL. -/
def PlanRecord.Fixed (p : PlanRecord) : Prop := ∀ st, p.stages.head? = some st → st.demandClass ≠ 1

/-- Check 7 of R25: the splits make up the cycle. -/
def PlanRecord.Summed (p : PlanRecord) : Prop := (p.stages.map StageRecord.split).sum = p.cycle

/-- A split holds the greater of gmin and ped and the clearance. -/
def StageRecord.Holds (st : StageRecord) : Prop := max st.gmin st.ped + st.yellow + st.allRed ≤ st.split

/-- Check 8 of R25: every split is long enough. -/
def PlanRecord.Long (p : PlanRecord) : Prop := ∀ st ∈ p.stages, st.Holds

/-! ### The checks as the model makes them -/

theorem within_iff {low high n : Nat} : within low high n = true ↔ low ≤ n ∧ n ≤ high := by
  simp [within]

theorem slot_inUse_iff {slot : Slot} : slot.inUse = true ↔ ¬ slot.Free := by
  unfold Slot.inUse Slot.Free
  cases slot.pinned
  · simp
    tauto
  · simp

theorem stage_inRange_iff {st : StageRecord} : st.inRange = true ↔ st.Ranged := by
  simp [StageRecord.inRange, StageRecord.Ranged, within_iff, and_assoc]

theorem plan_inRange_iff {p : PlanRecord} :
    (p.headerInRange && p.stages.all StageRecord.inRange) = true ↔ p.Ranged := by
  simp [PlanRecord.headerInRange, PlanRecord.Ranged, within_iff, and_assoc, stage_inRange_iff]

theorem stage_longEnough_iff {st : StageRecord} : st.longEnough = true ↔ st.Holds := decide_eq_true_iff

/-- Without stages the model reads a stage of zeros, which is FIXED. -/
theorem firstStage_onCall_iff {p : PlanRecord} : (p.stages.headD (readStage [] 0)).onCall = true ↔ ¬ p.Fixed := by
  unfold PlanRecord.Fixed StageRecord.onCall
  cases p.stages with
  | nil => simp [readStage, field, readBe]
  | cons st rest => simp

/-! ### The first stage that fails -/

theorem firstFailing_eq_none {test : StageRecord → Bool} {stages : List StageRecord} :
    firstFailing test stages = none ↔ ∀ st ∈ stages, test st = true := by
  simp [firstFailing, List.findIdx?_eq_none_iff]

/-- The stage found fails the test, and every stage before it passes. -/
theorem firstFailing_eq_some {test : StageRecord → Bool} {p : PlanRecord} {k : Nat}
    (h : firstFailing test p.stages = some k) :
    (∃ st, p.stage k = some st ∧ test st = false)
      ∧ ∀ j x, 1 ≤ j → j < k → p.stage j = some x → test x = true := by
  obtain ⟨i, found, rfl⟩ := Option.map_eq_some_iff.mp h
  obtain ⟨bound, fails, passes⟩ := List.findIdx?_eq_some_iff_getElem.mp found
  refine ⟨⟨p.stages[i], by simp [PlanRecord.stage, bound], by simpa using fails⟩, fun j x low before at_j => ?_⟩
  have nonzero : j ≠ 0 := by omega
  simp only [PlanRecord.stage, nonzero, if_false] at at_j
  obtain ⟨inside, rfl⟩ := List.getElem?_eq_some_iff.mp at_j
  simpa using passes (j - 1) (by omega)

/-- Where some stage fails a test there is a first one. -/
theorem firstFailing_of_fails {test : StageRecord → Bool} {p : PlanRecord} (h : ¬ ∀ st ∈ p.stages, test st = true) :
    ∃ k, firstFailing test p.stages = some k :=
  Option.ne_none_iff_exists'.mp fun none => h (firstFailing_eq_none.mp none)

/-! ### The refusal -/

/-- A stage has a green set. -/
def StageRecord.shows (st : StageRecord) : Bool := decide (st.green ≠ 0)

open Classical in
/-- The refusal of R25: the first of the eight checks that is not met decides it. -/
theorem planRefusal_eq (store : PlanStore) (p : PlanRecord) :
    planRefusal store p =
      if ¬ p.Numbered then some (plain .range)
      else if ¬ (store.slot p.number).Free then some (plain .inUse)
      else if ¬ p.Counted then some (invalid .stageCount 0)
      else if ¬ p.Ranged then some (plain .range)
      else if ¬ p.Shown then (firstFailing StageRecord.shows p.stages).map (invalid .emptySet)
      else if ¬ p.Fixed then some (invalid .stage1OnCall 1)
      else if ¬ p.Summed then some (invalid .splitSum 0)
      else (firstFailing StageRecord.longEnough p.stages).map (invalid .splitShort) := by
  have number : (!planNumber p.number) = true ↔ ¬ p.Numbered := by
    rw [Bool.not_eq_true', ← Bool.not_eq_true, planNumber_iff, PlanRecord.Numbered]
  have count : (!within 2 8 p.stageCount) = true ↔ ¬ p.Counted := by
    rw [Bool.not_eq_true', ← Bool.not_eq_true, within_iff, PlanRecord.Counted]
  have ranges : (!(p.headerInRange && p.stages.all StageRecord.inRange)) = true ↔ ¬ p.Ranged := by
    rw [Bool.not_eq_true', ← Bool.not_eq_true, plan_inRange_iff]
  have shown : firstFailing StageRecord.shows p.stages = none ↔ p.Shown := by
    rw [firstFailing_eq_none]
    simp [StageRecord.shows, PlanRecord.Shown]
  unfold planRefusal
  refine ite_congr (propext number) (fun _ => rfl) fun _ => ?_
  refine ite_congr (propext slot_inUse_iff) (fun _ => rfl) fun _ => ?_
  refine ite_congr (propext count) (fun _ => rfl) fun _ => ?_
  refine ite_congr (propext ranges) (fun _ => rfl) fun _ => ?_
  have green : firstFailing (fun st => decide (st.green ≠ 0)) p.stages = firstFailing StageRecord.shows p.stages := rfl
  rw [green]
  cases first : firstFailing StageRecord.shows p.stages with
  | some k =>
    have empty : ¬ p.Shown := fun all => by rw [shown.mpr all] at first; cases first
    rw [if_pos empty]
    rfl
  | none =>
    rw [if_neg (not_not.mpr (shown.mp first))]
    exact ite_congr (propext firstStage_onCall_iff) (fun _ => rfl) fun _ => ite_congr rfl (fun _ => rfl) fun _ => rfl

theorem planRefusal_none_iff {store : PlanStore} {p : PlanRecord} :
    planRefusal store p = none ↔
      p.Numbered ∧ (store.slot p.number).Free ∧ p.Counted ∧ p.Ranged ∧ p.Shown ∧ p.Fixed ∧ p.Summed ∧ p.Long := by
  have shown : firstFailing StageRecord.shows p.stages = none ↔ p.Shown := by
    simp [firstFailing_eq_none, StageRecord.shows, PlanRecord.Shown]
  have long : firstFailing StageRecord.longEnough p.stages = none ↔ p.Long := by
    simp [firstFailing_eq_none, stage_longEnough_iff, PlanRecord.Long]
  rw [planRefusal_eq]
  split_ifs <;> simp_all

section
variable {store : PlanStore} {p : PlanRecord} (number : p.Numbered) (free : (store.slot p.number).Free) (count : p.Counted)
  (ranges : p.Ranged)
include number free count ranges

/-- The first stage whose green set is empty is named in the refusal (R25, check 5). -/
theorem planRefusal_emptySet (sets : ¬ p.Shown) :
    ∃ k, planRefusal store p = some (invalid .emptySet k) ∧ (p.stage k).map StageRecord.green = some 0
      ∧ ∀ j, 1 ≤ j → j < k → (p.stage j).map StageRecord.green ≠ some 0 := by
  have fails : ¬ ∀ st ∈ p.stages, st.shows = true := fun all => sets fun st h => of_decide_eq_true (all st h)
  obtain ⟨k, first⟩ := firstFailing_of_fails fails
  obtain ⟨⟨st, at_k, empty⟩, before⟩ := firstFailing_eq_some first
  refine ⟨k, ?_, ?_, fun j low under at_j => ?_⟩
  · simp only [planRefusal_eq, number, free, count, ranges, sets, not_true, not_false_eq_true, if_false, if_true, first,
      Option.map_some]
  · simpa [at_k, StageRecord.shows] using empty
  · obtain ⟨x, stage, green⟩ := Option.map_eq_some_iff.mp at_j
    exact of_decide_eq_true (before j x low under stage) green

open Classical in
theorem planRefusal_after_sets (sets : p.Shown) :
    planRefusal store p =
      if ¬ p.Fixed then some (invalid .stage1OnCall 1)
      else if ¬ p.Summed then some (invalid .splitSum 0)
      else (firstFailing StageRecord.longEnough p.stages).map (invalid .splitShort) := by
  simp only [planRefusal_eq, number, free, count, ranges, sets, not_true, if_false]

/-- The first stage whose split is too short is named in the refusal (R25, check 8). -/
theorem planRefusal_splitShort (sets : p.Shown) (fixed : p.Fixed) (sum : p.Summed) (long : ¬ p.Long) :
    ∃ k st, planRefusal store p = some (invalid .splitShort k) ∧ p.stage k = some st ∧ ¬ st.Holds
      ∧ ∀ j x, 1 ≤ j → j < k → p.stage j = some x → x.Holds := by
  have fails : ¬ ∀ st ∈ p.stages, st.longEnough = true := fun all => long fun st h => stage_longEnough_iff.mp (all st h)
  obtain ⟨k, first⟩ := firstFailing_of_fails fails
  obtain ⟨⟨st, at_k, short⟩, before⟩ := firstFailing_eq_some first
  refine ⟨k, st, ?_, at_k, fun holds => Bool.false_ne_true (short.symm.trans (stage_longEnough_iff.mpr holds)),
    fun j x low under at_j => stage_longEnough_iff.mp (before j x low under at_j)⟩
  rw [planRefusal_after_sets number free count ranges sets, if_neg (not_not.mpr fixed), if_neg (not_not.mpr sum), first]
  rfl

end

/-- LOAD_PLAN of a plan that fails a check is answered with its refusal and changes nothing else (R25). -/
theorem exec_loadPlan_refused (seq : Byte) {body : List Byte} {s : State} {a : Answer} (length : planLengthIs body = true)
    (refused : planRefusal s.store (readPlan body) = some a) :
    exec (.loadPlan seq body) s = .next (s.answered 0x10 seq a.code a.body) := by
  have work : loadPlanWork body (discardHeld s) = (discardHeld s, a) := by
    unfold loadPlanWork
    dsimp only
    rw [discardHeld_store, refused]
  change Host.Outcome.next (serve 0x10 seq (planLengthIs body) .both (loadPlanWork body) s) = _
  rw [length, serve_reading 0x10 seq _ s _ work]

end Sys2Proof.Machine

open Sys2Proof Sys2Proof.Machine

/-- Settles O18, check by check. -/
theorem plansAreCheckedInOrder : Obligations.PlansAreCheckedInOrder := by
  refine ⟨fun seq body s a length refused => exec_loadPlan_refused seq length refused, fun store p => ?_⟩
  refine ⟨planRefusal_none_iff, ?number, ?free, ?count, ?ranges, ?sets, ?fixed, ?sum, ?long⟩
  case number =>
    intro (number : ¬ p.Numbered)
    rw [planRefusal_eq, if_pos number]
  case free =>
    intro (number : p.Numbered) (free : ¬ (store.slot p.number).Free)
    simp only [planRefusal_eq, number, not_true, if_false, free, not_false_eq_true, if_true]
  case count =>
    intro (number : p.Numbered) (free : (store.slot p.number).Free) (count : ¬ p.Counted)
    simp only [planRefusal_eq, number, free, not_true, if_false, count, not_false_eq_true, if_true]
  case ranges =>
    intro (number : p.Numbered) (free : (store.slot p.number).Free) (count : p.Counted) (ranges : ¬ p.Ranged)
    simp only [planRefusal_eq, number, free, count, not_true, if_false, ranges, not_false_eq_true, if_true]
  case sets => exact fun number free count ranges sets => planRefusal_emptySet number free count ranges sets
  case fixed =>
    intro number free count ranges sets (fixed : ¬ p.Fixed)
    rw [planRefusal_after_sets number free count ranges sets, if_pos fixed]
  case sum =>
    intro number free count ranges sets (fixed : p.Fixed) (sum : ¬ p.Summed)
    rw [planRefusal_after_sets number free count ranges sets, if_neg (not_not.mpr fixed), if_pos sum]
  case long =>
    exact fun number free count ranges sets fixed sum long =>
      planRefusal_splitShort number free count ranges sets fixed sum long

end

section
/-! Request packets, plan bodies and the bodies of ORDER and CANCEL frames read back as what they were written from (R27, R201,
R213, R215). -/

set_option Elab.async false

namespace Sys2Proof.Machine

/-! ### Fields of a run of written numbers -/

/-- A field that lies behind the first number of a run. -/
theorem field_skip {m o : Nat} (h : m ≤ o) (v n : Nat) (rest : List Byte) :
    field (be m v ++ rest) o n = field rest (o - m) n := by
  rw [field_right _ _ _ _ (by simpa using h), be_length]

/-- The field of a run that is one number. -/
theorem field_be_only (n v : Nat) : field (be n v) 0 n = v % 256 ^ n := by
  have := field_be n v []
  rwa [List.append_nil] at this

/-- A field of a run with its beginning left out. -/
theorem field_drop (body : List Byte) (o i n : Nat) : field (body.drop o) i n = field body (o + i) n := by
  unfold field
  rw [List.drop_drop]

/-- A set or a signature written and read back. -/
theorem ofNat_toNat_mod (set : BitVec 16) : BitVec.ofNat 16 (set.toNat % 65536) = set := by
  apply BitVec.eq_of_toNat_eq
  simpa using set.isLt

/-- A set or a signature read and written again. -/
theorem toNat_ofNat_field (body : List Byte) (o : Nat) : (BitVec.ofNat 16 (field body o 2)).toNat = field body o 2 := by
  rw [BitVec.toNat_ofNat]
  exact Nat.mod_eq_of_lt (field_lt body o 2)

/-- What stands before a field and the field itself, written again. -/
theorem take_append_field {body : List Byte} {o n : Nat} (h : o + n ≤ body.length) :
    body.take o ++ be n (field body o n) = body.take (o + n) := by
  rw [be_field body o n h, ← List.take_add]

/-! ### Frame bodies -/

theorem timeFits_iff {t : NetTime} : timeFits t = true ↔ t.week < 65536 ∧ t.ms < 4294967296 := by
  simp [timeFits]

theorem orderBody_length (o : OrderContent) : (orderBodyBytes o).length = 28 := by
  simp [orderBodyBytes]

theorem cancelBody_length (c : CancelContent) : (cancelBodyBytes c).length = 18 := by
  simp [cancelBodyBytes]

theorem readOrderBody_orderBodyBytes {o : OrderContent} (fits : o.fits = true) : readOrderBody (orderBodyBytes o) = o := by
  simp only [OrderContent.fits, Bool.and_eq_true, decide_eq_true_eq, timeFits_iff] at fits
  obtain ⟨⟨⟨⟨⟨⟨⟨⟨origin, stamp⟩, revision⟩, plan⟩, start⟩, finish⟩, priority⟩, hop⟩, announce⟩ := fits
  simp [readOrderBody, orderBodyBytes, timeBytes, timeField, List.append_assoc, field_skip, field_be, field_be_only,
    ofNat_toNat_mod, Nat.mod_eq_of_lt, origin, stamp, revision, plan, start, finish, priority, hop, announce]

theorem readCancelBody_cancelBodyBytes {c : CancelContent} (fits : c.fits = true) : readCancelBody (cancelBodyBytes c) = c := by
  simp only [CancelContent.fits, Bool.and_eq_true, decide_eq_true_eq, timeFits_iff] at fits
  obtain ⟨⟨⟨⟨⟨origin, stamp⟩, revision⟩, finish⟩, hop⟩, announce⟩ := fits
  simp [readCancelBody, cancelBodyBytes, timeBytes, timeField, List.append_assoc, field_skip, field_be, field_be_only,
    ofNat_toNat_mod, Nat.mod_eq_of_lt, origin, stamp, revision, finish, hop, announce]

/-! ### A stage record -/

@[simp] theorem stageBytes_length (st : StageRecord) : (stageBytes st).length = 12 := by
  simp [stageBytes]

/-- The stage record that a run begins with. -/
theorem readStage_stageBytes {st : StageRecord} (fits : st.fits = true) (rest : List Byte) :
    readStage (stageBytes st ++ rest) 0 = st := by
  simp only [StageRecord.fits, Bool.and_eq_true, decide_eq_true_eq] at fits
  obtain ⟨⟨⟨⟨⟨⟨split, gmin⟩, ped⟩, yellow⟩, allRed⟩, demandClass⟩, demandInput⟩ := fits
  simp [readStage, stageBytes, List.append_assoc, field_skip, field_be, ofNat_toNat_mod, Nat.mod_eq_of_lt, split, gmin, ped,
    yellow, allRed, demandClass, demandInput]

/-- A stage record that lies behind the first part of a run. -/
theorem readStage_right {a b : List Byte} {o : Nat} (h : a.length ≤ o) : readStage (a ++ b) o = readStage b (o - a.length) := by
  have skip : ∀ i n, field (a ++ b) (o + i) n = field b (o - a.length + i) n := fun i n => by
    rw [field_right _ _ _ _ (by omega), Nat.sub_add_comm h]
  have first : field (a ++ b) o 2 = field b (o - a.length) 2 := skip 0 2
  simp only [readStage, first, skip]

/-- The stages of a run of stage records. -/
theorem readStage_stages {stages : List StageRecord} (fits : ∀ st ∈ stages, st.fits = true) {k : Nat} (h : k < stages.length) :
    readStage (stages.map stageBytes).flatten (12 * k) = stages[k] := by
  induction stages generalizing k with
  | nil => exact absurd h (Nat.not_lt_zero k)
  | cons st rest ih =>
    rw [List.map_cons, List.flatten_cons]
    cases k with
    | zero => exact readStage_stageBytes (fits st List.mem_cons_self) _
    | succ k =>
      have next : 12 * (k + 1) - (stageBytes st).length = 12 * k := by rw [stageBytes_length]; omega
      rw [readStage_right (by rw [stageBytes_length]; omega), next]
      exact ih (fun st h => fits st (List.mem_cons_of_mem _ h)) (Nat.lt_of_succ_lt_succ h)

/-- A stage record read from a run and written again. -/
theorem stageBytes_readStage {body : List Byte} {o : Nat} (h : o + 12 ≤ body.length) :
    stageBytes (readStage body o) = (body.drop o).take 12 := by
  have length : 12 ≤ (body.drop o).length := by rw [List.length_drop]; omega
  have first : be 2 (field body o 2) = (body.drop o).take 2 := be_field body o 2 (by omega)
  simp only [stageBytes, readStage, toNat_ofNat_field, first]
  simp (disch := omega) only [← field_drop, take_append_field]

/-! ### Plan bodies -/

theorem planLengthIs_iff {body : List Byte} :
    planLengthIs body = true ↔ 10 ≤ body.length ∧ body.length = 10 + 12 * field body 9 1 := by
  simp [planLengthIs]

/-- The stage records of a run from an offset on, written one after the other. -/
theorem stages_written (body : List Byte) (o n : Nat) (h : o + 12 * n ≤ body.length) :
    (((List.range n).map fun k => readStage body (o + 12 * k)).map stageBytes).flatten = (body.drop o).take (12 * n) := by
  induction n with
  | zero => simp
  | succ n ih =>
    have last : stageBytes (readStage body (o + 12 * n)) = ((body.drop o).drop (12 * n)).take 12 := by
      rw [stageBytes_readStage (by omega), List.drop_drop]
    rw [List.range_succ, List.map_append, List.map_append, List.flatten_append, ih (by omega), List.map_singleton,
      List.map_singleton, List.flatten_singleton, last, ← List.take_add]
    rfl

/-- A plan body read and written again (R27). -/
theorem planBytes_readPlan {body : List Byte} (length : planLengthIs body = true) : planBytes (readPlan body) = body := by
  obtain ⟨header, stages⟩ := planLengthIs_iff.mp length
  have written := stages_written body 10 (field body 9 1) (by omega)
  have rest : (body.drop 10).take (12 * field body 9 1) = body.drop 10 :=
    List.take_of_length_le (by rw [List.length_drop]; omega)
  have first : be 1 (field body 0 1) = body.take 1 := be_field body 0 1 (by omega)
  simp only [planBytes, readPlan]
  rw [written, rest]
  simp (disch := omega) [first, take_append_field]

theorem planBytes_length (p : PlanRecord) : (planBytes p).length = 10 + 12 * p.stages.length := by
  have stages : (p.stages.map stageBytes).flatten.length = 12 * p.stages.length := by
    induction p.stages with
    | nil => rfl
    | cons st rest ih => simp [ih]; omega
  simp only [planBytes, List.length_append, be_length, stages]

theorem plan_fits_iff {p : PlanRecord} :
    p.fits = true ↔
      p.number < 256 ∧ p.cycle < 65536 ∧ p.offset < 65536 ∧ p.tolerance < 256 ∧ p.lengthen < 256 ∧ p.shorten < 256
        ∧ p.transitions < 256 ∧ p.stageCount < 256 ∧ p.stages.length = p.stageCount ∧ ∀ st ∈ p.stages, st.fits = true := by
  simp [PlanRecord.fits, and_assoc]

/-- The stage count stands in the tenth byte of a plan body. -/
theorem planBytes_stageCount {p : PlanRecord} (fits : p.fits = true) : field (planBytes p) 9 1 = p.stages.length := by
  obtain ⟨-, -, -, -, -, -, -, small, count, -⟩ := plan_fits_iff.mp fits
  simp [planBytes, List.append_assoc, field_skip, field_be, Nat.mod_eq_of_lt small, count]

/-- The stages of a plan body. -/
theorem planBytes_stage {p : PlanRecord} (fits : p.fits = true) {k : Nat} (h : k < p.stages.length) :
    readStage (planBytes p) (10 + 12 * k) = p.stages[k] := by
  obtain ⟨-, -, -, -, -, -, -, -, -, stages⟩ := plan_fits_iff.mp fits
  rw [planBytes, readStage_right (by simp)]
  simpa using readStage_stages stages h

/-- A plan read from its canonical body (R27). -/
theorem readPlan_planBytes {p : PlanRecord} (fits : p.fits = true) : readPlan (planBytes p) = p := by
  have stages : (List.range p.stages.length).map (fun k => readStage (planBytes p) (10 + 12 * k)) = p.stages :=
    List.ext_getElem (by simp) fun k _ h => by simp [planBytes_stage fits h]
  have stageCount := planBytes_stageCount fits
  obtain ⟨number, cycle, offset, tolerance, lengthen, shorten, transitions, -, count, -⟩ := plan_fits_iff.mp fits
  unfold readPlan
  rw [stageCount, stages, count]
  simp [planBytes, List.append_assoc, field_skip, field_be, Nat.mod_eq_of_lt, number, cycle, offset, tolerance, lengthen,
    shorten, transitions]

theorem planLengthIs_planBytes {p : PlanRecord} (fits : p.fits = true) : planLengthIs (planBytes p) = true := by
  rw [planLengthIs_iff, planBytes_stageCount fits, planBytes_length]
  omega

/-! ### Request packets -/

/-- A request packet is sound: its length and its CRC agree (R201, check 1). -/
theorem requestPacket_sound (code seq : Byte) {body : List Byte} (fits : body.length ≤ 255) :
    packetSound (requestPacket code seq body) = true ∧ field (requestPacket code seq body) 2 1 = body.length := by
  have length : field (requestPacket code seq body) 2 1 = body.length := by
    simp [requestPacket, withCrc, field, readBe]
    omega
  refine ⟨?_, length⟩
  have crc : (crc16 (code :: seq :: BitVec.ofNat 8 body.length :: body)).toNat < 256 ^ 2 := BitVec.isLt _
  have head : (code :: seq :: BitVec.ofNat 8 body.length :: body).length = 3 + body.length := by simp; omega
  rw [packetSound, length, requestPacket, withCrc, field_right _ _ _ _ head.le, List.take_left' head, head, Nat.sub_self,
    field_be_only, Nat.mod_eq_of_lt crc]
  simp
  omega

/-- A request packet is read as the request of its code (R201, R215). -/
theorem commandOfPacket_requestPacket (code seq : Byte) {body : List Byte} (fits : body.length ≤ 255) :
    commandOfPacket (requestPacket code seq body) = requestOfCode code seq body := by
  obtain ⟨sound, length⟩ := requestPacket_sound code seq fits
  unfold commandOfPacket
  rw [if_pos sound, length]
  simp [requestPacket, withCrc]

/-- A code that is no request's (R201, check 2). -/
theorem requestOfCode_unknown {code : Byte} (h : code ∉ requestCodes) (seq : Byte) (body : List Byte) :
    requestOfCode code seq body = .unknownRequest code seq body := by
  have codes : ∀ k ∈ requestCodes, code.toNat ≠ k.toNat := fun k known same => h (BitVec.eq_of_toNat_eq same ▸ known)
  simp only [requestCodes, List.forall_mem_cons] at codes
  unfold requestOfCode
  split
  case h_24 => rfl
  all_goals simp_all

/-- A request read from the packet it is written to (R201, R215). -/
theorem commandOfPacket_packetOfCommand {c : Instr} {p : List Byte} (well : wellFormed c = true)
    (packet : packetOfCommand c = some p) : commandOfPacket p = c := by
  unfold packetOfCommand at packet
  split at packet
  case h_24 code seq body =>
    cases packet
    simp only [wellFormed, Bool.and_eq_true, decide_eq_true_eq] at well
    rw [commandOfPacket_requestPacket _ _ well.1, requestOfCode_unknown well.2]
  case h_25 packet' =>
    cases packet
    simp only [wellFormed, Bool.not_eq_true'] at well
    simp [commandOfPacket, well]
  case h_26 => cases packet
  all_goals
    cases packet
    exact commandOfPacket_requestPacket _ _ (of_decide_eq_true well)

end Sys2Proof.Machine

open Sys2Proof Sys2Proof.Machine

/-- Settles O6: packets, plan bodies, ORDER and CANCEL bodies. -/
theorem packetsAndBodiesReadBack : Obligations.PacketsAndBodiesReadBack :=
  ⟨fun _ _ => commandOfPacket_packetOfCommand,
    ⟨fun _ fits => ⟨planLengthIs_planBytes fits, readPlan_planBytes fits⟩, fun _ => planBytes_readPlan⟩,
    fun o fits => ⟨by rw [orderBody_length]; decide, readOrderBody_orderBodyBytes fits⟩,
    fun c fits => ⟨by rw [cancelBody_length]; decide, readCancelBody_cancelBodyBytes fits⟩⟩

end

section
/-! What raising and withdrawing faults, delivering an effective action and adopting a plan leave beside what `Kept` names: the
whole Timetable, the whole Order Handler, and a Coordinator that flash has suspended (R99, R100). -/

set_option Elab.async false

namespace Sys2Proof.Machine

/-- The Coordinator is in SUSPENDED with cause FLASH and no cycle stands (R82, R100). -/
structure Coordinator.Cut (c : Coordinator) : Prop where
  state : c.state = .suspended
  cause : c.cause = some .flash
  position : c.position = 0
  figures : c.figures = none

/-- The Timetable and the Order Handler stay, and so does a suspension by flash. -/
structure Aside (s t : State) : Prop where
  timetable : t.timetable = s.timetable
  orders : t.orders = s.orders
  cut : s.coord.Cut → t.coord.Cut

theorem Aside.refl (s : State) : Aside s s := ⟨rfl, rfl, id⟩

theorem Aside.trans {s t u : State} (h : Aside s t) (k : Aside t u) : Aside s u :=
  ⟨k.timetable.trans h.timetable, k.orders.trans h.orders, fun cut => k.cut (h.cut cut)⟩

/-- A change outside the Timetable, the Order Handler and the Coordinator. -/
theorem Aside.plain {s t : State} (timetable : t.timetable = s.timetable := by rfl) (orders : t.orders = s.orders := by rfl)
    (coord : t.coord = s.coord := by rfl) : Aside s t :=
  ⟨timetable, orders, fun cut => coord ▸ cut⟩

/-- A change that leaves the four fields of a suspension. -/
theorem Aside.coord {s t : State} (timetable : t.timetable = s.timetable := by rfl) (orders : t.orders = s.orders := by rfl)
    (state : t.coord.state = s.coord.state := by rfl) (cause : t.coord.cause = s.coord.cause := by rfl)
    (position : t.coord.position = s.coord.position := by rfl) (figures : t.coord.figures = s.coord.figures := by rfl) :
    Aside s t :=
  ⟨timetable, orders, fun cut =>
    ⟨state.trans cut.state, cause.trans cut.cause, position.trans cut.position, figures.trans cut.figures⟩⟩

theorem aside_post (r : ReportBody) (s : State) : Aside s (post r s) :=
  .plain (post_timetable r s) (post_orders r s) (post_coord r s)

theorem aside_foldl {α : Type} (f : State → α → State) (h : ∀ s a, Aside s (f s a)) (l : List α) (s : State) :
    Aside s (l.foldl f s) := by
  induction l generalizing s with
  | nil => exact Aside.refl s
  | cons a l ih => exact (h s a).trans (ih _)

/-! ### Fault records -/

theorem aside_raiseRecord (c : FaultClass) (detail : Option Nat) (s : State) : Aside s (raiseRecord c detail s) := by
  unfold raiseRecord
  dsimp only
  split
  · split
    · exact .plain
    all_goals exact Aside.trans .plain (aside_post _ _)
  · exact Aside.refl s

theorem aside_withdrawRecord (c : FaultClass) (s : State) : Aside s (withdrawRecord c s) := by
  unfold withdrawRecord
  dsimp only
  split
  · exact Aside.refl s
  · exact Aside.refl s
  · exact Aside.trans .plain (aside_post _ _)

/-! ### The Coordinator -/

theorem aside_emptyTransition (s : State) : Aside s (emptyTransition s) := by
  unfold emptyTransition
  dsimp only
  split
  · exact Aside.trans .coord (aside_withdrawRecord _ _)
  · exact .coord

/-- A change of the coordination state where no suspension stands. -/
theorem aside_setCoord (state : CoordState) (cause : Option SuspensionCause) {s : State} (h : s.coord.state ≠ .suspended) :
    Aside s (setCoord state cause s) :=
  ⟨setCoord_timetable _ _ s, setCoord_orders _ _ s, fun cut => absurd cut.state h⟩

/-- An isolation change leaves a Coordinator in SUSPENDED as it is (R83). -/
theorem isolationChange_suspended {s : State} (h : s.coord.state = .suspended) : isolationChange s = s := by
  unfold isolationChange
  rw [h]

theorem aside_isolationChange (s : State) : Aside s (isolationChange s) := by
  unfold isolationChange
  split
  · rename_i state
    split
    · exact (aside_setCoord _ _ (by rw [state]; decide)).trans (aside_emptyTransition _)
    · exact Aside.refl s
  · rename_i state
    split
    · exact (aside_setCoord _ _ (by rw [state]; decide)).trans (aside_emptyTransition _)
    · exact Aside.refl s
  · rename_i state
    split
    · exact Aside.refl s
    · exact (aside_setCoord .correcting none (by rw [state]; decide)).trans .coord
  · exact Aside.refl s
  · exact Aside.refl s

theorem aside_putForward (a : Adoption) (s : State) : Aside s (putForward a s) := by
  unfold putForward
  split
  · split
    · exact .coord
    · exact Aside.refl s
  · split
    · exact Aside.refl s
    · split
      · exact .coord
      · exact Aside.trans .coord (aside_post _ _)

theorem aside_setFallback (s : State) : Aside s (setFallback s) := Aside.trans .coord (aside_putForward _ _)

theorem aside_clearFallback (s : State) : Aside s (clearFallback s) := by
  unfold clearFallback
  split
  · dsimp only
    split
    · exact Aside.trans .coord (aside_putForward _ _)
    · split <;> exact .coord
  · exact Aside.refl s

theorem aside_deliverCoordinator (action : FaultAction) (s : State) : Aside s (deliverCoordinator action s) := by
  refine (aside_isolationChange s).trans ?_
  unfold deliverCoordinator
  cases action
  · exact aside_clearFallback _
  · exact aside_clearFallback _
  · exact aside_setFallback _
  · exact Aside.refl _

/-- Flash suspends the Coordinator, and leaves it so where it already has (R100). -/
theorem aside_suspend_flash (s : State) : Aside s (suspend .flash s) := by
  have emptied := aside_emptyTransition { s with coord.finalMark := false, coord.figures := none }
  refine ⟨(setCoord_timetable _ _ _).trans emptied.timetable, (setCoord_orders _ _ _).trans emptied.orders, fun cut => ?_⟩
  have still := emptied.cut ⟨cut.state, cut.cause, cut.position, rfl⟩
  unfold suspend
  rw [setCoord_coord]
  exact ⟨rfl, rfl, still.position, still.figures⟩

/-! ### Filters that change their mark -/

theorem aside_raiseGroup (c : FaultClass) (g : Group) (already : Bool) (s : State) : Aside s (raiseGroup c g already s) := by
  unfold raiseGroup
  split
  · exact Aside.refl s
  · exact aside_raiseRecord _ _ _

theorem aside_markGreenFaulted (g : Group) (s : State) : Aside s (markGreenFaulted g s) :=
  (Aside.trans .plain (aside_post _ _)).trans (aside_raiseGroup _ _ _ _)

theorem aside_markLampFaulted (g : Group) (s : State) : Aside s (markLampFaulted g s) :=
  (Aside.trans .plain (aside_post _ _)).trans (aside_raiseGroup _ _ _ _)

theorem aside_markGreenClean (g : Group) (s : State) : Aside s (markGreenClean g s) := by
  have marked : Aside s (post (.readbackGroup g .greenSense false) { s with bank.greenFilter := s.bank.greenFilter.set g ⟨false, 0⟩ }) :=
    Aside.trans .plain (aside_post _ _)
  unfold markGreenClean
  refine marked.trans ?_
  dsimp only
  split
  · exact Aside.trans .plain (aside_withdrawRecord _ _)
  · exact Aside.refl _

theorem aside_markLampClean (g : Group) (s : State) : Aside s (markLampClean g s) := by
  have marked : Aside s (post (.readbackGroup g .lampOut false) { s with bank.lampFilter := s.bank.lampFilter.set g ⟨false, 0⟩ }) :=
    Aside.trans .plain (aside_post _ _)
  unfold markLampClean
  refine marked.trans ?_
  dsimp only
  split
  · exact Aside.trans .plain (aside_withdrawRecord _ _)
  · exact Aside.refl _

theorem aside_finishGroup (s : State) (g : Group) : Aside s (finishGroup s g) := by
  unfold finishGroup
  dsimp only
  refine Aside.trans (t := if s.greenFaultedDue g then markGreenFaulted g s
    else if s.greenCleanDue g then markGreenClean g s else s) ?_ ?_
  · split
    · exact aside_markGreenFaulted g s
    · split
      · exact aside_markGreenClean g s
      · exact Aside.refl s
  · generalize (if s.greenFaultedDue g then markGreenFaulted g s
      else if s.greenCleanDue g then markGreenClean g s else s) = t
    split
    · exact aside_markLampFaulted g t
    · split
      · exact aside_markLampClean g t
      · exact Aside.refl t

/-! ### Flash -/

theorem aside_beginFlash (s : State) : Aside s (beginFlash s) := by
  unfold beginFlash
  dsimp only
  split <;> split
  · exact (Aside.trans .plain (aside_withdrawRecord _ _)).trans (aside_withdrawRecord _ _)
  · exact Aside.trans .plain (aside_withdrawRecord _ _)
  · exact Aside.trans .plain (aside_withdrawRecord _ _)
  · exact .plain

theorem aside_bankFlash (s : State) : Aside s (bankFlash s) := by
  unfold bankFlash
  split
  · exact Aside.refl s
  · exact (aside_foldl finishGroup aside_finishGroup _ s).trans (aside_beginFlash _)

theorem aside_unstageOrphan (plan : Nat) (s : State) : Aside s (unstageOrphan plan s) := by
  unfold unstageOrphan
  split
  · exact .plain
  · exact Aside.refl s

theorem aside_unstageOverride (o : Option Override) (s : State) : Aside s (unstageOverride o s) := by
  unfold unstageOverride
  split
  · exact aside_unstageOrphan _ s
  · exact Aside.refl s

theorem aside_setPreempt (state : PreemptState) (input : Option PreemptInput) (s : State) : Aside s (setPreempt state input s) :=
  Aside.trans .plain (aside_post _ _)

theorem aside_abandonRun (i : PreemptInput) (s : State) : Aside s (abandonRun i s) := by
  refine Aside.trans ?_ (aside_post (.preemptAbandoned i .flash) _)
  exact ((aside_unstageOverride (s.preempt.save.bind SaveRecord.override) s).trans (aside_setPreempt .idle (some i) _)).trans
    .plain

theorem aside_preemptFlash (s : State) : Aside s (preemptFlash s) := by
  unfold preemptFlash
  split
  · split
    · exact .plain
    · exact (aside_abandonRun _ s).trans .plain
  · exact .plain

theorem aside_setSeq (state : SeqState) (s : State) : Aside s (setSeq state s) :=
  .plain (setSeq_timetable state s) (setSeq_orders state s) (setSeq_coord state s)

theorem aside_flashEntry (s : State) : Aside s (flashEntry s) := by
  unfold flashEntry
  split
  · exact Aside.refl s
  · refine Aside.trans ?_ (aside_preemptFlash _)
    refine Aside.trans ?_ (aside_suspend_flash _)
    refine Aside.trans ?_ (aside_bankFlash _)
    exact (aside_setSeq .flash s).trans .plain

theorem aside_flashExit (s : State) : Aside s (flashExit s) := by
  unfold flashExit
  split
  · exact (aside_setSeq .startupRed s).trans .plain
  · exact Aside.refl s

theorem aside_deliverSequencer (action : FaultAction) (s : State) : Aside s (deliverSequencer action s) := by
  unfold deliverSequencer
  split
  · exact aside_flashEntry s
  all_goals
    split
    · exact aside_flashExit s
    · exact Aside.refl s

/-! ### The effective action -/

theorem aside_settleAction (n : Nat) (cause : FaultClass) (s : State) : Aside s (settleAction n cause s) := by
  induction n generalizing cause s with
  | zero =>
    unfold settleAction
    dsimp only
    split
    · exact Aside.refl s
    · exact Aside.trans .plain (aside_post _ _)
  | succ n ih =>
    unfold settleAction
    dsimp only
    split
    · exact Aside.refl s
    · refine Aside.trans ?_ (ih _ _)
      refine Aside.trans ?_ (aside_deliverSequencer _ _)
      refine Aside.trans ?_ (aside_deliverCoordinator _ _)
      exact Aside.trans .plain (aside_post _ _)

theorem aside_raise (c : FaultClass) (detail : Option Nat) (s : State) : Aside s (raise c detail s) :=
  (aside_raiseRecord c detail s).trans (aside_settleAction _ _ _)

theorem aside_withdraw (c : FaultClass) (s : State) : Aside s (withdraw c s) :=
  (aside_withdrawRecord c s).trans (aside_settleAction _ _ _)

/-! ### Adoptions and the governing plan -/

theorem aside_clearOverride (s : State) : Aside s (clearOverride s) := by
  unfold clearOverride
  split
  · exact Aside.refl s
  · split
    · exact Aside.refl s
    · exact (Aside.trans .plain (aside_post _ _)).trans (aside_unstageOrphan _ _)

theorem aside_adoptionRequest (a : Adoption) (s : State) : Aside s (adoptionRequest a s) := by
  unfold adoptionRequest
  dsimp only
  refine Aside.trans (t := { s with coord.requested := some a }) .coord ?_
  split <;> split
  · exact aside_clearOverride _
  · exact Aside.refl _
  · exact (aside_putForward _ _).trans (aside_clearOverride _)
  · exact aside_putForward _ _

/-- What a decision of the governing plan leaves beside the Order Handler: the Timetable, and a suspension by flash. -/
structure Apart (s t : State) : Prop where
  timetable : t.timetable = s.timetable
  cut : s.coord.Cut → t.coord.Cut

theorem Aside.apart {s t : State} (h : Aside s t) : Apart s t := ⟨h.timetable, h.cut⟩

theorem Apart.trans {s t u : State} (h : Apart s t) (k : Apart t u) : Apart s u :=
  ⟨k.timetable.trans h.timetable, fun cut => k.cut (h.cut cut)⟩

/-- A change of the Order Handler alone. -/
theorem apart_orders (o : OrderHandler) (s : State) : Apart s { s with orders := o } := ⟨rfl, id⟩

theorem apart_checkMissing (changed : Bool) (g : Adoption) (s : State) : Apart s (checkMissing changed g s) := by
  unfold checkMissing
  split
  · split
    · exact (Aside.refl s).apart
    · exact (apart_orders _ s).trans (aside_raise _ _ _).apart
  · split
    · exact (apart_orders _ s).trans ((aside_withdraw _ _).trans (aside_adoptionRequest _ _)).apart
    · split
      · exact (aside_adoptionRequest _ _).apart
      · exact (Aside.refl s).apart

theorem apart_decideGoverning (s : State) : Apart s (decideGoverning s) := by
  unfold decideGoverning
  split
  · exact apart_orders _ s
  · split
    · exact (apart_orders _ s).trans (apart_checkMissing _ _ _)
    · exact ((apart_orders _ s).trans (aside_post _ _).apart).trans (apart_checkMissing _ _ _)

end Sys2Proof.Machine
end

section
/-! The evaluation of the order list (R57, R64): what it leaves of each entry, which of the candidates it puts in force, and what
it leaves alone. -/

set_option Elab.async false

namespace Sys2Proof.Machine

/-! ### The judgement of one entry -/

theorem matchQuery_same_iff {store : PlanStore} {plan : Nat} {signature : BitVec 16} :
    store.matchQuery plan signature = .same ↔ (store.slot plan).plan.map StoredPlan.signature = some signature := by
  unfold PlanStore.matchQuery
  cases (store.slot plan).plan with
  | none => simp
  | some p => by_cases same : p.signature = signature <;> simp [same]

/-- The state an order that is not CANCELLED is given before the choice (R64, step 2). -/
theorem judgeEntry_state {store : PlanStore} {now : NetTime} {e : OrderEntry} {d : OrderDetail} (live : e.state ≠ .cancelled)
    (detail : e.detail = some d) :
    (judgeEntry store now e).state =
      if (store.slot d.plan).plan.map StoredPlan.signature = some d.signature then
        if 0 < d.start.diff now then .pending else .eclipsed
      else .mismatch := by
  unfold judgeEntry
  simp only [live, if_false, detail, ne_eq, matchQuery_same_iff, NetTime.later, decide_eq_true_eq]
  split_ifs <;> rfl

theorem judgeEntry_cancelled_iff {store : PlanStore} {now : NetTime} {e : OrderEntry} (place : e.detail = none → e.state = .cancelled) :
    (judgeEntry store now e).state = .cancelled ↔ e.state = .cancelled := by
  by_cases cancelled : e.state = .cancelled
  · simp [judgeEntry, cancelled]
  · obtain ⟨d, detail⟩ := Option.ne_none_iff_exists'.mp fun none => cancelled (place none)
    rw [judgeEntry_state cancelled detail]
    simp only [cancelled, iff_false]
    split_ifs <;> decide

/-- An entry judged and then put in force or not, as the evaluation leaves it. -/
structure JudgedFrom (store : PlanStore) (now : NetTime) (l : List OrderEntry) (x e : OrderEntry) : Prop where
  mem : x ∈ l
  same : e = { x with state := e.state }
  state : e.state = (judgeEntry store now x).state
    ∨ e.state = .inForce ∧ bestCandidate (l.map (judgeEntry store now)) = some (judgeEntry store now x)

/-- Every entry that the evaluation leaves is judged from one of the list (R64). -/
theorem judgedFrom_of_mem {store : PlanStore} {now : NetTime} {l : List OrderEntry} (keys : (l.map OrderEntry.key).Nodup)
    {e : OrderEntry} (h : e ∈ judgeEntries store now l) : ∃ x, JudgedFrom store now l x e := by
  obtain ⟨x, mem, rfl | ⟨b, inList, best, key, rfl⟩⟩ := mem_judgeEntries h
  · exact ⟨x, mem, judgeEntry_eq store now x, .inl rfl⟩
  · obtain ⟨y, other, rfl⟩ := List.mem_map.mp inList
    have one : x = y := eq_of_key keys mem other (by rw [key, judgeEntry_eq])
    exact ⟨x, mem, by rw [judgeEntry_eq], .inr ⟨rfl, one ▸ best⟩⟩

/-! ### The choice among the candidates -/

theorem bestCandidate_snoc_other {l : List OrderEntry} {a : OrderEntry} (h : a.state ≠ .eclipsed) :
    bestCandidate (l ++ [a]) = bestCandidate l := by
  simp [bestCandidate, h]

theorem bestCandidate_snoc_first {l : List OrderEntry} {a : OrderEntry} (h : a.state = .eclipsed)
    (none : bestCandidate l = none) : bestCandidate (l ++ [a]) = some a := by
  unfold bestCandidate at none ⊢
  rw [List.foldl_append, none]
  simp [h]

theorem bestCandidate_snoc_next {l : List OrderEntry} {a b : OrderEntry} (h : a.state = .eclipsed)
    (best : bestCandidate l = some b) : bestCandidate (l ++ [a]) = if a.outranks b then some a else some b := by
  unfold bestCandidate at best ⊢
  rw [List.foldl_append, best]
  simp [h]

/-- Where there is a candidate one is chosen. -/
theorem bestCandidate_exists {l : List OrderEntry} {e : OrderEntry} (mem : e ∈ l) (candidate : e.state = .eclipsed) :
    ∃ b, bestCandidate l = some b := by
  induction l using List.reverseRecOn with
  | nil => cases mem
  | append_singleton l a ih =>
    by_cases eclipsed : a.state = .eclipsed
    · cases best : bestCandidate l with
      | none => exact ⟨a, bestCandidate_snoc_first eclipsed best⟩
      | some b =>
        rw [bestCandidate_snoc_next eclipsed best]
        split <;> exact ⟨_, rfl⟩
    · rw [bestCandidate_snoc_other eclipsed]
      rcases List.mem_append.mp mem with inList | last
      · exact ih inList
      · exact absurd (List.mem_singleton.mp last ▸ candidate) eclipsed

theorem bestCandidate_mem {l : List OrderEntry} {b : OrderEntry} (best : bestCandidate l = some b) : b ∈ l := by
  induction l using List.reverseRecOn with
  | nil => cases best
  | append_singleton l a ih =>
    by_cases eclipsed : a.state = .eclipsed
    · cases before : bestCandidate l with
      | none =>
        rw [bestCandidate_snoc_first eclipsed before] at best
        cases best
        simp
      | some c =>
        rw [bestCandidate_snoc_next eclipsed before] at best
        split at best <;> cases best
        · simp
        · exact List.mem_append_left _ (ih before)
    · rw [bestCandidate_snoc_other eclipsed] at best
      exact List.mem_append_left _ (ih best)

/-- No candidate outranks the one chosen, where ranks are an order among the candidates. -/
theorem bestCandidate_unbeaten {p : OrderEntry → Prop} (irrefl : ∀ a, p a → a.outranks a = false)
    (trans : ∀ a b c, p a → p b → p c → a.outranks b = true → b.outranks c = true → a.outranks c = true)
    {l : List OrderEntry} (hp : ∀ e ∈ l, e.state = .eclipsed → p e) {b : OrderEntry} (best : bestCandidate l = some b) :
    ∀ y ∈ l, y.state = .eclipsed → y.outranks b = false := by
  induction l using List.reverseRecOn generalizing b with
  | nil => cases best
  | append_singleton l a ih =>
    have inner : ∀ e ∈ l, e.state = .eclipsed → p e := fun e mem => hp e (List.mem_append_left _ mem)
    intro y mem candidate
    rcases List.mem_append.mp mem with inList | last
    · obtain ⟨c, before⟩ := bestCandidate_exists inList candidate
      have unbeaten := ih inner before y inList candidate
      by_cases eclipsed : a.state = .eclipsed
      · rw [bestCandidate_snoc_next eclipsed before] at best
        split at best <;> cases best
        · rename_i above
          by_contra beaten
          have pc := inner c (bestCandidate_mem before) (bestCandidate_eclipsed before)
          have pa := hp a (by simp) eclipsed
          rw [trans y a c (inner y inList candidate) pa pc (by simpa using beaten) above] at unbeaten
          cases unbeaten
        · exact unbeaten
      · rw [bestCandidate_snoc_other eclipsed, before] at best
        exact Option.some.inj best ▸ unbeaten
    · cases List.mem_singleton.mp last
      cases before : bestCandidate l with
      | none =>
        rw [bestCandidate_snoc_first candidate before] at best
        cases best
        exact irrefl a (hp a mem candidate)
      | some c =>
        rw [bestCandidate_snoc_next candidate before] at best
        split at best <;> cases best
        · exact irrefl a (hp a mem candidate)
        · rename_i below
          simpa using below

/-! ### Ranks of orders with plain times -/

theorem outranks_iff (d : OrderDetail) (k : OrderKey) (e : OrderDetail) (l : OrderKey) :
    outranks d k e l = true ↔ Outranks d k e l := by
  unfold outranks Outranks
  by_cases priority : d.priority = e.priority
  · by_cases start : d.start = e.start
    · by_cases origin : k.origin = l.origin <;> simp [priority, start, origin, NetTime.later, diff_self]
    · simp [priority, start, NetTime.later]
  · simp [priority]

/-- An order whose start and issue stamp do not lie across the week wrap. -/
def OrderEntry.Ranked (e : OrderEntry) : Prop := ∃ d, e.detail = some d ∧ Plain d.start ∧ Plain e.key.stamp

/-- `Outranks` of two orders with plain times, in numbers (R57). -/
theorem outranks_plain {d e : OrderDetail} {k l : OrderKey} (ds : Plain d.start) (es : Plain e.start) (ks : Plain k.stamp)
    (ls : Plain l.stamp) :
    Outranks d k e l ↔
      e.priority < d.priority
        ∨ (d.priority = e.priority
          ∧ (ordinal e.start < ordinal d.start
            ∨ (ordinal d.start = ordinal e.start
              ∧ (l.origin < k.origin ∨ (k.origin = l.origin ∧ ordinal l.stamp < ordinal k.stamp))))) := by
  have same : d.start = e.start ↔ ordinal d.start = ordinal e.start := ⟨fun h => h ▸ rfl, ordinal_injective ds es⟩
  simp only [Outranks, diff_of_plain ds es, diff_of_plain ks ls, same]
  omega

theorem ranked_outranks_iff {a b : OrderEntry} {d e : OrderDetail} (da : a.detail = some d) (db : b.detail = some e) :
    a.outranks b = true ↔ Outranks d a.key e b.key := by
  simp only [OrderEntry.outranks, da, db, outranks_iff]

theorem ranked_irrefl (a : OrderEntry) (ha : a.Ranked) : a.outranks a = false := by
  obtain ⟨d, da, start, stamp⟩ := ha
  rw [← Bool.not_eq_true, ranked_outranks_iff da da, outranks_plain start start stamp stamp]
  omega

theorem ranked_trans (a b c : OrderEntry) (ha : a.Ranked) (hb : b.Ranked) (hc : c.Ranked) (h : a.outranks b = true)
    (k : b.outranks c = true) : a.outranks c = true := by
  obtain ⟨d, da, sa, ta⟩ := ha
  obtain ⟨e, db, sb, tb⟩ := hb
  obtain ⟨f, dc, sc, tc⟩ := hc
  rw [ranked_outranks_iff da db, outranks_plain sa sb ta tb] at h
  rw [ranked_outranks_iff db dc, outranks_plain sb sc tb tc] at k
  rw [ranked_outranks_iff da dc, outranks_plain sa sc ta tc]
  omega

/-- Of two orders of different keys one outranks the other. -/
theorem ranked_total {a b : OrderEntry} {d e : OrderDetail} (da : a.detail = some d) (db : b.detail = some e)
    (sa : Plain d.start) (sb : Plain e.start) (ta : Plain a.key.stamp) (tb : Plain b.key.stamp) (apart : a.key ≠ b.key)
    (unbeaten : b.outranks a = false) : Outranks d a.key e b.key := by
  have stamps : a.key.origin = b.key.origin → ordinal a.key.stamp ≠ ordinal b.key.stamp := by
    intro origin same
    have stamp := ordinal_injective ta tb same
    obtain ⟨⟨ao, as⟩, _⟩ := a
    obtain ⟨⟨bo, bs⟩, _⟩ := b
    exact apart (by simp_all)
  rw [← Bool.not_eq_true, ranked_outranks_iff db da, outranks_plain sb sa tb ta] at unbeaten
  rw [outranks_plain sa sb ta tb]
  omega

/-! ### What the evaluation leaves of the list -/

theorem judgeEntries_states (store : PlanStore) (now : NetTime) (l : List OrderEntry) :
    (judgeEntries store now l).map (fun e => { e with state := .pending }) = l.map fun e => { e with state := .pending } := by
  have one : ∀ e, { judgeEntry store now e with state := .pending } = { e with state := .pending } := fun e => by
    rw [judgeEntry_eq]
  unfold judgeEntries
  dsimp only
  split
  · rw [List.map_map]
    exact List.map_congr_left fun e _ => one e
  · rw [List.map_map, List.map_map]
    refine List.map_congr_left fun e _ => ?_
    simp only [Function.comp_apply]
    split <;> exact one e

theorem not_atOrBefore (a b : NetTime) : (!a.atOrBefore b) = decide (0 < a.diff b) := by
  simp only [NetTime.atOrBefore, ← decide_not, Int.not_le]

/-- The candidate chosen is put in force. -/
theorem mem_judgeEntries_best {store : PlanStore} {now : NetTime} {l : List OrderEntry} {b : OrderEntry}
    (best : bestCandidate (l.map (judgeEntry store now)) = some b) : { b with state := .inForce } ∈ judgeEntries store now l := by
  unfold judgeEntries
  simp only [best]
  exact List.mem_map.mpr ⟨b, bestCandidate_mem best, if_pos rfl⟩

section
variable {store : PlanStore} {now : NetTime} {l : List OrderEntry} {x e : OrderEntry} {d : OrderDetail}

theorem JudgedFrom.key (h : JudgedFrom store now l x e) : e.key = x.key := by rw [h.same]

theorem JudgedFrom.detail (h : JudgedFrom store now l x e) : e.detail = x.detail := by rw [h.same]

theorem JudgedFrom.cancelled_iff (h : JudgedFrom store now l x e) (place : x.detail = none → x.state = .cancelled) :
    e.state = .cancelled ↔ x.state = .cancelled := by
  rw [← judgeEntry_cancelled_iff (store := store) (now := now) place]
  rcases h.state with same | ⟨force, best⟩
  · rw [same]
  · simp [force, bestCandidate_eclipsed best]

/-- The states of an entry that is not CANCELLED, by the stored plan and the start (R64, step 2). -/
theorem JudgedFrom.state_iff (h : JudgedFrom store now l x e) (place : x.detail = none → x.state = .cancelled)
    (detail : e.detail = some d) (live : e.state ≠ .cancelled) :
    let holds := (store.slot d.plan).plan.map StoredPlan.signature = some d.signature
    (e.state = .mismatch ↔ ¬ holds) ∧ (e.state = .pending ↔ holds ∧ 0 < d.start.diff now)
      ∧ (e.state = .inForce ∨ e.state = .eclipsed ↔ holds ∧ d.start.diff now ≤ 0) := by
  have judged := judgeEntry_state (store := store) (now := now) (mt (h.cancelled_iff place).mpr live) (h.detail ▸ detail)
  rw [← Int.not_lt]
  rcases h.state with same | ⟨force, best⟩
  · rw [same, judged]
    split_ifs <;> simp [*]
  · rw [bestCandidate_eclipsed best] at judged
    split_ifs at judged with holds later
    simp [force, holds, later]

/-- What was judged a candidate, of an entry that is one as the evaluation leaves it. -/
theorem JudgedFrom.eclipsed (h : JudgedFrom store now l x e) (place : x.detail = none → x.state = .cancelled)
    (detail : e.detail = some d) (live : e.state ≠ .cancelled)
    (holds : (store.slot d.plan).plan.map StoredPlan.signature = some d.signature) (started : d.start.diff now ≤ 0) :
    (judgeEntry store now x).state = .eclipsed := by
  rw [judgeEntry_state (mt (h.cancelled_iff place).mpr live) (h.detail ▸ detail), if_pos holds, if_neg (Int.not_lt.mpr started)]

/-- An entry in force was judged a candidate and then chosen. -/
theorem JudgedFrom.best (h : JudgedFrom store now l x e) (place : x.detail = none → x.state = .cancelled)
    (force : e.state = .inForce) : bestCandidate (l.map (judgeEntry store now)) = some (judgeEntry store now x) := by
  rcases h.state with same | ⟨-, best⟩
  · exact absurd (same ▸ force) (judgeEntry_inForce place)
  · exact best

/-- Every candidate is ranked where no entry's start or stamp lies across the week wrap. -/
theorem ranked_of_eclipsed (place : ∀ e ∈ l, e.detail = none → e.state = .cancelled)
    (plain : ∀ e d, e ∈ l → e.detail = some d → Plain d.start ∧ Plain e.key.stamp) {y : OrderEntry}
    (mem : y ∈ l.map (judgeEntry store now)) (eclipsed : y.state = .eclipsed) : y.Ranked := by
  obtain ⟨x, inList, rfl⟩ := List.mem_map.mp mem
  cases detail : x.detail with
  | none =>
    rw [judgeEntry_placeholder _ _ _ detail, place x inList detail] at eclipsed
    cases eclipsed
  | some d =>
    rw [judgeEntry_eq]
    exact ⟨d, detail, plain x d inList detail⟩

/-- The entry in force outranks every other candidate (R57, R64). -/
theorem JudgedFrom.outranks {y f : OrderEntry} {k : OrderDetail} (h : JudgedFrom store now l x e)
    (j : JudgedFrom store now l y f) (place : ∀ e ∈ l, e.detail = none → e.state = .cancelled)
    (plain : ∀ e d, e ∈ l → e.detail = some d → Plain d.start ∧ Plain e.key.stamp) (detail : e.detail = some d)
    (other : f.detail = some k) (force : e.state = .inForce) (eclipsed : (judgeEntry store now y).state = .eclipsed)
    (apart : e.key ≠ f.key) : Outranks d e.key k f.key := by
  have unbeaten := bestCandidate_unbeaten ranked_irrefl ranked_trans (fun _ mem => ranked_of_eclipsed place plain mem)
    (h.best (place x h.mem) force) _ (List.mem_map_of_mem j.mem) eclipsed
  obtain ⟨start, stamp⟩ := plain x d h.mem (h.detail ▸ detail)
  obtain ⟨start', stamp'⟩ := plain y k j.mem (j.detail ▸ other)
  rw [judgeEntry_eq _ _ y, judgeEntry_eq _ _ x] at unbeaten
  rw [h.key, j.key] at apart ⊢
  exact ranked_total (h.detail ▸ detail) (j.detail ▸ other) start start' stamp stamp' apart unbeaten

end

/-- The order list of a state stands as an evaluation leaves a sound one (R57, R64). -/
theorem evaluated_of_judged {before : List OrderEntry} {store : PlanStore} {t : State}
    (place : ∀ e ∈ before, e.detail = none → e.state = .cancelled) (keys : (before.map OrderEntry.key).Nodup)
    (entries : t.orders.entries =
      judgeEntries store t.clock.reading (before.filter fun e => !e.finish.atOrBefore t.clock.reading))
    (plans : ∀ n, t.storedPlan n = (store.slot n).plan) : Evaluated before t := by
  simp only [not_atOrBefore] at entries
  have inside : ∀ {e}, e ∈ (before.filter fun e => decide (0 < e.finish.diff t.clock.reading)) → e ∈ before :=
    List.mem_of_mem_filter
  have states := judgeEntries_states store t.clock.reading (before.filter fun e => decide (0 < e.finish.diff t.clock.reading))
  have single := keys.sublist
    (List.Sublist.map _ (List.filter_sublist (p := fun e => decide (0 < e.finish.diff t.clock.reading))))
  have stays := fun e mem => place e (inside (e := e) mem)
  rw [← entries] at states
  refine ⟨states, ?cancelled, ?judged, ?one, ?chosen, ?highest⟩
  all_goals generalize before.filter (fun e => decide (0 < e.finish.diff t.clock.reading)) = l at *
  all_goals
    have judged : ∀ {e}, e ∈ t.orders.entries → ∃ x, JudgedFrom store t.clock.reading l x e :=
      fun mem => judgedFrom_of_mem single (entries ▸ mem)
  case cancelled =>
    intro e mem
    obtain ⟨x, h⟩ := judged mem
    rw [h.cancelled_iff (stays x h.mem), h.key]
    refine ⟨fun cancelled => ⟨x, inside h.mem, rfl, cancelled⟩, fun ⟨y, other, key, cancelled⟩ => ?_⟩
    exact eq_of_key keys other (inside h.mem) key ▸ cancelled
  case judged =>
    intro e d mem detail live
    obtain ⟨x, h⟩ := judged mem
    simp only [Candidate, mem, detail, live, plans, true_and, ne_eq, not_false_eq_true]
    exact h.state_iff (stays x h.mem) detail live
  case one =>
    intro e x mem other
    exact judgeEntries_oneInForce stays single e (entries ▸ mem) x (entries ▸ other)
  case chosen =>
    rintro ⟨e, d, mem, detail, live, holds, started⟩
    obtain ⟨x, h⟩ := judged mem
    obtain ⟨b, best⟩ := bestCandidate_exists (List.mem_map_of_mem h.mem)
      (h.eclipsed (stays x h.mem) detail live (plans _ ▸ holds) started)
    exact ⟨_, entries ▸ mem_judgeEntries_best best, rfl⟩
  case highest =>
    rintro plain e d y k ⟨mem, detail, -, -, -⟩ ⟨mem', detail', live, holds, started⟩ force apart
    obtain ⟨x, h⟩ := judged mem
    obtain ⟨z, j⟩ := judged mem'
    refine h.outranks j stays (fun e d mem => plain e d (inside mem)) detail detail' force
      (j.eclipsed (stays z j.mem) detail' live (plans _ ▸ holds) started) fun key => apart ?_
    exact eq_of_key (by rw [entries, judgeEntries_keys]; exact single) mem mem' key

end Sys2Proof.Machine
end

section
/-! LOAD_PLAN and ERASE_PLAN that change the store, and the evaluation of the order list that follows them (R28, R29, R31). -/

set_option Elab.async false

namespace Sys2Proof.Machine

/-! ### The evaluation of the order list on a state -/

/-- The order list as an evaluation leaves it (R64). -/
def State.judged (s : State) : List OrderEntry :=
  judgeEntries s.store s.clock.reading (s.orders.entries.filter fun e => !e.finish.atOrBefore s.clock.reading)

theorem evaluateOrders_stopped {was : Option OldState} {s : State} (stopped : s.port.part ≠ .running) : evaluateOrders was s = s := by
  simp [evaluateOrders, State.running, stopped]

/-- An evaluation judges the list and leaves what a delivery leaves. -/
theorem kept_evaluateOrders (was : Option OldState) {s : State} (run : s.port.part = .running) :
    Kept { s with orders.entries := s.judged } (evaluateOrders was s) := by
  have reported := (delivers_foldl (fun s e => reportEnded e s) (fun s e => delivers_reportEnded e s)
    (s.orders.entries.filter fun e => e.finish.atOrBefore s.clock.reading) s).kept
  unfold evaluateOrders
  rw [if_pos (by simp [State.running, run])]
  refine Kept.trans ?_ (delivers_decideGoverning _).kept
  refine Kept.trans ?_ (delivers_foldl (fun s (p : OrderEntry × OrderEntry) => reportState was p.1 p.2 s)
    (fun s p => delivers_reportState was p.1 p.2 s) _ _).kept
  exact { reported with orders := rfl }

theorem aside_reportEnded (e : OrderEntry) (s : State) : Aside s (reportEnded e s) := by
  unfold reportEnded
  split
  · exact aside_post _ _
  · exact Aside.refl s

theorem aside_reportState (was : Option OldState) (old new : OrderEntry) (s : State) : Aside s (reportState was old new s) := by
  unfold reportState
  split
  · split
    · exact aside_post _ _
    · exact Aside.refl s
  · split
    · exact aside_post _ _
    · exact Aside.refl s

theorem apart_evaluateOrders (was : Option OldState) (s : State) : Apart s (evaluateOrders was s) := by
  unfold evaluateOrders
  split
  · refine Apart.trans ?_ (apart_decideGoverning _)
    refine Apart.trans ?_ (aside_foldl (fun s (p : OrderEntry × OrderEntry) => reportState was p.1 p.2 s)
      (fun s p => aside_reportState was p.1 p.2 s) _ _).apart
    exact (aside_foldl (fun s e => reportEnded e s) (fun s e => aside_reportEnded e s) _ s).apart.trans (apart_orders _ _)
  · exact (Aside.refl s).apart

/-- What a change of the store followed by the evaluation of the order list leaves (R31). -/
structure Restored (s : State) (store : PlanStore) (t : State) : Prop where
  clock : t.clock = s.clock
  timetable : t.timetable = s.timetable
  line : t.line = s.line
  issued : t.orders.issued = s.orders.issued
  latches : t.seq.latches = s.seq.latches
  part : t.port.part = s.port.part
  config : t.port.config = s.port.config
  plans : ∀ n, t.storedPlan n = (store.slot n).plan
  pinned : ∀ n, (t.slot n).pinned = (store.slot n).pinned
  evaluated : s.port.part = .running → s.orders.Sound → Evaluated s.orders.entries t

theorem restored_evaluateOrders (store : PlanStore) (s : State) :
    Restored s store (evaluateOrders none { s with store := store }) := by
  have timetable := (apart_evaluateOrders none { s with store := store }).timetable
  by_cases run : s.port.part = .running
  · have kept := kept_evaluateOrders none (s := { s with store := store }) run
    refine ⟨kept.clock, timetable, kept.line, kept.issued, kept.latches, kept.part, kept.config, kept.plans, kept.pinned,
      fun _ sound => evaluated_of_judged sound.placeholders sound.keys (store := store) ?_ kept.plans⟩
    rw [kept.clock, kept.orders]
    rfl
  · rw [evaluateOrders_stopped (s := { s with store := store }) run]
    exact ⟨rfl, rfl, rfl, rfl, rfl, rfl, rfl, fun _ => rfl, fun _ => rfl, fun running => absurd running run⟩

theorem Evaluated.congr {l : List OrderEntry} {t u : State} (h : Evaluated l t) (orders : u.orders = t.orders := by rfl)
    (store : u.store = t.store := by rfl) (clock : u.clock = t.clock := by rfl) : Evaluated l u := by
  obtain ⟨⟩ := t
  obtain ⟨⟩ := u
  cases orders
  cases store
  cases clock
  exact ⟨h.kept, h.cancelled, h.judged, h.one, h.chosen, h.highest⟩

/-- The answer to a request that changes the store and then evaluates the order list. -/
theorem restored_hold (request seq : Byte) (a : Answer) (store : PlanStore) (s : State) :
    Restored s store (hold request seq a (evaluateOrders none { discardHeld s with store := store })) := by
  have r := restored_evaluateOrders store (discardHeld s)
  generalize evaluateOrders none { discardHeld s with store := store } = t at r ⊢
  obtain ⟨clock, timetable, line, issued, latches, part, config, plans, pinned, evaluated⟩ := r
  simp only [discardHeld_clock, discardHeld_timetable, discardHeld_line, discardHeld_orders, discardHeld_seq,
    discardHeld_port_part, discardHeld_port_config] at clock timetable line issued latches part config evaluated
  exact ⟨clock, timetable, line, issued, latches, part, config, plans, pinned, fun run sound => (evaluated run sound).congr⟩

/-- In CONFIGURING the store alone changes. -/
theorem hold_store (request seq : Byte) (a : Answer) (store : PlanStore) {s : State} (stopped : s.port.part = .configuring) :
    hold request seq a (evaluateOrders none { discardHeld s with store := store }) =
      ({ s with store := store } : State).answered request seq a.code a.body := by
  rw [evaluateOrders_stopped (by rw [discardHeld_port_part, stopped]; decide)]
  unfold hold discardHeld State.answered countUp
  cases s.port.held <;> rfl

/-! ### LOAD_PLAN -/

theorem storedFrom_readPlan {body : List Byte} (length : planLengthIs body = true) :
    storedFrom (readPlan body) =
      { plan := readPlan body, signature := crc16 body, spares := (readPlan body).stages.map StageRecord.spare
        spareSum := ((readPlan body).stages.map StageRecord.spare).sum } := by
  simp only [storedFrom, planBytes_readPlan length]

/-- LOAD_PLAN of a plan that passes its checks (R28, R31). -/
theorem exec_loadPlan (seq : Byte) {body : List Byte} {s : State} (length : planLengthIs body = true)
    (passed : planRefusal s.store (readPlan body) = none) :
    exec (.loadPlan seq body) s =
      .next (hold 0x10 seq
        (done (be 2 (crc16 body).toNat ++ [if (s.slot (readPlan body).number).state = .empty then 0 else 1]))
        (evaluateOrders none { discardHeld s with store := s.store.load (readPlan body) })) := by
  have mark : flagByte (!(discardHeld s).slotEmpty (readPlan body).number)
      = [if (s.slot (readPlan body).number).state = .empty then 0 else 1] := by
    by_cases empty : (s.slot (readPlan body).number).state = .empty <;> simp [State.slotEmpty, empty, flagByte_eq, flagField]
  have work : loadPlanWork body (discardHeld s) =
      (evaluateOrders none { discardHeld s with store := s.store.load (readPlan body) },
        done (be 2 (crc16 body).toNat ++ [if (s.slot (readPlan body).number).state = .empty then 0 else 1])) := by
    unfold loadPlanWork
    dsimp only
    rw [discardHeld_store, passed, mark, storedFrom_readPlan length]
    rfl
  change Host.Outcome.next (serve 0x10 seq (planLengthIs body) .both (loadPlanWork body) s) = _
  rw [length, serve_done _ _ _ _ _ rfl, work]

theorem field_take_one (body : List Byte) : field (body.take 1) 0 1 = field body 0 1 := by
  simp [field, List.take_take]

/-- READ_PLAN's answer for a slot that holds a plan: two bytes, then the signature and the body (R30, log 13). -/
theorem planAnswer_holding {slot : Slot} {p : StoredPlan} (holds : slot.plan = some p) :
    (planAnswer slot).drop 2 = be 2 p.signature.toNat ++ planBytes p.plan := by
  rw [planAnswer_eq, holds]
  rfl

/-! ### ERASE_PLAN -/

/-- The cases of R29 in their order. -/
theorem erasePlanWork_eq (n : Byte) (s : State) :
    erasePlanWork [n] s =
      if ¬ (1 ≤ n.toNat ∧ n.toNat ≤ 32) then (s, plain .range)
      else if (s.slot n.toNat).inUse then (s, plain .inUse)
      else if (s.slot n.toNat).state = .empty then (s, plain .notFound)
      else
        (evaluateOrders none
          { s with store := s.store.put n.toNat { s.slot n.toNat with state := .empty, plan := none } }, done []) := by
  simp only [erasePlanWork, field_first, ← planNumber_iff, State.slotEmpty, decide_eq_true_eq,
    Bool.not_eq_true', Bool.not_eq_true]

theorem exec_erasePlan_refused (seq n : Byte) {s : State} {a : Answer}
    (work : erasePlanWork [n] (discardHeld s) = (discardHeld s, a)) :
    exec (.erasePlan seq [n]) s = .next (s.answered 0x11 seq a.code a.body) :=
  serve_reading 0x11 seq _ s a work

/-- ERASE_PLAN of a stored slot that is not pinned (R29, R31). -/
theorem exec_erasePlan (seq n : Byte) {s : State} (number : 1 ≤ n.toNat ∧ n.toNat ≤ 32)
    (stored : (s.slot n.toNat).state = .stored) (loose : (s.slot n.toNat).pinned = false) :
    exec (.erasePlan seq [n]) s =
      .next (hold 0x11 seq (done []) (evaluateOrders none { discardHeld s with store := s.store.put n.toNat Slot.empty })) := by
  have free : (s.slot n.toNat).inUse = false := by simp [Slot.inUse, stored, loose]
  have work : erasePlanWork [n] (discardHeld s) =
      (evaluateOrders none { discardHeld s with store := s.store.put n.toNat Slot.empty }, done []) := by
    simp only [erasePlanWork_eq, discardHeld_slot, discardHeld_store, number, free, stored, loose, and_self, not_true, if_false,
      reduceCtorEq]
    rfl
  change Host.Outcome.next (serve 0x11 seq true .both (erasePlanWork [n]) s) = _
  rw [serve_done _ _ _ _ _ rfl, work]

end Sys2Proof.Machine

open Sys2Proof Sys2Proof.Machine

/-- Settles O19, by what the change of the store and the evaluation after it leave (`restored_hold`). -/
theorem loadPlanStoresThePlanThatReadPlanReturns : Obligations.LoadPlanStoresThePlanThatReadPlanReturns := by
  intro seq seq' body s length passed p spares new answer
  obtain ⟨low, high⟩ : p.Numbered := (planRefusal_none_iff.mp passed).1
  have loaded : s.store.load p = s.store.put p.number new := by
    simp only [PlanStore.load, storedFrom_readPlan length, p, new, State.slot]
    rfl
  have slot : ∀ n, (s.store.load p).slot n = if n = p.number then new else s.slot n := fun n => by
    simp [loaded, slot_put, low, high, State.slot]
  rw [exec_loadPlan seq length passed]
  refine ⟨fun stopped => ?_, ?_⟩
  · rw [hold_store _ _ _ _ stopped, loaded]
    rfl
  · have r := restored_hold 0x10 seq (done answer) (s.store.load p) s
    have plans : ∀ n, n ≠ p.number → _ := fun n other => (r.plans n).trans (by rw [slot n, if_neg other])
    have pins : ∀ n, ((s.store.load p).slot n).pinned = (s.slot n).pinned := fun n => by
      rw [slot n]
      split_ifs with same
      · rw [same]
      · rfl
    have stored := (r.plans p.number).trans (by rw [slot, if_pos rfl])
    have number : field (body.take 1) 0 1 = p.number := field_take_one body
    have short : (body.take 1).length = 1 := by
      have long := (planLengthIs_iff.mp length).1
      simp only [List.length_take]
      omega
    have read := exec_readPlan seq' short (hold 0x10 seq (done answer)
      (evaluateOrders none { discardHeld s with store := s.store.load p })) (number ▸ ⟨low, high⟩)
    rw [number] at read
    have shown := (planAnswer_holding stored).trans
      (congrArg (be 2 (crc16 body).toNat ++ ·) (planBytes_readPlan length))
    exact ⟨_, _, rfl, rfl, stored, plans, fun n => (r.pinned n).trans (pins n), r.clock, r.timetable, r.line, r.issued,
      r.latches, r.part, r.config, fun run inv => r.evaluated run inv.toRooms.orders, read, _, rfl, rfl, rfl, rfl, shown⟩

/-- Settles O20, case by case of R29. -/
theorem erasePlanEmptiesTheSlot : Obligations.ErasePlanEmptiesTheSlot := by
  intro seq n s
  refine ⟨fun out => ?range, fun low high => ⟨fun used => ?inUse, fun empty loose => ?notFound, fun stored loose => ⟨?_, ?_⟩⟩⟩
  case range => exact exec_erasePlan_refused seq n (a := plain .range) (by rw [erasePlanWork_eq, if_pos out])
  case inUse =>
    have taken : (s.slot n.toNat).inUse = true := by
      rcases used with active | staged | pinned <;> simp [Slot.inUse, *]
    exact exec_erasePlan_refused seq n (a := plain .inUse) (by simp [erasePlanWork_eq, low, high, taken])
  case notFound =>
    have free : (s.slot n.toNat).inUse = false := by simp [Slot.inUse, empty, loose]
    exact exec_erasePlan_refused seq n (a := plain .notFound) (by simp [erasePlanWork_eq, low, high, free, empty])
  · intro stopped
    rw [exec_erasePlan seq n ⟨low, high⟩ stored loose, hold_store _ _ _ _ stopped]
    rfl
  · have erased := exec_erasePlan seq n ⟨low, high⟩ stored loose
    have r := restored_hold 0x11 seq (done []) (s.store.put n.toNat Slot.empty) s
    have rooms := (moves_serve 0x11 seq true .both (erasePlanWork [n]) (moves_erasePlanWork _) s).inv
    have same : serve 0x11 seq true .both (erasePlanWork [n]) s = _ := Host.Outcome.next.inj erased
    rw [same] at rooms
    have gone := (r.plans n.toNat).trans (by rw [slot_put, if_pos ⟨rfl, low, high⟩])
    have others : ∀ m, m ≠ n.toNat → _ := fun m other => (r.plans m).trans (by rw [slot_put, if_neg (other ·.1)])
    refine ⟨_, erased, rfl, gone, others, fun inv => ?_, fun run inv => r.evaluated run inv.toRooms.orders, r.clock, r.timetable,
      r.line, r.issued⟩
    obtain ⟨-, -, holds, -⟩ := (store_sound_iff _).mp (rooms inv.toRooms).store
    exact (holds _).mpr gone

end

section
/-! The configuration record that a START carries: its ranges, its defaults and its refusals (R202, R147, R168). -/

set_option Elab.async false

namespace Sys2Proof.Machine

/-! ### Fields with defaults -/

/-- A field whose default lies between the ends is in range when its bytes are all FF or its value is. -/
theorem within_fieldOr {low high default : Nat} {body : List Byte} {o len : Nat} (least : low ≤ default) (most : default ≤ high) :
    within low high (fieldOr default body o len) = true ↔ DefaultFits body o len low high := by
  unfold fieldOr DefaultFits
  rw [within_iff]
  split_ifs with absent
  · simp [absent, least, most]
  · simp [absent]

theorem route_inRange_iff (r : Route) :
    r.inRange = true ↔
      r.track ≠ 0 ∧ (50 ≤ r.minDwell ∧ r.minDwell ≤ 1200)
        ∧ (r.maxHold = 0 ∨ (600 ≤ r.maxHold ∧ r.maxHold ≤ 18000 ∧ r.minDwell ≤ r.maxHold))
        ∧ (30 ≤ r.yellow ∧ r.yellow ≤ 60) ∧ r.allRed ≤ 60 ∧ (1 ≤ r.exitStage ∧ r.exitStage ≤ 8) := by
  simp only [Route.inRange, Bool.and_eq_true, Bool.or_eq_true, decide_eq_true_eq, within_iff, ne_eq, Nat.zero_le, true_and,
    and_assoc]

theorem readRoute_inRange_iff (body : List Byte) (o : Nat) : (readRoute body o).inRange = true ↔ RouteFits body o := by
  have track : (readRoute body o).track = 0 ↔ field body o 2 = 0 := by
    rw [← BitVec.toNat_inj]
    exact (congrArg (· = 0) (toNat_ofNat_field body o)).to_iff
  rw [route_inRange_iff, RouteFits, Ne, track]
  simp only [readRoute, ne_eq, and_assoc]

theorem actionField_fits (body : List Byte) (i : Fin 6) :
    within 0 3 (actionField body i.val) = true ↔ DefaultFits body (14 + i.val) 1 0 3 :=
  within_fieldOr (Nat.zero_le _) (by revert i; decide)

theorem configInRange_iff (body : List Byte) : configInRange body = true ↔ ConfigFits body := by
  have actions : ((List.range 6).all fun i => within 0 3 (actionField body i)) = true ↔
      ∀ i : Fin 6, DefaultFits body (14 + i.val) 1 0 3 := by
    simp only [← actionField_fits, List.all_eq_true, List.mem_range]
    exact ⟨fun all i => all i.val i.isLt, fun all i below => all ⟨i, below⟩⟩
  unfold configInRange
  simp only [Bool.and_eq_true, actions]
  simp only [readConfig, within_fieldOr, Nat.reduceLeDiff, planNumber_iff, readRoute_inRange_iff]
  simp only [ConfigFits, within_iff, Nat.zero_le, true_and, and_assoc]

theorem code_faultActionOf {n : Nat} (h : n ≤ 3) : ((faultActionOf n).getD .report).code = n := by
  interval_cases n <;> rfl

theorem routeRead_readRoute (body : List Byte) (o : Nat) : RouteRead body o (readRoute body o) :=
  ⟨toNat_ofNat_field body o, rfl, rfl, rfl, rfl, rfl⟩

/-- The record read from a body whose fields lie in their ranges is the one it carries (R202, R168, R215). -/
theorem configRead_readConfig {body : List Byte} (fits : ConfigFits body) : ConfigRead body (readConfig body) := by
  obtain ⟨-, -, -, -, -, -, -, -, -, -, -, actions, -⟩ := fits
  constructor
  case actions =>
    intro i
    obtain ⟨-, most⟩ := within_iff.mp ((actionField_fits body i).mpr (actions i))
    simp only [readConfig, Fin.getElem_fin, Vector.getElem_ofFn]
    exact code_faultActionOf most
  case route1 => exact routeRead_readRoute body 21
  case route2 => exact routeRead_readRoute body 30
  case flashYellow => exact toNat_ofNat_field body 39
  case monitored => exact toNat_ofNat_field body 41
  all_goals rfl

/-! ### The refusals of START -/

theorem configRefusal_eq (store : PlanStore) (body : List Byte) [Decidable (ConfigFits body)] :
    configRefusal store body =
      if ¬ ConfigFits body then some (plain .range)
      else if (store.slot (field body 12 1)).state = .empty then some (invalid .planEmpty (field body 12 1))
      else if (store.slot (field body 13 1)).state = .empty then some (invalid .planEmpty (field body 13 1))
      else none := by
  simp only [configRefusal, ← configInRange_iff, Bool.not_eq_true, Bool.not_eq_true']
  rfl

/-- A START that is refused changes nothing beside its answer (R202). -/
theorem exec_start_refused (seq : Byte) {body : List Byte} {s : State} {a : Answer} (stopped : s.port.part = .configuring)
    (length : body.length = 46) (refused : configRefusal s.store body = some a) :
    exec (.start seq body) s = .next (s.answered 0x03 seq a.code a.body) := by
  have work : startWork body (discardHeld s) = (discardHeld s, a) := by
    unfold startWork
    rw [discardHeld_store, refused]
  have fits : lengthIs 46 body = true := decide_eq_true length
  change Host.Outcome.next (serve 0x03 seq (lengthIs 46 body) .configuringOnly (startWork body) s) = _
  rw [fits, serve_unchanged _ _ _ _ _ (by rw [stopped]; rfl) (by rw [work]), work]

/-- A START whose record is accepted begins RUNNING (R203). -/
theorem exec_start (seq : Byte) {body : List Byte} {s : State} (stopped : s.port.part = .configuring)
    (length : body.length = 46) (accepted : configRefusal s.store body = none) :
    exec (.start seq body) s = .next (hold 0x03 seq (done []) (beginRunning (readConfig body) (discardHeld s))) := by
  have work : startWork body (discardHeld s) = (beginRunning (readConfig body) (discardHeld s), done []) := by
    unfold startWork
    rw [discardHeld_store, accepted]
  have fits : lengthIs 46 body = true := decide_eq_true length
  change Host.Outcome.next (serve 0x03 seq (lengthIs 46 body) .configuringOnly (startWork body) s) = _
  rw [fits, serve_done _ _ _ _ _ (by rw [stopped]; rfl), work]

end Sys2Proof.Machine
end

section
/-! The beginning of RUNNING: what a START leaves in general, and what it does to blocks that stand as a reset leaves them
(R203, R36, R42, R73, R74, R82, R84, R111). -/

set_option Elab.async false

namespace Sys2Proof.Machine

/-! ### Pins -/

theorem slot_pin (store : PlanStore) (k n : Nat) (number : 1 ≤ n ∧ n ≤ 32) :
    (store.pin k).slot n = { store.slot n with pinned := (store.slot n).pinned || n == k } := by
  unfold PlanStore.pin
  rw [slot_put]
  by_cases same : n = k
  · subst same
    simp [number]
  · rw [if_neg (same ·.1), beq_false_of_ne same, Bool.or_false]

theorem pin_state (store : PlanStore) (k n : Nat) : ((store.pin k).slot n).state = (store.slot n).state := by
  unfold PlanStore.pin
  rw [slot_put]
  split_ifs with same
  · rw [same.1]
  · rfl

/-! ### The steps of a START -/

/-- The part RUNNING with a configuration record, its two plans pinned and its flash colours taken (R203, R36, R134). -/
def State.configured (s : State) (c : ConfigRecord) : State :=
  { s with
    port.config := some c
    port.part := .running
    store := (s.store.pin c.defaultPlan).pin c.fallbackPlan
    bank := s.bank.takeColours c.flashYellow }

/-- The flash left where the effective action is not FLASH (R111). -/
def State.released (s : State) : State := if s.faults.effective = .flash then s else flashExit s

theorem beginRunning_eq (c : ConfigRecord) (s : State) :
    beginRunning c s = (evaluateSchedule (startCoordinator (s.configured c))).released := rfl

theorem released_flash {s : State} (h : s.faults.effective = .flash) : s.released = s := if_pos h

theorem released_other {s : State} (h : s.faults.effective ≠ .flash) : s.released = flashExit s := if_neg h

theorem delivers_released (s : State) : Delivers s s.released := by
  unfold State.released
  split
  · exact Delivers.refl s
  · exact delivers_flashExit s

theorem aside_released (s : State) : Aside s s.released := by
  unfold State.released
  split
  · exact Aside.refl s
  · exact aside_flashExit s

theorem flashExit_seq_ne_flash (s : State) : (flashExit s).seq.state ≠ .flash := by
  unfold flashExit
  split
  · simp [setSeq_seq]
  · assumption

/-- The Sequencer is released from flash but where FLASH is the effective action. -/
theorem released_seq {s : State} (h : s.released.seq.state = .flash) : s.released.faults.effective = .flash := by
  by_cases flash : s.faults.effective = .flash
  · rwa [released_flash flash]
  · rw [released_other flash] at h
    exact absurd h (flashExit_seq_ne_flash s)

theorem startCoordinator_coord (s : State) :
    (startCoordinator s).coord =
      { s.coord with state := .suspended, cause := some .flash, position := 0, figures := none, finalMark := false } := by
  simp [startCoordinator, setCoord_coord]

theorem evaluateSchedule_timetable {s : State} (run : s.running = true) :
    (evaluateSchedule s).timetable =
      { s.timetable with
        scheduled := some (s.timetable.find s.clock.reading s.cfg.defaultPlan).1
        source := (s.timetable.find s.clock.reading s.cfg.defaultPlan).2 } := by
  unfold evaluateSchedule
  rw [if_pos run]
  dsimp only
  split
  · rename_i same
    simp [← same]
  · rw [(apart_decideGoverning _).timetable, post_timetable]

theorem evaluateSchedule_cut {s : State} (cut : s.coord.Cut) : (evaluateSchedule s).coord.Cut := by
  unfold evaluateSchedule
  split
  · dsimp only
    split
    · exact cut
    · exact (apart_decideGoverning _).cut (by rwa [post_coord])
  · exact cut

/-! ### What a START leaves in general -/

/-- What `Kept` lists stays as the configured part has it. -/
theorem kept_beginRunning (c : ConfigRecord) (s : State) : Kept (s.configured c) (beginRunning c s) :=
  ((delivers_startCoordinator _).trans (delivers_evaluateSchedule _)).trans (delivers_released _) |>.kept

theorem beginRunning_timetable (c : ConfigRecord) (s : State) :
    (beginRunning c s).timetable =
      { s.timetable with
        scheduled := some (s.timetable.find s.clock.reading c.defaultPlan).1
        source := (s.timetable.find s.clock.reading c.defaultPlan).2 } := by
  have start : (startCoordinator (s.configured c)).running = true := by
    simp [startCoordinator, State.configured, State.running]
  rw [beginRunning_eq, (aside_released _).timetable, evaluateSchedule_timetable start]
  simp [startCoordinator, State.configured, State.cfg]

theorem beginRunning_cut (c : ConfigRecord) (s : State) : (beginRunning c s).coord.Cut := by
  rw [beginRunning_eq]
  refine (aside_released _).cut (evaluateSchedule_cut ?_)
  rw [startCoordinator_coord]
  exact ⟨rfl, rfl, rfl, rfl⟩

/-! ### Blocks as a reset leaves them -/

/-- Where the first governing plan `g` of a part just configured is looked for: nothing raised, no adoption stands, and the
junction is in flash. -/
structure Starting (c : ConfigRecord) (g : Adoption) (s : State) : Prop where
  part : s.port.part = .running
  config : s.port.config = some c
  clear : ∀ k, (s.faults.record k).state = .clear
  effective : s.faults.effective = .report
  orders : s.orders = { OrderHandler.reset with governing := some g, govSource := .schedule }
  coord : s.coord = { Coordinator.reset with state := .suspended, cause := some .flash }
  flash : s.seq.state = .flash

theorem Starting.running {c : ConfigRecord} {g : Adoption} {s : State} (h : Starting c g s) : s.running = true := by
  simp [State.running, h.part]

/-- The plan that the timetable schedules, DAILY. -/
def State.firstPlan (s : State) (c : ConfigRecord) : Adoption :=
  { plan := (s.timetable.find s.clock.reading c.defaultPlan).1, reference := .daily }

theorem decideGoverning_new {g : Adoption} {source : GovSource} {s : State} (now : s.governingNow = (some g, source))
    (new : s.orders.governing ≠ some g) :
    decideGoverning s =
      checkMissing true g (post (.governing g source) { s with orders.governing := some g, orders.govSource := source }) := by
  unfold decideGoverning
  simp only [now, new, if_false]

/-- Blocks that stand as a reset leaves them, and no fault. -/
structure AtReset (s : State) : Prop where
  orders : s.orders = OrderHandler.reset
  coord : s.coord = Coordinator.reset
  scheduled : s.timetable.scheduled = none
  flash : s.seq.state = .flash
  clear : ∀ k, (s.faults.record k).state = .clear
  effective : s.faults.effective = .report

/-- The scheduled plan governs, and its slot is looked at (R42, R73, R74). -/
theorem evaluateSchedule_start (c : ConfigRecord) {s : State} (h : AtReset s) :
    ∃ w, Starting c (s.firstPlan c) w ∧ w.store = (s.configured c).store
      ∧ evaluateSchedule (startCoordinator (s.configured c)) = checkMissing true (s.firstPlan c) w := by
  obtain ⟨orders, coord, scheduled, flash, clear, effective⟩ := h
  generalize begun : startCoordinator (s.configured c) = u
  have timetable : u.timetable = s.timetable := by simp [← begun, startCoordinator, State.configured]
  have reading : u.clock = s.clock := by simp [← begun, startCoordinator, State.configured]
  have config : u.port.config = some c := by simp [← begun, State.configured]
  have part : u.port.part = .running := by simp [← begun, startCoordinator, State.configured]
  have lists : u.orders = OrderHandler.reset := by simp [← begun, startCoordinator, State.configured, orders]
  have faults : u.faults = s.faults := by simp [← begun, State.configured]
  have store : u.store = (s.configured c).store := by simp [← begun, startCoordinator]
  have suspended : u.coord = { Coordinator.reset with state := .suspended, cause := some .flash } := by
    rw [← begun, startCoordinator_coord]
    simp only [State.configured, coord]
    rfl
  have seq : u.seq = s.seq := by simp [← begun, startCoordinator, State.configured]
  have cfg : u.cfg = c := by simp [State.cfg, config]
  have run : u.running = true := by simp [State.running, part]
  refine ⟨post (.governing (s.firstPlan c) .schedule)
    { post (.schedule 0 (s.timetable.find s.clock.reading c.defaultPlan).1 (s.timetable.find s.clock.reading c.defaultPlan).2)
        { u with
          timetable.scheduled := some (s.timetable.find s.clock.reading c.defaultPlan).1
          timetable.source := (s.timetable.find s.clock.reading c.defaultPlan).2 } with
      orders.governing := some (s.firstPlan c), orders.govSource := .schedule }, ?_, ?_, ?_⟩
  · constructor <;> simp [config, part, lists, faults, suspended, seq, clear, effective, flash]
  · simp [store]
  · unfold evaluateSchedule
    rw [if_pos run]
    simp only [cfg, timetable, reading, scheduled, reduceCtorEq, if_false, Option.getD_none]
    refine decideGoverning_new ?_ ?_
    · simp [State.governingNow, OrderHandler.inForce, lists, OrderHandler.reset, State.firstPlan]
    · simp [lists, OrderHandler.reset]

/-! ### The startup red -/

/-- Startup red has begun with its whole count and every group RED (R111). -/
structure Begun (c : ConfigRecord) (s : State) : Prop where
  state : s.seq.state = .startupRed
  count : s.seq.startupCount = c.startupRed
  flash : s.bank.flash = false
  red : ∀ h : Group, s.bank.drive[h] = .red

/-- The flash left begins startup red. -/
theorem begun_flashExit {c : ConfigRecord} {s : State} (config : s.port.config = some c) (flash : s.seq.state = .flash) :
    Begun c (flashExit s) := by
  unfold flashExit
  rw [if_pos flash]
  refine ⟨?_, ?_, rfl, fun h => ?_⟩
  · simp [setSeq_seq]
  · simp [State.cfg, config]
  · simp [OutputBank.stopFlash, OutputBank.redrive]

theorem flashExit_flashExit (s : State) : flashExit (flashExit s) = flashExit s :=
  if_neg (flashExit_seq_ne_flash s)

/-! ### The first plan stored -/

/-- A scheduled plan whose slot is not EMPTY is requested and staged (R73, R84). -/
theorem checkMissing_stored {c : ConfigRecord} {g : Adoption} {s : State} (h : Starting c g s)
    (stored : (s.slot g.plan).state ≠ .empty) :
    ∃ u, s.store.stage g.plan = some u
      ∧ checkMissing true g s =
        { s with store := u, coord.requested := some g, coord.staged := some { adoption := g, wait := 1 } } := by
  obtain ⟨u, stage⟩ := stage_some stored
  have filled : s.slotEmpty g.plan = false := decide_eq_false stored
  refine ⟨u, stage, ?_⟩
  simp [checkMissing, filled, adoptionRequest, putForward, stage, h.orders, h.coord, OrderHandler.reset, Coordinator.reset,
    State.waitCount]

/-! ### The first plan missing -/

theorem worse_report_left (a : FaultAction) : FaultAction.worse .report a = a := by cases a <;> rfl

theorem worse_report_right (a : FaultAction) : a.worse .report = a := by cases a <;> rfl

/-- With one record alone not CLEAR the effective action is that of its class (R172). -/
theorem mostSevere_planMissing {c : ConfigRecord} {f : FaultUnit} (clear : ∀ k, k ≠ .planMissing → (f.record k).state = .clear)
    (active : (f.record .planMissing).state = .active) : mostSevere (some c) f = c.actions[2] := by
  have none : ∀ k, k ≠ .planMissing → contribution (some c) f k = .report := fun k other => by simp [contribution, clear k other]
  have one : contribution (some c) f .planMissing = c.actions[2] := by simp [contribution, active, actionOf]
  simp [mostSevere, allClasses, none, one, worse_report_left, worse_report_right]

/-- What putting an adoption forward leaves of the Sequencer, the Output Bank, the faults, the exchange's part and record, and
of a Coordinator that no adoption is requested of. -/
structure Forward (s t : State) : Prop where
  seq : t.seq = s.seq
  faults : t.faults = s.faults
  part : t.port.part = s.port.part
  config : t.port.config = s.port.config
  requested : s.coord.requested = none → t.coord.requested = none

theorem forward_putForward (a : Adoption) (s : State) : Forward s (putForward a s) := by
  unfold putForward
  split
  · split <;> exact ⟨rfl, rfl, rfl, rfl, id⟩
  · split
    · exact ⟨rfl, rfl, rfl, rfl, id⟩
    · split
      · exact ⟨rfl, rfl, rfl, rfl, id⟩
      · exact ⟨post_seq _ _, post_faults _ _, post_port_part _ _, post_port_config _ _, fun _ => by rw [post_coord]⟩

theorem forward_setFallback (s : State) : Forward s (setFallback s) := by
  obtain ⟨seq, faults, part, config, requested⟩ :=
    forward_putForward { plan := s.cfg.fallbackPlan, reference := .daily } { s with coord.fallbackMark := true }
  exact ⟨seq, faults, part, config, requested⟩

/-- An action delivered to a Coordinator in SUSPENDED without the fallback mark. -/
theorem forward_deliverCoordinator (action : FaultAction) {s : State} (suspended : s.coord.state = .suspended)
    (mark : s.coord.fallbackMark = false) : Forward s (deliverCoordinator action s) := by
  have same : clearFallback s = s := by simp [clearFallback, mark]
  unfold deliverCoordinator
  rw [isolationChange_suspended suspended]
  cases action
  case fallback => exact forward_setFallback s
  all_goals simp only [same]; exact ⟨rfl, rfl, rfl, rfl, id⟩

theorem deliverSequencer_flash {s : State} (flash : s.seq.state = .flash) : deliverSequencer .flash s = s := if_pos flash

theorem deliverSequencer_other {action : FaultAction} {s : State} (running : s.port.part = .running) (other : action ≠ .flash) :
    deliverSequencer action s = flashExit s := by
  have run : s.running = true := by simp [State.running, running]
  cases action
  case flash => exact absurd rfl other
  all_goals exact if_pos run

/-- The state that an effective action has just been set and posted in. -/
def State.acting (s : State) (action : FaultAction) (cause : FaultClass) : State :=
  post (.effectiveAction s.faults.effective action cause) { s with faults.effective := action }

/-- An effective action that changes in flash with the Coordinator suspended is delivered once (R172, R173). -/
theorem settleAction_once {n : Nat} {cause : FaultClass} {action : FaultAction} {s : State}
    (severe : mostSevere s.port.config s.faults = action) (new : action ≠ s.faults.effective) (running : s.port.part = .running)
    (flash : s.seq.state = .flash) (suspended : s.coord.state = .suspended) (mark : s.coord.fallbackMark = false) :
    settleAction (n + 1) cause s =
      if action = .flash then deliverCoordinator action (s.acting action cause)
      else flashExit (deliverCoordinator action (s.acting action cause)) := by
  obtain ⟨seq, faults, part, config, -⟩ := forward_deliverCoordinator action (s := s.acting action cause)
    (by rwa [State.acting, post_coord]) (by rwa [State.acting, post_coord])
  generalize delivered : deliverCoordinator action (s.acting action cause) = q at seq faults part config ⊢
  have sequenced : deliverSequencer action q = if action = .flash then q else flashExit q := by
    split_ifs with same
    · rw [same]
      exact deliverSequencer_flash (by rw [seq, State.acting, post_seq]; exact flash)
    · exact deliverSequencer_other (by rw [part, State.acting, post_port_part]; exact running) same
  have settled : q.Settled := by
    rw [State.Settled, faults, config, State.acting, post_faults, post_port_config]
    exact severe.symm
  unfold settleAction
  simp only [severe, new, if_false]
  change settleAction n .transitionOverrun (deliverSequencer action (deliverCoordinator action (s.acting action cause))) = _
  rw [delivered, sequenced]
  split_ifs
  · exact settleAction_settled _ _ _ settled
  · exact settleAction_settled _ _ _ ((calm_flashExit q).steady settled)

theorem raiseRecord_clear {k : FaultClass} {detail : Option Nat} {s : State} (running : s.port.part = .running)
    (clear : (s.faults.record k).state = .clear) :
    raiseRecord k detail s =
      post (.faultRaised k detail (countUp 255 (s.faults.record k).count))
        { s with
          faults := s.faults.setRecord k
            { state := .active, count := countUp 255 (s.faults.record k).count
              firstRaised := some ((s.faults.record k).firstRaised.getD s.clock.reading), detail := detail } } := by
  have run : s.running = true := by simp [State.running, running]
  unfold raiseRecord
  simp only [run, if_true, clear]

/-- PLAN_MISSING stands raised for a plan, no adoption is requested, and the junction is in flash. -/
structure Missing (c : ConfigRecord) (plan : Nat) (s : State) : Prop where
  config : s.port.config = some c
  requested : s.coord.requested = none
  flash : s.seq.state = .flash
  active : (s.faults.record .planMissing).state = .active
  detail : (s.faults.record .planMissing).detail = some plan

theorem Missing.forward {c : ConfigRecord} {plan : Nat} {s t : State} (h : Missing c plan s) (k : Forward s t) : Missing c plan t :=
  ⟨k.config.trans h.config, k.requested h.requested, k.seq ▸ h.flash, k.faults ▸ h.active, k.faults ▸ h.detail⟩

theorem Missing.acting {c : ConfigRecord} {plan : Nat} {s : State} (h : Missing c plan s) (action : FaultAction)
    (cause : FaultClass) : Missing c plan (s.acting action cause) := by
  obtain ⟨config, requested, flash, active, detail⟩ := h
  constructor <;> simp only [State.acting, post_port_config, post_coord, post_seq, post_faults]
  all_goals assumption

/-- A part just configured whose scheduled plan is missing, its record taken and its action not yet delivered. -/
structure Undelivered (c : ConfigRecord) (plan : Nat) (s : State) : Prop extends Missing c plan s where
  part : s.port.part = .running
  effective : s.faults.effective = .report
  severe : mostSevere s.port.config s.faults = c.actions[2]
  suspended : s.coord.state = .suspended
  mark : s.coord.fallbackMark = false

theorem undelivered_raiseRecord {c : ConfigRecord} {g : Adoption} {s : State} (h : Starting c g s) :
    Undelivered c g.plan (raiseRecord .planMissing (some g.plan) { s with orders.planMissing := true }) := by
  rw [raiseRecord_clear (s := { s with orders.planMissing := true }) h.part (h.clear _)]
  refine ⟨⟨?_, ?_, ?_, ?_, ?_⟩, ?_, ?effective, ?severe, ?_, ?_⟩
  case effective =>
    rw [post_faults]
    exact h.effective
  case severe =>
    simp only [post_port_config, post_faults, h.config]
    refine mostSevere_planMissing (fun k other => ?_) ?_
    · rw [record_setRecord, if_neg other]
      exact h.clear k
    · rw [record_setRecord, if_pos rfl]
  all_goals simp [h.config, h.coord, h.flash, h.part, Coordinator.reset, record_setRecord]

/-- The record taken, its action is delivered: FLASH leaves the flash as it is, and any other begins startup red (R111,
R172). -/
theorem settled_planMissing {c : ConfigRecord} {plan n : Nat} {s : State} (h : Undelivered c plan s) :
    ∃ q, Missing c plan q
      ∧ (settleAction (n + 1) .planMissing s).released = if c.actions[2] = .flash then q else flashExit q := by
  by_cases report : c.actions[2] = .report
  · have same : settleAction (n + 1) .planMissing s = s :=
      settleAction_settled _ _ _ (by rw [State.Settled, h.severe, h.effective, report])
    have leaves : s.faults.effective ≠ .flash := by rw [h.effective]; decide
    exact ⟨s, h.toMissing, by rw [same, released_other leaves, report]; rfl⟩
  · have forward := forward_deliverCoordinator c.actions[2] (s := s.acting c.actions[2] .planMissing)
      (by rw [State.acting, post_coord]; exact h.suspended) (by rw [State.acting, post_coord]; exact h.mark)
    have acts : (deliverCoordinator c.actions[2] (s.acting c.actions[2] .planMissing)).faults.effective = c.actions[2] := by
      rw [forward.faults, State.acting, post_faults]
    refine ⟨_, (h.toMissing.acting _ _).forward forward, ?_⟩
    rw [settleAction_once h.severe (h.effective ▸ report) h.part h.flash h.suspended h.mark]
    split_ifs with flash
    · exact released_flash (acts.trans flash)
    · rw [released_other (by rwa [flashExit_faults, acts]), flashExit_flashExit]

/-- A scheduled plan whose slot is EMPTY raises PLAN_MISSING (R74). -/
theorem checkMissing_empty {c : ConfigRecord} {g : Adoption} {s : State} (h : Starting c g s)
    (empty : (s.slot g.plan).state = .empty) :
    checkMissing true g s = raise .planMissing (some g.plan) { s with orders.planMissing := true } := by
  have missing : s.slotEmpty g.plan = true := decide_eq_true empty
  simp [checkMissing, missing, h.orders, OrderHandler.reset]

/-! ### The first plan taken -/

theorem flashExit_coord (s : State) : (flashExit s).coord = s.coord := by
  unfold flashExit
  split
  · exact setSeq_coord _ _
  · rfl

theorem flashExit_store (s : State) : (flashExit s).store = s.store := by
  unfold flashExit
  split
  · exact setSeq_store _ _
  · rfl

/-- What the first plan's slot decides (R73, R74, R84, R111): with a plan stored it is requested and staged and startup red
begins; with none PLAN_MISSING is raised, and startup red begins unless its action is FLASH. -/
structure FirstPlan (c : ConfigRecord) (g : Adoption) (state : SlotState) (t : State) : Prop where
  governing : t.orders.governing = some g
  source : t.orders.govSource = .schedule
  missing : t.orders.planMissing = decide (state = .empty)
  requested : t.coord.requested = if state = .empty then none else some g
  stored : state ≠ .empty →
    t.coord.staged = some { adoption := g, wait := 1 }
      ∧ (t.slot g.plan).state = (if state = .active then .active else .staged)
      ∧ t.faults.effective = .report ∧ Begun c t
  raised : state = .empty → (t.faults.record .planMissing).state = .active ∧ (t.faults.record .planMissing).detail = some g.plan
  held : state = .empty → c.actions[2] = .flash → t.seq.state = .flash
  left : state = .empty → c.actions[2] ≠ .flash → Begun c t

theorem firstPlan_stored {c : ConfigRecord} {g : Adoption} {w : State} (start : Starting c g w)
    (stored : (w.slot g.plan).state ≠ .empty) :
    FirstPlan c g (w.slot g.plan).state (checkMissing true g w).released := by
  obtain ⟨u, stage, checked⟩ := checkMissing_stored start stored
  generalize checkMissing true g w = q at checked ⊢
  have effective : q.faults.effective = .report := by rw [checked]; exact start.effective
  have orders : (flashExit q).orders = w.orders := by rw [(aside_flashExit q).orders, checked]
  have slot : ((flashExit q).slot g.plan).state = if (w.slot g.plan).state = .active then .active else .staged := by
    rw [State.slot, flashExit_store, checked]
    exact stage_state_same stage
  rw [released_other (by rw [effective]; decide)]
  refine ⟨by rw [orders, start.orders], by rw [orders, start.orders], ?_, ?_, fun _ => ⟨?_, slot, ?_, ?_⟩,
    fun empty => absurd empty stored, fun empty => absurd empty stored, fun empty => absurd empty stored⟩
  · rw [orders, start.orders, decide_eq_false stored]
    rfl
  · rw [flashExit_coord, checked, if_neg stored]
  · rw [flashExit_coord, checked]
  · rw [flashExit_faults, effective]
  · exact begun_flashExit (by rw [checked]; exact start.config) (by rw [checked]; exact start.flash)

theorem firstPlan_empty {c : ConfigRecord} {g : Adoption} {w : State} (start : Starting c g w)
    (empty : (w.slot g.plan).state = .empty) :
    FirstPlan c g (w.slot g.plan).state (checkMissing true g w).released := by
  have checked := checkMissing_empty start empty
  have orders : (checkMissing true g w).released.orders = { w.orders with planMissing := true } := by
    rw [(aside_released _).orders, checked, (aside_raise _ _ _).orders]
  obtain ⟨q, missing, result⟩ := settled_planMissing (n := 3) (undelivered_raiseRecord start)
  change (raise .planMissing (some g.plan) { w with orders.planMissing := true }).released = _ at result
  rw [← checked] at result
  have requested : (checkMissing true g w).released.coord.requested = none := by
    rw [result]
    split_ifs
    · exact missing.requested
    · rw [flashExit_coord, missing.requested]
  have faults : (checkMissing true g w).released.faults = q.faults := by
    rw [result]
    split_ifs
    · rfl
    · exact flashExit_faults q
  refine ⟨by rw [orders, start.orders], by rw [orders, start.orders], ?_, ?_, fun stored => absurd empty stored,
    fun _ => ⟨faults ▸ missing.active, faults ▸ missing.detail⟩, fun _ flash => ?_, fun _ other => ?_⟩
  · rw [orders, decide_eq_true empty]
  · rw [requested, if_pos empty]
  · rw [result, if_pos flash]
    exact missing.flash
  · rw [result, if_neg other]
    exact begun_flashExit missing.config missing.flash

/-- A START from blocks as a reset leaves them takes the plan that the timetable schedules (R42, R73). -/
theorem firstPlan_beginRunning (c : ConfigRecord) {s : State} (h : AtReset s) :
    FirstPlan c (s.firstPlan c) (s.slot (s.firstPlan c).plan).state (beginRunning c s) := by
  obtain ⟨w, start, store, evaluated⟩ := evaluateSchedule_start c h
  have slot : (w.slot (s.firstPlan c).plan).state = (s.slot (s.firstPlan c).plan).state := by
    rw [State.slot, store]
    exact (pin_state _ _ _).trans (pin_state _ _ _)
  rw [beginRunning_eq, evaluated, ← slot]
  by_cases empty : (w.slot (s.firstPlan c).plan).state = .empty
  · exact firstPlan_empty start empty
  · exact firstPlan_stored start empty

/-! ### START, its answer held -/

/-- What an accepted START leaves (R203). -/
structure Opened (c : ConfigRecord) (s t : State) : Prop where
  part : t.port.part = .running
  config : t.port.config = some c
  cut : t.coord.Cut
  flash : t.seq.state = .flash → t.faults.effective = .flash
  timetable : t.timetable =
    { s.timetable with
      scheduled := some (s.timetable.find s.clock.reading c.defaultPlan).1
      source := (s.timetable.find s.clock.reading c.defaultPlan).2 }
  pinned : ∀ n, 1 ≤ n → n ≤ 32 → (t.slot n).pinned = ((s.slot n).pinned || n == c.defaultPlan || n == c.fallbackPlan)
  plans : ∀ n, t.storedPlan n = s.storedPlan n
  clock : t.clock = s.clock
  orders : t.orders.entries = s.orders.entries
  issued : t.orders.issued = s.orders.issued
  line : t.line = s.line
  latches : t.seq.latches = s.seq.latches
  inputs : t.preempt.pe1 = s.preempt.pe1 ∧ t.preempt.pe2 = s.preempt.pe2
  first : AtReset s → FirstPlan c (s.firstPlan c) (s.slot (s.firstPlan c).plan).state t

theorem opened_beginRunning (c : ConfigRecord) (s : State) : Opened c s (beginRunning c s) := by
  have kept := kept_beginRunning c s
  refine ⟨kept.part, kept.config, beginRunning_cut c s, fun flash => released_seq flash, beginRunning_timetable c s,
    fun n low high => (kept.pinned n).trans ?_, fun n => (kept.plans n).trans ?_, kept.clock, kept.orders, kept.issued, kept.line,
    kept.latches, kept.inputs, firstPlan_beginRunning c⟩
  · simp only [State.slot, State.configured, slot_pin _ _ n ⟨low, high⟩]
  · simp only [State.storedPlan, State.slot, State.configured, pin_plan]

theorem FirstPlan.hold {c : ConfigRecord} {g : Adoption} {state : SlotState} {t : State} (h : FirstPlan c g state t)
    (request seq : Byte) (a : Answer) : FirstPlan c g state (hold request seq a t) := by
  have begun : Begun c t → Begun c (Machine.hold request seq a t) := fun b => ⟨b.state, b.count, b.flash, b.red⟩
  refine ⟨h.governing, h.source, h.missing, h.requested, fun stored => ?_, h.raised, h.held,
    fun empty other => begun (h.left empty other)⟩
  obtain ⟨staged, slot, effective, begins⟩ := h.stored stored
  exact ⟨staged, slot, effective, begun begins⟩

theorem atReset_discardHeld {s : State} (h : AtReset s) : AtReset (discardHeld s) := by
  obtain ⟨orders, coord, scheduled, flash, clear, effective⟩ := h
  constructor <;> simpa

theorem opened_hold (c : ConfigRecord) (request seq : Byte) (a : Answer) (s : State) :
    Opened c s (hold request seq a (beginRunning c (discardHeld s))) := by
  have opened := opened_beginRunning c (discardHeld s)
  generalize beginRunning c (discardHeld s) = t at opened ⊢
  obtain ⟨part, config, cut, flash, timetable, pinned, plans, clock, orders, issued, line, latches, inputs, first⟩ := opened
  simp only [State.firstPlan, discardHeld_clock, discardHeld_timetable, discardHeld_line, discardHeld_orders, discardHeld_seq,
    discardHeld_preempt, discardHeld_slot, discardHeld_storedPlan]
    at timetable pinned plans clock orders issued line latches inputs first
  exact ⟨part, config, ⟨cut.state, cut.cause, cut.position, cut.figures⟩, flash, timetable, pinned, plans, clock, orders, issued,
    line, latches, inputs, fun reset => (first (atReset_discardHeld reset)).hold request seq a⟩

/-- No fault stands in CONFIGURING, and so the effective action is REPORT (R172, R173). -/
theorem atReset_of_inv {s : State} (inv : Inv s) (stopped : s.port.part = .configuring) (orders : s.orders = OrderHandler.reset)
    (coord : s.coord = Coordinator.reset) (scheduled : s.timetable.scheduled = none) (flash : s.seq.state = .flash) : AtReset s :=
  have clear := inv.toRooms.quiet stopped
  ⟨orders, coord, scheduled, flash, clear, inv.settled.trans (mostSevere_clear _ _ clear)⟩

end Sys2Proof.Machine

open Sys2Proof Sys2Proof.Machine

/-- Settles O15: the refusals of R202 in their order, and what `beginRunning` leaves (`Opened`, `FirstPlan`). -/
theorem startChecksItsRecordAndBeginsRunning : Obligations.StartChecksItsRecordAndBeginsRunning := by
  classical
  intro seq body s stopped length
  refine ⟨fun out => ?range, fun fits empty => ?default, fun fits default empty => ?fallback, fun fits default fallback => ?_⟩
  case range =>
    exact exec_start_refused seq stopped length (a := plain .range) (by rw [configRefusal_eq, if_pos out])
  case default =>
    refine exec_start_refused seq stopped length (a := invalid .planEmpty (field body 12 1)) ?_
    rw [configRefusal_eq, if_neg (not_not.mpr fits), if_pos (show (s.store.slot _).state = _ from empty)]
  case fallback =>
    refine exec_start_refused seq stopped length (a := invalid .planEmpty (field body 13 1)) ?_
    rw [configRefusal_eq, if_neg (not_not.mpr fits), if_neg (show (s.store.slot _).state ≠ _ from default),
      if_pos (show (s.store.slot _).state = _ from empty)]
  · have accepted : configRefusal s.store body = none := by
      rw [configRefusal_eq, if_neg (not_not.mpr fits), if_neg (show (s.store.slot _).state ≠ _ from default),
        if_neg (show (s.store.slot _).state ≠ _ from fallback)]
    obtain ⟨part, config, cut, flash, timetable, pinned, plans, clock, orders, issued, line, latches, ⟨pe1, pe2⟩, first⟩ :=
      opened_hold (readConfig body) 0x03 seq (done []) s
    refine ⟨_, readConfig body, exec_start seq stopped length accepted, configRead_readConfig fits, part, config, rfl, cut.state,
      cut.cause, cut.position, cut.figures, flash, by rw [timetable], by rw [timetable], pinned, plans, clock, by rw [timetable],
      by rw [timetable], by rw [timetable], orders, issued, line, latches, pe1, pe2,
      fun inv lists coordinator scheduled sequencer => ?_⟩
    obtain ⟨governing, source, missing, requested, stored, raised, held, left⟩ :=
      first (atReset_of_inv inv stopped lists coordinator scheduled sequencer)
    refine ⟨governing, source, fun filled => ?_, fun empty => ?_⟩
    · obtain ⟨staged, slot, effective, begins⟩ := stored filled
      exact ⟨missing.trans (decide_eq_false filled), requested.trans (if_neg filled), staged, slot, effective, begins.state,
        begins.count, begins.flash, begins.red⟩
    · obtain ⟨active, detail⟩ := raised empty
      refine ⟨missing.trans (decide_eq_true empty), requested.trans (if_pos empty), active, detail,
        fun flash => held empty (Option.some.inj flash), fun other => ?_⟩
      have begins := left empty fun flash => other (congrArg some flash)
      exact ⟨begins.state, begins.count, begins.flash, begins.red⟩

end

section
/-! The schedule (R41, R42): day types, the day before a day, the latest applying entry of a list, and the look-back, each by an
equation of its own. -/

set_option Elab.async false

namespace Sys2Proof.Machine

/-! ### Calendar days -/

/-- Where the list has a special day of a calendar day, one of them is found (R41). -/
theorem special_some {t : Timetable} {week day : Nat} (h : ∃ x ∈ t.specials, x.week = week ∧ x.day = day) :
    ∃ x ∈ t.specials, (x.week = week ∧ x.day = day) ∧ t.special week day = some x := by
  cases found : t.special week day with
  | none =>
    obtain ⟨x, mem, same⟩ := h
    exact absurd same (special_none found x mem)
  | some x =>
    have same := List.find?_some found
    simp only [Bool.and_eq_true, decide_eq_true_eq] at same
    exact ⟨x, List.mem_of_find?_eq_some found, same, rfl⟩

theorem special_eq_none {t : Timetable} {week day : Nat} (h : ∀ x ∈ t.specials, ¬ (x.week = week ∧ x.day = day)) :
    t.special week day = none :=
  List.find?_eq_none.mpr fun x mem => by simpa using h x mem

/-- A special day that is alone on its day decides the day's type (R41). -/
theorem dayType_special {t : Timetable} {week day : Nat} {d : SpecialDay} (mem : d ∈ t.specials) (same : d.week = week ∧ d.day = day)
    (alone : ∀ x ∈ t.specials, x.week = week → x.day = day → x = d) :
    (d.type = .a → t.dayType week day = 7) ∧ (d.type = .b → t.dayType week day = 8) := by
  obtain ⟨x, inside, here, found⟩ := special_some ⟨d, mem, same⟩
  obtain rfl := alone x inside here.1 here.2
  simp only [Timetable.dayType, found]
  exact ⟨fun type => by rw [type], fun type => by rw [type]⟩

/-- Without a special day a day has its weekday as its type (R41). -/
theorem dayType_plain {t : Timetable} {week day : Nat} (plain : ∀ d ∈ t.specials, d.week = week → d.day ≠ day) :
    t.dayType week day = day := by
  unfold Timetable.dayType
  rw [special_eq_none fun x mem same => plain x mem same.1 same.2]

theorem dayBefore_succ (week day : Nat) : dayBefore week (day + 1) = (week, day) := by
  simp [dayBefore]

/-- The day before a Monday is the Sunday of the week before (R41). -/
theorem dayBefore_monday {week : Nat} (h : week < 65535) : dayBefore (week + 1) 0 = (week, 6) := by
  have back : (week + 1 + 65535) % 65536 = week := by omega
  simp [dayBefore, back]

/-! ### The latest applying entry -/

/-- An entry applies to a day type and starts at `latest` or earlier (R42). -/
def Entry.Applies (e : Entry) (dayType latest : Nat) : Prop := e.days.getLsbD dayType = true ∧ e.start ≤ latest

/-- Of a list's applying entries this is one of greatest start; there is none without an applying entry. -/
def IsLatest (entries : List Entry) (dayType latest : Nat) : Option Entry → Prop
  | none => ∀ x ∈ entries, ¬ x.Applies dayType latest
  | some e => (e ∈ entries ∧ e.Applies dayType latest) ∧ ∀ x ∈ entries, x.Applies dayType latest → x.start ≤ e.start

section
variable {entries : List Entry} {dayType latest : Nat}

/-- An entry that does not apply decides nothing behind a list. -/
theorem IsLatest.skip {best : Option Entry} (h : IsLatest entries dayType latest best) {e : Entry}
    (out : ¬ e.Applies dayType latest) : IsLatest (entries ++ [e]) dayType latest best := by
  cases best with
  | none =>
    intro x mem
    rcases List.mem_append.mp mem with mem | mem
    · exact h x mem
    · rwa [List.mem_singleton.mp mem]
  | some b =>
    refine ⟨⟨List.mem_append_left _ h.1.1, h.1.2⟩, fun x mem applies => ?_⟩
    rcases List.mem_append.mp mem with mem | mem
    · exact h.2 x mem applies
    · exact absurd (List.mem_singleton.mp mem ▸ applies) out

/-- An entry behind a list is the latest when it applies and no applying entry of the list starts after it. -/
theorem IsLatest.take {e : Entry} (applies : e.Applies dayType latest)
    (last : ∀ x ∈ entries, x.Applies dayType latest → x.start ≤ e.start) :
    IsLatest (entries ++ [e]) dayType latest (some e) := by
  refine ⟨⟨by simp, applies⟩, fun x mem here => ?_⟩
  rcases List.mem_append.mp mem with mem | mem
  · exact last x mem here
  · exact (congrArg Entry.start (List.mem_singleton.mp mem)).le

/-- The latest of a list stays the latest before an applying entry that does not start after it. -/
theorem IsLatest.keep {b e : Entry} (h : IsLatest entries dayType latest (some b)) (early : e.start ≤ b.start) :
    IsLatest (entries ++ [e]) dayType latest (some b) := by
  refine ⟨⟨List.mem_append_left _ h.1.1, h.1.2⟩, fun x mem here => ?_⟩
  rcases List.mem_append.mp mem with mem | mem
  · exact h.2 x mem here
  · rwa [List.mem_singleton.mp mem]

theorem isLatest_lastApplying (entries : List Entry) (dayType latest : Nat) :
    IsLatest entries dayType latest (lastApplying entries dayType latest) := by
  induction entries using List.reverseRecOn with
  | nil => exact fun x mem => absurd mem List.not_mem_nil
  | append_singleton l e ih =>
    unfold lastApplying at ih ⊢
    rw [List.foldl_append, List.foldl_cons, List.foldl_nil]
    generalize List.foldl _ none l = best at ih ⊢
    split_ifs with applies
    · cases best with
      | none => exact .take applies fun x mem here => absurd here (ih x mem)
      | some b =>
        dsimp only
        split_ifs with later
        · exact .take applies fun x mem here => (ih.2 x mem here).trans later.le
        · exact ih.keep (Nat.le_of_not_lt later)
    · exact ih.skip applies

theorem lastApplying_some (h : ∃ e ∈ entries, e.Applies dayType latest) :
    ∃ e, lastApplying entries dayType latest = some e ∧ (e ∈ entries ∧ e.Applies dayType latest)
      ∧ ∀ x ∈ entries, x.Applies dayType latest → x.start ≤ e.start := by
  have last := isLatest_lastApplying entries dayType latest
  cases found : lastApplying entries dayType latest with
  | none =>
    rw [found] at last
    obtain ⟨e, mem, applies⟩ := h
    exact absurd applies (last e mem)
  | some e =>
    rw [found] at last
    exact ⟨e, rfl, last⟩

theorem lastApplying_none (h : ∀ e ∈ entries, ¬ e.Applies dayType latest) : lastApplying entries dayType latest = none := by
  have last := isLatest_lastApplying entries dayType latest
  cases found : lastApplying entries dayType latest with
  | none => rfl
  | some e =>
    rw [found] at last
    exact absurd last.1.2 (h e last.1.1)

end

/-! ### The look-back -/

/-- The calendar day `n` days before a reading's. -/
def daysBack (now : NetTime) (n : Nat) : Nat × Nat := (fun d : Nat × Nat => dayBefore d.1 d.2)^[n] (now.week, now.day)

theorem daysBack_succ (now : NetTime) (n : Nat) : daysBack now (n + 1) = dayBefore (daysBack now n).1 (daysBack now n).2 :=
  Function.iterate_succ_apply' ..

/-- The latest entry of the whole day `n` days before a reading's. -/
def Timetable.latestBack (t : Timetable) (now : NetTime) (n : Nat) : Option Entry :=
  lastApplying t.entries (t.dayType (daysBack now n).1 (daysBack now n).2) 863999

section
variable {t : Timetable} {now : NetTime} {default : Nat}

/-- A step of the look-back takes the day before, or goes on behind it. -/
theorem lookBack_succ (left back : Nat) :
    t.lookBack default (left + 1) back (daysBack now back).1 (daysBack now back).2 =
      ((t.latestBack now (back + 1)).map fun e => (e.plan, Source.earlier (back + 1) e.start)).getD
        (t.lookBack default left (back + 1) (daysBack now (back + 1)).1 (daysBack now (back + 1)).2) := by
  rw [Timetable.lookBack, Timetable.latestBack, daysBack_succ]
  split
  · next e found => rw [found]; rfl
  · next noEntry => rw [noEntry]; rfl

/-- The look-back ends at the first day that has an entry. -/
theorem lookBack_found {n : Nat} {e : Entry} (found : t.latestBack now n = some e) {left back : Nat}
    (reached : back < n ∧ n ≤ back + left) (before : ∀ m, back < m → m < n → t.latestBack now m = none) :
    t.lookBack default left back (daysBack now back).1 (daysBack now back).2 = (e.plan, .earlier n e.start) := by
  induction left generalizing back with
  | zero => omega
  | succ left ih =>
    rw [lookBack_succ]
    rcases Nat.eq_or_lt_of_le (Nat.succ_le_of_lt reached.1) with rfl | further
    · rw [found]
      rfl
    · rw [before (back + 1) (by omega) further]
      exact ih (by omega) fun m low high => before m (by omega) high

/-- The look-back ends at the default plan when no day of it has an entry. -/
theorem lookBack_default {left back : Nat} (noEntry : ∀ m, back < m → m ≤ back + left → t.latestBack now m = none) :
    t.lookBack default left back (daysBack now back).1 (daysBack now back).2 = (default, .default) := by
  induction left generalizing back with
  | zero => rfl
  | succ left ih =>
    rw [lookBack_succ, noEntry (back + 1) (by omega) (by omega)]
    exact ih fun m low high => noEntry m (by omega) (by omega)

theorem find_today {e : Entry} (found : lastApplying t.entries (t.dayType now.week now.day) now.timeOfDay = some e) :
    t.find now default = (e.plan, .today e.start) := by
  rw [Timetable.find, found]

theorem find_back (noEntry : lastApplying t.entries (t.dayType now.week now.day) now.timeOfDay = none) :
    t.find now default = t.lookBack default 7 0 (daysBack now 0).1 (daysBack now 0).2 := by
  rw [Timetable.find, noEntry]
  rfl

end

/-- What is found does not hang on the plan and source found before. -/
theorem find_evaluated (t : Timetable) (scheduled : Option Nat) (source : Source) (now : NetTime) (default : Nat) :
    ({ t with scheduled := scheduled, source := source } : Timetable).find now default = t.find now default := rfl

end Sys2Proof.Machine

open Sys2Proof Sys2Proof.Machine

/-- Settles O23: the day types and the day before by their equations; the plan by the latest entry of today, of the first day
back that has one, or by default. -/
theorem theScheduleLooksBackSevenDays : Obligations.TheScheduleLooksBackSevenDays := by
  refine ⟨fun t week day => ⟨fun d mem inWeek onDay alone => dayType_special mem ⟨inWeek, onDay⟩ alone, dayType_plain,
    dayBefore_succ week day, dayBefore_monday, rfl⟩, fun t now default => ⟨fun applies => ?today, fun noToday back => ?earlier,
    fun noToday noBack => ?default⟩⟩
  case today =>
    obtain ⟨e, mem, applies⟩ := applies
    obtain ⟨e, found, ⟨mem, applies⟩, last⟩ := lastApplying_some ⟨e, mem, applies⟩
    exact ⟨e, ⟨⟨mem, applies⟩, fun x here => last x here.1 here.2⟩, find_today found⟩
  case earlier =>
    classical
    have noneToday := lastApplying_none fun e mem applies => noToday e ⟨mem, applies⟩
    have someDay : ∃ n, 1 ≤ n ∧ n ≤ 7 ∧ ∃ e ∈ t.entries, e.Applies (t.dayType (daysBack now n).1 (daysBack now n).2) 863999 := by
      obtain ⟨n, e, low, high, mem, applies⟩ := back
      exact ⟨n, low, high, e, mem, applies⟩
    obtain ⟨low, high, has⟩ := Nat.find_spec someDay
    have before : ∀ m, 1 ≤ m → m < Nat.find someDay →
        ∀ e ∈ t.entries, ¬ e.Applies (t.dayType (daysBack now m).1 (daysBack now m).2) 863999 := fun m atLeast below e mem here =>
      Nat.find_min someDay below ⟨atLeast, by omega, e, mem, here⟩
    obtain ⟨e, found, ⟨mem, applies⟩, last⟩ := lastApplying_some has
    refine ⟨Nat.find someDay, e, low, high, ⟨⟨mem, applies⟩, fun x here => last x here.1 here.2⟩,
      fun m x atLeast below here => before m atLeast below x here.1 here.2, ?_⟩
    rw [find_back noneToday]
    exact lookBack_found found (by omega) fun m above below => lastApplying_none (before m above below)
  case default =>
    have noneToday := lastApplying_none fun e mem applies => noToday e ⟨mem, applies⟩
    rw [find_back noneToday]
    exact lookBack_default fun m above within =>
      lastApplying_none fun e mem applies => noBack m e above (by omega) ⟨mem, applies⟩

end

section
/-! The mark of a calendar instant, which no evaluation changes (R44). -/

set_option Elab.async false

namespace Sys2Proof.Machine

/-! ### Fault records, the Coordinator, and the filters

Of all that an evaluation can reach, only the beginning and the end of flash change a mark of `Instants`, and not this one. -/

@[simp] theorem raiseRecord_calendar (c : FaultClass) (detail : Option Nat) (s : State) :
    (raiseRecord c detail s).instants.calendar = s.instants.calendar := by
  unfold raiseRecord
  dsimp only
  split_ifs
  · split <;> simp
  · rfl

@[simp] theorem withdrawRecord_calendar (c : FaultClass) (s : State) :
    (withdrawRecord c s).instants.calendar = s.instants.calendar := by
  unfold withdrawRecord
  dsimp only
  split <;> simp

@[simp] theorem emptyTransition_calendar (s : State) :
    (emptyTransition s).instants.calendar = s.instants.calendar := by
  unfold emptyTransition
  dsimp only
  split_ifs <;> simp

@[simp] theorem isolationChange_calendar (s : State) :
    (isolationChange s).instants.calendar = s.instants.calendar := by
  unfold isolationChange
  split
  case h_1 | h_2 | h_3 => split_ifs <;> simp
  case h_4 | h_5 => rfl

@[simp] theorem putForward_calendar (a : Adoption) (s : State) :
    (putForward a s).instants.calendar = s.instants.calendar := by
  unfold putForward
  split_ifs
  · rfl
  · rfl
  · rfl
  · split <;> simp

@[simp] theorem clearFallback_calendar (s : State) :
    (clearFallback s).instants.calendar = s.instants.calendar := by
  unfold clearFallback
  split_ifs
  · dsimp only
    split
    · simp
    · split_ifs <;> rfl
  · rfl

@[simp] theorem deliverCoordinator_calendar (action : FaultAction) (s : State) :
    (deliverCoordinator action s).instants.calendar = s.instants.calendar := by
  unfold deliverCoordinator
  cases action <;> simp [setFallback]

@[simp] theorem raiseGroup_calendar (c : FaultClass) (g : Group) (already : Bool) (s : State) :
    (raiseGroup c g already s).instants.calendar = s.instants.calendar := by
  unfold raiseGroup
  split_ifs <;> simp

/-- A filter that changes its mark at a group (R139 to R141). -/
theorem finishGroup_calendar (s : State) (g : Group) :
    (finishGroup s g).instants.calendar = s.instants.calendar := by
  unfold finishGroup
  dsimp only
  have lamp : ∀ u : State,
      (if u.lampFaultedDue g then markLampFaulted g u else if u.lampCleanDue g then markLampClean g u else u).instants.calendar
        = u.instants.calendar := by
    intro u
    split_ifs
    · simp [markLampFaulted]
    · unfold markLampClean
      dsimp only
      split_ifs <;> simp
    · rfl
  rw [lamp]
  split_ifs
  · simp [markGreenFaulted]
  · unfold markGreenClean
    dsimp only
    split_ifs <;> simp
  · rfl

@[simp] theorem bankFlash_calendar (s : State) : (bankFlash s).instants.calendar = s.instants.calendar := by
  have filters : ∀ (l : List Group) (u : State), (l.foldl finishGroup u).instants.calendar = u.instants.calendar := by
    intro l
    induction l with
    | nil => exact fun _ => rfl
    | cons g l ih => exact fun u => (ih _).trans (finishGroup_calendar u g)
  unfold bankFlash beginFlash finishFilters
  split_ifs
  · rfl
  · dsimp only
    split_ifs <;> simp [filters]

/-! ### Flash and the effective action -/

@[simp] theorem unstageOrphan_calendar (plan : Nat) (s : State) :
    (unstageOrphan plan s).instants.calendar = s.instants.calendar := by
  unfold unstageOrphan
  split_ifs <;> rfl

@[simp] theorem preemptFlash_calendar (s : State) : (preemptFlash s).instants.calendar = s.instants.calendar := by
  have abandoned : ∀ i, (abandonRun i s).instants.calendar = s.instants.calendar := fun i => by
    unfold abandonRun unstageOverride
    dsimp only
    split <;> simp
  unfold preemptFlash holdClaim
  split
  · split_ifs
    · rfl
    · exact abandoned _
  · rfl

@[simp] theorem deliverSequencer_calendar (action : FaultAction) (s : State) :
    (deliverSequencer action s).instants.calendar = s.instants.calendar := by
  have entry : (flashEntry s).instants.calendar = s.instants.calendar := by
    unfold flashEntry
    split_ifs <;> simp [suspend]
  have exit : (flashExit s).instants.calendar = s.instants.calendar := by
    unfold flashExit
    split_ifs <;> simp
  cases action <;> simp [deliverSequencer, entry, apply_ite State.instants, apply_ite Instants.calendar, exit]

theorem settleAction_calendar (n : Nat) (cause : FaultClass) (s : State) :
    (settleAction n cause s).instants.calendar = s.instants.calendar := by
  induction n generalizing cause s with
  | zero =>
    unfold settleAction
    dsimp only
    split_ifs <;> simp
  | succ n ih =>
    unfold settleAction
    dsimp only
    split_ifs
    · rfl
    · simp [ih]

@[simp] theorem raise_calendar (c : FaultClass) (detail : Option Nat) (s : State) :
    (raise c detail s).instants.calendar = s.instants.calendar := by
  simp [raise, settleAction_calendar]

@[simp] theorem withdraw_calendar (c : FaultClass) (s : State) :
    (withdraw c s).instants.calendar = s.instants.calendar := by
  simp [withdraw, settleAction_calendar]

/-! ### Adoptions and the governing plan -/

@[simp] theorem clearOverride_calendar (s : State) : (clearOverride s).instants.calendar = s.instants.calendar := by
  unfold clearOverride
  split
  · rfl
  · split <;> simp

@[simp] theorem adoptionRequest_calendar (a : Adoption) (s : State) :
    (adoptionRequest a s).instants.calendar = s.instants.calendar := by
  unfold adoptionRequest
  dsimp only
  split_ifs <;> simp

@[simp] theorem checkMissing_calendar (changed : Bool) (g : Adoption) (s : State) :
    (checkMissing changed g s).instants.calendar = s.instants.calendar := by
  unfold checkMissing
  split_ifs <;> simp

@[simp] theorem decideGoverning_calendar (s : State) :
    (decideGoverning s).instants.calendar = s.instants.calendar := by
  unfold decideGoverning
  split
  · rfl
  · split_ifs <;> simp

@[simp] theorem evaluateSchedule_calendar (s : State) :
    (evaluateSchedule s).instants.calendar = s.instants.calendar := by
  unfold evaluateSchedule
  dsimp only
  split_ifs <;> simp

end Sys2Proof.Machine
end

section
/-! What the pruning and a calendar instant leave (R44, R51). -/

set_option Elab.async false

namespace Sys2Proof.Machine

/-! ### The pruning -/

/-- A pruning changes the Timetable, and the exchange by its report. -/
theorem prune_eq (s : State) : prune s = { s with timetable := (prune s).timetable, port := (prune s).port } := by
  unfold prune
  dsimp only
  split
  · rfl
  · rw [post_eq]

/-- With no special day eight or more days past a pruning changes nothing (R51). -/
theorem prune_nothing {s : State} (h : ∀ d ∈ s.timetable.specials, ¬ d.past s.clock.reading = true) : prune s = s := by
  have nothing : (s.timetable.specials.filter fun d => d.past s.clock.reading) = [] := List.filter_eq_nil_iff.mpr h
  unfold prune
  dsimp only
  rw [nothing]

/-- What is eight or more days past is removed, as one edit (R51). -/
theorem prune_timetable {s : State} (h : ∃ d ∈ s.timetable.specials, d.past s.clock.reading = true) :
    (prune s).timetable =
      { s.timetable with
        specials := s.timetable.specials.filter fun d => !d.past s.clock.reading
        editCount := (s.timetable.editCount + 1) % 256 } := by
  obtain ⟨d, mem, past⟩ := h
  unfold prune
  dsimp only
  split
  · next nothing => exact absurd past (List.filter_eq_nil_iff.mp nothing d mem)
  · rw [post_timetable]
    rfl

theorem prune_entries (s : State) : (prune s).timetable.entries = s.timetable.entries := by
  by_cases h : ∃ d ∈ s.timetable.specials, d.past s.clock.reading = true
  · rw [prune_timetable h]
  · rw [prune_nothing fun d mem past => h ⟨d, mem, past⟩]

theorem prune_specials (s : State) :
    (prune s).timetable.specials = s.timetable.specials.filter fun d => !d.past s.clock.reading := by
  by_cases h : ∃ d ∈ s.timetable.specials, d.past s.clock.reading = true
  · rw [prune_timetable h]
  · have held : ∀ d ∈ s.timetable.specials, ¬ d.past s.clock.reading = true := fun d mem past => h ⟨d, mem, past⟩
    rw [prune_nothing held, List.filter_eq_self.mpr fun d mem => by simpa using held d mem]

theorem past_iff (d : SpecialDay) (now : NetTime) :
    d.past now = true ↔ signedWeeks ((d.week : Int) - now.week) * 7 + (d.day : Int) - (now.day : Int) < -7 :=
  decide_eq_true_iff

/-! ### A calendar instant -/

/-- The mark of a calendar instant taken back. -/
def State.unmarked (s : State) : State := { s with instants.calendar := false }

/-- What a calendar instant evaluates: the instant's mark taken back, at midnight the special days pruned (R44, R51). -/
def State.atCalendar (s : State) : State :=
  if s.clock.reading.timeOfDay = 0 ∧ s.clock.state ≠ .alone then prune s.unmarked else s.unmarked

theorem exec_calendarInstant {s : State} (run : s.port.part = .running) (reached : s.instants.calendar = true) :
    exec .calendarInstant s = .next (evaluateSchedule s.atCalendar) :=
  congrArg Host.Outcome.next
    (whenReached_of_due takeCalendar (show s.calendarDue = true by simp [State.calendarDue, State.running, run, reached]))

theorem atCalendar_midnight {s : State} (midnight : s.clock.reading.timeOfDay = 0 ∧ s.clock.state ≠ .alone) :
    s.atCalendar = prune s.unmarked := if_pos midnight

theorem atCalendar_other {s : State} (other : ¬ (s.clock.reading.timeOfDay = 0 ∧ s.clock.state ≠ .alone)) :
    s.atCalendar = s.unmarked := if_neg other

/-- Outside the Timetable and the exchange only the mark is changed. -/
theorem atCalendar_eq (s : State) :
    s.atCalendar =
      { s with timetable := s.atCalendar.timetable, port := s.atCalendar.port, instants.calendar := false } := by
  unfold State.atCalendar
  split_ifs
  · exact prune_eq s.unmarked
  · rfl

theorem atCalendar_entries (s : State) : s.atCalendar.timetable.entries = s.timetable.entries := by
  unfold State.atCalendar
  split_ifs
  · exact prune_entries _
  · rfl

theorem evaluates_atCalendar (s : State) : Evaluates s s.atCalendar := by
  unfold State.atCalendar
  have first : Evaluates s s.unmarked := ⟨rfl, rfl, rfl, rfl, rfl, rfl, rfl⟩
  split_ifs
  · exact first.trans (evaluates_prune _)
  · exact first

/-- An evaluation in RUNNING leaves the plan and the source that the Timetable it leaves gives (R42, R43). -/
theorem evaluateSchedule_finds {s : State} (run : s.port.part = .running) :
    (evaluateSchedule s).timetable.scheduled =
        some ((evaluateSchedule s).timetable.find s.clock.reading s.cfg.defaultPlan).1
      ∧ (evaluateSchedule s).timetable.source = ((evaluateSchedule s).timetable.find s.clock.reading s.cfg.defaultPlan).2 := by
  rw [evaluateSchedule_timetable (show s.running = true by simp [State.running, run]), find_evaluated]
  exact ⟨rfl, rfl⟩

end Sys2Proof.Machine

open Sys2Proof Sys2Proof.Machine

/-- Settles O24: the evaluation leaves what a delivery leaves of the pruned part. -/
theorem calendarInstantsEvaluateTheSchedule : Obligations.CalendarInstantsEvaluateTheSchedule := by
  intro s run reached past pruning
  have first := evaluates_atCalendar s
  have rest := atCalendar_eq s
  have kept := (delivers_evaluateSchedule s.atCalendar).kept
  have found := evaluateSchedule_finds (s := s.atCalendar) (first.part.trans run)
  have cfg : s.atCalendar.cfg = s.cfg := congrArg (fun c => c.getD noConfig) first.config
  rw [first.clock, cfg] at found
  refine ⟨_, exec_calendarInstant run reached, ?mark, kept.entries.trans (atCalendar_entries s), fun midnight => ?removed,
    fun midnight gone => ?counted, fun midnight held => ?uncounted, fun other => ?stays, found.1, found.2,
    kept.clock.trans first.clock, kept.orders.trans (congrArg (fun u => u.orders.entries) rest),
    kept.issued.trans (congrArg (fun u => u.orders.issued) rest), kept.line.trans first.line,
    kept.latches.trans (congrArg (fun u => u.seq.latches) rest), fun n =>
    (kept.plans n).trans (congrArg (fun u => u.storedPlan n) rest)⟩
  case mark => rw [evaluateSchedule_calendar, rest]
  case removed =>
    rw [kept.specials, atCalendar_midnight midnight, prune_specials]
    exact List.filter_congr fun d _ => (decide_not (p := past d)).symm
  case counted =>
    obtain ⟨d, mem, gone⟩ := gone
    rw [kept.editCount, atCalendar_midnight midnight]
    exact congrArg Timetable.editCount (prune_timetable (s := s.unmarked) ⟨d, mem, (past_iff d _).mpr gone⟩)
  case uncounted =>
    rw [kept.editCount, atCalendar_midnight midnight]
    exact congrArg (fun u => u.timetable.editCount)
      (prune_nothing (s := s.unmarked) fun d mem gone => held d mem ((past_iff d _).mp gone))
  case stays =>
    rw [kept.specials, kept.editCount, atCalendar_other other]
    exact ⟨rfl, rfl⟩

end

section
/-! The edits of the calendar (R47 to R50): where a new item stands, the cases of each request's work, and what an accepted edit
leaves (R45). -/

set_option Elab.async false

namespace Sys2Proof.Machine

/-! ### Where a new item stands -/

/-- A function that inserts an item before the first one that `before` puts behind it cuts the list there. -/
theorem insertion_split {α : Type} {insert : List α → List α} {new : α} {before : α → Bool} (nil : insert [] = [new])
    (cons : ∀ x rest, insert (x :: rest) = if before x then new :: x :: rest else x :: insert rest) (l : List α) :
    ∃ front rest, l = front ++ rest ∧ insert l = front ++ new :: rest ∧ (∀ x ∈ front, ¬ before x = true)
      ∧ ∀ x, rest.head? = some x → before x = true := by
  induction l with
  | nil => exact ⟨[], [], rfl, nil, by simp, by simp⟩
  | cons y l ih =>
    rw [cons]
    split_ifs with here
    · exact ⟨[], y :: l, rfl, rfl, by simp, by simpa using here⟩
    · obtain ⟨front, rest, cut, inserted, ahead, behind⟩ := ih
      exact ⟨y :: front, rest, by rw [cut]; rfl, by rw [inserted]; rfl, List.forall_mem_cons.mpr ⟨here, ahead⟩, behind⟩

theorem insertTimetable_split (e : Entry) (l : List Entry) :
    ∃ front rest, l = front ++ rest ∧ insertTimetable e l = front ++ e :: rest ∧ (∀ x ∈ front, ¬ EntryBefore e x)
      ∧ ∀ x, rest.head? = some x → EntryBefore e x := by
  simp only [entryBefore_iff]
  exact insertion_split (insert := insertTimetable e) rfl (fun _ _ => rfl) l

theorem insertSpecial_split (d : SpecialDay) (l : List SpecialDay) :
    ∃ front rest, l = front ++ rest ∧ insertSpecial d l = front ++ d :: rest ∧ (∀ x ∈ front, ¬ SpecialBefore d x)
      ∧ ∀ x, rest.head? = some x → SpecialBefore d x := by
  simp only [specialBefore_iff]
  exact insertion_split (insert := insertSpecial d) rfl (fun _ _ => rfl) l

/-! ### What an accepted edit leaves -/

/-- The two lists as given, and the edit counted (R47). -/
def State.withCalendar (s : State) (entries : List Entry) (days : List SpecialDay) : State :=
  { s with
    timetable.entries := entries, timetable.specials := days
    timetable.editCount := (s.timetable.editCount + 1) % 256 }

/-- In CONFIGURING the schedule is not evaluated (R45). -/
theorem evaluateSchedule_stopped {s : State} (stopped : s.port.part = .configuring) : evaluateSchedule s = s := by
  simp [evaluateSchedule, State.running, stopped]

theorem edited_withCalendar (request seq : Byte) (s : State) (entries : List Entry) (days : List SpecialDay) :
    Edited s (hold request seq (done []) (evaluateSchedule ((discardHeld s).withCalendar entries days))) request seq entries days := by
  have kept := (delivers_evaluateSchedule ((discardHeld s).withCalendar entries days)).kept
  constructor
  case held => rfl
  case entries => exact kept.entries
  case specials => exact kept.specials
  case editCount => exact kept.editCount.trans (by simp [State.withCalendar])
  case configuring =>
    intro stopped
    rw [evaluateSchedule_stopped (by simpa [State.withCalendar] using stopped)]
    unfold hold discardHeld State.answered State.withCalendar countUp
    cases s.port.held <;> rfl
  case running =>
    intro run
    have clock : ((discardHeld s).withCalendar entries days).clock = s.clock := discardHeld_clock s
    have cfg : ((discardHeld s).withCalendar entries days).cfg = s.cfg := discardHeld_cfg s
    rw [← clock, ← cfg]
    exact evaluateSchedule_finds ((discardHeld_port_part s).trans run)
  case clock => exact kept.clock.trans (discardHeld_clock s)
  case orders => exact kept.orders.trans (congrArg OrderHandler.entries (discardHeld_orders s))
  case issued => exact kept.issued.trans (congrArg OrderHandler.issued (discardHeld_orders s))
  case line => exact kept.line.trans (discardHeld_line s)
  case plans => exact fun n => (kept.plans n).trans (congrFun (discardHeld_storedPlan s) n)
  case latches => exact kept.latches.trans (congrArg Sequencer.latches (discardHeld_seq s))

/-! ### A request of both part states -/

section
variable {c : Instr} {code seq : Byte} {s : State} (shape : requestShape c = some ⟨code, seq, true, .both⟩)
include shape

/-- A request whose work changes nothing is answered at once. -/
theorem exec_answered {a : Answer} (work : requestWork c (discardHeld s) = (discardHeld s, a)) :
    exec c s = .next (s.answered code seq a.code a.body) :=
  (exec_request shape s).trans (serve_reading code seq (requestWork c) s a work)

/-- A request whose work edits the calendar. -/
theorem exec_edited {entries : List Entry} {days : List SpecialDay}
    (work : requestWork c (discardHeld s) = (evaluateSchedule ((discardHeld s).withCalendar entries days), done [])) :
    ∃ t, exec c s = .next t ∧ Edited s t code seq entries days := by
  refine ⟨_, exec_request shape s, ?_⟩
  rw [serve_done _ _ _ _ _ rfl, work]
  exact edited_withCalendar code seq s entries days

end

section
variable {body : List Byte} (seq : Byte)

theorem addEntry_shape (length : body.length = 7) : requestShape (.addEntry seq body) = some ⟨0x18, seq, true, .both⟩ := by
  simp [requestShape, length]

theorem dropEntry_shape (length : body.length = 6) : requestShape (.dropEntry seq body) = some ⟨0x19, seq, true, .both⟩ := by
  simp [requestShape, length]

theorem addSpecialDay_shape (length : body.length = 4) :
    requestShape (.addSpecialDay seq body) = some ⟨0x1B, seq, true, .both⟩ := by
  simp [requestShape, length]

theorem dropSpecialDay_shape (length : body.length = 3) :
    requestShape (.dropSpecialDay seq body) = some ⟨0x1C, seq, true, .both⟩ := by
  simp [requestShape, length]

end

/-! ### ADD_ENTRY -/

/-- The fields of an entry lie in their ranges (R39, R47). -/
def Entry.Fits (e : Entry) : Prop :=
  e.days ≠ 0 ∧ e.days.toNat < 512 ∧ e.start ≤ 863999 ∧ 1 ≤ e.plan ∧ e.plan ≤ 32

theorem entry_fits (e : Entry) :
    (daySetOk e.days && within 0 greatestStart e.start && planNumber e.plan) = true ↔ e.Fits := by
  simp only [daySetOk, within_iff, planNumber_iff, Entry.Fits, Bool.and_eq_true, decide_eq_true_eq, Nat.zero_le, true_and, and_assoc]
  rfl

/-- An entry of the same start has a day type in common with a new one (R47). -/
def Entry.Clashes (e x : Entry) : Prop := x.start = e.start ∧ x.days &&& e.days ≠ 0

theorem conflict_some {t : Timetable} {e : Entry} (h : ∃ x ∈ t.entries, e.Clashes x) :
    ∃ x ∈ t.entries, e.Clashes x ∧ t.conflict e = some x := by
  cases found : t.conflict e with
  | none =>
    obtain ⟨x, mem, clash⟩ := h
    exact absurd clash (by simpa [Entry.Clashes] using List.find?_eq_none.mp found x mem)
  | some x =>
    exact ⟨x, List.mem_of_find?_eq_some found, by simpa [Entry.Clashes] using List.find?_some found, rfl⟩

theorem conflict_eq_none {t : Timetable} {e : Entry} (h : ∀ x ∈ t.entries, ¬ e.Clashes x) : t.conflict e = none :=
  List.find?_eq_none.mpr fun x mem => by simpa [Entry.Clashes] using h x mem

section
variable {body : List Byte} {s : State}

theorem addEntryWork_range (out : ¬ (readEntry body).Fits) : addEntryWork body s = (s, plain .range) := by
  rw [← entry_fits] at out
  simp [addEntryWork, out]

variable (fits : (readEntry body).Fits)
include fits

theorem addEntryWork_duplicate {x : Entry} (clash : s.timetable.conflict (readEntry body) = some x) :
    addEntryWork body s = (s, { code := .duplicate, body := setBytes x.days ++ be 1 x.plan }) := by
  simp [addEntryWork, (entry_fits _).mpr fits, clash]

theorem addEntryWork_full (free : s.timetable.conflict (readEntry body) = none) (full : 64 ≤ s.timetable.entries.length) :
    addEntryWork body s = (s, plain .full) := by
  simp [addEntryWork, (entry_fits _).mpr fits, free, full]

theorem addEntryWork_stored (free : s.timetable.conflict (readEntry body) = none) (room : s.timetable.entries.length < 64) :
    addEntryWork body s =
      (evaluateSchedule (s.withCalendar (insertTimetable (readEntry body) s.timetable.entries) s.timetable.specials), done []) := by
  simp [addEntryWork, (entry_fits _).mpr fits, free, Nat.not_le.mpr room, State.withCalendar, editUp]

end

/-! ### DROP_ENTRY -/

/-- The two fields of DROP_ENTRY lie in their ranges (R48). -/
def DropFits (start : Nat) (days : BitVec 16) : Prop := days ≠ 0 ∧ days.toNat < 512 ∧ start ≤ 863999

theorem drop_fits (start : Nat) (days : BitVec 16) :
    (daySetOk days && within 0 greatestStart start) = true ↔ DropFits start days := by
  simp only [daySetOk, within_iff, DropFits, Bool.and_eq_true, decide_eq_true_eq, Nat.zero_le, true_and, and_assoc]
  rfl

section
variable {body : List Byte} {s : State} {start : Nat} {days : BitVec 16} (readStart : field body 0 4 = start)
  (readDays : BitVec.ofNat 16 (field body 4 2) = days)
include readStart readDays

theorem dropEntryWork_range (out : ¬ DropFits start days) : dropEntryWork body s = (s, plain .range) := by
  rw [← drop_fits] at out
  simp [dropEntryWork, readStart, readDays, out]

variable (fits : DropFits start days)
include fits

theorem dropEntryWork_notFound (absent : ∀ x ∈ s.timetable.entries, ¬ (x.start = start ∧ x.days = days)) :
    dropEntryWork body s = (s, plain .notFound) := by
  have unmatched : (s.timetable.entries.any fun x => decide (x.start = start) && decide (x.days = days)) = false :=
    List.any_eq_false.mpr fun x mem => by simpa using absent x mem
  simp only [dropEntryWork, readStart, readDays, (drop_fits _ _).mpr fits, unmatched]
  rfl

theorem dropEntryWork_dropped (present : ∃ x ∈ s.timetable.entries, x.start = start ∧ x.days = days) :
    dropEntryWork body s =
      (evaluateSchedule
        (s.withCalendar (s.timetable.entries.filter fun x => decide (¬ (x.start = start ∧ x.days = days))) s.timetable.specials),
        done []) := by
  have found : (s.timetable.entries.any fun x => decide (x.start = start) && decide (x.days = days)) = true := by
    simpa using present
  simp only [dropEntryWork, readStart, readDays, (drop_fits _ _).mpr fits, found, decide_not, Bool.decide_and]
  rfl

end

/-! ### ADD_SPECIAL_DAY -/

/-- The type of a special day by its code (R215). -/
def typeOfCode (n : Nat) : SpecialType := if n = 0 then .a else .b

theorem specialTypeOf_known {n : Nat} (h : n ≤ 1) : specialTypeOf n = some (typeOfCode n) := by
  obtain rfl | rfl : n = 0 ∨ n = 1 := by omega
  · rfl
  · rfl

theorem specialTypeOf_unknown {n : Nat} (h : 1 < n) : specialTypeOf n = none := by
  unfold specialTypeOf
  split
  · omega
  · omega
  · rfl

theorem tooFarPast_iff (s : State) (week day : Nat) :
    s.tooFarPast week day = true ↔ s.port.part = .running ∧ s.clock.state ≠ .alone
      ∧ signedWeeks ((week : Int) - s.clock.reading.week) * 7 + (day : Int) - (s.clock.reading.ms / 86400000 : Nat) < -7 := by
  simp only [State.tooFarPast, State.running, Bool.and_eq_true, decide_eq_true_eq, and_assoc]
  rfl

/-- A response still held has no part in how far past a day is. -/
theorem tooFarPast_discardHeld (s : State) (week day : Nat) : (discardHeld s).tooFarPast week day = s.tooFarPast week day := by
  simp [State.tooFarPast]

section
variable {body : List Byte} {s : State} {week day code : Nat} (readWeek : field body 0 2 = week) (readDay : field body 2 1 = day)
  (readCode : field body 3 1 = code)
include readWeek readDay readCode

theorem addSpecialWork_range (out : ¬ (day ≤ 6 ∧ code ≤ 1 ∧ ¬ s.tooFarPast week day = true)) :
    addSpecialWork body s = (s, plain .range) := by
  by_cases known : code ≤ 1
  · have refused : (!within 0 6 day || s.tooFarPast week day) = true := by
      by_contra passes
      simp [within] at passes
      exact out ⟨passes.1, known, by simp [passes.2]⟩
    simp only [addSpecialWork, readWeek, readDay, readCode, specialTypeOf_known known, refused, if_true]
  · simp only [addSpecialWork, readCode, specialTypeOf_unknown (Nat.lt_of_not_le known)]

variable (inWeek : day ≤ 6) (known : code ≤ 1) (recent : ¬ s.tooFarPast week day = true)
include inWeek known recent

/-- Past the checks of its fields the work hangs on the special day found and on the room (R49). -/
theorem addSpecialWork_duplicate {x : SpecialDay} (found : s.timetable.special week day = some x) :
    addSpecialWork body s = (s, { code := .duplicate, body := be 1 x.type.code }) := by
  simp [addSpecialWork, readWeek, readDay, readCode, specialTypeOf_known known, within, inWeek, recent, found]

theorem addSpecialWork_full (free : s.timetable.special week day = none) (full : 32 ≤ s.timetable.specials.length) :
    addSpecialWork body s = (s, plain .full) := by
  simp [addSpecialWork, readWeek, readDay, readCode, specialTypeOf_known known, within, inWeek, recent, free, full]

theorem addSpecialWork_stored (free : s.timetable.special week day = none) (room : s.timetable.specials.length < 32) :
    addSpecialWork body s =
      (evaluateSchedule
        (s.withCalendar s.timetable.entries
          (insertSpecial { week := week, day := day, type := typeOfCode code } s.timetable.specials)), done []) := by
  simp [addSpecialWork, readWeek, readDay, readCode, specialTypeOf_known known, within, inWeek, recent, free,
    Nat.not_le.mpr room, State.withCalendar, editUp]

end

/-! ### DROP_SPECIAL_DAY -/

section
variable {body : List Byte} {s : State} {week day : Nat} (readWeek : field body 0 2 = week) (readDay : field body 2 1 = day)
include readDay

theorem dropSpecialWork_range (out : 6 < day) : dropSpecialWork body s = (s, plain .range) := by
  simp [dropSpecialWork, readDay, within, Nat.not_le.mpr out]

include readWeek
variable (inWeek : day ≤ 6)
include inWeek

theorem dropSpecialWork_notFound (absent : ∀ x ∈ s.timetable.specials, ¬ (x.week = week ∧ x.day = day)) :
    dropSpecialWork body s = (s, plain .notFound) := by
  simp [dropSpecialWork, readWeek, readDay, within, inWeek, special_eq_none absent]

theorem dropSpecialWork_dropped (present : ∃ x ∈ s.timetable.specials, x.week = week ∧ x.day = day) :
    dropSpecialWork body s =
      (evaluateSchedule
        (s.withCalendar s.timetable.entries
          (s.timetable.specials.filter fun x => decide (¬ (x.week = week ∧ x.day = day)))), done []) := by
  obtain ⟨x, -, -, found⟩ := special_some present
  simp only [dropSpecialWork, readWeek, readDay, within, inWeek, found, decide_not, Bool.decide_and]
  rfl

end

end Sys2Proof.Machine

open Sys2Proof Sys2Proof.Machine

/-- Settles O22: the cases of each request's work, and `Edited` for what an accepted one leaves. -/
theorem calendarEditsFollowTheirCases : Obligations.CalendarEditsFollowTheirCases := by
  refine ⟨fun seq body s => ⟨fun length => ?addEntry, fun length => ?dropEntry⟩, fun seq body s =>
    ⟨fun length => ?addSpecial, fun length => ?dropSpecial⟩⟩
  all_goals have lists := discardHeld_timetable s
  case addEntry =>
    have shape := addEntry_shape seq length
    refine ⟨fun out => exec_answered shape (addEntryWork_range out), fun fits clash => ?duplicate, fun fits free full =>
      exec_answered shape (addEntryWork_full fits (lists ▸ conflict_eq_none free) (lists ▸ full)), fun fits free room => ?stored⟩
    case duplicate =>
      obtain ⟨x, mem, clash, found⟩ := conflict_some clash
      exact ⟨x, mem, clash, exec_answered shape (addEntryWork_duplicate fits (lists ▸ found))⟩
    case stored =>
      have work := addEntryWork_stored (s := discardHeld s) fits (lists ▸ conflict_eq_none free) (lists ▸ room)
      obtain ⟨front, rest, cut, inserted, ahead, behind⟩ := insertTimetable_split (readEntry body) s.timetable.entries
      rw [lists, inserted] at work
      obtain ⟨t, next, edited⟩ := exec_edited shape work
      exact ⟨t, front, rest, next, cut, ahead, behind, edited⟩
  case dropEntry =>
    have shape := dropEntry_shape seq length
    refine ⟨fun out => exec_answered shape (dropEntryWork_range rfl rfl out), fun fits absent =>
      exec_answered shape (dropEntryWork_notFound rfl rfl fits (lists ▸ absent)), fun fits present => ?_⟩
    have work := dropEntryWork_dropped (s := discardHeld s) rfl rfl fits (lists ▸ present)
    rw [lists] at work
    exact exec_edited shape work
  case addSpecial =>
    have shape := addSpecialDay_shape seq length
    have late := tooFarPast_iff s (field body 0 2) (field body 2 1)
    rw [← tooFarPast_discardHeld] at late
    refine ⟨fun out => exec_answered shape
        (addSpecialWork_range rfl rfl rfl fun ⟨day, code, recent⟩ => out ⟨day, code, mt late.mpr recent⟩),
      fun ⟨day, code, recent⟩ held => ?duplicate, fun ⟨day, code, recent⟩ free full => exec_answered shape
        (addSpecialWork_full rfl rfl rfl day code (mt late.mp recent) (lists ▸ special_eq_none free) (lists ▸ full)),
      fun ⟨day, code, recent⟩ free room => ?stored⟩
    case duplicate =>
      obtain ⟨x, mem, same, found⟩ := special_some held
      refine ⟨x, mem, same, (exec_answered shape
        (addSpecialWork_duplicate rfl rfl rfl day code (mt late.mp recent) (lists ▸ found))).trans ?_⟩
      cases x.type <;> rfl
    case stored =>
      have work := addSpecialWork_stored (s := discardHeld s) rfl rfl rfl day code (mt late.mp recent)
        (lists ▸ special_eq_none free) (lists ▸ room)
      obtain ⟨front, rest, cut, inserted, ahead, behind⟩ := insertSpecial_split
        { week := field body 0 2, day := field body 2 1, type := typeOfCode (field body 3 1) } s.timetable.specials
      rw [lists, inserted] at work
      obtain ⟨t, next, edited⟩ := exec_edited shape work
      exact ⟨t, front, rest, next, cut, ahead, behind, edited⟩
  case dropSpecial =>
    have shape := dropSpecialDay_shape seq length
    refine ⟨fun out => exec_answered shape (dropSpecialWork_range rfl out), fun day absent =>
      exec_answered shape (dropSpecialWork_notFound rfl rfl day (lists ▸ absent)), fun day present => ?_⟩
    have work := dropSpecialWork_dropped (s := discardHeld s) rfl rfl day (lists ▸ present)
    rw [lists] at work
    exact exec_edited shape work

end

section
/-! What an order list that was put in place of another, and then evaluated, holds (R64): which entries stay, with which states,
and what is left of the Order Handler beside the list. -/

set_option Elab.async false

namespace Sys2Proof.Machine

/-! ### The counts of the Order Handler -/

/-- The Order Handler's five counts stay (R59 to R63). -/
structure Counted (s t : State) : Prop where
  outOfZone : t.orders.outOfZone = s.orders.outOfZone
  rejected : t.orders.rejected = s.orders.rejected
  refusedRoom : t.orders.refusedRoom = s.orders.refusedRoom
  evicted : t.orders.evicted = s.orders.evicted
  droppedCancel : t.orders.droppedCancel = s.orders.droppedCancel

theorem Counted.refl (s : State) : Counted s s := ⟨rfl, rfl, rfl, rfl, rfl⟩

theorem Counted.trans {s t u : State} (h : Counted s t) (k : Counted t u) : Counted s u :=
  ⟨k.outOfZone.trans h.outOfZone, k.rejected.trans h.rejected, k.refusedRoom.trans h.refusedRoom, k.evicted.trans h.evicted,
    k.droppedCancel.trans h.droppedCancel⟩

theorem Aside.counted {s t : State} (h : Aside s t) : Counted s t := by
  constructor <;> rw [h.orders]

theorem counted_checkMissing (changed : Bool) (g : Adoption) (s : State) : Counted s (checkMissing changed g s) := by
  have marked : ∀ b : Bool, Counted s { s with orders.planMissing := b } := fun _ => ⟨rfl, rfl, rfl, rfl, rfl⟩
  unfold checkMissing
  split_ifs
  · exact Counted.refl s
  · exact (marked true).trans (aside_raise _ _ _).counted
  · exact (marked false).trans ((aside_withdraw _ _).trans (aside_adoptionRequest g _)).counted
  · exact (aside_adoptionRequest g s).counted
  · exact Counted.refl s

theorem counted_decideGoverning (s : State) : Counted s (decideGoverning s) := by
  have decided : ∀ g source, Counted s { s with orders.governing := g, orders.govSource := source } :=
    fun _ _ => ⟨rfl, rfl, rfl, rfl, rfl⟩
  have sourced : ∀ source, Counted s { s with orders.govSource := source } := fun _ => ⟨rfl, rfl, rfl, rfl, rfl⟩
  unfold decideGoverning
  split
  · exact decided _ _
  · split_ifs
    · exact (sourced _).trans (counted_checkMissing _ _ _)
    · exact ((decided _ _).trans (aside_post _ _).counted).trans (counted_checkMissing _ _ _)

theorem counted_evaluateOrders (was : Option OldState) (s : State) : Counted s (evaluateOrders was s) := by
  have listed : ∀ (u : State) (l : List OrderEntry), Counted u { u with orders.entries := l } :=
    fun _ _ => ⟨rfl, rfl, rfl, rfl, rfl⟩
  unfold evaluateOrders
  split
  · refine Counted.trans ?_ (counted_decideGoverning _)
    refine Counted.trans ?_ (aside_foldl (fun s (p : OrderEntry × OrderEntry) => reportState was p.1 p.2 s)
      (fun s p => aside_reportState was p.1 p.2 s) _ _).counted
    exact (aside_foldl (fun s e => reportEnded e s) (fun s e => aside_reportEnded e s) _ s).counted.trans (listed _ _)
  · exact Counted.refl s

/-! ### A list put in place and evaluated -/

theorem matchQuery_congr {old new : PlanStore} (plans : ∀ n, (new.slot n).plan = (old.slot n).plan) :
    new.matchQuery = old.matchQuery := by
  funext plan signature
  unfold PlanStore.matchQuery
  rw [plans]

/-- The judgement looks at the plans stored alone (R64). -/
theorem judgeEntries_congr {old new : PlanStore} (plans : ∀ n, (new.slot n).plan = (old.slot n).plan) (now : NetTime)
    (l : List OrderEntry) : judgeEntries new now l = judgeEntries old now l := by
  have one : judgeEntry new now = judgeEntry old now := by
    funext e
    simp only [judgeEntry, matchQuery_congr plans]
  unfold judgeEntries
  rw [one]

/-- Beside the order list what `Kept` names stays. -/
def Rearranged (s t : State) : Prop := Kept { s with orders.entries := t.orders.entries } t

/-- A change of the Order Handler alone that leaves the issued list. -/
theorem rearranged_orders (s : State) (o : OrderHandler) (issued : o.issued = s.orders.issued := by rfl) :
    Rearranged s { s with orders := o } :=
  { Kept.refl { s with orders.entries := o.entries } with issued := issued }

theorem Rearranged.refl (s : State) : Rearranged s s := Kept.refl s

theorem Rearranged.trans {s t u : State} (h : Rearranged s t) (k : Rearranged t u) : Rearranged s u := by
  have before : Kept { s with orders.entries := u.orders.entries } { t with orders.entries := u.orders.entries } :=
    { h with orders := rfl }
  exact before.trans k

theorem Delivers.rearranged {s t : State} (h : Delivers s t) : Rearranged s t := { h.kept with orders := rfl }

theorem rearranged_evaluateOrders (was : Option OldState) (s : State) : Rearranged s (evaluateOrders was s) := by
  by_cases running : s.port.part = .running
  · exact { kept_evaluateOrders was running with orders := rfl }
  · rw [evaluateOrders_stopped running]
    exact Rearranged.refl s

/-- The order list is put as `l` and evaluated; beside it nothing changes but what `Kept` does not name. -/
structure Relisted (s : State) (l : List OrderEntry) (t : State) : Prop where
  entries : t.orders.entries = judgeEntries s.store s.clock.reading (l.filter fun e => decide (0 < e.finish.diff s.clock.reading))
  kept : Rearranged s t
  counted : Counted s t

/-- An evaluation, of the list as it stands. -/
theorem relisted_evaluateOrders (was : Option OldState) {s : State} (running : s.port.part = .running) :
    Relisted s s.orders.entries (evaluateOrders was s) := by
  refine ⟨?_, rearranged_evaluateOrders was s, counted_evaluateOrders was s⟩
  simp only [← not_atOrBefore]
  exact (kept_evaluateOrders was running).orders

/-- A change of the order list before it is evaluated. -/
theorem Relisted.upon {s u t : State} {l : List OrderEntry} (h : Relisted u l t) (kept : Rearranged s u)
    (counted : Counted s u) : Relisted s l t := by
  obtain ⟨entries, after, counts⟩ := h
  have clock : u.clock = s.clock := kept.clock
  refine ⟨?_, kept.trans after, counted.trans counts⟩
  rw [entries, judgeEntries_congr (old := s.store) kept.plans, clock]

/-! ### What stands in the list after its evaluation -/

/-- No two entries of one key, and every cancel placeholder CANCELLED (R56, R63). -/
structure ListSound (l : List OrderEntry) : Prop where
  keys : (l.map OrderEntry.key).Nodup
  placeholders : ∀ e ∈ l, e.detail = none → e.state = .cancelled

theorem OrderHandler.Sound.list {o : OrderHandler} (h : o.Sound) : ListSound o.entries := ⟨h.keys, h.placeholders⟩

theorem ListSound.sublist {l m : List OrderEntry} (h : ListSound l) (part : m.Sublist l) : ListSound m :=
  ⟨h.keys.sublist (part.map _), fun e mem => h.placeholders e (part.subset mem)⟩

/-- An entry of a key that is free put in its place. -/
theorem ListSound.insert {l : List OrderEntry} {new : OrderEntry} (h : ListSound l) (free : ∀ x ∈ l, x.key ≠ new.key)
    (place : new.detail = none → new.state = .cancelled) : ListSound (insertEntry new l) := by
  refine ⟨insertEntry_keys h.keys free, fun e mem => ?_⟩
  rcases mem_insertEntry.mp mem with rfl | old
  · exact place
  · exact h.placeholders e old

/-- An entry put in the place of the one of a key. -/
theorem ListSound.replace {l : List OrderEntry} {new : OrderEntry} {k : OrderKey} (h : ListSound l)
    (free : ∀ x ∈ l, x.key ≠ k → x.key ≠ new.key) (place : new.detail = none → new.state = .cancelled) :
    ListSound (insertEntry new (removeEntry k l)) :=
  (h.sublist (removeEntry_sublist k l)).insert
    (fun x mem => free x (mem_removeEntry.mp mem).1 (mem_removeEntry.mp mem).2) place

section
variable {s t : State} {l : List OrderEntry} {e : OrderEntry} (h : Relisted s l t) (sound : ListSound l)
include h sound

theorem Relisted.judged (mem : e ∈ t.orders.entries) :
    ∃ x ∈ l, 0 < x.finish.diff s.clock.reading ∧ e = { x with state := e.state }
      ∧ (e.state = .cancelled ↔ x.state = .cancelled) := by
  rw [h.entries] at mem
  obtain ⟨x, judged⟩ := judgedFrom_of_mem (sound.sublist List.filter_sublist).keys mem
  obtain ⟨inside, live⟩ := List.mem_filter.mp judged.mem
  exact ⟨x, inside, of_decide_eq_true live, judged.same, judged.cancelled_iff (sound.placeholders x inside)⟩

/-- What has not ended stays, but for its state; what is CANCELLED stays so, and nothing else becomes it. -/
theorem Relisted.stays (mem : e ∈ l) (live : 0 < e.finish.diff s.clock.reading) :
    ∃ x ∈ t.orders.entries, x = { e with state := x.state } ∧ (x.state = .cancelled ↔ e.state = .cancelled) := by
  have key : e.key ∈ t.orders.entries.map OrderEntry.key := by
    rw [h.entries, judgeEntries_keys]
    exact List.mem_map_of_mem (List.mem_filter.mpr ⟨mem, decide_eq_true live⟩)
  obtain ⟨x, inList, same⟩ := List.mem_map.mp key
  obtain ⟨y, old, -, from_y, states⟩ := h.judged sound inList
  have one : y = e := eq_of_key sound.keys old mem (by rw [← same, from_y])
  exact ⟨x, inList, one ▸ from_y, one ▸ states⟩

/-- An entry that is CANCELLED and has not ended stands as it is. -/
theorem Relisted.cancelled_mem (mem : e ∈ l) (live : 0 < e.finish.diff s.clock.reading) (cancelled : e.state = .cancelled) :
    e ∈ t.orders.entries := by
  obtain ⟨x, inList, same, states⟩ := h.stays sound mem live
  rw [states.mpr cancelled, ← cancelled] at same
  obtain rfl : x = e := same
  exact inList

/-- A key outside the list stays outside. -/
theorem Relisted.absent {k : OrderKey} (out : ∀ x ∈ l, x.key ≠ k) : ∀ x ∈ t.orders.entries, x.key ≠ k := by
  intro x mem
  obtain ⟨y, old, -, from_y, -⟩ := h.judged sound mem
  rw [from_y]
  exact out y old

theorem Relisted.keys : (t.orders.entries.map OrderEntry.key).Nodup := by
  rw [h.entries, judgeEntries_keys]
  exact (sound.sublist List.filter_sublist).keys

/-- The list stands as an evaluation leaves the entries that had not ended. -/
theorem Relisted.evaluated_live : Evaluated (l.filter fun e => decide (0 < e.finish.diff s.clock.reading)) t := by
  have live := sound.sublist (List.filter_sublist (p := fun e => decide (0 < e.finish.diff s.clock.reading)))
  have clock : t.clock = s.clock := h.kept.clock
  refine evaluated_of_judged live.placeholders live.keys (store := s.store) ?_ h.kept.plans
  rw [h.entries, clock]
  simp only [not_atOrBefore, List.filter_filter, Bool.and_self]

/-- The list stands as an evaluation leaves it: one more would change nothing. -/
theorem Relisted.evaluated_self : Evaluated t.orders.entries t := by
  have live := h.evaluated_live sound
  have clock : t.clock = s.clock := h.kept.clock
  refine ⟨?kept, ?cancelled, live.judged, live.one, live.chosen, ?highest⟩
  case kept =>
    rw [List.filter_eq_self.mpr]
    intro e mem
    obtain ⟨x, -, later, from_x, -⟩ := h.judged sound mem
    rw [from_x, clock]
    exact decide_eq_true later
  case cancelled =>
    intro e mem
    refine ⟨fun state => ⟨e, mem, rfl, state⟩, fun ⟨x, other, key, state⟩ => ?_⟩
    exact eq_of_key (h.keys sound) other mem key ▸ state
  case highest =>
    intro plain
    refine live.highest fun e d mem detail => ?_
    obtain ⟨inside, later⟩ := List.mem_filter.mp mem
    obtain ⟨x, inList, same, -⟩ := h.stays sound inside (of_decide_eq_true later)
    have times := plain x d inList (by rw [same]; exact detail)
    rwa [same] at times

/-- The entries of other keys stay, where the list put in place holds them. -/
theorem Relisted.entriesStay {k : OrderKey} (holds : ∀ e ∈ s.orders.entries, e.key ≠ k → e ∈ l) : EntriesStay s t k := by
  intro e mem other live
  obtain ⟨x, inList, same, states⟩ := h.stays sound (holds e mem other) live
  exact ⟨x, inList, same, states.mpr⟩

/-- An order of the list put in place that has not ended is held. -/
theorem Relisted.holdsOrder {o : OrderContent} {stored : NetTime} {state : OrderState} (mem : o.toEntry stored state ∈ l)
    (live : 0 < o.finish.diff s.clock.reading) (valid : state ≠ .cancelled) : HoldsOrder t o stored := by
  obtain ⟨x, inList, same, states⟩ := h.stays sound mem live
  refine ⟨⟨x, inList, ?_⟩, h.evaluated_self sound⟩
  rw [same]
  exact ⟨rfl, rfl, rfl, rfl, rfl, rfl, rfl, mt states.mp valid⟩

end

/-! ### The start and the end of an order -/

/-- The start or the end instant of an order has come (R65). -/
def OrderInstantDue (c : Instr) (s : State) : Prop :=
  (c = .orderEndInstant ∧ (∃ e ∈ s.orders.entries, e.finish.diff s.clock.reading ≤ 0))
    ∨ (c = .orderStartInstant
      ∧ ∃ e ∈ s.orders.entries, e.state = .pending ∧ ∃ d, e.detail = some d ∧ d.start.diff s.clock.reading ≤ 0)

/-- At an instant that is due the list is evaluated (R65). -/
theorem exec_orderInstant {c : Instr} {s : State} (running : s.port.part = .running) (due : OrderInstantDue c s) :
    exec c s = .next (evaluateOrders none s) := by
  have run : s.running = true := decide_eq_true running
  rcases due with ⟨rfl, e, mem, ended⟩ | ⟨rfl, e, mem, pending, d, detail, started⟩
  · have now : s.orderEndDue = true := by
      simp only [State.orderEndDue, run, Bool.true_and, List.any_eq_true, NetTime.atOrBefore, decide_eq_true_eq]
      exact ⟨e, mem, ended⟩
    exact DueNow.exec_eq ⟨by decide, by decide, State.orderEndDue, .inl rfl, now⟩
  · have now : s.orderStartDue = true := by
      simp only [State.orderStartDue, run, Bool.true_and, List.any_eq_true]
      exact ⟨e, mem, by simpa [pending, detail, NetTime.atOrBefore] using started⟩
    exact DueNow.exec_eq ⟨by decide, by decide, State.orderStartDue, .inl rfl, now⟩

end Sys2Proof.Machine

open Sys2Proof Sys2Proof.Machine

/-- Settles O31: either instant works the evaluation, which judges the list and leaves what a delivery leaves. -/
theorem evaluationSettlesTheOrderList : Obligations.EvaluationSettlesTheOrderList := by
  intro c s running inv due
  refine ⟨_, exec_orderInstant running due, ?_, rearranged_evaluateOrders none s⟩
  exact (restored_evaluateOrders s.store s).evaluated running inv.orders

end

section
/-! Reports only come to the queue (R208): raising and withdrawing faults, delivering an effective action and adopting a plan post
at its tail and take none out. -/

set_option Elab.async false

namespace Sys2Proof.Machine

/-- The reports held stay, in their places; others may follow them. -/
structure Posts (s t : State) : Prop where
  reports : s.port.reports <+: t.port.reports

theorem Posts.refl (s : State) : Posts s s := ⟨List.prefix_rfl⟩

theorem Posts.trans {s t u : State} (h : Posts s t) (k : Posts t u) : Posts s u := ⟨h.reports.trans k.reports⟩

/-- An operation upon a state with the reports of this one. -/
theorem Posts.upon {s u t : State} (h : Posts u t) (same : u.port.reports = s.port.reports := by rfl) : Posts s t :=
  ⟨same ▸ h.reports⟩

/-- An operation before a change that leaves the reports. -/
theorem Posts.before {s t u : State} (h : Posts s t) (same : u.port.reports = t.port.reports := by rfl) : Posts s u :=
  ⟨same ▸ h.reports⟩

theorem posts_post (r : ReportBody) (s : State) : Posts s (post r s) := by
  unfold post
  split
  · exact ⟨List.prefix_append _ _⟩
  · exact (Posts.refl s).before

theorem posts_foldl {α : Type} (f : State → α → State) (h : ∀ s a, Posts s (f s a)) (l : List α) (s : State) :
    Posts s (l.foldl f s) := by
  induction l generalizing s with
  | nil => exact Posts.refl s
  | cons a l ih => exact (h s a).trans (ih _)

/-! ### Fault records -/

theorem posts_raiseRecord (c : FaultClass) (detail : Option Nat) (s : State) : Posts s (raiseRecord c detail s) := by
  unfold raiseRecord
  dsimp only
  split
  · split
    · exact (Posts.refl s).before
    all_goals exact (posts_post _ _).upon
  · exact Posts.refl s

theorem posts_withdrawRecord (c : FaultClass) (s : State) : Posts s (withdrawRecord c s) := by
  unfold withdrawRecord
  dsimp only
  split
  · exact Posts.refl s
  · exact Posts.refl s
  · exact (posts_post _ _).upon

theorem posts_withdrawRecordIf (b : Bool) (c : FaultClass) (s : State) :
    Posts s (if b = true then withdrawRecord c s else s) := by
  split
  · exact posts_withdrawRecord c s
  · exact Posts.refl s

/-! ### The Coordinator -/

theorem posts_setCoord (state : CoordState) (cause : Option SuspensionCause) (s : State) : Posts s (setCoord state cause s) := by
  unfold setCoord
  split
  · exact Posts.refl s
  · exact (posts_post _ _).upon

theorem posts_emptyTransition (s : State) : Posts s (emptyTransition s) := by
  unfold emptyTransition
  dsimp only
  split
  · exact (posts_withdrawRecord _ _).upon
  · exact (Posts.refl s).before

theorem posts_isolationChange (s : State) : Posts s (isolationChange s) := by
  have isolated : Posts s (if s.isolating then emptyTransition (setCoord .isolated none s) else s) := by
    split
    · exact (posts_setCoord _ _ s).trans (posts_emptyTransition _)
    · exact Posts.refl s
  unfold isolationChange
  split
  · exact isolated
  · exact isolated
  · split
    · exact Posts.refl s
    · exact (posts_setCoord .correcting none s).before
  · exact Posts.refl s
  · exact Posts.refl s

theorem posts_putForward (a : Adoption) (s : State) : Posts s (putForward a s) := by
  unfold putForward
  split
  · split
    · exact (Posts.refl s).before
    · exact Posts.refl s
  · split
    · exact Posts.refl s
    · split
      · exact (Posts.refl s).before
      · exact (posts_post _ _).upon

theorem posts_clearFallback (s : State) : Posts s (clearFallback s) := by
  unfold clearFallback
  split
  · dsimp only
    split
    · exact (posts_putForward _ _).upon
    · split <;> exact (Posts.refl s).before
  · exact Posts.refl s

theorem posts_deliverCoordinator (action : FaultAction) (s : State) : Posts s (deliverCoordinator action s) := by
  refine (posts_isolationChange s).trans ?_
  unfold deliverCoordinator setFallback
  dsimp only
  split
  · exact (posts_putForward _ _).upon
  · exact posts_clearFallback _
  · exact posts_clearFallback _
  · exact Posts.refl _

theorem posts_suspend (cause : SuspensionCause) (s : State) : Posts s (suspend cause s) :=
  (posts_emptyTransition { s with coord.finalMark := false, coord.figures := none }).upon.trans (posts_setCoord _ _ _)

/-! ### Flash -/

theorem posts_raiseGroup (c : FaultClass) (g : Group) (already : Bool) (s : State) : Posts s (raiseGroup c g already s) := by
  unfold raiseGroup
  split
  · exact Posts.refl s
  · exact posts_raiseRecord _ _ _

theorem posts_markGreenFaulted (g : Group) (s : State) : Posts s (markGreenFaulted g s) := by
  unfold markGreenFaulted
  exact (posts_post _ _).upon.trans (posts_raiseGroup _ _ _ _)

theorem posts_markLampFaulted (g : Group) (s : State) : Posts s (markLampFaulted g s) := by
  unfold markLampFaulted
  exact (posts_post _ _).upon.trans (posts_raiseGroup _ _ _ _)

theorem posts_markGreenClean (g : Group) (s : State) : Posts s (markGreenClean g s) := by
  have withdrawn : ∀ u : State, Posts u
      (if u.bank.greenSenseRaised && !anyFaulted u.bank.greenFilter then
        withdrawRecord .greenSense { u with bank.greenSenseRaised := false }
      else u) := by
    intro u
    split
    · exact (posts_withdrawRecord _ _).upon
    · exact Posts.refl u
  unfold markGreenClean
  exact (posts_post _ _).upon.trans (withdrawn _)

theorem posts_markLampClean (g : Group) (s : State) : Posts s (markLampClean g s) := by
  have withdrawn : ∀ u : State, Posts u
      (if u.bank.lampOutRaised && !anyFaulted u.bank.lampFilter then
        withdrawRecord .lampOut { u with bank.lampOutRaised := false }
      else u) := by
    intro u
    split
    · exact (posts_withdrawRecord _ _).upon
    · exact Posts.refl u
  unfold markLampClean
  exact (posts_post _ _).upon.trans (withdrawn _)

theorem posts_finishGroup (s : State) (g : Group) : Posts s (finishGroup s g) := by
  have green : Posts s
      (if s.greenFaultedDue g then markGreenFaulted g s else if s.greenCleanDue g then markGreenClean g s else s) := by
    split_ifs
    · exact posts_markGreenFaulted g s
    · exact posts_markGreenClean g s
    · exact Posts.refl s
  have lamp : ∀ u : State, Posts u
      (if u.lampFaultedDue g then markLampFaulted g u else if u.lampCleanDue g then markLampClean g u else u) := by
    intro u
    split_ifs
    · exact posts_markLampFaulted g u
    · exact posts_markLampClean g u
    · exact Posts.refl u
  exact green.trans (lamp _)

theorem posts_beginFlash (s : State) : Posts s (beginFlash s) := by
  unfold beginFlash
  exact (posts_withdrawRecordIf _ .greenSense _).upon.trans (posts_withdrawRecordIf _ .lampOut _)

theorem posts_bankFlash (s : State) : Posts s (bankFlash s) := by
  unfold bankFlash
  split
  · exact Posts.refl s
  · exact (posts_foldl finishGroup posts_finishGroup groupList s).trans (posts_beginFlash _)

theorem posts_unstageOrphan (plan : Nat) (s : State) : Posts s (unstageOrphan plan s) := by
  unfold unstageOrphan
  split
  · exact (Posts.refl s).before
  · exact Posts.refl s

theorem posts_unstageOverride (o : Option Override) (s : State) : Posts s (unstageOverride o s) := by
  unfold unstageOverride
  split
  · exact posts_unstageOrphan _ s
  · exact Posts.refl s

theorem posts_setPreempt (state : PreemptState) (input : Option PreemptInput) (s : State) : Posts s (setPreempt state input s) := by
  unfold setPreempt
  exact (posts_post _ _).upon

theorem posts_abandonRun (i : PreemptInput) (s : State) : Posts s (abandonRun i s) := by
  unfold abandonRun
  refine Posts.trans ?_ (posts_post _ _)
  exact ((posts_unstageOverride (s.preempt.save.bind SaveRecord.override) s).trans (posts_setPreempt .idle (some i) _)).before

theorem posts_preemptFlash (s : State) : Posts s (preemptFlash s) := by
  unfold preemptFlash holdClaim
  split
  · split
    · exact (Posts.refl s).before
    · exact (posts_abandonRun _ s).before
  · exact (Posts.refl s).before

theorem posts_setSeq (state : SeqState) (s : State) : Posts s (setSeq state s) := by
  unfold setSeq
  split
  · exact Posts.refl s
  · exact (posts_post _ _).upon

theorem posts_flashEntry (s : State) : Posts s (flashEntry s) := by
  unfold flashEntry
  split
  · exact Posts.refl s
  · refine Posts.trans ?_ (posts_preemptFlash _)
    refine Posts.trans ?_ (posts_suspend _ _)
    exact Posts.trans (posts_setSeq .flash s).before (posts_bankFlash _)

theorem posts_flashExit (s : State) : Posts s (flashExit s) := by
  unfold flashExit
  split
  · exact (posts_setSeq .startupRed s).before
  · exact Posts.refl s

theorem posts_deliverSequencer (action : FaultAction) (s : State) : Posts s (deliverSequencer action s) := by
  unfold deliverSequencer
  split
  · exact posts_flashEntry s
  all_goals
    split
    · exact posts_flashExit s
    · exact Posts.refl s

/-! ### The effective action and adoptions -/

theorem posts_settleAction (n : Nat) (cause : FaultClass) (s : State) : Posts s (settleAction n cause s) := by
  induction n generalizing cause s with
  | zero =>
    unfold settleAction
    dsimp only
    split
    · exact Posts.refl s
    · exact (posts_post _ _).upon
  | succ n ih =>
    unfold settleAction
    dsimp only
    split
    · exact Posts.refl s
    · refine Posts.trans ?_ (ih _ _)
      refine Posts.trans ?_ (posts_deliverSequencer _ _)
      exact (posts_post _ _).upon.trans (posts_deliverCoordinator _ _)

theorem posts_raise (c : FaultClass) (detail : Option Nat) (s : State) : Posts s (raise c detail s) :=
  (posts_raiseRecord c detail s).trans (posts_settleAction _ _ _)

theorem posts_withdraw (c : FaultClass) (s : State) : Posts s (withdraw c s) :=
  (posts_withdrawRecord c s).trans (posts_settleAction _ _ _)

theorem posts_clearOverride (s : State) : Posts s (clearOverride s) := by
  unfold clearOverride
  split
  · exact Posts.refl s
  · split
    · exact Posts.refl s
    · exact (posts_post _ _).upon.trans (posts_unstageOrphan _ _)

theorem posts_adoptionRequest (a : Adoption) (s : State) : Posts s (adoptionRequest a s) := by
  unfold adoptionRequest
  dsimp only
  split <;> split
  · exact (posts_clearOverride _).upon
  · exact (Posts.refl s).before
  · exact (posts_putForward _ _).upon.trans (posts_clearOverride _)
  · exact (posts_putForward _ _).upon

theorem posts_checkMissing (changed : Bool) (g : Adoption) (s : State) : Posts s (checkMissing changed g s) := by
  unfold checkMissing
  split
  · split
    · exact Posts.refl s
    · exact (posts_raise _ _ _).upon
  · split
    · exact (posts_withdraw _ _).upon.trans (posts_adoptionRequest _ _)
    · split
      · exact posts_adoptionRequest _ _
      · exact Posts.refl s

end Sys2Proof.Machine
end

section
/-! The governing plan (R72), the check of its slot (R74) and the adoption request (R73). -/

set_option Elab.async false

namespace Sys2Proof.Machine

/-! ### What the lists call for -/

/-- The governing plan and its source that the order list and the schedule call for (R72). -/
def GoverningCalled (s : State) (g : Option Adoption) (source : GovSource) : Prop :=
  (∃ e ∈ s.orders.entries, e.state = .inForce
    ∧ ∃ d, e.detail = some d ∧ g = some { plan := d.plan, reference := .fixed d.start } ∧ source = .order e.key)
  ∨ ((∀ e ∈ s.orders.entries, e.state ≠ .inForce)
    ∧ g = (s.timetable.scheduled.map fun p => { plan := p, reference := .daily }) ∧ source = .schedule)

theorem governingNow_called {s : State} (place : ∀ e ∈ s.orders.entries, e.detail = none → e.state = .cancelled) :
    GoverningCalled s s.governingNow.1 s.governingNow.2 := by
  unfold State.governingNow
  cases found : s.orders.inForce with
  | none =>
    refine .inr ⟨fun e mem => ?_, rfl, rfl⟩
    simpa using List.find?_eq_none.mp found e mem
  | some e =>
    have mem := List.mem_of_find?_eq_some found
    have force : e.state = .inForce := by simpa using List.find?_some found
    cases detail : e.detail with
    | none => exact absurd (force.symm.trans (place e mem detail)) (by decide)
    | some d => exact .inl ⟨e, mem, force, d, detail, by simp [detail], by simp [detail]⟩

/-! ### The check of the slot -/

section
variable {changed : Bool} {g : Adoption} {s : State}

theorem checkMissing_standing (empty : (s.slot g.plan).state = .empty) (missing : s.orders.planMissing = true) :
    checkMissing changed g s = s := by
  simp [checkMissing, State.slotEmpty, empty, missing]

theorem checkMissing_raises (empty : (s.slot g.plan).state = .empty) (missing : s.orders.planMissing = false) :
    checkMissing changed g s = raise .planMissing (some g.plan) { s with orders.planMissing := true } := by
  simp [checkMissing, State.slotEmpty, empty, missing]

theorem checkMissing_withdraws (filled : (s.slot g.plan).state ≠ .empty) (missing : s.orders.planMissing = true) :
    checkMissing changed g s = adoptionRequest g (withdraw .planMissing { s with orders.planMissing := false }) := by
  simp [checkMissing, State.slotEmpty, filled, missing]

theorem checkMissing_present (filled : (s.slot g.plan).state ≠ .empty) (missing : s.orders.planMissing = false) :
    checkMissing changed g s = if changed then adoptionRequest g s else s := by
  simp [checkMissing, State.slotEmpty, filled, missing]

/-- PLAN_MISSING stands raised exactly while the slot is EMPTY, and nothing else of the Order Handler changes (R74). -/
theorem checkMissing_orders (changed : Bool) (g : Adoption) (s : State) :
    (checkMissing changed g s).orders = { s.orders with planMissing := decide ((s.slot g.plan).state = .empty) } := by
  by_cases empty : (s.slot g.plan).state = .empty <;> cases missing : s.orders.planMissing
  · rw [checkMissing_raises empty missing, (aside_raise _ _ _).orders, decide_eq_true empty]
  · rw [checkMissing_standing empty missing, decide_eq_true empty, ← missing]
  · have same : (checkMissing changed g s).orders = s.orders := by
      rw [checkMissing_present empty missing]
      split
      · exact (aside_adoptionRequest g s).orders
      · rfl
    rw [same, decide_eq_false empty, ← missing]
  · rw [checkMissing_withdraws empty missing, (aside_adoptionRequest _ _).orders, (aside_withdraw _ _).orders,
      decide_eq_false empty]

end

/-! ### The adoption request -/

theorem unstageOrphan_coord (plan : Nat) (s : State) : (unstageOrphan plan s).coord = s.coord := by
  unfold unstageOrphan
  split <;> rfl

theorem clearOverride_coord (s : State) : (clearOverride s).coord = s.coord := by
  unfold clearOverride
  split
  · rfl
  · split
    · rfl
    · rw [unstageOrphan_coord, post_coord]

/-- A plan put forward whose slot is not EMPTY leaves the requested record (R84, R87). -/
theorem putForward_requested {a : Adoption} {s : State} (filled : (s.slot a.plan).state ≠ .empty) :
    (putForward a s).coord.requested = s.coord.requested := by
  obtain ⟨store, stage⟩ := stage_some filled
  unfold putForward
  split_ifs
  · rfl
  · rfl
  · rfl
  · rw [stage]

/-- An adoption request for a slot that is not EMPTY takes the requested record (R84). -/
theorem adoptionRequest_requested {a : Adoption} {s : State} (filled : (s.slot a.plan).state ≠ .empty) :
    (adoptionRequest a s).coord.requested = some a := by
  have forward : (if s.coord.fallbackMark then { s with coord.requested := some a }
      else putForward a { s with coord.requested := some a }).coord.requested = some a := by
    split
    · rfl
    · exact putForward_requested filled
  have cleared : ∀ u : State, (if u.coord.state = .suspended ∧ u.coord.cause = some .preemption then clearOverride u
      else u).coord = u.coord := by
    intro u
    split
    · exact clearOverride_coord u
    · rfl
  exact (congrArg Coordinator.requested (cleared _)).trans forward

/-- A slot that is not EMPTY stays so where the plans stored stay. -/
theorem slot_filled {s t : State} {n : Nat} (old : s.store.Sound) (new : t.store.Sound)
    (plans : t.storedPlan n = s.storedPlan n) (filled : (s.slot n).state ≠ .empty) : (t.slot n).state ≠ .empty := by
  obtain ⟨-, -, emptyOld, -⟩ := (store_sound_iff _).mp old
  obtain ⟨-, -, emptyNew, -⟩ := (store_sound_iff _).mp new
  intro empty
  exact filled ((emptyOld n).mpr (plans.symm.trans ((emptyNew n).mp empty)))

/-! ### What the check leaves -/

/-- What the check of the governing plan's slot leaves of the Coordinator and the fault records (R73, R74). -/
structure SlotChecked (changed : Bool) (g : Adoption) (s t : State) : Prop where
  standing : (s.slot g.plan).state = .empty → s.orders.planMissing = true → t.coord = s.coord ∧ t.faults = s.faults
  raised : (s.slot g.plan).state = .empty → s.orders.planMissing = false →
    (t.faults.record .planMissing).state = .active ∧ (t.faults.record .planMissing).detail = some g.plan
      ∧ (actionOf s.port.config .planMissing = some .report → t.coord = s.coord)
  withdrawn : (s.slot g.plan).state ≠ .empty → s.orders.planMissing = true → (t.faults.record .planMissing).state ≠ .active
  requested : (s.slot g.plan).state ≠ .empty → s.orders.planMissing = true ∨ changed = true → t.coord.requested = some g
  quiet : (s.slot g.plan).state ≠ .empty → s.orders.planMissing = false → changed = false → t.coord = s.coord
  present : (s.slot g.plan).state ≠ .empty → s.orders.planMissing = false → t.faults = s.faults

/-- The record of a class just raised has the detail it was raised with (R170). -/
theorem record_raise_detail {c : FaultClass} (h : c ∉ deliveredClasses) (detail : Option Nat) {s : State}
    (running : s.port.part = .running) : ((raise c detail s).faults.record c).detail = detail := by
  have run : s.running = true := decide_eq_true running
  unfold raise
  rw [record_settleAction h]
  unfold raiseRecord
  rw [if_pos run]
  split
  · rw [record_setRecord, if_pos rfl]
  all_goals rw [post_faults, record_setRecord, if_pos rfl]

theorem record_withdraw_ne_active {c : FaultClass} (h : c ∉ deliveredClasses) (s : State) :
    ((withdraw c s).faults.record c).state ≠ .active := by
  rw [record_withdraw h]
  split_ifs with active
  · split <;> decide
  · exact active

theorem slotChecked_checkMissing (changed : Bool) (g : Adoption) {s : State} (rooms : Rooms s) (settled : s.Settled)
    (running : s.port.part = .running) : SlotChecked changed g s (checkMissing changed g s) := by
  constructor
  case standing =>
    intro empty missing
    rw [checkMissing_standing empty missing]
    exact ⟨rfl, rfl⟩
  case raised =>
    intro empty missing
    rw [checkMissing_raises empty missing]
    refine ⟨record_raise (by decide) _ running, record_raise_detail (by decide) _ running, fun report => ?_⟩
    rw [(raise_report .planMissing (some g.plan) { s with orders.planMissing := true } settled running report).1]
  case withdrawn =>
    intro filled missing
    rw [checkMissing_withdraws filled missing, adoptionRequest_faults]
    exact record_withdraw_ne_active (by decide) _
  case requested =>
    intro filled cause
    cases missing : s.orders.planMissing with
    | true =>
      have cleared : Delivers s { s with orders.planMissing := false } := Delivers.plain
      have withdrawn := cleared.trans (delivers_withdraw .planMissing _)
      rw [checkMissing_withdraws filled missing]
      exact adoptionRequest_requested
        (slot_filled rooms.store (withdrawn.inv rooms).store (withdrawn.kept.plans g.plan) filled)
    | false =>
      have new : changed = true := by simpa [missing] using cause
      rw [checkMissing_present filled missing, if_pos new]
      exact adoptionRequest_requested filled
  case quiet =>
    intro filled missing same
    rw [checkMissing_present filled missing, same]
    rfl
  case present =>
    intro filled missing
    rw [checkMissing_present filled missing]
    split
    · exact adoptionRequest_faults g s
    · rfl

/-! ### The decision -/

theorem decideGoverning_none {s : State} (none : s.governingNow.1 = none) :
    decideGoverning s = { s with orders.governing := .none, orders.govSource := s.governingNow.2 } := by
  unfold decideGoverning
  split
  · rename_i now
    rw [now]
  · rename_i now
    rw [now] at none
    cases none

/-- The state in which the slot of a governing plan is checked: plan and source set, and a change posted (R72). -/
def State.governed (s : State) (g : Adoption) (port : CabinetPort) : State :=
  { s with orders.governing := some g, orders.govSource := s.governingNow.2, port := port }

/-- The reports with which that state is reached. -/
structure Governed (s : State) (g : Adoption) (port : CabinetPort) : Prop where
  delivers : Delivers s (s.governed g port)
  posted : s.orders.governing ≠ some g → s.port.reports.length < 32 →
    { time := s.clock.reading, body := .governing g s.governingNow.2 } ∈ port.reports

theorem governed_posted {s : State} {g : Adoption} :
    post (.governing g s.governingNow.2) (s.governed g s.port)
      = s.governed g (post (.governing g s.governingNow.2) (s.governed g s.port)).port := post_port_eq _ _

theorem decideGoverning_some {s : State} {g : Adoption} (called : s.governingNow.1 = some g) :
    ∃ port, Governed s g port
      ∧ decideGoverning s = checkMissing (decide (s.orders.governing ≠ some g)) g (s.governed g port) := by
  have set : Delivers s (s.governed g s.port) := Delivers.plain
  unfold decideGoverning
  split
  · rename_i now
    rw [now] at called
    cases called
  · rename_i now
    rw [now] at called
    cases called
    split_ifs with same
    · refine ⟨s.port, ⟨set, fun changed => absurd same changed⟩, ?_⟩
      rw [State.governed, decide_eq_false (not_not.mpr same), now, ← same]
    · refine ⟨_, ⟨governed_posted ▸ set.trans (delivers_post _ _), fun _ room => ?_⟩, ?_⟩
      · rw [post_room _ (s.governed g s.port) room]
        exact List.mem_append_right _ List.mem_cons_self
      · rw [← governed_posted, decide_eq_true same, State.governed, now]

/-- The governing plan and its source as decided are those the lists called for. -/
theorem decideGoverning_governing (s : State) :
    (decideGoverning s).orders.governing = s.governingNow.1 ∧ (decideGoverning s).orders.govSource = s.governingNow.2 := by
  cases called : s.governingNow.1 with
  | none =>
    rw [decideGoverning_none called]
    exact ⟨rfl, rfl⟩
  | some g =>
    obtain ⟨port, -, decided⟩ := decideGoverning_some called
    rw [decided, checkMissing_orders]
    exact ⟨rfl, rfl⟩

/-- A decision leaves the governing plan as the order list and the schedule call for (R72). -/
theorem decideGoverning_called {s : State} (place : ∀ e ∈ s.orders.entries, e.detail = none → e.state = .cancelled) :
    GoverningCalled (decideGoverning s) (decideGoverning s).orders.governing (decideGoverning s).orders.govSource := by
  obtain ⟨governing, source⟩ := decideGoverning_governing s
  have called := governingNow_called place
  rw [governing, source]
  unfold GoverningCalled at called ⊢
  rwa [(delivers_decideGoverning s).kept.orders, (apart_decideGoverning s).timetable]

/-- An evaluation ends in a decision of the governing plan (R64). -/
theorem evaluateOrders_decides (was : Option OldState) {s : State} (running : s.port.part = .running) :
    ∃ u, evaluateOrders was s = decideGoverning u := by
  have run : s.running = true := decide_eq_true running
  unfold evaluateOrders
  rw [if_pos run]
  exact ⟨_, rfl⟩

theorem evaluateOrders_called (was : Option OldState) {s : State} (rooms : Rooms s) (running : s.port.part = .running) :
    GoverningCalled (evaluateOrders was s) (evaluateOrders was s).orders.governing (evaluateOrders was s).orders.govSource := by
  have place := ((moves_evaluateOrders was s).inv rooms).orders.placeholders
  obtain ⟨u, decides⟩ := evaluateOrders_decides was running
  rw [decides, (delivers_decideGoverning u).kept.orders] at place
  rw [decides]
  exact decideGoverning_called place

/-- What a decision leaves where no plan governs: nothing but the governing plan and its source change. -/
theorem decideGoverning_ungoverned {s : State} (none : (decideGoverning s).orders.governing = none) :
    (decideGoverning s).coord = s.coord ∧ (decideGoverning s).faults = s.faults
      ∧ (decideGoverning s).orders.planMissing = s.orders.planMissing := by
  rw [(decideGoverning_governing s).1] at none
  rw [decideGoverning_none none]
  exact ⟨rfl, rfl, rfl⟩

/-- What a decision leaves where a plan governs (R72 to R74). -/
theorem decideGoverning_checked {s : State} {a : Adoption} (inv : Inv s) (running : s.port.part = .running)
    (governs : (decideGoverning s).orders.governing = some a) :
    SlotChecked (decide (s.orders.governing ≠ some a)) a s (decideGoverning s)
      ∧ ((decideGoverning s).orders.planMissing = true ↔ (s.slot a.plan).state = .empty)
      ∧ (s.orders.governing ≠ some a → s.port.reports.length < 32 →
        { time := s.clock.reading, body := .governing a (decideGoverning s).orders.govSource } ∈
          (decideGoverning s).port.reports) := by
  rw [(decideGoverning_governing s).1] at governs
  rw [(decideGoverning_governing s).2]
  obtain ⟨port, ⟨delivers, posted⟩, decided⟩ := decideGoverning_some governs
  generalize decide (s.orders.governing ≠ some a) = changed at *
  have config : port.config = s.port.config := delivers.kept.config
  have settled : (s.governed a port).Settled := inv.settled.trans (by rw [← config]; rfl)
  have checked := slotChecked_checkMissing changed a (delivers.inv inv.toRooms) settled (delivers.kept.part.trans running)
  have reports := (posts_checkMissing changed a (s.governed a port)).reports
  have orders := checkMissing_orders changed a (s.governed a port)
  rw [decided]
  refine ⟨⟨checked.standing, ?_, checked.withdrawn, checked.requested, checked.quiet, checked.present⟩, ?_,
    fun new room => reports.subset (posted new room)⟩
  · rw [← config]
    exact checked.raised
  · rw [orders]
    exact decide_eq_true_iff

end Sys2Proof.Machine

open Sys2Proof Sys2Proof.Machine

/-- Settles O33: the decision is that of the lists, and the check of the slot raises, withdraws or requests by what it holds; an
order's instant evaluates the list, which ends in a decision. -/
theorem theGoverningPlanIsDecided : Obligations.TheGoverningPlanIsDecided := by
  intro s inv running
  obtain ⟨governing, source⟩ := decideGoverning_governing s
  refine ⟨⟨?_, (delivers_decideGoverning s).kept, decideGoverning_ungoverned, fun a governs => ?_⟩,
    fun c due => ⟨_, exec_orderInstant running due, evaluateOrders_called none inv.toRooms running⟩⟩
  · rw [governing, source]
    exact governingNow_called inv.orders.placeholders
  · obtain ⟨checked, missing, posted⟩ := decideGoverning_checked inv running governs
    refine ⟨posted, missing, fun empty => ⟨checked.standing empty, checked.raised empty⟩,
      fun filled => ⟨checked.withdrawn filled, fun cause => ?_, fun present same => ?_, checked.present filled⟩⟩
    · exact checked.requested filled (cause.imp id decide_eq_true)
    · exact checked.quiet filled present (decide_eq_false (not_not.mpr same))

end

section
/-! Which entry of a full list makes room (R57, R61, R63): a fold that keeps the first item it may take and replaces it by each
one that goes before it ends with one that none goes before. -/

set_option Elab.async false

namespace Sys2Proof.Machine

/-! ### A choice kept by a fold -/

/-- One step of a choice: the first item that may be taken, then each one that goes before the choice so far. -/
def pick {α : Type} (may : α → Bool) (before : α → α → Bool) (best : Option α) (a : α) : Option α :=
  if may a then
    match best with
    | none => some a
    | some b => if before a b then some a else some b
  else best

section
variable {α : Type} {may : α → Bool} {before : α → α → Bool}

theorem foldl_pick_snoc (l : List α) (a : α) :
    (l ++ [a]).foldl (pick may before) none = pick may before (l.foldl (pick may before) none) a := by
  rw [List.foldl_append]
  rfl

/-- The one chosen is of the list, and may be taken. -/
theorem foldl_pick_mem {l : List α} {v : α} (h : l.foldl (pick may before) none = some v) : v ∈ l ∧ may v = true := by
  induction l using List.reverseRecOn with
  | nil => cases h
  | append_singleton l a ih =>
    rw [foldl_pick_snoc] at h
    unfold pick at h
    have last : may a = true → some a = some v → v ∈ l ++ [a] ∧ may v = true := by
      rintro ok ⟨⟩
      exact ⟨by simp, ok⟩
    have earlier : l.foldl (pick may before) none = some v → v ∈ l ++ [a] ∧ may v = true := fun old =>
      ⟨List.mem_append_left _ (ih old).1, (ih old).2⟩
    split_ifs at h with ok
    · split at h
      · exact last ok h
      · rename_i b best
        split_ifs at h
        · exact last ok h
        · exact earlier (best.trans h)
    · exact earlier h

/-- Where there is one that may be taken one is chosen. -/
theorem foldl_pick_some {l : List α} {y : α} (mem : y ∈ l) (ok : may y = true) :
    ∃ v, l.foldl (pick may before) none = some v := by
  induction l using List.reverseRecOn with
  | nil => cases mem
  | append_singleton l a ih =>
    rw [foldl_pick_snoc]
    unfold pick
    by_cases last : may a = true
    · rw [if_pos last]
      split
      · exact ⟨a, rfl⟩
      · split_ifs <;> exact ⟨_, rfl⟩
    · rw [if_neg last]
      rcases List.mem_append.mp mem with inList | same
      · exact ih inList
      · exact absurd (List.mem_singleton.mp same ▸ ok) last

/-- The one chosen is the least in any preorder that the comparison agrees with. -/
theorem foldl_pick_least {p : α → Prop} {le : α → α → Prop} (refl : ∀ a, p a → le a a)
    (trans : ∀ a b c, p a → p b → p c → le a b → le b c → le a c)
    (first : ∀ a b, p a → p b → before a b = true → le a b) (other : ∀ a b, p a → p b → before a b = false → le b a)
    {l : List α} (hp : ∀ e ∈ l, may e = true → p e) {v : α} (h : l.foldl (pick may before) none = some v) :
    ∀ y ∈ l, may y = true → le v y := by
  induction l using List.reverseRecOn generalizing v with
  | nil => cases h
  | append_singleton l a ih =>
    have inner : ∀ e ∈ l, may e = true → p e := fun e mem => hp e (List.mem_append_left _ mem)
    rw [foldl_pick_snoc] at h
    cases old : l.foldl (pick may before) none with
    | none =>
      intro y mem ok
      rcases List.mem_append.mp mem with inList | last
      · obtain ⟨w, chosen⟩ := foldl_pick_some (before := before) inList ok
        rw [chosen] at old
        cases old
      · cases List.mem_singleton.mp last
        rw [old, pick, if_pos ok] at h
        cases h
        exact refl a (hp a mem ok)
    | some b =>
      obtain ⟨mem, may_b⟩ := foldl_pick_mem old
      have pb := inner b mem may_b
      rw [old, pick] at h
      by_cases ok : may a = true
      · have pa := hp a (by simp) ok
        rw [if_pos ok] at h
        have chosen : le v b ∧ le v a ∧ p v := by
          split_ifs at h with replaced <;> cases h
          · exact ⟨first a b pa pb replaced, refl a pa, pa⟩
          · exact ⟨refl v pb, other a v pa pb (by simpa using replaced), pb⟩
        intro y inList may_y
        rcases List.mem_append.mp inList with inList | last
        · exact trans v b y chosen.2.2 pb (inner y inList may_y) chosen.1 (ih inner old y inList may_y)
        · exact List.mem_singleton.mp last ▸ chosen.2.1
      · rw [if_neg ok] at h
        cases h
        intro y inList may_y
        rcases List.mem_append.mp inList with inList | last
        · exact ih inner old y inList may_y
        · exact absurd (List.mem_singleton.mp last ▸ may_y) ok

end

/-! ### The CANCELLED entry that ends first -/

/-- An entry goes before another by the earlier end, then the lower origin, then the earlier issue stamp (R61). -/
def OrderEntry.endsFirst (e b : OrderEntry) : Bool :=
  if e.finish ≠ b.finish then b.finish.later e.finish
  else if e.key.origin ≠ b.key.origin then decide (e.key.origin < b.key.origin)
  else b.key.stamp.later e.key.stamp

theorem cancelledVictim_eq (l : List OrderEntry) :
    cancelledVictim l = l.foldl (pick (fun e => decide (e.state = .cancelled)) OrderEntry.endsFirst) none := by
  unfold cancelledVictim
  congr 1
  funext best e
  unfold pick OrderEntry.endsFirst
  cases best with
  | none => simp
  | some b =>
    by_cases finish : e.finish = b.finish
    · by_cases origin : e.key.origin = b.key.origin <;> simp [finish, origin]
    · simp [finish]

theorem cancelledVictim_cancelled {l : List OrderEntry} {v : OrderEntry} (h : cancelledVictim l = some v) :
    v ∈ l ∧ v.state = .cancelled := by
  rw [cancelledVictim_eq] at h
  exact (foldl_pick_mem h).imp id of_decide_eq_true

theorem cancelledVictim_some {l : List OrderEntry} (h : ∃ e ∈ l, e.state = .cancelled) : ∃ v, cancelledVictim l = some v := by
  obtain ⟨e, mem, cancelled⟩ := h
  rw [cancelledVictim_eq]
  exact foldl_pick_some mem (decide_eq_true cancelled)

theorem cancelledVictim_none {l : List OrderEntry} (h : ∀ e ∈ l, e.state ≠ .cancelled) : cancelledVictim l = none := by
  cases found : cancelledVictim l with
  | none => rfl
  | some v =>
    obtain ⟨mem, cancelled⟩ := cancelledVictim_cancelled found
    exact absurd cancelled (h v mem)

/-- `endsFirst` of two entries whose ends and issue stamps do not lie across the week wrap, in numbers. -/
theorem endsFirst_plain {a b : OrderEntry} (ha : Plain a.finish ∧ Plain a.key.stamp) (hb : Plain b.finish ∧ Plain b.key.stamp) :
    a.endsFirst b = true ↔
      ordinal a.finish < ordinal b.finish
        ∨ (ordinal a.finish = ordinal b.finish
          ∧ (a.key.origin < b.key.origin
            ∨ (a.key.origin = b.key.origin ∧ ordinal a.key.stamp < ordinal b.key.stamp))) := by
  have same : a.finish = b.finish ↔ ordinal a.finish = ordinal b.finish := ⟨fun h => h ▸ rfl, ordinal_injective ha.1 hb.1⟩
  unfold OrderEntry.endsFirst
  simp only [same, ne_eq, NetTime.later, diff_of_plain hb.1 ha.1, diff_of_plain hb.2 ha.2]
  split_ifs <;> simp only [decide_eq_true_eq] <;> omega

theorem orderKey_ext {a b : OrderKey} (origin : a.origin = b.origin) (stamp : a.stamp = b.stamp) : a = b := by
  obtain ⟨ao, as⟩ := a
  obtain ⟨bo, bs⟩ := b
  exact congrArg₂ OrderKey.mk origin stamp

/-- The CANCELLED entry a full list gives up goes before every other one (R61). -/
theorem cancelledVictim_first {l : List OrderEntry} {v : OrderEntry} (keys : (l.map OrderEntry.key).Nodup)
    (plain : ∀ e ∈ l, Plain e.finish ∧ Plain e.key.stamp) (h : cancelledVictim l = some v) {x : OrderEntry} (mem : x ∈ l)
    (cancelled : x.state = .cancelled) (other : x ≠ v) :
    0 < x.finish.diff v.finish
      ∨ (x.finish = v.finish
        ∧ (v.key.origin < x.key.origin ∨ (v.key.origin = x.key.origin ∧ 0 < x.key.stamp.diff v.key.stamp))) := by
  have victim := (cancelledVictim_cancelled h).1
  rw [cancelledVictim_eq] at h
  have least := foldl_pick_least (p := fun e : OrderEntry => Plain e.finish ∧ Plain e.key.stamp)
    (le := fun a b => b.endsFirst a = false) (fun a pa => ?_) (fun a b c pa pb pc ab bc => ?_) (fun a b pa pb ab => ?_)
    (fun a b _ _ ab => ab) (fun e mem _ => plain e mem) h x mem (decide_eq_true cancelled)
  · have px := plain x mem
    have pv := plain v victim
    have stamps : x.key.origin = v.key.origin → ordinal x.key.stamp ≠ ordinal v.key.stamp := fun origin stamp =>
      other (eq_of_key keys mem victim (orderKey_ext origin (ordinal_injective px.2 pv.2 stamp)))
    have same : x.finish = v.finish ↔ ordinal x.finish = ordinal v.finish := ⟨fun h => h ▸ rfl, ordinal_injective px.1 pv.1⟩
    rw [← Bool.not_eq_true, endsFirst_plain px pv] at least
    rw [diff_of_plain px.1 pv.1, diff_of_plain px.2 pv.2, same]
    omega
  · rw [← Bool.not_eq_true, endsFirst_plain pa pa]
    omega
  · rw [← Bool.not_eq_true, endsFirst_plain pb pa] at ab
    rw [← Bool.not_eq_true, endsFirst_plain pc pb] at bc
    rw [← Bool.not_eq_true, endsFirst_plain pc pa]
    omega
  · rw [endsFirst_plain pa pb] at ab
    rw [← Bool.not_eq_true, endsFirst_plain pb pa]
    omega

/-- The CANCELLED entry a full list gives up ends no later than any other, whatever the issue stamps (R63). -/
theorem cancelledVictim_earliest {l : List OrderEntry} {v : OrderEntry} (plain : ∀ e ∈ l, Plain e.finish)
    (h : cancelledVictim l = some v) {x : OrderEntry} (mem : x ∈ l) (cancelled : x.state = .cancelled) :
    0 ≤ x.finish.diff v.finish := by
  rw [cancelledVictim_eq] at h
  refine foldl_pick_least (p := fun e : OrderEntry => Plain e.finish) (le := fun a b => 0 ≤ b.finish.diff a.finish)
    (fun a _ => (diff_self _).ge) (fun a b c pa pb pc ab bc => ?_) (fun a b pa pb ab => ?_) (fun a b pa pb ab => ?_)
    (fun e mem _ => plain e mem) h x mem (decide_eq_true cancelled)
  · rw [diff_of_plain pb pa] at ab
    rw [diff_of_plain pc pb] at bc
    rw [diff_of_plain pc pa]
    omega
  · by_cases same : a.finish = b.finish
    · rw [same, diff_self]
    · simp only [OrderEntry.endsFirst, ne_eq, same, not_false_eq_true, if_true, NetTime.later, decide_eq_true_eq] at ab
      exact ab.le
  · by_cases same : a.finish = b.finish
    · rw [same, diff_self]
    · simp only [OrderEntry.endsFirst, ne_eq, same, not_false_eq_true, if_true, NetTime.later, decide_eq_false_iff_not] at ab
      rw [diff_of_plain pb pa] at ab
      rw [diff_of_plain pa pb]
      omega

/-! ### The lowest-ranked entry -/

theorem lowestRanked_eq (l : List OrderEntry) :
    lowestRanked l = l.foldl (pick (fun e => decide (e.state ≠ .inForce)) fun e low => low.outranks e) none := by
  unfold lowestRanked
  congr 1
  funext low e
  unfold pick
  cases low <;> by_cases force : e.state = .inForce <;> simp [force]

theorem lowestRanked_out {l : List OrderEntry} {v : OrderEntry} (h : lowestRanked l = some v) : v ∈ l ∧ v.state ≠ .inForce := by
  rw [lowestRanked_eq] at h
  exact (foldl_pick_mem h).imp id of_decide_eq_true

/-- A list of two entries or more has one that is not IN_FORCE. -/
theorem lowestRanked_some {o : OrderHandler} (sound : o.Sound) (long : 2 ≤ o.entries.length) :
    ∃ v, lowestRanked o.entries = some v := by
  obtain ⟨a, b, rest, cut⟩ : ∃ a b rest, o.entries = a :: b :: rest := by
    generalize o.entries = l at long
    rcases l with _ | ⟨a, _ | ⟨b, rest⟩⟩
    · simp at long
    · simp at long
    · exact ⟨a, b, rest, rfl⟩
  have apart : a ≠ b := by
    rintro rfl
    have keys := sound.keys
    rw [cut] at keys
    simp at keys
  have first : a ∈ o.entries := by simp [cut]
  have second : b ∈ o.entries := by simp [cut]
  rw [lowestRanked_eq]
  by_cases force : a.state = .inForce
  · refine foldl_pick_some second (decide_eq_true fun other => apart ?_)
    exact sound.oneInForce a first b second force other
  · exact foldl_pick_some first (decide_eq_true force)

/-- Every other order outranks the lowest-ranked one, where no entry is CANCELLED (R57, R61). -/
theorem lowestRanked_lowest {l : List OrderEntry} {v x : OrderEntry} {d dx : OrderDetail} (keys : (l.map OrderEntry.key).Nodup)
    (ranked : ∀ e ∈ l, e.Ranked) (h : lowestRanked l = some v) (mem : x ∈ l) (out : x.state ≠ .inForce)
    (dv : v.detail = some d) (hx : x.detail = some dx) (other : x ≠ v) : Outranks dx x.key d v.key := by
  have victim := (lowestRanked_out h).1
  rw [lowestRanked_eq] at h
  have least := foldl_pick_least (p := OrderEntry.Ranked) (le := fun a b => a.outranks b = false) ranked_irrefl
    (fun a b c ra rb rc ab bc => ?_) (fun a b ra rb ab => ?_) (fun a b _ _ ab => ab) (fun e mem _ => ranked e mem) h x mem
    (decide_eq_true out)
  · obtain ⟨e, he, start, stamp⟩ := ranked x mem
    obtain ⟨f, hf, start', stamp'⟩ := ranked v victim
    rw [hx] at he
    rw [dv] at hf
    cases he
    cases hf
    exact ranked_total hx dv start start' stamp stamp' (fun key => other (eq_of_key keys mem victim key)) least
  · obtain ⟨da, ha, sa, ta⟩ := ra
    obtain ⟨db, hb, sb, tb⟩ := rb
    obtain ⟨dc, hc, sc, tc⟩ := rc
    rw [← Bool.not_eq_true, ranked_outranks_iff ha hb, outranks_plain sa sb ta tb] at ab
    rw [← Bool.not_eq_true, ranked_outranks_iff hb hc, outranks_plain sb sc tb tc] at bc
    rw [← Bool.not_eq_true, ranked_outranks_iff ha hc, outranks_plain sa sc ta tc]
    omega
  · obtain ⟨da, ha, sa, ta⟩ := ra
    obtain ⟨db, hb, sb, tb⟩ := rb
    rw [ranked_outranks_iff hb ha, outranks_plain sb sa tb ta] at ab
    rw [← Bool.not_eq_true, ranked_outranks_iff ha hb, outranks_plain sa sb ta tb]
    omega

end Sys2Proof.Machine
end

section
/-! An ORDER taken into the order list (R59 to R61): which list is put in place, and what that list holds once evaluated. -/

set_option Elab.async false

namespace Sys2Proof.Machine

/-! ### Lists put in place -/

theorem counted_list (s : State) (l : List OrderEntry) : Counted s { s with orders.entries := l } := ⟨rfl, rfl, rfl, rfl, rfl⟩

/-- The evaluation of a state in which nothing but the order list has changed. -/
theorem relisted_evaluated (was : Option OldState) {s u : State} (running : s.port.part = .running) (kept : Rearranged s u)
    (counted : Counted s u) : Relisted s u.orders.entries (evaluateOrders was u) :=
  (relisted_evaluateOrders was (kept.part.trans running)).upon kept counted

/-- The same, after a report of the change. -/
theorem relisted_posted (was : Option OldState) (r : ReportBody) {s : State} (running : s.port.part = .running)
    (l : List OrderEntry) : Relisted s l (evaluateOrders was (post r { s with orders.entries := l })) := by
  have relisted := relisted_evaluated was (u := post r { s with orders.entries := l }) running
    ((rearranged_orders s _).trans (delivers_post r _).rearranged) ((counted_list s l).trans (aside_post r _).counted)
  rwa [post_orders] at relisted

theorem relisted_storeOrder (o : OrderContent) {s : State} (running : s.port.part = .running) :
    Relisted s (insertEntry (o.toEntry s.clock.reading .pending) s.orders.entries) (storeOrder o s) :=
  relisted_posted _ _ running _

theorem evict_entries (v : OrderEntry) (s : State) : (evict v s).orders.entries = removeEntry v.key s.orders.entries :=
  (delivers_post _ _).kept.orders

theorem rearranged_evict (v : OrderEntry) (s : State) : Rearranged s (evict v s) :=
  (rearranged_orders s _).trans (delivers_post _ _).rearranged

theorem counted_evict (v : OrderEntry) (s : State) : Counted s (evict v s) := (counted_list s _).trans (aside_post _ _).counted

/-- An order stored in the place of another entry. -/
theorem relisted_storeOrder_evict (o : OrderContent) (v : OrderEntry) {s : State} (running : s.port.part = .running) :
    Relisted s (insertEntry (o.toEntry s.clock.reading .pending) (removeEntry v.key s.orders.entries))
      (storeOrder o (evict v s)) := by
  have kept := rearranged_evict v s
  have stored := relisted_storeOrder o (kept.part.trans running)
  rw [evict_entries, kept.clock] at stored
  exact stored.upon kept (counted_evict v s)

/-- What an entry becomes that is cancelled with a revision and an end (R60, R62). -/
def OrderEntry.withdrawn (e : OrderEntry) (revision : Nat) (finish : NetTime) : OrderEntry :=
  { e with state := .cancelled, revision := revision, finish := finish }

section
variable (e : OrderEntry) (revision : Nat) (finish : NetTime) (s : State)

theorem aside_cancelEntry :
    Aside { s with orders.entries := insertEntry (e.withdrawn revision finish) (removeEntry e.key s.orders.entries) }
      (cancelEntry e revision finish s) := by
  unfold cancelEntry
  exact (aside_post _ _).trans (aside_reportState _ _ _ _)

theorem rearranged_cancelEntry : Rearranged s (cancelEntry e revision finish s) := by
  unfold cancelEntry
  exact (rearranged_orders s _).trans ((delivers_post _ _).trans (delivers_reportState _ _ _ _)).rearranged

/-- An entry cancelled, and the list evaluated. -/
theorem relisted_cancelEntry (running : s.port.part = .running) :
    Relisted s (insertEntry (e.withdrawn revision finish) (removeEntry e.key s.orders.entries))
      (evaluateOrders none (cancelEntry e revision finish s)) := by
  have cancelled := aside_cancelEntry e revision finish s
  have relisted := relisted_evaluated none running (rearranged_cancelEntry e revision finish s)
    ((counted_list s _).trans cancelled.counted)
  rwa [cancelled.orders] at relisted

end

/-! ### The entry of a key -/

theorem entry_of_mem {o : OrderHandler} (sound : o.Sound) {e : OrderEntry} {k : OrderKey} (mem : e ∈ o.entries) (key : e.key = k) :
    o.entry k = some e := by
  cases found : o.entry k with
  | none => exact absurd key (entry_none found e mem)
  | some x =>
    obtain ⟨other, same⟩ := entry_mem found
    rw [eq_of_key sound.keys other mem (same.trans key.symm)]

theorem entry_of_free {o : OrderHandler} {k : OrderKey} (free : ∀ e ∈ o.entries, e.key ≠ k) : o.entry k = none := by
  cases found : o.entry k with
  | none => rfl
  | some x => exact absurd (entry_mem found).2 (free x (entry_mem found).1)

theorem mem_insert_remove {l : List OrderEntry} {k : OrderKey} {new x : OrderEntry} (mem : x ∈ l) (other : x.key ≠ k) :
    x ∈ insertEntry new (removeEntry k l) :=
  mem_insertEntry.mpr (.inr (mem_removeEntry.mpr ⟨mem, other⟩))

/-! ### An ORDER of a key that is held -/

section
variable {o : OrderContent} {s : State} {e : OrderEntry} (held : s.orders.entry o.key = some e)
include held

theorem processOrder_repeated (old : o.revision ≤ e.revision) : processOrder o s = s := by
  simp [processOrder, held, old]

variable (running : s.port.part = .running) (new : e.revision < o.revision)
include running new

theorem relisted_revised (zone : s.inZone o.zones = true) :
    Relisted s
      (insertEntry (o.toEntry e.storedAt (if e.state = .cancelled then .pending else e.state))
        (removeEntry e.key s.orders.entries)) (processOrder o s) := by
  unfold processOrder
  simp only [held, Nat.not_le.mpr new, if_false, zone, if_true]
  exact relisted_posted _ _ running _

theorem relisted_outOfZone (zone : s.inZone o.zones = false) :
    Relisted s
      (insertEntry (e.withdrawn o.revision (if 0 < o.finish.diff e.finish then o.finish else e.finish))
        (removeEntry e.key s.orders.entries)) (processOrder o s) := by
  unfold processOrder
  simp only [held, Nat.not_le.mpr new, if_false, zone, Bool.false_eq_true, NetTime.later, decide_eq_true_eq]
  exact relisted_cancelEntry e o.revision _ s running

end

/-! ### An ORDER of a new key -/

/-- The count of evictions may go up before the eviction. -/
theorem evict_counted (v : OrderEntry) (s : State) :
    { evict v s with orders.evicted := countUp 65535 (evict v s).orders.evicted } =
      evict v { s with orders.evicted := countUp 65535 s.orders.evicted } := by
  unfold evict post
  split <;> rfl

section
variable {o : OrderContent} {s : State} (free : ∀ e ∈ s.orders.entries, e.key ≠ o.key)
include free

theorem processOrder_elsewhere (zone : s.inZone o.zones = false) :
    processOrder o s = { s with orders.outOfZone := countUp 65535 s.orders.outOfZone } := by
  simp [processOrder, entry_of_free free, zone]

variable (zone : s.inZone o.zones = true)
include zone

theorem processOrder_stored (room : s.orders.entries.length < 12) : processOrder o s = storeOrder o s := by
  simp [processOrder, entry_of_free free, zone, admitOrder, room]

variable (full : s.orders.entries.length = 12)
include full

theorem processOrder_overCancelled {v : OrderEntry} (victim : cancelledVictim s.orders.entries = some v) :
    processOrder o s = storeOrder o (evict v s) := by
  simp [processOrder, entry_of_free free, zone, admitOrder, full, victim]

variable {v : OrderEntry} (none : cancelledVictim s.orders.entries = none) (lowest : lowestRanked s.orders.entries = some v)
include none lowest

theorem processOrder_refused (above : v.outranks (o.toEntry s.clock.reading .pending) = true) :
    processOrder o s = refuseRoom o s := by
  simp [processOrder, entry_of_free free, zone, admitOrder, full, none, lowest, above]

theorem processOrder_overLowest (above : v.outranks (o.toEntry s.clock.reading .pending) = false) :
    processOrder o s = storeOrder o (evict v { s with orders.evicted := countUp 65535 s.orders.evicted }) := by
  rw [← evict_counted]
  simp [processOrder, entry_of_free free, zone, admitOrder, full, none, lowest, above]

end

theorem refuseRoom_orders (o : OrderContent) (s : State) :
    (refuseRoom o s).orders = { s.orders with refusedRoom := countUp 65535 s.orders.refusedRoom } := post_orders _ _

/-! ### What taking an ORDER leaves beside the list -/

theorem rearranged_storeOrder (o : OrderContent) (s : State) : Rearranged s (storeOrder o s) := by
  unfold storeOrder
  exact ((rearranged_orders s _).trans (delivers_post _ _).rearranged).trans (rearranged_evaluateOrders _ _)

theorem rearranged_refuseRoom (o : OrderContent) (s : State) : Rearranged s (refuseRoom o s) :=
  (rearranged_orders s _).trans (delivers_post _ _).rearranged

theorem rearranged_admitOrder (o : OrderContent) (s : State) : Rearranged s (admitOrder o s) := by
  unfold admitOrder
  split
  · exact rearranged_storeOrder o s
  · split
    · exact (rearranged_evict _ s).trans (rearranged_storeOrder o _)
    · split
      · exact rearranged_refuseRoom o s
      · split
        · exact rearranged_refuseRoom o s
        · exact ((rearranged_evict _ s).trans (rearranged_orders _ _)).trans (rearranged_storeOrder o _)

theorem rearranged_processOrder (o : OrderContent) (s : State) : Rearranged s (processOrder o s) := by
  unfold processOrder
  split
  · split
    · exact Rearranged.refl s
    · split
      · exact ((rearranged_orders s _).trans (delivers_post _ _).rearranged).trans (rearranged_evaluateOrders _ _)
      · exact (rearranged_cancelEntry _ _ _ s).trans (rearranged_evaluateOrders _ _)
  · split
    · exact rearranged_admitOrder o s
    · exact rearranged_orders s _

/-! ### What taking an ORDER leaves -/

section
variable {o : OrderContent} {s : State} (sound : s.orders.Sound) (live : 0 < o.finish.diff s.clock.reading)
include sound live

/-- A new order put into the list, with the entry of another key out of it. -/
theorem replaced_of_relisted {t : State} {k : OrderKey} (free : ∀ e ∈ s.orders.entries, e.key ≠ o.key)
    (h : Relisted s (insertEntry (o.toEntry s.clock.reading .pending) (removeEntry k s.orders.entries)) t) :
    HoldsOrder t o s.clock.reading ∧ EntriesStay s t k ∧ (k ≠ o.key → ∀ x ∈ t.orders.entries, x.key ≠ k) := by
  have listSound : ListSound (insertEntry (o.toEntry s.clock.reading .pending) (removeEntry k s.orders.entries)) :=
    sound.list.replace (fun x mem _ => free x mem) nofun
  refine ⟨h.holdsOrder listSound (mem_insertEntry.mpr (.inl rfl)) live nofun,
    h.entriesStay listSound fun x mem other => mem_insert_remove mem other, fun other => h.absent listSound fun x mem => ?_⟩
  rcases mem_insertEntry.mp mem with rfl | old
  · exact other.symm
  · exact (mem_removeEntry.mp old).2

variable (running : s.port.part = .running)
include running

/-- An ORDER of a key that is held: a repeat, a revision in the zone, or one that leaves it (R60). -/
theorem processOrder_held {e : OrderEntry} (mem : e ∈ s.orders.entries) (key : e.key = o.key) :
    (o.revision ≤ e.revision → (processOrder o s).orders.entries = s.orders.entries)
    ∧ (e.revision < o.revision → EntriesStay s (processOrder o s) e.key)
    ∧ (e.revision < o.revision → s.inZone o.zones = true → HoldsOrder (processOrder o s) o e.storedAt)
    ∧ (e.revision < o.revision → ¬ s.inZone o.zones = true → 0 < e.finish.diff s.clock.reading →
      e.withdrawn o.revision (if 0 < o.finish.diff e.finish then o.finish else e.finish) ∈ (processOrder o s).orders.entries) := by
  have held := entry_of_mem sound mem key
  have others : ∀ {new : OrderEntry}, ∀ x ∈ s.orders.entries, x.key ≠ e.key →
      x ∈ insertEntry new (removeEntry e.key s.orders.entries) := fun x mem other => mem_insert_remove mem other
  have revisedSound : ListSound (insertEntry (o.toEntry e.storedAt (if e.state = .cancelled then .pending else e.state))
      (removeEntry e.key s.orders.entries)) := sound.list.replace (fun _ _ other same => other (same.trans key.symm)) nofun
  have cancelledSound : ∀ finish, ListSound (insertEntry (e.withdrawn o.revision finish) (removeEntry e.key s.orders.entries)) :=
    fun _ => sound.list.replace (fun _ _ other => other) fun _ => rfl
  refine ⟨fun old => ?_, fun new => ?_, fun new zone => ?_, fun new zone ends => ?_⟩
  · rw [processOrder_repeated held old]
  · cases zone : s.inZone o.zones with
    | true => exact (relisted_revised held running new zone).entriesStay revisedSound others
    | false => exact (relisted_outOfZone held running new zone).entriesStay (cancelledSound _) others
  · refine (relisted_revised held running new zone).holdsOrder revisedSound (mem_insertEntry.mpr (.inl rfl)) live ?_
    split_ifs with cancelled
    · decide
    · exact cancelled
  · refine (relisted_outOfZone held running new (Bool.eq_false_of_not_eq_true zone)).cancelled_mem (cancelledSound _)
      (mem_insertEntry.mpr (.inl rfl)) ?_ rfl
    unfold OrderEntry.withdrawn
    split_ifs
    · exact live
    · exact ends

/-- A new order in a list with room (R61). -/
theorem processOrder_room (free : ∀ e ∈ s.orders.entries, e.key ≠ o.key) (zone : s.inZone o.zones = true)
    (room : s.orders.entries.length < 12) :
    HoldsOrder (processOrder o s) o s.clock.reading ∧ EntriesStay s (processOrder o s) o.key := by
  have stored := relisted_storeOrder o running
  have same : removeEntry o.key s.orders.entries = s.orders.entries :=
    List.filter_eq_self.mpr fun e mem => decide_eq_true (free e mem)
  rw [← processOrder_stored free zone room, ← same] at stored
  obtain ⟨holds, stay, -⟩ := replaced_of_relisted sound live free stored
  exact ⟨holds, stay⟩

/-- A new order in a full list that holds a CANCELLED entry (R61). -/
theorem processOrder_fullCancelled (free : ∀ e ∈ s.orders.entries, e.key ≠ o.key) (zone : s.inZone o.zones = true)
    (full : s.orders.entries.length = 12) {v : OrderEntry} (victim : cancelledVictim s.orders.entries = some v) :
    (HoldsOrder (processOrder o s) o s.clock.reading ∧ (∀ x ∈ (processOrder o s).orders.entries, x.key ≠ v.key)
      ∧ EntriesStay s (processOrder o s) v.key) ∧ (processOrder o s).orders.evicted = s.orders.evicted := by
  have stored := relisted_storeOrder_evict o v running
  rw [← processOrder_overCancelled free zone full victim] at stored
  obtain ⟨holds, stay, gone⟩ := replaced_of_relisted sound live free stored
  exact ⟨⟨holds, gone (free v (cancelledVictim_cancelled victim).1), stay⟩, stored.counted.evicted⟩

/-- A new order in a full list without a CANCELLED entry, by the rank of the lowest (R61). -/
theorem processOrder_fullLowest (free : ∀ e ∈ s.orders.entries, e.key ≠ o.key) (zone : s.inZone o.zones = true)
    (full : s.orders.entries.length = 12) (none : cancelledVictim s.orders.entries = none) {v : OrderEntry} {d : OrderDetail}
    (lowest : lowestRanked s.orders.entries = some v) (detail : v.detail = some d) :
    (Outranks d v.key o.detail o.key →
      (processOrder o s).orders.entries = s.orders.entries ∧ (processOrder o s).orders.evicted = s.orders.evicted
        ∧ (processOrder o s).orders.refusedRoom = min 65535 (s.orders.refusedRoom + 1))
    ∧ (¬ Outranks d v.key o.detail o.key →
      (HoldsOrder (processOrder o s) o s.clock.reading ∧ (∀ x ∈ (processOrder o s).orders.entries, x.key ≠ v.key)
        ∧ EntriesStay s (processOrder o s) v.key)
      ∧ (processOrder o s).orders.evicted = min 65535 (s.orders.evicted + 1)
      ∧ (processOrder o s).orders.refusedRoom = s.orders.refusedRoom) := by
  have rank := ranked_outranks_iff (b := o.toEntry s.clock.reading .pending) detail rfl
  refine ⟨fun above => ?_, fun below => ?_⟩
  · rw [processOrder_refused free zone full none lowest (rank.mpr above), refuseRoom_orders]
    exact ⟨rfl, rfl, rfl⟩
  · have stored := relisted_storeOrder_evict o v (s := { s with orders.evicted := countUp 65535 s.orders.evicted }) running
    rw [← processOrder_overLowest free zone full none lowest (Bool.eq_false_of_not_eq_true (mt rank.mp below))] at stored
    have counted : ({ s with orders.evicted := countUp 65535 s.orders.evicted } : State).orders.Sound :=
      ⟨sound.entries, sound.issued, sound.keys, sound.placeholders, sound.stamps, sound.oneInForce⟩
    obtain ⟨holds, stay, gone⟩ := replaced_of_relisted counted live free stored
    exact ⟨⟨holds, gone (free v (lowestRanked_out lowest).1), stay⟩, stored.counted.evicted, stored.counted.refusedRoom⟩

/-- What taking an ORDER leaves of the order list (R60, R61). -/
theorem orderTaken_processOrder : OrderTaken s (processOrder o s) o := by
  constructor
  case held => exact fun e mem key => processOrder_held sound live running mem key
  case elsewhere =>
    intro free zone
    rw [processOrder_elsewhere free (Bool.eq_false_of_not_eq_true zone)]
    exact ⟨rfl, rfl⟩
  case stored => exact fun free zone room => processOrder_room sound live running free zone room
  case full =>
    intro free zone full
    refine ⟨fun some => ?_, fun none => ?_⟩
    · obtain ⟨v, victim⟩ := cancelledVictim_some some
      obtain ⟨mem, cancelled⟩ := cancelledVictim_cancelled victim
      obtain ⟨replaced, evicted⟩ := processOrder_fullCancelled sound live running free zone full victim
      exact ⟨v, mem, cancelled, replaced, evicted, fun plain x inList gone other =>
        cancelledVictim_first sound.keys plain victim inList gone other⟩
    · obtain ⟨v, lowest⟩ := lowestRanked_some sound (by omega)
      obtain ⟨mem, out⟩ := lowestRanked_out lowest
      obtain ⟨d, detail⟩ := Option.ne_none_iff_exists'.mp fun gone => none v mem (sound.placeholders v mem gone)
      obtain ⟨refused, replaced⟩ :=
        processOrder_fullLowest sound live running free zone full (cancelledVictim_none none) lowest detail
      refine ⟨v, d, mem, out, detail, fun plain x dx inList live' hx other => ?_, refused, replaced⟩
      refine lowestRanked_lowest sound.keys (fun e inList => ?_) lowest inList live' detail hx other
      obtain ⟨f, hf⟩ := Option.ne_none_iff_exists'.mp fun gone => none e inList (sound.placeholders e inList gone)
      exact ⟨f, hf, plain e f inList hf⟩

end

end Sys2Proof.Machine
end

section
/-! A CANCEL taken into the order list and the issued list (R62, R63). -/

set_option Elab.async false

namespace Sys2Proof.Machine

/-! ### A CANCEL of a key that is held -/

/-- The higher revision taken by the entry of a key (R62). -/
def raiseRevision (c : CancelContent) (x : OrderEntry) : OrderEntry :=
  if x.key = c.key then { x with revision := max x.revision c.revision } else x

theorem raiseRevision_other {c : CancelContent} {x : OrderEntry} (other : x.key ≠ c.key) : raiseRevision c x = x := if_neg other

theorem raiseRevision_fields (c : CancelContent) (x : OrderEntry) :
    (raiseRevision c x).key = x.key ∧ (raiseRevision c x).detail = x.detail ∧ (raiseRevision c x).state = x.state := by
  unfold raiseRevision
  split <;> exact ⟨rfl, rfl, rfl⟩

theorem ListSound.withRevision {l : List OrderEntry} (h : ListSound l) (c : CancelContent) :
    ListSound (l.map (raiseRevision c)) := by
  refine ⟨?_, fun e mem => ?_⟩
  · have keys : OrderEntry.key ∘ raiseRevision c = OrderEntry.key := funext fun x => (raiseRevision_fields c x).1
    rw [List.map_map, keys]
    exact h.keys
  · obtain ⟨x, old, rfl⟩ := List.mem_map.mp mem
    obtain ⟨-, detail, state⟩ := raiseRevision_fields c x
    rw [detail, state]
    exact h.placeholders x old

section
variable {c : CancelContent} {s : State} {e : OrderEntry} (held : s.orders.entry c.key = some e)
include held

theorem relisted_cancelledAgain (running : s.port.part = .running) (cancelled : e.state = .cancelled) :
    Relisted s (s.orders.entries.map (raiseRevision c)) (cancelInList c s) := by
  unfold cancelInList
  simp only [held, cancelled, if_true]
  exact relisted_evaluated none (u := { s with orders.entries := s.orders.entries.map (raiseRevision c) }) running
    (rearranged_orders s _) (counted_list s _)

theorem relisted_cancelled (running : s.port.part = .running) (live : e.state ≠ .cancelled) (fits : e.revision ≤ c.revision) :
    Relisted s (insertEntry (e.withdrawn c.revision e.finish) (removeEntry e.key s.orders.entries)) (cancelInList c s) := by
  unfold cancelInList
  simp only [held, live, if_false, fits, if_true]
  exact relisted_cancelEntry e c.revision e.finish s running

theorem cancelInList_older (live : e.state ≠ .cancelled) (older : c.revision < e.revision) : cancelInList c s = s := by
  unfold cancelInList
  simp only [held, live, if_false, Nat.not_le.mpr older]

end

/-! ### A CANCEL of a key that is not held -/

section
variable {c : CancelContent} {s : State} (free : ∀ e ∈ s.orders.entries, e.key ≠ c.key)
include free

theorem cancelInList_elsewhere (zone : s.inZone c.zones = false) : cancelInList c s = s := by
  simp [cancelInList, entry_of_free free, zone]

theorem cancelInList_placeholder (zone : s.inZone c.zones = true) : cancelInList c s = storePlaceholder c s := by
  simp [cancelInList, entry_of_free free, zone]

end

section
variable (c : CancelContent) {s : State}

theorem relisted_storePlaceholder (running : s.port.part = .running) (room : s.orders.entries.length < 12) :
    Relisted s (insertEntry (c.toPlaceholder s.clock.reading) s.orders.entries) (storePlaceholder c s) := by
  unfold storePlaceholder
  rw [if_pos room]
  exact relisted_evaluated none (u := insertPlaceholder c s) running (rearranged_orders s _) (counted_list s _)

theorem relisted_storePlaceholder_evict (running : s.port.part = .running) (full : s.orders.entries.length = 12) {v : OrderEntry}
    (victim : cancelledVictim s.orders.entries = some v) (later : 0 < c.finish.diff v.finish) :
    Relisted s (insertEntry (c.toPlaceholder s.clock.reading) (removeEntry v.key s.orders.entries)) (storePlaceholder c s) := by
  have kept := rearranged_evict v s
  have stored := relisted_evaluated none (s := evict v s) (u := insertPlaceholder c (evict v s)) (kept.part.trans running)
    (rearranged_orders _ _) (counted_list _ _)
  have list : (insertPlaceholder c (evict v s)).orders.entries =
      insertEntry (c.toPlaceholder s.clock.reading) (removeEntry v.key s.orders.entries) := by
    have clock : (evict v s).clock = s.clock := kept.clock
    rw [← evict_entries, ← clock]
    rfl
  have placed : storePlaceholder c s = evaluateOrders none (insertPlaceholder c (evict v s)) := by
    have after : c.finish.later v.finish = true := decide_eq_true later
    simp [storePlaceholder, full, victim, after]
  rw [placed, ← list]
  exact stored.upon kept (counted_evict v s)

theorem storePlaceholder_dropped (full : s.orders.entries.length = 12)
    (none : ∀ e ∈ s.orders.entries, e.state = .cancelled → ¬ 0 < c.finish.diff e.finish) :
    storePlaceholder c s = { s with orders.droppedCancel := countUp 65535 s.orders.droppedCancel } := by
  have room : ¬ s.orders.entries.length < 12 := by omega
  unfold storePlaceholder
  rw [if_neg room]
  cases victim : cancelledVictim s.orders.entries with
  | none => rfl
  | some v =>
    obtain ⟨mem, cancelled⟩ := cancelledVictim_cancelled victim
    have after : c.finish.later v.finish = false := decide_eq_false (none v mem cancelled)
    simp only [after, Bool.false_eq_true, if_false]

end

/-! ### What taking a CANCEL leaves beside the list -/

theorem rearranged_storePlaceholder (c : CancelContent) (s : State) : Rearranged s (storePlaceholder c s) := by
  unfold storePlaceholder
  dsimp only
  split
  · exact (rearranged_orders s _).trans (rearranged_evaluateOrders none (insertPlaceholder c s))
  · split
    · split
      · exact ((rearranged_evict _ s).trans (rearranged_orders _ _)).trans
          (rearranged_evaluateOrders none (insertPlaceholder c (evict _ s)))
      · exact rearranged_orders s _
    · exact rearranged_orders s _

theorem rearranged_cancelInList (c : CancelContent) (s : State) : Rearranged s (cancelInList c s) := by
  unfold cancelInList
  split
  · split
    · exact (rearranged_orders s _).trans (rearranged_evaluateOrders _ _)
    · split
      · exact (rearranged_cancelEntry _ _ _ s).trans (rearranged_evaluateOrders _ _)
      · exact Rearranged.refl s
  · split
    · exact rearranged_storePlaceholder c s
    · exact Rearranged.refl s

/-- The issued entries that a CANCEL leaves (R63). -/
def CancelContent.leaves (c : CancelContent) (station : Nat) (issued : List IssuedEntry) : List IssuedEntry :=
  if c.key.origin = station then
    issued.filter fun i => decide (¬ (i.key.stamp = c.key.stamp ∧ i.revision ≤ c.revision))
  else issued

theorem cancelIssued_eq (c : CancelContent) (s : State) :
    cancelIssued c s = { s with orders.issued := c.leaves s.cfg.station s.orders.issued } := by
  unfold cancelIssued CancelContent.leaves
  split
  · simp only [decide_not, Bool.decide_and]
  · rfl

/-- A CANCEL that passes its checks works on the order list, then on the issued list (R62, R63). -/
theorem arriveCancel_accepted {c : CancelContent} {s : State} (ok : c.acceptable s.clock.reading = true) :
    arriveCancel c s =
      { cancelInList c s with orders.issued := c.leaves s.cfg.station s.orders.issued } := by
  have kept := rearranged_cancelInList c s
  have config : (cancelInList c s).port.config = s.port.config := kept.config
  have issued : (cancelInList c s).orders.issued = s.orders.issued := kept.issued
  unfold arriveCancel
  rw [if_pos ok, cancelIssued_eq, issued, State.cfg, config]
  rfl

/-! ### What taking a CANCEL leaves of the list -/

section
variable {c : CancelContent} {s : State} (sound : s.orders.Sound)
include sound

/-- A placeholder put into the list, with the entry of a key out of it. -/
theorem holds_placeholder {t : State} {k : OrderKey} (free : ∀ e ∈ s.orders.entries, e.key ≠ c.key)
    (live : 0 < c.finish.diff s.clock.reading)
    (h : Relisted s (insertEntry (c.toPlaceholder s.clock.reading) (removeEntry k s.orders.entries)) t) :
    c.toPlaceholder s.clock.reading ∈ t.orders.entries ∧ EntriesStay s t k
      ∧ (k ≠ c.key → ∀ x ∈ t.orders.entries, x.key ≠ k) := by
  have listSound : ListSound (insertEntry (c.toPlaceholder s.clock.reading) (removeEntry k s.orders.entries)) :=
    sound.list.replace (fun x mem _ => free x mem) fun _ => rfl
  refine ⟨h.cancelled_mem listSound (mem_insertEntry.mpr (.inl rfl)) live rfl,
    h.entriesStay listSound fun x mem other => mem_insert_remove mem other, fun other => h.absent listSound fun x mem => ?_⟩
  rcases mem_insertEntry.mp mem with rfl | old
  · exact other.symm
  · exact (mem_removeEntry.mp old).2

variable (running : s.port.part = .running)
include running

/-- A CANCEL of a key that is held (R62). -/
theorem cancelInList_held {e : OrderEntry} (mem : e ∈ s.orders.entries) (key : e.key = c.key)
    (ends : 0 < e.finish.diff s.clock.reading) :
    (e.state ≠ .cancelled → e.revision ≤ c.revision → e.withdrawn c.revision e.finish ∈ (cancelInList c s).orders.entries)
    ∧ (e.state ≠ .cancelled → c.revision < e.revision → (cancelInList c s).orders.entries = s.orders.entries)
    ∧ (e.state = .cancelled → { e with revision := max e.revision c.revision } ∈ (cancelInList c s).orders.entries)
    ∧ EntriesStay s (cancelInList c s) e.key := by
  have held := entry_of_mem sound mem key
  have replaced : ListSound (insertEntry (e.withdrawn c.revision e.finish) (removeEntry e.key s.orders.entries)) :=
    sound.list.replace (fun _ _ other => other) fun _ => rfl
  have raised := sound.list.withRevision c
  have again : raiseRevision c e = { e with revision := max e.revision c.revision } := if_pos key
  refine ⟨fun live fits => ?_, fun live older => ?_, fun cancelled => ?_, ?_⟩
  · exact (relisted_cancelled held running live fits).cancelled_mem replaced (mem_insertEntry.mpr (.inl rfl)) ends rfl
  · rw [cancelInList_older held live older]
  · rw [← again]
    exact (relisted_cancelledAgain held running cancelled).cancelled_mem raised (List.mem_map_of_mem mem)
      (by rw [again]; exact ends) (by rw [again]; exact cancelled)
  · by_cases cancelled : e.state = .cancelled
    · refine (relisted_cancelledAgain held running cancelled).entriesStay raised fun x inList other => ?_
      exact List.mem_map.mpr ⟨x, inList, raiseRevision_other (key ▸ other)⟩
    · by_cases fits : e.revision ≤ c.revision
      · exact (relisted_cancelled held running cancelled fits).entriesStay replaced fun x inList other =>
          mem_insert_remove inList other
      · rw [cancelInList_older held cancelled (by omega)]
        exact fun x inList _ _ => ⟨x, inList, rfl, id⟩

variable (free : ∀ e ∈ s.orders.entries, e.key ≠ c.key) (zone : s.inZone c.zones = true)
  (live : 0 < c.finish.diff s.clock.reading)
include free zone live

/-- The placeholder of a CANCEL in a list with room (R63). -/
theorem cancelInList_room (room : s.orders.entries.length < 12) :
    c.toPlaceholder s.clock.reading ∈ (cancelInList c s).orders.entries ∧ EntriesStay s (cancelInList c s) c.key := by
  have stored := relisted_storePlaceholder c running room
  have same : removeEntry c.key s.orders.entries = s.orders.entries :=
    List.filter_eq_self.mpr fun e mem => decide_eq_true (free e mem)
  rw [← cancelInList_placeholder free zone, ← same] at stored
  obtain ⟨holds, stay, -⟩ := holds_placeholder sound free live stored
  exact ⟨holds, stay⟩

/-- The placeholder of a CANCEL in a full list takes the place of the CANCELLED entry that ends first, where one ends before it
(R63). -/
theorem cancelInList_full (full : s.orders.entries.length = 12)
    (ended : ∃ e ∈ s.orders.entries, e.state = .cancelled ∧ 0 < c.finish.diff e.finish) (placeholder : Plain c.finish)
    (plain : ∀ e ∈ s.orders.entries, Plain e.finish) :
    ∃ v ∈ s.orders.entries, v.state = .cancelled ∧ 0 < c.finish.diff v.finish
      ∧ (∀ x ∈ s.orders.entries, x.state = .cancelled → 0 ≤ x.finish.diff v.finish)
      ∧ c.toPlaceholder s.clock.reading ∈ (cancelInList c s).orders.entries
      ∧ (∀ x ∈ (cancelInList c s).orders.entries, x.key ≠ v.key) ∧ EntriesStay s (cancelInList c s) v.key
      ∧ (cancelInList c s).orders.droppedCancel = s.orders.droppedCancel := by
  obtain ⟨e, mem, cancelled, before⟩ := ended
  obtain ⟨v, victim⟩ := cancelledVictim_some ⟨e, mem, cancelled⟩
  obtain ⟨inList, gone⟩ := cancelledVictim_cancelled victim
  have first := fun x mem cancelled => cancelledVictim_earliest (x := x) plain victim mem cancelled
  have later : 0 < c.finish.diff v.finish := by
    have earliest := first e mem cancelled
    rw [diff_of_plain (plain e mem) (plain v inList)] at earliest
    rw [diff_of_plain placeholder (plain e mem)] at before
    rw [diff_of_plain placeholder (plain v inList)]
    omega
  have stored := relisted_storePlaceholder_evict c running full victim later
  rw [← cancelInList_placeholder free zone] at stored
  obtain ⟨holds, stay, out⟩ := holds_placeholder sound free live stored
  exact ⟨v, inList, gone, later, first, holds, out (free v inList), stay, stored.counted.droppedCancel⟩

end

/-- The checks of R62. -/
theorem cancelAcceptable_iff (c : CancelContent) (now : NetTime) :
    c.acceptable now = true ↔
      1 ≤ c.key.origin ∧ c.key.origin ≤ 250 ∧ c.key.stamp.ms < 604800000 ∧ c.finish.ms < 604800000 ∧ c.zones ≠ 0
        ∧ 0 < c.finish.diff now := by
  simp only [CancelContent.acceptable, NetTime.inWeek, NetTime.later, Bool.and_eq_true, decide_eq_true_eq, and_assoc]
  rfl

/-- What taking a CANCEL leaves of the order list and the issued list (R62, R63). -/
theorem cancelTaken_arriveCancel {c : CancelContent} {s : State} (sound : s.orders.Sound) (running : s.port.part = .running)
    (ok : c.acceptable s.clock.reading = true) : CancelTaken s (arriveCancel c s) c := by
  obtain ⟨-, -, -, inWeek, -, live⟩ := (cancelAcceptable_iff _ _).mp ok
  rw [arriveCancel_accepted ok]
  constructor
  case held => exact fun e mem key ends => cancelInList_held sound running mem key ends
  case elsewhere =>
    intro free zone
    exact congrArg (fun t => t.orders.entries) (cancelInList_elsewhere free (Bool.eq_false_of_not_eq_true zone))
  case placeholder =>
    intro free zone
    refine ⟨fun room => cancelInList_room sound running free zone live room, fun full =>
      ⟨fun none => ?_, fun ended week plain => ?_⟩⟩
    · have dropped := storePlaceholder_dropped c full fun e mem cancelled later => none e ⟨mem, cancelled, later⟩
      rw [cancelInList_placeholder free zone, dropped]
      exact ⟨rfl, rfl⟩
    · obtain ⟨v, mem, cancelled, later, first, rest⟩ :=
        cancelInList_full sound running free zone live full ended ⟨week, inWeek⟩ plain
      exact ⟨v, ⟨mem, cancelled, later⟩, first, rest⟩
  case issued => rfl

end Sys2Proof.Machine
end

section
/-! ORDER and CANCEL frames with a new dedup key (R59 to R63, R191 to R193): what they do to the order list and the issued list,
whatever the relay does to the line. -/

set_option Elab.async false

namespace Sys2Proof.Machine

/-! ### What the statements look at -/

section
variable {s u t v : State}

theorem entriesStay_after (orders : v.orders = t.orders) (k : OrderKey) : EntriesStay s v k = EntriesStay s t k := by
  unfold EntriesStay
  rw [orders]

theorem entriesStay_before (entries : u.orders.entries = s.orders.entries) (clock : u.clock = s.clock) (k : OrderKey) :
    EntriesStay u t k = EntriesStay s t k := by
  unfold EntriesStay
  rw [entries, clock]

theorem holdsOrder_after (orders : v.orders = t.orders) (store : v.store = t.store) (clock : v.clock = t.clock)
    (o : OrderContent) (stored : NetTime) : HoldsOrder v o stored = HoldsOrder t o stored := by
  have evaluated : Evaluated t.orders.entries v = Evaluated t.orders.entries t :=
    propext ⟨fun h => h.congr orders.symm store.symm clock.symm, fun h => h.congr orders store clock⟩
  unfold HoldsOrder
  rw [orders, evaluated]

variable {o : OrderContent} {c : CancelContent}

/-- What taking an ORDER leaves is said of the Order Handler, the store and the clock alone. -/
theorem OrderTaken.after (h : OrderTaken s t o) (orders : v.orders = t.orders := by rfl) (store : v.store = t.store := by rfl)
    (clock : v.clock = t.clock := by rfl) : OrderTaken s v o := by
  have stay := entriesStay_after (s := s) orders
  have holds := holdsOrder_after orders store clock
  obtain ⟨held, elsewhere, stored, full⟩ := h
  constructor <;> simp only [orders, stay, holds] <;> assumption

theorem CancelTaken.after (h : CancelTaken s t c) (orders : v.orders = t.orders := by rfl) : CancelTaken s v c := by
  have stay := entriesStay_after (s := s) orders
  obtain ⟨held, elsewhere, placeholder, issued⟩ := h
  constructor <;> simp only [orders, stay] <;> assumption

/-- The order list, the counts, the clock and the configuration are all that an ORDER is taken by. -/
theorem OrderTaken.before (h : OrderTaken u t o) (entries : u.orders.entries = s.orders.entries) (counted : Counted s u)
    (clock : u.clock = s.clock) (config : u.port.config = s.port.config) : OrderTaken s t o := by
  have cfg : u.cfg = s.cfg := by rw [State.cfg, config]; rfl
  have stay := entriesStay_before (t := t) entries clock
  obtain ⟨held, elsewhere, stored, full⟩ := h
  simp only [entries, clock, cfg, stay, counted.outOfZone, counted.refusedRoom, counted.evicted] at held elsewhere stored full
  exact ⟨held, elsewhere, stored, full⟩

/-- The Order Handler, the clock and the configuration are all that a CANCEL is taken by. -/
theorem CancelTaken.before (h : CancelTaken u t c) (orders : u.orders = s.orders) (clock : u.clock = s.clock)
    (config : u.port.config = s.port.config) : CancelTaken s t c := by
  have cfg : u.cfg = s.cfg := by rw [State.cfg, config]; rfl
  have stay := entriesStay_before (t := t) (congrArg OrderHandler.entries orders) clock
  obtain ⟨held, elsewhere, placeholder, issued⟩ := h
  simp only [orders, clock, cfg, stay] at held elsewhere placeholder issued
  exact ⟨held, elsewhere, placeholder, issued⟩

end

/-! ### The relay -/

theorem lineOnly_placeTail (f : Frame) (s : State) : LineOnly s (placeTail f s) := by
  unfold placeTail
  exact (lineOnly_deferIf _ _).upon

theorem lineOnly_placeRelay (body : FrameBody) (s : State) : LineOnly s (placeRelay body s) := by
  unfold placeRelay
  split
  · exact lineOnly_placeTail _ s
  · exact ⟨rfl, rfl, rfl⟩

theorem lineOnly_relayOrder (o : OrderContent) (s : State) : LineOnly s (relayOrder o s) := by
  unfold relayOrder
  split
  · exact lineOnly_placeRelay _ s
  · exact ⟨rfl, rfl, rfl⟩

theorem lineOnly_relayCancel (c : CancelContent) (s : State) : LineOnly s (relayCancel c s) := by
  unfold relayCancel
  split
  · exact lineOnly_placeRelay _ s
  · exact ⟨rfl, rfl, rfl⟩

section
variable {s t : State} (h : LineOnly s t)
include h

theorem LineOnly.orders : t.orders = s.orders := (congrArg State.orders h.others).trans rfl
theorem LineOnly.store : t.store = s.store := (congrArg State.store h.others).trans rfl
theorem LineOnly.clock : t.clock = s.clock := (congrArg State.clock h.others).trans rfl

end

/-! ### The checks of R59 -/

theorem windowOk_iff {start finish : NetTime} :
    windowOk start finish = true ↔ 0 < finish.diff start ∧ finish.diff start ≤ 604800000 := by
  simp [windowOk]

theorem orderAcceptable_iff (o : OrderContent) (now : NetTime) :
    o.acceptable now = true ↔
      1 ≤ o.key.origin ∧ o.key.origin ≤ 250 ∧ 1 ≤ o.detail.plan ∧ o.detail.plan ≤ 32 ∧ o.detail.priority ≤ 7
        ∧ o.zones ≠ 0 ∧ o.hop ≤ 15 ∧ o.key.stamp.ms < 604800000 ∧ o.detail.start.ms < 604800000 ∧ o.finish.ms < 604800000
        ∧ 0 < o.finish.diff o.detail.start ∧ o.finish.diff o.detail.start ≤ 604800000 ∧ 0 < o.finish.diff now := by
  simp only [OrderContent.acceptable, windowOk_iff, NetTime.inWeek, NetTime.later, Bool.and_eq_true, decide_eq_true_eq, and_assoc]
  rfl

theorem live_of_acceptable {o : OrderContent} {now : NetTime} (ok : o.acceptable now = true) : 0 < o.finish.diff now := by
  obtain ⟨-, -, -, -, -, -, -, -, -, -, -, -, live⟩ := (orderAcceptable_iff _ _).mp ok
  exact live

theorem arriveOrder_accepted {o : OrderContent} {s : State} (ok : o.acceptable s.clock.reading = true) :
    arriveOrder o s = processOrder o s := if_pos ok

theorem arriveOrder_rejected {o : OrderContent} {s : State} (bad : ¬ o.acceptable s.clock.reading = true) :
    arriveOrder o s = { s with orders.rejected := countUp 65535 s.orders.rejected } := if_neg bad

theorem arriveCancel_dropped {c : CancelContent} {s : State} (bad : ¬ c.acceptable s.clock.reading = true) :
    arriveCancel c s = { s with orders.droppedCancel := countUp 65535 s.orders.droppedCancel } := if_neg bad

/-! ### A frame with a new dedup key -/

/-- A frame counted as received and its dedup key entered (R190, R192). -/
def receivedNew (k : DedupKey) (s : State) : State :=
  { countReceived s with line.dedup := enterKey k s.line.dedup }

section
variable {s : State} (running : s.port.part = .running) (receiving : s.line.receiving = true) {body : List Byte}
include running receiving

theorem exec_orderFrameReceived (sender : Byte) (length : body.length = 28) (new : (readOrderBody body).dedupKey ∉ s.line.dedup) :
    exec (.orderFrameReceived sender body) s =
      .next (relayOrder (readOrderBody body)
        (arriveOrder (readOrderBody body) (receivedNew (readOrderBody body).dedupKey s))) := by
  have inFrame : (s.inFrame && decide (body.length ∈ frameLengths 2)) = true := by
    rw [inFrame_of_receiving running receiving, length]
    rfl
  have taken : receiveOrder body s = _ := if_neg new
  exact (if_pos inFrame).trans (by rw [taken]; rfl)

theorem exec_cancelFrameReceived (sender : Byte) (length : body.length = 18)
    (new : (readCancelBody body).dedupKey ∉ s.line.dedup) :
    exec (.cancelFrameReceived sender body) s =
      .next (relayCancel (readCancelBody body)
        (arriveCancel (readCancelBody body) (receivedNew (readCancelBody body).dedupKey s))) := by
  have inFrame : (s.inFrame && decide (body.length ∈ frameLengths 3)) = true := by
    rw [inFrame_of_receiving running receiving, length]
    rfl
  have taken : receiveCancel body s = _ := if_neg new
  exact (if_pos inFrame).trans (by rw [taken]; rfl)

end

end Sys2Proof.Machine

open Sys2Proof Sys2Proof.Machine

/-- Settles O29: the frame's own bookkeeping and the relay touch the line alone, and between them stands `processOrder`, the
checks of R59 passed. -/
theorem arrivingOrdersAreStoredRevisedOrRefused : Obligations.ArrivingOrdersAreStoredRevisedOrRefused := by
  intro sender body s running receiving inv length new o ok
  have relay := lineOnly_relayOrder o (arriveOrder o (receivedNew o.dedupKey s))
  refine ⟨_, exec_orderFrameReceived running receiving sender length new, fun bad => ?_, fun good => ?_⟩
  · have rejected := arriveOrder_rejected (s := receivedNew o.dedupKey s) fun h => bad ((orderAcceptable_iff _ _).mp h)
    rw [relay.orders, rejected]
    exact ⟨rfl, rfl⟩
  · have accepted := (orderAcceptable_iff _ _).mpr good
    have taken := orderTaken_processOrder (s := receivedNew o.dedupKey s) inv.orders (live_of_acceptable accepted) running
    rw [← arriveOrder_accepted (s := receivedNew o.dedupKey s) accepted] at taken
    exact (taken.after relay.orders relay.store relay.clock).before rfl ⟨rfl, rfl, rfl, rfl, rfl⟩ rfl rfl

/-- Settles O30: as with an ORDER, between the frame's bookkeeping and the relay stands `arriveCancel`. -/
theorem arrivingCancelsWithdrawOrders : Obligations.ArrivingCancelsWithdrawOrders := by
  intro sender body s running receiving inv length new c ok
  have relay := lineOnly_relayCancel c (arriveCancel c (receivedNew c.dedupKey s))
  refine ⟨_, exec_cancelFrameReceived running receiving sender length new, fun bad => ?_, fun good => ?_⟩
  · have dropped := arriveCancel_dropped (s := receivedNew c.dedupKey s) fun h => bad ((cancelAcceptable_iff _ _).mp h)
    rw [relay.orders, dropped]
    exact ⟨rfl, rfl, rfl⟩
  · have taken := cancelTaken_arriveCancel (c := c) (s := receivedNew c.dedupKey s) inv.orders running
      ((cancelAcceptable_iff _ _).mpr good)
    exact (taken.after relay.orders).before rfl rfl rfl

end

section
/-! The issued list (R69, R70): its entries told apart by their stamps, their frames in the send queue. -/

set_option Elab.async false

namespace Sys2Proof.Machine

/-! ### Placing a frame of this station -/

theorem mem_enterKey (k : DedupKey) (cache : List DedupKey) : k ∈ enterKey k cache := by
  unfold enterKey
  split
  · assumption
  · split <;> exact List.mem_append_right _ (List.mem_singleton_self k)

section
variable {s u t : State} {f : Frame}

/-- Of the line before, a placing is told by the queue, the transmitter and the frame in hand. -/
theorem PlacedAtTail.before (h : PlacedAtTail u.line t.line f) (queue : u.line.queue = s.line.queue := by rfl)
    (tx : u.line.tx = s.line.tx := by rfl) (inHand : u.line.inHand = s.line.inHand := by rfl)
    (wait : u.line.wait = s.line.wait := by rfl) (deferred : u.line.deferred = s.line.deferred := by rfl) :
    PlacedAtTail s.line t.line f := by
  obtain ⟨tail, idle, other⟩ := h
  simp only [GoesOn, queue, tx, inHand, wait, deferred] at tail idle other
  exact ⟨tail, idle, other⟩

end

section
variable (o : OrderContent) (s : State)

theorem placeOwnOrder_others :
    placeOwnOrder o s = { s with line := (placeOwnOrder o s).line, draws := (placeOwnOrder o s).draws } :=
  (lineOnly_placeTail { body := .order o, attempts := 0, relay := false }
    { s with line.dedup := enterKey o.dedupKey s.line.dedup }).others

theorem placeOwnOrder_placed :
    PlacedAtTail s.line (placeOwnOrder o s).line { body := .order o, attempts := 0, relay := false } :=
  (placeTail_placed _ _).before

theorem placeOwnOrder_entered : o.dedupKey ∈ (placeOwnOrder o s).line.dedup := by
  have kept := (lineOnly_placeTail { body := .order o, attempts := 0, relay := false }
    { s with line.dedup := enterKey o.dedupKey s.line.dedup }).dedup
  unfold placeOwnOrder
  rw [kept]
  exact mem_enterKey _ _

end

section
variable (c : CancelContent) (s : State)

theorem placeOwnCancel_others :
    placeOwnCancel c s = { s with line := (placeOwnCancel c s).line, draws := (placeOwnCancel c s).draws } :=
  (lineOnly_placeTail { body := .cancel c, attempts := 0, relay := false }
    { s with line.dedup := enterKey c.dedupKey s.line.dedup }).others

theorem placeOwnCancel_placed :
    PlacedAtTail s.line (placeOwnCancel c s).line { body := .cancel c, attempts := 0, relay := false } :=
  (placeTail_placed _ _).before

end

/-! ### The issued list -/

section
variable {o : OrderHandler} (sound : o.Sound) {i : IssuedEntry} (mem : i ∈ o.issued)
include sound mem

theorem issued_eq_iff {x : IssuedEntry} (inList : x ∈ o.issued) : x.key.stamp = i.key.stamp ↔ x = i :=
  ⟨fun same => List.inj_on_of_nodup_map sound.stamps inList mem same, fun same => congrArg (fun e => e.key.stamp) same⟩

theorem issuedEntry_of_mem : o.issuedEntry i.key.stamp = some i := by
  unfold OrderHandler.issuedEntry
  cases found : o.issued.find? fun x => decide (x.key.stamp = i.key.stamp) with
  | none => exact absurd (decide_eq_true rfl) (List.find?_eq_none.mp found i mem)
  | some x =>
    have stamp : x.key.stamp = i.key.stamp := by simpa using List.find?_some found
    rw [(issued_eq_iff sound mem (List.mem_of_find?_eq_some found)).mp stamp]

theorem mapIssued_of_mem (f : IssuedEntry → IssuedEntry) :
    mapIssued i.key.stamp f o.issued = o.issued.map fun x => if x = i then f i else x := by
  unfold mapIssued
  refine List.map_congr_left fun x inList => ?_
  simp only [issued_eq_iff sound mem inList]
  split
  · next same => rw [same]
  · rfl

end

/-! ### The instants of an issued order -/

section
variable {s : State} (running : s.port.part = .running) (sound : s.orders.Sound) {i : IssuedEntry} (mem : i ∈ s.orders.issued)
include running sound mem

theorem exec_repeatInstant (due : i.nextRepeat.diff s.clock.reading ≤ 0) :
    exec (.repeatInstant i.key.stamp) s = .next (repeatIssued i s) := by
  have run : s.running = true := decide_eq_true running
  have now : s.repeatDue i.key.stamp = true := by
    simp only [State.repeatDue, run, Bool.true_and, List.any_eq_true, Bool.and_eq_true, NetTime.atOrBefore, decide_eq_true_eq]
    exact ⟨i, mem, rfl, due⟩
  have taken : takeRepeat i.key.stamp s = repeatIssued i s := by
    simp only [takeRepeat, issuedEntry_of_mem sound mem]
  rw [← taken]
  exact DueNow.exec_eq ⟨by simp, by simp, _, .inl rfl, now⟩

theorem exec_issuedEndInstant (ended : i.finish.diff s.clock.reading ≤ 0) :
    exec (.issuedEndInstant i.key.stamp) s =
      .next { s with orders.issued := s.orders.issued.filter fun x => decide (x ≠ i) } := by
  have run : s.running = true := decide_eq_true running
  have now : s.issuedEndDue i.key.stamp = true := by
    simp only [State.issuedEndDue, run, Bool.true_and, List.any_eq_true, Bool.and_eq_true, NetTime.atOrBefore, decide_eq_true_eq]
    exact ⟨i, mem, rfl, ended⟩
  have left : (s.orders.issued.filter fun x => decide (x ≠ i)) =
      s.orders.issued.filter fun x => !(decide (x.key.stamp = i.key.stamp) && x.finish.atOrBefore s.clock.reading) := by
    refine List.filter_congr fun x inList => ?_
    by_cases same : x = i
    · subst same
      simp [NetTime.atOrBefore, ended]
    · simp [issued_eq_iff sound mem inList, same]
  rw [left]
  exact DueNow.exec_eq ⟨by simp, by simp, _, .inl rfl, now⟩

end

/-- An issued entry with the next announce count and the next repeat in a minute (R69). -/
def countedAnew (i : IssuedEntry) (s : State) : State :=
  { s with
    orders.issued := s.orders.issued.map fun x =>
      if x = i then { i with announce := (i.announce + 1) % 256, nextRepeat := s.clock.reading.plus 60000 } else x }

section
variable {s : State} (sound : s.orders.Sound) {i : IssuedEntry} (mem : i ∈ s.orders.issued)
include sound mem

/-- A repeat that finds the queue full waits another minute (R69). -/
theorem repeatIssued_full (full : 8 ≤ s.line.queue.length) :
    repeatIssued i s =
      { s with
        orders.issued := s.orders.issued.map fun x =>
          if x = i then { i with nextRepeat := s.clock.reading.plus 60000 } else x } := by
  have room : s.line.hasRoom = false := decide_eq_false (Nat.not_lt.mpr full)
  unfold repeatIssued
  simp only [room, Bool.false_eq_true, if_false, mapIssued_of_mem sound mem]

/-- A repeat that finds room in the queue (R69). -/
theorem repeatIssued_room (room : s.line.queue.length < 8) :
    repeatIssued i s =
      placeOwnOrder (i.content ((i.announce + 1) % 256)) (countedAnew i s) := by
  have free : s.line.hasRoom = true := decide_eq_true room
  unfold repeatIssued
  simp only [free, if_true, mapIssued_of_mem sound mem, countedAnew]

end

end Sys2Proof.Machine

open Sys2Proof Sys2Proof.Machine

/-- Settles O32: an issued entry is the only one of its stamp, so that what is done to the stamp is done to the entry. -/
theorem issuedOrdersRepeatAndEnd : Obligations.IssuedOrdersRepeatAndEnd := by
  rintro stamp i s running inv mem rfl
  refine ⟨fun due => ⟨fun full => ?_, fun room => ?_⟩, exec_issuedEndInstant running inv.orders mem⟩
  · rw [exec_repeatInstant running inv.orders mem due, repeatIssued_full inv.orders mem full]
  · rw [exec_repeatInstant running inv.orders mem due, repeatIssued_room inv.orders mem room]
    have others := placeOwnOrder_others (i.content ((i.announce + 1) % 256)) (countedAnew i s)
    exact ⟨_, rfl, (congrArg State.orders others).trans rfl, placeOwnOrder_placed _ (countedAnew i s), placeOwnOrder_entered _ _,
      others.trans (by rw [others]; rfl)⟩

end

section
/-! ISSUE_ORDER, its checks (R67). -/

set_option Elab.async false

namespace Sys2Proof.Machine

/-- The ranges of R67's first check; the presence byte is a flag (log 24). -/
theorem issueInRange_iff {r : IssueRequest} :
    r.inRange = true ↔
      1 ≤ r.plan ∧ r.plan ≤ 32 ∧ r.priority ≤ 7 ∧ r.zones ≠ 0 ∧ r.hop ≤ 15 ∧ r.start.ms < 604800000
        ∧ r.finish.ms < 604800000 ∧ 0 < r.finish.diff r.start ∧ r.finish.diff r.start ≤ 604800000 ∧ r.presence ≤ 1 := by
  simp only [IssueRequest.inRange, planNumber_iff, within_iff, windowOk_iff, NetTime.inWeek, Bool.and_eq_true, decide_eq_true_eq,
    Nat.zero_le, true_and, and_assoc]
  rfl

theorem issuedEntry_eq_none {o : OrderHandler} {stamp : NetTime} :
    o.issuedEntry stamp = none ↔ ∀ i ∈ o.issued, i.key.stamp ≠ stamp := by
  simp [OrderHandler.issuedEntry]

/-! ### The checks one by one -/

section
variable {r : IssueRequest} {s : State}

theorem issueRoom_empty (empty : (s.slot r.plan).state = .empty) : issueRoom r s = some (invalid .planEmpty r.plan) :=
  if_pos (decide_eq_true empty)

section
variable (filled : (s.slot r.plan).state ≠ .empty)
include filled

theorem issueRoom_filled :
    issueRoom r s =
      if r.presence = 0 ∧ 4 ≤ s.orders.issued.length then some (plain .full)
      else if s.line.hasRoom then none else some (plain .busy) :=
  if_neg (by simpa [State.slotEmpty] using filled)

theorem issueRoom_full (new : r.presence = 0) (full : 4 ≤ s.orders.issued.length) : issueRoom r s = some (plain .full) := by
  rw [issueRoom_filled filled, if_pos ⟨new, full⟩]

theorem issueRoom_busy (free : r.presence = 1 ∨ s.orders.issued.length < 4) (busy : 8 ≤ s.line.queue.length) :
    issueRoom r s = some (plain .busy) := by
  have room : s.line.hasRoom = false := decide_eq_false (Nat.not_lt.mpr busy)
  rw [issueRoom_filled filled, if_neg (by omega), room]
  rfl

end

theorem not_past (ahead : 0 < r.finish.diff s.clock.reading) : r.finish.atOrBefore s.clock.reading = false :=
  decide_eq_false (by omega)

theorem issueRefusal_range (bad : ¬ r.inRange = true) : issueRefusal r s = some (plain .range) :=
  if_pos (by simpa using bad)

section
variable (ranges : r.inRange = true)
include ranges

theorem issueRefusal_pastEnd (past : ¬ 0 < r.finish.diff s.clock.reading) :
    issueRefusal r s = some (invalid .pastEnd 0) := by
  have ended : r.finish.atOrBefore s.clock.reading = true := decide_eq_true (by omega)
  simp only [issueRefusal, ranges, ended, Bool.not_true, Bool.false_eq_true, if_false, if_true]

variable (ahead : 0 < r.finish.diff s.clock.reading)
include ahead

theorem issueRefusal_notFound (revision : r.presence = 1) (none : s.orders.issuedEntry r.revises = none) :
    issueRefusal r s = some (plain .notFound) := by
  simp only [issueRefusal, ranges, not_past ahead, Bool.not_true, Bool.false_eq_true, if_false, if_pos revision, none]

theorem issueRefusal_lastRevision {i : IssuedEntry} (revision : r.presence = 1)
    (revises : s.orders.issuedEntry r.revises = some i) (last : i.revision = 255) : issueRefusal r s = some (plain .range) := by
  simp only [issueRefusal, ranges, not_past ahead, Bool.not_true, Bool.false_eq_true, if_false, if_pos revision, revises,
    if_pos last]

theorem issueRefusal_new (new : r.presence ≠ 1) : issueRefusal r s = issueRoom r s := by
  simp only [issueRefusal, ranges, not_past ahead, Bool.not_true, Bool.false_eq_true, if_false, if_neg new]

theorem issueRefusal_revision {i : IssuedEntry} (revision : r.presence = 1)
    (revises : s.orders.issuedEntry r.revises = some i) (more : i.revision ≠ 255) : issueRefusal r s = issueRoom r s := by
  simp only [issueRefusal, ranges, not_past ahead, Bool.not_true, Bool.false_eq_true, if_false, if_pos revision, revises,
    if_neg more]

theorem issueRefusal_known
    (known : r.presence = 0 ∨ ∃ i, s.orders.issuedEntry r.revises = some i ∧ i.revision ≠ 255) :
    issueRefusal r s = issueRoom r s := by
  by_cases revision : r.presence = 1
  · obtain new | ⟨i, revises, more⟩ := known
    · omega
    · exact issueRefusal_revision ranges ahead revision revises more
  · exact issueRefusal_new ranges ahead revision

end

end

/-! ### The exchange -/

/-- The refusal of an ISSUE_ORDER is found without a look at the held response. -/
theorem issueRefusal_discardHeld (r : IssueRequest) (s : State) : issueRefusal r (discardHeld s) = issueRefusal r s := by
  have room : issueRoom r (discardHeld s) = issueRoom r s := by
    simp only [issueRoom, discardHeld_slotEmpty, discardHeld_orders, discardHeld_line]
  simp only [issueRefusal, room, discardHeld_clock, discardHeld_orders]

section
variable (seq : Byte) {body : List Byte} {s : State} (running : s.port.part = .running)
include running

theorem admits_runningOnly : Admission.admits .runningOnly s.port.part = true := by
  rw [running]
  rfl

theorem exec_issueOrder (length : body.length = 24) :
    exec (.issueOrder seq body) s =
      .next (hold 0x20 seq (issueWork body (discardHeld s)).2 (issueWork body (discardHeld s)).1) := by
  have fits : lengthIs 24 body = true := decide_eq_true length
  change Host.Outcome.next (serve 0x20 seq (lengthIs 24 body) .runningOnly (issueWork body) s) = _
  rw [fits, serve_done _ _ _ _ _ (admits_runningOnly running)]

theorem exec_issueOrder_refused (length : body.length = 24) {a : Answer} (refused : issueRefusal (readIssue body) s = some a) :
    exec (.issueOrder seq body) s = .next (s.answered 0x20 seq a.code a.body) := by
  have work : issueWork body (discardHeld s) = (discardHeld s, a) := by
    simp only [issueWork, issueRefusal_discardHeld, refused]
  rw [exec_issueOrder seq running length, work]
  exact congrArg _ (hold_discardHeld _ _ a s)

end

end Sys2Proof.Machine

open Sys2Proof Sys2Proof.Machine

/-- Settles O25: whichever check of `issueRefusal` fails first, its answer is given and nothing else is done. -/
theorem issueOrderIsCheckedInOrder : Obligations.IssueOrderIsCheckedInOrder := by
  intro seq body s running length r ranges ahead refused revises known filled free
  have answers : ∀ {a : Answer}, issueRefusal r s = some a → refused a.code a.body :=
    fun a => exec_issueOrder_refused seq running length a
  refine ⟨fun bad => ?_, fun good past => ?_, fun good runs revision none => ?_, fun good runs revision last => ?_,
    fun good runs isKnown empty => ?_, fun good runs isKnown isFilled full => ?_, fun good runs isKnown isFilled isFree busy => ?_⟩
  · exact answers (issueRefusal_range fun h => bad (issueInRange_iff.mp h))
  · exact answers (issueRefusal_pastEnd (issueInRange_iff.mpr good) past)
  · exact answers (issueRefusal_notFound (issueInRange_iff.mpr good) runs revision (issuedEntry_eq_none.mpr none))
  · obtain ⟨i, entry, highest⟩ := last
    exact answers (issueRefusal_lastRevision (issueInRange_iff.mpr good) runs revision entry highest)
  all_goals have room := issueRefusal_known (issueInRange_iff.mpr good) runs isKnown
  · exact answers (room.trans (issueRoom_empty (not_not.mp empty)))
  · obtain ⟨-, -, -, -, -, -, -, -, -, flag⟩ := good
    exact answers (room.trans (issueRoom_full isFilled (by omega) (by omega)))
  · exact answers (room.trans (issueRoom_busy isFilled isFree busy))

end

section
/-! CANCEL_ORDER (R71). -/

set_option Elab.async false

namespace Sys2Proof.Machine

/-! ### The CANCEL it forms -/

theorem issuedOf_of_mem {o : OrderHandler} (sound : o.Sound) {i : IssuedEntry} (mem : i ∈ o.issued) :
    o.issuedOf i.key = some i := by
  unfold OrderHandler.issuedOf
  cases found : o.issued.find? fun x => decide (x.key = i.key) with
  | none => exact absurd (decide_eq_true rfl) (List.find?_eq_none.mp found i mem)
  | some x =>
    have key : x.key = i.key := by simpa using List.find?_some found
    rw [(issued_eq_iff sound mem (List.mem_of_find?_eq_some found)).mp (congrArg OrderKey.stamp key)]

/-- The CANCEL of an order-list entry (R71). -/
def OrderEntry.toCancel (e : OrderEntry) : CancelContent :=
  { key := e.key, revision := e.revision, finish := e.finish, zones := e.zones, hop := 15, announce := 0 }

/-- The CANCEL of an issued entry (R71). -/
def IssuedEntry.toCancel (i : IssuedEntry) : CancelContent :=
  { key := i.key, revision := i.revision, finish := i.finish, zones := i.zones, hop := 15, announce := 0 }

section
variable {k : OrderKey} {o : OrderHandler}

theorem formCancel_held (sound : o.Sound) {e : OrderEntry} (mem : e ∈ o.entries) (key : e.key = k) :
    formCancel k o = some e.toCancel := by
  simp only [formCancel, entry_of_mem sound mem key, OrderEntry.toCancel, key]

theorem formCancel_issued (sound : o.Sound) (free : ∀ e ∈ o.entries, e.key ≠ k) {i : IssuedEntry} (mem : i ∈ o.issued)
    (key : i.key = k) : formCancel k o = some i.toCancel := by
  subst key
  simp only [formCancel, entry_of_free free, issuedOf_of_mem sound mem, Option.map_some, IssuedEntry.toCancel]

theorem formCancel_none (free : ∀ e ∈ o.entries, e.key ≠ k) (none : ∀ i ∈ o.issued, i.key ≠ k) : formCancel k o = .none := by
  have absent : o.issuedOf k = .none := by simpa [OrderHandler.issuedOf] using none
  simp only [formCancel, entry_of_free free, absent, Option.map_none]

end

/-! ### Its checks -/

theorem keyInRange_iff {k : OrderKey} :
    (within 1 250 k.origin && k.stamp.inWeek) = true ↔ 1 ≤ k.origin ∧ k.origin ≤ 250 ∧ k.stamp.ms < 604800000 := by
  simp only [within_iff, NetTime.inWeek, Bool.and_eq_true, decide_eq_true_eq, and_assoc]
  rfl

section
variable {body : List Byte} {s : State}

theorem cancelWork_range
    (bad : ¬ (1 ≤ (readKey body).origin ∧ (readKey body).origin ≤ 250 ∧ (readKey body).stamp.ms < 604800000)) :
    cancelWork body s = (s, plain .range) :=
  if_pos (by rw [Bool.eq_false_of_not_eq_true fun h => bad (keyInRange_iff.mp h)]; rfl)

variable (ok : 1 ≤ (readKey body).origin ∧ (readKey body).origin ≤ 250 ∧ (readKey body).stamp.ms < 604800000)
include ok

theorem cancelWork_notFound (none : formCancel (readKey body) s.orders = none) :
    cancelWork body s = (s, plain .notFound) := by
  simp only [cancelWork, keyInRange_iff.mpr ok, Bool.not_true, Bool.false_eq_true, if_false, none]

variable {c : CancelContent} (formed : formCancel (readKey body) s.orders = some c)
include formed

theorem cancelWork_busy (busy : 8 ≤ s.line.queue.length) : cancelWork body s = (s, plain .busy) := by
  have room : s.line.hasRoom = false := decide_eq_false (Nat.not_lt.mpr busy)
  simp only [cancelWork, keyInRange_iff.mpr ok, Bool.not_true, Bool.false_eq_true, if_false, formed, room]

theorem cancelWork_accepted (room : s.line.queue.length < 8) :
    cancelWork body s = (arriveCancel c (placeOwnCancel c s), done (be 1 c.revision)) := by
  have free : s.line.hasRoom = true := decide_eq_true room
  simp only [cancelWork, keyInRange_iff.mpr ok, Bool.not_true, Bool.false_eq_true, if_false, formed, free, if_true]

end

/-! ### The exchange -/

section
variable (seq : Byte) {body : List Byte} {s : State} (running : s.port.part = .running) (length : body.length = 7)
include running length

theorem exec_cancelOrder {r : State × Answer} (work : cancelWork body (discardHeld s) = r) :
    exec (.cancelOrder seq body) s = .next (hold 0x21 seq r.2 r.1) := by
  have fits : lengthIs 7 body = true := decide_eq_true length
  change Host.Outcome.next (serve 0x21 seq (lengthIs 7 body) .runningOnly (cancelWork body) s) = _
  rw [fits, serve_done _ _ _ _ _ (admits_runningOnly running), work]

theorem exec_cancelOrder_refused {a : Answer} (work : cancelWork body (discardHeld s) = (discardHeld s, a)) :
    exec (.cancelOrder seq body) s = .next (s.answered 0x21 seq a.code a.body) := by
  rw [exec_cancelOrder seq running length work]
  exact congrArg _ (hold_discardHeld _ _ a s)

end

/-! ### What it leaves -/

/-- A CANCEL changes, of what a delivery leaves, the order list and the issued list alone. -/
theorem kept_arriveCancel (c : CancelContent) (s : State) :
    Kept { s with orders.entries := (arriveCancel c s).orders.entries, orders.issued := (arriveCancel c s).orders.issued }
      (arriveCancel c s) := by
  by_cases ok : c.acceptable s.clock.reading = true
  · have h := rearranged_cancelInList c s
    rw [arriveCancel_accepted ok]
    exact ⟨h.clock, h.entries, h.specials, h.editCount, rfl, rfl, h.line, h.part, h.config, h.held, h.refusedPackets, h.plans,
      h.pinned, h.latches, h.inputs, h.pins, h.draws, h.pending⟩
  · rw [arriveCancel_dropped ok]
    exact rearranged_orders s _

/-- The state an accepted CANCEL_ORDER leaves (R71). -/
def cancelSent (seq : Byte) (c : CancelContent) (s : State) : State :=
  hold 0x21 seq (done (be 1 c.revision)) (arriveCancel c (placeOwnCancel c (discardHeld s)))

section
variable (seq : Byte) (c : CancelContent) (s : State)

theorem cancelSent_placed :
    PlacedAtTail s.line (cancelSent seq c s).line { body := .cancel c, attempts := 0, relay := false } := by
  have line : (cancelSent seq c s).line = (placeOwnCancel c (discardHeld s)).line :=
    (kept_arriveCancel c (placeOwnCancel c (discardHeld s))).line
  have placed := placeOwnCancel_placed c (discardHeld s)
  rwa [discardHeld_line, ← line] at placed

theorem cancelSent_clock : (cancelSent seq c s).clock = s.clock := by
  have arrived : (cancelSent seq c s).clock = (placeOwnCancel c (discardHeld s)).clock :=
    (kept_arriveCancel c (placeOwnCancel c (discardHeld s))).clock
  rw [arrived, placeOwnCancel_others, discardHeld_clock]

theorem cancelSent_plans (n : Nat) : (cancelSent seq c s).storedPlan n = s.storedPlan n := by
  have arrived : (cancelSent seq c s).storedPlan n = (placeOwnCancel c (discardHeld s)).storedPlan n :=
    (kept_arriveCancel c (placeOwnCancel c (discardHeld s))).plans n
  rw [arrived, placeOwnCancel_others]
  exact congrFun (discardHeld_storedPlan s) n

end

/-- The CANCEL is taken here as if it had arrived (R71). -/
theorem cancelTaken_cancelSent (seq : Byte) {c : CancelContent} {s : State} (sound : s.orders.Sound)
    (running : s.port.part = .running) (ok : c.acceptable s.clock.reading = true) : CancelTaken s (cancelSent seq c s) c := by
  have others := placeOwnCancel_others c (discardHeld s)
  have orders : (placeOwnCancel c (discardHeld s)).orders = s.orders := by rw [others]; exact discardHeld_orders s
  have clock : (placeOwnCancel c (discardHeld s)).clock = s.clock := by rw [others]; exact discardHeld_clock s
  have part : (placeOwnCancel c (discardHeld s)).port.part = s.port.part := by rw [others]; exact discardHeld_port_part s
  have config : (placeOwnCancel c (discardHeld s)).port.config = s.port.config := by rw [others]; exact discardHeld_port_config s
  have taken := cancelTaken_arriveCancel (c := c) (s := placeOwnCancel c (discardHeld s)) (orders.symm ▸ sound)
    (part.trans running) (clock.symm ▸ ok)
  exact taken.after.before orders clock config

/-- An entry that is live is CANCELLED by the CANCEL of its own revision. -/
theorem CancelTaken.withdraws {s t : State} {c : CancelContent} {e : OrderEntry} (h : CancelTaken s t c)
    (same : c = e.toCancel) (mem : e ∈ s.orders.entries) (live : 0 < e.finish.diff s.clock.reading) :
    { e with state := .cancelled } ∈ t.orders.entries := by
  subst same
  obtain ⟨withdrawn, -, again, -⟩ := h.held e mem rfl live
  by_cases cancelled : e.state = .cancelled
  · have same : { e with state := .cancelled } = { e with revision := max e.revision e.revision } := by
      rw [Nat.max_self, ← cancelled]
    rw [same]
    exact again cancelled
  · exact withdrawn cancelled (Nat.le_refl _)

/-- The CANCEL of an issued entry of this station takes it off the list, and no other (R63). -/
theorem CancelTaken.ends {s t : State} {c : CancelContent} {i : IssuedEntry} (h : CancelTaken s t c)
    (same : c = i.toCancel) (sound : s.orders.Sound) (mem : i ∈ s.orders.issued) (own : i.key.origin = s.cfg.station) :
    t.orders.issued = s.orders.issued.filter fun x => decide (x.key.stamp ≠ i.key.stamp) := by
  subst same
  have left := h.issued
  rw [if_pos (show i.toCancel.key.origin = s.cfg.station from own)] at left
  rw [left]
  refine List.filter_congr fun x inList => decide_eq_decide.mpr (not_congr ⟨And.left, fun stamp => ⟨stamp, ?_⟩⟩)
  rw [(issued_eq_iff sound mem inList).mp stamp]
  exact Nat.le_refl _

end Sys2Proof.Machine

open Sys2Proof Sys2Proof.Machine

/-- Settles O27: the CANCEL formed goes into the queue and is then taken as an arriving one, where the checks of R62 pass. -/
theorem cancelOrderFollowsItsCases : Obligations.CancelOrderFollowsItsCases := by
  intro seq body s running length inv k ok held issued sent
  have sound := inv.orders
  have sends : ∀ {c}, ok → formCancel k s.orders = some c → s.line.queue.length < 8 → sent c (cancelSent seq c s) :=
    fun {c} good formed room =>
      ⟨exec_cancelOrder seq running length (cancelWork_accepted good (by rwa [discardHeld_orders]) (by rwa [discardHeld_line])),
        cancelSent_placed seq c s, rfl, cancelSent_clock seq c s, cancelSent_plans seq c s⟩
  refine ⟨fun bad => ?_, fun good noEntry noIssued => ?_, fun good known busy => ?_, fun good room e holds => ?_,
    fun good room noEntry i holds => ?_⟩
  · exact exec_cancelOrder_refused seq running length (cancelWork_range bad)
  · have none := formCancel_none (fun e mem key => noEntry e ⟨mem, key⟩) fun i mem key => noIssued i ⟨mem, key⟩
    exact exec_cancelOrder_refused seq running length (cancelWork_notFound good (by rwa [discardHeld_orders]))
  · have formed : ∃ c, formCancel k s.orders = some c := by
      by_cases entry : ∃ e, held e
      · obtain ⟨e, mem, key⟩ := entry
        exact ⟨_, formCancel_held sound mem key⟩
      · obtain ⟨i, mem, key⟩ := known.resolve_left entry
        exact ⟨_, formCancel_issued sound (fun e mem key => entry ⟨e, mem, key⟩) mem key⟩
    obtain ⟨c, formed⟩ := formed
    exact exec_cancelOrder_refused seq running length
      (cancelWork_busy good (by rwa [discardHeld_orders]) (by rwa [discardHeld_line]))
  · obtain ⟨mem, key⟩ := holds
    intro c
    have same : c = e.toCancel := by simp only [c, OrderEntry.toCancel, key]
    have ⟨low, high, week⟩ := good
    have acceptable := fun zones inWeek live =>
      (cancelAcceptable_iff c s.clock.reading).mpr ⟨low, high, week, inWeek, zones, live⟩
    refine ⟨_, sends good (same ▸ formCancel_held sound mem key) room, fun zones inWeek live => ?_⟩
    have taken := cancelTaken_cancelSent seq sound running (acceptable zones inWeek live)
    exact ⟨taken.withdraws same mem live, taken⟩
  · obtain ⟨mem, key⟩ := holds
    intro c
    have same : c = i.toCancel := by simp only [c, IssuedEntry.toCancel, key]
    have ⟨low, high, week⟩ := good
    have acceptable := fun zones inWeek live =>
      (cancelAcceptable_iff c s.clock.reading).mpr ⟨low, high, week, inWeek, zones, live⟩
    have formed := formCancel_issued sound (fun e inList isKey => noEntry e ⟨inList, isKey⟩) mem key
    refine ⟨_, sends good (same ▸ formed) room, fun zones inWeek live => ?_⟩
    have taken := cancelTaken_cancelSent seq sound running (acceptable zones inWeek live)
    refine ⟨taken, fun own => ?_⟩
    rw [← key] at own ⊢
    exact taken.ends same sound mem own

end

section
/-! An accepted ISSUE_ORDER (R68). -/

set_option Elab.async false

namespace Sys2Proof.Machine

/-! ### What its acceptance says -/

section
variable {r : IssueRequest} {s : State} (accepted : issueRefusal r s = none)
include accepted

theorem issue_inRange : r.inRange = true := by
  by_contra bad
  rw [issueRefusal_range bad] at accepted
  cases accepted

theorem issue_ahead : 0 < r.finish.diff s.clock.reading := by
  by_contra past
  rw [issueRefusal_pastEnd (issue_inRange accepted) past] at accepted
  cases accepted

theorem issue_revises (revision : r.presence = 1) : ∃ i, s.orders.issuedEntry r.revises = some i := by
  cases found : s.orders.issuedEntry r.revises with
  | none =>
    rw [issueRefusal_notFound (issue_inRange accepted) (issue_ahead accepted) revision found] at accepted
    cases accepted
  | some i => exact ⟨i, rfl⟩

end

/-! ### The stamp of a new order -/

theorem iterate_plus {t : NetTime} (week : t.week < 65536) (ms : t.ms < weekMs) (k : Nat) :
    (fun x : NetTime => x.plus 1)^[k] t = t.plus k := by
  induction k with
  | zero => exact (plus_zero week ms).symm
  | succ k ih =>
    rw [Function.iterate_succ_apply', ih, plus_plus]
    rfl

/-- A stamp is taken by an issued entry, or by an entry of the order list whose origin is this station (R68). -/
theorem stampTaken_iff (s : State) (stamp : NetTime) :
    s.stampTaken stamp = true ↔
      (∃ i ∈ s.orders.issued, i.key.stamp = stamp)
        ∨ ∃ e ∈ s.orders.entries, e.key.origin = s.cfg.station ∧ e.key.stamp = stamp := by
  simp [State.stampTaken]

/-- The stamp of a new order is the first free one from the reading on (R68). -/
theorem freeStamp_least {s : State} (clock : s.clock.Sound) :
    ∃ k : Nat, freeStamp s 17 s.clock.reading = s.clock.reading.plus k
      ∧ ∀ j : Nat, j < k → s.stampTaken (s.clock.reading.plus j) = true := by
  obtain ⟨k, -, stamp, before, -⟩ := freeStamp_first s 17 s.clock.reading
  simp only [iterate_plus clock.week clock.ms] at stamp before
  exact ⟨k, stamp, before⟩

/-! ### The entry it makes -/

section
variable {r : IssueRequest} {s : State}

theorem revised_new (new : r.presence = 0) : s.revised r = none := if_neg (by omega)

theorem revised_revision (revision : r.presence = 1) : s.revised r = s.orders.issuedEntry r.revises := if_pos revision

theorem formIssued_new (new : r.presence = 0) :
    (formIssued r s).key.stamp = freeStamp s 17 s.clock.reading ∧ (formIssued r s).revision = 0 := by
  simp only [formIssued, revised_new new, and_self]

theorem formIssued_revision {i : IssuedEntry} (revises : s.revised r = some i) :
    (formIssued r s).key.stamp = i.key.stamp ∧ (formIssued r s).revision = i.revision + 1 := by
  simp only [formIssued, revises, and_self]

/-- The key of a new order is not held: its stamp is free. -/
theorem formIssued_notHeld (new : r.presence = 0) (sound : s.orders.Sound) (clock : s.clock.Sound) :
    ∀ e ∈ s.orders.entries, e.key ≠ (formIssued r s).key := by
  intro e mem key
  have free := freeStamp_free s sound clock
  rw [← (formIssued_new (s := s) new).1, ← Bool.not_eq_true, stampTaken_iff] at free
  exact free (.inr ⟨e, mem, congrArg OrderKey.origin key, congrArg OrderKey.stamp key⟩)

theorem freeStamp_discardHeld (s : State) (n : Nat) (t : NetTime) : freeStamp (discardHeld s) n t = freeStamp s n t := by
  induction n generalizing t with
  | zero => rfl
  | succ n ih =>
    have taken : (discardHeld s).stampTaken t = s.stampTaken t := by
      simp only [State.stampTaken, discardHeld_orders, discardHeld_cfg]
    simp only [freeStamp, taken, ih]

/-- The entry is formed without a look at the held response. -/
theorem formIssued_discardHeld (r : IssueRequest) (s : State) : formIssued r (discardHeld s) = formIssued r s := by
  have revised : (discardHeld s).revised r = s.revised r := by simp only [State.revised, discardHeld_orders]
  have signature : (discardHeld s).signatureOf r.plan = s.signatureOf r.plan := by
    simp only [State.signatureOf, discardHeld_storedPlan]
  simp only [formIssued, revised, signature, freeStamp_discardHeld, discardHeld_cfg, discardHeld_clock]

end

/-! ### The entry stored and its frame placed -/

section
variable (r : IssueRequest) (i : IssuedEntry) (s : State)

theorem storeIssued_others : storeIssued r i s = { s with orders.issued := (storeIssued r i s).orders.issued } := by
  unfold storeIssued
  split <;> rfl

theorem storeIssued_new (new : r.presence = 0) : (storeIssued r i s).orders.issued.Perm (i :: s.orders.issued) := by
  simp only [storeIssued, revised_new new]
  exact insertIssued_perm i s.orders.issued

theorem storeIssued_revision {x : IssuedEntry} (revises : s.revised r = some x) :
    (storeIssued r i s).orders.issued =
      s.orders.issued.map fun y => if y.key.stamp = i.key.stamp then i else y := by
  simp only [storeIssued, revises, mapIssued]

/-- The entry stored and its ORDER frame in the send queue (R68). -/
def announce : State := placeOwnOrder (i.content 0) (storeIssued r i s)

theorem announce_others :
    announce r i s =
      { s with
        orders.issued := (storeIssued r i s).orders.issued, line := (announce r i s).line, draws := (announce r i s).draws } := by
  have placed := placeOwnOrder_others (i.content 0) (storeIssued r i s)
  have stored := storeIssued_others r i s
  unfold announce
  generalize storeIssued r i s = u at placed stored ⊢
  generalize placeOwnOrder (i.content 0) u = t at placed ⊢
  exact placed.trans (by rw [stored])

theorem announce_placed :
    PlacedAtTail s.line (announce r i s).line { body := .order (i.content 0), attempts := 0, relay := false } := by
  have placed := placeOwnOrder_placed (i.content 0) (storeIssued r i s)
  rwa [storeIssued_line] at placed

theorem announce_entered : (i.content 0).dedupKey ∈ (announce r i s).line.dedup := placeOwnOrder_entered _ _

end

/-! ### The exchange -/

/-- The answer to an accepted ISSUE_ORDER: stamp, revision and signature (R68). -/
def issueAnswer (i : IssuedEntry) : Answer :=
  done (timeBytes i.key.stamp ++ be 1 i.revision ++ setBytes i.detail.signature)

/-- The order announced, taken into this station's own list and reported (R68). -/
def issueTaken (r : IssueRequest) (i : IssuedEntry) (s : State) : State :=
  post (.orderIssued i.key.stamp i.revision r.plan) (processOrder (i.content 0) (announce r i s))

theorem issueWork_accepted {body : List Byte} {s : State} (accepted : issueRefusal (readIssue body) s = none) :
    issueWork body s =
      (issueTaken (readIssue body) (formIssued (readIssue body) s) s, issueAnswer (formIssued (readIssue body) s)) := by
  simp only [issueWork, accepted, issueTaken, announce, issueAnswer]

section
variable (request seq : Byte) (a : Answer) (s : State)

theorem hold_line : (hold request seq a s).line = s.line := rfl
theorem hold_orders : (hold request seq a s).orders = s.orders := rfl
theorem hold_reading : (hold request seq a s).clock = s.clock := rfl
theorem hold_store_same : (hold request seq a s).store = s.store := rfl
theorem hold_timetable : (hold request seq a s).timetable = s.timetable := rfl
theorem hold_seq : (hold request seq a s).seq = s.seq := rfl
theorem hold_storedPlan (n : Nat) : (hold request seq a s).storedPlan n = s.storedPlan n := rfl

end

/-- The state an accepted ISSUE_ORDER leaves (R68). -/
def issueDone (seq : Byte) (r : IssueRequest) (s : State) : State :=
  hold 0x20 seq (issueAnswer (formIssued r s)) (issueTaken r (formIssued r s) (discardHeld s))

theorem exec_issueOrder_accepted (seq : Byte) {body : List Byte} {s : State} (running : s.port.part = .running)
    (length : body.length = 24) (accepted : issueRefusal (readIssue body) s = none) :
    exec (.issueOrder seq body) s = .next (issueDone seq (readIssue body) s) := by
  rw [exec_issueOrder seq running length, issueWork_accepted (by rwa [issueRefusal_discardHeld]), formIssued_discardHeld]
  rfl

/-! ### What it leaves -/

section
variable (r : IssueRequest) (i : IssuedEntry) (s : State)

theorem rearranged_issueTaken : Rearranged (announce r i s) (issueTaken r i s) :=
  (rearranged_processOrder _ _).trans (delivers_post _ _).rearranged

theorem issueTaken_placed :
    PlacedAtTail s.line (issueTaken r i s).line { body := .order (i.content 0), attempts := 0, relay := false } := by
  have line : (issueTaken r i s).line = (announce r i s).line := (rearranged_issueTaken r i s).line
  rw [line]
  exact announce_placed r i s

theorem issueTaken_entered : (i.content 0).dedupKey ∈ (issueTaken r i s).line.dedup := by
  have line : (issueTaken r i s).line = (announce r i s).line := (rearranged_issueTaken r i s).line
  rw [line]
  exact announce_entered r i s

theorem issueTaken_issued : (issueTaken r i s).orders.issued = (storeIssued r i s).orders.issued := by
  have issued : (issueTaken r i s).orders.issued = (announce r i s).orders.issued := (rearranged_issueTaken r i s).issued
  rw [issued, announce_others]

theorem issueTaken_clock : (issueTaken r i s).clock = s.clock := by
  have clock : (issueTaken r i s).clock = (announce r i s).clock := (rearranged_issueTaken r i s).clock
  rw [clock, announce_others]

theorem issueTaken_timetable : (issueTaken r i s).timetable.entries = s.timetable.entries := by
  have entries : (issueTaken r i s).timetable.entries = (announce r i s).timetable.entries := (rearranged_issueTaken r i s).entries
  rw [entries, announce_others]

theorem issueTaken_latches : (issueTaken r i s).seq.latches = s.seq.latches := by
  have latches : (issueTaken r i s).seq.latches = (announce r i s).seq.latches := (rearranged_issueTaken r i s).latches
  rw [latches, announce_others]

theorem issueTaken_plans (n : Nat) : (issueTaken r i s).storedPlan n = s.storedPlan n := by
  have plans : (issueTaken r i s).storedPlan n = (announce r i s).storedPlan n := (rearranged_issueTaken r i s).plans n
  rw [plans, announce_others]
  rfl

end

/-- The order is taken here as if it had arrived (R68). -/
theorem orderTaken_issueTaken {r : IssueRequest} {s : State} (running : s.port.part = .running) (rooms : Rooms s)
    (accepted : issueRefusal r s = none) :
    OrderTaken s (issueTaken r (formIssued r s) s) ((formIssued r s).content 0) := by
  have others := announce_others r (formIssued r s) s
  have stored := (moves_formIssued r s (issueRefusal_none accepted).2).inv rooms
  have orders : (announce r (formIssued r s) s).orders = (storeIssued r (formIssued r s) s).orders := by
    rw [others, storeIssued_others]
  have entries : (announce r (formIssued r s) s).orders.entries = s.orders.entries := by rw [others]
  have clock : (announce r (formIssued r s) s).clock = s.clock := by rw [others]
  have part : (announce r (formIssued r s) s).port.part = s.port.part := by rw [others]
  have config : (announce r (formIssued r s) s).port.config = s.port.config := by rw [others]
  have counted : Counted s (announce r (formIssued r s) s) := by rw [others]; exact ⟨rfl, rfl, rfl, rfl, rfl⟩
  have live : 0 < r.finish.diff (announce r (formIssued r s) s).clock.reading := by rw [clock]; exact issue_ahead accepted
  have taken := orderTaken_processOrder (o := (formIssued r s).content 0) (orders.symm ▸ stored.orders) live (part.trans running)
  exact (taken.after (post_orders _ _) (post_store _ _) (post_clock _ _)).before entries counted clock config

section
variable (seq : Byte) (r : IssueRequest) (s : State)

theorem issueDone_placed :
    PlacedAtTail s.line (issueDone seq r s).line
      { body := .order ((formIssued r s).content 0), attempts := 0, relay := false } := by
  have placed := issueTaken_placed r (formIssued r s) (discardHeld s)
  unfold issueDone
  rwa [hold_line, ← discardHeld_line s]

theorem issueDone_entered : ((formIssued r s).content 0).dedupKey ∈ (issueDone seq r s).line.dedup := by
  unfold issueDone
  rw [hold_line]
  exact issueTaken_entered r (formIssued r s) (discardHeld s)

theorem issueDone_clock : (issueDone seq r s).clock = s.clock := by
  unfold issueDone
  rw [hold_reading, issueTaken_clock, discardHeld_clock]

theorem issueDone_timetable : (issueDone seq r s).timetable.entries = s.timetable.entries := by
  unfold issueDone
  rw [hold_timetable, issueTaken_timetable, discardHeld_timetable]

theorem issueDone_latches : (issueDone seq r s).seq.latches = s.seq.latches := by
  unfold issueDone
  rw [hold_seq, issueTaken_latches, discardHeld_seq]

theorem issueDone_plans (n : Nat) : (issueDone seq r s).storedPlan n = s.storedPlan n := by
  unfold issueDone
  rw [hold_storedPlan, issueTaken_plans, discardHeld_storedPlan]

theorem issueDone_issued :
    (issueDone seq r s).orders.issued = (storeIssued r (formIssued r s) (discardHeld s)).orders.issued := by
  unfold issueDone
  rw [hold_orders, issueTaken_issued]

/-- A new order joins the issued list (R68). -/
theorem issueDone_new (new : r.presence = 0) :
    (issueDone seq r s).orders.issued.Perm (formIssued r s :: s.orders.issued) := by
  have stored := storeIssued_new r (formIssued r s) (discardHeld s) new
  rwa [← issueDone_issued seq, discardHeld_orders] at stored

/-- A revision replaces the entry it revises (R68). -/
theorem issueDone_revision {x : IssuedEntry} (revision : r.presence = 1) (revises : s.orders.issuedEntry r.revises = some x) :
    (issueDone seq r s).orders.issued =
      s.orders.issued.map fun y => if y.key.stamp = r.revises then formIssued r s else y := by
  have revised : (discardHeld s).revised r = some x := by rw [revised_revision revision, discardHeld_orders, revises]
  have stored := storeIssued_revision r (formIssued r s) (discardHeld s) revised
  have stamp : (formIssued r s).key.stamp = r.revises :=
    (formIssued_revision ((revised_revision revision).trans revises)).1.trans (issuedEntry_stamp revises)
  rw [issueDone_issued, stored, discardHeld_orders, stamp]

end

theorem orderTaken_issueDone (seq : Byte) {r : IssueRequest} {s : State} (running : s.port.part = .running) (rooms : Rooms s)
    (accepted : issueRefusal r s = none) : OrderTaken s (issueDone seq r s) ((formIssued r s).content 0) := by
  have taken := orderTaken_issueTaken (r := r) ((discardHeld_port_part s).trans running) ((moves_discardHeld s).inv rooms)
    ((issueRefusal_discardHeld r s).trans accepted)
  rw [formIssued_discardHeld] at taken
  have after : OrderTaken (discardHeld s) (issueDone seq r s) ((formIssued r s).content 0) :=
    taken.after (hold_orders _ _ _ _) (hold_store_same _ _ _ _) (hold_reading _ _ _ _)
  have counted : Counted s (discardHeld s) := by
    constructor <;> rw [discardHeld_orders]
  exact after.before (congrArg _ (discardHeld_orders s)) counted (discardHeld_clock s) (discardHeld_port_config s)

end Sys2Proof.Machine

open Sys2Proof Sys2Proof.Machine

/-- Settles O26: the entry is stored and announced without a look at the order list, then its order is taken as an arriving
one. -/
theorem issuedOrdersAreAnnounced : Obligations.IssuedOrdersAreAnnounced := by
  intro seq body s running length inv accepted r old taken
  have order := orderTaken_issueDone seq running inv.toRooms accepted
  refine ⟨issueDone seq r s, formIssued r s, exec_issueOrder_accepted seq running length accepted, rfl, rfl, rfl, rfl, rfl, rfl,
    rfl, fun new => ?_, fun revision => ?_, order, issueDone_placed seq r s, issueDone_entered seq r s, rfl, issueDone_clock seq r s,
    issueDone_timetable seq r s, issueDone_latches seq r s, issueDone_plans seq r s⟩
  · obtain ⟨stamp, first⟩ := formIssued_new (s := s) new
    obtain ⟨k, least, before⟩ := freeStamp_least inv.clock
    have free := freeStamp_free s inv.orders inv.clock
    rw [← stamp] at free least
    refine ⟨first, issueDone_new seq r s new, ⟨k, least, ?_, fun j below => (stampTaken_iff _ _).mp (before j below)⟩,
      fun outside => ?_⟩
    · exact fun isTaken => Bool.eq_false_iff.mp free ((stampTaken_iff _ _).mpr isTaken)
    · obtain ⟨same, -⟩ := order.elsewhere (formIssued_notHeld new inv.orders inv.clock) (Bool.eq_false_iff.mp outside)
      exact same
  · obtain ⟨x, revises⟩ := issue_revises accepted revision
    obtain ⟨stamp, next⟩ := formIssued_revision ((revised_revision revision).trans revises)
    refine ⟨fun o isOld => ?_, issueDone_revision seq r s revision revises⟩
    have same : x = o := Option.some.inj (revises.symm.trans isOld)
    exact same ▸ ⟨stamp, next⟩

end

section
/-! The measure (R89, R90) and the choice of a transition's direction (R91). -/

set_option Elab.async false

namespace Sys2Proof.Machine

/-! ### The place in the cycle -/

/-- The elapsed time of a FIXED reference is the signed difference in ds, rounded down (R90). -/
theorem elapsed_fixed (instant now : NetTime) :
    (Reference.fixed instant).elapsed now =
      (signedWeeks ((now.week : Int) - instant.week) * 604800000 + now.ms - instant.ms).fdiv 100 := by
  rw [Int.fdiv_eq_ediv_of_nonneg _ (by decide), Int.add_sub_assoc]
  rfl

/-- The place in the cycle and both amounts, from the elapsed time (R90). -/
theorem measureOf_place (p : PlanRecord) (r : Reference) (now : NetTime) (cycle : 0 < p.cycle) :
    let m := measureOf p r now
    m.ideal < p.cycle ∧ (p.cycle : Int) ∣ r.elapsed now - p.offset - m.ideal
      ∧ m.toShorten = m.ideal ∧ m.toLengthen < p.cycle ∧ p.cycle ∣ m.toShorten + m.toLengthen := by
  have positive : (0 : Int) < p.cycle := by omega
  have low := Int.emod_nonneg (r.elapsed now - p.offset) positive.ne'
  have high := Int.emod_lt_of_pos (r.elapsed now - p.offset) positive
  have ideal : ((measureOf p r now).ideal : Int) = (r.elapsed now - p.offset) % (p.cycle : Int) := Int.toNat_of_nonneg low
  have below : (measureOf p r now).ideal < p.cycle := by omega
  refine ⟨below, ?_, rfl, Nat.mod_lt _ cycle, ?_⟩
  · rw [ideal]
    exact Int.dvd_self_sub_emod
  · show p.cycle ∣ (measureOf p r now).ideal + (p.cycle - (measureOf p r now).ideal) % p.cycle
    refine Nat.dvd_of_mod_eq_zero ?_
    rw [Nat.add_mod_mod, Nat.add_sub_cancel' below.le, Nat.mod_self]

/-! ### The direction -/

theorem ceilDiv_eq (a b : Nat) : Machine.ceilDiv a b = a ⌈/⌉ b := (Nat.ceilDiv_eq_add_pred_div a b).symm

/-- Of two amounts the one takes fewer cycles of its limit than the other exactly when some number of cycles makes up the one and
not the other. -/
theorem ceilDiv_lt_ceilDiv_iff {short long : Nat} (a b : Nat) (shortPos : 0 < short) (longPos : 0 < long) :
    Machine.ceilDiv a short < Machine.ceilDiv b long ↔ ∃ n, a ≤ n * short ∧ n * long < b := by
  have made : ∀ {limit : Nat}, 0 < limit → ∀ a n : Nat, Machine.ceilDiv a limit ≤ n ↔ a ≤ n * limit := by
    intro limit positive a n
    rw [ceilDiv_eq, ceilDiv_le_iff_le_smul positive, smul_eq_mul, Nat.mul_comm]
  have fewer : ∀ n, n < Machine.ceilDiv b long ↔ n * long < b := fun n => by
    rw [← Nat.not_le, made longPos, Nat.not_le]
  constructor
  · exact fun less => ⟨_, (made shortPos a _).mp le_rfl, (fewer _).mp less⟩
  · rintro ⟨n, enough, short⟩
    exact Nat.lt_of_le_of_lt ((made shortPos a n).mpr enough) ((fewer n).mpr short)

/-- A transition shortens exactly when the shortening limit is not 0 and some number of cycles does it while as many lengthened
ones do not (R91). -/
theorem chooseDirection_shorten_iff (p : StoredPlan) (m : Measure) (long : 0 < p.lengthenLimit) :
    chooseDirection p m = .shorten ↔
      p.shortenLimit ≠ 0 ∧ ∃ n, m.toShorten ≤ n * p.shortenLimit ∧ n * p.lengthenLimit < m.toLengthen := by
  have fewer : ∀ short : p.shortenLimit ≠ 0, _ := fun short =>
    ceilDiv_lt_ceilDiv_iff m.toShorten m.toLengthen (Nat.pos_of_ne_zero short) long
  unfold chooseDirection
  split
  · rename_i less
    exact iff_of_true rfl ⟨less.1, (fewer less.1).mp less.2⟩
  · rename_i notLess
    exact iff_of_false (by decide) fun ⟨short, cycles⟩ => notLess ⟨short, (fewer short).mpr cycles⟩

/-- A direction once chosen is one of the two. -/
theorem chooseDirection_other {p : StoredPlan} {m : Measure} (h : chooseDirection p m ≠ .shorten) :
    chooseDirection p m = .lengthen := by
  unfold chooseDirection at h ⊢
  split
  · rename_i less
    rw [if_pos less] at h
    exact absurd rfl h
  · rfl

end Sys2Proof.Machine

open Sys2Proof Sys2Proof.Machine

/-- Settles O46: the place is a remainder modulo the cycle, and fewer cycles are those that a number of cycles tells apart. -/
theorem theMeasureFindsBothWays : Obligations.TheMeasureFindsBothWays := by
  refine ⟨fun p r now cycle => ?_, fun p m limit => ?_⟩
  · obtain ⟨below, place, rest⟩ := measureOf_place p r now cycle
    cases r with
    | daily => exact ⟨rfl, below, place, rest⟩
    | fixed instant =>
      rw [elapsed_fixed] at place
      exact ⟨rfl, below, place, rest⟩
  · have shortens := chooseDirection_shorten_iff p m limit
    exact ⟨rfl, rfl, shortens.mpr, fun notFewer => chooseDirection_other (mt shortens.mp notFewer)⟩

end

section
/-! The green end (R114, R116, R117): which stages the skip decision passes over, and what a clearance that begins leaves. -/

set_option Elab.async false

namespace Sys2Proof.Machine

/-! ### The skip decision -/

/-- A stage that the skip decision passes over: ON_CALL and not called (R116). -/
def StageRecord.Uncalled (latches : BitVec 16) (st : StageRecord) : Prop :=
  st.demandClass = 1 ∧ hasNumber latches st.demandInput = false

theorem uncalled_iff (latches : BitVec 16) (st : StageRecord) :
    (st.onCall && !hasNumber latches st.demandInput) = true ↔ st.Uncalled latches := by
  simp [StageRecord.onCall, StageRecord.Uncalled]

/-- The skip decision over a list of stages numbered from `j` passes over the first `n`: each of them is uncalled and the one after
them is not, or there is none (R116). -/
structure Skips (f : Figures) (latches : BitVec 16) (clearance finish j : Nat) (stages : List StageRecord) (n : Nat)
    (d : Decision) : Prop where
  skipped : d.skipped = List.range' j n
  passed : ∀ i, i < n → ∃ x, stages[i]? = some x ∧ x.Uncalled latches
  stopped : ¬ ∃ x, stages[n]? = some x ∧ x.Uncalled latches
  next : d.next = if stages[n]? = none then .nextCycle else .stage (j + n)
  finish : d.finish = if n = 0 then finish else f.bound (j + n - 1) + f.split (j + n - 1) - clearance

theorem decideNext_skips (f : Figures) (latches : BitVec 16) (clearance : Nat) (stages : List StageRecord) (finish j : Nat) :
    ∃ n, Skips f latches clearance finish j stages n (decideNext f latches clearance finish j stages) := by
  induction stages generalizing finish j with
  | nil =>
    exact ⟨0, ⟨rfl, fun i less => absurd less (Nat.not_lt_zero i), fun ⟨_, found, _⟩ => (by simp at found), rfl, rfl⟩⟩
  | cons st rest ih =>
    by_cases uncalled : st.Uncalled latches
    · obtain ⟨n, later⟩ := ih (f.bound j + f.split j - clearance) (j + 1)
      have decided : decideNext f latches clearance finish j (st :: rest) =
          let d := decideNext f latches clearance (f.bound j + f.split j - clearance) (j + 1) rest
          { d with skipped := j :: d.skipped } := if_pos ((uncalled_iff latches st).mpr uncalled)
      have place : j + 1 + n = j + (n + 1) := by omega
      rw [decided]
      refine ⟨n + 1, ⟨congrArg (j :: ·) later.skipped, fun i less => ?_, later.stopped, ?_, ?_⟩⟩
      · cases i with
        | zero => exact ⟨st, rfl, uncalled⟩
        | succ i => exact later.passed i (by omega)
      · exact later.next.trans (by rw [place]; rfl)
      · refine later.finish.trans ?_
        rw [place, if_neg (Nat.succ_ne_zero n)]
        split
        · rename_i none
          subst none
          rfl
        · rfl
    · have decided : decideNext f latches clearance finish j (st :: rest) = { skipped := [], finish := finish, next := .stage j } :=
        if_neg (mt (uncalled_iff latches st).mp uncalled)
      rw [decided]
      refine ⟨0, ⟨rfl, fun i less => absurd less (Nat.not_lt_zero i), ?_, rfl, rfl⟩⟩
      rintro ⟨x, found, isUncalled⟩
      cases found
      exact uncalled isUncalled

/-- The stages that follow stage `k`, by their numbers. -/
theorem stage_after (p : PlanRecord) (k i : Nat) : (p.stages.drop k)[i]? = p.stage (k + i + 1) := by
  rw [List.getElem?_drop]
  rfl

theorem markSkipped_range (k n : Nat) (served : List ServedMark) :
    markSkipped (List.range' (k + 1) n) served = (List.range n).foldl (fun l i => l.set (k + i) .skipped) served := by
  have place : ∀ i, k + 1 + i - 1 = k + i := fun i => by omega
  rw [markSkipped, List.range'_eq_map_range, List.foldl_map]
  simp only [place]

/-! ### The clearance -/

/-- One command for the groups of a set outside another one. -/
theorem redriven_outside (bank : OutputBank) (set outside : GroupSet) (aspect : Aspect) :
    Redriven bank (bank.command (set &&& ~~~outside) aspect) fun g =>
      if inSet g set = true ∧ inSet g outside = false then aspect else bank.drive[g] :=
  (redriven_command bank _ aspect).congr fun _ g => by simp

/-- The set that follows a clearance (R117). -/
def State.followingSet (s : State) (f : Figures) (next : NextServed) : GroupSet :=
  match next with
  | .stage j => s.greenSet f.plan j
  | .nextCycle => s.nextCycleSet

/-- The set of a coming cycle is that of a staged adoption whose wait ends at the coming cycle end, else of the active plan
(R117). -/
theorem nextCycleSet_staged {s : State} {x : StagedAdoption} (h : s.coord.staged.filter (fun x => decide (x.wait = 1)) = some x) :
    s.nextCycleSet = s.greenSet x.adoption.plan 1 := by
  obtain ⟨staged, waits⟩ := Option.filter_eq_some_iff.mp h
  simp [State.nextCycleSet, staged, of_decide_eq_true waits]

theorem nextCycleSet_active {s : State} (h : s.coord.staged.filter (fun x => decide (x.wait = 1)) = none) :
    s.nextCycleSet = s.greenSet ((s.coord.active.map Adoption.plan).getD 0) 1 := by
  unfold State.nextCycleSet
  split
  · rename_i x staged
    have waits : x.wait ≠ 1 := by simpa [staged, Option.filter] using h
    rw [if_neg waits]
  · rfl

/-- What a clearance that begins leaves (R117). -/
theorem beginClearance_begun (r : RunState) (f : Figures) (st : StageRecord) (next : NextServed) {s : State}
    {following : GroupSet} (follows : s.followingSet f next = following) :
    let t := beginClearance r f st next s
    t =
        { s with
          coord.finalMark := s.coord.finalMark || decide (next = .nextCycle), bank := t.bank
          seq.run :=
            some { r with interval := .yellow, finish := r.finish + st.yellow, next := some next, following := some following } }
      ∧ Redriven s.bank t.bank fun g =>
        if inSet g st.green = true ∧ inSet g following = false then .yellow else s.bank.drive[g] := by
  subst follows
  exact ⟨rfl, redriven_outside s.bank _ _ .yellow⟩

/-! ### The green end -/

theorem greenEnd_due {s : State} {r : RunState} (state : s.seq.state = .run) (run : s.seq.run = some r)
    (green : r.interval = .green) (reached : r.finish ≤ s.coord.position) : DueNow .greenEnd s :=
  ⟨by decide, by decide, State.greenEndDue, .inr (.inl rfl), by
    simp [State.greenEndDue, State.intervalDue, run, state, green, reached]⟩

section
variable {s : State} {r : RunState} {f : Figures} {p : StoredPlan} {st : StageRecord} (run : s.seq.run = some r)
  (figures : s.seq.figures = some f) (plan : s.storedPlan f.plan = some p) (stage : p.plan.stage r.stage = some st)
include run figures plan stage

theorem takeGreenEnd_final {next : NextServed} (held : r.next = some next) : takeGreenEnd s = beginClearance r f st next s := by
  simp [takeGreenEnd, run, figures, plan, State.stageOf, stage, held]

/-- At the green end first set the skip decision is taken (R116). -/
theorem takeGreenEnd_first (first : r.next = none) :
    takeGreenEnd s =
      let d := decideNext f s.seq.latches st.clearance r.finish (r.stage + 1) (p.plan.stages.drop r.stage)
      if d.skipped.isEmpty then beginClearance r f st d.next s
      else
        { s with
          seq.served := markSkipped d.skipped s.seq.served
          seq.run := some { r with finish := d.finish, next := some d.next } } := by
  simp [takeGreenEnd, run, figures, plan, State.stageOf, stage, first]

end

end Sys2Proof.Machine

open Sys2Proof Sys2Proof.Machine

/-- Settles O49: a clearance begins at the final green end, and at the first one where the skip decision passes over no stage. -/
theorem greenEndsSkipAndClear : Obligations.GreenEndsSkipAndClear := by
  intro s r f p st state run figures plan stage green reached uncalled ends clears
  have due := (greenEnd_due state run green reached).exec_eq
  have cleared : ∀ next, takeGreenEnd s = beginClearance r f st next s → clears next := by
    intro next taken
    refine ⟨_, due.trans (congrArg Host.Outcome.next taken), beginClearance_begun r f st next ?_⟩
    cases next with
    | stage j => rfl
    | nextCycle =>
      refine Eq.trans (b := s.nextCycleSet) rfl ?_
      dsimp only
      split
      · rename_i waiting
        exact nextCycleSet_staged waiting
      · rename_i waiting active
        rw [nextCycleSet_active waiting, active]
        rfl
      · rename_i waiting active
        rw [nextCycleSet_active waiting, active]
        rfl
  refine ⟨fun next held => cleared next (takeGreenEnd_final run figures plan stage held), fun first => ?_⟩
  obtain ⟨n, skips⟩ := decideNext_skips f s.seq.latches st.clearance (p.plan.stages.drop r.stage) r.finish (r.stage + 1)
  have taken := takeGreenEnd_first run figures plan stage first
  generalize decideNext f s.seq.latches st.clearance r.finish (r.stage + 1) (p.plan.stages.drop r.stage) = d at skips taken
  refine ⟨n, d.next, ⟨fun j after upTo => ?_, ?_, ?_⟩, fun noSkip => ?_, fun skip => ?_⟩
  · obtain ⟨i, rfl⟩ : ∃ i, j = r.stage + i + 1 := ⟨j - r.stage - 1, by omega⟩
    obtain ⟨x, found, isUncalled⟩ := skips.passed i (by omega)
    exact ⟨x, (stage_after ..).symm.trans found, isUncalled⟩
  · exact fun ⟨x, found, isUncalled⟩ => skips.stopped ⟨x, (stage_after ..).trans found, isUncalled⟩
  · rw [← stage_after, skips.next, Nat.add_right_comm]
  · have final : d.skipped.isEmpty = true := by rw [skips.skipped, noSkip]; rfl
    exact cleared d.next (taken.trans (if_pos final))
  · have moved : ¬ d.skipped.isEmpty = true := by simp [skips.skipped, skip.ne']
    have place : r.stage + 1 + n - 1 = r.stage + n := by omega
    refine due.trans (congrArg Host.Outcome.next (taken.trans ?_))
    dsimp only
    rw [if_neg moved, skips.skipped, skips.finish, if_neg skip.ne', place, markSkipped_range]
    rfl

end

section
/-! The clearing of a preemption run (R151, R152, R159): the all-red of the groups cleared, and the hand-back, which looks at
nothing of the run but its save record. -/

set_option Elab.async false

namespace Sys2Proof.Machine

/-! ### The all-red of the groups cleared -/

/-- The all-red of the groups cleared is the greatest among the one so far and those of the entries of the group (log 18). -/
theorem clearedAllRedWith_greatest (cleared : Nat) (g : Group) (clearing : List Clearing) :
    let n := clearedAllRedWith cleared g clearing
    cleared ≤ n ∧ (∀ c ∈ clearing, c.group = g → c.holder.allRed ≤ n)
      ∧ (n = cleared ∨ ∃ c ∈ clearing, c.group = g ∧ c.holder.allRed = n) := by
  induction clearing generalizing cleared with
  | nil => exact ⟨le_rfl, fun _ mem => (by cases mem), .inl rfl⟩
  | cons x rest ih =>
    obtain ⟨above, each, attained⟩ := ih (if x.group = g then max cleared x.holder.allRed else cleared)
    have folded : clearedAllRedWith cleared g (x :: rest) =
        clearedAllRedWith (if x.group = g then max cleared x.holder.allRed else cleared) g rest := rfl
    rw [folded]
    by_cases same : x.group = g
    · rw [if_pos same] at above each attained ⊢
      refine ⟨le_trans (le_max_left _ _) above, fun c mem group => ?_, ?_⟩
      · rcases List.mem_cons.mp mem with rfl | later
        · exact le_trans (le_max_right _ _) above
        · exact each c later group
      · rcases attained with start | ⟨c, mem, group, equal⟩
        · rcases max_choice cleared x.holder.allRed with kept | raised
          · exact .inl (start.trans kept)
          · exact .inr ⟨x, List.mem_cons_self .., same, (start.trans raised).symm⟩
        · exact .inr ⟨c, List.mem_cons_of_mem _ mem, group, equal⟩
    · rw [if_neg same] at above each attained ⊢
      refine ⟨above, fun c mem group => ?_, ?_⟩
      · rcases List.mem_cons.mp mem with rfl | later
        · exact absurd group same
        · exact each c later group
      · rcases attained with start | ⟨c, mem, found⟩
        · exact .inl start
        · exact .inr ⟨c, List.mem_cons_of_mem _ mem, found⟩

/-! ### What a hand-back looks at -/

/-- A hand-back looks at the save record alone of the Preemption Controller. -/
theorem HandedBack.of_preempt {s t : State} {p : Preemption} {yellow : Nat} (save : p.save = s.preempt.save)
    (back : HandedBack { s with preempt := p } t yellow) : HandedBack s t yellow := by
  intro r a k plan st saved choice stored number e stage
  obtain ⟨begun, resumed, rest⟩ := back r a k plan st (save.trans saved) choice stored number stage
  obtain ⟨run, latches, trailing, bank⟩ := begun.green
  exact ⟨⟨begun.active, begun.staged, begun.figures, begun.position, begun.state, begun.transition, begun.sequencer,
    begun.served, run, latches, trailing, bank⟩,
    ⟨resumed.overridden, resumed.requested, resumed.activated, resumed.unstaged, resumed.report⟩, rest⟩

/-! ### A clearance ends -/

theorem RunKept.coord {s t : State} (h : RunKept s t) : t.coord = s.coord := by rw [h.eq]

theorem RunKept.seq {s t : State} (h : RunKept s t) : t.seq = s.seq := by rw [h.eq]

theorem RunKept.clock {s t : State} (h : RunKept s t) : t.clock = s.clock := by rw [h.eq]

/-- A clearing group whose yellow has run is RED and clears no more (R151). -/
def redGroup (g : Group) (s : State) : State :=
  command (1#16 <<< g.val) .red
    { s with
      preempt.clearing := s.preempt.clearing.filter fun c => decide (c.group ≠ g)
      preempt.clearedAllRed := clearedAllRedWith s.preempt.clearedAllRed g s.preempt.clearing }

theorem redGroup_redriven (g : Group) (s : State) :
    Redriven s.bank (redGroup g s).bank fun h => if h = g then .red else s.bank.drive[h] :=
  (redriven_command s.bank _ .red).congr fun _ h => by simp

section
variable {g : Group} {s : State}

theorem takeClearingEnd_more (more : (s.preempt.clearing.filter fun c => decide (c.group ≠ g)) ≠ []) :
    takeClearingEnd g s = redGroup g s := if_neg (by simpa using more)

section
variable (last : (s.preempt.clearing.filter fun c => decide (c.group ≠ g)) = [])
include last

theorem takeClearingEnd_allRed (red : 0 < clearedAllRedWith s.preempt.clearedAllRed g s.preempt.clearing) :
    takeClearingEnd g s =
      { redGroup g s with
        preempt.allRed := some (clearedAllRedWith s.preempt.clearedAllRed g s.preempt.clearing)
        preempt.clearedAllRed := 0 } :=
  (if_pos (by simpa using last)).trans (if_neg red.ne')

theorem takeClearingEnd_ends (noRed : clearedAllRedWith s.preempt.clearedAllRed g s.preempt.clearing = 0) :
    takeClearingEnd g s = endAllRed (redGroup g s) :=
  (if_pos (by simpa using last)).trans (if_pos noRed)

end

end

theorem endAllRed_entering {s : State} (entering : s.preempt.state = .entering) :
    endAllRed s = beginDwell { s with preempt.allRed := none } := by simp only [endAllRed, entering]

theorem endAllRed_leaving {s : State} (leaving : s.preempt.state = .leaving) :
    endAllRed s = handBack { s with preempt.allRed := none } := by simp only [endAllRed, leaving]

/-! ### DWELL and the hand-back at the end of a clearance -/

/-- DWELL has begun for an input with the run of another state (R153). -/
structure Dwells (s t : State) (i : PreemptInput) : Prop where
  state : t.preempt.state = .dwell
  running : t.preempt.running = some i
  count : t.preempt.dwell = 0
  clearing : t.preempt.clearing = []
  waiting : t.preempt.waiting = s.preempt.waiting
  save : t.preempt.save = s.preempt.save
  holders : ∀ g : Group, inSet g (s.route i).track = true →
    t.preempt.holders[g] = some { holder := .route i, yellow := (s.route i).yellow, allRed := (s.route i).allRed }

section
variable {i : PreemptInput} {u : State} (running : u.preempt.running = some i)
include running

/-- When the all-red has run in ENTERING, DWELL begins with the track set GREEN and all else RED (R151, R153). -/
theorem endAllRed_dwells (entering : u.preempt.state = .entering) :
    Dwells u (endAllRed u) i
      ∧ Redriven u.bank (endAllRed u).bank (fun g => if inSet g (u.route i).track = true then .green else .red)
      ∧ (endAllRed u).coord = u.coord ∧ (endAllRed u).seq = u.seq := by
  obtain ⟨kept, state, count, clearing, -, -, holders, bank⟩ :=
    beginDwell_begun { u with preempt.allRed := none } i running
  rw [endAllRed_entering entering]
  exact ⟨⟨state, kept.running.trans running, count, clearing, kept.waiting, kept.save, holders⟩, bank, kept.coord, kept.seq⟩

/-- When the all-red has run in LEAVING, the junction is handed back (R159, R160). -/
theorem endAllRed_handsBack (sound : u.store.Sound) (settled : u.Settled) (overrun : u.coord.overrunRaised = false)
    (leaving : u.preempt.state = .leaving) : HandedBack u (endAllRed u) (u.route i).yellow := by
  rw [endAllRed_leaving leaving]
  exact .of_preempt (p := { u.preempt with allRed := none }) rfl
    (handBack_handedBack { u with preempt.allRed := none } i sound settled overrun running)

end

end Sys2Proof.Machine

open Sys2Proof Sys2Proof.Machine

/-- Settles O58: a green hold ends in clearing, a clearing yellow in RED, and the last all-red in DWELL or the hand-back. -/
theorem clearingRunsToDwellOrHandBack : Obligations.ClearingRunsToDwellOrHandBack := by
  intro i s inv running overrun dwells
  have dwelt : ∀ t, Dwells s t i → dwells t := fun t d =>
    ⟨d.state, d.running, d.count, d.clearing, d.waiting, d.save, d.holders⟩
  refine ⟨fun entering hold => ?_, fun g noHold ended => ?_, fun noClearing allRed => ?_⟩
  · have due : DueNow .greenHoldEnd s :=
      ⟨by decide, by decide, State.greenHoldDue, .inr (.inl rfl), by simp [State.greenHoldDue, entering, hold]⟩
    obtain ⟨kept, cleared⟩ := clearOutside_cleared { s with preempt.greenHold := none } i running entering
    exact ⟨_, due.exec_eq, cleared, kept.coord, kept.seq, kept.save, kept.clock⟩
  · have due : DueNow (.clearingYellowEnd g) s := by
      refine ⟨by simp, by simp, fun s => s.clearingDue g, .inr (.inl rfl), ?_⟩
      obtain ⟨c, mem, group, yellow⟩ := ended
      simp only [State.clearingDue, noHold, Option.isNone_none, Bool.true_and, List.any_eq_true]
      exact ⟨c, mem, by simp [group, yellow]⟩
    obtain ⟨above, each, attained⟩ := clearedAllRedWith_greatest s.preempt.clearedAllRed g s.preempt.clearing
    refine ⟨_, above, each, attained, takeClearingEnd g s, due.exec_eq, fun more => ?_, fun last red => ?_,
      fun last noRed entering => ?_, fun last noRed leaving => ?_⟩
    · rw [takeClearingEnd_more more]
      exact ⟨rfl, redGroup_redriven g s⟩
    · rw [takeClearingEnd_allRed last red]
      exact ⟨by simp only [← last]; rfl, redGroup_redriven g s⟩
    · obtain ⟨d, -⟩ := endAllRed_dwells (u := redGroup g s) running entering
      rw [takeClearingEnd_ends last noRed]
      exact dwelt _ ⟨d.state, d.running, d.count, d.clearing, d.waiting, d.save, d.holders⟩
    · have back := endAllRed_handsBack (u := redGroup g s) running inv.store inv.settled overrun leaving
      rw [takeClearingEnd_ends last noRed]
      exact ⟨_, redGroup_redriven g s, .of_preempt (p := (redGroup g s).preempt) rfl back⟩
  · have due : DueNow .preemptAllRedEnd s :=
      ⟨by decide, by decide, State.allRedDue, .inr (.inl rfl), by simp [State.allRedDue, noClearing, allRed]⟩
    refine ⟨_, due.exec_eq, fun entering => ?_, fun leaving => ?_⟩
    · obtain ⟨d, rest⟩ := endAllRed_dwells running entering
      exact ⟨dwelt _ d, rest⟩
    · exact endAllRed_handsBack running inv.store inv.settled overrun leaving

end

section
/-! A class configured REPORT (R170 to R172): a change of its record leaves the effective action, so that nothing is delivered. -/

set_option Elab.async false

namespace Sys2Proof.Machine

section
variable {c : FaultClass} {s : State} (settled : s.Settled) (report : actionOf s.port.config c = some .report)
include settled report

theorem settled_setRecord {t : State} {r : FaultRecord} (faults : t.faults = s.faults.setRecord c r)
    (config : t.port.config = s.port.config) : t.Settled := by
  unfold State.Settled
  rw [faults, config, mostSevere_report s c r settled report]
  rfl

/-- A raising changes the record and the reports alone (R170). -/
theorem raise_of_report (detail : Option Nat) : raise c detail s = raiseRecord c detail s := by
  refine settleAction_settled _ _ _ ?_
  unfold raiseRecord
  dsimp only
  split
  · split
    · exact settled_setRecord settled report rfl rfl
    all_goals exact settled_setRecord settled report (post_faults _ _) (post_port_config _ _)
  · exact settled

/-- A withdrawal changes the record and the reports alone (R171). -/
theorem withdraw_of_report : withdraw c s = withdrawRecord c s := by
  refine settleAction_settled _ _ _ ?_
  unfold withdrawRecord
  dsimp only
  split
  · exact settled
  · exact settled
  · exact settled_setRecord settled report (post_faults _ _) (post_port_config _ _)

end

/-- A raising taken by the record alone: at most one report comes (R170). -/
theorem raiseRecord_leaves (c : FaultClass) (detail : Option Nat) (s : State) :
    let t := raiseRecord c detail s
    t = { s with faults := t.faults, port := t.port } ∧ t.faults.effective = s.faults.effective
      ∧ t.port.part = s.port.part ∧ t.port.config = s.port.config ∧ t.port.reports.length ≤ s.port.reports.length + 1 := by
  unfold raiseRecord
  dsimp only
  split
  · split
    · exact ⟨rfl, rfl, rfl, rfl, Nat.le_succ _⟩
    all_goals
      exact ⟨by rw [post_faults]; exact post_port_eq _ _, by rw [post_faults]; rfl, post_port_part _ _, post_port_config _ _,
        post_length _ _⟩
  · exact ⟨rfl, rfl, rfl, rfl, Nat.le_succ _⟩

/-- A withdrawal taken by the record alone (R171). -/
theorem withdrawRecord_leaves (c : FaultClass) (s : State) :
    let t := withdrawRecord c s
    t = { s with faults := t.faults, port := t.port } ∧ t.faults.effective = s.faults.effective
      ∧ t.port.part = s.port.part ∧ t.port.config = s.port.config ∧ (t.faults.record c).state ≠ .active := by
  unfold withdrawRecord
  dsimp only
  split
  · rename_i clear
    exact ⟨rfl, rfl, rfl, rfl, by rw [clear]; decide⟩
  · rename_i held
    exact ⟨rfl, rfl, rfl, rfl, by rw [held]; decide⟩
  · refine ⟨by rw [post_faults]; exact post_port_eq _ _, by rw [post_faults]; rfl, post_port_part _ _, post_port_config _ _, ?_⟩
    rw [post_faults, record_setRecord, if_pos rfl]
    dsimp only
    split <;> decide

end Sys2Proof.Machine
end

section
/-! The end of a preemption run (R153 to R155, R159, R160): what it keeps of the inputs and the fault records, and what the end of
DWELL leaves where a mark of the input has just changed. -/

set_option Elab.async false

namespace Sys2Proof.Machine

/-! ### Inputs and fault records -/

/-- The fault records, the filters of the inputs and the mark of PREEMPT_STUCK stay. -/
structure InputsStay (s t : State) : Prop where
  faults : t.faults = s.faults
  pe1 : t.preempt.pe1 = s.preempt.pe1
  pe2 : t.preempt.pe2 = s.preempt.pe2
  stuck : t.preempt.stuckRaised = s.preempt.stuckRaised

theorem InputsStay.trans {s t u : State} (h : InputsStay s t) (k : InputsStay t u) : InputsStay s u :=
  ⟨k.faults.trans h.faults, k.pe1.trans h.pe1, k.pe2.trans h.pe2, k.stuck.trans h.stuck⟩

/-- A change that leaves the Preemption Controller and the fault records. -/
theorem InputsStay.plain {s t : State} (faults : t.faults = s.faults := by rfl) (preempt : t.preempt = s.preempt := by rfl) :
    InputsStay s t :=
  ⟨faults, by rw [preempt], by rw [preempt], by rw [preempt]⟩

theorem InputsStay.input {s t : State} (h : InputsStay s t) (i : PreemptInput) : t.preempt.input i = s.preempt.input i := by
  cases i
  · exact h.pe1
  · exact h.pe2

theorem inputsStay_beginGreen (k : Nat) (left : Option (TrailOccasion × Nat)) (s : State) :
    InputsStay s (beginGreen k left s) := by
  refine .plain (beginGreen_faults k left s) ?_
  unfold beginGreen
  split
  · rfl
  · split
    · rfl
    · dsimp only
      split
      · rw [command_preempt, command_preempt, trail_fields]
      · rfl

theorem chooseResume_leaves (o : Option Override) (s : State) :
    (chooseResume o s).preempt = s.preempt ∧ (chooseResume o s).coord.overrunRaised = s.coord.overrunRaised := by
  have emptied : ∀ u : State, (emptyStaged u).preempt = u.preempt
      ∧ (emptyStaged u).coord.overrunRaised = u.coord.overrunRaised := by
    intro u
    rw [(emptyStaged_eq u).1]
    exact ⟨rfl, rfl⟩
  unfold chooseResume
  split
  · dsimp only
    split <;> split
    · exact emptied _
    · rw [post_preempt, post_coord]
      exact emptied _
    · exact emptied _
    · rw [post_preempt, post_coord]
      exact emptied _
  · rw [post_preempt, post_coord]
    exact emptied _
  · rw [post_preempt, post_coord]
    dsimp only
    split
    · rename_i o _
      exact ⟨post_preempt _ s, congrArg (·.overrunRaised) (post_coord (.adoptionFailed o.adoption.plan .activate) s)⟩
    · exact ⟨rfl, rfl⟩
  · split
    · rw [post_preempt, post_coord]
      exact ⟨rfl, rfl⟩
    · exact ⟨rfl, rfl⟩

section
variable {u : State} (settled : u.Settled) (overrun : u.coord.overrunRaised = false)
include settled overrun

theorem inputsStay_beginNominal (k : Nat) (left : Option (TrailOccasion × Nat)) : InputsStay u (beginNominal k left u) := by
  have leave : InputsStay u (leaveSuspended u) := by
    obtain ⟨-, whole, -⟩ := leaveSuspended_coord u settled overrun
    rw [whole]
    exact .plain
  have handed : ∀ (f : Figures) (n : Nat) (v : State), InputsStay v (handFigures f n v) := fun _ _ _ => .plain
  unfold beginNominal
  split
  · exact .plain
  · refine InputsStay.trans ?_ (inputsStay_beginGreen _ _ _)
    exact (leave.trans (handed _ _ _)).trans (.plain (setSeq_faults _ _) (setSeq_preempt _ _))

theorem inputsStay_handBack : InputsStay u (handBack u) := by
  unfold handBack
  split
  · rename_i r i _ _
    obtain ⟨preempt, mark⟩ := chooseResume_leaves r.override u
    have chosen : InputsStay u (chooseResume r.override u) := .plain (chooseResume_faults _ _) preempt
    have resumed : InputsStay u (resume r.resumeStage r.override (u.route i).yellow u) :=
      chosen.trans (inputsStay_beginNominal ((calm_chooseResume r.override u).steady settled) (mark.trans overrun) _ _)
    have freed : InputsStay u (unstageOverride r.override (resume r.resumeStage r.override (u.route i).yellow u)) := by
      rw [(unstageOverride_eq _ _).1]
      exact resumed.trans .plain
    obtain ⟨faults, pe1, pe2, stuck⟩ := freed
    refine ⟨?_, ?_, ?_, ?_⟩
    · rw [post_faults]
      exact (setPreempt_faults _ _ _).trans faults
    all_goals
      rw [post_preempt]
      dsimp only [Preemption.atRest]
      rw [setPreempt_preempt]
      assumption
  · exact .plain

theorem inputsStay_enterLeaving : InputsStay u (enterLeaving u) := by
  unfold enterLeaving
  split
  · exact .plain
  · rename_i r _
    let v := setPreempt .leaving u.preempt.running { u with preempt.expected := some (u.expectedSet r.resumeStage r.override) }
    let w := command (u.leftGreen (u.expectedSet r.resumeStage r.override)) .yellow
      { v with preempt := v.preempt.startClearing (u.leftGreen (u.expectedSet r.resumeStage r.override)) }
    have began : InputsStay u w := by
      refine ⟨setPreempt_faults _ _ _, ?_, ?_, ?_⟩ <;>
        simp [w, v, Preemption.startClearing]
    show InputsStay u (if w.preempt.clearing.isEmpty then handBack w else w)
    split
    · refine began.trans (inputsStay_handBack (Calm.steady ⟨?_, ?_⟩ settled) ?_)
      · exact setPreempt_faults _ _ _
      · simp [w, v]
      · simpa [w, v] using overrun
    · exact began

/-- The end of DWELL leaves the inputs and the fault records (R153, R154). -/
theorem inputsStay_endDwell : InputsStay u (endDwell u) := by
  have direct : ∀ w, InputsStay u (directRun w u) := by
    intro w
    obtain ⟨-, -, -, -, -, pe1, pe2, stuck, -⟩ := directRun_begun w u
    exact ⟨directRun_faults w u, pe1, pe2, stuck⟩
  unfold endDwell
  split
  · split
    · exact direct _
    · exact inputsStay_enterLeaving settled overrun
  · exact inputsStay_enterLeaving settled overrun

end


/-! ### The report of a hand-back out of DWELL -/

section
variable (u : State) (r : SaveRecord)

/-- LEAVING begun: the groups outside the expected entry set clear (R159). -/
def leavingBegun : State :=
  let v := setPreempt .leaving u.preempt.running { u with preempt.expected := some (u.expectedSet r.resumeStage r.override) }
  let out := u.leftGreen (u.expectedSet r.resumeStage r.override)
  command out .yellow { v with preempt := v.preempt.startClearing out }

theorem enterLeaving_begun (save : u.preempt.save = some r) :
    enterLeaving u = if (leavingBegun u r).preempt.clearing.isEmpty then handBack (leavingBegun u r) else leavingBegun u r := by
  unfold enterLeaving
  rw [save]
  rfl

/-- LEAVING begun changes the outputs, the run and the reports, of which one comes at most. -/
theorem leavingBegun_leaves :
    let w := leavingBegun u r
    w = { u with bank := w.bank, preempt := w.preempt, port := w.port } ∧ w.preempt.running = u.preempt.running
      ∧ w.preempt.save = u.preempt.save ∧ w.port.config = u.port.config
      ∧ w.port.reports.length ≤ u.port.reports.length + 1 := by
  refine ⟨?_, ?_, ?_, ?_, ?_⟩
  · unfold leavingBegun
    rw [setPreempt_eq]
    rfl
  · simp [leavingBegun, Preemption.startClearing]
  · simp [leavingBegun, Preemption.startClearing]
  · simp [leavingBegun]
  · exact post_length _ _

end

/-- No group clears where every group driven GREEN belongs to the set that stays. -/
theorem newClearing_none {s : State} {outside : GroupSet}
    (all : ∀ g : Group, s.bank.drive[g] = .green → inSet g outside = true) :
    newClearing s outside = [] := by
  unfold newClearing
  rw [List.filter_eq_nil_iff.mpr, List.filterMap_nil]
  intro g _
  simpa using all g

/-- The end of DWELL with nothing to clear posts PREEMPT_ENDED, with eight reports of room and one more (R160). -/
theorem endDwell_posts {u : State} {i : PreemptInput} (sound : u.store.Sound) (settled : u.Settled)
    (overrun : u.coord.overrunRaised = false) (running : u.preempt.running = some i) (clearing : u.preempt.clearing = [])
    (alone : ∀ w, u.preempt.waiting = some w → (u.preempt.input w).active = false)
    {r : SaveRecord} {a : Adoption} {k : Nat} {p : StoredPlan} {st : StageRecord} (save : u.preempt.save = some r)
    (choice : ResumeChoice u r a k) (stored : u.storedPlan a.plan = some p) (number : p.plan.number = a.plan)
    (stage : p.plan.stage (if p.plan.stageCount < k then 1 else k) = some st)
    (all : ∀ g : Group, u.bank.drive[g] = .green → inSet g st.green = true) (room : u.port.reports.length ≤ 23) :
    { time := u.clock.reading
      body := .preemptEnded r.source a.plan (if p.plan.stageCount < k then 1 else k)
        ((u.clock.reading.diff r.entry / 100).toNat) } ∈ (endDwell u).port.reports := by
  obtain ⟨plan, entry, -⟩ := chooseResume_chosen u sound r a k p choice stored
  have expected : u.expectedSet r.resumeStage r.override = st.green := by
    unfold State.expectedSet State.greenSet State.stageOf
    dsimp only
    rw [plan, entry, stored]
    exact congrArg (fun o => (Option.map StageRecord.green o).getD 0) stage
  have ends : endDwell u = enterLeaving u := by
    unfold endDwell
    split
    · rename_i w waiting
      rw [if_neg (by simp [alone w waiting])]
    · rfl
  have nothing : (leavingBegun u r).preempt.clearing = [] := by
    have began : (leavingBegun u r).preempt.clearing = u.preempt.clearing ++ newClearing u st.green := by
      unfold leavingBegun newClearing
      rw [expected, ← members_eq]
      simp [Preemption.startClearing]
    rw [began, clearing, newClearing_none all, List.nil_append]
  obtain ⟨whole, still, saved, config, length⟩ := leavingBegun_leaves u r
  have back : endDwell u = handBack (leavingBegun u r) := by
    rw [ends, enterLeaving_begun u r save, nothing]
    rfl
  rw [back]
  generalize leavingBegun u r = w at whole still saved config length
  have cfg : w.cfg = u.cfg := congrArg (·.getD noConfig) config
  have same : ResumeChoice w r a k := by
    unfold ResumeChoice at choice ⊢
    rw [cfg, whole]
    exact choice
  obtain ⟨-, posted⟩ := handBack_resumed w i (by rw [whole]; exact sound)
    (by unfold State.Settled; rw [config, whole]; exact settled) (by rw [whole]; exact overrun) (still.trans running) r a k p st
    (saved.trans save) same (by rw [whole]; exact stored) number stage
  have clock : w.clock = u.clock := by rw [whole]
  rw [← clock]
  exact posted (by omega)

end Sys2Proof.Machine
end

section
/-! Releases, the minimum dwell and the maximum hold (R146, R148, R153 to R155). -/

set_option Elab.async false

namespace Sys2Proof.Machine

/-! ### The filter of an input -/

section
variable (p : Preemption) (i : PreemptInput) (f : InputFilter)

theorem setInput_input : (p.setInput i f).input i = f := by cases i <;> rfl

theorem setInput_other : (p.setInput i f).input (otherInput i) = p.input (otherInput i) := by cases i <;> rfl

theorem setInput_eq : p.setInput i f = { p with pe1 := (p.setInput i f).pe1, pe2 := (p.setInput i f).pe2 } := by
  cases i <;> rfl

end

/-- With an input that does not call, the other one is claimant or none is (R148). -/
theorem claimant_none_iff {p : Preemption} {i : PreemptInput} (silent : p.calls i = false) :
    p.claimant = none ↔ p.calls (otherInput i) = false := by
  cases i <;> simp_all [Preemption.claimant, otherInput]

/-! ### A release -/

/-- The input's filter as a release leaves it (R146). -/
def quieted (i : PreemptInput) (s : State) : State :=
  { s with preempt := s.preempt.setInput i ⟨false, 0, false⟩ }

/-- A wait of the input ends (R155). -/
def dropWait (i : PreemptInput) (s : State) : State :=
  if s.preempt.waiting = some i then { s with preempt.waiting := none } else s

/-- What a release does last, by the state of the controller (R148, R153). -/
def endRelease (i : PreemptInput) (s : State) : State :=
  match s.preempt.state with
  | .idle =>
    if s.preempt.heldTake && s.preempt.claimant.isNone then { s with preempt.heldTake := false, seq.heldTake := false } else s
  | .dwell => if s.preempt.running = some i ∧ s.runningRoute.minDwell ≤ s.preempt.dwell then endDwell s else s
  | .entering | .leaving => s

section
variable {i : PreemptInput} {s : State}

theorem takeRelease_eq (i : PreemptInput) (s : State) :
    takeRelease i s =
      endRelease i (dropWait i (if (s.preempt.input i).ignored then withdrawStuck i (quieted i s) else quieted i s)) := rfl

theorem takeRelease_plain (ignored : (s.preempt.input i).ignored = false) :
    takeRelease i s = endRelease i (dropWait i (quieted i s)) := by
  rw [takeRelease_eq, if_neg (by simp [ignored])]

theorem takeRelease_ignored (ignored : (s.preempt.input i).ignored = true) :
    takeRelease i s = endRelease i (dropWait i (withdrawStuck i (quieted i s))) := by
  rw [takeRelease_eq, if_pos ignored]

theorem dropWait_eq (i : PreemptInput) (s : State) :
    dropWait i s = { s with preempt.waiting := if s.preempt.waiting = some i then none else s.preempt.waiting } := by
  unfold dropWait
  split <;> rfl

/-- The release of an input that is not ignored, before what its state brings. -/
theorem released_eq (i : PreemptInput) (s : State) :
    dropWait i (quieted i s) =
      if s.preempt.waiting = some i then
        { s with preempt := { s.preempt.setInput i ⟨false, 0, false⟩ with waiting := none } }
      else { s with preempt := s.preempt.setInput i ⟨false, 0, false⟩ } := by
  cases i <;> rfl

/-- What a release does first changes the input's filter and a wait for it alone. -/
structure Quieted (i : PreemptInput) (s u : State) : Prop where
  input : u.preempt.input i = ⟨false, 0, false⟩
  other : u.preempt.input (otherInput i) = s.preempt.input (otherInput i)
  state : u.preempt.state = s.preempt.state
  running : u.preempt.running = s.preempt.running
  heldTake : u.preempt.heldTake = s.preempt.heldTake
  dwell : u.preempt.dwell = s.preempt.dwell
  clearing : u.preempt.clearing = s.preempt.clearing
  allRed : u.preempt.allRed = s.preempt.allRed
  config : u.port.config = s.port.config

theorem quieted_dropWait {u : State} (h : Quieted i s u) : Quieted i s (dropWait i u) := by
  have inputs : ∀ w, (dropWait i u).preempt.input w = u.preempt.input w := by
    intro w
    rw [dropWait_eq]
    cases w <;> rfl
  refine ⟨(inputs i).trans h.input, (inputs _).trans h.other, ?_, ?_, ?_, ?_, ?_, ?_, ?_⟩ <;> rw [dropWait_eq]
  exacts [h.state, h.running, h.heldTake, h.dwell, h.clearing, h.allRed, h.config]

/-- Fault records, reports and the mark of PREEMPT_STUCK are none of what a release does first. -/
theorem Quieted.remarked {u : State} (h : Quieted i s u) {stuck : Bool} {faults : FaultUnit} {port : CabinetPort}
    (config : port.config = u.port.config) :
    Quieted i s { u with preempt.stuckRaised := stuck, faults := faults, port := port } := by
  obtain ⟨input, other, state, running, heldTake, dwell, clearing, allRed, config'⟩ := h
  refine ⟨?_, ?_, state, running, heldTake, dwell, clearing, allRed, config.trans config'⟩
  · rw [← input]
    cases i <;> rfl
  · rw [← other]
    cases i <;> rfl

theorem quieted_quieted (i : PreemptInput) (s : State) : Quieted i s (quieted i s) := by
  cases i <;> exact ⟨rfl, rfl, rfl, rfl, rfl, rfl, rfl, rfl, rfl⟩

/-- A held take lapses: the controller is in IDLE and no input calls (R148, log 19). -/
def Lapses (s : State) : Prop :=
  s.preempt.state = .idle ∧ s.preempt.heldTake = true ∧ s.preempt.claimant = none

/-- After a release a held take lapses where the other input does not call (log 19). -/
theorem Quieted.lapses_iff {u : State} (h : Quieted i s u) :
    Lapses u ↔ s.preempt.state = .idle ∧ s.preempt.heldTake = true ∧ s.preempt.calls (otherInput i) = false := by
  have silent : u.preempt.calls i = false := by simp [Preemption.calls, h.input]
  have other : u.preempt.calls (otherInput i) = s.preempt.calls (otherInput i) := by
    unfold Preemption.calls
    rw [h.other]
  unfold Lapses
  rw [claimant_none_iff silent, other, h.state, h.heldTake]

theorem Quieted.route {u : State} (h : Quieted i s u) : u.runningRoute = s.runningRoute := by
  have cfg : u.cfg = s.cfg := congrArg (·.getD noConfig) h.config
  unfold State.runningRoute State.route
  rw [h.running, cfg]

theorem endRelease_lapses (lapses : Lapses s) :
    endRelease i s = { s with preempt.heldTake := false, seq.heldTake := false } := by
  obtain ⟨idle, held, none⟩ := lapses
  simp [endRelease, idle, held, none]

theorem endRelease_stays (stays : ¬ Lapses s)
    (notEnded : ¬ (s.preempt.state = .dwell ∧ s.preempt.running = some i ∧ s.runningRoute.minDwell ≤ s.preempt.dwell)) :
    endRelease i s = s := by
  unfold endRelease
  split
  · rename_i idle
    rw [if_neg]
    simpa [Lapses, idle] using stays
  · rename_i dwell
    exact if_neg fun ended => notEnded ⟨dwell, ended⟩
  · rfl
  · rfl

theorem endRelease_ends (dwell : s.preempt.state = .dwell) (running : s.preempt.running = some i)
    (passed : (s.route i).minDwell ≤ s.preempt.dwell) : endRelease i s = endDwell s := by
  simp [endRelease, dwell, running, State.runningRoute, passed]

theorem inputsStay_endRelease (settled : s.Settled) (overrun : s.coord.overrunRaised = false) (i : PreemptInput) :
    InputsStay s (endRelease i s) := by
  unfold endRelease
  split
  · split
    · exact ⟨rfl, rfl, rfl, rfl⟩
    · exact .plain
  · split
    · exact inputsStay_endDwell settled overrun
    · exact .plain
  · exact .plain
  · exact .plain

end

/-- What the withdrawal of PREEMPT_STUCK leaves, configured REPORT (R146, R171). -/
theorem withdrawStuck_leaves (i : PreemptInput) {s : State} (settled : s.Settled)
    (report : actionOf s.port.config .preemptStuck = some .report) :
    let t := withdrawStuck i s
    t = { s with preempt.stuckRaised := t.preempt.stuckRaised, faults := t.faults, port := t.port }
      ∧ t.port.config = s.port.config
      ∧ (s.preempt.stuckRaised = true → (s.preempt.input (otherInput i)).ignored = false →
        t.preempt.stuckRaised = false ∧ (t.faults.record .preemptStuck).state ≠ .active)
      ∧ ((s.preempt.input (otherInput i)).ignored = true → t.faults = s.faults) := by
  unfold withdrawStuck
  split
  · rename_i ends
    simp only [Bool.and_eq_true, Bool.not_eq_true'] at ends
    obtain ⟨-, other⟩ := ends
    obtain ⟨whole, -, -, config, record⟩ := withdrawRecord_leaves .preemptStuck { s with preempt.stuckRaised := false }
    rw [withdraw_of_report (s := { s with preempt.stuckRaised := false }) settled report]
    refine ⟨?_, config, fun _ _ => ⟨?_, record⟩, fun ignored => absurd (ignored.symm.trans other) (by decide)⟩
    · rw [whole]
    · rw [whole]
  · rename_i goesOn
    refine ⟨rfl, rfl, fun raised other => absurd ?_ goesOn, fun _ => rfl⟩
    simp [raised, other]

/-! ### The maximum hold -/

/-- The choice at a hand-back has one entry stage (R101, R104). -/
theorem resumeChoice_stage {u : State} (sound : u.store.Sound) {r : SaveRecord} {a b : Adoption} {k l : Nat} {p q : StoredPlan}
    {st su : StageRecord} (one : ResumeChoice u r a k) (other : ResumeChoice u r b l) (stored : u.storedPlan a.plan = some p)
    (storedOther : u.storedPlan b.plan = some q) (stage : p.plan.stage (if p.plan.stageCount < k then 1 else k) = some st)
    (stageOther : q.plan.stage (if q.plan.stageCount < l then 1 else l) = some su) : st = su := by
  obtain ⟨plan, entry, -⟩ := chooseResume_chosen u sound r a k p one stored
  obtain ⟨planOther, entryOther, -⟩ := chooseResume_chosen u sound r b l q other storedOther
  obtain rfl : p = q := by
    rw [← plan.symm.trans planOther] at storedOther
    exact Option.some.inj (stored.symm.trans storedOther)
  rw [← entry.symm.trans entryOther] at stageOther
  exact Option.some.inj (stage.symm.trans stageOther)

/-- A state that differs from another in fault records, reports, of which one has come at most, and marks of the inputs alone. -/
structure Remarked (s u : State) : Prop where
  whole : u = { s with preempt := u.preempt, faults := u.faults, port := u.port }
  run : u.preempt =
    { s.preempt with pe1 := u.preempt.pe1, pe2 := u.preempt.pe2, stuckRaised := u.preempt.stuckRaised }
  active : ∀ w, (u.preempt.input w).active = (s.preempt.input w).active
  effective : u.faults.effective = s.faults.effective
  config : u.port.config = s.port.config
  reports : u.port.reports.length ≤ s.port.reports.length + 1

section
variable {s u : State} (marks : Remarked s u)
include marks

theorem Remarked.cfg : u.cfg = s.cfg := congrArg (·.getD noConfig) marks.config

theorem Remarked.route (i : PreemptInput) : u.route i = s.route i := by
  cases i
  · exact congrArg ConfigRecord.route1 marks.cfg
  · exact congrArg ConfigRecord.route2 marks.cfg

theorem Remarked.newClearing (outside : GroupSet) : Machine.newClearing u outside = Machine.newClearing s outside := by
  unfold Machine.newClearing
  rw [marks.whole, marks.run]

theorem Remarked.isolating : u.isolating = s.isolating := by
  unfold State.isolating
  rw [marks.effective, marks.whole]

theorem Remarked.resumeChoice {r : SaveRecord} {a : Adoption} {k : Nat} (choice : ResumeChoice s r a k) :
    ResumeChoice u r a k := by
  unfold ResumeChoice at choice ⊢
  rw [marks.cfg, marks.whole]
  exact choice

/-- The end of DWELL of a state remarked is one of the state before (R153, R154). -/
theorem Remarked.dwellEnded {i : PreemptInput} (sound : u.store.Sound) (settled : u.Settled)
    (overrun : u.coord.overrunRaised = false) (running : u.preempt.running = some i) (clearing : u.preempt.clearing = [])
    (allRed : u.preempt.allRed = none) : DwellEnded s (endDwell u) i := by
  obtain ⟨direct, leaves⟩ := endDwell_ended u i sound settled overrun running clearing allRed
  have bank : u.bank = s.bank := by rw [marks.whole]
  have waiting : u.preempt.waiting = s.preempt.waiting := by rw [marks.run]
  have save : u.preempt.save = s.preempt.save := by rw [marks.run]
  have plans : ∀ n, u.storedPlan n = s.storedPlan n := fun n => by rw [marks.whole]; rfl
  refine ⟨fun w waits active => ?_, fun alone r a k p st saved choice stored stage => ?_⟩
  · obtain ⟨runs, waitsNot, cleared⟩ := direct w (waiting.trans waits) ((marks.active w).trans active)
    rw [marks.route, marks.newClearing, bank] at cleared
    exact ⟨runs, waitsNot, cleared⟩
  · have alone : ∀ w, u.preempt.waiting = some w → (u.preempt.input w).active = false := fun w waits =>
      (marks.active w).trans (alone w (waiting.symm.trans waits))
    obtain ⟨clears, back⟩ :=
      leaves alone r a k p st (save.trans saved) (marks.resumeChoice choice) ((plans _).trans stored) stage
    rw [marks.newClearing, bank] at clears
    rw [marks.route] at back
    refine ⟨clears, fun all => ?_⟩
    have allOfU : ∀ g : Group, u.bank.drive[g] = .green → inSet g st.green = true := by rw [bank]; exact all
    have handed := back allOfU
    intro r' a' k' p' st' saved' choice' stored' number' e' stage'
    obtain ⟨begun, resumed, rest⟩ := handed r' a' k' p' st' (save.trans saved') (marks.resumeChoice choice')
      ((plans _).trans stored') number' stage'
    obtain ⟨run, latches, trailing, greenBank⟩ := begun.green
    have seq : u.seq = s.seq := by rw [marks.whole]
    rw [seq] at latches trailing greenBank
    rw [bank] at trailing greenBank
    have coord : u.coord = s.coord := by rw [marks.whole]
    have slot : ∀ n, u.slot n = s.slot n := fun n => by rw [marks.whole]; rfl
    obtain ⟨overridden, requested, activated, unstaged, -⟩ := resumed
    simp only [coord, slot] at overridden requested activated
    refine ⟨⟨begun.active, begun.staged, begun.figures, begun.position, marks.isolating ▸ begun.state,
      marks.isolating ▸ begun.transition, begun.sequencer, begun.served, run, latches, trailing, greenBank⟩,
      ⟨overridden, requested, activated, unstaged, fun room => ?_⟩, rest⟩
    obtain rfl : r' = r := Option.some.inj (saved'.symm.trans saved)
    have one := resumeChoice_stage sound (marks.resumeChoice choice) (marks.resumeChoice choice') ((plans _).trans stored)
      ((plans _).trans stored') stage stage'
    have clock : u.clock = s.clock := by rw [marks.whole]
    rw [← clock]
    exact endDwell_posts sound settled overrun running clearing alone (save.trans saved) (marks.resumeChoice choice')
      ((plans _).trans stored') number' stage' (one ▸ allOfU) (by have := marks.reports; omega)

end

/-- The ignore mark is set and PREEMPT_STUCK stands raised, with the number of the input (R154). -/
def stuckMarked (i : PreemptInput) (s : State) : State :=
  let ignored : State := { s with preempt := s.preempt.setInput i { s.preempt.input i with ignored := true } }
  if s.preempt.stuckRaised then ignored
  else raise .preemptStuck (some (if i = .pe1 then 1 else 2)) { ignored with preempt.stuckRaised := true }

theorem takeMaximumHold_dwell {i : PreemptInput} {s : State} (marks : Remarked s (stuckMarked i s))
    (dwell : s.preempt.state = .dwell) (running : s.preempt.running = some i) :
    takeMaximumHold i s = endDwell (stuckMarked i s) := by
  have tail : takeMaximumHold i s =
      if (stuckMarked i s).preempt.state = .dwell ∧ (stuckMarked i s).preempt.running = some i then endDwell (stuckMarked i s)
      else stuckMarked i s := by
    cases i <;> rfl
  rw [tail, if_pos]
  rw [marks.run]
  exact ⟨dwell, running⟩

/-- What the maximum hold marks, PREEMPT_STUCK configured REPORT. -/
theorem stuckMarked_leaves (i : PreemptInput) {s : State} (settled : s.Settled) (running : s.port.part = .running)
    (report : actionOf s.port.config .preemptStuck = some .report) :
    let u := stuckMarked i s
    Remarked s u ∧ u.Settled ∧ u.preempt.input i = { s.preempt.input i with ignored := true } ∧ u.preempt.stuckRaised = true
      ∧ (s.preempt.stuckRaised = false →
        (u.faults.record .preemptStuck).state = .active
          ∧ (u.faults.record .preemptStuck).detail = some (if i = .pe1 then 1 else 2)) := by
  have active : ∀ w, ((s.preempt.setInput i { s.preempt.input i with ignored := true }).input w).active =
      (s.preempt.input w).active := by
    intro w
    cases i <;> cases w <;> rfl
  unfold stuckMarked
  dsimp only
  split
  · rename_i raised
    refine ⟨⟨rfl, by cases i <;> rfl, active, rfl, rfl, Nat.le_succ _⟩, settled, setInput_input _ _ _, ?_,
      fun clear => absurd (clear.symm.trans raised) (by decide)⟩
    rw [setInput_eq]
    exact raised
  · let ignored : State :=
      { s with
        preempt := { s.preempt.setInput i { s.preempt.input i with ignored := true } with stuckRaised := true } }
    obtain ⟨whole, effective, -, config, reports⟩ :=
      raiseRecord_leaves .preemptStuck (some (if i = .pe1 then 1 else 2)) ignored
    have state := record_raise (by decide) (some (if i = .pe1 then 1 else 2)) (s := ignored) (c := .preemptStuck) running
    have detail := record_raise_detail (by decide) (some (if i = .pe1 then 1 else 2)) (s := ignored) (c := .preemptStuck) running
    have now := settleAction_effective actionFuel .preemptStuck
      (raiseRecord .preemptStuck (some (if i = .pe1 then 1 else 2)) ignored)
    change (raise .preemptStuck (some (if i = .pe1 then 1 else 2)) ignored).Settled at now
    have same := raise_of_report (s := ignored) settled report (some (if i = .pe1 then 1 else 2))
    rw [← same] at whole effective config reports
    generalize raise .preemptStuck (some (if i = .pe1 then 1 else 2)) ignored = u at *
    have preempt : u.preempt = ignored.preempt := by rw [whole]
    refine ⟨⟨?_, ?_, fun w => ?_, effective, config, reports⟩, now, ?_, ?_, fun _ => ⟨state, detail⟩⟩
    · rw [whole]
    · rw [preempt]
      cases i <;> rfl
    · rw [preempt]
      cases i <;> cases w <;> rfl
    · rw [preempt]
      cases i <;> rfl
    · rw [preempt]

end Sys2Proof.Machine

open Sys2Proof Sys2Proof.Machine

/-- Settles O57: a release by what its state brings, the minimum dwell at once, and the maximum hold upon the state with the ignore
mark set. -/
theorem releasesAndDwellLimitsEndTheRun : Obligations.ReleasesAndDwellLimitsEndTheRun := by
  intro i s inv running overrun clearing allRed
  have released : s.cfg.filterCount ≤ (s.preempt.input i).count → (s.preempt.input i).active = true →
      exec (.preemptRelease i) s = .next (takeRelease i s) := fun counted active =>
    (exec_sampleEvent rfl s).trans (congrArg Host.Outcome.next
      (whenSampled_of_due _ (by simp [State.releaseDue, State.filterDue, State.running, running, counted, active])))
  refine ⟨fun counted active plain => ?_, fun counted active ignored goesOn report => ?_,
    fun dwell runs => ⟨fun passed inactive => ?_, fun limited reached active plain report => ?_⟩⟩
  · intro quiet left
    have first : Quieted i s left := by
      have quieted := quieted_dropWait (quieted_quieted i s)
      rwa [released_eq] at quieted
    have taken : takeRelease i s = endRelease i left := (takeRelease_plain plain).trans (congrArg _ (released_eq i s))
    have whole : left = { s with preempt := left.preempt } := by
      have dropped : dropWait i (quieted i s) = { s with preempt := (dropWait i (quieted i s)).preempt } := by
        rw [dropWait_eq]
        rfl
      rwa [released_eq] at dropped
    clear_value left
    have settled : left.Settled := by rw [whole]; exact inv.settled
    have mark : left.coord.overrunRaised = false := by rw [whole]; exact overrun
    have inputs := inputsStay_endRelease settled mark i
    have stays : ¬ (s.preempt.state = .idle ∧ s.preempt.heldTake = true ∧ s.preempt.calls (otherInput i) = false) →
        ¬ (s.preempt.state = .dwell ∧ s.preempt.running = some i ∧ s.runningRoute.minDwell ≤ s.preempt.dwell) →
        endRelease i left = left := fun noLapse notEnded =>
      endRelease_stays (mt first.lapses_iff.mp noLapse) (by
        rw [first.state, first.running, first.route, first.dwell]
        exact notEnded)
    refine ⟨_, (released counted active).trans (congrArg _ taken), (inputs.input i).trans first.input,
      (inputs.input _).trans first.other, fun idle => ⟨fun held silent => ?_, fun calls => ?_⟩, fun others => ?_,
      fun dwell => ⟨fun runs passed => ?_, fun short => ?_⟩⟩
    · exact endRelease_lapses (first.lapses_iff.mpr ⟨idle, held, silent⟩)
    · refine stays (fun ⟨_, held, silent⟩ => ?_) (fun ⟨dwell, _⟩ => ?_)
      · rcases calls with notHeld | calls
        · exact absurd (held.symm.trans notHeld) (by decide)
        · exact absurd (silent.symm.trans calls) (by decide)
      · exact absurd (idle.symm.trans dwell) (by decide)
    · refine stays (fun ⟨idle, _⟩ => ?_) (fun ⟨dwell, _⟩ => ?_)
      · rcases others with state | state <;> exact absurd (idle.symm.trans state) (by decide)
      · rcases others with state | state <;> exact absurd (dwell.symm.trans state) (by decide)
    · have route : left.route i = s.route i := by rw [whole]; rfl
      rw [endRelease_ends (first.state.trans dwell) (first.running.trans runs) (by rw [route, first.dwell]; exact passed)]
      exact endDwell_ended left i (by rw [whole]; exact inv.store) settled mark (first.running.trans runs)
        (first.clearing.trans (clearing.resolve_right (not_not.mpr dwell)))
        (first.allRed.trans (allRed.resolve_right (not_not.mpr dwell)))
    · refine stays (fun ⟨idle, _⟩ => absurd (idle.symm.trans dwell) (by decide)) (fun ⟨_, runs, passed⟩ => ?_)
      rcases short with notRuns | short
      · exact notRuns runs
      · omega
  · intro lapses
    obtain ⟨stuck, config, lifted, kept⟩ := withdrawStuck_leaves i (s := quieted i s) inv.settled report
    rw [show (quieted i s).preempt.input (otherInput i) = _ from (quieted_quieted i s).other] at lifted kept
    have taken := takeRelease_ignored ignored
    obtain ⟨w, left⟩ : ∃ w, w = withdrawStuck i (quieted i s) := ⟨_, rfl⟩
    rw [← left] at stuck config lifted kept taken
    have first : Quieted i s w := by
      rw [stuck]
      exact (quieted_quieted i s).remarked config
    obtain ⟨x, dropped⟩ : ∃ x, x = dropWait i w := ⟨_, rfl⟩
    have quiet : Quieted i s x := by rw [dropped]; exact quieted_dropWait first
    have whole : x =
        { s with
          preempt :=
            { s.preempt.setInput i ⟨false, 0, false⟩ with
              waiting := if s.preempt.waiting = some i then none else s.preempt.waiting
              stuckRaised := w.preempt.stuckRaised }
          faults := w.faults, port := w.port } := by
      rw [dropped, stuck, dropWait_eq]
      cases i <;> rfl
    have mark : (quieted i s).preempt.stuckRaised = s.preempt.stuckRaised := by cases i <;> rfl
    have silent : Lapses x ↔ lapses := quiet.lapses_iff
    have goes : ¬ (x.preempt.state = .dwell ∧ x.preempt.running = some i ∧ x.runningRoute.minDwell ≤ x.preempt.dwell) := by
      rw [quiet.state, quiet.running, quiet.route, quiet.dwell]
      exact goesOn
    rw [mark] at lifted
    rw [← dropped] at taken
    refine ⟨_, (released counted active).trans (congrArg _ taken), ?_⟩
    by_cases ends : lapses
    · rw [endRelease_lapses (silent.mpr ends), if_pos ends, if_pos ends, whole]
      exact ⟨rfl, rfl, rfl, lifted, kept⟩
    · rw [endRelease_stays (mt silent.mp ends) goes, if_neg ends, if_neg ends, whole]
      exact ⟨by cases i <;> rfl, rfl, rfl, lifted, kept⟩
  · have due : DueNow .minimumDwellReached s :=
      ⟨by decide, by decide, State.minimumDwellDue, .inr (.inl rfl), by
        simp [State.minimumDwellDue, State.dwellDue, runs, dwell, passed, inactive]⟩
    have inputs := inputsStay_endDwell inv.settled overrun
    exact ⟨_, due.exec_eq, endDwell_ended s i inv.store inv.settled overrun runs (clearing.resolve_right (not_not.mpr dwell))
      (allRed.resolve_right (not_not.mpr dwell)), inputs.faults, inputs.stuck⟩
  · have due : DueNow .maximumHold s :=
      ⟨by decide, by decide, State.maximumHoldDue, .inr (.inl rfl), by
        simp [State.maximumHoldDue, State.dwellDue, runs, dwell, limited, reached, Preemption.calls, active, plain]⟩
    obtain ⟨marks, settled, input, raised, record⟩ := stuckMarked_leaves i inv.settled running report
    have taken : exec .maximumHold s = .next (endDwell (stuckMarked i s)) := by
      refine due.exec_eq.trans (congrArg _ ?_)
      show takeMaximum s = _
      unfold takeMaximum
      rw [runs]
      exact takeMaximumHold_dwell marks dwell runs
    generalize stuckMarked i s = u at *
    have mark : u.coord.overrunRaised = false := by rw [marks.whole]; exact overrun
    have inputs := inputsStay_endDwell settled mark
    refine ⟨_, taken, marks.dwellEnded (by rw [marks.whole]; exact inv.store) settled mark (by rw [marks.run]; exact runs)
      (by rw [marks.run]; exact clearing.resolve_right (not_not.mpr dwell))
      (by rw [marks.run]; exact allRed.resolve_right (not_not.mpr dwell)), ?_, ?_, inputs.stuck.trans raised, ?_⟩
    · rw [inputs.input, input]
    · rw [inputs.input, input]
      exact active
    · rw [inputs.faults]
      exact record

end

section
/-! The timers of a decisecond boundary (R79, R112, R120, R134, R151, R153): each step of the timing blocks as one equation, and
what the samples after them leave. -/

set_option Elab.async false

namespace Sys2Proof.Machine

/-! ### The steps, one equation each -/

/-- P counts in the running cycles (R79). -/
abbrev State.counting (s : State) : Prop :=
  s.coord.state = .isolated ∨ s.coord.state = .correcting ∨ s.coord.state = .coordinated

/-- The flash toggles at this boundary (R134). -/
abbrev State.turning (s : State) : Prop := s.bank.flash = true ∧ s.bank.half ≤ 1

/-- The clearing of a preemption counts, no green hold standing before it (R151, R159, log 17). -/
abbrev State.clears (s : State) : Prop :=
  s.preempt.state = .leaving ∨ (s.preempt.state = .entering ∧ s.preempt.greenHold = none)

theorem stepPosition_eq (s : State) :
    stepPosition s =
      { s with
        coord.position :=
          if s.counting ∧ s.coord.position + 1 < s.coord.length then s.coord.position + 1 else s.coord.position
        instants.cycleEnd := s.instants.cycleEnd || decide (s.counting ∧ s.coord.length ≤ s.coord.position + 1) } := by
  have moves : s.counting → stepPosition s =
      if s.coord.length ≤ s.coord.position + 1 then { s with instants.cycleEnd := true }
      else { s with coord.position := s.coord.position + 1 } := by
    unfold stepPosition
    rintro (h | h | h) <;> rw [h]
  by_cases counts : s.counting
  · rw [moves counts]
    by_cases ends : s.coord.length ≤ s.coord.position + 1
    · simp [counts, ends, Nat.not_lt.mpr ends]
    · simp [counts, ends, Nat.not_le.mp ends]
  · have stays : stepPosition s = s := by
      unfold stepPosition
      split
      case h_4 | h_5 => rfl
      all_goals rename_i h; exact absurd (by simp [State.counting, h]) counts
    rw [stays]
    simp [counts]

theorem stepSequencer_eq (s : State) :
    stepSequencer s =
      { s with
        seq.trailing :=
          if s.seq.state = .run then s.seq.trailing.map fun x => { x with yellow := x.yellow - 1 } else s.seq.trailing
        seq.startupCount := if s.seq.state = .startupRed then s.seq.startupCount - 1 else s.seq.startupCount } := by
  unfold stepSequencer
  split <;> rename_i h
  · rw [if_pos h, if_neg (by simp [h])]
  · rw [if_neg (by simp [h]), if_pos h]
  all_goals rw [if_neg (by simp [h]), if_neg (by simp [h])]

theorem stepFlash_eq (s : State) :
    stepFlash s =
      { s with
        bank.half := if s.bank.flash = true ∧ ¬ s.turning then s.bank.half - 1 else s.bank.half
        instants.toggle := s.instants.toggle || decide s.turning } := by
  unfold stepFlash
  by_cases flash : s.bank.flash = true
  · by_cases last : s.bank.half ≤ 1
    · have turns : s.turning := ⟨flash, last⟩
      rw [if_pos flash, if_pos last, if_neg (by simp [turns]), decide_eq_true turns, Bool.or_true]
    · have stays : ¬ s.turning := fun turns => last turns.2
      rw [if_pos flash, if_neg last, if_pos ⟨flash, stays⟩, decide_eq_false stays, Bool.or_false]
  · have stays : ¬ s.turning := fun turns => flash turns.1
    rw [if_neg flash, if_neg (by simp [flash]), decide_eq_false stays, Bool.or_false]

theorem stepClearing_eq (s : State) :
    stepClearing s =
      { s with
        preempt.clearing := s.preempt.clearing.map fun c => { c with yellow := c.yellow - 1 }
        preempt.allRed := if s.preempt.clearing = [] then s.preempt.allRed.map (· - 1) else s.preempt.allRed } := by
  unfold stepClearing
  cases clearing : s.preempt.clearing with
  | nil => simp [clearing]
  | cons c rest => simp

theorem stepPreemption_eq (s : State) :
    stepPreemption s =
      { s with
        preempt.dwell := if s.preempt.state = .dwell then s.preempt.dwell + 1 else s.preempt.dwell
        preempt.greenHold :=
          if s.preempt.state = .entering then s.preempt.greenHold.map (· - 1) else s.preempt.greenHold
        preempt.clearing :=
          if s.clears then s.preempt.clearing.map fun c => { c with yellow := c.yellow - 1 } else s.preempt.clearing
        preempt.allRed :=
          if s.clears ∧ s.preempt.clearing = [] then s.preempt.allRed.map (· - 1) else s.preempt.allRed } := by
  have kept : ¬ s.clears → ¬ (s.clears ∧ s.preempt.clearing = []) := fun stays h => stays h.1
  unfold stepPreemption
  split
  · rename_i idle
    have stays : ¬ s.clears := by simp [State.clears, idle]
    rw [if_neg (c := s.preempt.state = .dwell) (by simp [idle]), if_neg (c := s.preempt.state = .entering) (by simp [idle]),
      if_neg stays, if_neg (kept stays)]
  · rename_i entering
    rw [if_neg (c := s.preempt.state = .dwell) (by simp [entering]), if_pos (c := s.preempt.state = .entering) entering]
    split
    · rename_i n hold
      have stays : ¬ s.clears := by simp [State.clears, hold, entering]
      rw [if_neg stays, if_neg (kept stays), hold, Option.map_some]
    · rename_i hold
      have clears : s.clears := .inr ⟨entering, hold⟩
      have still : s.preempt.greenHold.map (· - 1) = s.preempt.greenHold := by rw [hold, Option.map_none]
      rw [stepClearing_eq, still, if_pos clears]
      simp only [clears, true_and]
  · rename_i dwell
    have stays : ¬ s.clears := by simp [State.clears, dwell]
    rw [if_pos (c := s.preempt.state = .dwell) dwell, if_neg (c := s.preempt.state = .entering) (by simp [dwell]),
      if_neg stays, if_neg (kept stays)]
  · rename_i leaving
    have clears : s.clears := .inl leaving
    rw [if_neg (c := s.preempt.state = .dwell) (by simp [leaving]), if_neg (c := s.preempt.state = .entering) (by simp [leaving]),
      stepClearing_eq, if_pos clears]
    simp only [clears, true_and]

/-- All four steps at once: none reads what another writes. -/
theorem stepTiming_eq (s : State) :
    stepTiming s =
      { s with
        coord.position :=
          if s.counting ∧ s.coord.position + 1 < s.coord.length then s.coord.position + 1 else s.coord.position
        seq :=
          { s.seq with
            trailing :=
              if s.seq.state = .run then s.seq.trailing.map fun x => { x with yellow := x.yellow - 1 } else s.seq.trailing
            startupCount := if s.seq.state = .startupRed then s.seq.startupCount - 1 else s.seq.startupCount }
        bank.half := if s.bank.flash = true ∧ ¬ s.turning then s.bank.half - 1 else s.bank.half
        preempt :=
          { s.preempt with
            dwell := if s.preempt.state = .dwell then s.preempt.dwell + 1 else s.preempt.dwell
            greenHold :=
              if s.preempt.state = .entering then s.preempt.greenHold.map (· - 1) else s.preempt.greenHold
            clearing :=
              if s.clears then s.preempt.clearing.map fun c => { c with yellow := c.yellow - 1 } else s.preempt.clearing
            allRed :=
              if s.clears ∧ s.preempt.clearing = [] then s.preempt.allRed.map (· - 1) else s.preempt.allRed }
        instants :=
          { s.instants with
            timing := true
            cycleEnd := s.instants.cycleEnd || decide (s.counting ∧ s.coord.length ≤ s.coord.position + 1)
            toggle := s.instants.toggle || decide s.turning } } := by
  rw [stepTiming, stepPosition_eq, stepSequencer_eq, stepFlash_eq, stepPreemption_eq]

/-! ### The samples after the steps -/

/-- Of what the timers hold the samples leave everything, where the cabinet-flash sample brings no change: they record patterns,
filters and latches (R122, R136 to R140, R146). -/
structure Sampled (s t : State) : Prop where
  seq : t.seq = { s.seq with latches := t.seq.latches }
  preempt : t.preempt = { s.preempt with pe1 := t.preempt.pe1, pe2 := t.preempt.pe2 }
  bank : t.bank.half = s.bank.half ∧ t.bank.drive = s.bank.drive ∧ t.bank.commanded = s.bank.commanded
    ∧ t.bank.phase = s.bank.phase
  rest : t = { s with seq := t.seq, preempt := t.preempt, bank := t.bank }

theorem sample_outputs (bank : OutputBank) (monitored : GroupSet) (levels : Levels) :
    let after := bank.sample monitored levels
    (after.half = bank.half ∧ after.drive = bank.drive ∧ after.commanded = bank.commanded ∧ after.phase = bank.phase)
      ∧ after.cabinetRaised = bank.cabinetRaised := by
  cases flash : bank.flash with
  | true =>
    rw [sample_flash bank monitored levels flash]
    simp only [OutputBank.sensed, and_self]
  | false =>
    rw [sample_steady bank monitored levels flash]
    simp only [OutputBank.stepFilters, OutputBank.compare, OutputBank.sensed, and_self]

theorem takeSamples_sampled {levels : Levels} {s : State} (same : levels.cabinetFlash = s.bank.cabinetRaised) :
    Sampled s (takeSamples levels s) := by
  by_cases running : s.port.part = .running
  · obtain ⟨outputs, raised⟩ := sample_outputs s.bank s.cfg.monitored levels
    have level : levels.cabinetFlash = (readBack levels s).bank.cabinetRaised := same.trans raised.symm
    rw [takeSamples_running levels running, sampleCabinet_same level]
    exact ⟨rfl, rfl, outputs, rfl⟩
  · rw [takeSamples_stopped levels running]
    exact ⟨rfl, rfl, ⟨rfl, rfl, rfl, rfl⟩, rfl⟩

/-- The slew changes the clock and the mark of a held millisecond alone (R2). -/
theorem slewMillisecond_changes (s : State) :
    ∃ clock holding, slewMillisecond s = { s with clock := clock, instants.holding := holding } := by
  unfold slewMillisecond
  split
  · exact ⟨_, _, rfl⟩
  · split <;> exact ⟨_, _, rfl⟩

end Sys2Proof.Machine

open Sys2Proof Sys2Proof.Machine

/-- Settles O42: the four steps one after the other, none of which reads what another writes, then samples and slew. -/
theorem boundariesMoveEveryTimer : Obligations.BoundariesMoveEveryTimer := by
  intro levels s boundary timing round same counting turning clearing
  have work : exec (.decisecondBoundary levels) s = .next (takeBoundary levels s) := rfl
  rw [takeBoundary_at_boundary levels boundary, boundaryWork,
    show roundFirst { s with pins := levels } = { s with pins := levels } from if_neg (by simp [round]),
    show timed { s with pins := levels } = stepTiming { s with pins := levels } from if_neg (by simp [timing])] at work
  have steps := stepTiming_eq { s with pins := levels }
  generalize stepTiming { s with pins := levels } = u at steps work
  have raised : u.bank.cabinetRaised = s.bank.cabinetRaised := by rw [steps]
  obtain ⟨seq, preempt, ⟨half, drive, commanded, phase⟩, rest⟩ := takeSamples_sampled (same.trans raised.symm)
  obtain ⟨clock, holding, slewed⟩ := slewMillisecond_changes (takeSamples levels u)
  rw [slewed] at work
  generalize takeSamples levels u = v at *
  subst steps
  refine ⟨_, work, rfl, ?_, ?_, seq, half, ?_, drive, commanded, phase, preempt, ?_, ?_, ?_, ?_, ?_, ?_, ?_⟩
  all_goals dsimp only; rw [rest]

end

section
/-! The end of startup red (R102, R112, R126). -/

set_option Elab.async false

namespace Sys2Proof.Machine

/-! ### The plan of the first cycle -/

/-- The adoption of the first cycle: the staged one, else the active one, else the default plan's (R102). -/
def State.firstAdoption (s : State) : Adoption :=
  match s.coord.staged, s.coord.active with
  | some x, _ => x.adoption
  | none, some b => b
  | none, none => { plan := s.cfg.defaultPlan, reference := .daily }

/-- The plan of the first cycle is put into service, no adoption being staged any more. -/
structure FirstChosen (s t : State) (a : Adoption) : Prop where
  whole : t = { s with coord := { s.coord with active := some a, staged := none }, store := t.store, port := t.port }
  plans : ∀ n, t.storedPlan n = s.storedPlan n
  slot : s.coord.staged ≠ none ∨ s.coord.active = none → (t.slot a.plan).state = .active
  part : t.port.part = s.port.part
  config : t.port.config = s.port.config

/-- An adoption put into service with nothing staged, and its report. -/
theorem firstChosen_putInService {s : State} (sound : s.store.Sound) {a : Adoption} {p : StoredPlan}
    (stored : s.storedPlan a.plan = some p) (cause : AdoptCause) :
    FirstChosen s (post (.planAdopted a cause) { putInService a s with coord.staged := none }) a := by
  obtain ⟨put, plans, active⟩ := putInService_eq a s sound stored
  refine ⟨?_, fun n => by rw [post_storedPlan]; exact plans n, fun _ => ?_, ?_, ?_⟩
  · rw [post_eq, put]
  · rw [post_slot]
    exact active
  · rw [post_port_part, put]
  · rw [post_port_config, put]

theorem chooseFirstPlan_chosen {s : State} (sound : s.store.Sound) {p : StoredPlan}
    (stored : s.storedPlan s.firstAdoption.plan = some p) : FirstChosen s (chooseFirstPlan s) s.firstAdoption := by
  unfold chooseFirstPlan
  cases staged : s.coord.staged with
  | some x =>
    have first : s.firstAdoption = x.adoption := by simp [State.firstAdoption, staged]
    rw [first] at stored ⊢
    exact firstChosen_putInService sound stored .startup
  | none =>
    cases active : s.coord.active with
    | some b =>
      have first : s.firstAdoption = b := by simp [State.firstAdoption, staged, active]
      rw [first]
      refine ⟨?_, fun _ => rfl, fun either => ?_, rfl, rfl⟩
      · dsimp only
        rw [← active, ← staged]
      · rcases either with h | h
        · exact absurd staged h
        · exact absurd (h.symm.trans active) (by simp)
    | none =>
      have first : s.firstAdoption = { plan := s.cfg.defaultPlan, reference := .daily } := by
        simp [State.firstAdoption, staged, active]
      rw [first] at stored ⊢
      have put := (putInService_eq _ s sound stored).1
      have same : putInService { plan := s.cfg.defaultPlan, reference := .daily } s =
          { putInService { plan := s.cfg.defaultPlan, reference := .daily } s with coord.staged := none } := by
        rw [put, ← staged]
      dsimp only
      rw [same]
      exact firstChosen_putInService sound stored .standIn

/-! ### The first cycle -/

/-- What the end of startup red leaves before a held take: a nominal cycle at stage 1 (R102, R112). -/
structure FirstCycle (s t : State) (a : Adoption) (p : StoredPlan) (st : StageRecord) : Prop where
  begun : NominalBegun s t a p 1 st none
  whole : t = { s with coord := t.coord, seq := t.seq, bank := t.bank, store := t.store, port := t.port }
  plans : ∀ n, t.storedPlan n = s.storedPlan n
  slot : s.coord.staged ≠ none ∨ s.coord.active = none → (t.slot a.plan).state = .active
  part : t.port.part = s.port.part
  config : t.port.config = s.port.config
  heldTake : t.seq.heldTake = s.seq.heldTake
  startupCount : t.seq.startupCount = 0
  overrun : t.coord.overrunRaised = s.coord.overrunRaised

theorem endStartupRed_begun {s : State} (sound : s.store.Sound) (settled : s.Settled) (overrun : s.coord.overrunRaised = false)
    {p : StoredPlan} {st : StageRecord} (stored : s.storedPlan s.firstAdoption.plan = some p)
    (number : p.plan.number = s.firstAdoption.plan) (stage : p.plan.stage 1 = some st) :
    FirstCycle s (endStartupRed s) s.firstAdoption p st := by
  have chosen := chooseFirstPlan_chosen (s := { s with seq.startupCount := 0 }) sound stored
  rw [show ({ s with seq.startupCount := 0 } : State).firstAdoption = s.firstAdoption from rfl] at chosen
  unfold endStartupRed
  generalize chooseFirstPlan { s with seq.startupCount := 0 } = u at chosen
  obtain ⟨whole, plans, slot, part, config⟩ := chosen
  have settledU : u.Settled := by
    unfold State.Settled at settled ⊢
    rw [config, whole]
    exact settled
  obtain ⟨begun, rest, coord, part', config', heldTake, startupCount⟩ :=
    beginNominal_begun u s.firstAdoption p 1 st none settledU (by rw [whole]; exact overrun) (by rw [whole]) (by rw [whole])
      ((plans _).trans stored) number stage
  have isolating : u.isolating = s.isolating := by rw [whole]; rfl
  generalize beginNominal 1 none u = t at *
  refine ⟨?_, ?_, fun n => ?_, fun either => ?_, part'.trans part, config'.trans config, ?_, ?_, ?_⟩
  · obtain ⟨active, staged, figures, position, state, transition, sequencer, served, run, latches, trailing, bank⟩ := begun
    rw [isolating] at state transition
    rw [whole] at latches trailing bank
    exact ⟨active, staged, figures, position, state, transition, sequencer, served, run, latches, trailing, bank⟩
  · rw [rest, whole]
  · rw [rest]
    exact plans n
  · rw [rest]
    exact slot either
  · rw [heldTake, whole]
  · rw [startupCount, whole]
  · rw [coord, whole]

/-- The hand-over of a first cycle just begun is the green of stage 1, none of which has run (R125). -/
theorem FirstCycle.handOver {s t : State} {a : Adoption} {p : StoredPlan} {st : StageRecord} (cycle : FirstCycle s t a p st)
    (cycleEnd : s.instants.cycleEnd = false) (stored : s.storedPlan a.plan = some p) (number : p.plan.number = a.plan)
    (stage : p.plan.stage 1 = some st) :
    ∃ h, t.handOver = some h ∧ h.plan = a.plan ∧ h.stage = 1 ∧ h.interval = .green ∧ h.elapsed = 0 ∧ h.record = st := by
  have found : t.stageOf (nominalFigures p.plan).plan 1 = some st := by
    rw [show (nominalFigures p.plan).plan = a.plan from number, State.stageOf, cycle.plans, stored]
    exact stage
  have start : t.reachedPosition = 0 := by
    have late : t.instants.cycleEnd = false := by rw [cycle.whole]; exact cycleEnd
    rw [State.reachedPosition, if_neg (by simp [late]), cycle.begun.position.1]
    rfl
  refine
    ⟨{ plan := p.plan.number, stage := 1, interval := .green
       elapsed := t.reachedPosition - (nominalFigures p.plan).bound 1, record := st, following := 0
       trailing := t.seq.trailing }, ?_, number, rfl, rfl, by rw [start, Nat.zero_sub], rfl⟩
  simp only [State.handOver, cycle.begun.green.run, cycle.begun.figures.2, found, Option.map_some]
  rfl

end Sys2Proof.Machine

open Sys2Proof Sys2Proof.Machine

/-- Settles O51: the first cycle, then the take of the state it leaves, whose hand-over is the green of stage 1 just begun. -/
theorem startupRedEndsInTheFirstCycle : Obligations.StartupRedEndsInTheFirstCycle := by
  intro s a p st inv startup counted overrun cycleEnd first stored number stage
  obtain rfl : a = s.firstAdoption := first.trans rfl
  have due : DueNow .startupRedEnd s :=
    ⟨by decide, by decide, State.startupDue, .inr (.inl rfl), by simp [State.startupDue, startup, counted]⟩
  have cycle := endStartupRed_begun inv.store inv.settled overrun stored number stage
  have taken : exec .startupRedEnd s = .next (takeStartupEnd s) := due.exec_eq
  unfold takeStartupEnd at taken
  have handed := cycle.handOver cycleEnd stored number stage
  generalize endStartupRed s = t at *
  obtain ⟨begun, whole, plans, slot, part, config, heldTake, startupCount, overrunAfter⟩ := cycle
  have preempt : t.preempt = s.preempt := by rw [whole]
  cases held : s.seq.heldTake with
  | false =>
    rw [if_neg (by simp [heldTake, held])] at taken
    refine ⟨t, taken, slot, begun.active, startupCount, ?_, ?_, ?_, ?_, ?_, fun _ => ⟨begun, preempt⟩,
      fun h => absurd h (by decide)⟩ <;> rw [whole]
  | true =>
    obtain ⟨h, handOver, plan, stageOne, green, elapsed, record⟩ := handed
    rw [if_pos (by simp [heldTake, held, begun.sequencer])] at taken
    cases claimant : s.preempt.claimant with
    | none =>
      have refused : grantTake t = t := by simp [grantTake, preempt, claimant]
      rw [refused] at taken
      refine ⟨t, taken, slot, begun.active, startupCount, ?_, ?_, ?_, ?_, ?_, fun h => absurd h (by decide),
        fun _ i h => by cases h⟩
        <;> rw [whole]
    | some i =>
      have granted : grantTake t = grantTo i h t := by simp [grantTake, preempt, claimant, handOver]
      rw [granted] at taken
      obtain ⟨after, -, -, running, waiting, save, noHeld, -, -, -, hold, -⟩ :=
        grantTo_granted i h t (by unfold State.Settled; rw [config, whole]; exact inv.settled) (overrunAfter.trans overrun)
      have route : t.route i = s.route i := by
        have cfg : t.cfg = s.cfg := congrArg (·.getD noConfig) config
        cases i <;> simp only [State.route, cfg]
      have reading : t.clock = s.clock := by rw [whole]
      have other : t.preempt.calls .pe2 = s.preempt.calls .pe2 := by rw [preempt]
      have holds : st.green &&& ~~~(s.route i).track ≠ 0 → h.greenHold (t.route i).track = st.gmin := fun outside => by
        rw [greenHold_eq, route, green, record, elapsed, if_pos ⟨rfl, outside⟩, Nat.sub_zero]
      generalize grantTo i h t = u at *
      refine ⟨u, taken, fun either => ?_, ?_, ?_, ?_, ?_, ?_, ?_, ?_, fun h => absurd h (by decide), ?_⟩
      · rw [after]
        exact slot either
      · rw [after]
        exact begun.active
      · rw [after]
        exact startupCount
      · rw [after, whole]
      · rw [after, whole]
      · rw [after, whole]
      · rw [after, whole]
      · rw [after, whole]
      · rintro - j same
        obtain rfl : i = j := Option.some.inj same
        refine ⟨by rw [after], by rw [after], by rw [after], noHeld, by rw [after], by rw [after], running,
          by rw [waiting, other], ?_, fun outside green => ?_⟩
        · rw [save, plan, stageOne, green, route, reading, begun.position.1]
          rfl
        · have length := holds outside
          obtain ⟨entering, held, -⟩ := hold (by rw [length]; exact green)
          exact ⟨entering, held.trans (congrArg some length)⟩

end

section
/-! Corrected cycles (R96, R97): what the shortening takes from each stage, and the figures of a cycle corrected within its
limits. -/

set_option Elab.async false

namespace Sys2Proof.Machine

/-! ### The pass that gives the shortfall -/

section
variable (f : Nat → Nat) (spares : List Nat)

/-- The stages that can give one more than their first share (R97). -/
def ableCount : Nat := spares.countP fun x => decide (f x < x)

theorem giveExtra_zero : giveExtra 0 spares (spares.map f) = spares.map f := by
  induction spares with
  | nil => rfl
  | cons x rest ih => simp [giveExtra, ih]

theorem giveExtra_length (m : Nat) : (giveExtra m spares (spares.map f)).length = spares.length := by
  induction spares generalizing m with
  | nil => rfl
  | cons x rest ih =>
    rw [List.map_cons, giveExtra]
    split <;> simp [ih]

/-- A shortfall that the stages able to give one more can cover is given whole. -/
theorem giveExtra_sum {m : Nat} (covered : m ≤ ableCount f spares) :
    (giveExtra m spares (spares.map f)).sum = (spares.map f).sum + m := by
  induction spares generalizing m with
  | nil =>
    obtain rfl : m = 0 := Nat.le_zero.mp covered
    rfl
  | cons x rest ih =>
    rw [List.map_cons, giveExtra]
    unfold ableCount at covered ih
    rw [List.countP_cons] at covered
    split
    · rename_i gives
      have later := ih (m := m - 1) (by simp [gives.2] at covered; omega)
      simp only [List.sum_cons, later]
      omega
    · rename_i keeps
      have later := ih (m := m) (by
        by_cases able : f x < x
        · omega
        · simpa [able] using covered)
      simp only [List.sum_cons, later]
      omega

/-- Every stage gives its first share or, where its spare has room for it, one more. -/
theorem giveExtra_share (m : Nat) {j x y : Nat} (spare : spares[j]? = some x)
    (take : (giveExtra m spares (spares.map f))[j]? = some y) : y = f x ∨ (y = f x + 1 ∧ f x < x) := by
  induction spares generalizing m j with
  | nil => simp at spare
  | cons z rest ih =>
    rw [List.map_cons, giveExtra] at take
    cases j with
    | zero =>
      obtain rfl : z = x := by simpa using spare
      split at take
      · rename_i gives
        simp only [List.getElem?_cons_zero, Option.some.injEq] at take
        exact .inr ⟨take.symm, gives.2⟩
      · simp only [List.getElem?_cons_zero, Option.some.injEq] at take
        exact .inl take.symm
    | succ j =>
      split at take <;> exact ih _ (by simpa using spare) (by simpa using take)

/-- The shortfall goes to the first stages that can give one more. -/
theorem giveExtra_first (m : Nat) {i j a b x y : Nat} (before : i < j) (spare : spares[i]? = some a)
    (spareLater : spares[j]? = some b) (take : (giveExtra m spares (spares.map f))[i]? = some x)
    (takeLater : (giveExtra m spares (spares.map f))[j]? = some y) (gave : y = f b + 1) (able : f a < a) : x = f a + 1 := by
  induction spares generalizing m i j with
  | nil => simp at spare
  | cons z rest ih =>
    rw [List.map_cons, giveExtra] at take takeLater
    obtain ⟨j, rfl⟩ : ∃ n, j = n + 1 := ⟨j - 1, by omega⟩
    have spareLater : rest[j]? = some b := by simpa using spareLater
    cases i with
    | zero =>
      obtain rfl : z = a := by simpa using spare
      split at take
      · simpa using take.symm
      · rename_i keeps
        obtain rfl : m = 0 := by omega
        rw [if_neg keeps, List.getElem?_cons_succ, giveExtra_zero, List.getElem?_map, spareLater] at takeLater
        simp only [Option.map_some, Option.some.injEq] at takeLater
        omega
    | succ i =>
      have spare : rest[i]? = some a := by simpa using spare
      split at take <;> rename_i gives
      · rw [if_pos gives] at takeLater
        exact ih _ (by omega) spare spareLater (by simpa using take) (by simpa using takeLater)
      · rw [if_neg gives] at takeLater
        exact ih _ (by omega) spare spareLater (by simpa using take) (by simpa using takeLater)

end

/-! ### The first shares and the shortfall -/

section
variable {k sum : Nat}

/-- A stage's first share is within its spare. -/
theorem firstShare_le (within : k ≤ sum) (x : Nat) : k * x / sum ≤ x :=
  Nat.div_le_of_le_mul (Nat.mul_le_mul_right x within)

/-- The first shares together are the amount at the most. -/
theorem firstShares_le (spares : List Nat) : sum * (spares.map fun x => k * x / sum).sum ≤ k * spares.sum := by
  induction spares with
  | nil => simp
  | cons x rest ih =>
    have one : sum * (k * x / sum) ≤ k * x := Nat.mul_div_le _ _
    simp only [List.map_cons, List.sum_cons, Nat.mul_add]
    omega

/-- With one more from each stage able to give it they cover the amount: a stage that is not able has given its whole spare. -/
theorem firstShares_cover (positive : 0 < sum) (within : k ≤ sum) (spares : List Nat) :
    k * spares.sum ≤ sum * ((spares.map fun x => k * x / sum).sum + ableCount (fun x => k * x / sum) spares) := by
  induction spares with
  | nil => simp
  | cons x rest ih =>
    unfold ableCount at ih ⊢
    rw [List.countP_cons]
    have one : k * x ≤ sum * (k * x / sum + if k * x / sum < x then 1 else 0) := by
      split
      · exact (Nat.lt_mul_div_succ _ positive).le
      · rename_i whole
        exact (Nat.mul_le_mul_right x within).trans (Nat.mul_le_mul_left sum (Nat.not_lt.mp whole))
    simp only [List.map_cons, List.sum_cons, Nat.mul_add, decide_eq_true_eq] at ih one ⊢
    omega

end

/-- What a shortening within the spare takes sums to the amount (R97). -/
theorem shortenTakes_sum {k : Nat} {spares : List Nat} (within : k ≤ spares.sum) :
    (shortenTakes k spares.sum spares).sum = k := by
  obtain none | positive := Nat.eq_zero_or_pos spares.sum
  · have zero : k = 0 := by omega
    subst zero
    have floors : floorTakes 0 spares.sum spares = spares.map fun _ => 0 := by simp [floorTakes]
    rw [shortenTakes, floors]
    simp only [Nat.zero_sub]
    rw [giveExtra_zero]
    simp
  · have most : (spares.map fun x => k * x / spares.sum).sum ≤ k :=
      Nat.le_of_mul_le_mul_left ((firstShares_le spares).trans_eq (Nat.mul_comm _ _)) positive
    have least := Nat.le_of_mul_le_mul_left ((Nat.mul_comm _ _).trans_le (firstShares_cover positive within spares)) positive
    have given := giveExtra_sum (fun x => k * x / spares.sum) spares
      (m := k - (spares.map fun x => k * x / spares.sum).sum) (by omega)
    rw [shortenTakes, floorTakes]
    omega

/-! ### The splits of a corrected cycle -/

/-- What is taken from a list of splits, none giving more than it has, is missing from their sum. -/
theorem sum_zipWith_sub {splits takes : List Nat} (length : takes.length = splits.length)
    (least : ∀ (j x y : Nat), splits[j]? = some x → takes[j]? = some y → y ≤ x) :
    (List.zipWith (fun split take => split - take) splits takes).sum + takes.sum = splits.sum := by
  induction splits generalizing takes with
  | nil => simp_all
  | cons x rest ih =>
    cases takes with
    | nil => simp at length
    | cons y takes =>
      have later := ih (takes := takes) (by simpa using length)
        fun j a b ha hb => least (j + 1) a b (by simpa using ha) (by simpa using hb)
      have first := least 0 x y rfl rfl
      simp only [List.zipWith_cons_cons, List.sum_cons]
      omega

theorem lengthenSplits_sum {k : Nat} {splits : List Nat} (nonempty : splits ≠ []) :
    (lengthenSplits k splits).sum = splits.sum + k := by
  cases splits with
  | nil => exact absurd rfl nonempty
  | cons x rest =>
    simp only [lengthenSplits, List.sum_cons]
    omega

theorem lengthenSplits_length (k : Nat) (splits : List Nat) : (lengthenSplits k splits).length = splits.length := by
  cases splits <;> rfl

/-- Lengthening takes from no stage. -/
theorem lengthenSplits_le {k j x y : Nat} {splits : List Nat} (nominal : splits[j]? = some x)
    (corrected : (lengthenSplits k splits)[j]? = some y) : x ≤ y := by
  cases splits with
  | nil => simp at nominal
  | cons z rest =>
    cases j with
    | zero =>
      simp only [lengthenSplits, List.getElem?_cons_zero, Option.some.injEq] at nominal corrected
      omega
    | succ j =>
      simp only [lengthenSplits, List.getElem?_cons_succ] at nominal corrected
      exact (Option.some.inj (nominal.symm.trans corrected)).le

section
variable {plan : PlanRecord} {k : Nat}

/-- What a shortening takes from the stages of a plan. -/
def PlanRecord.takes (plan : PlanRecord) (k : Nat) : List Nat := shortenTakes k (storedFrom plan).spareSum (storedFrom plan).spares

theorem takes_length (plan : PlanRecord) (k : Nat) : (plan.takes k).length = plan.stages.length :=
  (giveExtra_length _ _ _).trans (by simp [storedFrom])

theorem takes_share {j take : Nat} {st : StageRecord} (within : k ≤ (storedFrom plan).spareSum) (stage : plan.stages[j]? = some st)
    (taken : (plan.takes k)[j]? = some take) :
    take ≤ st.spare
      ∧ (take = k * st.spare / (storedFrom plan).spareSum ∨ take = k * st.spare / (storedFrom plan).spareSum + 1) := by
  have spare : (storedFrom plan).spares[j]? = some st.spare := by simp [storedFrom, stage]
  have floor := firstShare_le within st.spare
  rcases giveExtra_share (fun x => k * x / (storedFrom plan).spareSum) _ _ spare taken with first | ⟨more, room⟩
  · exact ⟨first.trans_le floor, .inl first⟩
  · exact ⟨by omega, .inr more⟩

theorem shortened_splits (plan : PlanRecord) (k : Nat) :
    (correctedFigures (storedFrom plan) .shorten k).splits =
      List.zipWith (fun (st : StageRecord) take => st.split - take) plan.stages (plan.takes k) :=
  List.zipWith_map_left

end

/-- A stage holds its need and its clearance within any split that takes no more than its spare. -/
theorem holds_of_taken {st : StageRecord} {take : Nat} (holds : st.Holds) (spare : take ≤ st.spare) :
    max st.gmin st.ped + st.yellow + st.allRed ≤ st.split - take := by
  unfold StageRecord.Holds at holds
  unfold StageRecord.spare StageRecord.need at spare
  omega

/-- What every corrected cycle of a plan is (R80, R81, R96, R97). -/
structure Corrected (plan : PlanRecord) (f : Figures) : Prop where
  splits : f.splits.length = plan.stages.length
  sum : f.splits.sum = f.length
  low : plan.cycle - plan.cycle * plan.shorten / 100 ≤ f.length
  high : f.length ≤ plan.cycle + plan.cycle * plan.lengthen / 100
  holds : ∀ (j : Nat) (st : StageRecord) (split : Nat), plan.stages[j]? = some st → f.splits[j]? = some split →
    max st.gmin st.ped + st.yellow + st.allRed ≤ split

section
variable {plan : PlanRecord} {k : Nat}

theorem shortened_corrected (summed : plan.Summed) (long : plan.Long) (within : k ≤ (storedFrom plan).shortenLimit) :
    Corrected plan (correctedFigures (storedFrom plan) .shorten k) := by
  obtain ⟨limit, spare⟩ : k ≤ plan.cycle * plan.shorten / 100 ∧ k ≤ (storedFrom plan).spareSum := by
    simpa [StoredPlan.shortenLimit, storedFrom] using within
  have length : (correctedFigures (storedFrom plan) .shorten k).length = plan.cycle - k := rfl
  have taken : (plan.takes k).sum = k := shortenTakes_sum spare
  have least : ∀ (j x y : Nat), plan.splits[j]? = some x → (plan.takes k)[j]? = some y → y ≤ x := by
    intro j x y split take
    rw [PlanRecord.splits, List.getElem?_map] at split
    obtain ⟨st, stage, rfl⟩ := Option.map_eq_some_iff.mp split
    have room := (takes_share spare stage take).1
    unfold StageRecord.spare at room
    omega
  have sums := sum_zipWith_sub (splits := plan.splits) (takes := plan.takes k)
    ((takes_length plan k).trans (by simp [PlanRecord.splits])) least
  have cycle : plan.splits.sum = plan.cycle := summed
  refine ⟨?_, ?_, ?_, ?_, fun j st split stage at_j => ?_⟩
  · rw [shortened_splits, List.length_zipWith, takes_length, Nat.min_self]
  · have splits : (correctedFigures (storedFrom plan) .shorten k).splits =
        List.zipWith (fun split take => split - take) plan.splits (plan.takes k) := rfl
    rw [length, splits]
    omega
  · rw [length]
    omega
  · rw [length]
    omega
  · rw [shortened_splits, List.getElem?_zipWith] at at_j
    obtain ⟨take, takes⟩ : ∃ take, (plan.takes k)[j]? = some take := by
      cases h : (plan.takes k)[j]? with
      | none => simp [stage, h] at at_j
      | some take => exact ⟨take, rfl⟩
    obtain rfl : st.split - take = split := by simpa [stage, takes] using at_j
    exact holds_of_taken (long st (List.mem_of_getElem? stage)) (takes_share spare stage takes).1

theorem lengthened_corrected (counted : plan.stages ≠ []) (summed : plan.Summed) (long : plan.Long)
    (within : k ≤ plan.cycle * plan.lengthen / 100) : Corrected plan (correctedFigures (storedFrom plan) .lengthen k) := by
  have length : (correctedFigures (storedFrom plan) .lengthen k).length = plan.cycle + k := rfl
  have splits : (correctedFigures (storedFrom plan) .lengthen k).splits = lengthenSplits k plan.splits := rfl
  have cycle : plan.splits.sum = plan.cycle := summed
  have nonempty : plan.splits ≠ [] := by simpa [PlanRecord.splits] using counted
  refine ⟨?_, ?_, ?_, ?_, fun j st split stage at_j => ?_⟩
  · rw [splits, lengthenSplits_length, PlanRecord.splits, List.length_map]
  · rw [splits, lengthenSplits_sum nonempty, length, cycle]
  · rw [length]
    omega
  · rw [length]
    omega
  · have nominal : plan.splits[j]? = some st.split := by simp [PlanRecord.splits, stage]
    exact (long st (List.mem_of_getElem? stage)).trans (lengthenSplits_le nominal at_j)

theorem nominal_corrected (summed : plan.Summed) (long : plan.Long) :
    Corrected plan (nominalFigures plan) := by
  refine ⟨?_, summed, Nat.sub_le _ _, Nat.le_add_right _ _, fun j st split stage at_j => ?_⟩
  · exact List.length_map _
  · have nominal : plan.splits[j]? = some st.split := by simp [PlanRecord.splits, stage]
    obtain rfl : st.split = split := Option.some.inj (nominal.symm.trans at_j)
    exact long st (List.mem_of_getElem? stage)

end

end Sys2Proof.Machine

open Sys2Proof Sys2Proof.Machine

/-- Settles O47: by the direction of the correction. -/
theorem correctedCyclesKeepEveryNeed : Obligations.CorrectedCyclesKeepEveryNeed := by
  intro store plan d k counted passed within p f spare
  obtain ⟨-, -, ⟨least, -⟩, -, -, -, summed, long⟩ := planRefusal_none_iff.mp passed
  have nonempty : plan.stages ≠ [] := fun none => by
    rw [none] at counted
    exact absurd counted (by simp; omega)
  have corrected : Corrected plan f := by
    cases d with
    | pending => exact nominal_corrected summed long
    | shorten => exact shortened_corrected summed long within
    | lengthen => exact lengthened_corrected nonempty summed long within
  obtain ⟨splits, sum, low, high, holds⟩ := corrected
  refine ⟨?_, splits.trans counted, sum, fun j inside => ?_, low, high, holds, ?_, ?_⟩
  · cases d <;> rfl
  · have bounds : f.bounds = boundsFrom 0 f.splits := by cases d <;> rfl
    rw [bounds, bound_eq f.splits j (by omega) 0, Nat.zero_add]
  · rintro rfl
    refine ⟨rfl, ?_⟩
    obtain ⟨st, rest, stages⟩ := List.exists_cons_of_ne_nil nonempty
    have lengthened : f.splits = lengthenSplits k plan.splits := rfl
    rw [lengthened, PlanRecord.splits, stages]
    exact ⟨rfl, rfl⟩
  · rintro rfl spares
    have limit : k ≤ (storedFrom plan).spareSum := within.trans (Nat.min_le_right _ _)
    refine ⟨rfl, plan.takes k, (takes_length plan k).trans counted, shortenTakes_sum limit, shortened_splits plan k,
      fun j st take stage taken => takes_share limit stage taken,
      fun i j a b x y before stage later taken takenLater gave able => ?_⟩
    have spared : ∀ {n : Nat} {st : StageRecord}, plan.stages[n]? = some st → (storedFrom plan).spares[n]? = some st.spare := by
      intro n st stage
      simp [storedFrom, stage]
    exact giveExtra_first (fun z => k * z / (storedFrom plan).spareSum) _ _ before (spared stage) (spared later) taken takenLater
      gave able

end

section
/-! The cycle end (R86, R88 to R95), TRANSITION_OVERRUN standing raised only where it is configured REPORT. -/

set_option Elab.async false

namespace Sys2Proof.Machine

/-! ### A transition abandoned -/

/-- TRANSITION_OVERRUN stands raised at most where it is configured REPORT. -/
def OverrunReports (s : State) : Prop :=
  s.coord.overrunRaised = true → actionOf s.port.config .transitionOverrun = some .report

/-- The transition is abandoned and TRANSITION_OVERRUN withdrawn with it (R95). -/
structure Abandoned (s t : State) : Prop where
  whole : t = { s with coord := { s.coord with transition := none, overrunRaised := false }, faults := t.faults, port := t.port }
  part : t.port.part = s.port.part
  config : t.port.config = s.port.config
  settled : t.Settled
  lifted : s.coord.overrunRaised = true → (t.faults.record .transitionOverrun).state ≠ .active
  kept : s.coord.overrunRaised = false → t.faults = s.faults

theorem abandonTransition_abandoned {s : State} (settled : s.Settled) (reports : OverrunReports s) :
    Abandoned s (abandonTransition s) := by
  cases raised : s.coord.overrunRaised with
  | false =>
    rw [abandonTransition_quiet s settled raised]
    refine ⟨?_, rfl, rfl, settled, fun h => absurd (raised.symm.trans h) (by decide), fun _ => rfl⟩
    rw [← raised]
  | true =>
    obtain ⟨whole, -, part, config, record⟩ :=
      withdrawRecord_leaves .transitionOverrun { s with coord.transition := none, coord.overrunRaised := false }
    have same : abandonTransition s =
        withdrawRecord .transitionOverrun { s with coord.transition := none, coord.overrunRaised := false } := by
      have empty : abandonTransition s =
          withdraw .transitionOverrun { s with coord.transition := none, coord.overrunRaised := false } := by
        unfold abandonTransition emptyTransition
        simp only [raised, if_true]
        rfl
      exact empty.trans (withdraw_of_report (s := { s with coord.transition := none, coord.overrunRaised := false }) settled
        (reports raised))
    have settledAfter : (abandonTransition s).Settled := settleAction_effective _ _ _
    rw [same] at settledAfter ⊢
    exact ⟨whole, part, config, settledAfter, fun _ => record, fun h => absurd (raised.symm.trans h) (by decide)⟩

/-! ### The staged adoption -/

/-- The staged adoption that a cycle end activates (R86). -/
def State.activated (s : State) : Option StagedAdoption := s.coord.staged.filter fun x => decide (x.wait < 2)

/-- The adoption of the coming cycle. -/
def State.comingAdoption (s : State) : Option Adoption :=
  match s.activated with
  | some x => some x.adoption
  | none => s.coord.active

/-- The staged adoption as a cycle end leaves it: one with wait count 2 waits for the next (R86). -/
def State.stillStaged (s : State) : Option StagedAdoption :=
  (s.coord.staged.filter fun x => decide (2 ≤ x.wait)).map fun x => { x with wait := 1 }

/-- The staged adoption is activated, the transition being abandoned with it, or waits (R86, R95). -/
structure StagedTaken (s t : State) (a : Adoption) : Prop where
  whole : t =
    { s with
      coord :=
        { s.coord with
          active := some a, staged := s.stillStaged
          transition := if s.activated.isSome then none else s.coord.transition
          overrunRaised := if s.activated.isSome then false else s.coord.overrunRaised }
      store := t.store, faults := t.faults, port := t.port }
  plans : ∀ n, t.storedPlan n = s.storedPlan n
  part : t.port.part = s.port.part
  config : t.port.config = s.port.config
  settled : t.Settled
  slot : s.activated.isSome = true → (t.slot a.plan).state = .active
  lifted : s.activated.isSome = true → s.coord.overrunRaised = true → (t.faults.record .transitionOverrun).state ≠ .active
  kept : ¬ s.activated.isSome = true → t.faults = s.faults

theorem takeStaged_taken {s : State} (settled : s.Settled) (reports : OverrunReports s) (sound : s.store.Sound) {a : Adoption}
    {p : StoredPlan} (coming : s.comingAdoption = some a) (stored : s.storedPlan a.plan = some p) :
    StagedTaken s (takeStaged s) a := by
  have waits : s.activated = none → takeStaged s = { s with coord.staged := s.stillStaged } →
      StagedTaken s (takeStaged s) a := by
    intro none same
    have active : s.coord.active = some a := by simpa [State.comingAdoption, none] using coming
    rw [same]
    refine ⟨?_, fun _ => rfl, rfl, rfl, settled, fun h => ?_, fun h => ?_, fun _ => rfl⟩
    · simp only [none, Option.isSome_none, Bool.false_eq_true, if_false, ← active]
    · simp [none] at h
    · simp [none] at h
  cases staged : s.coord.staged with
  | none =>
    refine waits (by simp [State.activated, staged]) ?_
    have left : s.stillStaged = none := by simp [State.stillStaged, staged]
    rw [left]
    unfold takeStaged
    simp only [staged]
    rw [← staged]
  | some x =>
    by_cases waiting : 2 ≤ x.wait
    · have none : s.activated = none := by simp [State.activated, staged, Option.filter]; omega
      refine waits none ?_
      unfold takeStaged State.stillStaged
      simp [staged, waiting]
    · have activated : s.activated = some x := by simp [State.activated, staged, Option.filter]; omega
      obtain rfl : x.adoption = a := by simpa [State.comingAdoption, activated] using coming
      obtain ⟨put, plans, active⟩ := putInService_eq x.adoption s sound stored
      have taken : takeStaged s =
          post (.planAdopted x.adoption .cycleEnd) (abandonTransition { putInService x.adoption s with coord.staged := none }) := by
        unfold takeStaged
        simp only [staged, waiting, if_false]
      obtain ⟨whole, part, config, settledAfter, lifted, -⟩ :=
        abandonTransition_abandoned (s := { putInService x.adoption s with coord.staged := none })
          (by rw [put]; exact settled) (by rw [put]; exact reports)
      rw [taken]
      generalize abandonTransition { putInService x.adoption s with coord.staged := none } = v at *
      have left : s.stillStaged = none := by simp [State.stillStaged, staged, Option.filter, waiting]
      have some : s.activated.isSome = true := by rw [activated]; rfl
      refine ⟨?_, fun n => ?_, ?_, ?_, ?_, fun _ => ?_, fun _ raised => ?_, fun no => absurd some no⟩
      · rw [if_pos some, if_pos some, left, post_eq, whole, put]
      · rw [post_storedPlan, whole]
        exact plans n
      · rw [post_port_part, part, put]
      · rw [post_port_config, config, put]
      · unfold State.Settled at settledAfter ⊢
        rw [post_faults, post_port_config]
        exact settledAfter
      · rw [post_slot, whole]
        exact active
      · rw [post_faults]
        exact lifted (by rw [put]; exact raised)

/-! ### The measure judged -/

/-- The transition in progress, one that waits for its first measure left out (R91). -/
def State.going (s : State) : Option Transition := s.coord.transition.filter fun x => decide (x.direction ≠ .pending)

/-- A transition at the end of a corrected cycle: its counter one lower (R93). -/
def Transition.counted (x : Transition) : Transition :=
  if x.direction = .pending then x else { x with counter := x.counter - 1 }

theorem countCycle_eq (s : State) : countCycle s = { s with coord.transition := s.coord.transition.map Transition.counted } := by
  unfold countCycle
  cases transition : s.coord.transition with
  | none => 
    simp only [Option.map_none]
    rw [← transition]
  | some x =>
    by_cases pending : x.direction = .pending
    · simp only [Transition.counted, pending, if_true, Option.map_some]
      rw [← transition]
    · simp only [Transition.counted, pending, if_false, Option.map_some]

/-- The state in which a measure is judged. -/
def State.measured (s : State) (m : Measure) : State :=
  { s with coord.measure := some m, coord.transition := s.coord.transition.map Transition.counted }

section
variable {p : StoredPlan} {r : Reference} {s : State}

theorem judge_eq (p : StoredPlan) (r : Reference) (s : State) :
    judge p r s =
      let m := measureOf p.plan r s.clock.reading
      let v := s.measured m
      if m.within p.plan.tolerance then (abandonTransition (setCoord .coordinated none v), nominalFigures p.plan, false)
      else if v.coord.correctingNow then ((applyAmount p m v).1, (applyAmount p m v).2, v.coord.overruns)
      else ((applyAmount p m (beginTransition p m v)).1, (applyAmount p m (beginTransition p m v)).2, false) := by
  unfold judge
  simp only [countCycle_eq]
  rfl

theorem going_eq_some {x : Transition} (going : s.going = some x) : s.coord.transition = some x ∧ x.direction ≠ .pending := by
  obtain ⟨found, direction⟩ := Option.filter_eq_some_iff.mp going
  exact ⟨found, by simpa using direction⟩

theorem correctingNow_measured (m : Measure) : (s.measured m).coord.correctingNow = s.going.isSome := by
  unfold State.measured State.going Coordinator.correctingNow Transition.counted
  cases s.coord.transition with
  | none => rfl
  | some x => by_cases pending : x.direction = .pending <;> simp [pending, Option.filter]

/-- What a measure makes of the coming cycle, its figures `f` and the raising that the counter brings (R90 to R95). -/
structure CycleJudged (s t : State) (p : StoredPlan) (m : Measure) (f : Figures) (raises : Bool) : Prop where
  whole : t =
    { s with
      coord :=
        { s.coord with
          state := t.coord.state, cause := t.coord.cause, transition := t.coord.transition, measure := some m
          overrunRaised := t.coord.overrunRaised }
      faults := t.faults, port := t.port }
  part : t.port.part = s.port.part
  config : t.port.config = s.port.config
  number : f.plan = p.plan.number
  raised : raises = true ↔
    m.within p.plan.tolerance = false ∧ s.coord.overrunRaised = false ∧ ∃ x, s.going = some x ∧ x.counter ≤ 1
  near : m.within p.plan.tolerance = true →
    t.coord.state = .coordinated ∧ t.coord.transition = none ∧ f = nominalFigures p.plan ∧ t.coord.overrunRaised = false
      ∧ (s.coord.overrunRaised = true → (t.faults.record .transitionOverrun).state ≠ .active)
      ∧ (s.coord.overrunRaised = false → t.faults = s.faults)
  far : m.within p.plan.tolerance = false → t.coord.overrunRaised = s.coord.overrunRaised ∧ t.faults = s.faults
  begins : m.within p.plan.tolerance = false → s.going = none →
    let d := chooseDirection p m
    let k := min (m.remaining d) (p.limit d)
    t.coord.state = .correcting ∧ f = correctedFigures p d k
      ∧ t.coord.transition = some { direction := d, counter := p.plan.transitions, amount := k }
  goes : m.within p.plan.tolerance = false → ∀ x, s.going = some x →
    let k := min (m.remaining x.direction) (p.limit x.direction)
    t.coord.state = s.coord.state ∧ f = correctedFigures p x.direction k
      ∧ t.coord.transition = some { x with counter := x.counter - 1, amount := k }

theorem corrected_number (p : StoredPlan) (d : Direction) (k : Nat) : (correctedFigures p d k).plan = p.plan.number := by
  cases d <;> rfl

/-- Within tolerance (R90, R95). -/
theorem judge_near {m : Measure} (measured : m = measureOf p.plan r s.clock.reading) (settled : s.Settled)
    (reports : OverrunReports s) (near : m.within p.plan.tolerance = true) :
    CycleJudged s (judge p r s).1 p m (judge p r s).2.1 (judge p r s).2.2 := by
  have judged : judge p r s = (abandonTransition (setCoord .coordinated none (s.measured m)), nominalFigures p.plan, false) := by
    rw [judge_eq, ← measured]
    exact if_pos near
  have set := setCoord_eq .coordinated none (s.measured m)
  have part : (setCoord .coordinated none (s.measured m)).port.part = s.port.part := setCoord_part _ _ _
  have config : (setCoord .coordinated none (s.measured m)).port.config = s.port.config := setCoord_config _ _ _
  generalize setCoord .coordinated none (s.measured m) = v at *
  obtain ⟨whole, part', config', -, lifted, kept⟩ := abandonTransition_abandoned (s := v)
    (by unfold State.Settled; rw [config, set]; exact settled) (by unfold OverrunReports; rw [config, set]; exact reports)
  rw [judged]
  generalize abandonTransition v = t at *
  have far : m.within p.plan.tolerance = false → False := fun h => absurd (near.symm.trans h) (by decide)
  refine ⟨?_, part'.trans part, config'.trans config, rfl,
    ⟨fun h => absurd h Bool.false_ne_true, fun h => (far h.1).elim⟩, fun _ => ?_,
    fun h => (far h).elim, fun h => (far h).elim, fun h => (far h).elim⟩
  · rw [whole, set]
    rfl
  · refine ⟨by rw [whole, set], by rw [whole], rfl, by rw [whole], fun raised => lifted ?_, fun quiet => (kept ?_).trans ?_⟩
    · rw [set]
      exact raised
    · rw [set]
      exact quiet
    · rw [set]
      rfl

/-- Outside tolerance with no transition in progress (R91). -/
theorem judge_begins {m : Measure} (measured : m = measureOf p.plan r s.clock.reading)
    (far : m.within p.plan.tolerance = false) (going : s.going = none) :
    CycleJudged s (judge p r s).1 p m (judge p r s).2.1 (judge p r s).2.2 := by
  have judged : judge p r s =
      ((applyAmount p m (beginTransition p m (s.measured m))).1, (applyAmount p m (beginTransition p m (s.measured m))).2,
        false) := by
    rw [judge_eq, ← measured]
    simp only [far, Bool.false_eq_true, if_false, correctingNow_measured, going, Option.isSome_none]
  have begun : beginTransition p m (s.measured m) =
      { s with
        coord :=
          { s.coord with
            state := .correcting, cause := none, measure := some m
            transition := some { direction := chooseDirection p m, counter := p.plan.transitions, amount := 0 } }
        port := (beginTransition p m (s.measured m)).port } := by
    unfold beginTransition
    dsimp only
    rw [post_eq, setCoord_eq]
    rfl
  have part : (beginTransition p m (s.measured m)).port.part = s.port.part := by
    unfold beginTransition
    dsimp only
    rw [post_port_part, setCoord_part]
    rfl
  have config : (beginTransition p m (s.measured m)).port.config = s.port.config := by
    unfold beginTransition
    dsimp only
    rw [post_port_config, setCoord_config]
    rfl
  rw [judged]
  generalize beginTransition p m (s.measured m) = v at *
  have applied : applyAmount p m v =
      ({ v with
          coord.transition :=
            some
              { direction := chooseDirection p m, counter := p.plan.transitions
                amount := min (m.remaining (chooseDirection p m)) (p.limit (chooseDirection p m)) } },
        correctedFigures p (chooseDirection p m) (min (m.remaining (chooseDirection p m)) (p.limit (chooseDirection p m)))) := by
    unfold applyAmount
    rw [begun]
  have within : ¬ m.within p.plan.tolerance = true := by simp [far]
  rw [applied]
  refine ⟨?_, part, config, corrected_number _ _ _, ⟨fun h => absurd h Bool.false_ne_true, fun ⟨_, _, x, goes, _⟩ => ?_⟩,
    fun h => absurd h within, fun _ => ⟨by rw [begun], by rw [begun]⟩, fun _ _ => ⟨by rw [begun], rfl, rfl⟩,
    fun _ x goes => ?_⟩
  · rw [begun]
  · exact absurd (going.symm.trans goes) (Option.some_ne_none x).symm
  · exact absurd (going.symm.trans goes) (Option.some_ne_none x).symm

/-- Outside tolerance with a transition in progress (R92, R93). -/
theorem judge_goes {m : Measure} (measured : m = measureOf p.plan r s.clock.reading)
    (far : m.within p.plan.tolerance = false) {x : Transition} (going : s.going = some x) :
    CycleJudged s (judge p r s).1 p m (judge p r s).2.1 (judge p r s).2.2 := by
  have judged : judge p r s =
      ((applyAmount p m (s.measured m)).1, (applyAmount p m (s.measured m)).2, (s.measured m).coord.overruns) := by
    rw [judge_eq, ← measured]
    simp only [far, Bool.false_eq_true, if_false, correctingNow_measured, going, Option.isSome_some, if_true]
  obtain ⟨transition, direction⟩ := going_eq_some going
  have counted : (s.measured m).coord.transition = some { x with counter := x.counter - 1 } := by
    simp only [State.measured, transition, Option.map_some, Transition.counted, direction, if_false]
  have applied : applyAmount p m (s.measured m) =
      ({ s.measured m with
          coord.transition :=
            some
              { x with
                counter := x.counter - 1
                amount := min (m.remaining x.direction) (p.limit x.direction) } },
        correctedFigures p x.direction (min (m.remaining x.direction) (p.limit x.direction))) := by
    unfold applyAmount
    rw [counted]
  have overruns : (s.measured m).coord.overruns = (!s.coord.overrunRaised && decide (x.counter - 1 = 0)) := by
    unfold Coordinator.overruns
    rw [counted]
    simp [State.measured]
  have within : ¬ m.within p.plan.tolerance = true := by simp [far]
  rw [judged, applied, overruns]
  refine ⟨rfl, rfl, rfl, corrected_number _ _ _, ?_, fun h => absurd h within, fun _ => ⟨rfl, rfl⟩,
    fun _ quiet => ?_, fun _ y goes => ?_⟩
  · simp [far, going, Nat.sub_eq_zero_iff_le]
  · exact absurd (going.symm.trans quiet) (Option.some_ne_none x)
  · obtain rfl : x = y := Option.some.inj (going.symm.trans goes)
    exact ⟨rfl, rfl, rfl⟩

theorem judge_judged {m : Measure} (measured : m = measureOf p.plan r s.clock.reading) (settled : s.Settled)
    (reports : OverrunReports s) : CycleJudged s (judge p r s).1 p m (judge p r s).2.1 (judge p r s).2.2 := by
  cases within : m.within p.plan.tolerance with
  | true => exact judge_near measured settled reports within
  | false =>
    cases going : s.going with
    | none => exact judge_begins measured within going
    | some x => exact judge_goes measured within going

/-- The Coordinator measures at its cycle ends (R88). -/
def State.measuring (s : State) : Prop := s.coord.state = .correcting ∨ s.coord.state = .coordinated

/-- The coming cycle: nominal where nothing is measured, and as the measure makes it otherwise (R88). -/
structure CycleComing (s t : State) (p : StoredPlan) (m : Measure) (f : Figures) (raises : Bool) : Prop where
  whole : t =
    { s with
      coord :=
        { s.coord with
          state := t.coord.state, cause := t.coord.cause, transition := t.coord.transition, measure := t.coord.measure
          overrunRaised := t.coord.overrunRaised }
      faults := t.faults, port := t.port }
  part : t.port.part = s.port.part
  config : t.port.config = s.port.config
  number : f.plan = p.plan.number
  judged : s.measuring → CycleJudged s t p m f raises
  nominal : ¬ s.measuring → t = s ∧ f = nominalFigures p.plan ∧ raises = false

theorem comingCycle_coming {a : Adoption} {m : Measure} (measured : m = measureOf p.plan a.reference s.clock.reading)
    (settled : s.Settled) (reports : OverrunReports s) :
    CycleComing s (comingCycle a p s).1 p m (comingCycle a p s).2.1 (comingCycle a p s).2.2 := by
  by_cases measuring : s.measuring
  · have coming : comingCycle a p s = judge p a.reference s := by
      unfold comingCycle
      rcases measuring with state | state <;> rw [state]
    have judged := judge_judged (r := a.reference) measured settled reports
    rw [coming]
    refine ⟨?_, judged.part, judged.config, judged.number, fun _ => judged, fun h => absurd measuring h⟩
    have whole := judged.whole
    have measure : (judge p a.reference s).1.coord.measure = some m := by rw [whole]
    rwa [measure]
  · have coming : comingCycle a p s = (s, nominalFigures p.plan, false) := by
      unfold comingCycle
      split
      · rfl
      · rename_i state
        exact absurd (.inl state) measuring
      · rename_i state
        exact absurd (.inr state) measuring
      · rfl
      · rfl
    rw [coming]
    exact ⟨rfl, rfl, rfl, rfl, fun h => absurd h measuring, fun _ => ⟨rfl, rfl, rfl⟩⟩

end

/-! ### The coming cycle begins -/

/-- The figures handed and the green of stage 1 begun with them (R113, R119, R120). -/
structure CycleBegun (s t : State) (f : Figures) (st : StageRecord) (yellow : Nat) : Prop where
  whole : t =
    { s with
      coord := { s.coord with figures := some f, length := f.length, position := 0 }
      seq := t.seq, bank := t.bank, port := t.port }
  part : t.port.part = s.port.part
  config : t.port.config = s.port.config
  figures : t.seq.figures = some f
  served : t.seq.served = (f.splits.map fun _ => ServedMark.notReached).set 0 .served
  green : GreenBegun s t f 1 st (some yellow)

theorem beginCycle_begun {s : State} {f : Figures} {st : StageRecord} (yellow : Nat) (stage : s.stageOf f.plan 1 = some st) :
    CycleBegun s (beginGreen 1 (some (.cycleEnd, yellow)) (handFigures f 0 s)) f st yellow := by
  obtain ⟨green, whole, -, part, config, served, figures, -⟩ :=
    beginGreen_begun (handFigures f 0 s) f 1 st (some (.cycleEnd, yellow)) rfl stage
  exact ⟨whole, part, config, figures, served, green.run, green.latches, green.trailing, green.bank⟩

theorem takeCycleEnd_eq {s v : State} {a : Adoption} {p : StoredPlan}
    (taken : takeStaged { s with coord.finalMark := false, instants.cycleEnd := false } = v) (active : v.coord.active = some a)
    (stored : v.storedPlan a.plan = some p) :
    takeCycleEnd s =
      raiseOverrun (comingCycle a p v).2.2
        (beginGreen 1 (some (.cycleEnd, s.runningYellow)) (handFigures (comingCycle a p v).2.1 0 (comingCycle a p v).1)) := by
  unfold takeCycleEnd
  dsimp only
  rw [taken, active]
  dsimp only
  rw [stored]

theorem within_iff_near (m : Measure) (tolerance : Nat) :
    m.within tolerance = true ↔ m.toShorten ≤ tolerance ∨ m.toLengthen ≤ tolerance := by
  simp [Measure.within]

end Sys2Proof.Machine

open Sys2Proof Sys2Proof.Machine

/-- Settles O48: the staged adoption, the coming cycle, its beginning, and the raising last. -/
theorem cycleEndsMeasureAndJudge : Obligations.CycleEndsMeasureAndJudge := by
  intro s a p st inv running cycleEnd reports activated coming stored number stage m near going measuring overruns abandoned
  have coming : s.comingAdoption = some a := coming
  have taken := takeStaged_taken (s := { s with coord.finalMark := false, instants.cycleEnd := false }) inv.settled reports inv.store
    coming stored
  have work : exec .cycleEnd s = .next (takeCycleEnd s) :=
    DueNow.exec_eq ⟨by decide, by decide, State.cycleEndDue, .inr (.inl rfl), cycleEnd⟩
  generalize same : takeStaged { s with coord.finalMark := false, instants.cycleEnd := false } = v at taken
  obtain ⟨whole, plans, part, config, settled, slot, lifted, kept⟩ := taken
  rw [takeCycleEnd_eq same (by rw [whole]) ((plans _).trans stored)] at work
  have reportsAfter : OverrunReports v := by
    unfold OverrunReports
    rw [config, whole]
    dsimp only
    split
    · exact fun h => absurd h Bool.false_ne_true
    · exact reports
  have cycle := comingCycle_coming (a := a) (p := p) (s := v) (m := m) (by rw [whole]) settled reportsAfter
  generalize (comingCycle a p v).1 = w at cycle work
  generalize (comingCycle a p v).2.1 = f at cycle work
  generalize (comingCycle a p v).2.2 = raises at cycle work
  obtain ⟨wholeW, partW, configW, numberW, judged, nominal⟩ := cycle
  have begun := beginCycle_begun (s := w) (f := f) (st := st) s.runningYellow (by
    rw [numberW, number, wholeW, State.stageOf]
    exact (congrArg (·.bind (·.plan.stage 1)) ((plans a.plan).trans stored)).trans stage)
  generalize beginGreen 1 (some (.cycleEnd, s.runningYellow)) (handFigures f 0 w) = u at begun work
  have state : v.coord.state = s.coord.state := by rw [whole]
  have measures : v.measuring ↔ measuring := by rw [State.measuring, state]
  have overrun : v.coord.overrunRaised = if activated.isSome then false else s.coord.overrunRaised := by
    rw [whole]
    rfl
  have goingV : v.going = going := by
    rw [State.going, whole]
    show (if activated.isSome then none else s.coord.transition).filter _ = going
    by_cases some : activated.isSome
    · simp only [going, some, if_true, Option.filter_none]
    · simp only [going, some, if_false, Bool.false_eq_true]
  have withinNear : m.within p.plan.tolerance = true ↔ near := within_iff_near m p.plan.tolerance
  have far : ¬ near → m.within p.plan.tolerance = false := fun no => Bool.eq_false_iff.mpr (mt withinNear.mp no)
  have raised : raises = true ↔ overruns := by
    by_cases measured : measuring
    · rw [(judged (measures.mpr measured)).raised, goingV, overrun]
      by_cases some : activated.isSome
      · have none : going = none := if_pos some
        constructor
        · rintro ⟨-, -, x, found, -⟩
          exact absurd (none.symm.trans found) (Option.some_ne_none x).symm
        · rintro ⟨-, -, -, x, found, -⟩
          exact absurd (none.symm.trans found) (Option.some_ne_none x).symm
      · rw [if_neg some]
        exact ⟨fun ⟨out, rest⟩ => ⟨measured, fun h => absurd (out.symm.trans (withinNear.mpr h)) Bool.false_ne_true, rest⟩,
          fun ⟨_, out, rest⟩ => ⟨far out, rest⟩⟩
    · rw [(nominal (mt measures.mp measured)).2.2]
      exact ⟨fun h => absurd h Bool.false_ne_true, fun h => absurd h.1 measured⟩
  have wholeU : u =
      { s with
        coord :=
          { s.coord with
            state := u.coord.state, cause := u.coord.cause, active := some a, staged := s.stillStaged, finalMark := false
            transition := u.coord.transition, measure := u.coord.measure, overrunRaised := u.coord.overrunRaised
            figures := some f, length := f.length, position := 0 }
        seq := u.seq, bank := u.bank, store := u.store, faults := u.faults, port := u.port, instants.cycleEnd := false } := by
    rw [begun.whole, wholeW, whole]
    rfl
  have coordU : u.coord.state = w.coord.state ∧ u.coord.transition = w.coord.transition ∧ u.coord.measure = w.coord.measure
      ∧ u.coord.overrunRaised = w.coord.overrunRaised ∧ u.faults = w.faults := by
    rw [begun.whole]
    exact ⟨rfl, rfl, rfl, rfl, rfl⟩
  obtain ⟨stateU, transitionU, measureU, overrunU, faultsU⟩ := coordU
  have untouched : ¬ (measuring ∧ near) → w.coord.overrunRaised = v.coord.overrunRaised ∧ w.faults = v.faults := by
    intro no
    by_cases measured : measuring
    · exact (judged (measures.mpr measured)).far (far fun h => no ⟨measured, h⟩)
    · rw [(nominal (mt measures.mp measured)).1]
      exact ⟨rfl, rfl⟩
  refine ⟨raiseOverrun raises u, u, f, work, fun no => if_neg (mt raised.mp no), fun yes => ?_,
    fun gone => ?_, fun stays => ?_, ?_⟩
  · have raise_eq : raiseOverrun raises u = raise .transitionOverrun none { u with coord.overrunRaised := true } :=
      if_pos (raised.mpr yes)
    refine ⟨raise_eq, fun report => ?_⟩
    obtain ⟨-, faultsW⟩ := untouched fun h => yes.2.1 h.2
    have configU : u.port.config = s.port.config := begun.config.trans (configW.trans config)
    have settledU : u.Settled := by
      unfold State.Settled at settled ⊢
      rw [faultsU, faultsW, begun.config, configW]
      exact settled
    obtain ⟨only, record, -⟩ := raise_report .transitionOverrun none { u with coord.overrunRaised := true } settledU
      (begun.part.trans (partW.trans (part.trans running))) (by rw [show _ = s.port.config from configU]; exact report)
    rw [raise_eq]
    exact ⟨only, record⟩
  · rw [overrunU, faultsU]
    by_cases nearing : measuring ∧ near
    · obtain ⟨-, -, -, low, lifts, keeps⟩ := (judged (measures.mpr nearing.1)).near (withinNear.mpr nearing.2)
      refine ⟨low, fun raisedBefore => ?_⟩
      by_cases some : activated.isSome
      · rw [keeps (by rw [overrun, if_pos some])]
        exact lifted some raisedBefore
      · exact lifts (by rw [overrun, if_neg some]; exact raisedBefore)
    · have some : activated.isSome = true := gone.resolve_right nearing
      obtain ⟨overrunW, faultsW⟩ := untouched nearing
      rw [overrunW, faultsW, overrun, if_pos some]
      exact ⟨rfl, lifted some⟩
  · obtain ⟨overrunW, faultsW⟩ := untouched fun h => stays (.inr h)
    have none : ¬ activated.isSome = true := fun h => stays (.inl h)
    rw [overrunU, faultsU, overrunW, faultsW, overrun, if_neg none]
    exact ⟨rfl, kept none⟩
  · refine ⟨by rw [wholeU], by rw [wholeU], by rw [wholeU], by rw [wholeU], by rw [wholeU]; rfl, fun some => ?_, by rw [wholeU],
      begun.figures, by rw [wholeU], begun.served, ?_, fun isolated => ?_, fun measured => ?_, by rw [wholeU], by rw [wholeU],
      by rw [wholeU], by rw [wholeU], by rw [wholeU], fun n => ?_⟩
    · rw [begun.whole, wholeW]
      exact slot some
    · obtain ⟨run, latches, trailing, bank⟩ := begun.green
      rw [wholeW, whole] at latches trailing bank
      exact ⟨run, latches, trailing, bank⟩
    · have notMeasuring : ¬ measuring := by
        rintro (h | h) <;> exact absurd (isolated.symm.trans h) (by decide)
      obtain ⟨wv, nominalF, -⟩ := nominal (mt measures.mp notMeasuring)
      rw [stateU, measureU, wv, state]
      exact ⟨isolated, by rw [whole], nominalF⟩
    · obtain ⟨wholeJ, -, -, -, -, nears, -, begins, goes⟩ := judged (measures.mpr measured)
      rw [stateU, measureU, transitionU]
      rw [goingV] at begins goes
      rw [state] at goes
      refine ⟨by rw [wholeJ], fun h => ?_, fun h quiet => begins (far h) quiet, fun h x found => goes (far h) x found⟩
      obtain ⟨coordinated, empty, nominalF, -⟩ := nears (withinNear.mpr h)
      exact ⟨coordinated, empty, nominalF⟩
    · rw [begun.whole, wholeW]
      exact plans n

end

section
/-! An adoption request (R84, R85, R87, R162): what an adoption put forward leaves, and a resume override cleared after it. -/

set_option Elab.async false

namespace Sys2Proof.Machine

/-! ### An adoption put forward -/

theorem putForward_eq (a : Adoption) (s : State) :
    putForward a s =
      { s with coord := (putForward a s).coord, store := (putForward a s).store, port := (putForward a s).port } := by
  unfold putForward
  split
  · split <;> rfl
  · split
    · rfl
    · split
      · rfl
      · rw [post_eq]

theorem putForward_coord (a : Adoption) (s : State) :
    (putForward a s).coord =
      { s.coord with staged := (putForward a s).coord.staged, requested := (putForward a s).coord.requested } := by
  unfold putForward
  split
  · split <;> rfl
  · split
    · rfl
    · split
      · rfl
      · rw [post_coord]

/-- The refusal alone posts a report. -/
theorem putForward_length (a : Adoption) (s : State) :
    (putForward a s).port.reports.length ≤ s.port.reports.length + 1 := by
  unfold putForward
  split
  · split <;> exact Nat.le_succ _
  · split
    · exact Nat.le_succ _
    · split
      · exact Nat.le_succ _
      · exact post_length _ _

theorem putForward_putForward (a : Adoption) {s : State} (sound : s.store.Sound) : PutForward s s.coord a (putForward a s) := by
  have new : s.coord.active ≠ some a → s.coord.staged.map StagedAdoption.adoption ≠ some a →
      putForward a s =
        match s.store.stage a.plan with
        | some store => { s with store := store, coord.staged := some { adoption := a, wait := s.waitCount } }
        | none => post (.adoptionFailed a.plan .stage) { s with coord.requested := none } := fun active staged =>
    (if_neg active).trans (if_neg staged)
  refine ⟨fun active => ?_, fun active staged => ?_, fun active staged filled => ?_, fun active staged empty => ?_⟩
  · have taken : putForward a s = emptyStaged s := if_pos active
    rw [taken]
    refine ⟨congrArg State.coord (emptyStaged_eq s).1, fun some n => ?_⟩
    have emptied : emptyStaged s = { s with coord.staged := none, store := s.store.clearStaged } := if_pos some
    rw [emptied]
    show (s.store.clearStaged.slot n).state = _
    rw [slot_clearStaged]
    exact apply_ite Slot.state _ _ _
  · exact congrArg State.coord ((if_neg active).trans (if_pos staged))
  · obtain ⟨store, granted⟩ := stage_some filled
    rw [new active staged, granted]
    exact ⟨rfl, stage_state_same granted, fun n other => stage_state_other sound granted other⟩
  · rw [new active staged, stage_none empty]
    refine ⟨post_coord _ _, fun room => ?_⟩
    rw [post_room _ _ (by show s.port.reports.length < 32; omega)]
    exact List.mem_append_right _ List.mem_cons_self

/-- Slots and reports alone are looked at before it. -/
theorem PutForward.of_coord {s t : State} {c d : Coordinator} {a : Adoption} (h : PutForward { s with coord := d } c a t) :
    PutForward s c a t :=
  ⟨h.same, h.held, h.granted, h.refused⟩

/-! ### The override cleared after it -/

/-- The slot of a plan is STAGED and the Coordinator does not hold that adoption. -/
def Orphaned (plan : Nat) (s : State) : Prop :=
  (s.slot plan).state = .staged ∧ (s.coord.staged.map fun x => x.adoption.plan) ≠ some plan

theorem unstageOrphan_orphaned {plan : Nat} {s : State} (orphaned : Orphaned plan s) :
    unstageOrphan plan s = { s with store := s.store.clearStaged } :=
  if_pos orphaned

theorem unstageOrphan_held {plan : Nat} {s : State} (held : ¬ Orphaned plan s) : unstageOrphan plan s = s := if_neg held

theorem returned_ne_staged (x : SlotState) : (if x = .staged then SlotState.stored else x) ≠ .staged := by
  split
  · decide
  · assumption

/-- Afterwards the slot is STAGED only for the Coordinator's own adoption (R162). -/
theorem unstageOrphan_staged {plan : Nat} {s : State} (staged : ((unstageOrphan plan s).slot plan).state = .staged) :
    ((unstageOrphan plan s).coord.staged.map fun x => x.adoption.plan) = some plan := by
  by_cases orphaned : Orphaned plan s
  · rw [unstageOrphan_orphaned orphaned] at staged
    have returned : (s.store.clearStaged.slot plan).state = .staged := staged
    rw [slot_clearStaged, apply_ite Slot.state] at returned
    exact absurd returned (returned_ne_staged _)
  · rw [unstageOrphan_held orphaned] at staged ⊢
    by_contra other
    exact orphaned ⟨staged, other⟩

/-- An adoption put forward leaves no slot orphaned: where it stages, what was STAGED before returns to STORED. -/
theorem PutForward.unstageOrphan {s t u : State} {c : Coordinator} {a : Adoption} (forward : PutForward s c a t) (plan : Nat)
    (coord : u.coord = t.coord) (slots : u.slot = t.slot) (reports : Posts t u) :
    PutForward s c a (Machine.unstageOrphan plan u) := by
  have same : (Machine.unstageOrphan plan u).coord = t.coord := (unstageOrphan_coord plan u).trans coord
  have later : Posts t (Machine.unstageOrphan plan u) := reports.trans (posts_unstageOrphan plan u)
  obtain ⟨active, standing, granted, refused⟩ := forward
  have stays : ¬ Orphaned plan u → ∀ n, (Machine.unstageOrphan plan u).slot n = t.slot n := fun held n => by
    rw [unstageOrphan_held held, slots]
  refine ⟨fun h => ?_, fun h k => same.trans (standing h k), fun h k filled => ?_, fun h k empty => ?_⟩
  · obtain ⟨left, returned⟩ := active h
    refine ⟨same.trans left, fun some n => ?_⟩
    have held : ¬ Orphaned plan u := fun ⟨staged, _⟩ => by
      rw [slots, returned some plan] at staged
      exact returned_ne_staged _ staged
    rw [stays held]
    exact returned some n
  · obtain ⟨left, own, others⟩ := granted h k filled
    have held : ¬ Orphaned plan u := fun ⟨staged, notHeld⟩ => by
      by_cases own : plan = a.plan
      · rw [coord, left, own] at notHeld
        exact notHeld rfl
      · rw [slots, others plan own] at staged
        exact returned_ne_staged _ staged
    refine ⟨same.trans left, ?_, fun n other => ?_⟩
    · rw [stays held]
      exact own
    · rw [stays held]
      exact others n other
  · obtain ⟨left, report⟩ := refused h k empty
    exact ⟨same.trans left, fun room => later.reports.subset (report room)⟩

/-- The override cleared (R162). -/
theorem clearOverride_eq {s : State} {r : SaveRecord} {o : Override} (save : s.preempt.save = some r)
    (override : r.override = some o) :
    clearOverride s =
      unstageOrphan o.adoption.plan
        (post (.overrideCleared o.adoption.plan) { s with preempt.save := some { r with override := none } }) := by
  unfold clearOverride
  rw [save]
  dsimp only
  rw [override]

theorem clearOverride_none {s : State} (override : s.preempt.save.bind SaveRecord.override = none) : clearOverride s = s := by
  unfold clearOverride
  split
  · rfl
  · rename_i r save
    have absent : r.override = none := by simpa [save] using override
    rw [absent]

/-- An adoption request before the override: the requested record taken, and the adoption put forward where the fallback mark is
clear (R84, R162). -/
def requestTaken (a : Adoption) (s : State) : State :=
  if s.coord.fallbackMark then { s with coord.requested := some a } else putForward a { s with coord.requested := some a }

theorem requestTaken_eq (a : Adoption) (s : State) :
    requestTaken a s =
        { s with coord := (requestTaken a s).coord, store := (requestTaken a s).store, port := (requestTaken a s).port }
      ∧ (requestTaken a s).coord.state = s.coord.state ∧ (requestTaken a s).coord.cause = s.coord.cause
      ∧ (requestTaken a s).port.reports.length ≤ s.port.reports.length + 1 := by
  unfold requestTaken
  split
  · exact ⟨rfl, rfl, rfl, Nat.le_succ _⟩
  · refine ⟨?_, ?_, ?_, putForward_length a _⟩
    · rw [putForward_eq]
    · rw [putForward_coord]
    · rw [putForward_coord]

/-- The Coordinator is SUSPENDED for a preemption (R99). -/
def State.preempted (s : State) : Prop := s.coord.state = .suspended ∧ s.coord.cause = some .preemption

theorem adoptionRequest_preempted {a : Adoption} {s : State} (preempted : s.preempted) :
    adoptionRequest a s = clearOverride (requestTaken a s) := by
  obtain ⟨-, state, cause, -⟩ := requestTaken_eq a s
  exact if_pos ⟨state.trans preempted.1, cause.trans preempted.2⟩

theorem adoptionRequest_taken {a : Adoption} {s : State}
    (plain : ¬ s.preempted ∨ s.preempt.save.bind SaveRecord.override = none) : adoptionRequest a s = requestTaken a s := by
  obtain ⟨whole, state, cause, -⟩ := requestTaken_eq a s
  by_cases preempted : s.preempted
  · have absent := plain.resolve_left (not_not.mpr preempted)
    rw [adoptionRequest_preempted preempted, clearOverride_none]
    rw [whole]
    exact absent
  · refine if_neg fun h => preempted ⟨state.symm.trans h.1, cause.symm.trans h.2⟩

end Sys2Proof.Machine

open Sys2Proof Sys2Proof.Machine

/-- Settles O34: the request taken, and where the Coordinator is SUSPENDED for a preemption the override cleared after it. -/
theorem adoptionRequestsAreStaged : Obligations.AdoptionRequestsAreStaged := by
  intro a s inv t c preempted override
  obtain ⟨whole, -, -, length⟩ := requestTaken_eq a s
  have forward : s.coord.fallbackMark = false → PutForward s c a (requestTaken a s) := by
    intro clear
    rw [requestTaken, if_neg (by simp [clear])]
    exact (putForward_putForward a (s := { s with coord.requested := some a }) inv.store).of_coord
  have marked : s.coord.fallbackMark = true → (requestTaken a s).coord = c := by
    intro mark
    rw [requestTaken, if_pos mark]
  have kept : Kept s t := (delivers_adoptionRequest a s).kept
  by_cases plain : ¬ preempted ∨ override = none
  · have taken : t = requestTaken a s := adoptionRequest_taken plain
    rw [taken] at kept ⊢
    refine ⟨forward, marked, fun _ => by rw [whole], fun yes r o save some => ?_, kept, by rw [whole], by rw [whole],
      by rw [whole], by rw [whole], by rw [whole]⟩
    rcases plain with no | none
    · exact absurd yes no
    · simp [override, save, some] at none
  · obtain ⟨suspended, present⟩ := not_or.mp plain
    obtain ⟨r, save, o, given⟩ : ∃ r, s.preempt.save = some r ∧ ∃ o, r.override = some o := by
      obtain ⟨o, found⟩ := Option.ne_none_iff_exists'.mp present
      obtain ⟨r, save, given⟩ := Option.bind_eq_some_iff.mp found
      exact ⟨r, save, o, given⟩
    have saved : (requestTaken a s).preempt.save = some r := by rw [whole]; exact save
    have cleared : t = _ := (adoptionRequest_preempted (not_not.mp suspended)).trans (clearOverride_eq saved given)
    generalize requestTaken a s = v at *
    obtain ⟨u, posted⟩ : ∃ u, u = post (.overrideCleared o.adoption.plan)
      { v with preempt.save := some { r with override := none } } := ⟨_, rfl⟩
    have later : Posts v u := by
      rw [posted]
      exact (posts_post _ _).upon
    have coord : u.coord = v.coord := by rw [posted, post_coord]
    have slots : u.slot = v.slot := by rw [posted, post_slot]; rfl
    have reported : s.port.reports.length + 2 < 32 →
        { time := s.clock.reading, body := .overrideCleared o.adoption.plan } ∈ u.port.reports := fun room => by
      rw [posted, post_room _ _ (by show v.port.reports.length < 32; omega), whole]
      exact List.mem_append_right _ List.mem_cons_self
    rw [← posted] at cleared
    have wholeU : u =
        { s with coord := u.coord, store := u.store, port := u.port, preempt.save := some { r with override := none } } := by
      rw [posted, post_port_eq, whole]
    have wholeT : t = { u with store := t.store } := by
      rw [cleared]
      unfold unstageOrphan
      split <;> rfl
    have staged : (t.slot o.adoption.plan).state = .staged →
        (t.coord.staged.map fun x => x.adoption.plan) = some o.adoption.plan := by
      rw [cleared]
      exact unstageOrphan_staged
    refine ⟨fun clear => ?_, fun mark => ?_, fun no => absurd no plain, fun _ r' o' save' given' => ?_, kept, ?_, ?_, ?_, ?_, ?_⟩
    · rw [cleared]
      exact (forward clear).unstageOrphan _ coord slots later
    · rw [cleared, unstageOrphan_coord, coord]
      exact marked mark
    · obtain rfl : r = r' := Option.some.inj (save.symm.trans save')
      obtain rfl : o = o' := Option.some.inj (given.symm.trans given')
      refine ⟨?_, fun room => ?_, staged⟩
      · rw [wholeT, wholeU]
      · rw [wholeT]
        exact reported room
    all_goals rw [wholeT, wholeU]

end

section
/-! ISOLATED and the fallback mark (R83, R95, R99, R100, R103, R105): what the delivery of an effective action does to the
Coordinator. -/

set_option Elab.async false

namespace Sys2Proof.Machine

/-! ### A transition emptied -/

/-- The transition record emptied, and TRANSITION_OVERRUN withdrawn with it (R95). -/
structure Emptied (s t : State) : Prop where
  whole : t = { s with coord := { s.coord with transition := none, overrunRaised := false }, faults := t.faults, port := t.port }
  effective : t.faults.effective = s.faults.effective
  config : t.port.config = s.port.config
  withdrawn : s.coord.overrunRaised = true → (t.faults.record .transitionOverrun).state ≠ .active

theorem emptyTransition_emptied (s : State) : Emptied s (emptyTransition s) := by
  cases raised : s.coord.overrunRaised with
  | false =>
    have empty : emptyTransition s = { s with coord.transition := none } := if_neg (by simp [raised])
    rw [empty]
    refine ⟨?_, rfl, rfl, fun h => absurd (raised.symm.trans h) Bool.false_ne_true⟩
    rw [← raised]
  | true =>
    have empty : emptyTransition s =
        withdrawRecord .transitionOverrun { s with coord.transition := none, coord.overrunRaised := false } := if_pos raised
    obtain ⟨whole, effective, -, config, record⟩ :=
      withdrawRecord_leaves .transitionOverrun { s with coord.transition := none, coord.overrunRaised := false }
    rw [empty]
    exact ⟨whole, effective, config, fun _ => record⟩

/-! ### The change of isolation -/

theorem isolating_iff (s : State) :
    s.isolating = true ↔ s.clock.state = .alone ∨ s.faults.effective = .isolate ∨ s.faults.effective = .fallback := by
  simp [State.isolating, or_assoc]

section
variable {s : State}

theorem isolationChange_isolates (measuring : s.measuring) (isolating : s.isolating = true) :
    isolationChange s = emptyTransition (setCoord .isolated none s) := by
  unfold isolationChange
  rcases measuring with state | state <;> rw [state] <;> exact if_pos isolating

theorem isolationChange_ends (isolated : s.coord.state = .isolated) (none : s.isolating = false) :
    isolationChange s = { setCoord .correcting Option.none s with coord.transition := some pendingTransition } := by
  unfold isolationChange
  rw [isolated]
  exact if_neg (by simp [none])

theorem isolationChange_ended (isolated : s.coord.state = .isolated) (none : s.isolating = false) :
    isolationChange s = { s with coord := (isolationChange s).coord, port := (isolationChange s).port }
      ∧ (isolationChange s).coord =
        { s.coord with state := .correcting, cause := Option.none, transition := some pendingTransition } := by
  rw [isolationChange_ends isolated none, setCoord_eq]
  exact ⟨rfl, rfl⟩

theorem isolationChange_stays (begins : ¬ (s.measuring ∧ s.isolating = true))
    (ends : ¬ (s.coord.state = .isolated ∧ s.isolating = false)) : isolationChange s = s := by
  unfold isolationChange
  split
  · rename_i state
    exact if_neg fun h => begins ⟨.inl state, h⟩
  · rename_i state
    exact if_neg fun h => begins ⟨.inr state, h⟩
  · rename_i state
    exact if_pos (Bool.not_eq_false _ ▸ fun h => ends ⟨state, h⟩)
  · rfl
  · rfl

/-- A running cycle becomes ISOLATED (R83). -/
structure Isolated (s t : State) : Prop where
  whole : t =
    { s with
      coord := { s.coord with state := .isolated, cause := none, transition := none, overrunRaised := false }
      faults := t.faults, port := t.port }
  effective : t.faults.effective = s.faults.effective
  withdrawn : s.coord.overrunRaised = true → (t.faults.record .transitionOverrun).state ≠ .active

theorem isolationChange_isolated (measuring : s.measuring) (isolating : s.isolating = true) : Isolated s (isolationChange s) := by
  rw [isolationChange_isolates measuring isolating]
  have set := setCoord_eq .isolated none s
  generalize setCoord .isolated none s = v at *
  obtain ⟨whole, effective, -, withdrawn⟩ := emptyTransition_emptied v
  generalize emptyTransition v = t at *
  refine ⟨?_, ?_, fun raised => withdrawn ?_⟩
  · rw [whole, set]
  · rw [effective, set]
  · rw [set]
    exact raised

/-- What every change of isolation leaves. -/
theorem isolationChange_leaves (s : State) :
    (isolationChange s).store = s.store ∧ (isolationChange s).coord.fallbackMark = s.coord.fallbackMark
      ∧ (isolationChange s).coord.requested = s.coord.requested := by
  by_cases begins : s.measuring ∧ s.isolating = true
  · rw [(isolationChange_isolated begins.1 begins.2).whole]
    exact ⟨rfl, rfl, rfl⟩
  · by_cases ends : s.coord.state = .isolated ∧ s.isolating = false
    · rw [isolationChange_ends ends.1 ends.2, setCoord_eq]
      exact ⟨rfl, rfl, rfl⟩
    · rw [isolationChange_stays begins ends]
      exact ⟨rfl, rfl, rfl⟩

/-! ### The fallback mark -/

theorem clearFallback_unmarked (mark : s.coord.fallbackMark = false) : clearFallback s = s := if_neg (by simp [mark])

theorem clearFallback_requested {a : Adoption} (mark : s.coord.fallbackMark = true) (requested : s.coord.requested = some a) :
    clearFallback s = putForward a { s with coord.fallbackMark := false } := by
  unfold clearFallback
  rw [if_pos mark]
  dsimp only
  rw [requested]

theorem clearFallback_none (mark : s.coord.fallbackMark = true) (requested : s.coord.requested = none) :
    clearFallback s = emptyStaged { s with coord.fallbackMark := false } := by
  unfold clearFallback
  rw [if_pos mark]
  dsimp only
  rw [requested]
  rfl

/-- The staged adoption emptied, its slot returned to STORED (R84, R35). -/
theorem emptyStaged_unstaged (s : State) : Unstaged s s.coord (emptyStaged s) := by
  refine ⟨congrArg State.coord (emptyStaged_eq s).1, fun some n => ?_⟩
  have emptied : emptyStaged s = { s with coord.staged := none, store := s.store.clearStaged } := if_pos some
  rw [emptied]
  show (s.store.clearStaged.slot n).state = _
  rw [slot_clearStaged]
  exact apply_ite Slot.state _ _ _

end

/-! ### The effective action -/

section
variable {α : Type} {g : α → FaultAction}

theorem worse_eq_report {a b : FaultAction} : a.worse b = .report ↔ a = .report ∧ b = .report := by
  cases a <;> cases b <;> simp [FaultAction.worse, FaultAction.severity]

/-- The worst of actions is REPORT where all of them are. -/
theorem foldl_worse_report {l : List α} {a : FaultAction} (h : l.foldl (fun a c => a.worse (g c)) a = .report) :
    a = .report ∧ ∀ c ∈ l, g c = .report := by
  induction l generalizing a with
  | nil => exact ⟨h, fun c mem => absurd mem List.not_mem_nil⟩
  | cons x rest ih =>
    obtain ⟨first, others⟩ := ih h
    obtain ⟨start, one⟩ := worse_eq_report.mp first
    exact ⟨start, List.forall_mem_cons.mpr ⟨one, others⟩⟩

theorem worse_mild {a b : FaultAction} (ha : a = .report ∨ a = .isolate) (hb : b = .report ∨ b = .isolate) :
    (a.worse b = .report ∨ a.worse b = .isolate) ∧ (a = .isolate ∨ b = .isolate → a.worse b = .isolate) := by
  rcases ha with rfl | rfl <;> rcases hb with rfl | rfl <;> simp [FaultAction.worse, FaultAction.severity]

/-- The worst of actions that are REPORT or ISOLATE is ISOLATE where one of them is. -/
theorem foldl_worse_isolate {l : List α} {a : FaultAction} (start : a = .report ∨ a = .isolate)
    (mild : ∀ c ∈ l, g c = .report ∨ g c = .isolate) (one : a = .isolate ∨ ∃ c ∈ l, g c = .isolate) :
    l.foldl (fun a c => a.worse (g c)) a = .isolate := by
  induction l generalizing a with
  | nil => exact one.resolve_right fun ⟨c, mem, _⟩ => absurd mem List.not_mem_nil
  | cons x rest ih =>
    obtain ⟨first, others⟩ := List.forall_mem_cons.mp mild
    obtain ⟨next, isolate⟩ := worse_mild start first
    refine ih next others ?_
    rcases one with same | ⟨c, mem, at_c⟩
    · exact .inl (isolate (.inl same))
    · rcases List.mem_cons.mp mem with rfl | later
      · exact .inl (isolate (.inr at_c))
      · exact .inr ⟨c, later, at_c⟩

end

theorem mem_classes (c : FaultClass) : c ∈ allClasses := by cases c <;> simp [allClasses]

theorem contribution_report {config : Option ConfigRecord} {f : FaultUnit} (h : mostSevere config f = .report) (c : FaultClass) :
    contribution config f c = .report :=
  (foldl_worse_report h).2 c (mem_classes c)

/-- One record that calls for ISOLATE among records that call for no more makes it the effective action (R172). -/
theorem mostSevere_isolate {config : Option ConfigRecord} {f : FaultUnit} {c : FaultClass}
    (mild : ∀ k, contribution config f k = .report ∨ contribution config f k = .isolate)
    (one : contribution config f c = .isolate) : mostSevere config f = .isolate :=
  foldl_worse_isolate (.inl rfl) (fun k _ => mild k) (.inr ⟨c, mem_classes c, one⟩)

/-- A withdrawal leaves what a record calls for, or takes it away (R171). -/
theorem contribution_withdrawRecord (c : FaultClass) (s : State) (k : FaultClass) :
    contribution s.port.config (withdrawRecord c s).faults k = contribution s.port.config s.faults k
      ∨ contribution s.port.config (withdrawRecord c s).faults k = .report := by
  unfold withdrawRecord
  dsimp only
  split
  · exact .inl rfl
  · exact .inl rfl
  · rename_i active
    rw [post_faults]
    unfold contribution
    rw [record_setRecord]
    by_cases own : k = c
    · subst own
      rw [if_pos rfl, active]
      dsimp only
      split <;> simp
    · rw [if_neg own]
      exact .inl rfl

theorem contribution_emptyTransition (s : State) (k : FaultClass) :
    contribution s.port.config (emptyTransition s).faults k = contribution s.port.config s.faults k
      ∨ contribution s.port.config (emptyTransition s).faults k = .report := by
  unfold emptyTransition
  dsimp only
  split
  · exact contribution_withdrawRecord .transitionOverrun { s with coord.transition := none, coord.overrunRaised := false } k
  · exact .inl rfl

/-! ### A raising that isolates -/

/-- A raising makes the record ACTIVE (R170). -/
theorem raiseRecord_faults {s : State} (c : FaultClass) (detail : Option Nat) (running : s.port.part = .running) :
    ∃ r, (raiseRecord c detail s).faults = s.faults.setRecord c r ∧ r.state = .active := by
  have run : s.running = true := by simp [State.running, running]
  unfold raiseRecord
  dsimp only
  rw [if_pos run]
  split
  · rename_i active
    exact ⟨_, rfl, active⟩
  all_goals exact ⟨_, post_faults _ _, rfl⟩

/-- ISOLATE delivered to a running cycle: it is ISOLATED, and no record calls for more than before. -/
structure IsolateDelivered (y z : State) : Prop where
  state : z.coord.state = .isolated
  transition : z.coord.transition = none
  effective : z.faults.effective = y.faults.effective
  config : z.port.config = y.port.config
  records : ∀ c, c ≠ .transitionOverrun → z.faults.record c = y.faults.record c
  milder : ∀ k, contribution y.port.config z.faults k = contribution y.port.config y.faults k
    ∨ contribution y.port.config z.faults k = .report

theorem clearFallback_cycle (s : State) :
    (clearFallback s).coord.state = s.coord.state ∧ (clearFallback s).coord.transition = s.coord.transition := by
  cases mark : s.coord.fallbackMark with
  | false =>
    rw [clearFallback_unmarked mark]
    exact ⟨rfl, rfl⟩
  | true =>
    cases requested : s.coord.requested with
    | some a =>
      rw [clearFallback_requested mark requested, putForward_coord]
      exact ⟨rfl, rfl⟩
    | none =>
      rw [clearFallback_none mark requested, (emptyStaged_eq _).1]
      exact ⟨rfl, rfl⟩

theorem deliver_isolate {y : State} (measuring : y.measuring) (effective : y.faults.effective = .isolate)
    (running : y.port.part = .running) :
    IsolateDelivered y (deliverSequencer .isolate (deliverCoordinator .isolate y)) := by
  have isolating : y.isolating = true := (isolating_iff y).mpr (.inr (.inl effective))
  have isolated := isolationChange_isolated measuring isolating
  have settles := settles_isolationChange (cs := [.transitionOverrun]) y List.mem_cons_self
  have config : (isolationChange y).port.config = y.port.config := (delivers_isolationChange y).kept.config
  have milder : ∀ k, contribution y.port.config (isolationChange y).faults k = contribution y.port.config y.faults k
      ∨ contribution y.port.config (isolationChange y).faults k = .report := by
    intro k
    have emptied := contribution_emptyTransition (setCoord .isolated none y) k
    rw [setCoord_config, setCoord_faults] at emptied
    rw [isolationChange_isolates measuring isolating]
    exact emptied
  have cleared := clearFallback_cycle (isolationChange y)
  have delivered : deliverCoordinator .isolate y = clearFallback (isolationChange y) := rfl
  have part : (clearFallback (isolationChange y)).port.part = .running :=
    ((delivers_clearFallback _).kept.part.trans (delivers_isolationChange y).kept.part).trans running
  rw [delivered, deliverSequencer_other part (by decide)]
  refine ⟨?_, ?_, ?_, ?_, fun c other => ?_, fun k => ?_⟩
  · rw [flashExit_coord, cleared.1, isolated.whole]
  · rw [flashExit_coord, cleared.2, isolated.whole]
  · rw [flashExit_faults, clearFallback_faults, isolated.effective]
  · rw [flashExit_config, clearFallback_config, config]
  · rw [flashExit_faults, clearFallback_faults]
    exact settles.records c (by simpa using other)
  · rw [flashExit_faults, clearFallback_faults]
    exact milder k

/-- A raising whose class is configured ISOLATE, where nothing calls for more than REPORT, isolates a running cycle (R83). -/
theorem raise_isolates {s : State} {c : FaultClass} (detail : Option Nat) (settled : s.Settled) (running : s.port.part = .running)
    (report : s.faults.effective = .report) (measuring : s.measuring) (action : actionOf s.port.config c = some .isolate)
    (other : c ≠ .transitionOverrun) :
    (raise c detail s).faults.effective = .isolate ∧ (raise c detail s).coord.state = .isolated
      ∧ (raise c detail s).coord.transition = none := by
  have before : ∀ k, contribution s.port.config s.faults k = .report := contribution_report (settled.symm.trans report)
  obtain ⟨r, faults, active⟩ := raiseRecord_faults c detail running
  obtain ⟨whole, same, part, config, -⟩ := raiseRecord_leaves c detail s
  unfold raise
  generalize raiseRecord c detail s = x at *
  have own : contribution x.port.config x.faults c = .isolate := by
    rw [contribution, faults, record_setRecord, if_pos rfl, active, config, action]
    rfl
  have mild : ∀ k, contribution x.port.config x.faults k = .report ∨ contribution x.port.config x.faults k = .isolate := by
    intro k
    by_cases at_c : k = c
    · rw [at_c]
      exact .inr own
    · have kept := before k
      rw [contribution] at kept ⊢
      rw [faults, record_setRecord, if_neg at_c, config]
      exact .inl kept
  have severe : mostSevere x.port.config x.faults = .isolate := mostSevere_isolate mild own
  have new : FaultAction.isolate ≠ x.faults.effective := by
    rw [same, report]
    decide
  have cycle : (x.acting .isolate c).measuring := by
    rw [State.measuring, State.acting, post_coord, whole]
    exact measuring
  have delivered := deliver_isolate (y := x.acting .isolate c) cycle (by rw [State.acting, post_faults])
    (by rw [State.acting, post_port_part]; exact part.trans running)
  have taken : settleAction actionFuel c x =
      settleAction 3 .transitionOverrun (deliverSequencer .isolate (deliverCoordinator .isolate (x.acting .isolate c))) := by
    rw [show actionFuel = 3 + 1 from rfl]
    unfold settleAction
    simp only [severe, new, if_false]
    rfl
  rw [taken]
  generalize deliverSequencer .isolate (deliverCoordinator .isolate (x.acting .isolate c)) = z at *
  obtain ⟨state, transition, effective, configZ, records, milder⟩ := delivered
  have configY : (x.acting .isolate c).port.config = x.port.config := by rw [State.acting, post_port_config]
  have recordY : ∀ k, (x.acting .isolate c).faults.record k = x.faults.record k := fun k => by
    rw [State.acting, post_faults]
    rfl
  have actingY : ∀ k, contribution x.port.config (x.acting .isolate c).faults k = contribution x.port.config x.faults k :=
    fun k => by rw [contribution, contribution, recordY]
  have isolate : z.faults.effective = .isolate := by rw [effective, State.acting, post_faults]
  have severeZ : mostSevere z.port.config z.faults = .isolate := by
    rw [configZ, configY]
    refine mostSevere_isolate (c := c) (fun k => ?_) ?_
    · have milder := milder k
      rw [configY, actingY] at milder
      rcases milder with kept | gone
      · rw [kept]
        exact mild k
      · exact .inl gone
    · rw [contribution, records c other, recordY]
      exact own
  rw [settleAction_settled _ _ _ (isolate.trans severeZ.symm)]
  exact ⟨isolate, state, transition⟩

/-! ### The round that ends the isolation -/

/-- With no neighbour that has the time an ALONE station stays so, or begins the time as the lowest of its line (R10). -/
theorem aloneRound_alone {s : State} (alone : ∀ n ∈ s.clock.neighbours, n.clockState = .alone) :
    aloneRound s = s ∨ aloneRound s = setClockState .tracking s := by
  have untimed : ((s.clock.neighbours.filter Neighbour.fresh).filter fun n => decide (n.clockState ≠ .alone)).isEmpty = true := by
    rw [List.isEmpty_iff, List.filter_eq_nil_iff]
    intro n mem
    simp [alone n (List.mem_filter.mp mem).1]
  unfold aloneRound
  dsimp only
  rw [if_pos untimed]
  split
  · exact .inl rfl
  · split
    · exact .inr rfl
    · exact .inl rfl

theorem ageNeighbours_alone {l : List Neighbour} (alone : ∀ n ∈ l, n.clockState = .alone) :
    ∀ n ∈ ageNeighbours l, n.clockState = .alone := by
  intro n mem
  obtain ⟨old, at_old, rfl⟩ := List.mem_map.mp (List.mem_filter.mp mem).1
  exact alone old at_old

/-- TRACKING entered out of ALONE ends the isolation of a cycle that nothing else isolates (R83). -/
theorem setClockState_ends {s : State} (settled : s.Settled) (alone : s.clock.state = .alone) (isolated : s.coord.state = .isolated)
    (notIsolate : s.faults.effective ≠ .isolate) (notFallback : s.faults.effective ≠ .fallback) :
    (setClockState .tracking s).clock.state = .tracking
      ∧ (setClockState .tracking s).coord =
        { s.coord with state := .correcting, cause := none, transition := some pendingTransition } := by
  obtain ⟨x, tracked⟩ : ∃ x, x = post (.clockState s.clock.state .tracking) { s with clock.state := .tracking } := ⟨_, rfl⟩
  have set : setClockState .tracking s = settleAction actionFuel .transitionOverrun (isolationChange x) := by
    rw [tracked]
    exact if_neg (by rw [alone]; decide)
  have coord : x.coord = s.coord := by rw [tracked, post_coord]
  have faults : x.faults = s.faults := by rw [tracked, post_faults]
  have config : x.port.config = s.port.config := by rw [tracked, post_port_config]
  have clock : x.clock.state = .tracking := by rw [tracked, post_clock]
  have free : x.isolating = false := by
    rw [← Bool.not_eq_true, isolating_iff, clock, faults]
    simp [notIsolate, notFallback]
  obtain ⟨whole, after⟩ := isolationChange_ended (coord ▸ isolated) free
  have configAfter : (isolationChange x).port.config = s.port.config := (delivers_isolationChange x).kept.config.trans config
  have settledAfter : (isolationChange x).Settled := by
    unfold State.Settled at settled ⊢
    rw [configAfter, whole, faults]
    exact settled
  rw [set, settleAction_settled _ _ _ settledAfter, after, coord]
  exact ⟨by rw [whole]; exact clock, rfl⟩

end Sys2Proof.Machine

open Sys2Proof Sys2Proof.Machine

/-- Settles O35: the change of isolation case by case, then the fallback mark upon it, a suspension, the raising and the round. -/
theorem isolationAndFallbackFollowTheAction : Obligations.IsolationAndFallbackFollowTheAction := by
  intro s isolating measuring pending withdrawn u fallback
  have isolates : s.isolating = true ↔ isolating := isolating_iff s
  have none_iff : s.isolating = false ↔ ¬ isolating := by rw [← isolates, Bool.not_eq_true]
  obtain ⟨store, mark, request⟩ := isolationChange_leaves s
  have cfg : u.cfg = s.cfg := congrArg (·.getD noConfig) (delivers_isolationChange s).kept.config
  have sound : Inv s → u.store.Sound := fun inv => by
    rw [show u.store = s.store from store]
    exact inv.store
  refine ⟨fun measured yes => ?_, fun isolated no => ?_, fun begins ends => ?_, fun action quiet => ?_, fun inv => ?_,
    fun inv marked action lifts => ⟨fun a requested => ?_, fun requested => ?_⟩, fun cause => ?_, ?_, ?_⟩
  · obtain ⟨whole, -, lifted⟩ := isolationChange_isolated measured (isolates.mpr yes)
    refine ⟨by rw [show u = _ from whole], lifted, by rw [show u = _ from whole], by rw [show u = _ from whole], store⟩
  · exact isolationChange_ended isolated (none_iff.mpr no)
  · exact isolationChange_stays (fun h => begins ⟨h.1, isolates.mp h.2⟩) fun h => ends ⟨h.1, none_iff.mp h.2⟩
  · rcases quiet with rfl | ⟨other, unmarked⟩
    · rfl
    · have kept : clearFallback u = u := clearFallback_unmarked (mark.trans unmarked)
      cases action
      · exact kept
      · exact kept
      · exact absurd rfl other
      · rfl
  · have set : deliverCoordinator .fallback s = putForward fallback { u with coord.fallbackMark := true } := by
      show putForward { plan := u.cfg.fallbackPlan, reference := .daily } { u with coord.fallbackMark := true } = _
      rw [cfg]
    rw [set]
    exact (putForward_putForward fallback (s := { u with coord.fallbackMark := true }) (sound inv)).of_coord
  · have lifted : deliverCoordinator action s = clearFallback u := by
      rcases lifts with rfl | rfl <;> rfl
    rw [lifted, clearFallback_requested (mark.trans marked) (request.trans requested)]
    exact (putForward_putForward a (s := { u with coord.fallbackMark := false }) (sound inv)).of_coord
  · have lifted : deliverCoordinator action s = clearFallback u := by
      rcases lifts with rfl | rfl <;> rfl
    rw [lifted, clearFallback_none (mark.trans marked) (request.trans requested)]
    exact emptyStaged_unstaged { u with coord.fallbackMark := false }
  · obtain ⟨whole, -, -, lifted⟩ := emptyTransition_emptied { s with coord.finalMark := false, coord.figures := none }
    have suspended : suspend cause s = _ := setCoord_eq .suspended (some cause)
      (emptyTransition { s with coord.finalMark := false, coord.figures := none })
    generalize emptyTransition { s with coord.finalMark := false, coord.figures := none } = v at *
    refine ⟨?_, fun raised => ?_⟩
    · rw [suspended, whole]
    · rw [suspended]
      exact lifted raised
  · intro inv running report measured c detail action other
    exact raise_isolates detail inv.settled running report measured action other
  · intro inv running round anchored alone neighbours isolated notIsolate notFallback
    refine ⟨_, (exec_round running round).trans (congrArg Host.Outcome.next (takeRound_eq s)), ?_⟩
    have before := beforeDecision_eq s
    generalize beforeDecision s = v at *
    have undecided : v.coord = s.coord ∧ v.clock.state = s.clock.state ∧ v.faults = s.faults ∧ v.port = s.port := by
      rw [before]
      exact ⟨rfl, rfl, rfl, rfl⟩
    obtain ⟨coord, clock, faults, port⟩ := undecided
    have aged : ∀ n ∈ v.clock.neighbours, n.clockState = .alone := by
      intro n mem
      rw [before] at mem
      obtain ⟨old, at_old, rfl⟩ := List.mem_map.mp mem
      exact ageNeighbours_alone neighbours old at_old
    have decision : clockRound v = aloneRound v := by
      have notAnchored : v.cfg.anchored = false := by
        rw [State.cfg, port]
        exact anchored
      unfold clockRound
      rw [if_neg (by simp [notAnchored]), if_pos (clock.trans alone)]
    have same : ∀ w : State, (clearTimeMark w).clock.state = w.clock.state ∧ (clearTimeMark w).coord = w.coord :=
      fun _ => ⟨rfl, rfl⟩
    rw [(same _).1, (same _).2, decision]
    rcases aloneRound_alone aged with stays | begins
    · rw [stays, clock, alone]
      exact ⟨fun h => absurd h (by decide), fun _ => coord⟩
    · obtain ⟨tracking, ended⟩ := setClockState_ends (s := v) (by
        unfold State.Settled
        rw [faults, port]
        exact inv.settled) (clock.trans alone) (coord ▸ isolated) (faults ▸ notIsolate) (faults ▸ notFallback)
      rw [begins, tracking, ended, coord]
      exact ⟨fun _ => rfl, fun h => absurd h (by decide)⟩

end

section
/-! The ends of a clearance (R114, R115, R118, R120): the yellow end, the next green, the end of a trailing yellow. -/

set_option Elab.async false

namespace Sys2Proof.Machine

section
variable {s : State} {r : RunState} {f : Figures} {st : StageRecord} (state : s.seq.state = .run) (run : s.seq.run = some r)
  (figures : s.seq.figures = some f) (stage : s.stageOf f.plan r.stage = some st)

include figures stage in
theorem hasAllRed_eq : s.hasAllRed r = decide (0 < st.allRed) := by
  simp [State.hasAllRed, figures, stage]

include run figures stage in
/-- The stage's groups outside the following set go RED, and the all-red runs (R118). -/
theorem takeYellowEnd_eq :
    takeYellowEnd s =
      command (st.green &&& ~~~(r.following.getD 0)) .red
        { s with seq.run := some { r with interval := .allRed, finish := r.finish + st.allRed } } := by
  simp only [takeYellowEnd, run, figures, stage]

include state run

theorem yellowEnd_due (figures : s.seq.figures = some f) (stage : s.stageOf f.plan r.stage = some st)
    (yellow : r.interval = .yellow) (allRed : 0 < st.allRed) (reached : r.finish ≤ s.coord.position) :
    DueNow .yellowEnd s :=
  ⟨by decide, by decide, State.yellowEndDue, .inr (.inl rfl), by
    simp [State.yellowEndDue, State.intervalDue, run, state, yellow, reached, hasAllRed_eq figures stage, allRed]⟩

/-- The clearance has run at the end of the all-red, or of a yellow that no all-red follows (R118). -/
theorem stageGreenBegin_due (figures : s.seq.figures = some f) (stage : s.stageOf f.plan r.stage = some st)
    (cleared : r.interval = .allRed ∨ (r.interval = .yellow ∧ st.allRed = 0)) {j : Nat} (next : r.next = some (.stage j))
    (reached : r.finish ≤ s.coord.position) : DueNow .stageGreenBegin s := by
  refine ⟨by decide, by decide, State.stageGreenDue, .inr (.inl rfl), ?_⟩
  have cleared : s.clearanceRun r = true := by
    rcases cleared with allRed | ⟨yellow, none⟩
    · simp [State.clearanceRun, allRed, next]
    · simp [State.clearanceRun, yellow, next, hasAllRed_eq figures stage, none]
  simp [State.stageGreenDue, State.intervalDue, run, state, cleared, reached]

end

theorem takeStageGreen_eq {s : State} {r : RunState} (run : s.seq.run = some r) {j : Nat} (next : r.next = some (.stage j)) :
    takeStageGreen s = beginGreen j none s := by
  simp only [takeStageGreen, run, next]

theorem trailingYellowEnd_due {s : State} {g : Group} (state : s.seq.state = .run)
    (ended : ∃ x ∈ s.seq.trailing, x.group = g ∧ x.yellow = 0) : DueNow (.trailingYellowEnd g) s := by
  refine ⟨by simp, by simp, fun s => s.trailingDue g, .inr (.inl rfl), ?_⟩
  simpa [State.trailingDue, state] using ended

end Sys2Proof.Machine

open Sys2Proof Sys2Proof.Machine

/-- Settles O50: each of the three ends is due and taken, and a green that begins leaves what `beginGreen_begun` says. -/
theorem clearancesEndAndGreensBegin : Obligations.ClearancesEndAndGreensBegin := by
  intro s state
  refine ⟨fun r f st run figures stage reached => ⟨fun yellow allRed => ?_, fun cleared j new next newStage => ?_⟩,
    fun g ended => ?_⟩
  · have due := yellowEnd_due state run figures stage yellow allRed reached
    refine ⟨_, due.exec_eq.trans (congrArg _ (takeYellowEnd_eq run figures stage)), rfl, ?_⟩
    exact redriven_outside s.bank st.green (r.following.getD 0) .red
  · have due := stageGreenBegin_due state run figures stage cleared next reached
    obtain ⟨begun, whole, port, -, -, served, figures', state', -⟩ := beginGreen_begun s f j new none figures newStage
    refine ⟨_, due.exec_eq.trans (congrArg _ (takeStageGreen_eq run next)), begun, ?_, served, figures', state'.trans state⟩
    rw [port rfl] at whole
    exact whole
  · exact ⟨_, (trailingYellowEnd_due state ended).exec_eq, rfl, redGroup_redriven g s⟩

end

section
/-! PLACE_CALL (R123). -/

set_option Elab.async false

namespace Sys2Proof.Machine

/-- The bit of a latch is set at its own place. -/
theorem latchBit_getLsbD {n : Nat} (low : 1 ≤ n) (high : n ≤ 16) : (1#16 <<< (n - 1)).getLsbD (n - 1) = true := by
  simp [show n - 1 < 16 by omega]

theorem getLsbD_clearNumber {n : Nat} (low : 1 ≤ n) (high : n ≤ 16) (set : BitVec 16) :
    (clearNumber set n).getLsbD (n - 1) = false := by
  rw [clearNumber, if_neg (by omega), BitVec.getLsbD_and, BitVec.getLsbD_not, latchBit_getLsbD low high]
  simp

/-- A green of an ON_CALL stage clears its latch (R115, R122). -/
theorem begin_latches {st : StageRecord} (onCall : st.demandClass = 1) (q : Sequencer) (f : Figures) (k : Nat) :
    (q.begin f k st).latches = clearNumber q.latches st.demandInput :=
  if_pos (decide_eq_true onCall)

section
variable (seq n : Byte) (s : State)

theorem exec_placeCall_configuring (configuring : s.port.part = .configuring) :
    exec (.placeCall seq [n]) s = .next (s.answered 0x28 seq .state []) :=
  congrArg Host.Outcome.next (serve_barred 0x28 seq .runningOnly (placeCallWork [n]) s (by rw [configuring]; rfl))

variable (running : s.port.part = .running)
include running

theorem exec_placeCall_range (out : n.toNat = 0 ∨ 16 < n.toNat) :
    exec (.placeCall seq [n]) s = .next (s.answered 0x28 seq .range []) := by
  have refused : placeCallWork [n] (discardHeld s) = (discardHeld s, plain .range) := by
    have outside : ¬ within 1 16 (field [n] 0 1) = true := by
      rw [field_first, within_iff]
      omega
    exact if_neg outside
  have served := serve_unchanged 0x28 seq .runningOnly (placeCallWork [n]) s (by rw [running]; rfl) (by rw [refused])
  rw [refused] at served
  exact congrArg Host.Outcome.next served

theorem exec_placeCall_done (low : 1 ≤ n.toNat) (high : n.toNat ≤ 16) :
    exec (.placeCall seq [n]) s =
      .next
        (({ s with seq.latches := s.seq.latches ||| 1#16 <<< (n.toNat - 1) } : State).answered 0x28 seq .done
          [if s.seq.latches.getLsbD (n.toNat - 1) then 1 else 0]) := by
  have admitted : Admission.runningOnly.admits s.port.part = true := by rw [running]; rfl
  change Host.Outcome.next (serve 0x28 seq true .runningOnly (placeCallWork [n]) s) = _
  rw [serve_done _ _ _ _ _ admitted, placeCallWork_of_input low high, discardHeld_seq, hold_latches]
  rfl

end

end Sys2Proof.Machine

open Sys2Proof Sys2Proof.Machine

/-- Settles O52: the three answers, and the latch as a bit that a sample sets too and a green clears. -/
theorem placeCallSetsTheLatch : Obligations.PlaceCallSetsTheLatch := by
  refine ⟨fun latched => if latched then 1 else 0, by decide, fun seq n s => ⟨exec_placeCall_configuring seq n s,
    fun running => ⟨exec_placeCall_range seq n s running, fun low high => ?_⟩⟩⟩
  intro bit placed
  refine ⟨exec_placeCall_done seq n s running low high, fun levels => ?commutes, fun levels same => ?sample,
    fun f k st onCall input => ⟨?cleared, ?placedAfter⟩⟩
  case commutes =>
    have order : s.seq.latches ||| bit ||| levels.demand = s.seq.latches ||| levels.demand ||| bit := by
      rw [BitVec.or_assoc, BitVec.or_comm bit, ← BitVec.or_assoc]
    exact congrArg (fun latches => ({ s with seq.latches := latches } : State)) order
  case sample => exact congrArg (fun set => ({ s with seq.latches := s.seq.latches ||| set } : State)) same
  case cleared => rw [begin_latches onCall, input, getLsbD_clearNumber low high]
  case placedAfter =>
    show ((s.seq.begin f k st).latches ||| bit).getLsbD (n.toNat - 1) = true
    rw [BitVec.getLsbD_or, latchBit_getLsbD low high, Bool.or_true]

end

section
/-! A class whose action is FLASH (R110, R133, R141): the run count of the green-sense filters that no premise bounds. -/

set_option Elab.async false

namespace Sys2Proof.Machine

/-- The junction in startup red, RUNNING with a configuration record of zeros, as no START accepts it: R202 keeps the run count of
the green-sense filters within 2..7, and here it is 0. -/
def uncounted : State :=
  { State.reset with
    port := { CabinetPort.reset with part := .running, config := some noConfig }
    seq.state := .startupRed
    bank.flash := false }

theorem uncounted_inv : Inv uncounted where
  clock := reset_rooms.clock
  store := reset_rooms.store
  timetable := reset_rooms.timetable
  orders := reset_rooms.orders
  coord := reset_rooms.coord
  bank := ⟨fun flash => absurd flash (by decide), reset_rooms.bank.half, reset_rooms.bank.settle⟩
  line := reset_rooms.line
  port := ⟨reset_rooms.port.reports, reset_rooms.port.dropped, fun _ => by decide⟩
  quiet := fun configuring => absurd configuring (by decide)
  settled := by
    unfold State.Settled
    decide

/-- With a run count of 0 the filter of group 1 that has just become FAULTED becomes CLEAN again before the flash, and group 2
raises the class anew, which is the detail that stays. -/
theorem uncounted_detail : ((takeGreenFaulted 0 uncounted).faults.record .greenSense).detail = some 2 := by
  decide +kernel

end Sys2Proof.Machine

open Sys2Proof Sys2Proof.Machine

/-- Refutes O54: the invariant leaves the run count of the green-sense filters free, and at 0 (R202 has 2..7) the sample that
marks group 1 FAULTED ends with the detail of group 2. -/
theorem not_flashTakesTheJunction : ¬ Obligations.FlashTakesTheJunction := by
  intro h
  obtain ⟨-, raised, -⟩ := h uncounted uncounted_inv rfl (by decide) (by decide) rfl (by decide) (by decide)
  obtain ⟨t, taken, -, -, -, detail, -⟩ := raised 0 (by decide) (by decide) rfl
  have due : DueNow (.greenSenseFaulted 0) uncounted :=
    ⟨by simp, by simp, fun s => s.greenFaultedDue 0, .inr (.inr rfl), by decide⟩
  have same : t = takeGreenFaulted 0 uncounted := Host.Outcome.next.inj (taken.symm.trans due.exec_eq)
  rw [same, uncounted_detail] at detail
  exact absurd detail (by decide)

end

section
/-! Fault records (R170, R171) and their acknowledgement (R175, R111): a record that is cleared lets the effective action become
milder, so that what is delivered is never FLASH. -/

set_option Elab.async false

namespace Sys2Proof.Machine

/-! ### Records raised and withdrawn -/

section
variable {c : FaultClass} {s : State}

theorem raiseRecord_active (detail : Option Nat) (running : s.port.part = .running)
    (active : (s.faults.record c).state = .active) :
    (raiseRecord c detail s).faults.record c = { s.faults.record c with detail := detail } := by
  have run : s.running = true := decide_eq_true running
  simp only [raiseRecord, run, active, if_true, record_setRecord]

theorem raiseRecord_inactive (detail : Option Nat) (running : s.port.part = .running)
    (inactive : (s.faults.record c).state ≠ .active) :
    (raiseRecord c detail s).faults.record c =
      { state := .active, count := min 255 ((s.faults.record c).count + 1)
        firstRaised := some ((s.faults.record c).firstRaised.getD s.clock.reading), detail := detail } := by
  have run : s.running = true := decide_eq_true running
  cases state : (s.faults.record c).state with
  | active => exact absurd state inactive
  | clear | held => simp only [raiseRecord, run, state, if_true, post_faults, record_setRecord, countUp]

theorem withdrawRecord_inactive (inactive : (s.faults.record c).state ≠ .active) : withdrawRecord c s = s := by
  cases state : (s.faults.record c).state with
  | active => exact absurd state inactive
  | clear | held => simp only [withdrawRecord, state]

/-- An ACTIVE record is HELD or CLEAR by the action of its class (R171). -/
theorem withdrawRecord_active (active : (s.faults.record c).state = .active) :
    (withdrawRecord c s).faults.record c =
      { s.faults.record c with
        state :=
          if actionOf s.port.config c = some .fallback ∨ actionOf s.port.config c = some .flash then .held else .clear } := by
  simp only [withdrawRecord, active, post_faults, record_setRecord, if_true]
  rcases actionOf s.port.config c with _ | _ | _ | _ | _ <;> rfl

/-- The records of the other classes stay. -/
theorem raiseRecord_others (detail : Option Nat) {x : FaultClass} (other : x ≠ c) :
    (raiseRecord c detail s).faults.record x = s.faults.record x :=
  (settles_raiseRecord (cs := [c]) c detail s List.mem_cons_self).records x (by simpa using other)

theorem withdrawRecord_others {x : FaultClass} (other : x ≠ c) :
    (withdrawRecord c s).faults.record x = s.faults.record x :=
  (settles_withdrawRecord (cs := [c]) c s List.mem_cons_self).records x (by simpa using other)

end

/-! ### When the effective action is FLASH -/

theorem worse_eq_flash {a b : FaultAction} : a.worse b = .flash ↔ a = .flash ∨ b = .flash := by
  cases a <;> cases b <;> simp [FaultAction.worse, FaultAction.severity]

theorem foldl_worse_flash {α : Type} {g : α → FaultAction} (l : List α) (a : FaultAction) :
    l.foldl (fun a c => a.worse (g c)) a = .flash ↔ a = .flash ∨ ∃ c ∈ l, g c = .flash := by
  induction l generalizing a with
  | nil => simp
  | cons x rest ih => rw [List.foldl_cons, ih, worse_eq_flash, List.exists_mem_cons_iff, or_assoc]

/-- The effective action is FLASH exactly where a record calls for it (R172). -/
theorem mostSevere_flash_iff (config : Option ConfigRecord) (f : FaultUnit) :
    mostSevere config f = .flash ↔ ∃ c, contribution config f c = .flash := by
  rw [mostSevere, foldl_worse_flash]
  simp [mem_classes]

/-- A record cleared brings no FLASH about. -/
theorem mostSevere_cleared {config : Option ConfigRecord} {f : FaultUnit} {c : FaultClass} {r : FaultRecord}
    (clear : r.state = .clear) (flash : mostSevere config (f.setRecord c r) = .flash) : mostSevere config f = .flash := by
  obtain ⟨k, calls⟩ := (mostSevere_flash_iff ..).mp flash
  refine (mostSevere_flash_iff ..).mpr ⟨k, ?_⟩
  unfold contribution at calls ⊢
  rw [record_setRecord] at calls
  by_cases own : k = c
  · rw [if_pos own, if_pos clear] at calls
    exact absurd calls (by decide)
  · rwa [if_neg own] at calls

/-! ### A delivery other than FLASH -/

/-- Nothing but the Coordinator, the slots and the reports has changed. -/
structure CoordinatorSide (s t : State) : Prop where
  whole : t = { s with coord := t.coord, store := t.store, port := t.port }
  part : t.port.part = s.port.part
  config : t.port.config = s.port.config

theorem CoordinatorSide.trans {s t u : State} (h : CoordinatorSide s t) (k : CoordinatorSide t u) : CoordinatorSide s u :=
  ⟨by rw [k.whole, h.whole], k.part.trans h.part, k.config.trans h.config⟩

theorem coordinatorSide_isolationChange {s : State} (overrun : s.coord.overrunRaised = false) :
    CoordinatorSide s (isolationChange s) := by
  have part := (delivers_isolationChange s).kept.part
  have config := (delivers_isolationChange s).kept.config
  refine ⟨?_, part, config⟩
  by_cases begins : s.measuring ∧ s.isolating = true
  · have quiet : ∀ v : State, v.coord.overrunRaised = false → emptyTransition v = { v with coord.transition := none } :=
      fun v h => if_neg (by simp [h])
    rw [isolationChange_isolates begins.1 begins.2, quiet _ (by rw [setCoord_coord]; exact overrun), setCoord_eq]
  · by_cases ends : s.coord.state = .isolated ∧ s.isolating = false
    · rw [isolationChange_ends ends.1 ends.2, setCoord_eq]
    · rw [isolationChange_stays begins ends]

theorem coordinatorSide_putForward (a : Adoption) (s : State) : CoordinatorSide s (putForward a s) :=
  ⟨putForward_eq a s, (delivers_putForward a s).kept.part, (delivers_putForward a s).kept.config⟩

theorem coordinatorSide_setFallback (s : State) : CoordinatorSide s (setFallback s) := by
  have marked : CoordinatorSide s { s with coord.fallbackMark := true } := ⟨rfl, rfl, rfl⟩
  exact marked.trans (coordinatorSide_putForward _ _)

theorem coordinatorSide_clearFallback (s : State) : CoordinatorSide s (clearFallback s) := by
  have unmarked : CoordinatorSide s { s with coord.fallbackMark := false } := ⟨rfl, rfl, rfl⟩
  cases mark : s.coord.fallbackMark with
  | false =>
    rw [clearFallback_unmarked mark]
    exact ⟨rfl, rfl, rfl⟩
  | true =>
    cases requested : s.coord.requested with
    | some a =>
      rw [clearFallback_requested mark requested]
      exact unmarked.trans (coordinatorSide_putForward _ _)
    | none =>
      rw [clearFallback_none mark requested, (emptyStaged_eq _).1]
      exact ⟨rfl, rfl, rfl⟩

theorem coordinatorSide_deliverCoordinator (action : FaultAction) {s : State} (overrun : s.coord.overrunRaised = false) :
    CoordinatorSide s (deliverCoordinator action s) := by
  refine (coordinatorSide_isolationChange overrun).trans ?_
  cases action
  case fallback => exact coordinatorSide_setFallback _
  case flash => exact ⟨rfl, rfl, rfl⟩
  all_goals exact coordinatorSide_clearFallback _

/-- A new effective action other than FLASH is delivered once, and the Sequencer leaves the flash it may be in (R111, R173). -/
theorem settleAction_milder {n : Nat} {cause : FaultClass} {action : FaultAction} {s : State}
    (severe : mostSevere s.port.config s.faults = action) (new : action ≠ s.faults.effective) (other : action ≠ .flash)
    (running : s.port.part = .running) (overrun : s.coord.overrunRaised = false) :
    settleAction (n + 1) cause s = flashExit (deliverCoordinator action (s.acting action cause)) := by
  have side := coordinatorSide_deliverCoordinator action (s := s.acting action cause) (by rwa [State.acting, post_coord])
  have sequenced : deliverSequencer action (deliverCoordinator action (s.acting action cause)) =
      flashExit (deliverCoordinator action (s.acting action cause)) :=
    deliverSequencer_other (by rw [side.part, State.acting, post_port_part]; exact running) other
  have settled : (deliverCoordinator action (s.acting action cause)).Settled := by
    rw [State.Settled, side.config, side.whole, State.acting, post_faults, post_port_config]
    exact severe.symm
  unfold settleAction
  simp only [severe, new, if_false]
  change settleAction n .transitionOverrun (deliverSequencer action (deliverCoordinator action (s.acting action cause))) = _
  rw [sequenced]
  exact settleAction_settled _ _ _ ((calm_flashExit _).steady settled)

/-! ### A record acknowledged -/

/-- A HELD record acknowledged is CLEAR, the other records stay, and a flash that no record calls for any more is left for startup
red (R111, R175). -/
structure Acknowledged (c : FaultClass) (s t : State) : Prop where
  record : t.faults.record c = { s.faults.record c with state := .clear }
  others : ∀ x, x ≠ c → t.faults.record x = s.faults.record x
  settled : t.Settled
  unchanged : t.faults.effective = s.faults.effective → t.seq = s.seq ∧ t.coord = s.coord ∧ t.bank = s.bank
  begun : ∀ config, s.port.config = some config → s.seq.state = .flash → s.faults.effective = .flash →
    t.faults.effective ≠ .flash → Begun config t

theorem acknowledge_acknowledged (c : FaultClass) {s : State} (settled : s.Settled) (running : s.port.part = .running)
    (overrun : s.coord.overrunRaised = false) : Acknowledged c s (acknowledge c s) := by
  obtain ⟨v, cleared⟩ : ∃ v, v = post (.faultAcked c)
      { s with faults := s.faults.setRecord c { s.faults.record c with state := .clear } } := ⟨_, rfl⟩
  have taken : acknowledge c s = settleAction actionFuel c v := by rw [cleared]; rfl
  have faults : v.faults = s.faults.setRecord c { s.faults.record c with state := .clear } := by rw [cleared, post_faults]
  have whole : v = { s with faults := v.faults, port := v.port } := by rw [faults, cleared]; exact post_port_eq _ _
  have config : v.port.config = s.port.config := by rw [cleared, post_port_config]
  have part : v.port.part = .running := by rw [cleared, post_port_part]; exact running
  have effective : v.faults.effective = s.faults.effective := by rw [faults]; rfl
  have records : ∀ x, v.faults.record x = if x = c then { s.faults.record c with state := .clear } else s.faults.record x :=
    fun x => by rw [faults, record_setRecord]
  have settledAfter : (acknowledge c s).Settled := settleAction_effective _ _ _
  rw [taken] at settledAfter ⊢
  by_cases same : mostSevere v.port.config v.faults = v.faults.effective
  · rw [settleAction_settled _ _ _ same.symm] at settledAfter ⊢
    refine ⟨(records c).trans (if_pos rfl), fun x other => (records x).trans (if_neg other), settledAfter, fun _ => ?_,
      fun _ _ _ flash left => absurd (effective.trans flash) left⟩
    rw [whole]
    exact ⟨rfl, rfl, rfl⟩
  · have milder : mostSevere v.port.config v.faults ≠ .flash := by
      intro flash
      refine same (flash.trans (effective.trans (settled.trans ?_)).symm)
      rw [config, faults] at flash
      exact mostSevere_cleared rfl flash
    have side := coordinatorSide_deliverCoordinator (mostSevere v.port.config v.faults)
      (s := v.acting (mostSevere v.port.config v.faults) c) (by rw [State.acting, post_coord, whole]; exact overrun)
    have delivered : settleAction actionFuel c v =
        flashExit (deliverCoordinator (mostSevere v.port.config v.faults) (v.acting (mostSevere v.port.config v.faults) c)) :=
      settleAction_milder rfl same milder part (by rw [whole]; exact overrun)
    rw [delivered] at settledAfter ⊢
    generalize mostSevere v.port.config v.faults = action at *
    generalize deliverCoordinator action (v.acting action c) = q at *
    have faultsQ : q.faults = { v.faults with effective := action } := by rw [side.whole, State.acting, post_faults]
    have recordsQ : ∀ x, (flashExit q).faults.record x = v.faults.record x := fun x => by rw [flashExit_faults, faultsQ]; rfl
    refine ⟨(recordsQ c).trans ((records c).trans (if_pos rfl)),
      fun x other => (recordsQ x).trans ((records x).trans (if_neg other)), settledAfter, fun equal => ?_,
      fun config' has flash _ _ => ?_⟩
    · rw [flashExit_faults, faultsQ] at equal
      exact absurd (equal.trans effective.symm) same
    · refine begun_flashExit ?_ ?_
      · rw [side.config, State.acting, post_port_config, config, has]
      · rw [side.whole, State.acting, post_seq, whole]
        exact flash

/-! ### ACK_FAULT -/

theorem faultClassOf_place (c : FaultClass) : faultClassOf (c.place.val + 1) = some c := by cases c <;> rfl

theorem faultClassOf_outside {n : Nat} (out : n = 0 ∨ 8 < n) : faultClassOf n = none := by
  rcases out with rfl | above
  · rfl
  · obtain ⟨m, rfl⟩ : ∃ m, n = m + 9 := ⟨n - 9, by omega⟩
    rfl

section
variable (seq n : Byte) {s : State} (running : s.port.part = .running)
include running

theorem exec_ackFault_unchanged {a : Answer} (work : ackFaultWork [n] (discardHeld s) = (discardHeld s, a)) :
    exec (.ackFault seq [n]) s = .next (s.answered 0x39 seq a.code a.body) := by
  have served := serve_unchanged 0x39 seq .runningOnly (ackFaultWork [n]) s (by rw [running]; rfl) (by rw [work])
  rw [work] at served
  exact congrArg Host.Outcome.next served

theorem exec_ackFault_range (out : n.toNat = 0 ∨ 8 < n.toNat) :
    exec (.ackFault seq [n]) s = .next (s.answered 0x39 seq .range []) := by
  refine exec_ackFault_unchanged seq n running (a := plain .range) ?_
  simp only [ackFaultWork, field_first, faultClassOf_outside out]

variable {c : FaultClass} (names : n.toNat = c.place.val + 1)
include names

theorem exec_ackFault_clear (clear : (s.faults.record c).state = .clear) :
    exec (.ackFault seq [n]) s = .next (s.answered 0x39 seq .state [0]) := by
  refine exec_ackFault_unchanged seq n running (a := { code := .state, body := be 1 RecordState.clear.code }) ?_
  simp only [ackFaultWork, field_first, names, faultClassOf_place, discardHeld_faults, clear]

theorem exec_ackFault_active (active : (s.faults.record c).state = .active) :
    exec (.ackFault seq [n]) s = .next (s.answered 0x39 seq .state [1]) := by
  refine exec_ackFault_unchanged seq n running (a := { code := .state, body := be 1 RecordState.active.code }) ?_
  simp only [ackFaultWork, field_first, names, faultClassOf_place, discardHeld_faults, active]

/-- DONE carries the effective action that stands once the record is acknowledged (R175). -/
theorem exec_ackFault_held (held : (s.faults.record c).state = .held) :
    exec (.ackFault seq [n]) s =
      .next
        (hold 0x39 seq (done (be 1 (acknowledge c (discardHeld s)).faults.effective.code)) (acknowledge c (discardHeld s))) := by
  have work : ackFaultWork [n] (discardHeld s) =
      (acknowledge c (discardHeld s), done (be 1 (acknowledge c (discardHeld s)).faults.effective.code)) := by
    simp only [ackFaultWork, field_first, names, faultClassOf_place, discardHeld_faults, held]
  have served := serve_done 0x39 seq .runningOnly (ackFaultWork [n]) s (by rw [running]; rfl)
  rw [work] at served
  exact congrArg Host.Outcome.next served

end

end Sys2Proof.Machine

open Sys2Proof Sys2Proof.Machine

/-- Settles O55: the records by their states, and ACK_FAULT by the state of the record it names. -/
theorem recordsAreRaisedWithdrawnAndAcknowledged : Obligations.RecordsAreRaisedWithdrawnAndAcknowledged := by
  intro c s r others
  refine ⟨fun detail running => ⟨fun x other => raiseRecord_others detail other, raiseRecord_active detail running,
      raiseRecord_inactive detail running⟩,
    ⟨fun x other => withdrawRecord_others other, withdrawRecord_inactive, withdrawRecord_active⟩, fun seq n running =>
      ⟨exec_ackFault_range seq n running, fun names => ⟨exec_ackFault_clear seq n running names,
        exec_ackFault_active seq n running names, fun held inv overrun => ?_⟩⟩⟩
  have kept := (delivers_acknowledge c (discardHeld s)).kept
  obtain ⟨record, othersStay, settled, unchanged, begun⟩ := acknowledge_acknowledged c (s := discardHeld s)
    (calm_discardHeld s |>.steady inv.settled) (by rw [discardHeld_port_part]; exact running) (by rw [discardHeld_coord]; exact overrun)
  have taken := exec_ackFault_held seq n running names held
  obtain ⟨config, has⟩ := Option.ne_none_iff_exists'.mp (inv.port.configured running)
  rw [discardHeld_faults] at record othersStay unchanged begun
  rw [discardHeld_seq, discardHeld_coord, discardHeld_bank] at unchanged
  rw [discardHeld_seq, discardHeld_port_config] at begun
  generalize acknowledge c (discardHeld s) = t at *
  refine ⟨_, taken, record, othersStay, settled, rfl, unchanged, fun flash effective left => ?_,
    kept.clock.trans (discardHeld_clock s), ?_, kept.line.trans (discardHeld_line s)⟩
  · obtain ⟨state, count, ended, red⟩ := begun config has flash effective left
    refine ⟨state, count.trans ?_, ended, red⟩
    rw [State.cfg, has]
    rfl
  · exact kept.orders.trans (congrArg (·.entries) (discardHeld_orders s))

end

section
/-! The hand-over (R125, R152) and the activation of an input (R146, R148 to R152, R155, R157, R158). -/

set_option Elab.async false

namespace Sys2Proof.Machine

/-! ### The hand-over -/

section
variable {s : State} {r : RunState} {f : Figures} {st : StageRecord}

theorem reachedPosition_eq (s : State) :
    s.reachedPosition = s.coord.position + if s.instants.cycleEnd = true then 1 else 0 := by
  unfold State.reachedPosition
  split <;> rfl

/-- What the Sequencer hands over while a stage runs (R125). -/
theorem handOver_eq (run : s.seq.run = some r) (figures : s.seq.figures = some f) (stage : s.stageOf f.plan r.stage = some st) :
    s.handOver =
      some
        { plan := f.plan, stage := r.stage, interval := r.interval, elapsed := s.reachedPosition - r.intervalStart st
          record := st, following := r.following.getD 0, trailing := s.seq.trailing } := by
  simp only [State.handOver, run, figures, stage, Option.map_some]

end

section
variable {h : HandOver}

theorem clearing_yellow (yellow : h.interval = .yellow) :
    h.clearing =
      (h.trailing.map fun x => { group := x.group, holder := stageHolder h.stage h.record, yellow := x.yellow })
        ++ (groupList.filter fun g => inSet g h.record.green && !inSet g h.following).map fun g =>
          { group := g, holder := stageHolder h.stage h.record, yellow := h.record.yellow - h.elapsed } := by
  simp only [HandOver.clearing, yellow, members, inSet_and, inSet_not]

/-- Outside a YELLOW only the trailing groups clear (R152). -/
theorem clearing_trailing (other : h.interval ≠ .yellow) :
    h.clearing = h.trailing.map fun x => { group := x.group, holder := stageHolder h.stage h.record, yellow := x.yellow } := by
  unfold HandOver.clearing
  cases interval : h.interval with
  | yellow => exact absurd interval other
  | green | allRed => exact List.append_nil _

theorem allRed_none (other : h.interval ≠ .allRed) : h.allRed = none := by
  unfold HandOver.allRed
  cases interval : h.interval with
  | allRed => exact absurd interval other
  | green | yellow => rfl

theorem allRed_some (allRed : h.interval = .allRed) : h.allRed = some (h.record.allRed - h.elapsed) := by
  simp only [HandOver.allRed, allRed]

end

/-! ### SUSPENDED -/

section
variable {s : State} (settled : s.Settled) (reports : OverrunReports s)
include settled reports

/-- TRANSITION_OVERRUN withdrawn where it is configured REPORT leaves the effective action (R95, R172). -/
theorem settled_emptyTransition : (emptyTransition s).Settled := by
  unfold emptyTransition
  dsimp only
  split
  · rename_i raised
    rw [← withdraw_of_report (s := { s with coord.transition := none, coord.overrunRaised := false }) settled (reports raised)]
    exact settleAction_effective _ _ _
  · exact settled

theorem emptyTransition_abandoned : Abandoned s (emptyTransition s) := by
  have same : abandonTransition s = emptyTransition s := settleAction_settled _ _ _ (settled_emptyTransition settled reports)
  exact same ▸ abandonTransition_abandoned settled reports

end

/-- SUSPENDED is entered, TRANSITION_OVERRUN being withdrawn (R95, R99, R100). -/
structure Suspended (cause : SuspensionCause) (s t : State) : Prop where
  whole : t =
    { s with
      coord :=
        { s.coord with
          state := .suspended, cause := some cause, finalMark := false, figures := none, transition := none
          overrunRaised := false }
      faults := t.faults, port := t.port }
  config : t.port.config = s.port.config
  settled : t.Settled
  lifted : s.coord.overrunRaised = true → (t.faults.record .transitionOverrun).state ≠ .active
  kept : s.coord.overrunRaised = false → t.faults = s.faults

theorem suspend_suspended (cause : SuspensionCause) {s : State} (settled : s.Settled) (reports : OverrunReports s) :
    Suspended cause s (suspend cause s) := by
  have cut := emptyTransition_abandoned (s := { s with coord.finalMark := false, coord.figures := none }) settled reports
  have set : suspend cause s = _ := setCoord_eq .suspended (some cause)
    (emptyTransition { s with coord.finalMark := false, coord.figures := none })
  have config : (suspend cause s).port.config = _ := setCoord_config .suspended (some cause)
    (emptyTransition { s with coord.finalMark := false, coord.figures := none })
  generalize emptyTransition { s with coord.finalMark := false, coord.figures := none } = v at *
  have faults : (suspend cause s).faults = v.faults := by rw [set]
  refine ⟨?_, config.trans cut.config, ?_, ?_, ?_⟩
  · rw [set, cut.whole]
  · rw [State.Settled, faults, config]
    exact cut.settled
  · rw [faults]
    exact cut.lifted
  · rw [faults]
    exact cut.kept

/-! ### ENTERING -/

/-- Where one holder holds every green group, the groups that begin to clear are its (R151). -/
theorem newClearing_of_holder {s : State} {outside : GroupSet} {h : Holder}
    (held : ∀ g : Group, s.bank.drive[g] = .green → s.preempt.holders[g] = some h) :
    newClearing s outside =
      (groupList.filter fun g => decide (s.bank.drive[g] = .green) && !inSet g outside).map fun g =>
        { group := g, holder := h, yellow := h.yellow } := by
  unfold newClearing
  rw [← List.filterMap_eq_map]
  refine List.filterMap_congr fun g mem => ?_
  have green : s.bank.drive[g] = .green := by
    have := (List.mem_filter.mp mem).2
    simp only [Bool.and_eq_true, decide_eq_true_eq] at this
    exact this.1
  rw [held g green]
  rfl

/-- The work of ENTERING begins with a green hold, or at once without one (R151, R152). -/
structure Entered (i : PreemptInput) (hold : Nat) (s t : State) : Prop where
  kept : RunKept s t
  holds : 0 < hold → t.preempt.state = .entering ∧ t.preempt.greenHold = some hold ∧ t.bank = s.bank
  clears : hold = 0 →
    EnteringCleared s.bank (s.route i).track (s.preempt.clearing ++ newClearing s (s.route i).track) s.preempt.allRed t

theorem enterWith_entered {i : PreemptInput} (hold : Nat) {s : State} (running : s.preempt.running = some i)
    (entering : s.preempt.state = .entering) : Entered i hold s (enterWith hold s) := by
  unfold enterWith
  split
  · rename_i some
    exact ⟨⟨rfl, ⟨rfl, rfl⟩, rfl, rfl, rfl, rfl, rfl, rfl, rfl, rfl⟩, fun _ => ⟨entering, rfl, rfl⟩,
      fun none => absurd none (by omega)⟩
  · rename_i none
    obtain ⟨kept, cleared⟩ := clearOutside_cleared s i running entering
    exact ⟨kept, fun some => absurd some none, fun _ => cleared⟩

/-! ### The take -/

/-- The controller's record at a grant (R149 to R151). -/
def State.granted (s : State) (i : PreemptInput) (h : HandOver) : Preemption :=
  ({ s.preempt with
    running := some i
    waiting := if i = .pe1 ∧ s.preempt.calls .pe2 then some PreemptInput.pe2 else none
    heldTake := false
    save := some (h.save i (s.route i) s.clock.reading s.coord.position)
    clearing := h.clearing
    clearedAllRed := 0
    allRed := h.allRed
    dwell := 0
    expected := none
    greenHold := none } : Preemption).giveHolder (s.bank.driving .green) (stageHolder h.stage h.record)

/-- The junction taken, the work of ENTERING not begun (R149). -/
def takeJunction (i : PreemptInput) (h : HandOver) (s : State) : State :=
  setPreempt .entering (some i)
    (settleAction actionFuel .transitionOverrun (suspend .preemption (yieldJunction { s with preempt := s.granted i h })))

theorem grantTo_eq (i : PreemptInput) (h : HandOver) (s : State) :
    grantTo i h s = enterWith (h.greenHold (s.route i).track) (takeJunction i h s) := rfl

/-- What a take leaves outside the controller, the outputs and the reports (R99, R125, R149). -/
structure JunctionTaken (s t : State) : Prop where
  whole : t =
    { s with
      coord :=
        { s.coord with
          state := .suspended, cause := some .preemption, finalMark := false, figures := none, transition := none
          overrunRaised := false }
      seq :=
        { s.seq with state := .yielded, run := none, figures := none, served := [], trailing := [], heldTake := false }
      instants.cycleEnd := false, bank := t.bank, preempt := t.preempt, faults := t.faults, port := t.port }
  lifted : s.coord.overrunRaised = true → (t.faults.record .transitionOverrun).state ≠ .active
  kept : s.coord.overrunRaised = false → t.faults = s.faults

section
variable (i : PreemptInput) (h : HandOver) {s : State} (settled : s.Settled) (reports : OverrunReports s)
include settled reports

theorem takeJunction_taken :
    JunctionTaken s (takeJunction i h s) ∧ (takeJunction i h s).bank = s.bank
      ∧ (takeJunction i h s).preempt = { s.granted i h with state := .entering }
      ∧ (takeJunction i h s).port.config = s.port.config := by
  have yielded : yieldJunction { s with preempt := s.granted i h } =
      { s with
        seq :=
          { s.seq with state := .yielded, run := none, figures := none, served := [], trailing := [], heldTake := false }
        instants.cycleEnd := false, preempt := s.granted i h
        port := (yieldJunction { s with preempt := s.granted i h }).port } := by
    unfold yieldJunction
    rw [setSeq_eq]
  have config := yieldJunction_config { s with preempt := s.granted i h }
  unfold takeJunction
  generalize yieldJunction { s with preempt := s.granted i h } = y at *
  have suspended := suspend_suspended .preemption (s := y)
    (by rw [State.Settled, config, yielded]; exact settled) (by rw [OverrunReports, config, yielded]; exact reports)
  rw [settleAction_settled _ _ _ suspended.settled]
  generalize suspend .preemption y = v at *
  have set := setPreempt_eq .entering (some i) v
  have configSet := setPreempt_config .entering (some i) v
  generalize setPreempt .entering (some i) v = z at *
  have faults : z.faults = v.faults := by rw [set]
  refine ⟨⟨?_, ?_, ?_⟩, ?_, ?_, configSet.trans (suspended.config.trans config)⟩
  · rw [set, suspended.whole, yielded]
  · intro raised
    rw [faults]
    exact suspended.lifted (by rw [yielded]; exact raised)
  · intro clear
    rw [faults, suspended.kept (by rw [yielded]; exact clear), yielded]
  · rw [set, suspended.whole, yielded]
  · rw [set, suspended.whole, yielded]

end

/-- A granted take (R148 to R152). -/
structure Granted (i : PreemptInput) (h : HandOver) (s t : State) : Prop where
  taken : JunctionTaken s t
  inputs : t.preempt.pe1 = s.preempt.pe1 ∧ t.preempt.pe2 = s.preempt.pe2
  running : t.preempt.running = some i
  waiting : t.preempt.waiting = if i = .pe1 ∧ s.preempt.calls .pe2 then some .pe2 else none
  save : t.preempt.save = some (h.save i (s.route i) s.clock.reading s.coord.position)
  holds : 0 < h.greenHold (s.route i).track →
    t.preempt.state = .entering ∧ t.preempt.greenHold = some (h.greenHold (s.route i).track) ∧ t.bank = s.bank
  clears : h.greenHold (s.route i).track = 0 →
    EnteringCleared s.bank (s.route i).track
      (h.clearing
        ++ (groupList.filter fun g => decide (s.bank.drive[g] = .green) && !inSet g (s.route i).track).map fun g =>
          { group := g, holder := stageHolder h.stage h.record, yellow := h.record.yellow })
      h.allRed t

/-- Every green group has the stage as its holder (R151). -/
theorem granted_holders (i : PreemptInput) (h : HandOver) (s : State) {g : Group} (green : s.bank.drive[g] = .green) :
    (s.granted i h).holders[g] = some (stageHolder h.stage h.record) := by
  rw [Fin.getElem_fin] at green
  simp [State.granted, Preemption.giveHolder, green]

theorem grantTo_taken (i : PreemptInput) (h : HandOver) {s : State} (settled : s.Settled) (reports : OverrunReports s) :
    Granted i h s (grantTo i h s) := by
  obtain ⟨taken, bank, preempt, config⟩ := takeJunction_taken i h settled reports
  rw [grantTo_eq]
  generalize takeJunction i h s = z at *
  have route : z.route i = s.route i := by cases i <;> simp only [State.route, State.cfg, config]
  have entered := enterWith_entered (i := i) (h.greenHold (s.route i).track) (s := z) (by rw [preempt]; rfl) (by rw [preempt])
  have new := newClearing_of_holder (s := z) (outside := (s.route i).track) (h := stageHolder h.stage h.record) fun g green => by
    rw [preempt]
    exact granted_holders i h s (bank ▸ green)
  generalize enterWith (h.greenHold (s.route i).track) z = t at *
  obtain ⟨kept, holds, clears⟩ := entered
  have faults : t.faults = z.faults := by rw [kept.eq]
  rw [route, new, bank, preempt] at clears
  refine ⟨⟨?_, ?_, ?_⟩, ?_, ?_, ?_, ?_, ?_, clears⟩
  · rw [kept.eq, taken.whole]
  · rw [faults]
    exact taken.lifted
  · rw [faults]
    exact taken.kept
  · rw [kept.inputs.1, kept.inputs.2, preempt]
    exact ⟨rfl, rfl⟩
  · rw [kept.running, preempt]
    rfl
  · rw [kept.waiting, preempt]
    rfl
  · rw [kept.save, preempt]
    rfl
  · rwa [bank] at holds

/-! ### The call of an input -/

/-- The input is filtered ACTIVE (R146). -/
def called (i : PreemptInput) (s : State) : State :=
  { s with preempt := s.preempt.setInput i ⟨true, 0, false⟩ }

/-- What a call does, by the state of the controller (R148, R155, R157, R158). -/
def answerCall (i : PreemptInput) (s : State) : State :=
  match s.preempt.state with
  | .idle => requestTake s
  | .entering | .dwell =>
    match i, s.preempt.running with
    | .pe1, some .pe2 => takeOver s
    | .pe2, some .pe1 => { s with preempt.waiting := some .pe2 }
    | _, _ => s
  | .leaving => directRun i s

theorem exec_preemptActivation {i : PreemptInput} {s : State} (running : s.port.part = .running)
    (counted : s.cfg.filterCount ≤ (s.preempt.input i).count) (inactive : (s.preempt.input i).active = false)
    (heeded : (s.preempt.input i).ignored = false) :
    exec (.preemptActivation i) s = .next (answerCall i (called i s)) := by
  have due : DueNow (.preemptActivation i) s :=
    ⟨by simp, by simp, fun s => s.activationDue i, .inr (.inr rfl), by
      simp [State.activationDue, State.filterDue, State.running, running, counted, inactive]⟩
  have taken : takeActivation i s = answerCall i (called i s) := by
    unfold takeActivation
    simp only [heeded, Bool.false_eq_true, if_false]
    rfl
  exact due.exec_eq.trans (congrArg Host.Outcome.next taken)

section
variable (i : PreemptInput) (s : State)

theorem called_preempt :
    (called i s).preempt = { s.preempt with pe1 := (called i s).preempt.pe1, pe2 := (called i s).preempt.pe2 } :=
  setInput_eq _ _ _

theorem newClearing_called (outside : GroupSet) : newClearing (called i s) outside = newClearing s outside := by
  rw [newClearing, called_preempt]
  rfl

theorem route_called (w : PreemptInput) : (called i s).route w = s.route w := by cases w <;> rfl

theorem calls_called (w : PreemptInput) : (called i s).preempt.calls w = (decide (i = w) || s.preempt.calls w) := by
  cases i <;> cases w <;> rfl

/-- PE1 is the claimant where it calls, now or before; else PE2, which has just called (R148). -/
theorem claimant_called :
    (called i s).preempt.claimant = some (if i = .pe1 ∨ s.preempt.calls .pe1 = true then .pe1 else .pe2) := by
  simp only [Preemption.claimant, calls_called, Bool.or_eq_true, decide_eq_true_eq]
  split
  · rfl
  · rename_i silent
    have second : i = .pe2 := by
      cases i with
      | pe1 => exact absurd (.inl rfl) silent
      | pe2 => rfl
    exact if_pos (.inl second)

end

/-- A call marks its input ACTIVE and leaves the other input, the clock, the timetable, the orders, the plans and the latches. -/
structure CallTaken (i : PreemptInput) (s t : State) : Prop where
  input : t.preempt.input i = ⟨true, 0, false⟩
  other : t.preempt.input (otherInput i) = s.preempt.input (otherInput i)
  clock : t.clock = s.clock
  timetable : t.timetable = s.timetable
  orders : t.orders = s.orders
  line : t.line = s.line
  plans : ∀ n, t.storedPlan n = s.storedPlan n
  latches : t.seq.latches = s.seq.latches

theorem callTaken_of_blocks {i : PreemptInput} {s t : State}
    (whole : t =
      { s with
        coord := t.coord, seq := t.seq, bank := t.bank, preempt := t.preempt, faults := t.faults, port := t.port
        instants := t.instants })
    (inputs : t.preempt.pe1 = (called i s).preempt.pe1 ∧ t.preempt.pe2 = (called i s).preempt.pe2)
    (latches : t.seq.latches = s.seq.latches) : CallTaken i s t := by
  have input : ∀ w, t.preempt.input w = (called i s).preempt.input w := fun w => by
    cases w with
    | pe1 => exact inputs.1
    | pe2 => exact inputs.2
  refine ⟨(input i).trans (setInput_input _ _ _), (input _).trans (setInput_other _ _ _), ?_, ?_, ?_, ?_, fun n => ?_, latches⟩
    <;> rw [whole]
  rfl

/-! ### IDLE -/

section
variable (i : PreemptInput) {s : State} (state : s.preempt.state = .idle)
include state

theorem answerCall_idle : answerCall i (called i s) = requestTake (called i s) := by
  have idle : (called i s).preempt.state = .idle := by rw [called_preempt]; exact state
  unfold answerCall
  rw [idle]

theorem answerCall_held (red : s.seq.state = .flash ∨ s.seq.state = .startupRed) :
    answerCall i (called i s) = { called i s with preempt.heldTake := true, seq.heldTake := true } := by
  have sequencer : (called i s).seq.state = s.seq.state := rfl
  rw [answerCall_idle i state, requestTake, sequencer]
  rcases red with red | red <;> rw [red]

theorem answerCall_granted {h : HandOver} (run : s.seq.state = .run) (handOver : s.handOver = some h) :
    answerCall i (called i s) =
      grantTo (if i = .pe1 ∨ s.preempt.calls .pe1 = true then .pe1 else .pe2) h (called i s) := by
  have sequencer : (called i s).seq.state = .run := run
  have handed : (called i s).handOver = some h := handOver
  rw [answerCall_idle i state, requestTake, sequencer]
  simp only [grantTake, claimant_called, handed]

theorem answerCall_refused (state' : s.seq.state = .yielded ∨ (s.seq.state = .run ∧ s.handOver = none)) :
    answerCall i (called i s) = called i s := by
  rw [answerCall_idle i state]
  rcases state' with yielded | ⟨run, none⟩
  · have sequencer : (called i s).seq.state = .yielded := yielded
    rw [requestTake, sequencer]
  · have sequencer : (called i s).seq.state = .run := run
    have handed : (called i s).handOver = Option.none := none
    rw [requestTake, sequencer]
    simp only [grantTake, claimant_called, handed]

end

/-! ### ENTERING, DWELL and LEAVING -/

section
variable {i : PreemptInput} {u : State}

theorem answerCall_own (state : u.preempt.state = .entering ∨ u.preempt.state = .dwell)
    (own : u.preempt.running = some i ∨ u.preempt.running = none) : answerCall i u = u := by
  unfold answerCall
  rcases state with state | state <;> rcases own with own | own <;> rw [state, own] <;> cases i <;> rfl

theorem answerCall_waits (state : u.preempt.state = .entering ∨ u.preempt.state = .dwell)
    (running : u.preempt.running = some .pe1) : answerCall .pe2 u = { u with preempt.waiting := some .pe2 } := by
  unfold answerCall
  rcases state with state | state <;> rw [state, running]

theorem answerCall_takesOver (state : u.preempt.state = .entering ∨ u.preempt.state = .dwell)
    (running : u.preempt.running = some .pe2) : answerCall .pe1 u = takeOver u := by
  unfold answerCall
  rcases state with state | state <;> rw [state, running]

theorem answerCall_leaving (state : u.preempt.state = .leaving) : answerCall i u = directRun i u := by
  unfold answerCall
  rw [state]

end

/-! ### What every call leaves -/

section
variable {i : PreemptInput} {s : State}

theorem callTaken_called : CallTaken i s (called i s) := callTaken_of_blocks rfl ⟨rfl, rfl⟩ rfl

/-- A run begun or taken over changes the outputs, the controller and the reports alone. -/
theorem callTaken_of_run {t : State} (whole : t = { called i s with bank := t.bank, preempt := t.preempt, port := t.port })
    (inputs : t.preempt.pe1 = (called i s).preempt.pe1 ∧ t.preempt.pe2 = (called i s).preempt.pe2) :
    CallTaken i s t ∧ t.faults = s.faults ∧ t.coord = s.coord ∧ t.seq = s.seq := by
  refine ⟨callTaken_of_blocks ?_ inputs ?_, ?_, ?_, ?_⟩ <;> rw [whole] <;> rfl

theorem callTaken_of_grant {j : PreemptInput} {h : HandOver} {t : State} (granted : Granted j h (called i s) t) :
    CallTaken i s t := by
  refine callTaken_of_blocks ?_ granted.inputs ?_ <;> rw [granted.taken.whole] <;> rfl

theorem called_stays :
    (called i s).preempt.state = s.preempt.state ∧ (called i s).preempt.running = s.preempt.running := by
  rw [called_preempt]
  exact ⟨rfl, rfl⟩

theorem answerCall_contended (state : s.preempt.state = .entering ∨ s.preempt.state = .dwell) :
    CallTaken i s (answerCall i (called i s)) ∧ (answerCall i (called i s)).faults = s.faults := by
  rw [← (called_stays (i := i)).1] at state
  cases running : s.preempt.running with
  | none =>
    rw [answerCall_own state (.inr (called_stays.2.trans running))]
    exact ⟨callTaken_called, rfl⟩
  | some w =>
    have runs := (called_stays (i := i)).2.trans running
    by_cases own : w = i
    · rw [answerCall_own state (.inl (own ▸ runs))]
      exact ⟨callTaken_called, rfl⟩
    · match i, w with
      | .pe1, .pe1 | .pe2, .pe2 => exact absurd rfl own
      | .pe2, .pe1 =>
        rw [answerCall_waits state runs]
        exact ⟨callTaken_of_blocks rfl ⟨rfl, rfl⟩ rfl, rfl⟩
      | .pe1, .pe2 =>
        rw [answerCall_takesOver state runs]
        obtain ⟨whole, inputs, -⟩ := takeOver_taken (called .pe1 s)
        obtain ⟨taken, faults, -⟩ := callTaken_of_run whole inputs
        exact ⟨taken, faults⟩

theorem answerCall_claimed (settled : s.Settled) (reports : OverrunReports s) (state : s.preempt.state = .idle) :
    CallTaken i s (answerCall i (called i s))
      ∧ (s.coord.overrunRaised = false → (answerCall i (called i s)).faults = s.faults) := by
  cases sequencer : s.seq.state with
  | flash | startupRed =>
    rw [answerCall_held i state (by simp [sequencer])]
    exact ⟨callTaken_of_blocks rfl ⟨rfl, rfl⟩ rfl, fun _ => rfl⟩
  | yielded =>
    rw [answerCall_refused i state (.inl sequencer)]
    exact ⟨callTaken_called, fun _ => rfl⟩
  | run =>
    cases handOver : s.handOver with
    | none =>
      rw [answerCall_refused i state (.inr ⟨sequencer, handOver⟩)]
      exact ⟨callTaken_called, fun _ => rfl⟩
    | some h =>
      rw [answerCall_granted i state sequencer handOver]
      have granted := grantTo_taken (if i = .pe1 ∨ s.preempt.calls .pe1 = true then .pe1 else .pe2) h
        (s := called i s) settled reports
      exact ⟨callTaken_of_grant granted, granted.taken.kept⟩

theorem answerCall_taken (settled : s.Settled) (reports : OverrunReports s) :
    CallTaken i s (answerCall i (called i s))
      ∧ (s.coord.overrunRaised = false ∨ s.preempt.state ≠ .idle → (answerCall i (called i s)).faults = s.faults) := by
  cases state : s.preempt.state with
  | idle =>
    obtain ⟨taken, faults⟩ := answerCall_claimed (i := i) settled reports state
    exact ⟨taken, fun either => faults (either.resolve_right fun other => other rfl)⟩
  | entering =>
    obtain ⟨taken, faults⟩ := answerCall_contended (i := i) (.inl state)
    exact ⟨taken, fun _ => faults⟩
  | dwell =>
    obtain ⟨taken, faults⟩ := answerCall_contended (i := i) (.inr state)
    exact ⟨taken, fun _ => faults⟩
  | leaving =>
    rw [answerCall_leaving (called_stays.1.trans state)]
    obtain ⟨whole, -, -, -, -, pe1, pe2, -⟩ := directRun_begun i (called i s)
    obtain ⟨taken, faults, -⟩ := callTaken_of_run whole ⟨pe1, pe2⟩
    exact ⟨taken, fun _ => faults⟩

end

end Sys2Proof.Machine

open Sys2Proof Sys2Proof.Machine

/-- Settles O56: the hand-over by the interval it falls in, and the answer to a call by the state of the controller: the take
granted or held in IDLE, the rival run in ENTERING and DWELL, a new run in LEAVING. -/
theorem activationsTakeHoldOrWait : Obligations.ActivationsTakeHoldOrWait := by
  constructor
  · intro s r f p st run figures stored stage reached holder trailing
    have found : s.stageOf f.plan r.stage = some st := by
      rw [State.stageOf, stored]
      exact stage
    have at_reached : s.reachedPosition = reached := reachedPosition_eq s
    refine ⟨_, handOver_eq run figures found, rfl, rfl, rfl, rfl, rfl, rfl, fun green => ?_, fun yellow => ?_, fun allRed => ?_⟩
    · refine ⟨?_, clearing_trailing (by simp [green]), allRed_none (by simp [green])⟩
      simp [at_reached, RunState.intervalStart, green]
    · refine ⟨?_, allRed_none (by simp [yellow]), clearing_yellow yellow⟩
      simp [at_reached, RunState.intervalStart, yellow]
    · refine ⟨?_, clearing_trailing (by simp [allRed]), allRed_some allRed⟩
      simp [at_reached, RunState.intervalStart, allRed]
  intro i s inv running counted inactive heeded reports calling j both
  obtain ⟨⟨input, other, clock, timetable, orders, line, plans, latches⟩, faults⟩ :=
    answerCall_taken (i := i) inv.settled reports
  have same : calling.preempt = { s.preempt with pe1 := calling.preempt.pe1, pe2 := calling.preempt.pe2 } := called_preempt i s
  refine ⟨_, exec_preemptActivation running counted inactive heeded, input, other, clock, timetable, orders, line, faults, plans,
    latches, fun idle => ⟨answerCall_held i idle, fun run h handOver => ?_⟩, fun contended => ?_, fun leaving => ?_⟩
  · have granted : answerCall i (called i s) = grantTo j h calling := answerCall_granted i idle run handOver
    obtain ⟨taken, -, runs, waiting, save, holds, clears⟩ := grantTo_taken j h (s := calling) inv.settled reports
    have route : calling.route j = s.route j := route_called i s j
    have calls : calling.preempt.calls .pe2 = (decide (i = .pe2) || s.preempt.calls .pe2) := calls_called i s .pe2
    simp only [calls, Bool.or_eq_true, decide_eq_true_eq] at waiting
    rw [route] at save holds clears
    have lifted := taken.lifted
    rw [granted]
    generalize grantTo j h calling = t at *
    refine ⟨?_, ?_, ?_, ?_, ?_, ?_, ?_, ?_, ?_, ?_, ?_, lifted, ?_, ?_, runs, waiting, save, holds, clears⟩ <;> rw [taken.whole]
  · have state : calling.preempt.state = .entering ∨ calling.preempt.state = .dwell := by rw [same]; exact contended
    have runs : calling.preempt.running = s.preempt.running := by rw [same]
    refine ⟨fun own => answerCall_own state (.inl (runs.trans own)), ?_, ?_⟩
    · rintro rfl first
      exact answerCall_waits state (runs.trans first)
    · rintro rfl second
      have taken : answerCall .pe1 calling = takeOver calling := answerCall_takesOver state (runs.trans second)
      obtain ⟨whole, inputs, running, waiting, save, -, -, -, -, holds, clears⟩ := takeOver_taken calling
      obtain ⟨-, -, coord, seq⟩ := callTaken_of_run whole inputs
      have route : calling.route .pe1 = s.route .pe1 := rfl
      have new : newClearing calling (s.route .pe1).track = newClearing s (s.route .pe1).track := newClearing_called _ _ _
      rw [route, new] at clears
      exact taken ▸ ⟨running, save, waiting, coord, seq, holds, clears⟩
  · have taken : answerCall i calling = directRun i calling := answerCall_leaving (by rw [same]; exact leaving)
    obtain ⟨whole, running, waiting, save, expected, pe1, pe2, -, -, -, cleared⟩ := directRun_begun i calling
    obtain ⟨-, -, coord, seq⟩ := callTaken_of_run whole ⟨pe1, pe2⟩
    have route : calling.route i = s.route i := route_called i s i
    have new : newClearing calling (s.route i).track = newClearing s (s.route i).track := newClearing_called _ _ _
    rw [route, new, same] at cleared
    rw [same] at waiting save
    exact taken ▸ ⟨running, save, coord, seq, waiting, expected, cleared⟩

end

section
/-! The toggle of the flash (R134) and the filters that change their mark (R139 to R141): a class raised with a group and
withdrawn with the last one, where neither changes the effective action. -/

set_option Elab.async false

namespace Sys2Proof.Machine

/-! ### The toggle -/

section
variable (bank : OutputBank)

theorem redrive_aspects (new : Vector Aspect 16) (g : Group) :
    (bank.redrive new).settle[g] = if (bank.redrive new).drive[g] = bank.drive[g] then bank.settle[g] else 3 := by
  simp [OutputBank.redrive]

theorem toggle_drive (yellow : GroupSet) (g : Group) :
    (bank.toggle yellow).drive[g] = if bank.phase = .on then .dark else flashColour yellow g := by
  unfold OutputBank.toggle
  cases bank.phase <;> simp [OutputBank.redrive]

/-- A toggle drives the other phase's aspects, which settle as after any change (R132, R134). -/
theorem toggle_toggled (yellow : GroupSet) :
    let t := bank.toggle yellow
    t = { bank with drive := t.drive, settle := t.settle, phase := t.phase, half := 5 } ∧ t.phase ≠ bank.phase
      ∧ ∀ g : Group, t.settle[g] = if t.drive[g] = bank.drive[g] then bank.settle[g] else 3 := by
  unfold OutputBank.toggle
  cases bank.phase
  case on => exact ⟨rfl, by simp, redrive_aspects bank _⟩
  case off => exact ⟨rfl, by simp, redrive_aspects bank _⟩

end

theorem exec_flashToggle {s : State} (flash : s.bank.flash = true) (toggle : s.instants.toggle = true) :
    exec .flashToggle s = .next (takeToggle s) :=
  DueNow.exec_eq ⟨by decide, by decide, State.toggleDue, .inr (.inl rfl), by simp [State.toggleDue, flash, toggle]⟩

/-! ### Withdrawals that leave the effective action -/

section
variable {c : FaultClass} {s : State} (other : actionOf s.port.config c ≠ some .isolate)
include other

/-- A HELD record calls for what it called for when ACTIVE, and a class without an action, or with REPORT, for nothing either way
(R169, R171): ISOLATE alone is taken away by a withdrawal. -/
theorem contribution_withdrawRecord_same (k : FaultClass) :
    contribution s.port.config (withdrawRecord c s).faults k = contribution s.port.config s.faults k := by
  by_cases active : (s.faults.record c).state = .active
  · by_cases own : k = c
    · subst own
      unfold contribution
      rw [withdrawRecord_active active, active]
      cases action : actionOf s.port.config k with
      | none => rfl
      | some a =>
        cases a with
        | isolate => exact absurd action other
        | report | fallback | flash => rfl
    · unfold contribution
      rw [withdrawRecord_others own]
  · rw [withdrawRecord_inactive active]

theorem settled_withdrawRecord (settled : s.Settled) : (withdrawRecord c s).Settled := by
  obtain ⟨-, effective, -, config, -⟩ := withdrawRecord_leaves c s
  unfold State.Settled at settled ⊢
  rw [effective, config, settled]
  simp only [mostSevere, contribution_withdrawRecord_same other]

end

/-! ### The change of a mark -/

/-- The mark of a group's green-sense filter changes (R139). -/
def greenChanged (g : Group) (s : State) : State :=
  { s with bank.greenFilter := s.bank.greenFilter.set g ⟨!(s.bank.greenFilter[g]).faulted, 0⟩ }

/-- The mark of a group's lamp-out filter changes (R140). -/
def lampChanged (g : Group) (s : State) : State :=
  { s with bank.lampFilter := s.bank.lampFilter.set g ⟨!(s.bank.lampFilter[g]).faulted, 0⟩ }

/-- A filter that becomes CLEAN was the last one FAULTED. -/
theorem anyFaulted_set_clean (filters : Vector Filter 16) (g : Group) :
    anyFaulted (filters.set g ⟨false, 0⟩) = false ↔ ∀ h : Group, h ≠ g → (filters[h]).faulted = false := by
  have mark : ∀ h : Group, ((filters.set g ⟨false, 0⟩)[h]).faulted = if h = g then false else (filters[h]).faulted := by
    intro h
    simp only [Fin.getElem_fin, Vector.getElem_set, Fin.val_inj, eq_comm (a := g)]
    split <;> rfl
  simp [-Fin.getElem_fin, anyFaulted, groupList, mark]

section
variable {c : FaultClass} {s : State} (settled : s.Settled) (body : ReportBody)
include settled

/-- A filter becomes CLEAN: the class is withdrawn with the last one, and the effective action stays (R141, R171). -/
theorem settleAction_markedClean (other : actionOf s.port.config c ≠ some .isolate) (bank : OutputBank) {withdraws : Bool}
    {last : Prop} (iff : withdraws = true ↔ last) :
    let t := settleAction actionFuel c (if withdraws then withdrawRecord c { post body s with bank := bank } else post body s)
    (¬ last → t = { s with port := t.port })
      ∧ (last →
        t = { s with bank := bank, port := t.port, faults := t.faults } ∧ (t.faults.record c).state ≠ .active) := by
  have posted := (calm_post body s).steady settled
  refine ⟨fun stays => ?_, fun goes => ?_⟩
  · rw [if_neg (mt iff.mp stays), settleAction_settled _ _ _ posted]
    exact post_port_eq body s
  · have kept : actionOf (post body s).port.config c ≠ some .isolate := by rwa [post_port_config]
    have after : (withdrawRecord c { post body s with bank := bank }).Settled := settled_withdrawRecord kept posted
    rw [if_pos (iff.mpr goes), settleAction_settled _ _ _ after]
    obtain ⟨whole, -, -, -, inactive⟩ := withdrawRecord_leaves c { post body s with bank := bank }
    refine ⟨?_, inactive⟩
    rw [whole, post_port_eq]

/-- A filter becomes FAULTED with its class raised already: a report alone comes (R141). -/
theorem settleAction_markedAlready (g : Group) :
    settleAction actionFuel c (raiseGroup c g true (post body s)) = post body s :=
  settleAction_settled _ _ _ ((calm_post body s).steady settled)

/-- The first filter that becomes FAULTED raises its class, configured REPORT, with the group's number (R141, R170). -/
theorem settleAction_markedFirst (report : actionOf s.port.config c = some .report) (running : s.port.part = .running)
    (g : Group) :
    let t := settleAction actionFuel c (raiseGroup c g false (post body s))
    t = { s with port := t.port, faults := t.faults } ∧ (t.faults.record c).state = .active
      ∧ (t.faults.record c).detail = some (g.val + 1) := by
  obtain ⟨whole, active, detail, -, -⟩ := raise_report c (some (groupNumber g)) (post body s)
    ((calm_post body s).steady settled) (by rwa [post_port_part]) (by rwa [post_port_config])
  refine ⟨?_, active, detail⟩
  change raise c (some (groupNumber g)) (post body s) = _
  rw [whole, post_port_eq]
  rfl

end

/-! ### What each of the four takes -/

section
variable {g : Group} {s : State}

theorem takeGreenFaulted_eq (clean : (s.bank.greenFilter[g]).faulted = false) :
    takeGreenFaulted g s =
      settleAction actionFuel .greenSense (raiseGroup .greenSense g s.bank.greenSenseRaised
        (post (.readbackGroup g .greenSense true) { greenChanged g s with bank.greenSenseRaised := true })) := by
  unfold greenChanged
  rw [clean]
  rfl

theorem takeLampFaulted_eq (clean : (s.bank.lampFilter[g]).faulted = false) :
    takeLampFaulted g s =
      settleAction actionFuel .lampOut (raiseGroup .lampOut g s.bank.lampOutRaised
        (post (.readbackGroup g .lampOut true) { lampChanged g s with bank.lampOutRaised := true })) := by
  unfold lampChanged
  rw [clean]
  rfl

theorem takeGreenClean_eq (faulted : (s.bank.greenFilter[g]).faulted = true) :
    takeGreenClean g s =
      settleAction actionFuel .greenSense
        (if s.bank.greenSenseRaised && !anyFaulted (s.bank.greenFilter.set g ⟨false, 0⟩) then
          withdrawRecord .greenSense
            { post (.readbackGroup g .greenSense false) (greenChanged g s) with
              bank := { (greenChanged g s).bank with greenSenseRaised := false } }
        else post (.readbackGroup g .greenSense false) (greenChanged g s)) := by
  unfold takeGreenClean markGreenClean greenChanged
  rw [faulted]
  simp only [post_bank]
  rfl

theorem takeLampClean_eq (faulted : (s.bank.lampFilter[g]).faulted = true) :
    takeLampClean g s =
      settleAction actionFuel .lampOut
        (if s.bank.lampOutRaised && !anyFaulted (s.bank.lampFilter.set g ⟨false, 0⟩) then
          withdrawRecord .lampOut
            { post (.readbackGroup g .lampOut false) (lampChanged g s) with
              bank := { (lampChanged g s).bank with lampOutRaised := false } }
        else post (.readbackGroup g .lampOut false) (lampChanged g s)) := by
  unfold takeLampClean markLampClean lampChanged
  rw [faulted]
  simp only [post_bank]
  rfl

section
variable (running : s.port.part = .running) (flash : s.bank.flash = false)
include running flash

theorem judging_of_running : s.judging = true := by simp [State.judging, State.running, running, flash]

section
variable (counted : s.cfg.greenCount ≤ (s.bank.greenFilter[g]).count)
include counted

theorem exec_greenSenseFaulted (clean : (s.bank.greenFilter[g]).faulted = false) :
    exec (.greenSenseFaulted g) s = .next (takeGreenFaulted g s) :=
  DueNow.exec_eq ⟨by simp, by simp, fun s => s.greenFaultedDue g, .inr (.inr rfl), by
    simp [-Fin.getElem_fin, State.greenFaultedDue, judging_of_running running flash, clean, counted]⟩

theorem exec_greenSenseClean (faulted : (s.bank.greenFilter[g]).faulted = true) :
    exec (.greenSenseClean g) s = .next (takeGreenClean g s) :=
  DueNow.exec_eq ⟨by simp, by simp, fun s => s.greenCleanDue g, .inr (.inr rfl), by
    simp [-Fin.getElem_fin, State.greenCleanDue, judging_of_running running flash, faulted, counted]⟩

end

section
variable (counted : s.cfg.lampCount ≤ (s.bank.lampFilter[g]).count)
include counted

theorem exec_lampOutFaulted (clean : (s.bank.lampFilter[g]).faulted = false) :
    exec (.lampOutFaulted g) s = .next (takeLampFaulted g s) :=
  DueNow.exec_eq ⟨by simp, by simp, fun s => s.lampFaultedDue g, .inr (.inr rfl), by
    simp [-Fin.getElem_fin, State.lampFaultedDue, judging_of_running running flash, clean, counted]⟩

theorem exec_lampOutClean (faulted : (s.bank.lampFilter[g]).faulted = true) :
    exec (.lampOutClean g) s = .next (takeLampClean g s) :=
  DueNow.exec_eq ⟨by simp, by simp, fun s => s.lampCleanDue g, .inr (.inr rfl), by
    simp [-Fin.getElem_fin, State.lampCleanDue, judging_of_running running flash, faulted, counted]⟩

end

end

/-- The class is withdrawn where it is raised and no other filter is FAULTED (R141). -/
theorem withdraws_iff (raised : Bool) (filters : Vector Filter 16) (g : Group) :
    (raised && !anyFaulted (filters.set g ⟨false, 0⟩)) = true
      ↔ raised = true ∧ ∀ h : Group, h ≠ g → (filters[h]).faulted = false := by
  rw [Bool.and_eq_true, Bool.not_eq_true', anyFaulted_set_clean]

end

end Sys2Proof.Machine

open Sys2Proof Sys2Proof.Machine

/-- Settles O53: the toggle of the bank, and each change of a mark, after which the effective action stands as it stood. -/
theorem flashAndFiltersChange : Obligations.FlashAndFiltersChange := by
  intro s inv
  constructor
  · intro flash toggle
    obtain ⟨whole, phase, settle⟩ := toggle_toggled s.bank s.cfg.flashYellow
    exact ⟨_, exec_flashToggle flash toggle, rfl, whole, phase, fun g => ⟨toggle_drive _ _ g, settle g⟩⟩
  intro g running flash green lamp
  refine ⟨fun counted => ⟨fun clean raised => ?greenFaulted, fun faulted => ?greenClean⟩,
    fun counted report => ⟨fun clean => ?lampFaulted, fun faulted => ?lampClean⟩⟩
  case greenFaulted =>
    have same : ({ greenChanged g s with bank.greenSenseRaised := true } : State) = green := by rw [← raised]; rfl
    refine ⟨_, exec_greenSenseFaulted running flash counted clean, ?_⟩
    rw [takeGreenFaulted_eq clean, same, raised, settleAction_markedAlready (s := green) inv.settled]
    exact post_port_eq _ _
  case greenClean =>
    refine ⟨_, exec_greenSenseClean running flash counted faulted, ?_⟩
    rw [takeGreenClean_eq faulted]
    exact settleAction_markedClean (s := green) inv.settled _ (by simp [actionOf]) _ (withdraws_iff _ _ g)
  case lampFaulted =>
    refine ⟨_, exec_lampOutFaulted running flash counted clean, ?_⟩
    rw [takeLampFaulted_eq clean]
    cases s.bank.lampOutRaised
    case false =>
      obtain ⟨whole, active, detail⟩ := settleAction_markedFirst (c := .lampOut)
        (s := { lamp with bank.lampOutRaised := true }) inv.settled (.readbackGroup g .lampOut true) report running g
      exact ⟨whole, nofun, fun _ => ⟨active, detail⟩⟩
    case true =>
      rw [settleAction_markedAlready (s := { lampChanged g s with bank.lampOutRaised := true }) inv.settled]
      refine ⟨?_, fun _ => post_faults _ _, nofun⟩
      rw [post_faults]
      exact post_port_eq _ _
  case lampClean =>
    refine ⟨_, exec_lampOutClean running flash counted faulted, ?_⟩
    rw [takeLampClean_eq faulted]
    exact settleAction_markedClean (s := lamp) inv.settled _ (by simp [lamp, report]) _ (withdraws_iff _ _ g)

end

section
/-! REWRITE_SAVE (R161): its checks in their order, and the override that an accepted one writes. -/

set_option Elab.async false

namespace Sys2Proof.Machine

/-! ### Its fields -/

theorem overrideInRange_iff {body : List Byte} :
    overrideInRange body = true ↔
      1 ≤ field body 0 1 ∧ field body 0 1 ≤ 32 ∧ field body 1 1 ≤ 1 ∧ 1 ≤ field body 8 1 ∧ field body 8 1 ≤ 8
        ∧ (field body 1 1 = 1 → (timeField body 2).ms < 604800000) := by
  have week : weekMs = 604800000 := rfl
  simp only [overrideInRange, planNumber_iff, within_iff, NetTime.inWeek, Bool.and_eq_true, Bool.or_eq_true,
    decide_eq_true_eq]
  omega

/-- The kind 0 is DAILY and the kind 1, the only other one in range, the fixed instant (R215). -/
theorem readOverride_of_kind {body : List Byte} (kind : field body 1 1 ≤ 1) :
    readOverride body =
      { adoption :=
          { plan := field body 0 1
            reference := if field body 1 1 = 0 then .daily else .fixed (timeField body 2) }
        stage := field body 8 1 } := by
  unfold readOverride
  by_cases daily : field body 1 1 = 0
  · rw [if_pos daily, if_neg (by omega)]
  · rw [if_neg daily, if_pos (by omega)]

/-! ### Its checks -/

/-- A slot without a plan is EMPTY, and an EMPTY slot is without one (R22). -/
theorem storedPlan_eq_none_iff {s : State} (sound : s.store.Sound) (n : Nat) :
    s.storedPlan n = none ↔ (s.slot n).state = .empty :=
  (((store_sound_iff s.store).mp sound).2.2.1 n).symm

section
variable {body : List Byte} {s : State}

theorem rewriteSaveWork_range (bad : ¬ overrideInRange body = true) : rewriteSaveWork body s = (s, plain .range) :=
  if_pos (by simpa using bad)

variable (good : overrideInRange body = true)
include good

theorem rewriteSaveWork_idle (idle : s.preempt.state = .idle) : rewriteSaveWork body s = (s, plain .state) := by
  simp only [rewriteSaveWork, good, idle, Bool.not_true, Bool.false_eq_true, if_false]

variable {r : SaveRecord} (busy : s.preempt.state ≠ .idle) (save : s.preempt.save = some r)
include busy save

/-- With a save record the slot and the stage are what is left to check. -/
theorem rewriteSaveWork_save :
    rewriteSaveWork body s =
      match s.storedPlan (readOverride body).adoption.plan with
      | none => (s, invalid .planEmpty (readOverride body).adoption.plan)
      | some p =>
        if p.plan.stageCount < (readOverride body).stage then (s, invalid .entryStage 0)
        else (writeOverride (readOverride body) r s, done []) := by
  unfold rewriteSaveWork
  rw [good, save]
  cases state : s.preempt.state
  case idle => exact absurd state busy
  all_goals rfl

theorem rewriteSaveWork_empty (empty : s.storedPlan (field body 0 1) = none) :
    rewriteSaveWork body s = (s, invalid .planEmpty (field body 0 1)) := by
  rw [rewriteSaveWork_save good busy save]
  simp only [readOverride, empty]

variable {p : StoredPlan} (stored : s.storedPlan (field body 0 1) = some p)
include stored

theorem rewriteSaveWork_beyond (beyond : p.plan.stageCount < field body 8 1) :
    rewriteSaveWork body s = (s, invalid .entryStage 0) := by
  rw [rewriteSaveWork_save good busy save]
  simp only [readOverride, stored, beyond, if_true]

theorem rewriteSaveWork_done (reached : field body 8 1 ≤ p.plan.stageCount) :
    rewriteSaveWork body s = (writeOverride (readOverride body) r s, done []) := by
  rw [rewriteSaveWork_save good busy save]
  simp only [readOverride, stored, Nat.not_lt.mpr reached, if_false]

end

/-! ### The exchange -/

section
variable (seq : Byte) {body : List Byte} {s : State} (running : s.port.part = .running) (length : body.length = 9)
include running length

theorem exec_rewriteSave {x : State × Answer} (work : rewriteSaveWork body (discardHeld s) = x) :
    exec (.rewriteSave seq body) s = .next (hold 0x31 seq x.2 x.1) := by
  have fits : lengthIs 9 body = true := decide_eq_true length
  change Host.Outcome.next (serve 0x31 seq (lengthIs 9 body) .runningOnly (rewriteSaveWork body) s) = _
  rw [fits, serve_done _ _ _ _ _ (admits_runningOnly running), work]

theorem exec_rewriteSave_refused {a : Answer} (work : rewriteSaveWork body (discardHeld s) = (discardHeld s, a)) :
    exec (.rewriteSave seq body) s = .next (s.answered 0x31 seq a.code a.body) := by
  rw [exec_rewriteSave seq running length work]
  exact congrArg _ (hold_discardHeld _ _ a s)

end

/-! ### What it writes -/

theorem discardHeld_port_eq (s : State) : discardHeld s = { s with port := (discardHeld s).port } := by
  unfold discardHeld
  split <;> rfl

/-- The override, the stage request granted and the staged adoption emptied, and a report posted (R161). -/
theorem writeOverride_eq {o : Override} {store : PlanStore} (r : SaveRecord) {s : State}
    (granted : s.store.stage o.adoption.plan = some store) :
    writeOverride o r s =
      { s with
        preempt.save := some { r with override := some o }
        store := store
        coord.staged := none
        port := (writeOverride o r s).port } := by
  unfold writeOverride
  rw [granted]
  exact post_port_eq _ _

end Sys2Proof.Machine

open Sys2Proof Sys2Proof.Machine

/-- Settles O59: whichever check of `rewriteSaveWork` fails first, its answer is given and nothing else is done; where none
does, the stage request is granted, since the slot holds a plan. -/
theorem rewriteSaveFollowsItsCases : Obligations.RewriteSaveFollowsItsCases := by
  intro seq body s inv running length plan kind stage ok o answers
  have refused : ∀ {a : Answer}, rewriteSaveWork body (discardHeld s) = (discardHeld s, a) → answers a.code a.body :=
    exec_rewriteSave_refused seq running length
  refine ⟨fun bad => ?_, fun good idle => ?_, fun good busy r save => ?_⟩
  · exact refused (rewriteSaveWork_range (mt overrideInRange_iff.mp bad))
  · exact refused (rewriteSaveWork_idle (overrideInRange_iff.mpr good) (by rwa [discardHeld_preempt]))
  have inRange : overrideInRange body = true := overrideInRange_iff.mpr good
  rw [← discardHeld_preempt s] at busy save
  refine ⟨fun empty => ?_, fun p stored => ⟨fun beyond => ?_, fun reached => ?_⟩⟩
  · have none : s.storedPlan plan = none := (storedPlan_eq_none_iff inv.store plan).mpr empty
    exact refused (rewriteSaveWork_empty inRange busy save (by rwa [discardHeld_storedPlan]))
  · exact refused (rewriteSaveWork_beyond inRange busy save (by rwa [discardHeld_storedPlan]) beyond)
  · have work := rewriteSaveWork_done inRange busy save (by rwa [discardHeld_storedPlan]) reached
    obtain ⟨-, -, known, -⟩ := good
    obtain ⟨store, granted⟩ := stage_some (slot_nonempty inv.store stored)
    have asked : readOverride body = o := readOverride_of_kind known
    have written := writeOverride_eq (o := o) r (s := discardHeld s) (by rwa [discardHeld_store])
    rw [asked] at work
    refine ⟨_, exec_rewriteSave seq running length work, ?_⟩
    rw [written, discardHeld_port_eq]
    exact ⟨rfl, rfl, stage_state_same granted, fun n =>
      ⟨stage_plan granted n, stage_pinned granted n, stage_state_other inv.store granted⟩⟩

end

section
/-! ORDER and CANCEL frames on the line (R190 to R193): the frame's own bookkeeping, the dedup cache, and the relay copy. -/

set_option Elab.async false

namespace Sys2Proof.Machine

/-! ### The dedup cache -/

/-- A new key goes to the end, the oldest leaving a full cache (R192). -/
theorem enterKey_new {k : DedupKey} {cache : List DedupKey} (new : k ∉ cache) :
    enterKey k cache = (if cache.length < 32 then cache else cache.drop 1) ++ [k] := by
  unfold enterKey
  rw [if_neg new]
  split <;> rfl

section
variable {s : State} (running : s.port.part = .running) (receiving : s.line.receiving = true) {body : List Byte} (sender : Byte)
include running receiving

theorem exec_orderFrameReceived_duplicate (length : body.length = 28) (held : (readOrderBody body).dedupKey ∈ s.line.dedup) :
    exec (.orderFrameReceived sender body) s = .next (countDuplicate (countReceived s)) := by
  have inFrame : (s.inFrame && decide (body.length ∈ frameLengths 2)) = true := by
    rw [inFrame_of_receiving running receiving, length]
    rfl
  have taken : receiveOrder body s = _ := if_pos held
  exact (if_pos inFrame).trans (by rw [taken])

theorem exec_cancelFrameReceived_duplicate (length : body.length = 18) (held : (readCancelBody body).dedupKey ∈ s.line.dedup) :
    exec (.cancelFrameReceived sender body) s = .next (countDuplicate (countReceived s)) := by
  have inFrame : (s.inFrame && decide (body.length ∈ frameLengths 3)) = true := by
    rw [inFrame_of_receiving running receiving, length]
    rfl
  have taken : receiveCancel body s = _ := if_pos held
  exact (if_pos inFrame).trans (by rw [taken])

end

/-! ### The relay copy -/

/-- The relay of a frame, ORDER or CANCEL: a copy where the hop limit calls for one (R193). -/
def relayCopy (hop : Nat) (copy : FrameBody) (s : State) : State :=
  if relayable hop then placeRelay copy s else s

theorem relayOrder_eq (o : OrderContent) : relayOrder o = relayCopy o.hop (.order { o with hop := o.hop - 1 }) := rfl

theorem relayCancel_eq (c : CancelContent) : relayCancel c = relayCopy c.hop (.cancel { c with hop := c.hop - 1 }) := rfl

theorem relayable_iff {hop : Nat} : relayable hop = true ↔ 1 ≤ hop ∧ hop ≤ 15 := by
  simp [relayable]

theorem placeRelay_room (copy : FrameBody) {s : State} (room : s.line.queue.length < 8) :
    placeRelay copy s = placeTail { body := copy, attempts := 0, relay := true } s :=
  if_pos (decide_eq_true room)

theorem placeRelay_full (copy : FrameBody) {s : State} (full : 8 ≤ s.line.queue.length) :
    placeRelay copy s = { s with line.counts.relayDropped := countUp 65535 s.line.counts.relayDropped } :=
  if_neg (by simpa [LineInterface.hasRoom] using full)

/-- What the relay of a frame does to queue and transmitter (R183, R184, R193). -/
structure Relays (old new : LineInterface) (hop : Nat) (copy : FrameBody) : Prop where
  placed : 1 ≤ hop → hop ≤ 15 → old.queue.length < 8 → PlacedAtTail old new { body := copy, attempts := 0, relay := true }
  dropped : 1 ≤ hop → hop ≤ 15 → 8 ≤ old.queue.length →
    new.queue = old.queue ∧ GoesOn old new ∧ new.counts.relayDropped = min 65535 (old.counts.relayDropped + 1)
  stays : hop = 0 ∨ 15 < hop → new.queue = old.queue ∧ GoesOn old new

theorem relays_relayCopy (hop : Nat) (copy : FrameBody) (s : State) : Relays s.line (relayCopy hop copy s).line hop copy := by
  unfold relayCopy
  constructor
  case placed =>
    intro low high room
    rw [if_pos (relayable_iff.mpr ⟨low, high⟩), placeRelay_room copy room]
    exact placeTail_placed _ s
  case dropped =>
    intro low high full
    rw [if_pos (relayable_iff.mpr ⟨low, high⟩), placeRelay_full copy full]
    exact ⟨rfl, ⟨rfl, rfl, rfl, rfl⟩, rfl⟩
  case stays =>
    intro out
    rw [if_neg (by rw [relayable_iff]; omega)]
    exact ⟨rfl, rfl, rfl, rfl, rfl⟩

/-- The receiver, the frames counted as received and the round's counts stay. -/
structure ReceiverStays (old new : LineInterface) : Prop where
  receiving : new.receiving = old.receiving
  received : new.counts.received = old.counts.received
  present : new.present = old.present

theorem receiverStays_placeTail (f : Frame) (s : State) : ReceiverStays s.line (placeTail f s).line := by
  unfold placeTail
  dsimp only
  split
  · exact ⟨deferOnHead_line_receiving _, congrArg LineCounts.received (deferOnHead_line_counts _), deferOnHead_line_present _⟩
  · exact ⟨rfl, rfl, rfl⟩

theorem receiverStays_relayCopy (hop : Nat) (copy : FrameBody) (s : State) :
    ReceiverStays s.line (relayCopy hop copy s).line := by
  unfold relayCopy placeRelay
  split
  · split
    · exact receiverStays_placeTail _ s
    · exact ⟨rfl, rfl, rfl⟩
  · exact ⟨rfl, rfl, rfl⟩

theorem lineOnly_relayCopy (hop : Nat) (copy : FrameBody) (s : State) : LineOnly s (relayCopy hop copy s) := by
  unfold relayCopy
  split
  · exact lineOnly_placeRelay copy s
  · exact ⟨rfl, rfl, rfl⟩

/-! ### A frame with a new dedup key -/

/-- An ORDER changes, of what a delivery leaves, the order list alone. -/
theorem rearranged_arriveOrder (o : OrderContent) (s : State) : Rearranged s (arriveOrder o s) := by
  by_cases ok : o.acceptable s.clock.reading = true
  · rw [arriveOrder_accepted ok]
    exact rearranged_processOrder o s
  · rw [arriveOrder_rejected ok]
    exact rearranged_orders s _

/-- An order list rearranged, told as a change of both lists. -/
theorem Rearranged.arrived {s t : State} (h : Rearranged s t) :
    Kept { s with orders.entries := t.orders.entries, orders.issued := t.orders.issued } t :=
  { h with issued := rfl }

/-- What a frame with a new dedup key leaves beside the order lists and the send queue (R190, R192). -/
def TakenOnce (s : State) (k : DedupKey) (t : State) : Prop :=
  t.line.dedup = (if s.line.dedup.length < 32 then s.line.dedup else s.line.dedup.drop 1) ++ [k]
    ∧ t.line.receiving = false ∧ t.line.counts.received = min 65535 (s.line.counts.received + 1)
    ∧ t.line.present = { s.line.present with received := s.line.present.received + 1 } ∧ t.clock = s.clock
    ∧ t.timetable.entries = s.timetable.entries ∧ t.seq.latches = s.seq.latches ∧ t.port.held = s.port.held
    ∧ ∀ n, t.storedPlan n = s.storedPlan n

section
variable {s u : State} {k : DedupKey} (hop : Nat) (copy : FrameBody)
  (arrived : Kept { receivedNew k s with orders.entries := u.orders.entries, orders.issued := u.orders.issued } u)
include arrived

/-- The relay after an arrival, told of the line before the frame. -/
theorem relays_arrived : Relays s.line (relayCopy hop copy u).line hop copy := by
  have line : u.line = (receivedNew k s).line := arrived.line
  have relays := relays_relayCopy hop copy u
  rw [line] at relays
  obtain ⟨placed, dropped, stays⟩ := relays
  exact ⟨fun low high room => (placed low high room).before (s := s) (u := receivedNew k s), dropped, stays⟩

theorem takenOnce_arrived (new : k ∉ s.line.dedup) : TakenOnce s k (relayCopy hop copy u) := by
  have line : u.line = (receivedNew k s).line := arrived.line
  have relay := lineOnly_relayCopy hop copy u
  obtain ⟨receiving, received, present⟩ := receiverStays_relayCopy hop copy u
  have entered : (relayCopy hop copy u).line.dedup = enterKey k s.line.dedup := by rw [relay.dedup, line]; rfl
  rw [line] at receiving received present
  rw [enterKey_new new] at entered
  unfold TakenOnce
  refine ⟨entered, receiving, received, present, ?_⟩
  rw [relay.others]
  exact ⟨arrived.clock, arrived.entries, arrived.latches, arrived.held, arrived.plans⟩

end

end Sys2Proof.Machine

open Sys2Proof Sys2Proof.Machine

/-- Settles O28: a duplicate is counted; with a new key the arrival leaves the line as the frame's bookkeeping has put it, and
what the relay then does is told of that line. -/
theorem orderFramesAreTakenOnceAndRelayed : Obligations.OrderFramesAreTakenOnceAndRelayed := by
  intro sender body s running receiving received entered relayed common
  constructor
  · intro length o
    refine ⟨exec_orderFrameReceived_duplicate running receiving sender length, fun new => ?_⟩
    have orders := rearranged_arriveOrder o (receivedNew o.dedupKey s)
    have relay := lineOnly_relayOrder o (arriveOrder o (receivedNew o.dedupKey s))
    have issued := (congrArg OrderHandler.issued relay.orders).trans orders.issued
    have taken := takenOnce_arrived o.hop (.order { o with hop := o.hop - 1 }) orders.arrived new
    obtain ⟨placed, dropped, stays⟩ := relays_arrived o.hop (.order { o with hop := o.hop - 1 }) orders.arrived
    exact ⟨_, exec_orderFrameReceived running receiving sender length new, taken, issued, placed, dropped, stays⟩
  · intro length c
    refine ⟨exec_cancelFrameReceived_duplicate running receiving sender length, fun new => ?_⟩
    have arrived := kept_arriveCancel c (receivedNew c.dedupKey s)
    have taken := takenOnce_arrived c.hop (.cancel { c with hop := c.hop - 1 }) arrived new
    obtain ⟨placed, dropped, stays⟩ := relays_arrived c.hop (.cancel { c with hop := c.hop - 1 }) arrived
    exact ⟨_, exec_cancelFrameReceived running receiving sender length new, taken, placed, dropped, stays⟩

end

section
/-! The end of an attempt (R181, R184 to R188, R194): a frame sent whole, and one that failed, tried again or given up. -/

set_option Elab.async false

namespace Sys2Proof.Machine

/-! ### The line after the transmitter turns to the head -/

theorem deferOnHead_line_eq (s : State) :
    (deferOnHead s).line =
      { s.line with tx := (deferOnHead s).line.tx, wait := (deferOnHead s).line.wait, deferred := 0 } := by
  unfold deferOnHead
  split <;> [rfl; (split <;> rfl)]

/-- LINE_JAM's mark is none of the transmitter's (R184). -/
theorem DefersOnHead.marked {l : LineInterface} (h : DefersOnHead l) (jam : Bool) : DefersOnHead { l with jamRaised := jam } :=
  ⟨h.idle, h.defer, h.plain, h.relay, h.deferred⟩

/-- A mark of LINE_JAM set as it stands. -/
theorem jamRaised_set {s : State} {jam : Bool} (same : s.line.jamRaised = jam) : { s with line.jamRaised := jam } = s := by
  rw [← same]

/-! ### A frame sent whole -/

/-- The frame in hand has left it and is counted, the give-up run ended (R186, R188). -/
def frameOut (s : State) : State :=
  { s with
    line.inHand := none
    line.lineOut := []
    line.idleTime := 0
    line.counts.sent := countUp 65535 s.line.counts.sent
    line.present.sent := s.line.present.sent + 1
    line.giveUpRun := 0 }

/-- The frame out, the transmitter gone to the new head, the mark of LINE_JAM taken away (R186, R188). -/
def jamCleared (s : State) : State := { deferOnHead (frameOut s) with line.jamRaised := false }

section
variable (s : State)

theorem completeFrame_quiet (quiet : s.line.jamRaised = false) : completeFrame s = jamCleared s := by
  have same : (deferOnHead (frameOut s)).line.jamRaised = false := (deferOnHead_line_jamRaised _).trans quiet
  rw [jamCleared, jamRaised_set same]
  exact if_neg (Bool.eq_false_iff.mp same)

theorem completeFrame_jammed (jammed : s.line.jamRaised = true) : completeFrame s = withdraw .lineJam (jamCleared s) := by
  have same : (deferOnHead (frameOut s)).line.jamRaised = true := (deferOnHead_line_jamRaised _).trans jammed
  exact if_pos same

theorem delivers_completeFrame : Delivers (jamCleared s) (completeFrame s) := by
  cases jam : s.line.jamRaised with
  | false =>
    rw [completeFrame_quiet s jam]
    exact Delivers.refl _
  | true =>
    rw [completeFrame_jammed s jam]
    exact delivers_withdraw _ _

theorem completeFrame_line :
    (completeFrame s).line =
      { (frameOut s).line with
        tx := (completeFrame s).line.tx, wait := (completeFrame s).line.wait, deferred := 0, jamRaised := false } := by
  rw [(delivers_completeFrame s).kept.line]
  exact congrArg (fun l : LineInterface => { l with jamRaised := false }) (deferOnHead_line_eq (frameOut s))

theorem completeFrame_defers : DefersOnHead (completeFrame s).line := by
  rw [(delivers_completeFrame s).kept.line]
  exact (deferOnHead_defers (frameOut s)).1.marked false

theorem completeFrame_clock : (completeFrame s).clock = s.clock :=
  (delivers_completeFrame s).kept.clock.trans (deferOnHead_clock (frameOut s))

end

/-! ### The report of a given-up frame -/

section
variable (f : Frame) (s : State)

theorem delivers_reportGivenUp : Delivers s (reportGivenUp f s) := by
  unfold reportGivenUp
  split
  · exact Delivers.refl s
  · split
    · exact Delivers.refl s
    · exact delivers_post _ s
    · exact delivers_post _ s

variable {f}

theorem reportGivenUp_order (own : f.relay = false) {o : OrderContent} (body : f.body = .order o) :
    reportGivenUp f s = post (.sendGivenUp .order o.key o.revision o.announce) s := by
  simp [reportGivenUp, own, body]

theorem reportGivenUp_cancel (own : f.relay = false) {c : CancelContent} (body : f.body = .cancel c) :
    reportGivenUp f s = post (.sendGivenUp .cancel c.key c.revision c.announce) s := by
  simp [reportGivenUp, own, body]

end

/-! ### A frame given up -/

/-- The frame discarded and counted in the give-up run (R188). -/
def frameDropped (s : State) : State :=
  { s with
    line.inHand := none
    line.counts.giveUp := countUp 65535 s.line.counts.giveUp
    line.giveUpRun := countUp 255 s.line.giveUpRun }

/-- The frame discarded and reported, the transmitter gone to the new head, LINE_JAM marked from the sixteenth in a row on
(R188). -/
def jamMarked (f : Frame) (s : State) : State :=
  { deferOnHead (reportGivenUp f (frameDropped s)) with
    line.jamRaised := s.line.jamRaised || decide (16 ≤ countUp 255 s.line.giveUpRun) }

section
variable (f : Frame) (s : State)

theorem reported_line : (reportGivenUp f (frameDropped s)).line = (frameDropped s).line :=
  (delivers_reportGivenUp f _).kept.line

theorem passedOn_jamRaised : (deferOnHead (reportGivenUp f (frameDropped s))).line.jamRaised = s.line.jamRaised := by
  rw [deferOnHead_line_jamRaised, reported_line]
  rfl

theorem giveUp_jams (run : 16 ≤ countUp 255 s.line.giveUpRun) (quiet : s.line.jamRaised = false) :
    giveUp f s = raise .lineJam none (jamMarked f s) := by
  have jam : (s.line.jamRaised || decide (16 ≤ countUp 255 s.line.giveUpRun)) = true := by simp [run]
  rw [jamMarked, jam]
  exact if_pos ⟨run, (passedOn_jamRaised f s).trans quiet⟩

theorem giveUp_plain (plain : ¬ (16 ≤ countUp 255 s.line.giveUpRun ∧ s.line.jamRaised = false)) :
    giveUp f s = jamMarked f s := by
  have stays : (s.line.jamRaised || decide (16 ≤ countUp 255 s.line.giveUpRun)) = s.line.jamRaised := by
    cases jam : s.line.jamRaised with
    | true => rfl
    | false => exact decide_eq_false fun run => plain ⟨run, jam⟩
  rw [← passedOn_jamRaised f s] at plain
  rw [jamMarked, stays, jamRaised_set (passedOn_jamRaised f s)]
  exact if_neg plain

theorem giveUp_cases : giveUp f s = raise .lineJam none (jamMarked f s) ∨ giveUp f s = jamMarked f s := by
  by_cases jams : 16 ≤ countUp 255 s.line.giveUpRun ∧ s.line.jamRaised = false
  · obtain ⟨run, quiet⟩ := jams
    exact .inl (giveUp_jams f s run quiet)
  · exact .inr (giveUp_plain f s jams)

theorem delivers_giveUp : Delivers (jamMarked f s) (giveUp f s) := by
  rcases giveUp_cases f s with given | given <;> rw [given]
  · exact delivers_raise _ _ _
  · exact Delivers.refl _

theorem giveUp_line :
    (giveUp f s).line =
      { (frameDropped s).line with
        tx := (giveUp f s).line.tx, wait := (giveUp f s).line.wait, deferred := 0
        jamRaised := s.line.jamRaised || decide (16 ≤ countUp 255 s.line.giveUpRun) } := by
  have turned := deferOnHead_line_eq (reportGivenUp f (frameDropped s))
  rw [reported_line] at turned
  rw [(delivers_giveUp f s).kept.line]
  exact congrArg (fun l : LineInterface =>
    { l with jamRaised := s.line.jamRaised || decide (16 ≤ countUp 255 s.line.giveUpRun) }) turned

theorem giveUp_defers : DefersOnHead (giveUp f s).line := by
  rw [(delivers_giveUp f s).kept.line]
  exact (deferOnHead_defers (reportGivenUp f (frameDropped s))).1.marked _

theorem giveUp_clock : (giveUp f s).clock = s.clock :=
  ((delivers_giveUp f s).kept.clock.trans (deferOnHead_clock _)).trans (delivers_reportGivenUp f (frameDropped s)).kept.clock

/-- What is reported of the frame stays reported (R208). -/
theorem posts_giveUp : Posts (reportGivenUp f (frameDropped s)) (giveUp f s) := by
  have marked : Posts (reportGivenUp f (frameDropped s)) (jamMarked f s) :=
    (Posts.refl _).before (congrArg CabinetPort.reports (deferOnHead_port _))
  rcases giveUp_cases f s with given | given <;> rw [given]
  · exact marked.trans (posts_raise _ _ _)
  · exact marked

variable {f s}

/-- A report for which there is room is among those held once the frame is given up (R188, R208). -/
theorem giveUp_reports {r : ReportBody} (posted : reportGivenUp f (frameDropped s) = post r (frameDropped s))
    (room : s.port.reports.length < 32) : { time := s.clock.reading, body := r } ∈ (giveUp f s).port.reports := by
  refine (posts_giveUp f s).reports.subset ?_
  rw [posted, post_room r (frameDropped s) room]
  exact List.mem_append_right _ (List.mem_singleton_self _)

theorem giveUp_raises (running : s.port.part = .running) (quiet : s.line.jamRaised = false)
    (run : 16 ≤ countUp 255 s.line.giveUpRun) : ((giveUp f s).faults.record .lineJam).state = .active := by
  have part : (jamMarked f s).port.part = s.port.part :=
    (congrArg CabinetPort.part (deferOnHead_port _)).trans (delivers_reportGivenUp f (frameDropped s)).kept.part
  rw [giveUp_jams f s run quiet]
  exact record_raise (by decide) _ (part.trans running)

end

/-- What a frame given up leaves (R188). -/
def GivenUp (s : State) (f : Frame) (t : State) : Prop :=
  t.line.inHand = none ∧ t.line.queue = s.line.queue ∧ t.line.counts.giveUp = min 65535 (s.line.counts.giveUp + 1)
    ∧ t.line.giveUpRun = min 255 (s.line.giveUpRun + 1) ∧ DefersOnHead t.line
    ∧ (t.line.jamRaised = (s.line.jamRaised || decide (16 ≤ t.line.giveUpRun)))
    ∧ (s.port.part = .running → s.line.jamRaised = false → 16 ≤ t.line.giveUpRun → (t.faults.record .lineJam).state = .active)
    ∧ (f.relay = false → s.port.reports.length < 32 →
      (∀ o, f.body = .order o →
        { time := s.clock.reading, body := .sendGivenUp .order o.key o.revision o.announce } ∈ t.port.reports)
      ∧ ∀ c, f.body = .cancel c →
        { time := s.clock.reading, body := .sendGivenUp .cancel c.key c.revision c.announce } ∈ t.port.reports)

theorem givenUp_giveUp (f : Frame) (s : State) : GivenUp s f (giveUp f s) := by
  have told {α : Type} (part : LineInterface → α) := congrArg part (giveUp_line f s)
  have run : (giveUp f s).line.giveUpRun = countUp 255 s.line.giveUpRun := told LineInterface.giveUpRun
  have jam : (giveUp f s).line.jamRaised = (s.line.jamRaised || decide (16 ≤ countUp 255 s.line.giveUpRun)) :=
    told LineInterface.jamRaised
  rw [← run] at jam
  refine ⟨told LineInterface.inHand, told LineInterface.queue, congrArg LineCounts.giveUp (told LineInterface.counts), run,
    giveUp_defers f s, jam, fun running quiet sixteenth => ?_, fun own room => ⟨fun o body => ?_, fun c body => ?_⟩⟩
  · rw [run] at sixteenth
    exact giveUp_raises running quiet sixteenth
  · exact giveUp_reports (reportGivenUp_order _ own body) room
  · exact giveUp_reports (reportGivenUp_cancel _ own body) room

/-! ### A failed attempt -/

section
variable {f : Frame} (s : State)

theorem attemptFailed_again (below : f.attempts < 8) :
    attemptFailed f s =
      { s with
        line.lineOut := []
        line.inHand := some f
        line.tx := .backoff
        line.wait := (Config.backoffDraw s.draws).toNat % 2 ^ min f.attempts 6 * slotTime
        line.deferred := 0
        draws := s.draws + 1 } :=
  if_neg (Nat.not_le.mpr below)

theorem attemptFailed_last (eighth : 8 ≤ f.attempts) : attemptFailed f s = giveUp f { s with line.lineOut := [] } :=
  if_pos eighth

end

/-- What a failed attempt of a frame leaves (R187, R188). -/
def AttemptFailed (s : State) (f : Frame) (t : State) : Prop :=
  (f.attempts < 8 →
    t.line.tx = .backoff ∧ t.line.inHand = some f ∧ t.line.queue = s.line.queue ∧ t.line.giveUpRun = s.line.giveUpRun
      ∧ ∃ slots, slots < 2 ^ min f.attempts 6 ∧ t.line.wait = slots * 16000)
  ∧ (8 ≤ f.attempts → GivenUp s f t)
  ∧ t.line.deferred = 0 ∧ t.line.dedup = s.line.dedup ∧ t.clock = s.clock

/-- The counts of collisions, of defer limits and of the round, and the count of idle line, stay. -/
def OtherCountsStay (s t : State) : Prop :=
  t.line.counts.collision = s.line.counts.collision ∧ t.line.counts.deferTimeout = s.line.counts.deferTimeout
    ∧ t.line.present = s.line.present ∧ t.line.idleTime = s.line.idleTime

section
variable (f : Frame) (s : State)

theorem otherCountsStay_attemptFailed : OtherCountsStay s (attemptFailed f s) := by
  by_cases below : f.attempts < 8
  · rw [attemptFailed_again s below]
    exact ⟨rfl, rfl, rfl, rfl⟩
  · rw [attemptFailed_last s (Nat.not_lt.mp below), OtherCountsStay, giveUp_line]
    exact ⟨rfl, rfl, rfl, rfl⟩

theorem attemptFailed_fails : AttemptFailed s f (attemptFailed f s) := by
  by_cases below : f.attempts < 8
  · rw [attemptFailed_again s below]
    exact ⟨fun _ => ⟨rfl, rfl, rfl, rfl, _, Nat.mod_lt _ (Nat.two_pow_pos _), rfl⟩,
      fun eighth => absurd below (Nat.not_lt.mpr eighth), rfl, rfl, rfl⟩
  · have told {α : Type} (part : LineInterface → α) := congrArg part (giveUp_line f { s with line.lineOut := [] })
    rw [attemptFailed_last s (Nat.not_lt.mp below)]
    exact ⟨fun again => absurd again below, fun _ => givenUp_giveUp f { s with line.lineOut := [] },
      told LineInterface.deferred, told LineInterface.dedup, giveUp_clock f _⟩

end

/-! ### The events -/

section
variable {s : State} {f : Frame}

theorem exec_frameSent (sending : s.line.tx = .sending) : exec .frameSent s = .next (completeFrame s) := if_pos sending

/-- The collision told and counted (R187, R194). -/
def collisionCounted (s : State) : State :=
  { s with
    line.idleTime := 0
    line.counts.collision := countUp 65535 s.line.counts.collision
    line.present.collisions := s.line.present.collisions + 1 }

theorem exec_collision (sending : s.line.tx = .sending) (hand : s.line.inHand = some f) :
    exec .collision s = .next (attemptFailed f (collisionCounted s)) := by
  have taken : collide s = attemptFailed f (collisionCounted s) := by
    unfold collide
    rw [hand]
    rfl
  rw [← taken]
  exact if_pos sending

/-- The defer limit reached and counted, with the queue behind the frame (R185). -/
def limitCounted (rest : List Frame) (s : State) : State :=
  { s with
    line.queue := rest
    line.counts.deferTimeout := countUp 65535 s.line.counts.deferTimeout }

theorem exec_deferTimeout {rest : List Frame} (defer : s.line.tx = .defer) (wait : s.line.wait = 0)
    (limit : 8192000 ≤ s.line.deferred) (next : s.line.next = some f) (behind : s.line.rest = rest) :
    exec .deferTimeout s =
      .next (attemptFailed { f with attempts := f.attempts + 1 } (limitCounted rest s)) := by
  have due : s.deferDue = true := by
    simp [State.deferDue, LineInterface.ready, defer, wait, next, deferLimit, limit]
  have taken : reachDeferLimit s = attemptFailed { f with attempts := f.attempts + 1 } (limitCounted rest s) := by
    unfold reachDeferLimit
    rw [next, behind]
    rfl
  rw [← taken]
  exact congrArg Host.Outcome.next (whenReached_of_due _ due)

end

end Sys2Proof.Machine

open Sys2Proof Sys2Proof.Machine

/-- Settles O45: the three events end an attempt by `completeFrame` or by `attemptFailed`, and the counts they make first leave
all that a failed attempt is told by. -/
theorem attemptsEndAsSentOrCollided : Obligations.AttemptsEndAsSentOrCollided := by
  intro s inv failed
  refine ⟨fun sending => ⟨⟨_, exec_frameSent sending, ?_⟩, fun f hand => ?_⟩, fun defer wait limit f rest toSend => ?_⟩
  · have told {α : Type} (part : LineInterface → α) := congrArg part (completeFrame_line s)
    have ends (jammed : s.line.jamRaised = true) : ((completeFrame s).faults.record .lineJam).state ≠ .active := by
      rw [completeFrame_jammed s jammed]
      exact record_withdraw_ne_active (by decide) _
    exact ⟨told LineInterface.inHand, told LineInterface.queue, completeFrame_defers s, told LineInterface.counts,
      told LineInterface.present, told LineInterface.giveUpRun, told LineInterface.jamRaised, told LineInterface.deferred,
      told LineInterface.idleTime, ends, told LineInterface.dedup, completeFrame_clock s⟩
  · obtain ⟨collision, -, present, idle⟩ := otherCountsStay_attemptFailed f (collisionCounted s)
    exact ⟨_, exec_collision sending hand, attemptFailed_fails f (collisionCounted s), collision,
      congrArg RoundCounts.collisions present, idle⟩
  · obtain ⟨next, behind⟩ := next_rest toSend
    obtain ⟨collision, reached, -, idle⟩ :=
      otherCountsStay_attemptFailed { f with attempts := f.attempts + 1 } (limitCounted rest s)
    exact ⟨_, exec_deferTimeout defer wait limit next behind, attemptFailed_fails _ (limitCounted rest s), reached, collision,
      idle⟩

end

section
/-! The Cabinet Port: the checks of a packet, the read transfer, the reports and their formats, and that every command answers a
next state with the queue as it was. -/

set_option Elab.async false

namespace Sys2Proof.Machine

/-! ### The read transfer -/

/-- READ_TRANSFER with a response held sends from its first byte and keeps it until its last byte has been read (R200). -/
theorem exec_readTransfer_held {s : State} {r : Response} (held : s.port.held = some r) (count : Nat) :
    exec (.readTransfer count) s =
      .next
        { s with
          port.dataOut := r.bytes.take count
          port.held := if r.bytes.length ≤ count then none else some r } := by
  change execReadTransfer count s = _
  unfold execReadTransfer
  rw [held]

/-- READ_TRANSFER with no response held sends the empty packet (R200). -/
theorem exec_readTransfer_none {s : State} (held : s.port.held = none) (count : Nat) :
    exec (.readTransfer count) s = .next { s with port.dataOut := emptyPacket.take count } := by
  change execReadTransfer count s = _
  unfold execReadTransfer
  rw [held]

section
variable {s : State} {r : Response} {count : Nat} (held : s.port.held = some r)
include held

/-- A count that does not reach the last byte leaves the response held. -/
theorem exec_readTransfer_part (part : count < r.bytes.length) :
    exec (.readTransfer count) s = .next { s with port.dataOut := r.bytes.take count } := by
  rw [exec_readTransfer_held held, if_neg (Nat.not_le.mpr part), ← held]

/-- A count that reaches the last byte sends the whole response and releases it. -/
theorem exec_readTransfer_whole (whole : r.bytes.length ≤ count) :
    exec (.readTransfer count) s = .next { s with port.dataOut := r.bytes, port.held := none } := by
  rw [exec_readTransfer_held held, if_pos whole, List.take_of_length_le whole]

end

/-- A response packet, field by field (R215). -/
theorem responseBytes_eq (r : Response) :
    r.bytes = withItsCrc ([r.request, r.seq, BitVec.ofNat 8 r.code.code] ++ be 2 r.body.length ++ r.body) := rfl

theorem emptyPacket_eq :
    emptyPacket = withItsCrc [0, Config.emptyPacketSequence, Config.emptyPacketResponse, 0, 0] := rfl

/-! ### The queue -/

theorem moves_requestWork {c : Instr} {r : RequestShape} (h : requestShape c = some r) (s : State) :
    Moves s (requestWork c s).1 := by
  unfold requestShape at h
  split at h <;> cases h
  case h_1 | h_2 | h_20 | h_23 => exact moves_answering _ s
  case h_3 seq body => exact moves_startWork body s
  case h_4 => exact moves_restartWork s
  case h_5 seq body => exact moves_setTimeWork body s
  case h_6 seq body => exact moves_loadPlanWork body s
  case h_7 seq body => exact moves_erasePlanWork body s
  case h_8 seq body => exact moves_readPlanWork body s
  case h_9 seq body => exact moves_addEntryWork body s
  case h_10 seq body => exact moves_dropEntryWork body s
  case h_11 seq body => exact moves_readTimetableWork body s
  case h_12 seq body => exact moves_addSpecialWork body s
  case h_13 seq body => exact moves_dropSpecialWork body s
  case h_14 seq body => exact moves_issueWork body s
  case h_15 seq body => exact moves_cancelWork body s
  case h_16 seq body => exact moves_readOrdersWork body s
  case h_17 seq body => exact moves_placeCallWork body s
  case h_18 seq body => exact moves_readSaveWork s
  case h_19 seq body => exact moves_rewriteSaveWork body s
  case h_21 seq body => exact moves_ackFaultWork body s
  case h_22 => exact moves_readReportsWork s

/-- An outcome is a next state with the queue of a state. -/
def NextWithQueueOf (s : State) (o : Host.Outcome State Fault Refusal) : Prop :=
  ∃ t, o = .next t ∧ t.pending = s.pending

theorem Moves.nextWithQueueOf {s t : State} (h : Moves s t) : NextWithQueueOf s (.next t) := ⟨t, rfl, h.pending⟩

/-- A guarded command: its work, or nothing. -/
theorem nextWithQueueOf_ite {p : Prop} [Decidable p] {s t u : State} (yes : Moves s t) (no : Moves s u) :
    NextWithQueueOf s (if p then .next t else .next u) := by
  split
  · exact yes.nextWithQueueOf
  · exact no.nextWithQueueOf

/-- The commands that are no requests and name no event that waits for its instant. -/
theorem exec_other_nextWithQueueOf {c : Instr} (request : requestShape c = none) (clock : clockDue c = none)
    (boundary : boundaryDue c = none) (sample : sampleDue c = none) (s : State) : NextWithQueueOf s (exec c s) := by
  have same := Moves.refl s
  have first := moves_discardHeld s
  cases c
  case unknownRequest => exact nextWithQueueOf_ite same (first.trans (moves_hold _ _ _ _))
  case malformedRequest => exact nextWithQueueOf_ite same (first.trans (moves_refuseMalformed _ _ _))
  case readTransfer count =>
    cases held : s.port.held with
    | some r => exact ⟨_, exec_readTransfer_held held count, rfl⟩
    | none => exact ⟨_, exec_readTransfer_none held count, rfl⟩
  case powerOnReset => exact ⟨_, rfl, rfl⟩
  case decisecondBoundary levels => exact (moves_takeBoundary levels s).nextWithQueueOf
  case timeFrameReceived => exact nextWithQueueOf_ite (moves_receiveTime _ _ s) same
  case orderFrameReceived => exact nextWithQueueOf_ite (moves_receiveOrder _ s) same
  case cancelFrameReceived => exact nextWithQueueOf_ite (moves_receiveCancel _ s) same
  case frameRejected => exact nextWithQueueOf_ite (moves_rejectFrame _ _ _ _ _ s) same
  case bodyLengthExceeded => exact nextWithQueueOf_ite (moves_dropLength _ s) same
  case frameEndedEarly => exact nextWithQueueOf_ite (moves_dropLength _ s) same
  case startDelimiterEnd => exact nextWithQueueOf_ite (moves_captureDelimiter s) same
  case frameSent => exact nextWithQueueOf_ite (moves_completeFrame s) same
  case collision => exact nextWithQueueOf_ite (moves_collide s) same
  all_goals contradiction

theorem exec_nextWithQueueOf (c : Instr) (s : State) : NextWithQueueOf s (exec c s) := by
  cases request : requestShape c with
  | some r =>
    rw [exec_request request]
    exact (moves_serve _ _ _ _ _ (moves_requestWork request) s).nextWithQueueOf
  | none =>
    cases clock : clockDue c with
    | some due =>
      rw [exec_clockEvent clock]
      exact (moves_whenReached due _ (moves_eventTake c) s).nextWithQueueOf
    | none =>
      cases boundary : boundaryDue c with
      | some due =>
        rw [exec_boundaryEvent boundary]
        exact (moves_whenDue due _ (moves_eventTake c) s).nextWithQueueOf
      | none =>
        cases sample : sampleDue c with
        | some due =>
          rw [exec_sampleEvent sample]
          exact (moves_whenSampled due _ (moves_eventTake c) s).nextWithQueueOf
        | none => exact exec_other_nextWithQueueOf request clock boundary sample s

/-! ### The checks of a packet -/

theorem exec_unknownRequest {code : Byte} (unknown : code ∉ requestCodes) (seq : Byte) (body : List Byte) (s : State) :
    exec (.unknownRequest code seq body) s = .next (s.answered code seq .unknown []) :=
  (if_neg unknown).trans (congrArg Host.Outcome.next (hold_discardHeld code seq (plain .unknown) s))

theorem exec_malformedRequest {packet : List Byte} (unsound : packetSound packet = false) (s : State) :
    exec (.malformedRequest packet) s =
      .next
        (({ s with port.malformed := min 65535 (s.port.malformed + 1) } : State).answered
          (packet.getD 0 (Config.missingEcho 0)) (packet.getD 1 (Config.missingEcho 1)) .malformed []) :=
  (if_neg (by rw [unsound]; exact Bool.false_ne_true)).trans
    (congrArg Host.Outcome.next (refuseMalformed_discardHeld _ _ s))

/-- A byte that a packet carries is the one echoed, whatever stands for a missing one. -/
theorem getD_of_getElem? {packet : List Byte} {i : Nat} {x : Byte} (carried : packet[i]? = some x) (missing : Byte) :
    packet.getD i missing = x := by
  rw [List.getD_eq_getElem?_getD, carried, Option.getD_some]

/-! ### The reports -/

theorem enumerationsCoded : EnumerationsCoded where
  part := rfl
  slot := rfl
  clock := rfl
  coord := rfl
  reference := fun _ => rfl
  suspension := rfl
  direction := rfl
  sequencer := rfl
  interval := rfl
  served := rfl
  aspect := rfl
  phase := rfl
  filter := fun _ _ => rfl
  level := fun _ _ _ _ => rfl
  preemption := rfl
  action := rfl
  record := rfl
  transmitter := rfl
  order := rfl
  source := fun _ _ _ => rfl
  governing := fun _ => rfl
  adopted := rfl
  failed := rfl
  trailing := rfl
  abandoned := rfl
  special := rfl
  response := rfl
  faultClass := rfl
  input := rfl
  frame := rfl
  group := rfl

theorem attention_iff (s : State) : s.attention = true ↔ s.port.reports ≠ [] := by
  simp [State.attention]

/-- A posting leaves a report held: the new one, or the 32 that stood (R208, R209). -/
theorem post_attention (body : ReportBody) (s : State) : (post body s).attention = true := by
  rw [attention_iff]
  by_cases room : s.port.reports.length < 32
  · rw [post_room body s room]
    exact List.append_ne_nil_of_right_ne_nil _ (List.cons_ne_nil _ _)
  · rw [(post_full body s (Nat.not_lt.mp room)).1]
    intro empty
    rw [empty] at room
    exact room (by decide)

@[simp] theorem netTimeField_length (t : NetTime) : (netTimeField t).length = 6 := by simp [netTimeField]

@[simp] theorem signedField_length (v : Int) : (signedField v).length = 6 := be_length _ _

@[simp] theorem wordField_length (set : BitVec 16) : (wordField set).length = 2 := be_length _ _

@[simp] theorem flagField_length (b : Bool) : (flagField b).length = 1 := by cases b <;> rfl

/-- What a report carries in the layout of the model is what the table of the kinds fills its slots with (R215). -/
theorem layout_eq (body : ReportBody) :
    body.layout.1 = (reportFields body).1
      ∧ [body.layout.2.1, body.layout.2.2.1, body.layout.2.2.2] = (reportFields body).2.map List.flatten := by
  cases body
  case schedule old new source =>
    cases source <;>
      exact ⟨rfl, by simp [ReportBody.layout, reportFields, Source.slotBytes, Source.code, Source.days, Source.start]⟩
  case governing a source =>
    cases source <;> exact ⟨rfl, by simp [ReportBody.layout, reportFields, GovSource.code, GovSource.key, timeBytes_eq]⟩
  all_goals exact ⟨rfl, by simp [ReportBody.layout, reportFields, timeBytes_eq, beInt_eq, setBytes_eq, flagByte_eq]⟩

/-- No slot carries more than its 6 bytes. -/
theorem reportFields_fit (body : ReportBody) : ∀ slot ∈ (reportFields body).2, slot.flatten.length ≤ 6 := by
  cases body
  case schedule old new source => cases source <;> simp [reportFields]
  case governing a source => cases source <;> simp [reportFields]
  all_goals simp [reportFields]

theorem slotBytes_of_fits {fields : List Byte} (fits : fields.length ≤ 6) :
    slotBytes fields = fields ++ List.replicate (6 - fields.length) 0 := by
  rw [slotBytes, List.take_append, List.take_of_length_le fits, List.take_replicate, Nat.min_eq_left (Nat.sub_le _ _)]

theorem reportBytes_eq (r : Report) : r.bytes = (reportField r).flatten := by
  obtain ⟨kind, slots⟩ := layout_eq r.body
  have fit := reportFields_fit r.body
  have filled : (reportFields r.body).2.map (fun slot => slot.flatten ++ List.replicate (6 - slot.flatten.length) 0)
      = [slotBytes r.body.layout.2.1, slotBytes r.body.layout.2.2.1, slotBytes r.body.layout.2.2.2] :=
    calc (reportFields r.body).2.map (fun slot => slot.flatten ++ List.replicate (6 - slot.flatten.length) 0)
      _ = (reportFields r.body).2.map (fun slot => slotBytes slot.flatten) :=
        List.map_congr_left fun slot mem => (slotBytes_of_fits (fit slot mem)).symm
      _ = ((reportFields r.body).2.map List.flatten).map slotBytes := by rw [List.map_map]; rfl
      _ = _ := by rw [← slots]; rfl
  rw [reportField, filled, ← kind]
  simp [Report.bytes, timeBytes_eq]

/-- The answer of READ_REPORTS, by the queue and the marks as they stand (R210). -/
theorem reportsAnswer_eq (p : CabinetPort) :
    reportsAnswer p =
      be 1 (min 8 p.reports.length) ++ [if p.overflow then 1 else 0] ++ be 1 p.dropped ++ be 1 (p.reports.length - 8)
        ++ (be 1 (min 8 p.reports.length) ++ ((p.reports.take 8).map fun r => (reportField r).flatten).flatten) := by
  have mark : flagByte p.overflow = [if p.overflow then 1 else 0] := by cases p.overflow <;> rfl
  rw [reportsAnswer, collection, mark, List.length_map, List.length_take, List.length_drop, funext reportBytes_eq]

/-- The state once READ_REPORTS has taken its reports: the first eight gone, mark and count cleared (R210). -/
def State.reportsTaken (s : State) : State :=
  { s with port.reports := s.port.reports.drop 8, port.overflow := false, port.dropped := 0 }

theorem readReportsWork_eq (s : State) : readReportsWork s = (s.reportsTaken, done (reportsAnswer s.port)) := rfl

theorem reportsTaken_discardHeld (s : State) : (discardHeld s).reportsTaken = discardHeld s.reportsTaken := by
  unfold discardHeld State.reportsTaken
  cases s.port.held <;> rfl

theorem reportsAnswer_discardHeld (s : State) : reportsAnswer (discardHeld s).port = reportsAnswer s.port := by
  simp only [reportsAnswer, discardHeld_port_reports, discardHeld_port_overflow, discardHeld_port_dropped]

theorem exec_readReports (seq : Byte) (s : State) :
    exec (.readReports seq []) s = .next (s.reportsTaken.answered 0x40 seq .done (reportsAnswer s.port)) := by
  change Host.Outcome.next (serve 0x40 seq true .both readReportsWork s) = _
  rw [serve_done _ _ _ _ _ rfl, readReportsWork_eq, reportsTaken_discardHeld, reportsAnswer_discardHeld, hold_discardHeld]
  rfl

/-- Reports stay after a READ_REPORTS where more than eight were held. -/
theorem reportsTaken_attention (s : State) : s.reportsTaken.attention = true ↔ 8 < s.port.reports.length := by
  rw [attention_iff]
  change s.port.reports.drop 8 ≠ [] ↔ _
  rw [Ne, List.drop_eq_nil_iff, Nat.not_le]

end Sys2Proof.Machine

open Sys2Proof Sys2Proof.Machine

/-- Settles O3: a request, an event of one of the three ways of waiting, or one of the other commands; the work of each keeps
the queue. -/
theorem everyCommandAnswersNextAndLeavesTheQueue : Obligations.EveryCommandAnswersNextAndLeavesTheQueue :=
  exec_nextWithQueueOf

/-- Settles O7: a request by `serve`, whose checks 3 and 4 refuse it; the two packets that are no requests by what is answered
them. -/
theorem packetsAndRequestsAreChecked : Obligations.PacketsAndRequestsAreChecked := by
  refine ⟨fun c r s shape => ?request, fun code seq body s unknown => exec_unknownRequest unknown seq body s,
    fun packet s unsound => ⟨_, _, fun x carried => getD_of_getElem? carried _, fun x carried => getD_of_getElem? carried _,
      exec_malformedRequest unsound s⟩⟩
  case request =>
    rw [exec_request shape]
    refine ⟨fun unfit => ?_, fun fits barred => ?_⟩
    · rw [unfit, serve_unfit]
    · rw [fits, serve_barred _ _ _ _ _ barred]

/-- Settles O1. -/
theorem stepRunsFrontCommand : Obligations.StepRunsFrontCommand := by
  intro c rest s front
  unfold step
  rw [front]

/-- Settles O9: a count short of the response keeps it held, one that reaches its last byte takes it whole. -/
theorem readTransferSendsTheHeldResponse : Obligations.ReadTransferSendsTheHeldResponse := by
  refine ⟨fun n v => ⟨rfl, rfl⟩, Config.emptyPacketSequence, Config.emptyPacketResponse, fun count s => ?_⟩
  intro bytes
  have packet : Response.bytes = bytes := funext responseBytes_eq
  rw [← packet, ← emptyPacket_eq]
  exact ⟨fun r held part => exec_readTransfer_part held part, fun r held whole => exec_readTransfer_whole held whole,
    fun none => exec_readTransfer_none none count⟩

/-- Settles O14: the codes value by value, `post` by whether there is room, and READ_REPORTS by the state it leaves and the bytes
of its answer. -/
theorem reportsArePostedAndRead : Obligations.ReportsArePostedAndRead := by
  refine ⟨enumerationsCoded, fun body s => ⟨fun room => if_pos room, fun full => if_neg (Nat.not_lt.mpr full),
    attention_iff s, post_attention body s⟩, fun seq s => ⟨?read, reportsTaken_attention s⟩⟩
  case read =>
    rw [← reportsAnswer_eq]
    exact exec_readReports seq s

end
